-- ==== Sys2Proof/Word.lean ====
section
/-!
DEFINITION. The word types of the ALN-A1-960 and the ids of its units (01 R9, 15 R315).
-/
namespace Sys2Proof

abbrev Byte := BitVec 8
abbrev Word := BitVec 32
abbrev Word64 := BitVec 64
abbrev Word128 := BitVec 128

/-- Function ids 0x00 to 0x1F: strand 4r + s (R315). -/
abbrev StrandId := Fin 32
/-- Engine 4r + e; its function id is 0x20 + 4r + e (R315). -/
abbrev EngineId := Fin 32
abbrev RegionId := Fin 8
/-- Block 16r + b of the chip (R9). -/
abbrev BlockId := Fin 128
abbrev PartNo := Fin 4
abbrev PortId := Fin 12
/-- Memory controller 8r + p (R206). -/
abbrev McId := Fin 64
abbrev ChannelId := Fin 256
/-- Chip arbiters 0 to 13, then the region arbiters 14 to 21 (R241). Log entry 85, DESIGN CHOICE. -/
abbrev ArbId := Fin 22
abbrev QueueId := Fin 1048576
abbrev SessionId := Fin 1048576

end Sys2Proof
end

