-- ==== Sys2Proof/Syntax.lean ====
section
/-!
DEFINITION. The commands of the block: one constructor of Instr for each row of spec/opcode_table.json, in the
table's order. A strand instruction carries the strand and its 64-bit word (R149); a staging step carries the engine and
its 64-byte step (R190); the other rows carry what the host, a pin, a partner or the occasion supplies.
-/
namespace Sys2Proof

/-- What the error code found on a word that a step reads (R87, R139, R207, R255). Log entry 104, DESIGN CHOICE. Log entry 112, DESIGN
CHOICE. -/
inductive Ecc where
  | clean | corrected | uncorrected
deriving DecidableEq, Repr

/-- The part of a 64-bit mailbox register that one access touches (R235). -/
inductive Half where
  | whole | lower | upper
deriving DecidableEq, Repr

/-- The SE base and size registers of R217. -/
inductive SeReg where
  | stbase | poolbase | poolpages | sumbase | spillbase | spillslots | spillsumbase
deriving DecidableEq, Repr

/-- What a self-test ran on (R326). The last two are the chip BIST of start-up (R350). -/
inductive BistTarget where
  | region (r : RegionId)
  | channel (c : ChannelId)
  | startRegion (r : RegionId)
  | startChip
deriving DecidableEq, Repr

/-- One pending request at an arbitration point (R241, R242, R244): requester index, lock, the function or unit whose
transfer it is, and what it moves. cost is its length where Table 12.2 gives none. -/
structure ArbReq where
  index : Fin 32
  cost : Nat
  lock : Bool
  owner : Nat
  addr : Nat
  len : Nat
  /-- What the error code finds in the table words that the admitted transfer passes (Table 15.8). Log entry 131, DESIGN CHOICE. -/
  sram : Ecc := .clean
deriving DecidableEq, Repr

/-- Who made a CXL.cache request (R294). -/
inductive D2HAgent where
  | engine (e : EngineId)
  | se
  | qe
deriving DecidableEq, Repr

/-- The MetaValue of a host request (R295); noop is a MetaField of No-Op. -/
inductive Meta where
  | inv | shared | any | noop
deriving DecidableEq, Repr

/-- Where a host access to registers goes: a write or a read of BAR0 (R353), or a write of the MSI-X control of the configuration
space (R299). -/
inductive RegSpace where
  | bar0 | bar0Read | msixControl
deriving DecidableEq, Repr

/-- A Col message as it arrives, header fields of Table 13.4. -/
structure ColMsg where
  mtype : Nat
  poison : Nat
  lenm1 : Nat
  tag : Nat
  addr : Nat
  offset : Nat
  blenm1 : Nat
  cause : Nat
  data : List Byte
deriving DecidableEq, Repr

/-- One sample of the module's sensors for the TEL_ registers (R340). -/
structure TelSample where
  pin : Word
  vin : Word
  iin : Word
  energy : Word64
  tj : List (Byte × Byte)
  tplate : Byte
  vaux : BitVec 16
deriving DecidableEq, Repr

/-- How the NVM takes what a command writes: as written, read back with a difference, or with a worn sector (R336, Table
16.6). Log entry 92, DESIGN CHOICE. -/
inductive Flash where
  | good | mismatch | worn
deriving DecidableEq, Repr

/-- What the error code found on lines of device memory, scratchpad or Basin that a step reads: an address in the line, and
the kind (R207, R255). -/
abbrev EccList := List (Nat × Ecc)

/-- A word of a strand's program as its instruction store gives it (R163, Table 15.8). -/
structure Fetched where
  word : Word64
  ecc : Ecc := .clean
deriving DecidableEq, Repr

/-- A step of a staging program, with what the error code finds on the lines it reads, those of a write that
covers a half in part among them (R190, R207). -/
structure StepRead where
  step : BitVec 512
  found : EccList := []
deriving DecidableEq, Repr

/-- The word of a store, with what the error code finds in the half that the store covers in part (R207). -/
structure StoreWord where
  word : Word64
  ecc : Ecc := .clean
deriving DecidableEq, Repr

/-- An engine whose oldest burst becomes visible, with what the error code finds in the halves that it covers in part (R207). -/
structure BurstEnd where
  engine : EngineId
  found : EccList := []
deriving DecidableEq, Repr

/-- The poison that a host write brings, and what the error code finds in the halves that it covers in part (R207, R300). -/
structure WriteMark where
  poisoned : Bool
  found : EccList := []
deriving DecidableEq, Repr

/-- REGREAD on the management bus: the address called, the offset, and the PEC byte where the request carries one (R347). -/
structure BusRead where
  addr : BitVec 7
  off : Nat
  pec : Option Byte := none
deriving DecidableEq, Repr

/-- SETDASA: the static address called and the dynamic address given (R347). -/
structure Dasa where
  target : BitVec 7
  addr : BitVec 7
deriving DecidableEq, Repr

/-- A scan of the boundary register: the pins as captured, and the bits shifted in (R348). -/
structure Scan where
  pins : List Bool
  tdi : List Bool
deriving DecidableEq, Repr

/-- A part of a block, with what the error code finds on the accumulator words it reads (R87). -/
structure PartRead where
  part : PartNo
  ecc : Ecc := .clean
deriving DecidableEq, Repr

/-- A part of a block, with the VSU table words that the error code finds uncorrectable (R139). -/
structure PartWords where
  part : PartNo
  bad : List Nat := []
deriving DecidableEq, Repr

/-- What the FEC makes of a flit: a codeword it cannot correct, and how many it corrected (R264, R283). -/
structure Fec where
  bad : Bool
  corrected : Nat := 0
deriving DecidableEq, Repr

/-- What patrol scrub found on one half of a line: half index in the group, and the kind. -/
abbrev Finding := Nat × Ecc

inductive Instr where
  -- strand instructions (08, Table 8.7)
  | nop (n : StrandId) (w : Fetched)
  | add (n : StrandId) (w : Word64)
  | sub (n : StrandId) (w : Word64)
  | mul (n : StrandId) (w : Word64)
  | and (n : StrandId) (w : Word64)
  | or (n : StrandId) (w : Word64)
  | xor (n : StrandId) (w : Word64)
  | shl (n : StrandId) (w : Word64)
  | shr (n : StrandId) (w : Word64)
  | sra (n : StrandId) (w : Word64)
  | addi (n : StrandId) (w : Word64)
  | cmp (n : StrandId) (w : Word64)
  | plog (n : StrandId) (w : Word64)
  | fmov (n : StrandId) (w : Word64)
  | fop (n : StrandId) (w : Word64)
  | spec (n : StrandId) (w : Word64)
  | clrc (n : StrandId) (w : Word64)
  | lds (n : StrandId) (w : Word64) (ecc : Ecc)
  | sts (n : StrandId) (w : Word64)
  | ldm (n : StrandId) (w : Word64)
  | ldmDataReturn (n : StrandId) (ecc : Ecc)
  | stm (n : StrandId) (w : StoreWord)
  | br (n : StrandId) (w : Word64)
  | rep (n : StrandId) (w : Word64)
  | tdld (n : StrandId) (w : Word64)
  | tdst (n : StrandId) (w : Word64)
  | tdmov (n : StrandId) (w : Word64)
  | tdset (n : StrandId) (w : Word64)
  | tdget (n : StrandId) (w : Word64)
  | tdadd (n : StrandId) (w : Word64)
  | mma (n : StrandId) (w : Word64)
  -- the matrix array's own steps (04, 05, 06)
  | stationaryRowLoad (b : BlockId) (p : PartNo) (ecc : Ecc)
  | stationarySwap (b : BlockId) (p : PartNo)
  | passRowIssue (b : BlockId) (p : PartNo) (badCells : List (Nat × Nat)) (t4 : Ecc)
  | promotion (b : BlockId) (p : PartRead)
  | accumulatorExchange (b : BlockId) (p : PartNo) (ecc : Ecc)
  | accumulatorSwap (b : BlockId) (p : PartNo)
  | epilogueRowWrite (b : BlockId) (p : PartWords)
  -- vector instructions (R161)
  | vadd (n : StrandId) (w : Word64)
  | vmul (n : StrandId) (w : Word64)
  | vfma (n : StrandId) (w : Word64)
  | vmax (n : StrandId) (w : Word64)
  | vmin (n : StrandId) (w : Word64)
  | vcmp (n : StrandId) (w : Word64)
  | vcvt (n : StrandId) (w : Word64)
  | vfn (n : StrandId) (w : Word64) (badWords : List Nat)
  | vread (n : StrandId) (w : Word64)
  | vsc (n : StrandId) (w : Word64)
  | vbi (n : StrandId) (w : Word64)
  | vds (n : StrandId) (w : Word64)
  | vlc (n : StrandId) (w : Word64)
  | vrd (n : StrandId) (w : Word64)
  | tload (n : StrandId) (w : Word64)
  | tloadComplete (n : StrandId)
  | tswap (n : StrandId) (w : Word64)
  | tswapTakesEffect (n : StrandId)
  -- hand-offs, windows, fences (R163 to R170)
  | stgrun (n : StrandId) (w : Word64)
  | stagingProgramStart (e : EngineId) (n : StrandId)
  | stgwait (n : StrandId) (w : Word64)
  | stgwaitProceed (n : StrandId)
  | launchif (n : StrandId) (w : Word64)
  | launchifSubmit (n : StrandId)
  | start (n : StrandId) (w : Word64)
  | endW (n : StrandId) (w : Word64)
  | endComplete (n : StrandId)
  | arm (n : StrandId) (w : Word64)
  | waita (n : StrandId) (w : Word64)
  | waitaProceed (n : StrandId)
  | rel (n : StrandId) (w : Word64)
  | relComplete (n : StrandId)
  | acq (n : StrandId) (w : Word64)
  | bar (n : StrandId) (w : Word64)
  | barComplete (n : StrandId)
  | halt (n : StrandId) (w : Word64)
  | mbxw (n : StrandId) (w : Word64)
  | mbxwProceed (n : StrandId)
  | mbxr (n : StrandId) (w : Word64)
  | mbxrProceed (n : StrandId)
  | mbxt (n : StrandId) (w : Word64)
  -- collectives, sessions, digests (R171 to R173)
  | chstep (n : StrandId) (w : Word64)
  | trstep (n : StrandId) (w : Word64)
  | tkmerge (n : StrandId) (w : Word64)
  | smxc (n : StrandId) (w : Word64)
  | smxd (n : StrandId) (w : Word64)
  | prcomb (n : StrandId) (w : Word64)
  | salloc (n : StrandId) (w : Word64)
  | slook (n : StrandId) (w : Word64)
  | sfree (n : StrandId) (w : Word64)
  | ssum (n : StrandId) (w : Word64)
  | recall (n : StrandId) (data : List Byte) (poisoned : Bool)
  | dgadd (n : StrandId) (w : Word64)
  | dgfin (n : StrandId) (w : Word64)
  -- staging steps (10, Table 10.1)
  | copy (e : EngineId) (st : StepRead)
  | burstWrite (e : BurstEnd)
  | arrival (e : EngineId)
  | colsum (e : EngineId) (st : StepRead)
  | bucket (e : EngineId) (st : StepRead)
  | setx (e : EngineId) (st : BitVec 512)
  | ldx (e : EngineId) (st : StepRead)
  | stx (e : EngineId) (st : StepRead)
  | stgBr (e : EngineId) (st : BitVec 512)
  | loop (e : EngineId) (st : BitVec 512)
  | cvuset (e : EngineId) (st : BitVec 512)
  | cvuout (e : EngineId) (st : StepRead)
  | shainit (e : EngineId) (st : BitVec 512)
  | shafin (e : EngineId) (st : BitVec 512)
  | arrive (e : EngineId) (st : BitVec 512)
  | stgEnd (e : EngineId) (st : BitVec 512)
  -- queues and sessions (11)
  | doorbell (i : Fin 64) (bytes : Nat) (v : Word64)
  | dispatch
  | binaryLoad (n : StrandId)
  | completionRecordWrite (cq : QueueId)
  | queueEnable (q : QueueId)
  | queueDisable (q : QueueId)
  | qtbaseWrite (v : Word64)
  | seBaseWrite (r : SeReg) (v : Word64)
  | initpool
  | openS (s : SessionId)
  | closeS (s : SessionId)
  | spill (s : SessionId)
  -- mailboxes (R234 to R237); index 32 of MAILBOX_LATCH_WRITE is MBX_H2MC
  | mbxH2sWrite (n : StrandId) (h : Half) (v : Word64)
  | mbxS2hRead (n : StrandId) (h : Half)
  | mbxH2mcWrite (h : Half) (v : Word64)
  | mbxMc2hRead (h : Half)
  | mailboxLatchWrite (i : Fin 33) (v : Word)
  | mcRegionMailboxWrite (r : RegionId) (v : Word64)
  -- power and self-test (15)
  | setPs0 (r : RegionId)
  | setPs1 (r : RegionId)
  | setPs2 (r : RegionId)
  | setPs3 (r : RegionId)
  | setPs4 (r : RegionId)
  | selfRefreshEntry (r : RegionId)
  | selfRefreshExit (r : RegionId)
  | powerTransitionComplete (r : RegionId)
  | regionBist (r : RegionId)
  | memoryBist (c : ChannelId)
  | bistComplete (t : BistTarget) (pass : Bool)
  | funcReset (f : Byte)
  | funcDisable (f : Byte)
  | funcEnable (f : Byte)
  | funcCommandComplete
  | thermalSample (tj : List Byte)
  -- VSU registers (07)
  | vsuCommit (r : RegionId)
  | vsuLibLoad (r : RegionId) (slot : Fin 32) (idx : Byte)
  | vsuLibLoadSwap (r : RegionId) (slot : Fin 32) (idx : Byte)
  | vsuLibLoadComplete (r : RegionId)
  -- arbiters (12)
  | arbCommit (a : ArbId)
  | arbiterGrant (a : ArbId) (pt : Fin 12) (reqs : List ArbReq)
  | creditPeriodEnd (a : ArbId) (pt : Fin 12)
  | watchdogBite (a : ArbId) (pt : Fin 12)
  -- management commits (10, 13, 16)
  | wdtInvalidateEntry (i : Fin 4096)
  | wdtInvalidateAll
  | mgtProfileCommit
  | mgtColCommit
  | colRtCommit (p : PortId)
  -- Col link (13)
  | colPortEnable (p : PortId)
  | colPortDisable (p : PortId)
  | lpiRequest (p : PortId)
  | lpiRelease (p : PortId)
  | retrain (p : PortId)
  | trainingAttempt (p : PortId)
  | trainingComplete (p : PortId) (modid : BitVec 12) (port : BitVec 4) (profile : Word64)
  | trainingTimeout (p : PortId)
  | lossOfSignal (p : PortId)
  | flitReceive (p : PortId) (bytes : List Byte) (fec : Fec)
  | nak (p : PortId) (seq : BitVec 10)
  | nakRepeat (p : PortId)
  | nakLimitRetrain (p : PortId)
  | creditReturn (p : PortId)
  | info (p : PortId) (modid : BitVec 12) (port : BitVec 4) (profile : Word64)
  | credit (p : PortId) (vc : Fin 8) (k : Nat)
  | lpiReq (p : PortId)
  | lpiAck (p : PortId)
  -- Col messages delivered to this module, from module src
  | write (src : BitVec 12) (m : ColMsg)
  | burstAssemblyTimeout (src : BitVec 12) (tag : BitVec 16)
  | readreq (src : BitVec 12) (m : ColMsg)
  | readrsp (src : BitVec 12) (m : ColMsg)
  | wrack (src : BitVec 12) (m : ColMsg)
  | colArrive (src : BitVec 12) (m : ColMsg)
  | atomadd (src : BitVec 12) (m : ColMsg)
  | unreach (src : BitVec 12) (m : ColMsg)
  | e2eTimeout (e : EngineId) (tag : BitVec 16)
  -- CXL (14)
  | memrd (hpa : Nat) (mv : Meta) (ecc : Ecc)
  | memrddata (hpa : Nat) (mv : Meta) (ecc : Ecc)
  | memwr (hpa : Nat) (mv : Meta) (enable : BitVec 64) (data : List Byte) (poisoned : WriteMark)
  | meminv (hpa : Nat)
  | birsp (line : Nat)
  | biconflict (line : Nat)
  | bisnpTimeout (line : Nat)
  | h2dSnoop (hpa : Nat)
  | d2hCompletion (a : D2HAgent) (isRead : Bool) (data : List Byte) (poisoned : Bool)
  | d2hTimeout (a : D2HAgent)
  | bar2Read (off : Nat) (len : Nat) (ecc : Ecc)
  | bar2Write (off : Nat) (data : List Byte) (poisoned : Bool)
  | hdmDecoderCommit (base size : Nat) (ways : Nat) (bi : Bool) (lock : Bool)
  | d3hotEntry
  | perstAssert
  | perstRelease
  | lpddrTrainingComplete (failed : List ChannelId)
  | startupSegmentOnline
  | cxlReset (memClr : Bool)
  | flr
  | doeDiscovery (idx : Byte)
  | spdmRequest (req : List Byte)
  | cdatRead (entry : BitVec 16)
  | doeAbort
  -- segments and NVM (10, 16)
  | segmentOnline (s : BitVec 10)
  | segmentOffline (s : BitVec 10)
  | segmentCommandComplete
  | store
  | update
  | compact
  | nvsCommandComplete
  -- board, management bus, test port (17)
  | auxPowerApplied
  | trialBootTimeout
  | mcReady
  | mainPowerOn
  | mainPowerOff
  | regread (off : BusRead)
  | status
  | setdasa (addr : Dasa)
  | entdaa (addr : BitVec 7)
  | bypass (tdi : Bool)
  | idcode
  | samplePreload (pins : Scan)
  | extest (pins : Scan)
  | debugUnlock (token : List Byte)
  -- maintenance (10, 12, 16)
  | refresh (c : ChannelId) (bank : Fin 16)
  | mr4Read (c : ChannelId) (code : BitVec 3)
  | zqCalibration (c : ChannelId) (rank : Fin 2)
  | dqsOscillatorRead (c : ChannelId) (rank : Fin 2) (drift : Bool)
  | patrolScrub (c : ChannelId) (found : List Finding) (written : List Nat)
  | scratchpadScrub (r : RegionId) (bank : Fin 64) (word : Fin 12288) (ecc : Ecc)
  | telemetryLatch (t : TelSample)
  | wearManagement
  | registerWrite (sp : RegSpace) (off : Nat) (bytes : Nat) (v : Word64)
  | d3hotExit
  | auxPowerRemoved
  | mbxMc2hWrite (v : Word64)
  | mbxH2mcRead
  | partnerLpiExit (p : PortId)
  | cxlResetComplete
deriving DecidableEq, Repr

end Sys2Proof
end

