-- ==== Sys2Proof/Config.lean ====
section
/-!
DEFINITION. The values the spec leaves open, as constants without a body: nothing can be proved of their values. Each
names its log entry.
-/
namespace Sys2Proof.Config

/-- TIME of an event record, by its number (15 Table 15.9; log entry 7, DESIGN CHOICE). -/
opaque eventTime : Nat → Word64

/-- Whether the corrected record with this number falls within 1 ms of the one before it (15 R324; log entry 7, DESIGN CHOICE). -/
opaque withinMs : Nat → Bool

/-- CORECLK cycles of a window, a function of its issue path (08 R167; log entry 7, DESIGN CHOICE). -/
opaque windowCycles : List Nat → Word

/-- Bits [11:0] of ARB_PERIOD at the n-th read (12 Table 12.4; log entry 7, DESIGN CHOICE). -/
opaque periodCycle : Nat → Nat → BitVec 12

/-- Candidate result of a built-in function slot, where Table 7.1 gives a bound of the error: it is taken when it meets
the bound (07 R128; log entry 10, DESIGN CHOICE). Arguments: slot, seam clamp in effect, input bits, rounding mode, 16 bits
of the draw. -/
opaque builtin : Nat → Bool → Word → Nat → Nat → Word

/-- Bits of a reduced input that is no FP32 value, for a BITS selection (07 Table 7.3; log entry 23, DESIGN CHOICE). Arguments: the
input and TBASE. -/
opaque reducedBits : Word → Word → Nat

/-- Scratchpad offset, in words, of the index list of a GX MMA: the spec names no field for it (04 R80; log entry 11, DESIGN CHOICE).
Arguments: the MMA's word and its chain record. -/
opaque gxList : Word64 → Nat → Nat

/-- The device key, which only the signing path uses (16 R328, R339; log entry 14, DESIGN CHOICE). -/
opaque deviceKey : List Byte

/-- The attestation alias key, derived from the device key and measurement 2 (14 R302; log entry 14, DESIGN CHOICE). -/
opaque aliasKey : List Byte → List Byte → List Byte

/-- Signature bytes of a key over a message (12 R261, 14 R302; log entry 14, DESIGN CHOICE). -/
opaque signature : List Byte → List Byte → Nat → BitVec 512

/-- Bytes of the identity area that hold neither of its items, by offset (16 R328; log entry 6, DESIGN CHOICE). -/
opaque factoryByte : Nat → Byte

/-- The device key as the identity area holds it, wrapped by the key in the chip's fuses (16 Table 16.1; log entry 14, DESIGN
CHOICE). -/
opaque wrappedKey : List Byte → List Byte

/-- Certificate of the device key, and the Glovin intermediate certificate (16 Table 16.1, R339; log entry 14, DESIGN CHOICE). -/
opaque deviceCert : List Byte → List Byte
opaque intermediateCert : List Byte

/-- Whether a signature of the Glovin firmware key over header bytes holds (16 R335; log entry 14, DESIGN CHOICE). -/
opaque firmwareSigned : List Byte → List Byte → Bool

/-- Whether a debug unlock token is one signed by Glovin for this device (17 R348; log entry 14, DESIGN CHOICE). -/
opaque debugToken : List Byte → Bool

/-- Answer of the SPDM responder to a request that R302 names no value for (14 R302; log entry 14, DESIGN CHOICE). -/
opaque spdmAnswer : List Byte → List Byte → List Byte

/-- SHA-256 of the boot ROM, of the running firmware and of the built-in VSU images (14 Table 14.7; log entry 14, DESIGN CHOICE). -/
opaque measurement : Nat → List Byte

/-- Identity values of the part (14 Table 14.2, 16 R339, 18 Table 18.3; log entry 6, DESIGN CHOICE). -/
opaque vendorId : BitVec 16
opaque stepping : BitVec 4
opaque serial : Word64
opaque jedecCode : BitVec 11

/-- Words of the CXL RAS header log while an uncorrectable error is held (14 R300; log entry 93, PRESUMED). -/
opaque rasHeader : Nat → Word

/-- Value of the CVU result register while VALID is 0 (10 R201; log entry 9, DESIGN CHOICE). -/
opaque cvuUndefined : Nat → Word64

/-- p[PD] of an STGWAIT of a strand that has started no program on the engine (08 R163; log entry 9, DESIGN CHOICE). Arguments: the
engine's number and the offset of the instruction. -/
opaque stgwaitNever : Nat → Nat → Bool

/-- Choice among ready classes left to timing, and any other undetermined choice, by number (log entry 9, DESIGN CHOICE). -/
opaque choice : Nat → Nat

/-- A word that a strand reads in the scratchpad or Basin of another region that sleeps (15 R309; log entry 19, DESIGN CHOICE). -/
opaque asleepWord : Nat → Word

/-- Tile maximum of a chain-6 row that holds −∞ only (06 R120; log entry 24, DESIGN CHOICE). Arguments: launch seed, TENSOR, offset of
the MMA, row and first column, so that equal runs write equal bits (12 R257). -/
opaque emptyRowMax : List Nat → Word

/-- L16 code of a VLC difference above 16,383 (06 R120, 08 R161; log entry 24, DESIGN CHOICE). -/
opaque lcAbove : Word → Nat

/-- An SMXD difference outside INT32 (08 R171; log entry 27, DESIGN CHOICE). -/
opaque smxdOver : Word → Word → Word

/-- SQHEAD of the completion of a LAUNCHIF aimed at an unfit queue, by queue and by number (11 R224; log entry 28, DESIGN CHOICE). -/
opaque badQueueHead : Nat → Nat → Word

/-- Header and payload of a link control flit, whose layout the spec does not give (13 R266; log entry 37, DESIGN CHOICE). Arguments: 0
INFO, 1 CREDIT, 2 LPI_REQ, 3 LPI_ACK, then the values it carries. -/
opaque ctrlHeader : List Nat → Nat
opaque ctrlPayload : List Nat → Nat

/-- INFO of a code 0x15 record: Table 15.10 gives its two fields the same bits (15 Table 15.10; log entry 42, DEDUCED). Arguments:
kind, region or channel. -/
opaque bistInfo : Nat → Nat → Word64

/-- INFO of a code 0x16 record: Table 15.10 names a structure and gives no numbers (15 Table 15.10; log entry 131, DESIGN
CHOICE). Argument: the arbiter at whose grant the error is met. -/
opaque sramStructure : Nat → BitVec 4

/-- How the NVM takes what a command writes, by number: 0 as written, 1 read back with a difference, else with a worn sector
(16 R336, Table 16.6; log entry 92, DESIGN CHOICE). -/
opaque flash : Nat → BitVec 2

/-- A program unit whose writing power loss interrupts (16, The NVM; log entry 46, DESIGN CHOICE), by number. -/
opaque tornUnit : Nat → BitVec 128

end Sys2Proof.Config
end

