-- ==== Sys2Proof/Machine/Bits.lean ====
section
/-!
DEFINITION. Fields, byte order and saturating counts (00 R3, R4; 02 R15).
-/
namespace Sys2Proof.Machine

/-- Bits [lo + n − 1 : lo] of w (R4). -/
def fld (w lo n : Nat) : Nat := w / 2 ^ lo % 2 ^ n

/-- Bit i of w. -/
def bitAt (w i : Nat) : Bool := fld w i 1 == 1

/-- w with bits [lo + n − 1 : lo] replaced by v. -/
def setFld (w lo n v : Nat) : Nat := w - fld w lo n * 2 ^ lo + v % 2 ^ n * 2 ^ lo

/-- The two's-complement value of the n low bits of w. -/
def sext (n w : Nat) : Int :=
  let v := w % 2 ^ n
  if v < 2 ^ (n - 1) then (v : Int) else (v : Int) - 2 ^ n

/-- The n-bit two's-complement code of i, modulo 2^n. -/
def wrap (n : Nat) (i : Int) : Nat := (i % (2 ^ n : Int)).toNat

def b2n (b : Bool) : Nat := if b then 1 else 0

/-- n bytes of v, least significant first (R3). -/
def leBytes : Nat → Nat → List Byte
  | 0, _ => []
  | n + 1, v => BitVec.ofNat 8 v :: leBytes n (v / 256)

/-- The value of bytes, least significant first (R3). -/
def leValue : List Byte → Nat
  | [] => 0
  | b :: bs => b.toNat + 256 * leValue bs

/-- The n-byte little-endian value at offset off of a record. -/
def fieldLE (bs : List Byte) (off n : Nat) : Nat := leValue ((bs.drop off).take n)

def allZero (bs : List Byte) : Bool := bs.all (· == 0)

/-- A 32-bit count that saturates at 0xFFFF_FFFF. -/
def satAdd (c : Word) (k : Nat) : Word :=
  if c.toNat + k < 2 ^ 32 then BitVec.ofNat 32 (c.toNat + k) else BitVec.ofNat 32 0xFFFFFFFF

/-- A count held in n bits that saturates at its largest value. -/
def satAddN (n c k : Nat) : Nat := if c + k < 2 ^ n then c + k else 2 ^ n - 1

def ceilDiv (a b : Nat) : Nat := (a + b - 1) / b

/-- Splits a list into pieces of n, for a positive n; fuel bounds the pieces. -/
def piecesFuel {α : Type} (n : Nat) : Nat → List α → List (List α)
  | 0, _ => []
  | fuel + 1, xs => if xs.isEmpty then [] else xs.take n :: piecesFuel n fuel (xs.drop n)

def pieces {α : Type} (n : Nat) (xs : List α) : List (List α) := piecesFuel n xs.length xs

/-- Insertion by a strict order, before the first element that does not precede x. -/
def insertBy {α : Type} (lt : α → α → Bool) (x : α) : List α → List α
  | [] => [x]
  | y :: ys => if lt y x then y :: insertBy lt x ys else x :: y :: ys

/-- Stable sort by a strict order. -/
def sortBy {α : Type} (lt : α → α → Bool) (xs : List α) : List α :=
  xs.foldr (insertBy lt) []

/-- Look-up in a table held as pairs. -/
def assoc {α : Type} (k : Nat) (d : α) : List (Nat × α) → α
  | [] => d
  | (i, a) :: t => if i = k then a else assoc k d t

/-- Update of a table held as pairs, keys rising. -/
def assocSet {α : Type} (k : Nat) (v : α) : List (Nat × α) → List (Nat × α)
  | [] => [(k, v)]
  | (i, a) :: t => if k < i then (k, v) :: (i, a) :: t else if i = k then (k, v) :: t else (i, a) :: assocSet k v t

/-- A set of numbers as a rising list. -/
def setInsert (k : Nat) : List Nat → List Nat
  | [] => [k]
  | i :: t => if k < i then k :: i :: t else if i = k then i :: t else i :: setInsert k t

/-- Numbers a, a + 1, …, a + n − 1. -/
def span (a n : Nat) : List Nat := (List.range n).map (a + ·)

end Sys2Proof.Machine
end

