-- ==== Sys2Proof/Machine/Exact.lean ====
section
/-!
DEFINITION. Exact values (02 R37: every rounding is one step from an exact value). A finite value is a sum of integers
times 2^(j/256), scaled by a power of two and divided by a positive integer: logarithmic codes (R27) and divisions by
scales (R356) stay exact in it.
-/
namespace Sys2Proof.Machine

/-- value = (sum over (j, c) of c · 2^(j/256)) · 2^e / den, with j from 0 to 255 rising and every c non-zero. -/
structure Ex where
  num : List (Nat × Int)
  e : Int
  den : Nat
deriving DecidableEq, Repr

def Ex.zero : Ex := ⟨[], 0, 1⟩
def Ex.ofInt (i : Int) : Ex := if i = 0 then Ex.zero else ⟨[(0, i)], 0, 1⟩
/-- c · 2^k. -/
def Ex.dyadic (c k : Int) : Ex := if c = 0 then Ex.zero else ⟨[(0, c)], k, 1⟩
/-- c · 2^(n/256), n any integer. -/
def Ex.pow256 (c n : Int) : Ex := ⟨[((n % 256).toNat, c)], n / 256, 1⟩

def Ex.isZero (x : Ex) : Bool := x.num.isEmpty

def addTerms : List (Nat × Int) → List (Nat × Int) → List (Nat × Int)
  | [], ys => ys
  | (j, c) :: xs, ys =>
    let rec ins : List (Nat × Int) → List (Nat × Int)
      | [] => [(j, c)]
      | (k, d) :: t =>
        if j < k then (j, c) :: (k, d) :: t
        else if j = k then (if c + d = 0 then t else (j, c + d) :: t)
        else (k, d) :: ins t
    ins (addTerms xs ys)

def scaleTerms (k : Int) (xs : List (Nat × Int)) : List (Nat × Int) :=
  if k = 0 then [] else xs.map fun p => (p.1, p.2 * k)

def pow2 (k : Int) : Nat := 2 ^ k.toNat

def Ex.neg (x : Ex) : Ex := { x with num := x.num.map fun p => (p.1, -p.2) }

def Ex.add (x y : Ex) : Ex :=
  if x.isZero then y else if y.isZero then x else
    let e := min x.e y.e
    let sx : Int := pow2 (x.e - e)
    let sy : Int := pow2 (y.e - e)
    if x.den = y.den then ⟨addTerms (scaleTerms sx x.num) (scaleTerms sy y.num), e, x.den⟩
    else ⟨addTerms (scaleTerms (sx * y.den) x.num) (scaleTerms (sy * x.den) y.num), e, x.den * y.den⟩

def Ex.sub (x y : Ex) : Ex := x.add y.neg

def mulTerm (j : Nat) (c : Int) (ys : List (Nat × Int)) : List (Nat × Int) :=
  ys.foldr (fun p acc =>
    let q : Nat × Int := if j + p.1 < 256 then (j + p.1, c * p.2) else (j + p.1 - 256, 2 * c * p.2)
    addTerms [q] acc) []

def Ex.mul (x y : Ex) : Ex :=
  if x.isZero || y.isZero then Ex.zero else
    ⟨x.num.foldr (fun p acc => addTerms (mulTerm p.1 p.2 y.num) acc) [], x.e + y.e, x.den * y.den⟩

/-- x · 2^k. -/
def Ex.shift (x : Ex) (k : Int) : Ex := if x.isZero then x else { x with e := x.e + k }

/-- Exact quotient by a rational y, y not zero. -/
def Ex.divRat (x y : Ex) : Ex :=
  match y.num with
  | [(0, d)] =>
    if x.isZero then Ex.zero
    else ⟨scaleTerms ((if d < 0 then -1 else 1) * y.den) x.num, x.e - y.e, x.den * d.natAbs⟩
  | _ => x

/-- Newton's integer square root, from an upper bound downward. -/
def isqrtGo (n : Nat) : Nat → Nat → Nat
  | 0, x => x
  | fuel + 1, x =>
    let y := (x + n / x) / 2
    if y < x then isqrtGo n fuel y else x

/-- The largest r with r² ≤ n. -/
def isqrt (n : Nat) : Nat :=
  if n = 0 then 0 else isqrtGo n (n.log2 + 4) (2 ^ (n.log2 / 2 + 1))

/-- ⌊2^(j/256) · 2^p⌋. -/
def root256 (j p : Nat) : Nat :=
  if j = 0 then 2 ^ p else
    isqrt (isqrt (isqrt (isqrt (isqrt (isqrt (isqrt (isqrt (2 ^ (j + 256 * p)))))))))

/-- Sum at precision p, and a bound of its error, both in units of 2^−p. -/
def evalTerms (p : Nat) : List (Nat × Int) → Int × Nat
  | [] => (0, 0)
  | (j, c) :: t =>
    let r := evalTerms p t
    (r.1 + c * (root256 j p : Int), r.2 + (if j = 0 then 0 else c.natAbs))

def Ex.rational (x : Ex) : Bool := x.num.all fun p => p.1 == 0

def floorDivPow (n : Nat) (k : Int) (d : Nat) : Nat × Bool :=
  let a := n * pow2 k
  let b := d * pow2 (-k)
  (a / b, a % b == 0)

/-- Bits an approximation must start with. -/
def Ex.startBits (x : Ex) : Nat := x.num.foldl (fun m p => max m (p.2.natAbs.log2 + 1)) 64 + 64

def floorIrr (x : Ex) (k : Int) : Nat → Nat → Nat
  | 0, p =>
    let r := evalTerms p x.num
    (floorDivPow (r.1.natAbs - r.2) (x.e + k - p) x.den).1
  | fuel + 1, p =>
    let r := evalTerms p x.num
    let lo := (floorDivPow (r.1.natAbs - r.2) (x.e + k - p) x.den).1
    let hi := (floorDivPow (r.1.natAbs + r.2) (x.e + k - p) x.den).1
    if lo = hi then lo else floorIrr x k fuel (2 * p)

/-- ⌊|x| · 2^k⌋ and whether that is exact. An irrational value is never exact. -/
def Ex.floorMul (x : Ex) (k : Int) : Nat × Bool :=
  match x.num with
  | [] => (0, true)
  | [(0, c)] => floorDivPow c.natAbs (x.e + k) x.den
  | _ => (floorIrr x k 6 (x.startBits + (x.e + k).toNat), false)

def signIrr (ts : List (Nat × Int)) : Nat → Nat → Bool
  | 0, p => (evalTerms p ts).1 < 0
  | fuel + 1, p =>
    let r := evalTerms p ts
    if r.2 < r.1.natAbs then decide (r.1 < 0) else signIrr ts fuel (2 * p)

/-- Whether the value is below zero. -/
def Ex.isNeg (x : Ex) : Bool :=
  match x.num with
  | [] => false
  | [(_, c)] => c < 0
  | ts => signIrr ts 7 x.startBits

def Ex.abs (x : Ex) : Ex := if x.isNeg then x.neg else x

def Ex.lt (x y : Ex) : Bool := (x.sub y).isNeg
def Ex.eq (x y : Ex) : Bool := (x.sub y).isZero

def ilog2Go (x : Ex) : Nat → Int → Int
  | 0, k => -k
  | fuel + 1, k =>
    let q := (x.floorMul k).1
    if q = 0 then ilog2Go x fuel (k + 64) else (q.log2 : Int) - k

/-- ⌊log2 |x|⌋ of a value that is not zero. -/
def Ex.ilog2 (x : Ex) : Int := ilog2Go x 8 (x.den.log2 + 1 - x.e)

/-- Fraction bits of log2 m, m in [1, 2) at precision p, by repeated squaring. -/
def log2Bits (p : Nat) : Nat → Nat → Nat → Nat
  | 0, _, acc => acc
  | n + 1, m, acc =>
    let m2 := m * m / 2 ^ p
    if m2 < 2 ^ (p + 1) then log2Bits p n m2 (2 * acc) else log2Bits p n (m2 / 2) (2 * acc + 1)

/-- ⌊log2 |x| · 2^n⌋ of a value that is not zero, n from 8. -/
def Ex.log2Floor (n : Nat) (x : Ex) : Int :=
  match x.num with
  | [(j, c)] =>
    let y : Ex := ⟨[(0, c)], 0, x.den⟩
    let l := y.ilog2
    let p := 2 * (c.natAbs.log2 + x.den.log2) + 256
    let m := (y.floorMul (p - l)).1
    (x.e + l) * 2 ^ n + (log2Bits p n m 0 : Int) + (j : Int) * 2 ^ (n - 8)
  | _ =>
    let l := x.ilog2
    let m := (x.floorMul (512 - l)).1
    l * 2 ^ n + (log2Bits 512 n m 0 : Int)

/-- ⌊x⌋ of a rational value. -/
def Ex.floorInt (x : Ex) : Int :=
  let r := x.floorMul 0
  if x.isNeg then (if r.2 then -(r.1 : Int) else -(r.1 : Int) - 1) else r.1

/-- A decoded value: NaN and NaR are one class (R42). -/
inductive Val where
  | nan
  | inf (neg : Bool)
  | fin (x : Ex)
deriving DecidableEq, Repr

def Val.zero : Val := .fin Ex.zero
def Val.one : Val := .fin (Ex.ofInt 1)
def Val.ofInt (i : Int) : Val := .fin (Ex.ofInt i)

def Val.isNan : Val → Bool
  | .nan => true
  | _ => false

def Val.isFinite : Val → Bool
  | .fin _ => true
  | _ => false

def Val.isZero : Val → Bool
  | .fin x => x.isZero
  | _ => false

def Val.isNeg : Val → Bool
  | .nan => false
  | .inf n => n
  | .fin x => x.isNeg

def Val.neg : Val → Val
  | .nan => .nan
  | .inf n => .inf (!n)
  | .fin x => .fin x.neg

def Val.abs (v : Val) : Val := if v.isNeg then v.neg else v

/-- Exact sum; specials as IEEE 754-2019. -/
def Val.add : Val → Val → Val
  | .nan, _ => .nan
  | _, .nan => .nan
  | .inf a, .inf b => if a = b then .inf a else .nan
  | .inf a, _ => .inf a
  | _, .inf b => .inf b
  | .fin x, .fin y => .fin (x.add y)

def Val.sub (a b : Val) : Val := a.add b.neg

/-- Exact product; specials as IEEE 754-2019. -/
def Val.mul : Val → Val → Val
  | .nan, _ => .nan
  | _, .nan => .nan
  | .inf a, .inf b => .inf (a != b)
  | .inf a, .fin y => if y.isZero then .nan else .inf (a != y.isNeg)
  | .fin x, .inf b => if x.isZero then .nan else .inf (b != x.isNeg)
  | .fin x, .fin y => .fin (x.mul y)

/-- Division by a destination scale (R356). -/
def Val.div : Val → Val → Val
  | .nan, _ => .nan
  | _, .nan => .nan
  | .inf _, .inf _ => .nan
  | .inf a, .fin y => .inf (a != y.isNeg)
  | .fin _, .inf _ => Val.zero
  | .fin x, .fin y =>
    if y.isZero then (if x.isZero then .nan else .inf x.isNeg) else .fin (x.divRat y)

/-- Strictly below in the order of R42: NaN ranks above +∞. -/
def Val.lt : Val → Val → Bool
  | .nan, _ => false
  | _, .nan => true
  | .inf a, .inf b => a && !b
  | .inf a, .fin _ => a
  | .fin _, .inf b => !b
  | .fin x, .fin y => x.lt y

/-- Equal rank in the order of R42. -/
def Val.eqv (a b : Val) : Bool := !(a.lt b) && !(b.lt a)

def Val.max (a b : Val) : Val := if a.lt b then b else a
def Val.min (a b : Val) : Val := if b.lt a then b else a

end Sys2Proof.Machine
end

