-- ==== Sys2Proof/Machine/Format.lean ====
section
/-!
DEFINITION. Format codes, the value of every code and the rounding of an exact value to a code (02 R13 to R41), and the
block quantisation of R61.
-/
namespace Sys2Proof.Machine

/-- The formats of Table 2.1. -/
inductive Fmt where
  | fp32 | fp16 | bf16 | e4m3 | e5m2 | e3m2 | e2m3 | e2m1 | mxint8 | posit8 | posit16 | posit32 | l8 | l16
  | int8 | uint8 | int4 | t4 | int32 | int16 | accp | quire8 | quire16 | quire32
deriving DecidableEq, Repr

/-- Table 2.1; none for a reserved code (R14). -/
def fmtOfCode : Nat → Option Fmt
  | 0x00 => some .fp32 | 0x01 => some .fp16 | 0x02 => some .bf16
  | 0x08 => some .e4m3 | 0x09 => some .e5m2 | 0x0A => some .e3m2 | 0x0B => some .e2m3 | 0x0C => some .e2m1
  | 0x0D => some .mxint8 | 0x10 => some .posit8 | 0x11 => some .posit16 | 0x12 => some .posit32
  | 0x18 => some .l8 | 0x19 => some .l16 | 0x20 => some .int8 | 0x21 => some .uint8 | 0x22 => some .int4
  | 0x23 => some .t4 | 0x24 => some .int32 | 0x25 => some .int16 | 0x30 => some .accp
  | 0x31 => some .quire8 | 0x32 => some .quire16 | 0x33 => some .quire32
  | _ => none

/-- Stored bits of one element; an accumulator pair is stored as two planes of 32 bits (R31). -/
def Fmt.bits : Fmt → Nat
  | .fp32 | .posit32 | .int32 | .accp => 32
  | .fp16 | .bf16 | .posit16 | .l16 | .int16 => 16
  | .e4m3 | .e5m2 | .mxint8 | .posit8 | .l8 | .int8 | .uint8 => 8
  | .e3m2 | .e2m3 => 6
  | .e2m1 | .int4 | .t4 => 4
  | .quire8 => 128 | .quire16 => 256 | .quire32 => 512

def Fmt.isMx : Fmt → Bool
  | .e4m3 | .e5m2 | .e3m2 | .e2m3 | .e2m1 | .mxint8 => true
  | _ => false
def Fmt.isLong : Fmt → Bool
  | .fp32 | .fp16 | .bf16 => true
  | _ => false
def Fmt.isPosit : Fmt → Bool
  | .posit8 | .posit16 | .posit32 => true
  | _ => false
def Fmt.isQuire : Fmt → Bool
  | .quire8 | .quire16 | .quire32 => true
  | _ => false
def Fmt.isL : Fmt → Bool
  | .l8 | .l16 => true
  | _ => false
def Fmt.isIntegerClass : Fmt → Bool
  | .int8 | .uint8 | .int4 | .int32 | .int16 => true
  | _ => false
/-- Role W of Table 2.1. -/
def Fmt.roleW : Fmt → Bool
  | .uint8 | .int32 | .accp | .quire8 | .quire16 | .quire32 => false
  | _ => true
/-- Role A of Table 2.1. -/
def Fmt.roleA : Fmt → Bool
  | .t4 | .int32 | .accp | .quire8 | .quire16 | .quire32 => false
  | _ => true
/-- Role O of Table 2.1. -/
def Fmt.roleO : Fmt → Bool
  | .t4 | .accp | .quire8 | .quire16 | .quire32 => false
  | _ => true
/-- Role ACC of Table 2.1. -/
def Fmt.roleAcc : Fmt → Bool
  | .int32 | .accp | .quire8 | .quire16 | .quire32 => true
  | _ => false

/-- Rounding modes (Table 2.8). -/
inductive RM where
  | rne | rtz | sr
deriving DecidableEq, Repr

def rmOfCode : Nat → Option RM
  | 0 => some .rne
  | 1 => some .rtz
  | 2 => some .sr
  | _ => none

/-- u of R33 and R34 from q = ⌊magnitude · 2^16⌋ in units of the code's least significant bit, and whether q is
exact. rnd is the 16-bit draw of SR. -/
def roundCut (rm : RM) (rnd : Nat) (q : Int) (exact : Bool) : Int :=
  let u := q / 65536
  let rem := q % 65536
  match rm with
  | .rtz => u
  | .sr => if rem + rnd ≥ 65536 then u + 1 else u
  | .rne => if rem > 0x8000 ∨ (rem = 0x8000 ∧ (exact = false ∨ u % 2 = 1)) then u + 1 else u

/-- A written element: its code, and what the counters of Table 2.12 need. -/
structure Cv where
  code : Nat
  nan : Bool := false
  ov : Bool := false
  un : Bool := false
deriving DecidableEq, Repr

/-! ### Long floats (R16 to R19) -/

structure FloatSpec where
  eb : Nat
  fb : Nat
  bias : Nat
deriving DecidableEq, Repr

def spec32 : FloatSpec := ⟨8, 23, 127⟩
def spec16 : FloatSpec := ⟨5, 10, 15⟩
def specB16 : FloatSpec := ⟨8, 7, 127⟩

def FloatSpec.infCode (p : FloatSpec) : Nat := (2 ^ p.eb - 1) * 2 ^ p.fb
def FloatSpec.nanCode (p : FloatSpec) : Nat := p.infCode + 2 ^ (p.fb - 1)
def FloatSpec.signBit (p : FloatSpec) : Nat := 2 ^ (p.eb + p.fb)

/-- The value of a long-float code; subnormals and −0 read as +0 (R17, R19). -/
def FloatSpec.decode (p : FloatSpec) (w : Nat) : Val :=
  let e := fld w p.fb p.eb
  let f := fld w 0 p.fb
  let neg := bitAt w (p.eb + p.fb)
  if e = 0 then Val.zero
  else if e = 2 ^ p.eb - 1 then (if f = 0 then .inf neg else .nan)
  else .fin (Ex.dyadic ((if neg then -1 else 1) * (2 ^ p.fb + f : Nat)) (e - p.bias - p.fb))

/-- One rounding of an exact value to a long float (R33, R34, R17, Table 2.11). -/
def FloatSpec.encode (p : FloatSpec) (rm : RM) (rnd : Nat) : Val → Cv
  | .nan => { code := p.nanCode, nan := true }
  | .inf n => { code := p.infCode + (if n then p.signBit else 0) }
  | .fin x =>
    if x.isZero then { code := 0 } else
      let l0 := x.ilog2
      let c := x.floorMul (p.fb - l0 + 16)
      let u0 := (roundCut rm rnd c.1 c.2).toNat
      let carry := u0 == 2 ^ (p.fb + 1)
      let l := if carry then l0 + 1 else l0
      let u := if carry then 2 ^ p.fb else u0
      let s := if x.isNeg then p.signBit else 0
      if l < 1 - p.bias then { code := 0, un := true }
      else if l > p.bias then
        { code := s + (if rm = .rtz then p.infCode - 1 else p.infCode), ov := true }
      else { code := s + (l + p.bias).toNat * 2 ^ p.fb + (u - 2 ^ p.fb) }

def fp32 (w : Word) : Val := spec32.decode w.toNat
def toFp32 (rm : RM) (rnd : Nat) (v : Val) : Cv := spec32.encode rm rnd v
/-- RNE_FP32 of an exact value. -/
def rne32 (v : Val) : Word := BitVec.ofNat 32 (spec32.encode .rne 0 v).code
def nan32 : Word := 0x7FC00000

/-! ### MX elements and scales (R20 to R23, R48) -/

structure MxSpec where
  eb : Nat
  mb : Nat
  bias : Nat
  maxCode : Nat
  emax : Int
deriving DecidableEq, Repr

/-- Tables 2.3 and 3.5, for the five float element formats. -/
def mxSpec : Fmt → Option MxSpec
  | .e4m3 => some ⟨4, 3, 7, 0x7E, 8⟩
  | .e5m2 => some ⟨5, 2, 15, 0x7B, 15⟩
  | .e3m2 => some ⟨3, 2, 3, 0x1F, 4⟩
  | .e2m3 => some ⟨2, 3, 1, 0x1F, 2⟩
  | .e2m1 => some ⟨2, 1, 1, 0x7, 2⟩
  | _ => none

def MxSpec.magnitude (p : MxSpec) (code : Nat) : Ex :=
  let e := fld code p.mb p.eb
  let m := fld code 0 p.mb
  if e = 0 then Ex.dyadic m (1 - p.bias - p.mb) else Ex.dyadic ((2 ^ p.mb + m : Nat) : Int) (e - p.bias - p.mb)

/-- The element value of an MX code, block scale left out (Table 2.3, R21). -/
def mxDecode (f : Fmt) (code : Nat) : Val :=
  match f, mxSpec f with
  | .mxint8, _ => .fin (Ex.dyadic (sext 8 code) (-6))
  | .e4m3, some p =>
    if code % 128 = 0x7F then .nan
    else .fin (if bitAt code 7 then (p.magnitude code).neg else p.magnitude code)
  | .e5m2, some p =>
    if code % 128 = 0x7C then .inf (bitAt code 7)
    else if code % 128 > 0x7C then .nan
    else .fin (if bitAt code 7 then (p.magnitude code).neg else p.magnitude code)
  | _, some p =>
    .fin (if bitAt code (p.eb + p.mb) then (p.magnitude code).neg else p.magnitude code)
  | _, none => .nan

/-- One element of a block, after division by the block scale (R33, R34, Table 2.11). -/
def mxEncode (f : Fmt) (rm : RM) (rnd : Nat) (v : Val) : Cv :=
  match v with
  | .nan => { code := (if f = .e5m2 then 0x7E else if f = .e4m3 then 0x7F else 0), nan := true }
  | .inf n =>
    if f = .e5m2 then { code := (if n then 0xFC else 0x7C) }
    else { code := (if f = .e4m3 then 0x7F else 0), nan := true }
  | .fin x =>
    if x.isZero then { code := 0 } else
      match mxSpec f with
      | some p =>
        let l := max x.ilog2 (1 - p.bias)
        let c := x.floorMul (p.mb - l + 16)
        let u := (roundCut rm rnd c.1 c.2).toNat
        let code := (l + p.bias - 1).toNat * 2 ^ p.mb + u
        if code = 0 then { code := 0, un := true } else
          let s := if x.isNeg then 2 ^ (p.eb + p.mb) else 0
          if code > p.maxCode then { code := s + p.maxCode, ov := true } else { code := s + code }
      | none =>
        let c := x.floorMul 22
        let u := roundCut rm rnd c.1 c.2
        if u = 0 then { code := 0, un := true }
        else
          let m : Int := if u > 127 then 127 else u
          { code := wrap 8 (if x.isNeg then -m else m), ov := decide (u > 127) }

/-- E8M0 (R22). -/
def e8m0 (c : Nat) : Val := if c = 0xFF then .nan else .fin (Ex.dyadic 1 (c - 127))

/-- UE4M3 (Table 3.2). -/
def ue4m3 (c : Nat) : Val :=
  if c ≥ 0x7F then .nan
  else if c < 8 then .fin (Ex.dyadic c (-9))
  else .fin (Ex.dyadic (8 + fld c 0 3 : Nat) (fld c 3 4 - 10))

structure QBlock where
  scale : Nat
  elems : List Cv
deriving DecidableEq, Repr

def mxEmax (f : Fmt) : Int := match mxSpec f with | some p => p.emax | none => 0
/-- maxfin of Table 3.5. -/
def mxMaxfin (f : Fmt) : Ex := match mxSpec f with | some p => p.magnitude p.maxCode | none => Ex.dyadic 127 (-6)

def exMax (x y : Ex) : Ex := if x.lt y then y else x

/-- The block exponent of R61. -/
def blockExp (f : Fmt) (vs : List Val) : Int :=
  let amax := vs.foldl (fun m v => match v with | .fin x => exMax m x.abs | _ => m) Ex.zero
  if amax.isZero then 0 else
    let e := amax.ilog2 - mxEmax f
    let e := if (mxMaxfin f).lt (amax.shift (-e)) then e + 1 else e
    if e < -127 then -127 else if e > 127 then 127 else e

/-- quantise_block of R61; one value and its SR draw for each element. -/
def quantiseBlock (f : Fmt) (rm : RM) (vs : List (Val × Nat)) : QBlock :=
  if (f != .e4m3 && f != .e5m2) && vs.any (fun v => !v.1.isFinite) then
    ⟨0xFF, vs.map fun _ => { code := 0, nan := true }⟩
  else
    let e := blockExp f (vs.map (·.1))
    ⟨(e + 127).toNat, vs.map fun v =>
      mxEncode f rm v.2 (match v.1 with | .fin x => .fin (x.shift (-e)) | o => o)⟩

/-! ### Posits and quires (R24, R25, R39, R41) -/

/-- Length of the run of bits equal to b from bit i downward. -/
def runLen (w : Nat) (b : Bool) : Nat → Nat
  | 0 => 0
  | i + 1 => if bitAt w i = b then 1 + runLen w b i else 0

/-- The value of an n-bit posit (R24). -/
def positDecode (n w : Nat) : Val :=
  let w := w % 2 ^ n
  if w = 0 then Val.zero
  else if w = 2 ^ (n - 1) then .nan
  else
    let neg := bitAt w (n - 1)
    let p := if neg then 2 ^ n - w else w
    let b := bitAt p (n - 2)
    let r := runLen p b (n - 1)
    let k : Int := if b then (r : Int) - 1 else -(r : Int)
    let rest := n - 1 - r - 1
    let tail := if n - 1 ≤ r then 0 else fld p 0 rest
    let eb := min 2 rest
    let fb := rest - eb
    let e := fld tail fb eb * 2 ^ (2 - eb)
    let f := fld tail 0 fb
    .fin (Ex.dyadic ((if neg then -1 else 1) * (2 ^ fb + f : Nat)) (4 * k + e - fb))

/-- Rounding on the bit string (R33, R39). -/
def positEncode (n : Nat) (rm : RM) (rnd : Nat) : Val → Cv
  | .nan => { code := 2 ^ (n - 1), nan := true }
  | .inf _ => { code := 2 ^ (n - 1), nan := true }
  | .fin x =>
    if x.isZero then { code := 0 } else
      let l := x.ilog2
      let k := l / 4
      let e := l % 4
      let top : Int := n - 2
      let fin (m : Nat) (ov : Bool) : Cv := { code := (if x.isNeg then 2 ^ n - m else m), ov := ov }
      if k ≥ top then fin (2 ^ (n - 1) - 1) (decide (Ex.lt (Ex.dyadic 1 (4 * top)) x.abs))
      else if k < -top then fin 1 false
      else
        let reglen : Int := if k ≥ 0 then k + 2 else -k + 1
        let prefixBits : Int := if k ≥ 0 then 2 ^ ((k + 2).toNat) - 2 else 1
        let sh : Int := n - 1 - reglen - 2 + 16
        let c := x.floorMul (sh - l)
        let q : Int := (prefixBits * 4 + e - 1) * (pow2 sh : Int) + c.1
        let u := (roundCut rm rnd q c.2).toNat
        fin (if u = 0 then 1 else if u ≥ 2 ^ (n - 1) then 2 ^ (n - 1) - 1 else u) false

def quireWidth (n : Nat) : Nat := 16 * n

/-- The value of a quire element for posit width n (R25). -/
def quireDecode (n w : Nat) : Val :=
  if w % 2 ^ (16 * n) = 2 ^ (16 * n - 1) then .nan else .fin (Ex.dyadic (sext (16 * n) w) (16 - 8 * n))

/-- R41. -/
def quireEncode (n : Nat) (rm : RM) (rnd : Nat) : Val → Cv
  | .nan => { code := 2 ^ (16 * n - 1), nan := true }
  | .inf _ => { code := 2 ^ (16 * n - 1), nan := true }
  | .fin x =>
    let c := x.floorMul (8 * n)
    let u := roundCut rm rnd c.1 c.2
    { code := wrap (16 * n) (if x.isNeg then -u else u), un := !x.isZero && u == 0 }

/-! ### Logarithmic formats (R27, R38) -/

/-- n is the width of the code and g the fraction bits of L. -/
def lDecode (n g w : Nat) : Val :=
  let l := fld w 0 (n - 1)
  let neg := bitAt w (n - 1)
  if l = 2 ^ (n - 2) then (if neg then .nan else Val.zero)
  else .fin (Ex.pow256 (if neg then -1 else 1) (sext (n - 1) l * 2 ^ (8 - g)))

/-- Log entry 64, DEDUCED. -/
def lEncode (n g : Nat) (rm : RM) (rnd : Nat) : Val → Cv
  | .nan => { code := 3 * 2 ^ (n - 2), nan := true }
  | .inf _ => { code := 3 * 2 ^ (n - 2), nan := true }
  | .fin x =>
    if x.isZero then { code := 2 ^ (n - 2) } else
      let lam := x.log2Floor (24 + g)
      let u := roundCut rm rnd (lam / 256) (lam % 256 == 0)
      let top : Int := 2 ^ (n - 2) - 1
      if u < -top then { code := 2 ^ (n - 2), un := true }
      else
        let s := if x.isNeg then 2 ^ (n - 1) else 0
        { code := s + wrap (n - 1) (if u > top then top else u), ov := decide (u > top) }

/-! ### Integers (R30, R40) -/

def intEncode (lo hi : Int) (rm : RM) (rnd : Nat) : Val → Int × Bool × Bool
  | .nan => (0, false, false)
  | .inf n => (if n then lo else hi, false, (if n then lo else hi) == 0)
  | .fin x =>
    let c := x.floorMul 16
    let m := roundCut rm rnd c.1 c.2
    let v := if x.isNeg then -m else m
    if v > hi then (hi, true, hi == 0) else if v < lo then (lo, true, lo == 0)
    else (v, false, !x.isZero && v == 0)

def intCv (n : Nat) (rm : RM) (rnd : Nat) (v : Val) : Cv :=
  let r := intEncode (-(2 ^ (n - 1))) (2 ^ (n - 1) - 1) rm rnd v
  { code := wrap n r.1, ov := r.2.1, un := r.2.2 }

/-- UINT8 with zero point zp: values −zp to 255 − zp, code value + zp. -/
def uintCv (zp : Nat) (rm : RM) (rnd : Nat) (v : Val) : Cv :=
  let r := intEncode (-(zp : Int)) (255 - zp) rm rnd v
  { code := (r.1 + zp).toNat, ov := r.2.1, un := r.2.2 }

/-- The value of an element code, scales left out. zp is the zero point of UINT8, tab the T4 table. -/
def decodeElem (f : Fmt) (zp : Nat) (tab : List Nat) (w : Nat) : Val :=
  match f with
  | .fp32 | .accp => spec32.decode w
  | .fp16 => spec16.decode w
  | .bf16 => specB16.decode w
  | .e4m3 | .e5m2 | .e3m2 | .e2m3 | .e2m1 | .mxint8 => mxDecode f w
  | .posit8 => positDecode 8 w
  | .posit16 => positDecode 16 w
  | .posit32 => positDecode 32 w
  | .l8 => lDecode 8 3 w
  | .l16 => lDecode 16 8 w
  | .int8 => Val.ofInt (sext 8 w)
  | .uint8 => Val.ofInt ((w : Int) - zp)
  | .int4 => Val.ofInt (sext 4 w)
  | .t4 => specB16.decode (tab.getD (w % 16) 0)
  | .int32 => Val.ofInt (sext 32 w)
  | .int16 => Val.ofInt (sext 16 w)
  | .quire8 => quireDecode 8 w
  | .quire16 => quireDecode 16 w
  | .quire32 => quireDecode 32 w

/-- One rounding to a format that is not written by blocks (R37 steps 3 and 4). T4 is never a destination (R30): its
arm is not reached, the roles of R13 being checked first. -/
def encodeElem (f : Fmt) (zp : Nat) (rm : RM) (rnd : Nat) (v : Val) : Cv :=
  match f with
  | .fp32 | .accp => spec32.encode rm rnd v
  | .fp16 => spec16.encode rm rnd v
  | .bf16 => specB16.encode rm rnd v
  | .e4m3 | .e5m2 | .e3m2 | .e2m3 | .e2m1 | .mxint8 => mxEncode f rm rnd v
  | .posit8 => positEncode 8 rm rnd v
  | .posit16 => positEncode 16 rm rnd v
  | .posit32 => positEncode 32 rm rnd v
  | .l8 => lEncode 8 3 rm rnd v
  | .l16 => lEncode 16 8 rm rnd v
  | .int8 => intCv 8 rm rnd v
  | .uint8 => uintCv zp rm rnd v
  | .int4 | .t4 => intCv 4 rm rnd v
  | .int32 => intCv 32 rm rnd v
  | .int16 => intCv 16 rm rnd v
  | .quire8 => quireEncode 8 rm rnd v
  | .quire16 => quireEncode 16 rm rnd v
  | .quire32 => quireEncode 32 rm rnd v

/-- The canonical NaN code of a format that has one; zero for one that has none (R42: a top-k result). -/
def Fmt.nanCode (f : Fmt) : Nat := (encodeElem f 0 .rne 0 .nan).code

end Sys2Proof.Machine
end

