-- ==== Sys2Proof/Machine/Hash.lean ====
section
/-!
DEFINITION. Philox4x32-10 (02 R35), CRC-32C and CRC-64 (10 Table 10.7) and SHA-256 (08 R146, 10 R202, 12 R259).
-/
namespace Sys2Proof.Machine

/-! ### Philox (R35) -/

structure P4 where
  a : Nat
  b : Nat
  c : Nat
  d : Nat
deriving DecidableEq, Repr

def philoxRound (k0 k1 : Nat) (x : P4) : P4 :=
  let m0 := 0xD2511F53 * x.a
  let m1 := 0xCD9E8D57 * x.c
  ⟨(m1 / 2 ^ 32).xor (x.b.xor k0), m1 % 2 ^ 32, (m0 / 2 ^ 32).xor (x.d.xor k1), m0 % 2 ^ 32⟩

def philoxGo : Nat → Nat → Nat → P4 → P4
  | 0, _, _, x => x
  | n + 1, k0, k1, x =>
    philoxGo n ((k0 + 0x9E3779B9) % 2 ^ 32) ((k1 + 0xBB67AE85) % 2 ^ 32) (philoxRound k0 k1 x)

/-- Ten rounds. -/
def philox (k0 k1 : Nat) (ctr : P4) : P4 := philoxGo 10 k0 k1 ctr

/-- What keys a stochastic rounding (R36): launch seed, tensor id, stage number. -/
structure SrKey where
  seed : Nat
  tensor : Nat
  stage : Nat
deriving DecidableEq, Repr

/-- sr_bits of R35 and Table 2.9. -/
def srBits (k : SrKey) (row col : Nat) : Nat :=
  let x := philox (k.seed % 2 ^ 32) (k.seed / 2 ^ 32 % 2 ^ 32)
    ⟨col / 8 % 2 ^ 29, row % 2 ^ 32, k.tensor % 2 ^ 32, k.stage % 256 * 2 ^ 24⟩
  let w := match fld col 1 2 with
    | 0 => x.a
    | 1 => x.b
    | 2 => x.c
    | _ => x.d
  if col % 2 = 0 then w % 2 ^ 16 else w / 2 ^ 16

/-- The draw for a rounding; no mode but SR uses it. -/
def draw (rm : RM) (k : SrKey) (row col : Nat) : Nat :=
  match rm with
  | .sr => srBits k row col
  | _ => 0

/-! ### Cyclic redundancy checks (Table 10.7) -/

def reflectGo : Nat → Nat → Nat → Nat
  | 0, _, acc => acc
  | n + 1, w, acc => reflectGo n (w / 2) (2 * acc + w % 2)

/-- Bit order of n bits reversed. -/
def reflect (n w : Nat) : Nat := reflectGo n w 0

/-- Width, polynomial, initial value, final exclusive OR, and whether input and output are reflected. -/
structure CrcParams where
  width : Nat
  poly : Nat
  init : Nat
  xorOut : Nat
  refl : Bool
deriving DecidableEq, Repr

def crcBits (p : CrcParams) : Nat → Nat → Nat
  | 0, r => r
  | n + 1, r =>
    let r2 := 2 * r % 2 ^ p.width
    crcBits p n (if bitAt r (p.width - 1) then r2.xor p.poly else r2)

/-- Takes one byte into the register, most significant bit first. -/
def crcByte (p : CrcParams) (r : Nat) (b : Byte) : Nat :=
  let v := if p.refl then reflect 8 b.toNat else b.toNat
  crcBits p 8 (r.xor (v * 2 ^ (p.width - 8)))

def crcUpdate (p : CrcParams) (r : Nat) (bs : List Byte) : Nat := bs.foldl (crcByte p) r

def crcFinish (p : CrcParams) (r : Nat) : Nat :=
  (if p.refl then reflect p.width r else r).xor p.xorOut

def crc (p : CrcParams) (bs : List Byte) : Nat := crcFinish p (crcUpdate p p.init bs)

/-- CRC-32C, POLY 0 of Table 10.7. -/
def crc32c : CrcParams := ⟨32, 0x1EDC6F41, 0xFFFFFFFF, 0xFFFFFFFF, true⟩
/-- POLY 1 of Table 10.7. -/
def crc64 : CrcParams := ⟨64, 0x42F0E1EBA9EA3693, 0, 0, false⟩

/-! ### SHA-256 -/

/-- The 64 round constants, 32 bits each, the first in the highest bits. -/
def shaRoots : Nat :=
  0x428a2f9871374491b5c0fbcfe9b5dba53956c25b59f111f1923f82a4ab1c5ed5d807aa9812835b01243185be550c7dc372be5d7480deb1fe9bdc06a7c19bf174e49b69c1efbe47860fc19dc6240ca1cc2de92c6f4a7484aa5cb0a9dc76f988da983e5152a831c66db00327c8bf597fc7c6e00bf3d5a7914706ca63511429296727b70a852e1b21384d2c6dfc53380d13650a7354766a0abb81c2c92e92722c85a2bfe8a1a81a664bc24b8b70c76c51a3d192e819d6990624f40e3585106aa07019a4c1161e376c082748774c34b0bcb5391c0cb34ed8aa4a5b9cca4f682e6ff3748f82ee78a5636f84c878148cc7020890befffaa4506cebbef9a3f7c67178f2

/-- The hash value: the words a to d and the words e to h. -/
structure Sha where
  top : P4
  bot : P4
deriving DecidableEq, Repr

def shaInit : Sha :=
  ⟨⟨0x6a09e667, 0xbb67ae85, 0x3c6ef372, 0xa54ff53a⟩, ⟨0x510e527f, 0x9b05688c, 0x1f83d9ab, 0x5be0cd19⟩⟩

/-- A 32-bit word turned right by k. -/
def turn (w k : Nat) : Nat := w / 2 ^ k + w % 2 ^ k * 2 ^ (32 - k)

/-- Exclusive OR of a word's turns, and of the word shifted right by sh bits when sh is not zero. -/
def turns (ks : List Nat) (sh w : Nat) : Nat :=
  (ks.map (turn w)).foldl Nat.xor (if sh = 0 then 0 else w / 2 ^ sh)

/-- Round i with schedule word w. -/
def shaRound (i w : Nat) (x : Sha) : Sha :=
  let pick := x.bot.c.xor (x.bot.a.land (x.bot.b.xor x.bot.c))
  let most := (x.top.a.land (x.top.b.lor x.top.c)).lor (x.top.b.land x.top.c)
  let t := x.bot.d + turns [6, 11, 25] 0 x.bot.a + pick + fld shaRoots (32 * (63 - i)) 32 + w
  ⟨⟨(t + turns [2, 13, 22] 0 x.top.a + most) % 2 ^ 32, x.top.a, x.top.b, x.top.c⟩,
   ⟨(x.top.d + t) % 2 ^ 32, x.bot.a, x.bot.b, x.bot.c⟩⟩

/-- Rounds from round i on; the list holds the next sixteen schedule words. -/
def shaRounds : Nat → Nat → List Nat → Sha → Sha
  | n + 1, i, w :: ws, x =>
    let new := w + turns [7, 18] 3 (ws.getD 0 0) + ws.getD 8 0 + turns [17, 19] 10 (ws.getD 13 0)
    shaRounds n (i + 1) (ws ++ [new % 2 ^ 32]) (shaRound i w x)
  | _, _, _, x => x

def beValue (bs : List Byte) : Nat := bs.foldl (fun a b => a * 256 + b.toNat) 0

def beBytes : Nat → Nat → List Byte
  | 0, _ => []
  | n + 1, v => BitVec.ofNat 8 (v / 256 ^ n) :: beBytes n v

def P4.plus (x y : P4) : P4 :=
  ⟨(x.a + y.a) % 2 ^ 32, (x.b + y.b) % 2 ^ 32, (x.c + y.c) % 2 ^ 32, (x.d + y.d) % 2 ^ 32⟩

/-- Takes one block of 64 bytes. -/
def shaBlock (x : Sha) (blk : List Byte) : Sha :=
  let y := shaRounds 64 0 ((pieces 4 blk).map beValue) x
  ⟨x.top.plus y.top, x.bot.plus y.bot⟩

def P4.bytes (x : P4) : List Byte := [x.a, x.b, x.c, x.d].flatMap (beBytes 4)

/-- What follows a message of n bytes: a one bit, zeros up to eight bytes short of a whole block, and its length. -/
def shaPad (n : Nat) : List Byte := (0x80 : Byte) :: List.replicate ((119 - n % 64) % 64) 0 ++ beBytes 8 (8 * n)

/-- SHA-256 of a byte string. -/
def sha256 (m : List Byte) : List Byte :=
  let x := (pieces 64 (m ++ shaPad m.length)).foldl shaBlock shaInit
  x.top.bytes ++ x.bot.bytes

end Sys2Proof.Machine
end

