-- ==== Sys2Proof/Machine/State.lean ====
section
/-!
DEFINITION. The state of the ALN-A1-960 as plain data, and the state right after the release of PERST#. Each structure
cites the rule that gives its registers; INVENTORY.md lists every piece with its reset value.
-/
namespace Sys2Proof.Machine

/-- What stops the model. -/
inductive Fault where
  /-- Raised by a command whose operand has a length that no such transaction has (a flit that is not 256 bytes, a
  CXL.mem line that is not 64 bytes, a thermal sample that is not 16 sensors). Safe: the spec has no such command. -/
  | illFormed
deriving DecidableEq, Repr

inductive Refusal where
  /-- Raised by the arms of Dispatch.lean for a command that has no meaning yet. Safe: nothing is claimed of it. -/
  | notModelled (mnemonic : String)
deriving DecidableEq, Repr

/-! ### Tiles and chain records as a step holds them -/

/-- A scale header (03 Table 3.3); glen is the group length L. -/
structure Hdr where
  tscale : Word
  skind : Nat
  glen : Nat
  gaxis : Nat
  zp : Nat
  fsaddr : Nat
  csaddr : Nat
  tabaddr : Nat
deriving DecidableEq, Repr

/-- A tile descriptor (08 Table 8.6) with its header; hdr is none for a zero scale pointer. hdrAddr and hdrBad are where
the header was read and whether its line was poisoned. -/
structure Tile where
  addr : Nat
  fmt : Fmt
  sparse : Nat
  rows : Nat
  cols : Nat
  stride : Nat
  hdr : Option Hdr
  hdrAddr : Nat
  hdrBad : Bool
deriving DecidableEq, Repr

/-- A chain record (06 Table 6.3). -/
structure ChainRec where
  tensor : Nat
  outfmt : Nat
  scmode : Nat
  bimode : Nat
  acfn : Nat
  scval : Word
  rdk : Nat
  rdop : Nat
  dsmode : Nat
  keepacc : Bool
  tr : Bool
  scaddr : Nat
  biaddr : Nat
  out : Tile
  aux : Nat
  stat : Nat
  residual : Option Tile
deriving DecidableEq, Repr

/-- Accumulator modes (05 Table 5.2). -/
inductive Acm where
  | pair | chunk | basin | intw
deriving DecidableEq, Repr

/-- An MMA issued to the tiler (08 R157 to R160). -/
structure Job where
  id : Nat
  strand : StrandId
  /-- byte offset of the MMA -/
  pc : Nat
  /-- (block of the chip, part) of the part set, in part-set order -/
  parts : List (Nat × Nat)
  width : Nat
  shape : Nat
  acm : Acm
  g : Nat
  chain : Nat
  base : Nat
  size : Nat
  rm : RM
  init : Bool
  list : Bool
  w : Tile
  a : Tile
  m : Nat
  n : Nat
  /-- stored rows of K -/
  k : Nat
  tacc : Word
  seed : Nat
  chunkLen : Nat
  gxList : Nat
  crec : Option ChainRec
  /-- accumulator tiles already started, so that INIT clears each once -/
  started : List Nat
deriving DecidableEq, Repr

/-- One stationary set to run: a slice [kLo, kHi) of stored rows, for one output tile and one pass. -/
structure Item where
  job : Nat
  tile : Nat
  acc : Nat
  kLo : Nat
  kHi : Nat
  pass : Nat
  promo : Nat
  last : Bool
deriving DecidableEq, Repr

/-- A stationary operand: code, 2-bit index, fine-scale code, poison (04 R71). -/
structure Cell where
  code : Nat
  idx : Nat
  fs : Nat
  bad : Bool
deriving DecidableEq, Repr

/-- A stationary set; bad says that an uncorrectable word of the row buffer or the T4 bank has gone into it, so that its
output tile is poisoned (04 R87). -/
structure StatSet where
  rows : List (List Cell) := []
  fresh : Bool := false
  item : Option Item := none
  bad : Bool := false
deriving DecidableEq, Repr

/-- A group register with the flags of 05 R92: value a · 2^f; framed is false while no frame is set (R88). -/
structure ColReg where
  a : Int := 0
  f : Int := 0
  framed : Bool := false
  nan : Bool := false
  pinf : Bool := false
  ninf : Bool := false
deriving DecidableEq, Repr

/-- The first row of a paired-bank group (04 R72). -/
structure OpenRow where
  row : Nat
  cols : List ColReg
  badEls : List Nat
deriving DecidableEq, Repr

/-- A closed group on its way to promotion: one register and the factor fw × fa for each column (05 R93). -/
structure Closed where
  item : Item
  row : Nat
  promo : Nat
  cols : List (ColReg × Ex)
  /-- columns poisoned in this row, and in the whole tile -/
  badEls : List Nat
  badCols : List Nat
  badAll : Bool
  final : Bool
deriving DecidableEq, Repr

/-- A tile in the live or the Saddle set: pairs (s, e); an INT32 element is its word and zero. -/
structure AccTile where
  job : Nat
  tile : Nat
  acc : Nat
  /-- an INT32 tile -/
  int : Bool
  rows : List (List (Word × Word))
  badAll : Bool
  badEls : List (Nat × Nat)
  badCols : List Nat
  final : Bool
  drained : Bool
deriving DecidableEq, Repr

/-- A tile whose epilogue rows are being written (06 R115). -/
structure Epi where
  job : Nat
  tile : Nat
  acc : Nat
  rows : List (List (Word × Word))
  badAll : Bool
  badEls : List (Nat × Nat)
  badCols : List Nat
  next : Nat
deriving DecidableEq, Repr

structure Part where
  queue : List Item := []
  live : StatSet := {}
  shadow : StatSet := {}
  row : Nat := 0
  opened : Option OpenRow := none
  closed : List Closed := []
  acc : Option AccTile := none
  saddle : Option AccTile := none
  epi : List Epi := []
  /-- (cell row, column) marked by a parity mismatch (R86) -/
  parity : List (Nat × Nat) := []
  owner : Option StrandId := none
deriving DecidableEq, Repr

/-- Partition modes (04 R83). -/
inductive PartMode where
  | whole | halves | quarters
deriving DecidableEq, Repr

structure Block where
  mode : PartMode := .whole
  parts : Vector Part 4 := Vector.replicate 4 {}
  /-- expansion table banks (R58, R136) -/
  t4live : List Nat := List.replicate 16 0
  t4shadow : List Nat := List.replicate 16 0
deriving DecidableEq, Repr

/-! ### Strands (08 R147, R175) -/

/-- Arrival flags (06 R123). -/
inductive Flag where
  | idle | armed | set | closed
deriving DecidableEq, Repr

/-- STR_STATUS.STATE. -/
inductive StrandRun where
  | idle | loading | running | faulted
deriving DecidableEq, Repr

/-- What a strand waits for; pc stays at the waiting instruction. -/
inductive Wait where
  | none
  | retry
  | ldm (d : Fin 32) (addr : Nat)
  | stgrun (e : Fin 4) (off : Nat) (arg : Word)
  | stgwait (e : Fin 4) (pd : Nat)
  | launchif (q : Nat) (lrec : List Byte) (bad : Bool) (pd : Nat)
  | waita (f0 nf : Nat)
  | endW
  | rel
  | bar (k : Nat)
  | mbxw (v : Word64)
  | mbxr (a b : Fin 32)
  | slook (a : Fin 32) (sess idx pd : Nat)
deriving DecidableEq, Repr

/-- A REP in progress: body [start, stop) in bytes and the runs still to come (R156). -/
structure RepFrame where
  start : Nat
  stop : Nat
  left : Nat
deriving DecidableEq, Repr

/-- Outcome of the last program a strand started on an engine (R163). -/
inductive StgOutcome where
  | never | running (prog : Nat) | ok | failed
deriving DecidableEq, Repr

/-- What a running strand holds of its launch. -/
structure Launched where
  id : Nat
  lrec : List Byte
  sect : List Byte
  scaleBase : Nat
deriving DecidableEq, Repr

structure Strand where
  s : Vector Word 32 := Vector.replicate 32 0
  f : Vector Word 16 := Vector.replicate 16 0
  td : Vector Word128 64 := Vector.replicate 64 0
  p : Vector Bool 8 := (Vector.replicate 8 false).set 0 true
  af : Vector Flag 64 := Vector.replicate 64 .closed
  code : List Word64 := []
  run : StrandRun := .idle
  inWindow : Bool := false
  wait : Wait := .none
  pc : Nat := 0
  reps : List RepFrame := []
  faultKind : Nat := 0
  faultPc : Nat := 0
  windowCycles : Word := 0
  windowCount : Word := 0
  cntInvalid : Word := 0
  cntOverflow : Word := 0
  cntUnderflow : Word := 0
  arriveDrop : Word := 0
  launch : Option Launched := none
  fopSr : Nat := 0
  /-- words and descriptors (ADDR left out) of the open window's issue path (R167), newest first -/
  path : List Nat := []
  /-- the window was interrupted by FUNC_DISABLE (R317) -/
  broken : Bool := false
  stg : Vector StgOutcome 4 := Vector.replicate 4 .never
  digest : Option (List Byte) := none
  disabled : Bool := false
deriving DecidableEq, Repr

/-! ### Staging engines (10 R187 to R205) -/

inductive EngineRun where
  | idle | running | faulted
deriving DecidableEq, Repr

structure Cvu where
  poly : Nat
  fold : Nat
  side : Nat
  seq : Nat
  reg : Nat
  chunk : Nat
  /-- bytes of the open chunk, and the staging address word of its first byte -/
  open_ : List Byte
  first : Nat
deriving DecidableEq, Repr

/-- One write of an engine: space 0 memory, space 1 host, space 2 module dst. -/
structure Burst where
  space : Nat
  dst : Nat
  addr : Nat
  bytes : List Byte
  poison : Bool
  vanish : Nat
  atom : Bool
  tc : Nat
  /-- its bytes come from outside the module, so that their poison enters here -/
  remote : Bool := false
deriving DecidableEq, Repr

/-- An arrival to come: space and module of the destination, strand and flag (R194); waits for every WRACK when late. -/
structure Arrive where
  space : Nat
  dst : Nat
  strand : Nat
  flag : Nat
  late : Bool
deriving DecidableEq, Repr

/-- A read of host or peer memory by an engine: bytes already in hand, then pieces still to ask for. -/
structure Fetch where
  space : Nat
  dst : Nat
  todo : List (Nat × Nat)
  got : List Byte
  poison : List Bool
  waiting : Option (Nat × Nat)
deriving DecidableEq, Repr

structure PeerOut where
  dst : Nat
  tag : Nat
  addr : Nat
  bytes : Nat
  isRead : Bool
deriving DecidableEq, Repr

structure Engine where
  run : EngineRun := .idle
  disabled : Bool := false
  step : Nat := 0
  owner : Nat := 0
  faultKind : Nat := 0
  faultStep : Nat := 0
  store : List (BitVec 512) := []
  x : Vector Word 8 := Vector.replicate 8 0
  seed : Nat := 0
  prog : Nat := 0
  vanish : Word := 0
  cvu : Option Cvu := none
  cvuResult : Word64 := 0
  cvuValid : Bool := false
  /-- the result register is undefined until the next END that closes a computation (R201) -/
  cvuLost : Bool := false
  cvuPoly : Bool := false
  cvuFold : Bool := false
  shaP : List Byte := []
  shaD : List Byte := []
  bursts : List Burst := []
  arrival : Option Arrive := none
  fetch : Option Fetch := none
  peers : List PeerOut := []
  hostWrites : Nat := 0
  tag : Nat := 0
  /-- END has been reached and waits for acknowledgements (R272) -/
  ending : Bool := false
  /-- a fault has been raised and its program's peer writes are still unanswered (R272) -/
  faulting : Bool := false
  /-- a write that the engine has issued waits at the snoop gate (14 R296) -/
  storing : Bool := false
deriving DecidableEq, Repr

/-! ### VSU (07 R126 to R140) -/

structure TLoad where
  strand : StrandId
  addr : Nat
  pc : Nat
deriving DecidableEq, Repr

/-- What waits behind a TLOAD of a slot: a TSWAP, with its strand and byte offset, or a further TLOAD (R134, R135). -/
inductive SlotAct where
  | swap (strand : StrandId) (pc : Nat)
  | load (l : TLoad)
deriving DecidableEq, Repr

structure Slot where
  clampShadow : Bool := false
  clamp : Bool := false
  live : Option (List Byte) := none
  shadow : Option (List Byte) := none
  owner : Option StrandId := none
  /-- the TLOAD in progress, and what waits behind it, oldest first -/
  load : Option TLoad := none
  waiting : List SlotAct := []
deriving DecidableEq, Repr

structure Vsu where
  slots : Vector Slot 32 :=
    Vector.ofFn fun i => { clampShadow := decide (i.val < 14), clamp := decide (i.val < 14) }
  libSlot : BitVec 5 := 0
  libIdx : BitVec 8 := 0
  libSwap : Bool := false
  libState : Nat := 0
  libErr : Nat := 0
  /-- the load in progress: slot, library entry, swap -/
  libJob : Option (Nat × Nat × Bool) := none
  disabled : Bool := false
deriving DecidableEq, Repr

/-! ### Memory (10 R206 to R213) -/

structure Seg where
  online : Bool := false
  placeShadow : Bool := false
  homeShadow : Nat := 0
  place : Bool := false
  home : Nat := 0
  /-- frame of each region's channels for a chip-interleaved segment; the eight frames of a region-local one -/
  frames : List Nat := []
deriving DecidableEq, Repr

structure MemCtl where
  trained : BitVec 4 := 0
  selfref : BitVec 4 := 0
  ce : Word := 0
  ue : Word := 0
  scrubPos : Vector Word 4 := Vector.replicate 4 0
  dramTemp : BitVec 12 := 0
  disabled : Bool := false
  /-- FUNC_RESET in progress: channels retrain (Table 15.5) -/
  resetting : Bool := false
  /-- channels that failed training or BIST (R327, R350) -/
  unusable : BitVec 4 := 0
deriving DecidableEq, Repr

/-! ### Queues and sessions (11) -/

/-- A launch the QE has dispatched or is refusing. -/
structure Launch where
  id : Nat
  lrec : List Byte
  sqid : Nat
  sqhead : Nat
  wroot : List Byte
  codehash : List Byte
  profile : Nat
  /-- the strands whose binaries have been accepted -/
  accepted : Bool
  halted : Nat
  ended : Nat
  digests : List (Nat × List Byte)
  digestLost : Bool
  recorded : Bool
  /-- no completion record is written for it any more (QE reset) -/
  orphan : Bool
  barriers : List (Nat × Nat)
deriving DecidableEq, Repr

structure CRec where
  cq : Nat
  tag : Nat
  status : Nat
  sqid : Nat
  sqhead : Nat
  reason : Nat
  faultFn : Nat
  faultKind : Nat
  faultPc : Nat
  digest : Option (List Byte)
  digestFailed : Bool
  /-- message to sign when a signature was asked for (12 R261) -/
  sign : Option (List Byte)
deriving DecidableEq, Repr

/-- A D2H transaction of the QE on a ring in host memory. -/
inductive QeHost where
  | readRec (q : Nat)
  | writeRec (cq : Nat) (rest : Nat)
  | writeLaunch (q n : Nat)
  /-- one whose queue or engine has been taken out of service: its answer changes nothing -/
  | dropped
deriving DecidableEq, Repr

structure Qe where
  qtbase : Word64 := 0
  qid : BitVec 20 := 0
  op : BitVec 2 := 0
  state : Nat := 0
  err : Nat := 0
  dbErr : Word := 0
  errQid : BitVec 20 := 0
  /-- enabled queues, each with the first 16 bytes of its entry as the enable took them, then its PHASE (R216) -/
  enabled : List (Nat × List Byte) := []
  ready : List Nat := []
  blocked : List (Nat × Nat) := []
  cursors : Vector Nat 16 := Vector.replicate 16 0
  launches : List Launch := []
  records : List CRec := []
  host : Option QeHost := none
  /-- queue of the transaction in host, and the line of its entry as the QE has read it and will write it back (R216) -/
  line : Option (Nat × List Byte) := none
  disabled : Bool := false
  /-- function-fatal until FUNC_RESET (R245) -/
  faulted : Bool := false
deriving DecidableEq, Repr

structure Pin where
  launch : Nat
  page : Nat
deriving DecidableEq, Repr

/-- A SPILL in progress: its session, the index it has reached, and the slot that the page there is being copied to; none
while it waits to start that copy. -/
structure Spilling where
  session : Nat
  idx : Nat
  slot : Option Nat
deriving DecidableEq, Repr

structure Se where
  stbase : Word64 := 0
  poolbase : Word64 := 0
  poolpages : BitVec 24 := 0
  sumbase : Word64 := 0
  spillbase : Word64 := 0
  spillslots : BitVec 24 := 0
  spillsumbase : Word64 := 0
  session : BitVec 20 := 0
  op : BitVec 4 := 0
  state : Nat := 0
  err : Nat := 0
  skipped : Nat := 0
  recallFail : Word := 0
  openCount : Nat := 0
  /-- pool pages freed since INITPOOL, most recent first, then the untouched pages from next upward (R229) -/
  freed : List Nat := []
  next : Nat := 0
  limit : Nat := 0
  slotFreed : List Nat := []
  slotNext : Nat := 0
  pins : List Pin := []
  spilling : Option Spilling := none
  disabled : Bool := false
  /-- function-fatal until FUNC_RESET (R245) -/
  faulted : Bool := false
deriving DecidableEq, Repr

/-- Weight-digest table (10 R204), entries held as pairs of index and digest. -/
structure Wdt where
  entries : List (Nat × List Byte) := []
  index : BitVec 12 := 0
  all : Bool := false
  rdIndex : BitVec 12 := 0
deriving DecidableEq, Repr

/-! ### Mailboxes (11 R234 to R237) -/

structure Mbx where
  word : Word64 := 0
  full : Bool := false
  latch : Word := 0
deriving DecidableEq, Repr

structure Mailboxes where
  h2s : Vector Mbx 32 := Vector.replicate 32 {}
  s2h : Vector Mbx 32 := Vector.replicate 32 {}
  h2mc : Mbx := {}
  mc2h : Mbx := {}
  /-- of the MC and each region: from the MC, and to it -/
  region : Vector Mbx 8 := Vector.replicate 8 {}
  regionOut : Vector Mbx 8 := Vector.replicate 8 {}
  pend : Word64 := 0
  mcpend : BitVec 2 := 0
  ien : Word64 := 0
  mcien : BitVec 2 := 0
  vector : BitVec 11 := 0
  overrun : Word := 0
deriving DecidableEq, Repr

/-! ### Arbiters (12 R241 to R247) -/

structure ArbPoint where
  credits : List Nat
  owner : Option ArbReq := none
  /-- gap hints of the requesters left pending at the last grant, by index (R247) -/
  hints : List (Nat × Nat) := []
deriving DecidableEq, Repr

structure Arb where
  shadow : List Nat
  live : List Nat
  points : List ArbPoint
  pending : Bool := false
  wdog : BitVec 5 := 0x14
  bites : Word := 0
  sel : BitVec 4 := 0
deriving DecidableEq, Repr

/-! ### Col (13) -/

/-- COL_STATUS.STATE. -/
inductive PortState where
  | disabled | down | training | up | lpi
deriving DecidableEq, Repr

/-- A flit on its way: header fields of Table 13.3 and its payload. -/
structure Flit where
  ctrl : Bool
  tc : Nat
  vc : Nat
  ttl : Nat
  dst : Nat
  src : Nat
  sport : Nat
  esc : Bool
  payload : List Byte
  /-- for a flit of this module: the requester at the egress arbiter, a region (12 Table 12.2) -/
  req : Nat := 0
  /-- 0 for a flit of this module; else 1 + 8 × the port it arrived on + its channel there -/
  via : Nat := 0
deriving DecidableEq, Repr

structure Port where
  enable : Bool := true
  lpi : Bool := false
  state : PortState := .disabled
  mismatch : Bool := false
  retrains : BitVec 8 := 0
  partnerId : BitVec 12 := 0
  partnerPort : BitVec 4 := 0
  partnerValid : Bool := false
  partnerProfile : Word64 := 0
  rtIndex : BitVec 12 := 0
  rtShadow : List (Nat × Nat) := []
  rtLive : List (Nat × Nat) := []
  crcErr : Word := 0
  replay : Word := 0
  fecCorr : Word := 0
  fecUncorr : Word := 0
  drop : Word := 0
  sendSeq : Nat := 0
  expSeq : Nat := 0
  /-- flits sent and not acknowledged, oldest first, each with its SEQ -/
  retry : List (Nat × Flit) := []
  discarding : Bool := false
  /-- a replay that FUNC_DISABLE keeps back (R282) -/
  owesReplay : Bool := false
  nakSeq : Nat := 0
  nakCount : Nat := 0
  credits : Vector Nat 8 := Vector.replicate 8 32
  owed : Vector Nat 8 := Vector.replicate 8 0
  waiting : List Flit := []
  /-- flits received for other modules while the port is disabled, oldest first (R282) -/
  parked : List Flit := []
  partnerLpi : Bool := false
  failed : Nat := 0
  /-- a retrain (buffers kept), not a fresh training -/
  retraining : Bool := false
  disabledFn : Bool := false
deriving DecidableEq, Repr

/-- A burst being assembled from its fragments (R271). -/
structure Assembly where
  src : Nat
  tag : Nat
  addr : Nat
  len : Nat
  got : List (Nat × Byte)
  poison : Nat
  atom : Bool
deriving DecidableEq, Repr

structure Col where
  ports : Vector Port 12 := Vector.replicate 12 {}
  bursts : List Assembly := []
  modidShadow : BitVec 12 := 0
  modid : BitVec 12 := 0
  engShadow : Word64 := 0
  eng : Word64 := 0
  e2e : BitVec 24 := 0x2710
  injIndex : BitVec 12 := 0
  injShadow : List (Nat × Nat) := []
  inj : List (Nat × Nat) := []
  pending : Bool := false
  /-- flits of this module that take more messages of their flow before they leave (R269) -/
  filling : List Flit := []
  /-- messages of this module to itself (R273) -/
  loop : List ColMsg := []
  injDrop : Word := 0
deriving DecidableEq, Repr

/-! ### Host interface (14) -/

/-- A snoop-filter entry: line number and whether the host may hold it modified (A, else S). -/
structure SfEntry where
  line : Nat
  any : Bool
deriving DecidableEq, Repr

/-- An outstanding BISnp: first line, lines covered, whether it is a BISnpData, and whether an eviction sent it. -/
structure Snp where
  line : Nat
  n : Nat
  data : Bool
  evict : Bool := false
deriving DecidableEq, Repr

structure Coh where
  /-- entries in the order of their allocation, oldest first (R297) -/
  sf : List SfEntry := []
  snps : List Snp := []
  evict : Word := 0
  bisnp : Word := 0
  conflict : Word := 0
  decoderMiss : Word := 0
  /-- commands held for a snoop answer, or for a channel out of service (R251, R296, R311, R318) -/
  held : List Instr := []
  /-- segments that the accesses of held commands reach (R209) -/
  access : List (Instr × List Nat) := []
  /-- commands with such accesses while what is held runs again: each has begun, and ends at its boundary (R316) -/
  resumed : List Instr := []
deriving DecidableEq, Repr

structure Hdm where
  committed : Bool := false
  /-- Commit of the control register, and the global control register -/
  commit : Bool := false
  global : BitVec 2 := 0
  base : Nat := 0
  size : Nat := 0
  ways : Nat := 0
  bi : Bool := false
  lock : Bool := false
  errNotCommitted : Bool := false
deriving DecidableEq, Repr

/-- MSI-X entry of the PCIe layout: address, data, mask. Log entry 12, PRESUMED. -/
structure MsixEntry where
  addr : Word64 := 0
  data : Word := 0
  control : Word := 1
deriving DecidableEq, Repr

/-- Capabilities of the configuration space (Table 14.2). -/
inductive PciCap where
  | power | express | msix | aer | serial (number : Word64) | dataLink | phy16 | phy32 | phy64 | doe
  | dvsec (id : BitVec 16)
deriving DecidableEq, Repr

/-- The CXL device DVSEC: the values of Table 14.3, then the fields that hold the reset values of CXL 3.1 (R291). Log entry 93,
PRESUMED. -/
structure CxlDvsec where
  cache : Bool := true
  io : Bool := true
  mem : Bool := true
  memHwInit : Bool := true
  hdmCount : BitVec 2 := 1
  wbInvCapable : Bool := false
  resetCapable : Bool := true
  resetTimeout : BitVec 3 := 2
  memClrCapable : Bool := true
  tspCapable : Bool := false
  multiLd : Bool := false
  viral : Bool := true
  pmInitReportCapable : Bool := false
  cacheUnit : BitVec 4 := 1
  cacheSize : Byte := 0
  range1Size : Word64 := 0xF000000000
  activeTimeout : BitVec 3 := 2
  mediaType : BitVec 3 := 0
  memClass : BitVec 3 := 0
  interleave : BitVec 5 := 0
  range2Size : Word64 := 0
  cacheEnable : Bool := false
  ioEnable : Bool := true
  memEnable : Bool := false
  sfCoverage : BitVec 5 := 0
  sfGranularity : BitVec 3 := 0
  cleanEviction : Bool := false
  directP2pEnable : Bool := false
  viralEnable : Bool := false
  viralStatus : Bool := false
  disableCaching : Bool := false
  initiateWriteback : Bool := false
  initiateReset : Bool := false
  resetMemClr : Bool := false
  hotResetHdmState : Bool := false
  modifiedCompletion : Bool := false
  cacheInvalid : Bool := false
  resetComplete : Bool := false
  resetError : Bool := false
  hdmPreservationError : Bool := false
  pmInitComplete : Bool := false
  configLock : Bool := false
  fallbackCapability : BitVec 2 := 0
  modifiedCompletionCapable : Bool := false
  noCleanWriteback : Bool := false
  hdmStateCapability : BitVec 4 := 0
  directP2pCapable : Bool := false
  activeDegraded : Bool := false
  range1Base : Word64 := 0
  range2Base : Word64 := 0
deriving DecidableEq, Repr

/-- A BAR: its number, size, and whether it is prefetchable; both are 64-bit memory BARs (R288, R289). -/
structure Bar where
  bir : Nat
  size : Nat
  prefetch : Bool
deriving DecidableEq, Repr

/-- The configuration space (R285, R287 to R289, R291). Vendor, revision and serial number are those that CHIP_ and MGT_SERIAL
report. Payload and read request are the largest that the port supports, in bytes. -/
structure CfgSpace where
  vendorId : BitVec 16 := Config.vendorId
  deviceId : BitVec 16 := 0xA196
  revisionId : BitVec 4 := Config.stepping
  classCode : BitVec 24 := 0x120000
  subsystemVendorId : BitVec 16 := Config.vendorId
  subsystemId : BitVec 16 := 0x0960
  headerType : BitVec 7 := 0
  multiFunction : Bool := false
  maxPayload : Nat := 512
  maxReadRequest : Nat := 4096
  tenBitTags : Bool := true
  aspmL1 : Bool := true
  aspmL0s : Bool := false
  caps : List PciCap := [.power, .express, .msix]
  extCaps : List PciCap :=
    [.aer, .serial Config.serial, .dataLink, .phy16, .phy32, .phy64, .doe, .dvsec 0x0000, .dvsec 0x0007, .dvsec 0x0008]
  dvsec : CxlDvsec := {}
  bars : List Bar := [⟨0, 0x4000000, false⟩, ⟨2, 0x20000000, true⟩]
  /-- register locator: BIR and offset of the component registers -/
  locator : Nat × Nat := (0, 0xC0000)
deriving DecidableEq, Repr

/-- A DOE request that the MC has not answered (R301). -/
inductive DoeReq where
  | discovery (idx : Nat)
  | spdm (req : List Byte)
  | cdat (entry : Nat)
deriving DecidableEq, Repr

structure HostIf where
  cfg : CfgSpace := {}
  /-- the trained link: lanes, and GT/s (R285); log entry 137, DESIGN CHOICE -/
  lanes : Nat := 16
  rate : Nat := 64
  doe : Option DoeReq := none
  hdm : Hdm := {}
  /-- entries that differ from the reset entry, and pending bits -/
  msix : List (Nat × MsixEntry) := []
  pba : List Nat := []
  msixEnable : Bool := false
  funcMask : Bool := false
  d3hot : Bool := false
  /-- D2H requests without completion: agent, read or write, address, bytes, oldest first -/
  d2h : List (D2HAgent × Bool × Nat × Nat) := []
  /-- an FLR waits for its functions to stop (R305) -/
  flr : Bool := false
  /-- a CXL Reset in progress, and whether it clears memory -/
  cxlReset : Option Bool := none
deriving DecidableEq, Repr

/-! ### Power, functions, errors (15) -/

structure Pwr where
  target : BitVec 3 := 0
  selfref : Bool := false
  state : Nat := 4
  selfrefStat : Bool := false
  busy : Bool := false
  defect : Bool := false
  err : Nat := 0
  /-- where a transition in progress leads -/
  goal : Nat := 0
  bist : Bool := false
deriving DecidableEq, Repr

structure Power where
  regions : Vector Pwr 8 := Vector.replicate 8 {}
  wakeArm : Word := 0
  wakePend : BitVec 8 := 0
  tjWarn : Byte := 0x5F
  tjCrit : Byte := 0x6E
  tjMax : Byte := 0
  warnPend : Bool := false
  warnHeld : Bool := false
  emergency : Bool := false
  vector : BitVec 11 := 0
  /-- sensor of TJ_MAX -/
  sensor : Nat := 0
  bistKind : BitVec 2 := 0
  bistTarget : Byte := 0
  bistState : Nat := 0
  bistErr : Nat := 0
  /-- channel of a memory test in progress -/
  bistChannel : Option Nat := none
deriving DecidableEq, Repr

structure Func where
  state : Nat := 0
  err : Nat := 0
  fid : Byte := 0
  /-- the reset in progress (FUNC_STATE_w code 3) -/
  resetting : Option Byte := none
  /-- the reset waits for the function's next boundary (R316) -/
  due : Bool := false
deriving DecidableEq, Repr

/-- An event record (Table 15.9). -/
structure EvRec where
  seq : Word
  cls : Nat
  level : Nat
  fid : Nat
  code : Nat
  addr : Nat
  time : Nat
  info : Nat
deriving DecidableEq, Repr

structure ErrLog where
  fatal : Bool := false
  viral : Bool := false
  overflow : Bool := false
  head : BitVec 10 := 0
  tail : BitVec 10 := 0
  lost : Word := 0
  ce : Word := 0
  ue : Word := 0
  vecCe : BitVec 11 := 0
  vecUe : BitVec 11 := 0
  ien : BitVec 5 := 0
  /-- AER uncorrectable error status: bit 12 poisoned TLP, 20 Unsupported Request, 22 internal error (14 R300) -/
  aerUe : Word := 0
  /-- CXL RAS: uncorrectable and correctable error status, their masks, the severity, and the control register -/
  rasUe : Word := 0
  rasCe : Word := 0
  rasUeMask : Word := 0x0001CFFF
  rasUeSeverity : Word := 0x0001CFFF
  rasCeMask : Word := 0x0000007F
  rasControl : Word := 0
  ring : List (Nat × EvRec) := []
  seq : Word := 0
deriving DecidableEq, Repr

/-! ### NVM and management (16) -/

structure BootRec where
  active : Bool := false
  pending : Bool := false
  trial : Bool := false
  version : Word := 0
  libDigest : List Byte := []
  last : Nat := 0
deriving DecidableEq, Repr

/-- Bytes of a boot record before its sequence number and CRC (log entry 138, DESIGN CHOICE). -/
def BootRec.body (b : BootRec) : List Byte :=
  let flags := (if b.active then 1 else 0) + (if b.pending then 2 else 0) + (if b.trial then 4 else 0) + 8 * b.last
  leBytes 4 flags ++ leBytes 4 b.version.toNat ++ b.libDigest

/-- One of the two stored copies of the boot record (R337). -/
structure BootCopy where
  record : BootRec := {}
  seq : Nat := 0
  crc : Nat := 0
deriving DecidableEq, Repr

def bootCrc (b : BootRec) (seq : Nat) : Nat := crc crc32c (b.body ++ leBytes 4 seq)

/-- A boot record as it is written. -/
def bootCopy (b : BootRec) (seq : Nat) : BootCopy := ⟨b, seq, bootCrc b seq⟩

def BootCopy.valid (c : BootCopy) : Bool := c.crc == bootCrc c.record c.seq

/-- A command the MC runs, with what it has taken at its start. -/
inductive NvsWork where
  | none
  | store (snap : List (Nat × List Byte))
  | update (addr len : Nat)
  | compact
deriving DecidableEq, Repr

structure Nvm where
  /-- bytes written in each journal area; the rest is erased -/
  area0 : List Byte := []
  area1 : List Byte := []
  /-- applied settings that have a stored record, keys rising -/
  applied : List (Nat × List Byte) := []
  boot0 : BootCopy := bootCopy {} 0
  boot1 : BootCopy := bootCopy {} 0
  /-- a library payload still to be copied by the MC (R337) -/
  copying : Bool := false
  /-- calibration area as written by the MC, and the spare sector of its working copy (R328) -/
  calibration : List Byte := []
  calCopy : Nat := 0
  bankA : List Byte := []
  bankB : List Byte := []
  library : List Byte := []
  rollback : Word := 0
  op : BitVec 4 := 0
  state : Nat := 0
  err : Nat := 0
  updAddr : Word64 := 0
  updLen : BitVec 23 := 0
  work : NvsWork := .none
  /-- how the NVM takes what the command in progress writes; a free value (log entry 92, DESIGN CHOICE) -/
  flash : Flash := .good
deriving DecidableEq, Repr

structure Mgt where
  profileShadow : Word64 := 1
  profile : Word64 := 1
  refused : Bool := false
  segSel : BitVec 10 := 0
  segOp : BitVec 2 := 0
  segState : Nat := 0
  segErr : Nat := 0
  /-- the segment command in progress -/
  segWork : Option (Nat × Bool) := none
deriving DecidableEq, Repr

structure Tel where
  sample : Word := 0
  pin : Word := 0
  vin : Word := 0
  iin : Word := 0
  energy : Word64 := 0
  tj : List (Byte × Byte) := List.replicate 8 (0, 0)
  tplate : Byte := 0
  vaux : BitVec 16 := 0
  tdram : Byte := 0
deriving DecidableEq, Repr

/-! ### Module (17) -/

/-- JTAG instructions (R348). -/
inductive Jtag where
  | bypass | idcode | sample | extest
deriving DecidableEq, Repr

structure Board where
  aux : Bool := true
  mainPower : Bool := true
  mainPg : Bool := true
  mcRdy : Bool := true
  /-- PERST# as the pin shows it, and a release held inside the module (R349) -/
  perst : Bool := false
  heldRelease : Bool := false
  /-- main power has gone since the last PERST# pulse: the chip stays stopped (R344) -/
  stopped : Bool := false
  /-- ADDR[1:0] as the board wires it; log entry 155, DESIGN CHOICE -/
  straps : BitVec 2 := 0
  busAddr : Option (BitVec 7) := none
  jtag : Jtag := .idcode
  boundary : List Bool := []
  debug : Bool := false
  memInfoValid : Bool := true
  memActive : Bool := false
  bistLeft : List Nat := List.range 8
  chipBistLeft : Bool := true
  trained : Bool := false
  /-- stored-online segments still to be brought online, ascending -/
  toOnline : List Nat := []
deriving DecidableEq, Repr

/-! ### What the block sends -/

/-- DOE protocols (14 R301). -/
inductive DoeProtocol where
  | discovery | spdm | cdat
deriving DecidableEq, Repr

/-- CDAT entries with the values of 14 R303; one constructor for each kind. -/
inductive CdatEntry where
  | dsmas (handle base length : Nat) (nonVolatile shareable : Bool)
  | dsemtsSpecificPurpose
  | readLatency (ns : Nat)
  | writeLatency (ns : Nat)
  | readBandwidth (mbs : Nat)
  | writeBandwidth (mbs : Nat)
deriving DecidableEq, Repr

/-- Certificates of SPDM slot 0 (14 R302). -/
inductive Cert where
  | root | device | derived
deriving DecidableEq, Repr

/-- SPDM responses (14 R302): the fields that the rule gives. Signatures are those of the alias key. Log entry 41, DESIGN CHOICE. -/
inductive SpdmOut where
  | versions (vs : List (Nat × Nat))
  | capabilities (cert chal measSigned keyEx psk mutAuth : Bool) (ctExponent : Nat)
  | algorithms (ecdsaP256 sha256 measSha256 dmtf : Bool)
  | digests (slots : List Nat)
  | certificate (slot : Nat) (chain : List Cert)
  | challengeAuth (signature : BitVec 512)
  | measurements (blocks : List Byte) (signature : BitVec 512)
  | other (bytes : List Byte)
deriving DecidableEq, Repr

/-- DOE responses; next is the entry that follows, none after the last. -/
inductive DoeOut where
  | protocol (p : Option DoeProtocol) (next : Option Nat)
  | spdm (r : SpdmOut)
  | busy
  | cdat (e : Option CdatEntry) (next : Option Nat)
deriving DecidableEq, Repr

/-- Host responses, messages and pins; hostData is a read completion, unsupported an Unsupported Request. Log entry 8, DESIGN CHOICE. -/
inductive Out where
  | msix (vector : Nat)
  | bisnp (line n : Nat) (data : Bool)
  | biConflictAck (line : Nat)
  | d2hRead (a : D2HAgent) (addr len : Nat)
  | d2hWrite (a : D2HAgent) (addr : Nat) (bytes : List Byte) (poison : Bool)
  | rspIHitI (hpa : Nat)
  | hostData (bytes : List Byte) (poison : Bool)
  | hostAck
  | unsupported
  | flit (port : PortId) (bytes : List Byte)
  | doe (r : DoeOut)
  | bus (bytes : List Byte)
  /-- response to a request without bytes, and the PEC byte that a master which uses PEC reads after it; log entry 153 -/
  | busPec (bytes : List Byte) (pec : Byte)
  | busNack
  | jtag (bits : List Bool)
  /-- output pins as EXTEST drives them -/
  | pins (bits : List Bool)
  | viral
  /-- ERR_FATAL of AER -/
  | aerFatal
  | cxlResetDone
deriving DecidableEq, Repr

structure State where
  strands : Vector Strand 32 := Vector.replicate 32 {}
  blocks : Vector Block 128 := Vector.replicate 128 {}
  jobs : List Job := []
  engines : Vector Engine 32 := Vector.replicate 32 {}
  vsus : Vector Vsu 8 := Vector.replicate 8 {}
  mem : List Host.Cell := []
  poison : List Nat := []
  /-- upsets of words that no access has met yet: an address in the word, and the kind. The model's own field. Log entry 112,
  DESIGN CHOICE. -/
  struck : List (Nat × Ecc) := []
  segs : List (Nat × Seg) := []
  mcs : Vector MemCtl 64 := Vector.replicate 64 {}
  qe : Qe := {}
  se : Se := {}
  wdt : Wdt := {}
  mbx : Mailboxes := {}
  arbs : List Arb := []
  col : Col := {}
  coh : Coh := {}
  host : HostIf := {}
  power : Power := {}
  func : Func := {}
  errlog : ErrLog := {}
  nvm : Nvm := {}
  mgt : Mgt := {}
  tel : Tel := {}
  board : Board := {}
  out : List Out := []
  fresh : Nat := 0
  nextId : Nat := 1
  pending : List Instr := []
deriving DecidableEq, Repr

/-- Default weights of Table 12.2 by arbiter number: 0 to 13 the chip arbiters, 14 to 21 the region arbiters. -/
def arbDefaults (a : Nat) : List Nat :=
  if a = 0 then List.replicate 16 16
  else if a = 1 then List.replicate 12 32
  else if a < 14 then List.replicate 8 16 ++ List.replicate 12 32
  else [48, 48, 48, 48, 32, 48, 64, 32, 4, 64]

def arbReset (a : Nat) : Arb :=
  { shadow := arbDefaults a, live := arbDefaults a,
    points := List.replicate (if a < 14 then 1 else 12) { credits := arbDefaults a } }

def arbsReset : List Arb := (List.range 22).map arbReset

/-- The machine right after PERST# is released (time P of Table 17.5), from a powered module whose journal is erased.
Log entries 4 and 6, DESIGN CHOICE. -/
def State.reset : State := { arbs := arbsReset }

end Sys2Proof.Machine
end

