-- ==== Sys2Proof/Machine/Ops.lean ====
section
/-!
DEFINITION. The named operations over memory, the event log, interrupts and the unit registers.
-/
namespace Sys2Proof.Machine

open Sys2Proof

/-! ### Memory as canonical cells (log entry 5, DESIGN CHOICE) -/

/-- What an unlisted address reads as. -/
def blankByte : Byte := 0

/-- Addresses strictly rise and no cell holds the blank value. -/
def Memory.wf : List Host.Cell → Bool
  | [] => true
  | [c] => c.2 != blankByte
  | c :: d :: t => c.2 != blankByte && decide (c.1 < d.1) && Memory.wf (d :: t)

def memGet : List Host.Cell → Nat → Byte
  | [], _ => blankByte
  | c :: t, a => if c.1 = a then c.2 else if a < c.1 then blankByte else memGet t a

def memSet : List Host.Cell → Nat → Byte → List Host.Cell
  | [], a, b => if b = blankByte then [] else [(a, b)]
  | c :: t, a, b =>
    if a < c.1 then (if b = blankByte then c :: t else (a, b) :: c :: t)
    else if c.1 = a then (if b = blankByte then t else (a, b) :: t)
    else c :: memSet t a b

/-- n bytes from a. -/
def memGetN (m : List Host.Cell) (a : Nat) : Nat → List Byte
  | 0 => []
  | n + 1 => memGet m a :: memGetN m (a + 1) n

def memSetN : List Host.Cell → Nat → List Byte → List Host.Cell
  | m, _, [] => m
  | m, a, b :: bs => memSetN (memSet m a b) (a + 1) bs

/-- Memory with the bytes of [a, a + n) blank. -/
def memClear (m : List Host.Cell) (a n : Nat) : List Host.Cell := m.filter fun c => c.1 < a || a + n ≤ c.1

/-! ### Poison, one mark for each 32-byte half (10 R207) -/

/-- Numbers of the halves that [a, a + n) touches. -/
def halvesOf (a n : Nat) : List Nat := if n = 0 then [] else span (a / 32) ((a + n - 1) / 32 - a / 32 + 1)

/-- Numbers of the halves that [a, a + n) covers whole. -/
def wholeHalves (a n : Nat) : List Nat := span (ceilDiv a 32) ((a + n) / 32 - ceilDiv a 32)

/-- Numbers of the halves of the 64-byte lines that [a, a + n) touches. -/
def lineHalves (a n : Nat) : List Nat :=
  if n = 0 then [] else span (2 * (a / 64)) (2 * ((a + n - 1) / 64 - a / 64 + 1))

def poisonAdd (p : List Nat) (hs : List Nat) : List Nat := hs.foldl (fun p h => setInsert h p) p

def poisonDel (p : List Nat) (hs : List Nat) : List Nat := p.filter fun h => !hs.contains h

/-! ### The strand address space (08 Table 8.4) -/

inductive Place where
  | device
  | scratch (r off : Nat)
  | basin (r off : Nat)
  | reserved
deriving DecidableEq, Repr

def place (a : Nat) : Place :=
  if a < 0xF000000000 then .device
  else if a < 0x20000000000 then .reserved
  else
    let o := a - 0x20000000000
    let r := o / 0x10000000
    let off := o % 0x10000000
    if 8 ≤ r then .reserved
    else if off < 0x3000000 then .scratch r off
    else if 0x4000000 ≤ off ∧ off < 0x4400000 then .basin r (off - 0x4000000)
    else .reserved

def scratchBase (r : Nat) : Nat := 0x20000000000 + r * 0x10000000
def basinBase (r : Nat) : Nat := 0x20004000000 + r * 0x10000000
def scratchSize : Nat := 0x3000000
def basinSize : Nat := 0x400000

/-- [a, a + n) lies in one range of Table 8.4. -/
def inOneRange (a n : Nat) : Bool :=
  match place a with
  | .device => a + n ≤ 0xF000000000
  | .scratch _ off => off + n ≤ scratchSize
  | .basin _ off => off + n ≤ basinSize
  | .reserved => false

/-- [a, a + n) lies in the scratchpad or the Basin of region r (08 R166). -/
def inRegion (r a n : Nat) : Bool :=
  match place a with
  | .scratch r' off => r' == r && off + n ≤ scratchSize
  | .basin r' off => r' == r && off + n ≤ basinSize
  | _ => false

def inScratch (r a n : Nat) : Bool :=
  match place a with
  | .scratch r' off => r' == r && off + n ≤ scratchSize
  | _ => false

/-! ### Units -/

def regionOf (n : Fin 32) : Nat := n.val / 4
def State.region (s : State) (r : Nat) : Pwr := (s.power.regions.toList.getD r {})

/-- The chip runs: main power is on and PERST# is released (Table 17.6). Log entry 114, DESIGN CHOICE. -/
def State.chipOn (s : State) : Bool := s.board.mainPg && !s.board.perst && !s.board.stopped

/-- The chip runs and no device-fatal error has occurred (15 R320). -/
def State.unitsOn (s : State) : Bool := s.chipOn && !s.errlog.fatal

/-- CXL.cache and CXL.mem run on the link: it is at 16 GT/s or above (14 R285). -/
def State.cxlOn (s : State) : Bool := 16 ≤ s.host.rate

/-- The MC runs: auxiliary power is on and it has reached ready. -/
def State.mcOn (s : State) : Bool := s.board.aux && s.board.mcRdy

/-- Region r sleeps in PS3 or PS4, or is on its way there (R309; log entry 36, DEDUCED). -/
def State.sleeping (s : State) (r : Nat) : Bool :=
  3 ≤ (s.region r).state || ((s.region r).busy && 3 ≤ (s.region r).goal)

/-- Region r runs its strands: PS0 to PS2 and no BIST (Table 15.1, R326). -/
def State.awake (s : State) (r : Nat) : Bool := !s.sleeping r && !(s.region r).bist

/-- Region r is in PS3 or PS4, or under BIST (R309, R326). -/
def State.asleep (s : State) (r : Nat) : Bool := !s.awake r

/-- The QE or the SE is disabled or faulted, or stops for a function reset or an FLR (R245, R305, R316, R318). -/
def State.qeStopped (s : State) : Bool := s.qe.disabled || s.qe.faulted || s.host.flr || s.func.resetting == some 0x50
def State.seStopped (s : State) : Bool := s.se.disabled || s.se.faulted || s.host.flr || s.func.resetting == some 0x51

def State.strand (s : State) (n : StrandId) : Strand := s.strands[n]
def State.engine (s : State) (e : EngineId) : Engine := s.engines[e]
def State.block (s : State) (b : BlockId) : Block := s.blocks[b]
def State.vsu (s : State) (r : RegionId) : Vsu := s.vsus[r]
def State.port (s : State) (p : PortId) : Port := s.col.ports[p]
def State.mc (s : State) (m : McId) : MemCtl := s.mcs[m]

def State.setStrand (s : State) (n : StrandId) (x : Strand) : State := { s with strands := s.strands.set n x }
def State.setEngine (s : State) (e : EngineId) (x : Engine) : State := { s with engines := s.engines.set e x }
def State.setBlock (s : State) (b : BlockId) (x : Block) : State := { s with blocks := s.blocks.set b x }
def State.setVsu (s : State) (r : RegionId) (x : Vsu) : State := { s with vsus := s.vsus.set r x }
def State.setPort (s : State) (p : PortId) (x : Port) : State :=
  { s with col := { s.col with ports := s.col.ports.set p x } }
def State.setMc (s : State) (m : McId) (x : MemCtl) : State := { s with mcs := s.mcs.set m x }
def State.setPwr (s : State) (r : RegionId) (x : Pwr) : State :=
  { s with power := { s.power with regions := s.power.regions.set r x } }

def State.modStrand (s : State) (n : StrandId) (f : Strand → Strand) : State := s.setStrand n (f (s.strand n))
def State.modEngine (s : State) (e : EngineId) (f : Engine → Engine) : State := s.setEngine e (f (s.engine e))
def State.modPort (s : State) (p : PortId) (f : Port → Port) : State := s.setPort p (f (s.port p))

def State.send (s : State) (o : Out) : State := { s with out := o :: s.out }

/-- Sets a bit of AER's uncorrectable error status: 12 poisoned TLP received, 20 Unsupported Request, 22 internal error (14 R300).
Log entry 93, PRESUMED. -/
def State.aer (s : State) (bit : Nat) : State :=
  { s with errlog := { s.errlog with aerUe := s.errlog.aerUe ||| BitVec.ofNat 32 (2 ^ bit) } }

/-- Sets a bit of the CXL RAS correctable error status: 4 poison received on CXL.cache, 5 on CXL.mem (R300). Log entry 93,
PRESUMED. -/
def State.rasCorrected (s : State) (bit : Nat) : State :=
  { s with errlog := { s.errlog with rasCe := s.errlog.rasCe ||| BitVec.ofNat 32 (2 ^ bit) } }

/-- Completes a request of the host with Unsupported Request status. -/
def State.refuse (s : State) : State := (s.aer 20).send .unsupported

def fin32 (i : Nat) : Fin 32 := ⟨i % 32, Nat.mod_lt _ (by decide)⟩
def fin8 (i : Nat) : Fin 8 := ⟨i % 8, Nat.mod_lt _ (by decide)⟩
def fin12 (i : Nat) : Fin 12 := ⟨i % 12, Nat.mod_lt _ (by decide)⟩
def fin20 (i : Nat) : Fin 1048576 := ⟨i % 1048576, Nat.mod_lt _ (by decide)⟩
def fin64 (i : Nat) : Fin 64 := ⟨i % 64, Nat.mod_lt _ (by decide)⟩
def fin128 (i : Nat) : Fin 128 := ⟨i % 128, Nat.mod_lt _ (by decide)⟩
def fin4 (i : Nat) : Fin 4 := ⟨i % 4, Nat.mod_lt _ (by decide)⟩
def fin16 (i : Nat) : Fin 16 := ⟨i % 16, Nat.mod_lt _ (by decide)⟩

/-- Folds an update over the numbers 0 to n − 1. -/
def State.forN (s : State) (n : Nat) (f : Nat → State → State) : State := (List.range n).foldl (fun s i => f i s) s

/-! ### Interrupts (14 R299) -/

def State.msixEntry (s : State) (v : Nat) : MsixEntry := assoc v {} s.host.msix

def State.sendMsix (s : State) (v : Nat) : State :=
  if !s.host.msixEnable then s
  else if s.host.funcMask || (s.msixEntry v).control.getLsbD 0 then
    { s with host := { s.host with pba := setInsert v s.host.pba } }
  else s.send (.msix v)

/-! ### Event log (15 R322 to R324) -/

/-- Entries in use: the device writes at HEAD and the host consumes up to TAIL (log entry 15, DEDUCED). -/
def ErrLog.used (e : ErrLog) : Nat := (e.head - e.tail).toNat

/-- Entries of CLASS 0 and 4 between TAIL and HEAD. -/
def ErrLog.minor (e : ErrLog) : Nat :=
  (e.ring.filter fun r => (BitVec.ofNat 10 r.1 - e.tail).toNat < e.used && (r.2.cls == 0 || r.2.cls == 4)).length

/-- The latest unconsumed CLASS 0 record of a code and function. -/
def ErrLog.latest (e : ErrLog) (code fid : Nat) : Option (Nat × EvRec) :=
  (e.ring.filter fun r =>
    (BitVec.ofNat 10 r.1 - e.tail).toNat < e.used && r.2.cls == 0 && r.2.code == code && r.2.fid == fid).foldl
    (fun m r => match m with
      | none => some r
      | some x => if x.2.seq.toNat < r.2.seq.toNat then some r else some x) none

def bumpCount (info : Nat) : Nat :=
  let c := fld info 48 16
  setFld info 48 16 (if c = 0xFFFF then c else c + 1)

/-- The counters of one more event (Table 15.13). -/
def ErrLog.counted (e : ErrLog) (cls : Nat) : ErrLog :=
  if cls = 0 then { e with ce := satAdd e.ce 1 } else if cls ≤ 3 then { e with ue := satAdd e.ue 1 } else e

/-- Poison in data of the HDM range shows in the CXL RAS capability (14 R300, Table 15.7). Log entry 93, PRESUMED. -/
def ErrLog.reported (e : ErrLog) (cls code : Nat) : ErrLog :=
  if cls = 1 ∧ code = 0x07 then { e with rasUe := e.rasUe ||| 0x80 } else e

/-- The record at HEAD, with its number and time. -/
def ErrLog.push (e : ErrLog) (r : EvRec) : ErrLog :=
  { e with ring := assocSet e.head.toNat { r with seq := e.seq, time := (Config.eventTime e.seq.toNat).toNat } e.ring,
           head := e.head + 1, seq := e.seq + 1 }

/-- The vector of a record of this class, when it is enabled. -/
def State.sendEv (s : State) (cls : Nat) : State :=
  if s.errlog.ien.getLsbD cls then
    s.sendMsix (if cls = 0 ∨ cls = 4 then s.errlog.vecCe.toNat else s.errlog.vecUe.toNat)
  else s

/-- Appends, coalesces or drops one event record. While OVERFLOW is 1 no write is recorded as not visible (R323). -/
def State.logEv (s : State) (cls level fid code addr info : Nat) : State :=
  let e := (s.errlog.counted cls).reported cls code
  let k := s.fresh + b2n (cls == 0)
  if code = 0x0B ∧ e.overflow then { s with errlog := e, fresh := k }
  else match (if cls = 0 ∧ Config.withinMs s.fresh then e.latest code fid else none) with
  | some (i, r) => { s with errlog := { e with ring := assocSet i { r with info := bumpCount r.info } e.ring }, fresh := k }
  | none =>
    if (cls = 0 ∨ cls = 4) ∧ (768 ≤ e.minor ∨ 1023 ≤ e.used) then
      { s with errlog := { e with lost := satAdd e.lost 1 }, fresh := k }
    else if 1023 ≤ e.used then { s with errlog := { e with lost := satAdd e.lost 1, overflow := true }, fresh := k }
    else
      let r : EvRec := { seq := 0, cls := cls, level := level, fid := fid, code := code, addr := addr, time := 0,
                         info := if cls = 0 then setFld info 48 16 1 else info }
      { s with errlog := e.push r, fresh := k }.sendEv cls

/-! ### Device memory behind the controllers (10 R206 to R209) -/

def segOf (a : Nat) : Nat := a / 0x40000000

def State.seg (s : State) (n : Nat) : Seg := assoc n {} s.segs

/-- Channel of an HDM offset (R208). -/
def State.channelOf (s : State) (a : Nat) : Nat :=
  let g := fld a 8 22
  let sg := s.seg (segOf a)
  if sg.place then 32 * sg.home + (fld g 0 5).xor (fld g 5 5) else (fld g 0 8).xor (fld g 8 8)

/-- Controller 8r + p of a channel c = 32r + 4p + q. -/
def mcOfChannel (c : Nat) : McId := fin64 (c / 4)

/-- The channel serves accesses: not in self-refresh, its controller neither disabled nor in reset (R311, R318). -/
def State.channelUp (s : State) (c : Nat) : Bool :=
  let m := s.mc (mcOfChannel c)
  !m.selfref.getLsbD (c % 4) && !m.disabled && !m.resetting

/-- The 64-byte line numbers that [a, a + n) touches. -/
def linesOf (a n : Nat) : List Nat := if n = 0 then [] else span (a / 64) ((a + n - 1) / 64 - a / 64 + 1)

def isDevice (a : Nat) : Bool := a < 0xF000000000

def State.offline (s : State) (a : Nat) : Bool := isDevice a && !(s.seg (segOf a)).online

/-- Every line of [a, a + n) is at a place that answers: an online segment, or a region that has power. -/
def State.answers (s : State) (a n : Nat) : Bool :=
  (linesOf a n).all fun l => !s.offline (64 * l)

/-- Bytes of [a, a + n), and whether any of their lines is poisoned or offline. -/
def State.read (s : State) (a n : Nat) : List Byte × Bool :=
  (memGetN s.mem a n, !s.answers a n || (lineHalves a n).any s.poison.contains)

/-- Bytes of [a, a + n), and whether any half that holds some of them is poisoned or offline. -/
def State.readHalf (s : State) (a n : Nat) : List Byte × Bool :=
  (memGetN s.mem a n, !s.answers a n || (halvesOf a n).any s.poison.contains)

/-- Logs an access to an offline segment (R209, Table 15.10). Log entry 65, DEDUCED. -/
def State.logOffline (s : State) (a : Nat) (isWrite : Bool) : State := s.logEv 1 2 0xFF 0x0F a (b2n isWrite)

/-- A word read under an error code: an uncorrectable word is poisoned and logged, a corrected one only logged
(Table 15.8, Table 15.10; log entry 18, DEDUCED). -/
def State.eccAt (s : State) (a n : Nat) (ecc : Ecc) : State :=
  let bank := a / 64 % 64
  match ecc, place a with
  | .clean, _ => s
  | .corrected, .device =>
    let m := mcOfChannel (s.channelOf a)
    (s.setMc m { s.mc m with ce := satAdd (s.mc m).ce 1 }).logEv 0 2 (0x80 + m.val) 0x06 a (s.channelOf a)
  | .corrected, _ => s.logEv 0 2 0xFF 0x04 a bank
  | .uncorrected, .device =>
    let m := mcOfChannel (s.channelOf a)
    ({ s with poison := poisonAdd s.poison (halvesOf a n) }).logEv 1 2 (0x80 + m.val) 0x07 a (s.channelOf a)
  | .uncorrected, _ => ({ s with poison := poisonAdd s.poison (halvesOf a n) }).logEv 1 2 0xFF 0x05 a bank

/-- What one check word covers: a half of a line in device memory, a 64-byte word of a scratchpad or Basin. -/
def eccUnit (a : Nat) : Nat × Nat := if isDevice a then (a / 32 * 32, 32) else (a / 64 * 64, 64)

/-- An upset lies in what one of the ranges reads. -/
def struckIn (rs : List (Nat × Nat)) (f : Nat × Ecc) : Bool :=
  let u := eccUnit f.1
  rs.any fun p => p.2 != 0 && u.1 < p.1 + p.2 && p.1 < u.1 + u.2

/-- A write of [a, a + n) gives the upset word a new check word. -/
def struckOver (a n : Nat) (f : Nat × Ecc) : Bool := let u := eccUnit f.1; a ≤ u.1 && u.1 + u.2 ≤ a + n

/-- Upsets that no access has met yet. Log entry 112, DESIGN CHOICE. -/
def State.strike (s : State) (found : EccList) : State :=
  { s with struck := s.struck ++ found.filter fun f => f.2 != .clean }

/-- The ranges are read: the error code finds the upsets in them (R207, R255). -/
def State.meet (s : State) (rs : List (Nat × Nat)) : State :=
  if s.struck.isEmpty then s
  else
    (s.struck.filter (struckIn rs)).foldl (fun s f => s.eccAt (eccUnit f.1).1 (eccUnit f.1).2 f.2)
      { s with struck := s.struck.filter fun f => !struckIn rs f }

/-- The ranges are read by a step that brings upsets of its own. -/
def State.eccFound (s : State) (rs : List (Nat × Nat)) (found : EccList) : State := (s.strike found).meet rs

/-- Counts the poisoned halves of device memory among those that a read met, each once, at its own controller (R207,
MC_UE_COUNT). -/
def State.countHalves (s : State) (hs : List Nat) : State :=
  { s with mcs := ((hs.filter fun h => isDevice (32 * h) && s.poison.contains h).eraseDups).foldl (fun v h =>
      let m := mcOfChannel (s.channelOf (32 * h))
      v.set m { v[m] with ue := satAdd v[m].ue 1 }) s.mcs }

/-- What a read of [a, a + n) leaves: an offline access is logged, poisoned halves of device memory are counted. -/
def State.readMark (s : State) (a n : Nat) : State :=
  if !s.answers a n then s.logOffline a false
  else s.countHalves (halvesOf a n)

/-- Halves that a write of [a, a + n) covers in part: each is read first (R207). -/
def partHalves (a n : Nat) : List Nat :=
  if n = 0 then [] else [a / 32, (a + n - 1) / 32].eraseDups.filter fun h => 32 * h < a || a + n < 32 * h + 32

/-- Halves of device memory as ranges. -/
def halfRanges (hs : List Nat) : List (Nat × Nat) := (hs.filter fun h => isDevice (32 * h)).map fun h => (32 * h, 32)

/-- Writes bytes at a. Halves of device memory written in part are read first, and keep their poison; whole halves lose it; with bad
every line touched is marked (R193, R207). A write to an offline segment is dropped and logged (R209). Log entry 111, DEDUCED. Log
entry 151, DEDUCED. -/
def State.write (s : State) (a : Nat) (bs : List Byte) (bad : Bool) : State :=
  if !s.answers a bs.length then s.logOffline a true
  else
    let s := s.meet (halfRanges (partHalves a bs.length))
    let p := poisonDel s.poison (wholeHalves a bs.length)
    { s with struck := s.struck.filter fun f => !struckOver a bs.length f,
             mcs := (s.countHalves (partHalves a bs.length)).mcs, mem := memSetN s.mem a bs, poison := if bad then poisonAdd p (lineHalves a bs.length) else p }

/-- Marks the lines of [a, a + n) as poisoned. -/
def State.poisonLines (s : State) (a n : Nat) : State :=
  { s with poison := poisonAdd s.poison (lineHalves a n) }

/-- Poison that enters the module is written into device memory at a (R207, R322). Log entry 111, DEDUCED. -/
def State.poisonWritten (s : State) (a : Nat) : State :=
  if isDevice a then s.logEv 1 2 (0x80 + (mcOfChannel (s.channelOf a)).val) 0x07 a (s.channelOf a) else s

/-- Zero fill with valid check words. -/
def State.zeroFill (s : State) (a n : Nat) : State :=
  { s with struck := s.struck.filter fun f => !struckOver a n f, mem := memClear s.mem a n, poison := s.poison.filter fun h => h < a / 32 || ceilDiv (a + n) 32 ≤ h }

/-! ### Boot records and the alias key (14 R302, 16 R337) -/

/-- Sequence number i is newer than j, modulo 2^32 (log entry 138, DESIGN CHOICE). -/
def seqNewer (i j : Nat) : Bool :=
  let d := (i + 2 ^ 32 - j) % 2 ^ 32
  0 < d && d < 2 ^ 31

/-- Copy 1 of the boot record governs: it is valid, and newer than copy 0 or the only valid one. -/
def Nvm.bootOne (n : Nvm) : Bool := n.boot1.valid && (!n.boot0.valid || seqNewer n.boot1.seq n.boot0.seq)

/-- The boot record that governs. -/
def Nvm.boot (n : Nvm) : BootRec := if n.bootOne then n.boot1.record else n.boot0.record

/-- The copy of a new boot record: it takes the place of the one that does not govern. -/
def Nvm.nextCopy (n : Nvm) (b : BootRec) : BootCopy :=
  bootCopy b (((if n.bootOne then n.boot1.seq else n.boot0.seq) + 1) % 2 ^ 32)

def Nvm.putCopy (n : Nvm) (one : Bool) (c : BootCopy) : Nvm := if one then { n with boot1 := c } else { n with boot0 := c }

def Nvm.putBoot (n : Nvm) (b : BootRec) : Nvm := n.putCopy (!n.bootOne) (n.nextCopy b)

def Nvm.activeBank (n : Nvm) : List Byte := if n.boot.active then n.bankB else n.bankA

/-- Measurement i of a content; factory content has a free digest (log entry 6, DESIGN CHOICE). -/
def measured (i : Nat) (bs : List Byte) : List Byte := if bs.isEmpty then Config.measurement i else sha256 bs

/-- The alias key (14 R302): measurement 2 changes at a conventional reset only. -/
def Nvm.aliasKey (n : Nvm) : List Byte := Config.aliasKey Config.deviceKey (measured 2 n.activeBank)

/-! ### Wake (15 R313) and the start of a power transition -/

/-- Starts a region's transition (Table 15.2); BUSY stays 1 until it completes. -/
def startTransition (p : Pwr) (goal : Nat) : Pwr := { p with busy := true, goal := goal }

/-- A wake of region r: an armed one commands the region as a host write would, with the refusals of a reserved TARGET (R358) and
of a defective region (R327), an unarmed one is an event (log entry 36, DEDUCED). Log entry 77, DEDUCED. -/
def State.wake (s : State) (r : RegionId) : State :=
  let p := s.power
  let arm := fld p.wakeArm.toNat (4 * r.val) 4
  let s := { s with power := { p with wakePend := p.wakePend ||| BitVec.ofNat 8 (2 ^ r.val) } }
  if bitAt arm 3 then
    let s := { s with power := { s.power with wakeArm := s.power.wakeArm &&& ~~~(BitVec.ofNat 32 (2 ^ (4 * r.val + 3))) } }
    let tgt := arm % 8
    let reg : Pwr := s.region r.val
    let s := s.sendMsix s.power.vector.toNat
    let cmd : Pwr := { reg with target := BitVec.ofNat 3 tgt, err := if reg.defect then 3 else 0 }
    if tgt = 3 ∨ tgt = 4 ∨ reg.busy ∨ s.errlog.fatal then s
    else if 5 ≤ tgt then s.setPwr r { reg with err := 5 }
    else if reg.defect then s.setPwr r cmd
    else if reg.state ≤ tgt then s
    else s.setPwr r (startTransition cmd tgt)
  else (s.sendMsix s.power.vector.toNat).logEv 4 2 0xFF 0x14 0 r.val

end Sys2Proof.Machine
end

