-- ==== Sys2Proof/Machine/Operands.lean ====
section
/-!
DEFINITION. Operand forms: the fields of an instruction word (08 Table 8.5), tile descriptors and scale headers with
their checks (R14, R15, R46, R49, R50, R152), and the reading and writing of tile elements (R45, R61, R356).
-/
namespace Sys2Proof.Machine

open Sys2Proof

/-! ### Instruction words (Table 8.5) -/

def opOf (w : Word64) : Nat := fld w.toNat 56 8
def predOf (w : Word64) : Nat := fld w.toNat 53 3
def pnegOf (w : Word64) : Bool := bitAt w.toNat 52

structure FmtS where
  d : Nat
  a : Nat
  b : Nat
  sub : Nat
deriving DecidableEq, Repr

def fmtS (w : Word64) : FmtS := ⟨fld w.toNat 47 5, fld w.toNat 42 5, fld w.toNat 37 5, fld w.toNat 29 8⟩
def zeroS (w : Word64) : Bool := fld w.toNat 0 29 == 0

structure FmtI where
  d : Nat
  a : Nat
  imm : Nat
deriving DecidableEq, Repr

def fmtI (w : Word64) : FmtI := ⟨fld w.toNat 47 5, fld w.toNat 42 5, fld w.toNat 10 32⟩
def zeroI (w : Word64) : Bool := fld w.toNat 0 10 == 0

structure FmtT where
  td : Nat
  ta : Nat
  tb : Nat
  f : Nat
  rm : Nat
  stg : Nat
  rt : Nat
  sub : Nat
  ru : Nat
deriving DecidableEq, Repr

def fmtT (w : Word64) : FmtT :=
  let n := w.toNat
  ⟨fld n 46 6, fld n 40 6, fld n 34 6, fld n 30 4, fld n 28 2, fld n 25 3, fld n 20 5, fld n 12 8, fld n 7 5⟩
def zeroT (w : Word64) : Bool := fld w.toNat 0 7 == 0

structure FmtM where
  tdw : Nat
  tda : Nat
  shape : Nat
  acm : Nat
  g : Nat
  chain : Nat
  accix : Nat
  rm : Nat
  init : Bool
  list : Bool
  rc : Nat
  pset : Nat
deriving DecidableEq, Repr

def fmtM (w : Word64) : FmtM :=
  let n := w.toNat
  ⟨fld n 46 6, fld n 40 6, fld n 37 3, fld n 35 2, fld n 33 2, fld n 29 4, fld n 17 12, fld n 15 2, bitAt n 14,
   bitAt n 13, fld n 8 5, fld n 4 4⟩
def zeroM (w : Word64) : Bool := fld w.toNat 0 4 == 0

structure FmtB where
  a : Nat
  cnt : Nat
  off : Int
deriving DecidableEq, Repr

def fmtB (w : Word64) : FmtB := ⟨fld w.toNat 47 5, fld w.toNat 35 12, sext 32 w.toNat⟩
def zeroB (w : Word64) : Bool := fld w.toNat 32 3 == 0

structure FmtX where
  f0 : Nat
  nf : Nat
  a : Nat
  b : Nat
  pd : Nat
  sub : Nat
  imm : Nat
deriving DecidableEq, Repr

def fmtX (w : Word64) : FmtX :=
  let n := w.toNat
  ⟨fld n 46 6, fld n 40 6, fld n 35 5, fld n 30 5, fld n 27 3, fld n 19 8, fld n 0 19⟩

/-! ### Descriptors (Table 8.6) -/

def tdAddr (w : Nat) : Nat := fld w 0 42
def tdFmt (w : Nat) : Nat := fld w 42 6
def tdSparse (w : Nat) : Nat := fld w 48 2
def tdRows (w : Nat) : Nat := fld w 50 16 + 1
def tdCols (w : Nat) : Nat := fld w 66 16 + 1
def tdStride (w : Nat) : Nat := fld w 82 24
def tdSptr (w : Nat) : Nat := fld w 106 22

/-- Bytes of a packed row of n elements (R15). -/
def packedBytes (bits n : Nat) : Nat := ceilDiv (bits * n) 8

def Tile.rowBytes (t : Tile) : Nat := packedBytes t.fmt.bits t.cols
/-- Planes of R31; a quire, integer or float tile has one. -/
def Tile.planes (t : Tile) : Nat := if t.fmt = .accp then 2 else 1
def Tile.rowAddr (t : Tile) (r : Nat) : Nat := t.addr + r * t.stride
/-- Address of row r of the index plane of a sparse tile (R78). -/
def Tile.indexAddr (t : Tile) (r : Nat) : Nat := t.addr + t.rows * t.stride + r * ceilDiv t.cols 4
/-- First address past the tile, index plane included. -/
def Tile.extent (t : Tile) : Nat :=
  if t.sparse ≠ 0 then t.rows * t.stride + t.rows * ceilDiv t.cols 4
  else (t.planes * t.rows - 1) * t.stride + t.rowBytes
/-- Row stride in elements (R50, R152), rounded down. Log entry 118, DESIGN CHOICE. -/
def Tile.pitch (t : Tile) : Nat := t.stride * 8 / t.fmt.bits
def Tile.groupLen (t : Tile) : Nat := match t.hdr with | some h => h.glen | none => 32
def Tile.skind (t : Tile) : Nat := match t.hdr with | some h => h.skind | none => 0
def Tile.gaxis (t : Tile) : Nat := match t.hdr with | some h => h.gaxis | none => 0
def Tile.zp (t : Tile) : Nat := match t.hdr with | some h => h.zp | none => 0
def Tile.csaddr (t : Tile) : Nat := match t.hdr with | some h => h.csaddr | none => 0
def Tile.tabaddr (t : Tile) : Nat := match t.hdr with | some h => h.tabaddr | none => 0
def Tile.tscale (t : Tile) : Val := match t.hdr with | some h => fp32 h.tscale | none => Val.one

/-- Bytes of the fine-scale array (R50). -/
def Tile.fineLen (t : Tile) : Nat :=
  if t.skind = 0 then 0
  else if t.gaxis = 0 then (t.rows - 1) * (t.pitch / t.groupLen) + t.cols / t.groupLen
  else (t.rows / t.groupLen - 1) * t.pitch + t.cols

def Tile.fineAddr (t : Tile) (r c : Nat) : Nat :=
  match t.hdr with
  | none => 0
  | some h => if h.gaxis = 0 then h.fsaddr + r * (t.pitch / h.glen) + c / h.glen else h.fsaddr + r / h.glen * t.pitch + c

/-- The header record (Table 3.3) from its 32 bytes; none for a reserved value (R46, R49). -/
def parseHdr (f : Fmt) (bs : List Byte) : Option Hdr :=
  let skind := fieldLE bs 4 1
  let glen := fieldLE bs 5 1
  let gaxis := fieldLE bs 6 1
  let zp := fieldLE bs 7 1
  let cs := fieldLE bs 16 8
  let tab := fieldLE bs 24 8
  let kinds : List Nat :=
    if f.isMx then [1]
    else match f with
      | .int4 | .int8 | .int16 | .t4 => [0, 2]
      | .posit8 | .posit16 | .posit32 | .quire8 | .quire16 | .quire32 => []
      | _ => [0]
  let ok := kinds.contains skind
    && (skind == 0 || (glen < 3 && gaxis < 2 && (skind != 1 || glen == 0)))
    && (zp == 0 || f == .uint8 || f == .accp)
    && cs % 4 == 0 && tab % 32 == 0 && (tab == 0 || f == .t4)
  if ok then
    some { tscale := BitVec.ofNat 32 (fieldLE bs 0 4), skind := skind, glen := 32 * 2 ^ glen, gaxis := gaxis, zp := zp,
           fsaddr := fieldLE bs 8 8, csaddr := cs, tabaddr := tab }
  else none

/-- Whether a zero scale pointer is permitted (Table 3.1). -/
def zeroHdrOk (f : Fmt) : Bool := !f.isMx && f != .t4

/-- Constraint of R50 on a fine-scaled descriptor. -/
def Tile.fineOk (t : Tile) : Bool :=
  t.skind == 0 ||
    (if t.gaxis = 0 then t.cols % t.groupLen == 0 && t.pitch % t.groupLen == 0 else t.rows % t.groupLen == 0)

/-- Layout rules of R15 and R152 on a descriptor, wherever it lies. -/
def Tile.shapeOk (t : Tile) : Bool :=
  let b := t.fmt.bits
  t.sparse < 3 && t.rowBytes ≤ t.stride
    && (b < 16 || (t.stride % (b / 8) == 0 && t.addr % (b / 8) == 0))
    && (b != 4 || t.cols % 2 == 0) && (b != 6 || t.cols % 4 == 0)

/-- Layout rules of a descriptor without its header: it lies in one range of the strand address space. -/
def Tile.layoutOk (t : Tile) : Bool := t.shapeOk && inOneRange t.addr t.extent

/-- A descriptor's fields, when its format is not reserved. -/
def tileFields (w : Nat) : Option Tile :=
  match fmtOfCode (tdFmt w) with
  | none => none
  | some f => some { addr := tdAddr w, fmt := f, sparse := tdSparse w, rows := tdRows w, cols := tdCols w,
                     stride := tdStride w, hdr := none, hdrAddr := 0, hdrBad := false }

/-- A header may lie in the scratchpad or in device memory (R49). -/
def hdrPlaceOk (a : Nat) : Bool :=
  a % 32 == 0 && (match place a with | .device => true | .scratch _ _ => true | _ => false)

/-- Every range that the descriptor names besides the tile: header, fine scales, column sums, table (R51). -/
def Tile.sideRanges (t : Tile) : List (Nat × Nat) :=
  match t.hdr with
  | none => []
  | some h =>
    (t.hdrAddr, 32) ::
      ((if h.skind = 0 then [] else [(h.fsaddr, t.fineLen)])
        ++ (if t.fmt = .t4 then [(h.tabaddr, 32)] else []))

def Tile.ranges (t : Tile) : List (Nat × Nat) := (t.addr, t.extent) :: t.sideRanges

/-- Column sums that reading an accumulator tile with a zero point takes in (R50, R56). -/
def Tile.sumRanges (t : Tile) : List (Nat × Nat) := if t.fmt = .accp ∧ t.zp ≠ 0 then [(t.csaddr, 4 * t.cols)] else []

/-- Ranges that reading a tile touches. -/
def Tile.readRanges (t : Tile) : List (Nat × Nat) := t.ranges ++ t.sumRanges

/-- An accumulator tile with a zero point names its column sums (R56, R59). Log entry 119, DEDUCED. -/
def Tile.sumOk (t : Tile) : Bool := t.fmt != .accp || t.zp == 0 || t.csaddr != 0

/-- A tile that an instruction of a strand reads: its column sums lie in one range (R148). -/
def Tile.readOk (t : Tile) : Bool := t.sumOk && t.sumRanges.all fun p => inOneRange p.1 p.2

/-- A tile with its header at scale address sh (0: none). None: a format fault (R46, R49, R50). Where the header's arrays
lie is the caller's check. -/
def State.withHeader (s : State) (t0 : Tile) (sh : Nat) : Option Tile :=
  if sh = 0 then (if zeroHdrOk t0.fmt then some t0 else none)
  else if !hdrPlaceOk sh then none
  else
    let r := s.read sh 32
    match parseHdr t0.fmt r.1 with
    | none => none
    | some h =>
      let t : Tile := { t0 with hdr := some h, hdrAddr := sh, hdrBad := r.2 }
      if t.fineOk then some t else none

/-- The checked tile of a descriptor, its header at scale address sh (0: none). None: a format fault (R14). -/
def State.tileAt (s : State) (w : Nat) (sh : Nat) : Option Tile :=
  match tileFields w with
  | none => none
  | some t0 =>
    if !t0.layoutOk then none else (s.withHeader t0 sh).filter fun t => t.sideRanges.all fun p => inOneRange p.1 p.2

/-- Scale address of a descriptor held in a register: SCALE_BASE + 32 × SPTR (Table 8.6). -/
def scaleAddr (base w : Nat) : Nat := if tdSptr w = 0 then 0 else base + 32 * tdSptr w

/-! ### Reading elements (R45 to R48) -/

/-- Code of element (r, c) of a row store at base. -/
def codeAt (m : List Host.Cell) (base bits c : Nat) : Nat :=
  let b := c * bits
  fld (leValue (memGetN m (base + b / 8) ((b + bits - 1) / 8 - b / 8 + 1))) (b % 8) bits

def Tile.code (t : Tile) (m : List Host.Cell) (r c : Nat) : Nat := codeAt m (t.rowAddr r) t.fmt.bits c

/-- T4 table of a tile (R50). -/
def Tile.table (t : Tile) (m : List Host.Cell) : List Nat :=
  if t.fmt = .t4 then (List.range 16).map fun i => leValue (memGetN m (t.tabaddr + 2 * i) 2) else []

def fineVal (skind code : Nat) : Val := if skind = 1 then e8m0 code else if skind = 2 then ue4m3 code else Val.one

def Tile.fine (t : Tile) (m : List Host.Cell) (r c : Nat) : Val :=
  if t.skind = 0 then Val.one else fineVal t.skind (memGet m (t.fineAddr r c)).toNat

/-- x × f (R48). -/
def applyFine (x f : Val) : Val := if f.isNan then .nan else if f.isZero then Val.zero else x.mul f

/-- x × T (R47). -/
def applyTscale (x t : Val) : Val :=
  match t with
  | .fin y => if y.isZero then (if x.isNan then .nan else Val.zero) else x.mul t
  | _ => .nan

/-- Exact value of element (r, c) of a tile that is no accumulator tile (R45). TSCALE comes last: under a NaN or infinite
one a group with a zero fine scale reads NaN too (R47, R48). Log entry 117, DESIGN CHOICE. -/
def Tile.value (t : Tile) (m : List Host.Cell) (r c : Nat) : Val :=
  applyTscale (applyFine (decodeElem t.fmt t.zp (t.table m) (t.code m r c)) (t.fine m r c)) t.tscale

/-- Lines that element (r, c) of the first plane is read from, with its scales. -/
def Tile.elemHalves (t : Tile) (r c : Nat) : List Nat :=
  let b := c * t.fmt.bits
  lineHalves (t.rowAddr r + b / 8) ((b + t.fmt.bits - 1) / 8 - b / 8 + 1)
    ++ (if t.skind = 0 then [] else lineHalves (t.fineAddr r c) 1)
    ++ (if t.fmt = .t4 then lineHalves t.tabaddr 32 else [])

/-- Fine scales of the n elements of row r from column c on. -/
def Tile.fineStrip (t : Tile) (r c n : Nat) : List (Nat × Nat) :=
  if t.skind = 0 ∨ n = 0 then [] else [(t.fineAddr r c, t.fineAddr r (c + n - 1) + 1 - t.fineAddr r c)]

/-- Bytes that hold codes of the given width, n of them from code c on, of a packed row at base. -/
def packedStrip (base bits c n : Nat) : List (Nat × Nat) :=
  if n = 0 then [] else [(base + c * bits / 8, ((c + n) * bits - 1) / 8 + 1 - c * bits / 8)]

/-- What reading the n elements of row r of the first plane from column c on touches, the T4 table apart. -/
def Tile.strip (t : Tile) (r c n : Nat) : List (Nat × Nat) :=
  packedStrip (t.rowAddr r) t.fmt.bits c n ++ t.fineStrip r c n

/-- The T4 table of a tile. -/
def Tile.tableRange (t : Tile) : List (Nat × Nat) := if t.fmt = .t4 then [(t.tabaddr, 32)] else []

/-- What reading the n elements of row r from column c on as values touches: both planes and the column sums of an accumulator
tile, and the T4 table. -/
def Tile.valueStrip (t : Tile) (r c n : Nat) : List (Nat × Nat) :=
  t.strip r c n ++ (if t.fmt = .accp then packedStrip (t.rowAddr (t.rows + r)) 32 c n else [])
    ++ (if t.sumRanges.isEmpty then [] else [(t.csaddr + 4 * c, 4 * n)]) ++ t.tableRange

/-- Half h is poisoned, or lies in an offline segment (R207, R209). -/
def State.halfBad (s : State) (h : Nat) : Bool := s.poison.contains h || s.offline (32 * h)

/-- Whether element (r, c) of the first plane carries poison, or comes from an offline segment (R118, R207, R209). -/
def State.planeBad (s : State) (t : Tile) (r c : Nat) : Bool := t.hdrBad || (t.elemHalves r c).any s.halfBad

/-- The same with the error plane of an accumulator tile. -/
def State.elemBad (s : State) (t : Tile) (r c : Nat) : Bool :=
  s.planeBad t r c || (t.fmt == .accp && (lineHalves (t.rowAddr (t.rows + r) + 4 * c) 4).any s.halfBad)

/-- Column-sum value S[c] (R50, R56); INT32 when int is true. -/
def State.colSum (s : State) (csaddr c : Nat) (int : Bool) : Val :=
  let w := leValue (memGetN s.mem (csaddr + 4 * c) 4)
  if int then Val.ofInt (sext 32 w) else spec32.decode w

/-- Read of an accumulator pair under R56: pair-aware or sum-plane, zero-point correction, tensor scale. Log entry 113, DEDUCED. -/
def readPair (pairAware : Bool) (sw ew : Word) (zp : Nat) (cs : Val) (t : Val) : Val :=
  let x := if pairAware then (fp32 sw).add (fp32 ew) else fp32 sw
  let y := if zp = 0 then x else x.sub ((Val.ofInt zp).mul cs)
  y.mul t

/-- Read of an INT32 accumulator under R56: s − ZP × S[c] modulo 2^32. -/
def readInt (sw : Word) (zp : Nat) (cs : Val) : Int :=
  let c : Int := match cs with | .fin x => x.floorInt | _ => 0
  sext 32 (wrap 32 (sext 32 sw.toNat - zp * c))

/-! ### Values on their way to a tile -/

/-- A value to store, whether one of its inputs was NaN, and whether one was poisoned. -/
structure Src where
  v : Val
  nan : Bool := false
  bad : Bool := false
deriving DecidableEq, Repr

/-- Element (r, c) of an accumulator tile, pair-aware or from its sum plane (R56). Its inputs are what the read takes in:
the sum, the error, the column sum and the tensor scale (R43). -/
def State.srcPair (s : State) (t : Tile) (pairAware : Bool) (r c : Nat) : Src :=
  let sw := BitVec.ofNat 32 (t.code s.mem r c)
  let ew := BitVec.ofNat 32 (t.code s.mem (t.rows + r) c)
  let cs := if t.zp = 0 then Val.zero else s.colSum t.csaddr c false
  ⟨readPair pairAware sw ew t.zp cs t.tscale,
   (fp32 sw).isNan || (pairAware && (fp32 ew).isNan) || cs.isNan || t.tscale.isNan,
   (if pairAware then s.elemBad t r c else s.planeBad t r c)
     || (t.zp != 0 && (lineHalves (t.csaddr + 4 * c) 4).any s.halfBad)⟩

/-- Element (r, c) of a tile as a conversion source. -/
def State.src (s : State) (t : Tile) (r c : Nat) : Src :=
  if t.fmt = .accp then s.srcPair t true r c
  else
    let v := t.value s.mem r c
    ⟨v, v.isNan, s.elemBad t r c⟩

/-- Conversion events (Table 2.12, R63). -/
structure Events where
  inv : Nat := 0
  ov : Nat := 0
  un : Nat := 0
deriving DecidableEq, Repr

def Events.add (a b : Events) : Events := ⟨a.inv + b.inv, a.ov + b.ov, a.un + b.un⟩

/-- Events of one element: v the value before the destination's scales, q after them, cv what was written, nanIn whether
an input was NaN. -/
def elemEvents (v q : Val) (cv : Cv) (nanIn : Bool) : Events :=
  { inv := b2n (cv.nan && !nanIn),
    ov := b2n (!cv.nan && (cv.ov || (v.isFinite && !q.isFinite && !q.isNan))),
    un := b2n (!cv.nan && v.isFinite && !v.isZero && (cv.un || q.isZero || q.isNan)) }

/-- The quotient by the destination's scales (R37 step 2, R356). -/
def Tile.quotient (t : Tile) (m : List Host.Cell) (r c : Nat) (v : Val) : Val :=
  let v := if t.skind = 2 then v.div (t.fine m r c) else v
  match t.hdr with
  | none => v
  | some _ => v.div t.tscale

/-- One written element: its code, its events and its poison. -/
structure Wr where
  code : Nat
  ev : Events
  bad : Bool
deriving DecidableEq, Repr

def State.poisonedByte (s : State) (a : Nat) : Bool := (lineHalves a 1).any s.poison.contains

/-- One element of a destination that is not written by blocks; its destination scales are inputs too (R118). -/
def Tile.encode1 (t : Tile) (s : State) (rm : RM) (k : SrKey) (row col r c : Nat) (x : Src) : Wr :=
  let q := t.quotient s.mem r c x.v
  let cv := encodeElem t.fmt t.zp rm (draw rm k row col) q
  ⟨cv.code, elemEvents x.v q cv x.nan, x.bad || t.hdrBad || (t.skind == 2 && s.poisonedByte (t.fineAddr r c))⟩

/-- One MX block: its scale code and its elements, each of which has all 32 values as its inputs (R43, R118). Each entry
gives the coordinates of its element. -/
def Tile.encodeBlock (t : Tile) (s : State) (rm : RM) (k : SrKey) (xs : List (Nat × Nat × Src)) :
    Nat × List Wr :=
  let qs := xs.map fun x => t.quotient s.mem 0 0 x.2.2.v
  let b := quantiseBlock t.fmt rm (List.zipWith (fun x q => (q, draw rm k x.1 x.2.1)) xs qs)
  let nanIn := xs.any fun x => x.2.2.nan
  let bad := t.hdrBad || xs.any fun x => x.2.2.bad
  (b.scale, List.zipWith (fun x (qc : Val × Cv) =>
    ⟨qc.2.code, elemEvents x.2.2.v qc.1 qc.2 nanIn, bad⟩) xs (List.zip qs b.elems))

/-- Packs codes of the given width, least significant first (R15). -/
def packCodes (bits : Nat) (codes : List Nat) : List Byte :=
  leBytes (packedBytes bits codes.length) ((codes.foldr (fun c acc => acc * 2 ^ bits + c % 2 ^ bits) 0))

/-- A tile ready to store: rows of elements, and bytes of block scales with their addresses. -/
structure Stored where
  rows : List (List Wr)
  scales : List (Nat × Byte × Bool)
deriving DecidableEq, Repr

/-- The block that holds element (r, c) was written as a NaN block. -/
def Stored.nanBlock (x : Stored) (t : Tile) (r c : Nat) : Bool :=
  t.fmt.isMx && x.scales.any fun p => p.1 == t.fineAddr r c && p.2.1 == 0xFF

def transposeGo {α : Type} : Nat → List (List α) → List (List α)
  | 0, _ => []
  | n + 1, rows => rows.filterMap List.head? :: transposeGo n (rows.map List.tail)

def transpose {α : Type} (n : Nat) (rows : List (List α)) : List (List α) := transposeGo n rows

/-- Encodes one row of blocks of 32 along a row; r is the row in the descriptor, row its logical coordinate. Log entry 105, DEDUCED.
A last block that is cut has its scale from the elements that are there. Log entry 157, DESIGN CHOICE. -/
def Tile.encodeMxRow (t : Tile) (s : State) (rm : RM) (k : SrKey) (row col0 r c0 : Nat) (xs : List Src) :
    List Wr × List (Nat × Byte × Bool) :=
  let idx := List.zip (List.range xs.length) xs
  let bs := (pieces 32 idx).map fun blk =>
    (t.fineAddr r (c0 + (blk.headD (0, ⟨.nan, false, false⟩)).1),
     t.encodeBlock s rm k (blk.map fun x => (row, col0 + x.1, x.2)))
  (bs.flatMap fun b => b.2.2, bs.map fun b => (b.1, BitVec.ofNat 8 b.2.1, b.2.2.any (·.bad)))

/-- Encodes a whole tile of values. (row0, col0) is the logical coordinate of element (0, 0) (R36). -/
def Tile.encodeTile (t : Tile) (s : State) (rm : RM) (k : SrKey) (row0 col0 : Nat) (rows : List (List Src)) :
    Stored :=
  let idx := List.zip (List.range rows.length) rows
  if !t.fmt.isMx then
    ⟨idx.map fun p =>
        (List.zip (List.range p.2.length) p.2).map fun q => t.encode1 s rm k (row0 + p.1) (col0 + q.1) p.1 q.1 q.2, []⟩
  else if t.gaxis = 0 then
    let out := idx.map fun p => t.encodeMxRow s rm k (row0 + p.1) col0 p.1 0 p.2
    ⟨out.map (·.1), out.flatMap (·.2)⟩
  else
    let bands := (pieces 32 idx).map fun band =>
      let cols := transpose t.cols (band.map fun p => p.2.map fun x => (p.1, x))
      let enc := (List.zip (List.range cols.length) cols).map fun c =>
        (t.fineAddr ((band.headD (0, [])).1) c.1,
         t.encodeBlock s rm k (c.2.map fun x => (row0 + x.1, col0 + c.1, x.2)))
      (transpose band.length (enc.map fun e => e.2.2),
       enc.map fun e => (e.1, BitVec.ofNat 8 e.2.1, e.2.2.any (·.bad)))
    ⟨bands.flatMap (·.1), bands.flatMap (·.2)⟩

def Stored.events (x : Stored) : Events :=
  x.rows.foldl (fun a r => r.foldl (fun a w => a.add w.ev) a) {}

/-- Poison marks of the elements of a packed row: half-lines each poisoned element's bytes touch. -/
def rowBadRanges (base bits : Nat) (ws : List Wr) : List (Nat × Nat) :=
  (List.zip (List.range ws.length) ws).filterMap fun p =>
    if p.2.bad then some (base + p.1 * bits / 8, (p.1 * bits + bits - 1) / 8 - p.1 * bits / 8 + 1) else none

/-- Marks the 64-byte lines that hold the poisoned elements of a packed row (R118). -/
def State.markRow (s : State) (base bits : Nat) (ws : List Wr) : State :=
  (rowBadRanges base bits ws).foldl (fun s p => s.poisonLines p.1 p.2) s

/-- Writes one packed row; its poisoned elements mark the 64-byte lines that hold them (R118). -/
def State.writeRow (s : State) (base bits : Nat) (ws : List Wr) : State :=
  (s.write base (packCodes bits (ws.map (·.code))) false).markRow base bits ws

/-- Writes packed rows, each an address, an element width and its elements, then marks their poison. -/
def State.writeRows (s : State) (rows : List (Nat × Nat × List Wr)) : State :=
  let s := rows.foldl (fun s x => s.write x.1 (packCodes x.2.1 (x.2.2.map (·.code))) false) s
  rows.foldl (fun s x => s.markRow x.1 x.2.1 x.2.2) s

/-- Stores an encoded tile at its own addresses: rows, the zero error plane of an accumulator pair (R32), then scales. -/
def State.storeTile (s : State) (t : Tile) (x : Stored) : State :=
  let idx := List.zip (List.range x.rows.length) x.rows
  let rows := idx.map fun p => (t.rowAddr p.1, t.fmt.bits, p.2)
  let errs := if t.fmt = .accp then
      idx.map fun p => (t.rowAddr (t.rows + p.1), 32, p.2.map fun w => { w with code := 0 })
    else []
  let s := s.writeRows (rows ++ errs)
  let s := x.scales.foldl (fun s p => s.write p.1 [p.2.1] false) s
  x.scales.foldl (fun s p => if p.2.2 then s.poisonLines p.1 1 else s) s

end Sys2Proof.Machine
end

