-- ==== Sys2Proof/Machine/Tiler.lean ====
section
/-!
DEFINITION. The tiler's static schedule: operand pairs and recipes (04 Table 4.1, Table 4.8, R82), tile geometry and
stationary sets in order (08 R158 to R160, 05 R98, R104).
-/
namespace Sys2Proof.Machine

open Sys2Proof

/-! ### Operand pairs (Table 4.1) -/

def isFour (f : Fmt) : Bool := f == .int4 || f == .e2m1
def isEight (f : Fmt) : Bool :=
  match f with
  | .e4m3 | .e5m2 | .e3m2 | .e2m3 | .mxint8 | .int8 | .uint8 | .t4 => true
  | _ => false
def isHalf (f : Fmt) : Bool := f == .fp16 || f == .bf16
def isSmallInt (f : Fmt) : Bool := f == .int4 || f == .int8 || f == .uint8

/-- How the operands are split (Table 4.8). For a mixed recipe wide says that the weight is the wide operand. -/
inductive Recipe where
  | single
  | int16
  | int16Mixed (wideW : Bool)
  | fp32
  | fp32Mixed (wideW : Bool)
  | posit32
  | posit32Mixed (wideW : Bool)
deriving DecidableEq, Repr

/-- Width Wp of a product (Table 5.1), two-lane mode, and the recipe. -/
structure PairInfo where
  wp : Nat
  twoLane : Bool
  recipe : Recipe
deriving DecidableEq, Repr

def Acm.floating : Acm → Bool
  | .pair | .chunk => true
  | _ => false

/-- The row of Table 4.1 for a weight format, an activation format and a mode; none where no row permits them. -/
def pairInfo (w a : Fmt) (acm : Acm) : Option PairInfo :=
  let either (p : Fmt → Fmt → Bool) : Bool := p w a || p a w
  if !w.roleW || !a.roleA then none
  else if w = .int16 ∧ a = .int16 then some ⟨16, false, .int16⟩
  else if either (fun x y => x == .int16 && isSmallInt y) then some ⟨16, false, .int16Mixed (w == .int16)⟩
  else if w.isPosit && a.isPosit then
    if either (fun x _ => x == .posit32) then
      if acm ≠ .basin then none
      else if w = .posit32 ∧ a = .posit32 then some ⟨17, false, .posit32⟩
      else some ⟨17, false, .posit32Mixed (w == .posit32)⟩
    else if acm = .intw then none
    else some ⟨if w = .posit8 ∧ a = .posit8 then 8 else 17, false, .single⟩
  else if w = .l8 ∧ a = .l8 then (if acm.floating then some ⟨16, false, .single⟩ else none)
  else if w = .l16 ∧ a = .l16 then (if acm.floating then some ⟨17, false, .single⟩ else none)
  else if isFour w && isFour a && acm ≠ .basin then
    (if acm ≠ .intw ∨ (w = .int4 ∧ a = .int4) then some ⟨16, true, .single⟩ else none)
  else if acm = .basin then (if isSmallInt w && isSmallInt a then some ⟨16, false, .single⟩ else none)
  else if either (fun x y => isEight x && (isEight y || isFour y)) then
    (if acm ≠ .intw ∨ (isSmallInt w && isSmallInt a) then some ⟨16, false, .single⟩ else none)
  else if !acm.floating then none
  else if either (fun x y => isHalf x && (isHalf y || isEight y || isFour y)) then some ⟨17, false, .single⟩
  else if w = .fp32 ∧ a = .fp32 then some ⟨17, false, .fp32⟩
  else if either (fun x y => x == .fp32 && (isHalf y || isEight y || isFour y)) then
    some ⟨17, false, .fp32Mixed (w == .fp32)⟩
  else none

/-- Limbs of one pass: 0 the whole operand, 1 the low limb, 2 the high limb; and the shift of its scale factor. -/
structure Pass where
  wLimb : Nat
  aLimb : Nat
  shift : Nat
deriving DecidableEq, Repr

/-- Passes in order (Table 4.8). In x·w and a·b the first factor is the activation (log entry 16, DEDUCED). -/
def Recipe.passes : Recipe → List Pass
  | .single => [⟨0, 0, 0⟩]
  | .int16 => [⟨1, 1, 0⟩, ⟨2, 1, 8⟩, ⟨1, 2, 8⟩, ⟨2, 2, 16⟩]
  | .int16Mixed true => [⟨1, 0, 0⟩, ⟨2, 0, 8⟩]
  | .int16Mixed false => [⟨0, 1, 0⟩, ⟨0, 2, 8⟩]
  | .fp32 => [⟨2, 2, 0⟩, ⟨1, 2, 0⟩, ⟨2, 1, 0⟩, ⟨1, 1, 0⟩]
  | .fp32Mixed true => [⟨2, 0, 0⟩, ⟨1, 0, 0⟩]
  | .fp32Mixed false => [⟨0, 2, 0⟩, ⟨0, 1, 0⟩]
  | .posit32 => [⟨2, 2, 0⟩, ⟨1, 2, 0⟩, ⟨2, 1, 0⟩, ⟨1, 1, 0⟩]
  | .posit32Mixed true => [⟨2, 0, 0⟩, ⟨1, 0, 0⟩]
  | .posit32Mixed false => [⟨0, 2, 0⟩, ⟨0, 1, 0⟩]

/-! ### Shapes and tiles (R74, R159) -/

def shAs64 : Nat := 1
def shSp24 : Nat := 4
def shSp14 : Nat := 5
def shGx : Nat := 6
def shCplx : Nat := 7

def PartMode.width : PartMode → Nat
  | .whole => 64
  | .halves => 32
  | .quarters => 16

/-- Logical K positions for one stored row. -/
def sparseFactor (shape : Nat) : Nat := if shape = shSp24 then 2 else if shape = shSp14 then 4 else 1

/-- Posit width of the quire of a BASIN pair (Table 5.3). -/
def quireOf (w a : Fmt) : Nat :=
  if w = .posit32 ∨ a = .posit32 then 32 else if w = .posit16 ∨ a = .posit16 then 16 else 8

/-- Tile size S of Table 5.3. -/
def tileSize (acm : Acm) (w a : Fmt) (width : Nat) : Nat :=
  match acm with
  | .pair | .chunk => 64 * width * 8
  | .intw => 64 * width * 4
  | .basin => 64 * width * (2 * quireOf w a)

def Job.info (j : Job) : PairInfo := (pairInfo j.w.fmt j.a.fmt j.acm).getD ⟨16, false, .single⟩
def Job.passList (j : Job) : List Pass := j.info.recipe.passes
def Job.cplx (j : Job) : Bool := j.shape == shCplx
def Job.as64 (j : Job) : Bool := j.shape == shAs64
/-- Row dimension and column dimension of the output tiles. Log entry 52, DEDUCED. -/
def Job.rowsDim (j : Job) : Nat := if j.as64 then j.n else j.m
def Job.colsDim (j : Job) : Nat := if j.as64 then j.m else j.n
def Job.mt (j : Job) : Nat := ceilDiv j.rowsDim 64
def Job.nt (j : Job) : Nat := ceilDiv j.colsDim j.width
def Job.groups (j : Job) : Nat := ceilDiv j.k j.g
/-- Promotions of one accumulator tile (R104). -/
def Job.promos (j : Job) : Nat := j.groups * j.passList.length * (if j.cplx then 2 else 1)
def Job.tiles (j : Job) : Nat := j.mt * j.nt * (if j.cplx then 2 else 1)
/-- Address of accumulator tile i, or of plane 0 of its promotion list (R98, R159). A complex product has a list for each of
its two planes, whose promotions its Job.promos counts. Log entry 124, DEDUCED. -/
def Job.accAddr (j : Job) (i : Nat) : Nat := j.base + j.size * (if j.list then i * j.promos else i)
/-- Bytes from the base that the tiles or lists occupy. -/
def Job.accBytes (j : Job) : Nat := j.size * j.tiles * (if j.list then j.promos else 1)
def Job.multi (j : Job) : Bool := j.cplx || j.passList.length != 1
def Job.quire (j : Job) : Nat := quireOf j.w.fmt j.a.fmt

/-- Rows and columns of output tile (mt, nt) that the output has. -/
def Job.tileRows (j : Job) (i : Nat) : Nat := min 64 (j.rowsDim - 64 * (i % j.mt))
def Job.tileCols (j : Job) (i : Nat) : Nat := min j.width (j.colsDim - j.width * (i / j.mt))
/-- Output tile of an accumulator tile number. -/
def Job.outTile (j : Job) (t : Nat) : Nat := if j.cplx then t / 2 else t

/-- Pass rows of one stationary set (two tokens a row in two-lane mode, R68). -/
def Job.passRows (j : Job) (i : Nat) : Nat :=
  if j.info.twoLane then ceilDiv (j.tileRows i) 2 else j.tileRows i

/-- Sets of output tile i, in order (R160): 64 stored rows, or 128 in paired-bank mode, or one set for each group and
pass of a multi-pass or complex product. -/
def Job.itemsOf (j : Job) (i : Nat) : List Item :=
  if !j.multi then
    let len := if j.g = 128 then 128 else 64
    let sets := ceilDiv j.k len
    (List.range sets).map fun q =>
      { job := j.id, tile := i, acc := j.accAddr i, kLo := q * len, kHi := min j.k ((q + 1) * len), pass := 0,
        promo := q * len / j.g, last := q + 1 == sets }
  else
    let np := j.passList.length
    let reals := if j.cplx then 4 else 1
    (List.range j.groups).flatMap fun gi =>
      (List.range reals).flatMap fun c =>
        (List.range np).map fun p =>
          let t := if j.cplx then 2 * i + c / 2 else i
          { job := j.id, tile := t, acc := j.accAddr t, kLo := gi * j.g, kHi := min j.k ((gi + 1) * j.g),
            pass := c * np + p,
            promo := if j.cplx then gi * 2 * np + c % 2 * np + p else gi * np + p,
            last := gi + 1 == j.groups && p + 1 == np && (!j.cplx || c % 2 == 1) }

/-- Sets of part number pn of P parts: column tiles nt with nt mod P = pn, ascending (R159, R160). -/
def Job.itemsFor (j : Job) (pn : Nat) : List Item :=
  ((List.range j.nt).filter fun nt => nt % j.parts.length == pn).flatMap fun nt =>
    (List.range j.mt).flatMap fun mt => j.itemsOf (nt * j.mt + mt)

/-! ### Ranges a job touches -/

/-- Bytes of one RD entry, its base and what they hold (Table 6.4): (base, bytes) for each array of the chain. -/
def Job.rdArrays (j : Job) : List (Nat × Nat) :=
  match j.crec with
  | none => []
  | some c =>
    if j.chain = 5 then [(c.aux, 8 * c.rdk)]
    else if j.chain = 6 then [(c.stat, 4), (c.aux, 8)]
    else if j.chain = 7 then [(c.aux, if c.rdop = 1 then 16 else 8)]
    else []

/-- The imaginary plane of a CPLX operand or output (R152): the rows after the real ones, with their fine scales. Log entry 51, DEDUCED. -/
def Tile.imag (t : Tile) : Tile :=
  { t with addr := t.addr + t.rows * t.stride, hdr := t.hdr.map fun h => { h with fsaddr := h.fsaddr + t.fineLen } }

/-- Both planes of a CPLX tile, with what the imaginary one names, lie where the strand address space has them (R148). -/
def Tile.planesOk (t : Tile) : Bool :=
  inOneRange t.addr (t.imag.addr + t.imag.extent - t.addr) && t.imag.sideRanges.all fun p => inOneRange p.1 p.2

/-- Ranges of a tile that a chain writes: elements and block scales; both planes with cplx. -/
def Tile.written (t : Tile) (cplx : Bool) : List (Nat × Nat) :=
  let one (t : Tile) : List (Nat × Nat) :=
    (t.addr, t.extent) :: (match t.hdr with
      | some h => if h.skind = 0 then [] else [(h.fsaddr, t.fineLen)]
      | none => [])
  one t ++ (if cplx then one t.imag else [])

/-- Byte ranges the chain of a job writes: output tensor with its scales, and RD entries (R117). -/
def Job.outRanges (j : Job) : List (Nat × Nat) :=
  match j.crec with
  | none => []
  | some c =>
    (if j.chain = 5 then [] else c.out.written j.cplx)
      ++ j.rdArrays.map fun p => (p.1, p.2 * (j.nt * c.out.rows))

/-- Accumulator tiles in the scratchpad with the part that holds each: (block, part), address and bytes. -/
def Job.accTiles (j : Job) : List ((Nat × Nat) × Nat × Nat) :=
  if j.acm = .basin ∨ j.list then []
  else (List.range j.tiles).map fun t =>
    (j.parts.getD (j.outTile t / j.mt % j.parts.length) (0, 0), j.accAddr t, j.size)

/-- Ranges a job writes, its accumulator tiles included. -/
def Job.writes (j : Job) : List (Nat × Nat) := (j.base, j.accBytes) :: j.outRanges

def overlap (p q : Nat × Nat) : Bool := p.2 != 0 && q.2 != 0 && p.1 < q.1 + q.2 && q.1 < p.1 + p.2

/-- Overlap of the 64-byte lines of two ranges. -/
def overlapLines (p q : Nat × Nat) : Bool :=
  p.2 != 0 && q.2 != 0 && p.1 / 64 ≤ (q.1 + q.2 - 1) / 64 && q.1 / 64 ≤ (p.1 + p.2 - 1) / 64

/-- Chains that end in QZ (Table 6.2). -/
def chainQz (c : Nat) : Bool := c == 3 || c == 4 || c == 10 || c == 12

/-! ### What a job writes, line by line (04 R85, 06 R117) -/

/-- Rows of a tile, each by itself: the bytes between two rows are no part of it. -/
def Tile.rowRanges (t : Tile) : List (Nat × Nat) :=
  (List.range (t.planes * t.rows)).map (fun r => (t.rowAddr r, t.rowBytes))
    ++ (if t.sparse ≠ 0 then [(t.indexAddr 0, t.rows * ceilDiv t.cols 4)] else [])

/-- Rows of the fine-scale array, each by itself (R50). -/
def Tile.fineRows (t : Tile) : List (Nat × Nat) :=
  if t.gaxis = 0 then (List.range t.rows).map fun r => (t.fineAddr r 0, t.cols / t.groupLen)
  else (List.range (t.rows / t.groupLen)).map fun g => (t.fineAddr (g * t.groupLen) 0, t.cols)

/-- A part of memory for the comparison of R117: a range that holds it, and the ranges it consists of. -/
structure Area where
  hull : Nat × Nat
  parts : List (Nat × Nat)
deriving DecidableEq, Repr

def areaOf (p : Nat × Nat) : Area := ⟨p, [p]⟩
def Tile.area (t : Tile) : Area := ⟨(t.addr, t.extent), t.rowRanges⟩
def Tile.fineArea (t : Tile) : Area := ⟨(t.fineAddr 0 0, t.fineLen), t.fineRows⟩

/-- What the descriptor names besides the tile. -/
def Tile.sideAreas (t : Tile) : List Area :=
  match t.hdr with
  | none => []
  | some h =>
    areaOf (t.hdrAddr, 32) ::
      ((if h.skind = 0 then [] else [t.fineArea]) ++ (if t.fmt = .t4 then [areaOf (h.tabaddr, 32)] else []))

/-- Some 64-byte line belongs to both. -/
def Area.meets (a b : Area) : Bool :=
  overlapLines a.hull b.hull && a.parts.any fun p => b.parts.any fun q => overlapLines p q

/-- A tile's rows, and with fine its fine scales, in both planes with cplx. -/
def Tile.storedAreas (t : Tile) (cplx fine : Bool) : List Area :=
  let one (t : Tile) : List Area := t.area :: (if t.skind = 0 || !fine then [] else [t.fineArea])
  one t ++ (if cplx then one t.imag else [])

/-- Lines that the chain writes: the output tensor's, the block scales of QZ, and the RD entries. Any other chain reads the
fine scales of its output. -/
def Job.outAreas (j : Job) : List Area :=
  match j.crec with
  | none => []
  | some c => (if j.chain = 5 then [] else c.out.storedAreas j.cplx (chainQz j.chain))
      ++ j.rdArrays.map fun p => areaOf (p.1, p.2 * (j.nt * c.out.rows))

/-- Tiles that a fault of the strand marks: accumulator tiles, and what the chain was to write into a scratchpad (R85). -/
def Job.marked (j : Job) : List (Nat × Nat) :=
  (j.base, j.accBytes) :: (j.outAreas.flatMap (·.parts)).filter fun p =>
    match place p.1 with | .scratch _ _ => true | _ => false

end Sys2Proof.Machine
end

