-- ==== Sys2Proof/Machine/Flags.lean ====
section
/-!
DEFINITION. The flag computations: conversion counters (02 R43), arrival flags (06 R123, R124), and comparison
conditions (02 R42, 08 Table 8.7).
-/
namespace Sys2Proof.Machine

open Sys2Proof

/-- Adds conversion events to a strand's counters (R43). -/
def Strand.count (x : Strand) (e : Events) : Strand :=
  { x with cntInvalid := satAdd x.cntInvalid e.inv, cntOverflow := satAdd x.cntOverflow e.ov,
           cntUnderflow := satAdd x.cntUnderflow e.un }

def State.count (s : State) (n : StrandId) (e : Events) : State := s.modStrand n (·.count e)

/-- What an arrival does to a flag of a strand that runs a launch (R123): the new flag, whether it is dropped, whether
it is a sequence fault. -/
def arriveAt : Flag → Flag × Bool × Bool
  | .idle => (.idle, false, true)
  | .armed => (.set, false, false)
  | .set => (.set, false, true)
  | .closed => (.closed, true, false)

/-- ARM (R123): none is a sequence fault. -/
def armAt : Flag → Option Flag
  | .idle => some .armed
  | .closed => some .armed
  | _ => none

/-- Flags at the start of a launch (R124). -/
def Flag.atLaunch : Flag → Flag
  | .closed => .closed
  | _ => .idle

def Strand.flag (x : Strand) (i : Nat) : Flag := x.af.toList.getD i .idle
def Strand.setFlag (x : Strand) (i : Nat) (v : Flag) : Strand :=
  if h : i < 64 then { x with af := x.af.set i v } else x

/-- CMP conditions of Table 8.7; none for a SUB value not listed. -/
def cmpCond (sub : Nat) (a b : Word) : Option Bool :=
  match sub with
  | 0 => some (a == b)
  | 1 => some (a != b)
  | 2 => some (a.slt b)
  | 3 => some (a.ult b)
  | 4 => some (!a.slt b)
  | 5 => some (!a.ult b)
  | _ => none

/-- VCMP conditions in the order of R42; none for a SUB value not listed. -/
def vcmpCond (sub : Nat) (a b : Val) : Option Bool :=
  match sub with
  | 0 => some (a.eqv b)
  | 1 => some (!a.eqv b)
  | 2 => some (a.lt b)
  | 3 => some (a.lt b || a.eqv b)
  | _ => none

/-- PLOG of Table 8.7; none for a SUB value not listed. -/
def plog (sub : Nat) (a b : Bool) : Option Bool :=
  match sub with
  | 0 => some (a && b)
  | 1 => some (a || b)
  | 2 => some (a != b)
  | 3 => some (!a)
  | _ => none

end Sys2Proof.Machine
end

