-- ==== Sys2Proof/Machine/Trap.lean ====
section
/-!
DEFINITION. Containment: the snoop gate in front of device memory (12 R251, 14 R296, 15 R311, R318), the end of a
strand's part in a launch and of the launch itself (11 R222, R225, R231, 12 R259 to R262), completion records on their
way to the QE, and the strand fault (04 R85, 08 R174). The block has no exception entry: a fault is state.
-/
namespace Sys2Proof.Machine

open Sys2Proof

/-! ### The gate (R251, R296, R311, R318) -/

/-- Device lines among the ranges. -/
def deviceLines (rs : List (Nat × Nat)) : List Nat :=
  rs.flatMap fun p => if isDevice p.1 then linesOf p.1 p.2 else []

/-- A line whose channel serves no access now; an offline segment has no channel. -/
def State.lineDown (s : State) (l : Nat) : Bool := !s.offline (64 * l) && !s.channelUp (s.channelOf (64 * l))

def State.sfHas (s : State) (l : Nat) : Bool := s.coh.sf.any fun e => e.line == l
def State.sfAny (s : State) (l : Nat) : Bool := s.coh.sf.any fun e => e.line == l && e.any

/-- Whether an outstanding BISnp covers the line. -/
def State.snooped (s : State) (l : Nat) : Bool := s.coh.snps.any fun q => q.line ≤ l && l < q.line + q.n

/-- Sends one BISnp unless one already covers its first line; at most 256 are outstanding (R296). -/
def State.snoop (s : State) (l n : Nat) (data : Bool) (evict : Bool := false) : State :=
  if s.snooped l || 256 ≤ s.coh.snps.length then s
  else { s with coh := { s.coh with snps := s.coh.snps ++ [⟨l, n, data, evict⟩], bisnp := satAdd s.coh.bisnp 1 },
                out := .bisnp l n data :: s.out }

/-- Snoops a line to write; with blk, an aligned block of four lines with two or more entries takes one BISnpInvBlk. -/
def State.snoopWrite (s : State) (blk : Bool) (ls : List Nat) (l : Nat) : State :=
  if blk && 2 ≤ (ls.filter fun m => m / 4 == l / 4).length then s.snoop (l / 4 * 4) 4 false else s.snoop l 1 false

/-- Keeps a host request until what it waits for has come; two equal requests are two requests (R298). -/
def State.holdReq (s : State) (c : Instr) : State := { s with coh := { s.coh with held := s.coh.held ++ [c] } }

/-- Keeps a command until what it waits for has come. -/
def State.hold (s : State) (c : Instr) : State :=
  if s.coh.held.contains c then s else { s with coh := { s.coh with held := s.coh.held ++ [c] } }

/-- A line at which an access by another agent than the host waits: its BISnp is outstanding, whether or not the write-back has
come (R296), or its channel serves nothing. -/
def State.lineShut (s : State) (l : Nat) : Bool := s.lineDown l || s.snooped l

/-- None when the accesses may be applied now; otherwise the state with the snoops they need sent. -/
def State.ask (s : State) (blk : Bool) (reads writes : List (Nat × Nat)) : Option State :=
  let rl := (deviceLines reads).filter s.sfAny
  let wl := (deviceLines writes).filter s.sfHas
  if rl.isEmpty && wl.isEmpty && !(deviceLines (reads ++ writes)).any s.lineShut then none
  else
    let s := wl.foldl (fun s l => s.snoopWrite blk wl l) s
    some (rl.foldl (fun s l => s.snoop l 1 true) s)

/-- Keeps a command with the segments that its accesses reach. -/
def State.holdAccess (s : State) (c : Instr) (rs : List (Nat × Nat)) : State :=
  let t := s.hold c
  { t with coh := { t.coh with access := t.coh.access ++ [(c, ((deviceLines rs).map fun l => segOf (64 * l)).eraseDups)] } }

/-- Command c waits at the gate with accesses of its own: it has begun. -/
def State.begun (s : State) (c : Instr) : Bool := s.coh.access.any fun p => p.1 == c

/-- Command c runs again after it has begun: it ends though its function stops, unless that has faulted (R316). -/
def State.resumes (s : State) (c : Instr) : Bool := s.coh.resumed.contains c

/-- None when the accesses of a command may be applied now; otherwise it is held, with the snoops it needs sent. -/
def State.gateWith (s : State) (blk : Bool) (c : Instr) (reads writes : List (Nat × Nat)) : Option State :=
  (s.ask blk reads writes).map fun t => t.holdAccess c (reads ++ writes)

def State.gate (s : State) (c : Instr) (reads writes : List (Nat × Nat)) : Option State := s.gateWith false c reads writes

/-! ### Launches -/

def lrMask (bs : List Byte) : Nat := fieldLE bs 0 4
def lrFlags (bs : List Byte) : Nat := fieldLE bs 4 1
def lrTag (bs : List Byte) : Nat := fieldLE bs 6 2
def lrBin (bs : List Byte) : Nat := fieldLE bs 8 8
def lrSession (bs : List Byte) : Nat := fieldLE bs 0x10 4
def lrCq (bs : List Byte) : Nat := fieldLE bs 0x14 4 % 2 ^ 20
def lrSeed (bs : List Byte) : Nat := fieldLE bs 0x18 8
def lrArg (bs : List Byte) (i : Nat) : Nat := fieldLE bs (0x20 + 4 * i) 4
def lrDigest (bs : List Byte) : Bool := bitAt (lrFlags bs) 0
def lrSign (bs : List Byte) : Bool := bitAt (lrFlags bs) 1

/-- Strand numbers of a mask. -/
def maskList (m : Nat) : List Nat := (List.range 32).filter fun i => bitAt m i

def State.launchOf (s : State) (id : Nat) : Option Launch := s.qe.launches.find? fun l => l.id == id

def State.modLaunch (s : State) (id : Nat) (f : Launch → Launch) : State :=
  { s with qe := { s.qe with launches := s.qe.launches.map fun l => if l.id == id then f l else l } }

/-- The digest message M (Table 12.8). -/
def Launch.message (l : Launch) : List Byte :=
  [0x41, 0x31, 0x2D, 0x52, 0x44, 0x47, 0x2D, 0x31] ++ l.codehash ++ leBytes 8 l.profile ++ leBytes 8 (lrSeed l.lrec)
    ++ l.wroot ++ leBytes 4 (lrMask l.lrec)
    ++ (maskList (lrMask l.lrec)).flatMap fun i => assoc i [] l.digests

def qeEntry (base q : Nat) : Nat := base + 64 * q

/-- The line of queue q's entry: as the QE holds it between its read and its write-back, else as memory has it (R216). -/
def State.entLine (s : State) (q : Nat) : List Byte :=
  match s.qe.line with
  | some (k, bs) => if k = q then bs else memGetN s.mem (qeEntry s.qe.qtbase.toNat q) 64
  | none => memGetN s.mem (qeEntry s.qe.qtbase.toNat q) 64

/-- The 64 bytes of queue q's entry as the QE uses them: of an enabled queue, the fields but HEAD and TAIL are those of the
enable, PHASE as the QE has moved it since (R216). -/
def State.qEntry (s : State) (q : Nat) : List Byte :=
  let cfg := assoc q [] s.qe.enabled
  let l := s.entLine q
  if cfg.isEmpty then l else cfg.take 16 ++ (l.drop 0x10).take 8 ++ cfg.drop 16 ++ l.drop 0x19

def State.queueOn (s : State) (q : Nat) : Bool := s.qe.enabled.any fun p => p.1 == q
/-- An enabled completion queue (R215, R223). -/
def State.cqOn (s : State) (q : Nat) : Bool := s.queueOn q && fieldLE (s.qEntry q) 0 1 == 2

/-- A completion that no ring takes: an event record with code 0x0E (R215, R223, Table 15.5). -/
def State.discardCompletion (s : State) (cq : Nat) : State := s.logEv 4 3 0x50 0x0E 0 cq

/-- Hands a completion record to the QE. -/
def State.addRec (s : State) (r : CRec) : State :=
  if s.cqOn r.cq then { s with qe := { s.qe with records := s.qe.records ++ [r] } } else s.discardCompletion r.cq

/-- The record of a launch, once; an orphan's is discarded (Table 15.5). -/
def State.recordLaunch (s : State) (l : Launch) (status reason fn kind pc : Nat) : State :=
  if l.recorded then s
  else
    let s := s.modLaunch l.id fun l => { l with recorded := true }
    if l.orphan then s.discardCompletion (lrCq l.lrec)
    else
      let want := status == 0 && lrDigest l.lrec
      s.addRec { cq := lrCq l.lrec, tag := lrTag l.lrec, status := status, sqid := l.sqid, sqhead := l.sqhead,
                 reason := reason, faultFn := fn, faultKind := kind, faultPc := pc,
                 digest := if want && !l.digestLost then some (sha256 l.message) else none,
                 digestFailed := lrDigest l.lrec && l.digestLost,
                 sign := if want && !l.digestLost && lrSign l.lrec then some l.message else none }

/-- Sets the ready bit of every queue whose blocked head names strand n (R222). -/
def State.unblock (s : State) (n : Nat) : State :=
  let go := s.qe.blocked.filter fun p => bitAt p.2 n
  { s with qe := { s.qe with blocked := s.qe.blocked.filter (fun p => !bitAt p.2 n),
                             ready := go.foldl (fun r p => setInsert p.1 r) s.qe.ready } }

/-- Releases a launch whose strands have all ended: its pins (R231) and its entry. -/
def State.closeLaunch (s : State) (id : Nat) : State :=
  { s with qe := { s.qe with launches := s.qe.launches.filter (fun l => l.id != id) },
           se := { s.se with pins := s.se.pins.filter fun p => p.launch != id } }

/-- Ends strand n's part in its launch. With halted, the launch is DONE when it was the last (R225). -/
def State.endPart (s : State) (n : StrandId) (id : Nat) (halted : Bool) : State :=
  let s := s.modLaunch id fun l =>
    { l with ended := setFld l.ended n.val 1 1, halted := if halted then setFld l.halted n.val 1 1 else l.halted }
  match s.launchOf id with
  | none => s
  | some l =>
    if l.ended == lrMask l.lrec then
      let s := if l.halted == l.ended then s.recordLaunch l 0 0 0xFF 0 0 else s
      s.closeLaunch id
    else s

/-! ### Faults of a strand (R85, R174) -/

/-- Fault kinds of Table 8.10 that a command raises. -/
inductive Kind where
  | decode | format | sequence | poison | watchdog
deriving DecidableEq, Repr

def Kind.code : Kind → Nat
  | .decode => 1 | .format => 2 | .sequence => 3 | .poison => 4 | .watchdog => 5

/-- Marks every accumulator tile that the strand's MMAs name and every scratchpad tile that they write, line by line (R85).
Log entry 61, DEDUCED. -/
def State.poisonJobs (s : State) (n : StrandId) : State :=
  s.jobs.foldl (fun s j => if j.strand == n then j.marked.foldl (fun s p => s.poisonLines p.1 p.2) s else s) s

def AccTile.mark (t : AccTile) : AccTile := { t with badAll := true }

/-- The strand's part after a fault: nothing queued, issued rows complete into poisoned tiles, nothing drains. -/
def Part.cancel (p : Part) : Part :=
  { p with queue := [], opened := none, closed := p.closed.map fun c => { c with badAll := true },
           acc := p.acc.map AccTile.mark, saddle := p.saddle.map AccTile.mark, epi := [] }

def Block.mapParts (b : Block) (f : Part → Part) : Block := { b with parts := b.parts.map f }

/-- Applies f to every part that strand n owns. -/
def State.mapOwned (s : State) (n : StrandId) (f : Part → Part) : State :=
  { s with blocks := s.blocks.map fun b => b.mapParts fun p => if p.owner == some n then f p else p }

/-- A strand that still waits to issue again what is held for it. -/
def State.retrying (s : State) (n : StrandId) : Bool := (s.strand n).run == .running && (s.strand n).wait == .retry

def Strand.reg (x : Strand) (i : Nat) : Word := x.s.toList.getD i 0

/-- Strand address of LDM and STM; none: a format fault (R148, R155). -/
def longAddr (x : Strand) (w : Word64) : Option Nat :=
  let a := (x.reg (fmtS w).b).toNat % 1024 * 2 ^ 32 + (x.reg (fmtS w).a).toNat
  if a % 4 = 0 ∧ inOneRange a 4 then some a else none

/-- A store of strand n that waits at the gate: its address. -/
def State.heldStore (s : State) (n : StrandId) : Option Nat :=
  s.coh.held.findSome? fun c => match c with
    | .stm m q => if m = n ∧ s.retrying n then longAddr (s.strand n) q.word else none
    | _ => none

/-- It is recorded as not made visible, and no longer waits (R252). Log entry 150, DEDUCED. -/
def State.dropStore (s : State) (n : StrandId) : State :=
  match s.heldStore n with
  | some a =>
    let t := s.logEv 1 2 n.val 0x0B a 4
    let mine (c : Instr) : Bool := match c with | .stm m _ => m == n | _ => false
    { t with coh := { t.coh with held := t.coh.held.filter fun c => !mine c } }
  | none => s

/-- Raises a function-fatal fault of strand n at byte offset pc. Only the first is recorded until a function reset. Log entry 62, DEDUCED. -/
def State.strandFaultAt (s : State) (n : StrandId) (k : Kind) (pc : Nat) : State :=
  let x := s.strand n
  if x.run != .running && x.run != .loading then s
  else
    let s := ((s.dropStore n).poisonJobs n).mapOwned n Part.cancel
    let s := s.modStrand n fun x => { x with run := .faulted, faultKind := k.code, faultPc := pc, wait := .none }
    let s := s.logEv 2 2 n.val 0x08 0 (k.code + pc * 2 ^ 32)
    match x.launch with
    | none => s
    | some l =>
      let s := match s.launchOf l.id with
        | some y => s.recordLaunch y 2 0 n.val k.code pc
        | none => s
      s.endPart n l.id false

def State.strandFault (s : State) (n : StrandId) (k : Kind) : State := s.strandFaultAt n k (s.strand n).pc

/-! ### Arrivals (06 R123, R124) -/

/-- An arrival at flag i of strand n. While the strand runs no launch it is dropped and counted; in a region without power
(PS4) nothing counts it. Log entry 125, DESIGN CHOICE. -/
def State.arrival (s : State) (n : StrandId) (i : Nat) : State :=
  let x := s.strand n
  if (s.region (regionOf n)).state = 4 then s
  else if x.run == .running || x.run == .loading then
    let r := arriveAt (x.flag i)
    let s := s.setStrand n ({ x with arriveDrop := if r.2.1 then satAdd x.arriveDrop 1 else x.arriveDrop }.setFlag i r.1)
    if r.2.2 then s.strandFault n .sequence else s
  else s.setStrand n { x with arriveDrop := satAdd x.arriveDrop 1 }

/-! ### Issue of an instruction (08 R149, R150, R156, R165, R166) -/

/-- Opcodes of Table 8.7. -/
def knownOp (op : Nat) : Bool :=
  op ≤ 0x14 || op == 0x18 || op == 0x19 || (0x20 ≤ op && op ≤ 0x25) || op == 0x30 || (0x40 ≤ op && op ≤ 0x4F)
    || (0x60 ≤ op && op ≤ 0x62) || (0x70 ≤ op && op ≤ 0x77) || (0x80 ≤ op && op ≤ 0x82) || (0x90 ≤ op && op ≤ 0x95)
    || (0xA0 ≤ op && op ≤ 0xA3) || op == 0xB0 || op == 0xB1

/-- Log entry 1, DESIGN CHOICE. -/
def Strand.codeWord (x : Strand) : Option Word64 := if x.pc % 8 = 0 then x.code[x.pc / 8]? else none
def Strand.codeSize (x : Strand) : Nat := 8 * x.code.length

/-- Writes a scalar register; s0 ignores writes (R147). -/
def Strand.setReg (x : Strand) (i : Nat) (v : Word) : Strand :=
  if h : i < 32 then (if i = 0 then x else { x with s := x.s.set i v }) else x
def Strand.freg (x : Strand) (i : Nat) : Word := x.f.toList.getD i 0
def Strand.setFreg (x : Strand) (i : Nat) (v : Word) : Strand := if h : i < 16 then { x with f := x.f.set i v } else x
def Strand.pred (x : Strand) (i : Nat) : Bool := x.p.toList.getD i false
/-- Writes a predicate register; p0 ignores writes (R147). -/
def Strand.setPred (x : Strand) (i : Nat) (v : Bool) : Strand :=
  if h : i < 8 then (if i = 0 then x else { x with p := x.p.set i v }) else x
def Strand.tdw (x : Strand) (i : Nat) : Nat := (x.td.toList.getD i 0).toNat
def Strand.setTd (x : Strand) (i : Nat) (v : Nat) : Strand :=
  if h : i < 64 then { x with td := x.td.set i (BitVec.ofNat 128 v) } else x

def Strand.predOn (x : Strand) (w : Word64) : Bool := x.pred (predOf w) != pnegOf w

/-- Leaves the REP bodies that end at pc, or goes round them again (R156). -/
def nextPc (pc : Nat) : List RepFrame → Nat × List RepFrame
  | [] => (pc, [])
  | f :: t =>
    if pc = f.stop then (if f.left = 0 then nextPc pc t else (f.start, { f with left := f.left - 1 } :: t))
    else (pc, f :: t)

/-- Goes on at byte offset pc; past the last instruction it is a decode fault at CODESIZE (R156). -/
def State.goto (s : State) (n : StrandId) (pc : Nat) : State :=
  let q := nextPc pc (s.strand n).reps
  let s := s.modStrand n fun x => { x with pc := q.1, reps := q.2 }
  if q.1 = (s.strand n).codeSize then s.strandFault n .decode else s

/-- Goes on with the next instruction. -/
def State.advance (s : State) (n : StrandId) : State := s.goto n ((s.strand n).pc + 8)

/-- A store of the strand waits at the gate: it is issued, and ends before the strand stops (R316). -/
def Strand.storing (x : Strand) : Bool :=
  x.wait == .retry && (match x.codeWord with | some w => opOf w == 0x14 | none => false)

/-- The strand runs, is enabled, and its region is awake. -/
def State.going (s : State) (n : StrandId) : Bool :=
  let x := s.strand n
  s.unitsOn && x.run == .running && s.awake (regionOf n)
    && (x.storing || (!x.disabled && !s.host.flr && s.func.resetting != some (BitVec.ofNat 8 n.val)))

/-- The strand issues word w at its PC now; one that waits to try again issues it again. -/
def State.mayIssue (s : State) (n : StrandId) (w : Word64) : Bool :=
  let x := s.strand n
  s.going n && (x.wait == .none || x.wait == .retry) && x.codeWord == some w

/-- What an instruction adds to the issue path of its window: its word and the descriptors it names without ADDR. -/
def Strand.pathOf (x : Strand) (w : Word64) : List Nat :=
  let op := opOf w
  let d (i : Nat) : Nat := x.tdw i / 2 ^ 42
  if op == 0x30 then [d (fmtM w).tdw, d (fmtM w).tda, w.toNat]
  else if (0x40 ≤ op && op ≤ 0x4F) || (0x90 ≤ op && op ≤ 0x95) then [d (fmtT w).td, d (fmtT w).ta, d (fmtT w).tb, w.toNat]
  else [w.toNat]

/-- The issue path after an instruction: one that was held at its PC adds nothing yet. -/
def Strand.settlePath (x y : Strand) : Strand :=
  if y.run == .running && y.pc == x.pc && y.reps == x.reps && (y.wait == .none || y.wait == .retry) then
    { y with path := x.path }
  else y

abbrev Body := State → Except Kind State

/-- After t strand n is held at the instruction that it had in s (R162, R166); one that a fault has stopped is not. -/
def State.heldAt (s : State) (n : StrandId) (t : State) : Bool :=
  (t.strand n).run == (s.strand n).run && (t.strand n).pc == (s.strand n).pc && (t.strand n).reps == (s.strand n).reps
    && (t.strand n).wait == .none

/-- One instruction of strand n: op is its row's opcode, dec its decode checks, win whether it may issue in a window,
body its checks at issue and its effect. Predicated off, only the checks are made, and outside a window only decode; in a
window it is held as it would have been. Log entry 49, DEDUCED. Log entry 110, DEDUCED. -/
def State.issue (s : State) (n : StrandId) (w : Word64) (op : Nat) (dec win : Bool) (body : Body) : State :=
  if !s.mayIssue n w || opOf w != op then s
  else if !dec then s.strandFault n .decode
  else
    let x := { s.strand n with wait := .none }
    let s := s.setStrand n x
    if x.inWindow && !win then s.strandFault n .sequence
    else
      let s := if x.inWindow then s.setStrand n { x with path := x.pathOf w ++ x.path } else s
      if x.predOn w then
        match body s with
        | .ok t => if x.inWindow then t.modStrand n x.settlePath else t
        | .error k => s.strandFault n k
      else if x.inWindow then
        match body s with
        | .error .decode => s.strandFault n .decode
        | .error .format => s.strandFault n .format
        | .error .sequence => s.strandFault n .sequence
        | .error _ => s.advance n
        | .ok t => if s.heldAt n t then s.modStrand n x.settlePath else s.advance n
      else s.advance n

def check (b : Bool) (k : Kind) : Except Kind Unit := if b then .ok () else .error k

/-- Ranges written by the jobs of strand n still in flight (R162). -/
def State.inFlight (s : State) (n : StrandId) : List (Nat × Nat) :=
  s.jobs.flatMap fun j => if j.strand == n then j.writes else []

/-- An instruction that reads these ranges is held (R162). -/
def State.hazard (s : State) (n : StrandId) (rs : List (Nat × Nat)) : Bool :=
  (s.inFlight n).any fun p => rs.any fun q => overlapLines p q

def SlotAct.strand : SlotAct → StrandId
  | .swap n _ => n
  | .load l => l.strand

/-- No TLOAD of strand n is in progress in the slot, and none of its TSWAPs is held. -/
def Slot.free (t : Slot) (n : StrandId) : Bool :=
  (match t.load with | some l => l.strand != n | none => true) && t.waiting.all fun a => a.strand != n

/-- No job of strand n is in flight. -/
def State.drained (s : State) (n : StrandId) : Bool := s.jobs.all fun j => j.strand != n

/-- No job of strand n is in flight, no TLOAD of it is in progress and no TSWAP of it is held. -/
def State.settled (s : State) (n : StrandId) : Bool :=
  s.drained n && (s.vsus.toList.getD (regionOf n) {}).slots.toList.all fun t => t.free n

/-- A strand waits for a gate: the command is already held. -/
def State.holdStrand (s : State) (n : StrandId) : State := s.modStrand n fun x => { x with wait := .retry }

/-- The VSU and the engines of the strand's region. -/
def regionFin (n : StrandId) : RegionId := fin8 (regionOf n)
def engineId (n : StrandId) (e : Nat) : EngineId := fin32 (4 * regionOf n + e % 4)

/-- In a window, ranges outside the region's scratchpad and Basin are a sequence fault (R166). -/
def winRanges (x : Strand) (r : Nat) (rs : List (Nat × Nat)) : Bool :=
  !x.inWindow || rs.all fun p => p.2 == 0 || inRegion r p.1 p.2

/-- Scale headers of the descriptors ds, where each has one that may be read (R49). -/
def headerRanges (base : Nat) (ds : List Nat) : List (Nat × Nat) :=
  ds.filterMap fun w =>
    let a := scaleAddr base w
    if a ≠ 0 ∧ hdrPlaceOk a then some (a, 32) else none

/-- What an instruction reads before it knows its operands (scale headers, a chain record): none when it may read it now,
else what becomes of the instruction, which is held or faults (R162, R166, R296). -/
def State.preRead (s : State) (n : StrandId) (c : Instr) (rs : List (Nat × Nat)) : Option (Except Kind State) :=
  if !winRanges (s.strand n) (regionOf n) rs then some (.error .sequence)
  else if s.hazard n rs then some (.ok s)
  else (s.gate c rs []).map fun t => .ok (t.holdStrand n)

/-- The same for reads of which each stage is known from the bytes of the ones before it (R111). -/
def State.preReads (s : State) (n : StrandId) (c : Instr) (st : List (List (Nat × Nat))) : Option (Except Kind State) :=
  st.findSome? (s.preRead n c)

end Sys2Proof.Machine
end

