-- ==== Sys2Proof/Machine/Array.lean ====
section
/-!
DEFINITION. The arithmetic of a block: operand cells and streamed elements (04 R65, R76 to R82, 06 R112), products and
half-sums (05 R88 to R92, 02 R28, R29), and the promotion updates of the accumulator modes (05 R93 to R97, R106).
-/
namespace Sys2Proof.Machine

open Sys2Proof

/-! ### Logarithmic products (R28, R29) -/

def tabT8 : List Nat := [0x8000, 0x8B96, 0x9838, 0xA5FF, 0xB505, 0xC567, 0xD745, 0xEAC1]
def tabT16a : List Nat := [32768, 34219, 35734, 37316, 38968, 40693, 42495, 44376, 46341, 48393, 50535, 52773, 55109,
  57549, 60097, 62757]
def tabT16b : List Nat := [32768, 32857, 32946, 33035, 33125, 33215, 33305, 33395, 33486, 33576, 33667, 33759, 33850,
  33942, 34034, 34126]

/-- Nearest integer to n / 2^15, ties to even. -/
def rneQ15 (n : Nat) : Nat :=
  let q := n / 32768
  let r := n % 32768
  if r > 16384 ∨ (r = 16384 ∧ q % 2 = 1) then q + 1 else q

def tabT16 (j : Nat) : Nat := rneQ15 (tabT16a.getD (j / 16 % 16) 0 * tabT16b.getD (j % 16) 0)

/-- Linear form of an L16 code sum. -/
def lin16 (d : Int) : Ex := Ex.dyadic (tabT16 (d % 256).toNat) (d / 256 - 15)
/-- Linear form of an L8 code sum. -/
def lin8 (d : Int) : Ex := Ex.dyadic (tabT8.getD (d % 8).toNat 0) (d / 8 - 15)

/-- Class of an L code: none for NaN, else zero or not, its sign and its magnitude code. -/
def lParts (n code : Nat) : Option (Bool × Bool × Int) :=
  let l := fld code 0 (n - 1)
  let neg := bitAt code (n - 1)
  if l = 2 ^ (n - 2) then (if neg then none else some (true, false, 0)) else some (false, neg, sext (n - 1) l)

/-- Product of two L codes in linear form. -/
def lProduct (n a b : Nat) : Val :=
  match lParts n a, lParts n b with
  | some (za, sa, la), some (zb, sb, lb) =>
    if za || zb then Val.zero
    else
      let x := if n = 8 then lin8 (la + lb) else lin16 (la + lb)
      .fin (if sa != sb then x.neg else x)
  | _, _ => .nan

/-! ### Operands of a product -/

/-- One operand: code, exact value without scales, whether its scale reads as NaN, poison. -/
structure Elem where
  code : Nat
  v : Val
  nanScale : Bool
  bad : Bool
deriving DecidableEq, Repr

/-- The k most significant significand bits of a value, toward zero. -/
def topBits (k : Int) (x : Ex) : Ex :=
  if x.isZero then Ex.zero
  else
    let l := x.ilog2
    let q : Int := (x.floorMul (k - 1 - l)).1
    Ex.dyadic (if x.isNeg then -q else q) (l - k + 1)

/-- Limb of an operand (Table 4.8): 0 whole, 1 low, 2 high. A special value has zero limbs. -/
def limbVal (f : Fmt) (limb : Nat) (v : Val) : Val :=
  if limb = 0 then v
  else
    match v with
    | .fin x =>
      match f with
      | .int16 =>
        let i := x.floorInt
        Val.ofInt (if limb = 1 then i % 256 else i / 256)
      | .fp32 => .fin (if limb = 2 then topBits 12 x else x.sub (topBits 12 x))
      | _ => .fin (if limb = 2 then topBits 14 x else x.sub (topBits 14 x))
    | _ => Val.zero

/-- What one product gives a group register: flags, or an exact addend (R92). -/
structure Prod where
  nan : Bool := false
  pinf : Bool := false
  ninf : Bool := false
  x : Ex := Ex.zero
deriving DecidableEq, Repr

/-- Two infinities give the infinity of the product's sign. Log entry 144, DEDUCED. -/
def prodFlags (a b : Val) : Prod :=
  match a.mul b with
  | .nan => { nan := true }
  | .inf n => { pinf := !n, ninf := n }
  | .fin _ => {}

/-- Product of a weight and an activation element in one pass. first says that the pass raises flags; neg negates. -/
def product (wf af : Fmt) (ps : Pass) (first neg : Bool) (w a : Elem) : Prod :=
  let scaleNan := w.nanScale || a.nanScale
  if scaleNan then { nan := first }
  else if wf.isL then
    match lProduct wf.bits w.code a.code with
    | .fin x => { x := if neg then x.neg else x }
    | _ => { nan := first }
  else
    let fl := prodFlags (if neg then w.v.neg else w.v) a.v
    if fl.nan || fl.pinf || fl.ninf then (if first then fl else {})
    else
      match (limbVal wf ps.wLimb w.v).mul (limbVal af ps.aLimb a.v) with
      | .fin x => { x := if neg then x.neg else x }
      | _ => {}

/-! ### Half-sums (R88 to R91) -/

/-- How the register sums: aligned at product width Wp, or exactly at a fixed least significant bit. -/
inductive SumMode where
  | aligned (wp : Nat)
  | fixed (lsb : Int)
deriving DecidableEq, Repr

/-- sign(x) × ⌊|x| / 2^f⌋. -/
def cutAt (f : Int) (x : Ex) : Int :=
  let q : Int := (x.floorMul (-f)).1
  if x.isNeg then -q else q

def sumInt (xs : List Int) : Int := xs.foldl (· + ·) 0

def halfSum (m : SumMode) (ps : List Prod) : ColReg :=
  let xs := (ps.map (·.x)).filter fun x => !x.isZero
  let base : ColReg := { nan := ps.any (·.nan), pinf := ps.any (·.pinf), ninf := ps.any (·.ninf) }
  match m with
  | .fixed lsb => { base with a := sumInt (xs.map (cutAt lsb)), f := lsb, framed := true }
  | .aligned wp =>
    match xs.map Ex.ilog2 with
    | [] => base
    | e :: es =>
      let f := es.foldl max e - (wp - 1) - 3
      { base with a := sumInt (xs.map (cutAt f)), f := f, framed := true }

/-- a × 2^(f − g), dropped toward zero, for g ≥ f. -/
def shiftDown (a f g : Int) : Int :=
  let d : Int := (2 ^ (g - f).toNat : Nat)
  if a < 0 then -((-a) / d) else a / d

/-- Join of two half-sums, or of the two rows of a paired-bank group (R89). -/
def ColReg.join (x y : ColReg) : ColReg :=
  let base : ColReg := { nan := x.nan || y.nan, pinf := x.pinf || y.pinf, ninf := x.ninf || y.ninf }
  if !x.framed then { base with a := y.a, f := y.f, framed := y.framed }
  else if !y.framed then { base with a := x.a, f := x.f, framed := true }
  else
    let f := max x.f y.f
    { base with a := shiftDown x.a x.f f + shiftDown y.a y.f f, f := f, framed := true }

def ColReg.exact (r : ColReg) : Ex := Ex.dyadic r.a r.f

/-! ### Promotion (R93 to R97) -/

/-- (rne32(g), rne32(g − rne32(g))), or (±∞, +0) (R93, R114). -/
def splitPair (g : Val) : Word × Word :=
  let h := rne32 g
  match g, fp32 h with
  | .fin x, .fin y => (h, rne32 (.fin (x.sub y)))
  | _, _ => (h, 0)

/-- Promotion value of a closed group. -/
def promoValue (r : ColReg) (scale : Ex) (shift : Nat) : Word × Word :=
  if r.nan || (r.pinf && r.ninf) then (nan32, 0)
  else if r.pinf then (0x7F800000, 0)
  else if r.ninf then (0xFF800000, 0)
  else splitPair (.fin ((r.exact.mul scale).shift shift))

def isInf32 (w : Word) : Bool := match fp32 w with | .inf _ => true | _ => false

/-- two_sum of R94: rne32(a + b) and the remainder, which R17 flushes below 2^−126. -/
def twoSum (a b : Val) : Word × Val :=
  let v := a.add b
  let s := rne32 v
  (s, match v, fp32 s with
      | .fin x, .fin y => fp32 (rne32 (.fin (x.sub y)))
      | _, _ => Val.zero)

/-- The tail of R94 and R106: two_sum(s1, u) with the special rules. -/
def pairFinish (s1 : Word) (u : Val) : Word × Word :=
  let t := twoSum (fp32 s1) u
  if isInf32 s1 || isInf32 t.1 then (t.1, 0) else (t.1, rne32 t.2)

/-- pair_promote of R94. -/
def pairPromote (p : Word × Word) (h l : Word) : Word × Word :=
  match fp32 p.1, fp32 h with
  | .nan, _ => (nan32, 0)
  | _, .nan => (nan32, 0)
  | .inf a, .inf b => if a = b then (h, 0) else (nan32, 0)
  | .inf _, .fin _ => (p.1, 0)
  | .fin _, .inf _ => (h, 0)
  | .fin x, .fin y =>
    let t := twoSum (.fin x) (.fin y)
    let u := rne32 (((fp32 p.2).add t.2).add (fp32 l))
    pairFinish t.1 (fp32 u)

/-- add32 of R95. -/
def add32 (a b : Word) : Word := rne32 ((fp32 a).add (fp32 b))

/-- The CHUNK update of R95; close says that the chunk closes. -/
def chunkPromote (close : Bool) (p : Word × Word) (h : Word) : Word × Word :=
  let c := add32 p.2 h
  if close then (add32 p.1 c, 0) else (p.1, c)

def chunkCloses (len j last : Nat) : Bool := j % len == len - 1 || j == last

/-- The PAIR combine of R106. -/
def pairCombine (p q : Word × Word) : Word × Word :=
  match fp32 p.1, fp32 q.1 with
  | .fin x, .fin y =>
    let t := twoSum (.fin x) (.fin y)
    let u := rne32 (((fp32 p.2).add (fp32 q.2)).add t.2)
    pairFinish t.1 (fp32 u)
  | _, _ => pairPromote p q.1 0

/-- Exact addition into a quire of posit width n; the NaR pattern stays (R96). -/
def quireAdd (n q : Nat) (nar : Bool) (d : Int) : Nat :=
  let top := 2 ^ (16 * n - 1)
  if nar || q % 2 ^ (16 * n) = top then top else wrap (16 * n) (q + d)

/-- Combine of two quire elements (R96, R106). -/
def quireCombine (n p q : Nat) : Nat :=
  quireAdd n p (q % 2 ^ (16 * n) == 2 ^ (16 * n - 1)) q

/-! ### Stationary cells and streamed elements -/

/-- The operand planes of a pass: weight and activation tiles, and whether the product is negated (R82). -/
structure Planes where
  w : Tile
  a : Tile
  neg : Bool
deriving DecidableEq, Repr

/-- The planes of one product (R82), the third weight real by activation imaginary. Log entry 16, DEDUCED. -/
def Job.planes (j : Job) (it : Item) : Planes :=
  if !j.cplx then ⟨j.w, j.a, false⟩
  else
    match it.pass / j.passList.length with
    | 0 => ⟨j.w, j.a, false⟩
    | 1 => ⟨j.w.imag, j.a.imag, true⟩
    | 2 => ⟨j.w, j.a.imag, false⟩
    | _ => ⟨j.w.imag, j.a, false⟩

def Job.pass (j : Job) (it : Item) : Pass := j.passList.getD (it.pass % j.passList.length) ⟨0, 0, 0⟩
/-- The pass that raises the flags of its group (R81). -/
def Job.firstPass (j : Job) (it : Item) : Bool := it.pass % j.passList.length == 0
def Job.tr (j : Job) : Bool := match j.crec with | some c => c.tr | none => false
def Job.paired (j : Job) : Bool := j.g == 128
def Job.hasDs (j : Job) : Bool := j.chain == 8 || j.chain == 9 || j.chain == 10

/-- First logical row and column of the item's output tile. -/
def Job.rowBase (j : Job) (it : Item) : Nat := 64 * (j.outTile it.tile % j.mt)
def Job.colBase (j : Job) (it : Item) : Nat := j.width * (j.outTile it.tile / j.mt)

def Tile.idxAt (t : Tile) (m : List Host.Cell) (r c : Nat) : Nat := codeAt m (t.indexAddr r) 2 c

/-- Coordinates of activation element (m, k) in its tile (R112 TR). -/
def Job.actAt (j : Job) (m k : Nat) : Nat × Nat := if j.tr then (k, m) else (m, k)

/-- Address of the DS entry of activation element (m, k) (R112). -/
def Job.dsAddr (j : Job) (c : ChainRec) (m k : Nat) : Nat :=
  c.stat + 4 * (if c.dsmode = 0 then m else k / 64 * j.a.rows + m)

/-- DS on one activation element (R112): the new element and its events. -/
def State.dsElem (s : State) (j : Job) (m k : Nat) (x : Elem) : Elem × Events :=
  match j.crec with
  | none => (x, {})
  | some c =>
    let e := j.dsAddr c m k
    let dw := leValue (memGetN s.mem e 4)
    let bad := x.bad || (s.readHalf e 4).2
    if j.a.fmt.isL then
      let n := j.a.fmt.bits
      match lParts n x.code with
      | some (false, neg, l) =>
        let t := l + sext 32 dw
        let top : Int := 2 ^ (n - 2) - 1
        let code := if t < -top then 2 ^ (n - 2)
          else (if neg then 2 ^ (n - 1) else 0) + wrap (n - 1) (if t > top then top else t)
        ({ x with code := code, v := decodeElem j.a.fmt 0 [] code, bad := bad },
         { ov := b2n (decide (t > top)), un := b2n (decide (t < -top)) })
      | _ => ({ x with bad := bad }, {})
    else
      let v := x.v.mul (fp32 (BitVec.ofNat 32 dw))
      let cv := encodeElem j.a.fmt 0 j.rm (draw j.rm ⟨j.seed, c.tensor, 1⟩ m k) v
      ({ x with code := cv.code, v := decodeElem j.a.fmt 0 [] cv.code, bad := bad },
       elemEvents v v cv (x.v.isNan || (fp32 (BitVec.ofNat 32 dw)).isNan))

/-- The DS entries that the n activation elements (m, k), k from k0 on, take in. -/
def Job.dsReads (j : Job) (m k0 n : Nat) : List (Nat × Nat) :=
  match j.crec with
  | none => []
  | some c => if j.hasDs then (span k0 n).map fun k => (j.dsAddr c m k, 4) else []

/-- Cell (r, col) of an item's stationary set, r counting stored rows from kLo, and the DS events of a stationary activation.
A cell in a column that the output lacks is never multiplied (Job.colSum). -/
def State.statCell (s : State) (j : Job) (it : Item) (r col : Nat) : Cell × Events :=
  let n := j.colBase it + col
  let k := it.kLo + r
  if n < j.colsDim ∧ k < it.kHi then
    let pl := j.planes it
    if j.as64 then
      let t := pl.a
      let code := t.code s.mem n k
      let fs := if t.skind = 0 then 0 else (memGet s.mem (t.fineAddr n k)).toNat
      let x : Elem := ⟨code, decodeElem t.fmt 0 [] code, false, s.elemBad t n k⟩
      let y := if j.hasDs then s.dsElem j n k x else (x, {})
      (⟨y.1.code, 0, fs, y.1.bad⟩, y.2)
    else
      let t := pl.w
      (⟨t.code s.mem k n, if t.sparse = 0 then 0 else t.idxAt s.mem k n,
        if t.skind = 0 then 0 else (memGet s.mem (t.fineAddr k n)).toNat,
        s.elemBad t k n || (t.sparse != 0 && (lineHalves (t.indexAddr k + n / 4) 1).any s.halfBad)⟩, {})
  else (⟨0, 0, 0, false⟩, {})

/-- Row r of an item's stationary set, with its events. -/
def State.statRow (s : State) (j : Job) (it : Item) (r : Nat) : List (Cell × Events) :=
  (List.range j.width).map (s.statCell j it r)

/-- What loading row r of an item's stationary set reads; its first row brings the T4 table (R58). -/
def Job.statReads (j : Job) (it : Item) (r : Nat) : List (Nat × Nat) :=
  let pl := j.planes it
  let k := it.kLo + r
  let n0 := j.colBase it
  let cols := min j.width (j.colsDim - n0)
  (if j.as64 then (span n0 cols).flatMap fun n => pl.a.strip n k 1 ++ j.dsReads n k 1
   else pl.w.strip k n0 cols ++ (if pl.w.sparse = 0 then [] else packedStrip (pl.w.indexAddr k) 2 n0 cols))
    ++ (if r = 0 then j.w.tableRange else [])

/-- Whether an item is the one whose DS events count: each activation element is scaled for several passes and output
tiles, and counts once (R43, R112). A complex product reads the real plane first in its pass 0 and the imaginary one in
its pass 1 (R82). -/
def Job.countsDs (j : Job) (it : Item) : Bool :=
  j.hasDs && j.firstPass it && it.pass / j.passList.length < 2 && (if j.as64 then j.rowBase it == 0 else j.colBase it == 0)

/-- A zero element of a format. -/
def zeroElem (f : Fmt) : Elem :=
  ⟨match f with | .l8 => 0x40 | .l16 => 0x4000 | _ => 0, Val.zero, false, false⟩

/-- Value of an operand element under fine scale f: a fine scale of zero makes it +0 (R48). Log entry 101, DEDUCED. -/
def cellVal (f v : Val) : Val := if f.isZero then Val.zero else v

/-- Streamed element k of row t (the gathered source row, or the weight column under AS64), its fine scale's value and
its DS events. -/
def State.streamElem (s : State) (j : Job) (pl : Planes) (tab : List Nat) (t k : Nat) : Elem × Events :=
  let tl := if j.as64 then pl.w else pl.a
  let rc := if j.as64 then (k, t) else j.actAt t k
  let code := tl.code s.mem rc.1 rc.2
  let f := tl.fine s.mem rc.1 rc.2
  let x : Elem := ⟨code, cellVal f (decodeElem tl.fmt 0 tab code), f.isNan, s.elemBad tl rc.1 rc.2⟩
  if j.hasDs && !j.as64 then s.dsElem j t k x else (x, {})

/-- Source row of pass row t: t itself, or the index list's entry (R80). Some none: a row of zeros. -/
def State.gatherRow (s : State) (j : Job) (t : Nat) : Option (Option Nat) × Bool :=
  if j.shape = shGx then
    let a := j.gxList + 4 * t
    let r := s.read a 4
    let e := leValue r.1
    (if e = 0xFFFFFFFF then some none else if e < j.a.rows then some (some e) else none, r.2)
  else (some (some t), false)

/-- What a pass row reads of streamed row t. -/
def Job.streamReads (j : Job) (it : Item) (t : Nat) : List (Nat × Nat) :=
  let pl := j.planes it
  let sf := sparseFactor j.shape
  let k0 := sf * it.kLo
  let n := sf * (it.kHi - it.kLo)
  if j.as64 then (span k0 n).flatMap fun k => pl.w.strip k t 1
  else (if j.tr then (span k0 n).flatMap fun k => pl.a.strip k t 1 else pl.a.strip t k0 n) ++ j.dsReads t k0 n

/-- The operands of cell row r, column cell c, of one pass row: (weight, activation). -/
def Job.pairUp (j : Job) (tab : List Nat) (c : Cell) (st : Elem) : Elem × Elem :=
  let f := if j.as64 then j.a.fmt else j.w.fmt
  let sk := if j.as64 then j.a.skind else j.w.skind
  let fs := fineVal sk c.fs
  let x : Elem := ⟨c.code, cellVal fs (decodeElem f 0 tab c.code), fs.isNan, c.bad⟩
  if j.as64 then (st, x) else (x, st)

/-- Logical position, counted from that of the set, which the cell in stored row r selects (R79). -/
def Job.select (j : Job) (r : Nat) (c : Cell) : Nat :=
  if j.shape = shSp24 then r / 2 * 4 + c.idx else if j.shape = shSp14 then r * 4 + c.idx else r

def Job.sumMode (j : Job) : SumMode :=
  match j.acm with
  | .basin => .fixed (16 - 8 * j.quire)
  | .intw => .fixed 0
  | _ =>
    if j.info.twoLane then .fixed (if j.w.fmt = .int4 ∧ j.a.fmt = .int4 then 0 else -2) else .aligned j.info.wp

/-- Sum of column col over stored rows [lo, hi) of the live set, for the streamed elements of one row, and whether an
operand is poisoned. A column at or beyond the output's last sums nothing. Log entry 123, DESIGN CHOICE. An index of the last 2:4
window that points beyond the streamed row selects a zero element, and a stored row without a partner has no order to keep. Log entry
158, DESIGN CHOICE. -/
def Job.colSum (j : Job) (it : Item) (pl : Planes) (tab : List Nat) (rows : List (Nat × List Cell)) (els : List Elem)
    (col : Nat) : ColReg × Bool :=
  let ops := (if j.colBase it + col < j.colsDim then rows else []).map fun r =>
    let c := r.2.getD col ⟨0, 0, 0, false⟩
    j.pairUp tab c (els.getD (j.select r.1 c) (zeroElem j.a.fmt))
  (halfSum j.sumMode (ops.map fun o => product j.w.fmt j.a.fmt (j.pass it) (j.firstPass it) pl.neg o.1 o.2),
   ops.any fun o => o.1.bad || o.2.bad)

end Sys2Proof.Machine
end

