-- ==== Sys2Proof/Machine/Scalar.lean ====
section
/-!
DEFINITION. Scalar instructions, loads and stores, branches and descriptor instructions (08 Table 8.7, R153 to R156,
R166).
-/
namespace Sys2Proof.Machine

open Sys2Proof

abbrev Out1 := Host.Outcome State Fault Refusal

/-- Body of an instruction that only changes registers, then goes on. -/
def regBody (n : StrandId) (f : Strand → Strand) : Body := fun s => .ok ((s.modStrand n f).advance n)

/-- sD := f (sA, sB). -/
def aluBody (n : StrandId) (w : Word64) (f : Word → Word → Word) : Body :=
  regBody n fun x => x.setReg (fmtS w).d (f (x.reg (fmtS w).a) (x.reg (fmtS w).b))

/-- Decode checks of format S for an instruction that lists no SUB (log entry 17, DEDUCED). -/
def decS0 (w : Word64) : Bool := zeroS w && (fmtS w).sub == 0

/-- NOP does nothing. The row stands for the words no other row has: an opcode absent from Table 8.7 is a decode fault, and
an uncorrectable word of the instruction store a poison fault (15 Table 15.8). Log entry 131, DESIGN CHOICE. -/
def execNop (n : StrandId) (f : Fetched) (s : State) : Out1 :=
  let w := f.word
  if s.mayIssue n w && f.ecc == .uncorrected then .next (s.strandFault n .poison)
  else if s.mayIssue n w && !knownOp (opOf w) then .next (s.strandFault n .decode)
  else .next (s.issue n w 0x00 (decS0 w) true (regBody n id))

def execAdd (n : StrandId) (w : Word64) (s : State) : Out1 :=
  .next (s.issue n w 0x01 (decS0 w) true (aluBody n w (· + ·)))
def execSub (n : StrandId) (w : Word64) (s : State) : Out1 :=
  .next (s.issue n w 0x02 (decS0 w) true (aluBody n w (· - ·)))
def execMul (n : StrandId) (w : Word64) (s : State) : Out1 :=
  .next (s.issue n w 0x03 (decS0 w) true (aluBody n w (· * ·)))
def execAnd (n : StrandId) (w : Word64) (s : State) : Out1 :=
  .next (s.issue n w 0x04 (decS0 w) true (aluBody n w (· &&& ·)))
def execOr (n : StrandId) (w : Word64) (s : State) : Out1 :=
  .next (s.issue n w 0x05 (decS0 w) true (aluBody n w (· ||| ·)))
def execXor (n : StrandId) (w : Word64) (s : State) : Out1 :=
  .next (s.issue n w 0x06 (decS0 w) true (aluBody n w (· ^^^ ·)))
def execShl (n : StrandId) (w : Word64) (s : State) : Out1 :=
  .next (s.issue n w 0x07 (decS0 w) true (aluBody n w fun a b => a <<< (b.toNat % 32)))
def execShr (n : StrandId) (w : Word64) (s : State) : Out1 :=
  .next (s.issue n w 0x08 (decS0 w) true (aluBody n w fun a b => a >>> (b.toNat % 32)))
def execSra (n : StrandId) (w : Word64) (s : State) : Out1 :=
  .next (s.issue n w 0x09 (decS0 w) true (aluBody n w fun a b => a.sshiftRight (b.toNat % 32)))

def execAddi (n : StrandId) (w : Word64) (s : State) : Out1 :=
  .next (s.issue n w 0x0A (zeroI w) true
    (regBody n fun x => x.setReg (fmtI w).d (x.reg (fmtI w).a + BitVec.ofNat 32 (fmtI w).imm)))

def execCmp (n : StrandId) (w : Word64) (s : State) : Out1 :=
  .next (s.issue n w 0x0B (zeroS w && (fmtS w).sub < 6) true
    (regBody n fun x =>
      x.setPred ((fmtS w).d % 8) ((cmpCond (fmtS w).sub (x.reg (fmtS w).a) (x.reg (fmtS w).b)).getD false)))

def execPlog (n : StrandId) (w : Word64) (s : State) : Out1 :=
  .next (s.issue n w 0x0C (zeroS w && (fmtS w).sub < 4) true
    (regBody n fun x =>
      x.setPred ((fmtS w).d % 8) ((plog (fmtS w).sub (x.pred ((fmtS w).a % 8)) (x.pred ((fmtS w).b % 8))).getD false)))

/-- FMOV copies 32 bits; SUB 0 names fD and SUB 1 names fA. -/
def execFmov (n : StrandId) (w : Word64) (s : State) : Out1 :=
  let f := fmtS w
  .next (s.issue n w 0x0D (zeroS w && ((f.sub == 0 && f.d < 16) || (f.sub == 1 && f.a < 16))) true
    (regBody n fun x => if f.sub = 0 then x.setFreg f.d (x.reg f.a) else x.setReg f.d (x.freg f.a)))

/-- Exact result of FOP before its rounding. -/
def fopVal (op : Nat) (a b d : Val) : Val :=
  match op with
  | 0 => a.add b
  | 1 => a.mul b
  | 2 => (a.mul b).add d
  | 3 => a.max b
  | _ => a.min b

/-- FOP on a strand: the result register, the events and the count of SR roundings (Table 8.7, R43). Log entry 66, DEDUCED. -/
def fopStrand (w : Word64) (rm : RM) (x : Strand) : Strand :=
  let f := fmtS w
  let a := fp32 (x.freg f.a)
  let b := fp32 (x.freg f.b)
  let d := fp32 (x.freg f.d)
  let v := fopVal (f.sub % 8) a b d
  let seed := match x.launch with | some l => lrSeed l.lrec | none => 0
  let cv := toFp32 rm (draw rm ⟨seed, 0xFFFFFFFF, 0⟩ x.fopSr (x.pc / 8)) v
  let nanIn := a.isNan || b.isNan || (f.sub % 8 == 2 && d.isNan)
  let x := x.count (elemEvents v v cv nanIn)
  { x.setFreg f.d (BitVec.ofNat 32 cv.code) with fopSr := if rm = .sr then x.fopSr + 1 else x.fopSr }

def execFop (n : StrandId) (w : Word64) (s : State) : Out1 :=
  let f := fmtS w
  .next (s.issue n w 0x0E (zeroS w && fld f.sub 3 3 == 0 && f.sub % 8 < 5 && f.d < 16 && f.a < 16 && f.b < 16) true
    fun s => match rmOfCode (f.sub / 64) with
      | none => .error .format
      | some rm => regBody n (fopStrand w rm) s)

/-- Table 8.8. -/
def specValue (n : StrandId) (x : Strand) (sub : Nat) : Word :=
  let lrec := match x.launch with | some l => l.lrec | none => []
  match sub with
  | 0 => BitVec.ofNat 32 n.val
  | 1 => BitVec.ofNat 32 (n.val / 4)
  | 2 => BitVec.ofNat 32 (n.val % 4)
  | 3 => BitVec.ofNat 32 (lrSeed lrec)
  | 4 => BitVec.ofNat 32 (lrSeed lrec / 2 ^ 32)
  | 5 => BitVec.ofNat 32 (lrSession lrec)
  | 6 => x.windowCycles
  | k => BitVec.ofNat 32 (lrArg lrec (k - 8))

def execSpec (n : StrandId) (w : Word64) (s : State) : Out1 :=
  let f := fmtS w
  .next (s.issue n w 0x0F (zeroS w && (f.sub < 7 || (8 ≤ f.sub && f.sub < 16))) true
    (regBody n fun x => x.setReg f.d (specValue n x f.sub)))

def execClrc (n : StrandId) (w : Word64) (s : State) : Out1 :=
  .next (s.issue n w 0x10 (decS0 w) true
    (regBody n fun x => { x with cntInvalid := 0, cntOverflow := 0, cntUnderflow := 0 }))

/-! ### Loads and stores (R148, R155) -/

def fidRegion (r : Nat) : Nat := 0x60 + r

/-- Bytes of a region that sleeps, met by a strand of another region: the spec does not say (log entry 19, DESIGN CHOICE). -/
def State.asleepAt (s : State) (a : Nat) : Bool :=
  match place a with
  | .scratch r _ => s.asleep r
  | .basin r _ => s.asleep r
  | _ => false

/-- Address of scratchpad offset o of the strand's region; none past the scratchpad (log entry 20, DEDUCED). -/
def scratchAddr (n : StrandId) (o k : Nat) : Option Nat :=
  if o + k ≤ scratchSize then some (scratchBase (regionOf n) + o) else none

/-- sA + IMM is a 32-bit sum and wraps. Log entry 149, DEDUCED. -/
def ldsBody (n : StrandId) (w : Word64) (ecc : Ecc) : Body := fun s =>
  let f := fmtI w
  let o := ((s.strand n).reg f.a + BitVec.ofNat 32 f.imm).toNat
  match scratchAddr n o 4 with
  | none => .error .format
  | some a =>
    if o % 4 ≠ 0 then .error .format
    else if s.hazard n [(a, 4)] then .ok s
    else
      let s := (s.eccAt a 4 ecc).meet [(a, 4)]
      let r := s.read a 4
      if r.2 then .ok (s.strandFault n .poison)
      else regBody n (fun x => x.setReg f.d (BitVec.ofNat 32 (leValue r.1))) s

def execLds (n : StrandId) (w : Word64) (ecc : Ecc) (s : State) : Out1 :=
  .next (s.issue n w 0x11 (zeroI w) true (ldsBody n w ecc))

def execSts (n : StrandId) (w : Word64) (s : State) : Out1 :=
  let f := fmtI w
  .next (s.issue n w 0x12 (zeroI w) true fun s =>
    let o := ((s.strand n).reg f.a + BitVec.ofNat 32 f.imm).toNat
    match scratchAddr n o 4 with
    | none => .error .format
    | some a =>
      if o % 4 ≠ 0 then .error .format
      else .ok ((s.write a (leBytes 4 ((s.strand n).reg f.d).toNat) false).advance n))

def execLdm (n : StrandId) (w : Word64) (s : State) : Out1 :=
  .next (s.issue n w 0x13 (decS0 w) false fun s =>
    match longAddr (s.strand n) w with
    | none => .error .format
    | some a =>
      if s.hazard n [(a, 4)] then .ok s
      else match s.gate (.ldm n w) [(a, 4)] [] with
        | some t => .ok (t.holdStrand n)
        | none => .ok (s.modStrand n fun x => { x with wait := .ldm (fin32 (fmtS w).d) a }))

/-- The data of an LDM: a register write, or a poison fault (R155). -/
def execLdmDataReturn (n : StrandId) (ecc : Ecc) (s : State) : Out1 :=
  let x := s.strand n
  match x.wait with
  | .ldm d a =>
    if !s.unitsOn || x.run != .running || s.asleep (regionOf n) then .next s
    else match s.gate (.ldmDataReturn n ecc) [(a, 4)] [] with
    | some t => .next t
    | none =>
    if s.asleepAt a then
      .next (({ s with fresh := s.fresh + 1 }.modStrand n fun x =>
        { x with wait := .none }.setReg d.val (Config.asleepWord s.fresh)).advance n)
    else
      let s := (s.eccAt a 4 ecc).meet [(a, 4)]
      let r := s.read a 4
      let s := s.readMark a 4
      if r.2 then .next (s.strandFault n .poison)
      else .next ((s.modStrand n fun x => { x with wait := .none }.setReg d.val (BitVec.ofNat 32 (leValue r.1))).advance n)
  | _ => .next s

/-- A store of one word; what the error code finds in the half that it covers in part comes first (R207). -/
def execStm (n : StrandId) (q : StoreWord) (s : State) : Out1 :=
  let w := q.word
  .next (s.issue n w 0x14 (decS0 w) false fun s =>
    match longAddr (s.strand n) w with
    | none => .error .format
    | some a =>
      match s.gate (.stm n q) [] [(a, 4)] with
      | some t => .ok (t.holdStrand n)
      | none =>
        if s.asleepAt a && Config.choice s.fresh % 2 == 0 then .ok ({ s with fresh := s.fresh + 1 }.advance n)
        else .ok (((s.strike [(a, q.ecc)]).write a (leBytes 4 ((s.strand n).reg (fmtS w).d).toNat) false).advance n))

/-! ### Branches (R156) -/

def execBr (n : StrandId) (w : Word64) (s : State) : Out1 :=
  .next (s.issue n w 0x18 (zeroB w) false fun s =>
    let x := s.strand n
    let t : Int := x.pc + 8 * (fmtB w).off
    if 0 ≤ t ∧ t < x.codeSize then .ok (s.goto n t.toNat) else .error .decode)

/-- Checks of a REP body: depth, no BR, and no end past that of an enclosing body (log entry 21, DEDUCED). -/
def repOk (x : Strand) (stop : Nat) : Bool :=
  x.reps.length < 4 && x.reps.all (fun f => stop ≤ f.stop)
    && ((x.code.drop (x.pc / 8 + 1)).take ((stop - x.pc) / 8 - 1)).all fun w => opOf w != 0x18

/-- Byte offset after the body of a REP at pc. -/
def repStop (x : Strand) (w : Word64) : Nat := x.pc + 8 + 8 * (fmtB w).off.toNat

/-- OFF in range and the body inside the code. -/
def repDec (x : Strand) (w : Word64) : Bool :=
  zeroB w && 1 ≤ (fmtB w).off && (fmtB w).off ≤ 1024 && repStop x w ≤ x.codeSize

def execRep (n : StrandId) (w : Word64) (s : State) : Out1 :=
  let x := s.strand n
  let stop := repStop x w
  if s.mayIssue n w && opOf w == 0x19 && repDec x w && !x.predOn w then
    if x.inWindow && !repOk x stop then .next (s.strandFault n .sequence)
    else
      let s := if x.inWindow then s.setStrand n { x with path := x.pathOf w ++ x.path } else s
      .next (s.goto n stop)
  else
    .next (s.issue n w 0x19 (repDec x w) true fun s =>
      if repOk (s.strand n) stop then
        .ok (s.modStrand n fun x =>
          { x with pc := x.pc + 8, reps := ⟨x.pc + 8, stop, (fmtB w).cnt⟩ :: x.reps })
      else .error .sequence)

/-! ### Descriptors (R156, R166) -/

/-- The format check of a T-format instruction that names no rounding: its RM field is not reserved (R14). Log entry 126,
DEDUCED. -/
def rmOk (w : Word64) : Bool := (rmOfCode (fmtT w).rm).isSome

/-- A descriptor that an instruction reads carries a format code of Table 2.1 (R14). -/
def Strand.tdOk (x : Strand) (i : Nat) : Bool := (fmtOfCode (tdFmt (x.tdw i))).isSome

/-- Body of a descriptor instruction with the format checks of R14. -/
def tdChecked (w : Word64) (reads : Strand → Bool) (n : StrandId) (body : Body) : Body := fun s =>
  if rmOk w && reads (s.strand n) then body s else .error .format

/-- FMT, SPARSE, ROWS and COLS of a descriptor. -/
def tdShape (v : Nat) : Nat := fld v 42 40

/-- Writes tdTD; in a window a change of shape is a sequence fault (R166). -/
def tdBody (n : StrandId) (i v : Nat) : Body := fun s =>
  let x := s.strand n
  if x.inWindow && tdShape v != tdShape (x.tdw i) then .error .sequence
  else regBody n (fun x => x.setTd i v) s

def execTdld (n : StrandId) (w : Word64) (s : State) : Out1 :=
  let f := fmtT w
  .next (s.issue n w 0x20 (zeroT w && f.sub == 0) true <| tdChecked w (fun _ => true) n fun s =>
    match scratchAddr n ((s.strand n).reg f.rt).toNat 16 with
    | none => .error .format
    | some a =>
      if s.hazard n [(a, 16)] then .ok s
      else
        let s := s.meet [(a, 16)]
        let r := s.read a 16
        if r.2 then .ok (s.strandFault n .poison) else tdBody n f.td (leValue r.1) s)

def execTdst (n : StrandId) (w : Word64) (s : State) : Out1 :=
  let f := fmtT w
  .next (s.issue n w 0x21 (zeroT w && f.sub == 0) true <| tdChecked w (fun x => x.tdOk f.ta) n fun s =>
    match scratchAddr n ((s.strand n).reg f.rt).toNat 16 with
    | none => .error .format
    | some a => .ok ((s.write a (leBytes 16 ((s.strand n).tdw f.ta)) false).advance n))

def execTdmov (n : StrandId) (w : Word64) (s : State) : Out1 :=
  let f := fmtT w
  .next (s.issue n w 0x22 (zeroT w && f.sub == 0) true <| tdChecked w (fun x => x.tdOk f.ta) n fun s =>
    tdBody n f.td ((s.strand n).tdw f.ta) s)

/-- A descriptor with field SUB set to v; hi holds bits [41:32] of an address. None: out of the field's range. -/
def tdSetField (sub v hi td : Nat) : Option Nat :=
  match sub with
  | 0 => some (setFld td 0 42 (v + hi % 1024 * 2 ^ 32))
  | 1 => if v < 64 then some (setFld td 42 6 v) else none
  | 2 => if v < 4 then some (setFld td 48 2 v) else none
  | 3 => if 1 ≤ v ∧ v ≤ 65536 then some (setFld td 50 16 (v - 1)) else none
  | 4 => if 1 ≤ v ∧ v ≤ 65536 then some (setFld td 66 16 (v - 1)) else none
  | 5 => if 1 ≤ v ∧ v < 2 ^ 24 then some (setFld td 82 24 v) else none
  | 6 => if v < 2 ^ 22 then some (setFld td 106 22 v) else none
  | _ => none

/-- Field SUB of a descriptor as TDGET reads it. -/
def tdGetField (sub td : Nat) : Nat :=
  match sub with
  | 0 => fld td 0 32
  | 1 => tdFmt td
  | 2 => tdSparse td
  | 3 => tdRows td
  | 4 => tdCols td
  | 5 => tdStride td
  | _ => tdSptr td

/-- A reserved format code that TDSET leaves in the descriptor is a format fault (R14). -/
def execTdset (n : StrandId) (w : Word64) (s : State) : Out1 :=
  let f := fmtT w
  .next (s.issue n w 0x23 (zeroT w && f.sub < 7) true <| tdChecked w (fun x => f.sub == 1 || x.tdOk f.td) n fun s =>
    let x := s.strand n
    let v := (x.reg f.rt).toNat
    match tdSetField f.sub v (x.reg f.ru).toNat (x.tdw f.td) with
    | none =>
      if x.inWindow && 1 ≤ f.sub && f.sub ≤ 4 then .error .sequence else .error .format
    | some td => tdBody n f.td td s)

/-- With RT = RU the write of the high bits, the later of the two, stands. Log entry 162, DESIGN CHOICE. -/
def execTdget (n : StrandId) (w : Word64) (s : State) : Out1 :=
  let f := fmtT w
  .next (s.issue n w 0x24 (zeroT w && f.sub < 7) true <| tdChecked w (fun x => x.tdOk f.ta) n
    (regBody n fun x =>
      let td := x.tdw f.ta
      let x := x.setReg f.rt (BitVec.ofNat 32 (tdGetField f.sub td))
      if f.sub = 0 then x.setReg f.ru (BitVec.ofNat 32 (fld td 32 10)) else x))

def execTdadd (n : StrandId) (w : Word64) (s : State) : Out1 :=
  let f := fmtT w
  .next (s.issue n w 0x25 (zeroT w && f.sub == 0) true <| tdChecked w (fun x => x.tdOk f.td) n
    (regBody n fun x =>
      let td := x.tdw f.td
      x.setTd f.td (setFld td 0 42 (wrap 42 (tdAddr td + sext 32 (x.reg f.rt).toNat)))))

end Sys2Proof.Machine
end

