-- ==== Sys2Proof/Machine/Matrix.lean ====
section
/-!
DEFINITION. The array's own steps: stationary loads and swaps (04 R71, R72, R78, R86), pass rows (R70, R80),
promotions, and the exchange and swap of accumulator tiles (05 R93 to R100, 06 R113).
-/
namespace Sys2Proof.Machine

open Sys2Proof

def State.part (s : State) (b : BlockId) (p : PartNo) : Part := (s.block b).parts[p]
def State.setPart (s : State) (b : BlockId) (p : PartNo) (x : Part) : State :=
  s.setBlock b { s.block b with parts := (s.block b).parts.set p x }

def State.jobOf (s : State) (id : Nat) : Option Job := s.jobs.find? fun j => j.id == id

def blockRegion (b : BlockId) : Nat := b.val / 16

/-- Whether part x still works for job id. -/
def Part.uses (x : Part) (id : Nat) : Bool :=
  x.queue.any (fun i => i.job == id)
    || (match x.live.item with | some i => i.job == id | none => false)
    || (match x.shadow.item with | some i => i.job == id | none => false)
    || x.closed.any (fun c => c.item.job == id)
    || (match x.acc with | some t => t.job == id && !t.drained | none => false)
    || (match x.saddle with | some t => t.job == id && !t.drained | none => false)
    || x.epi.any (fun e => e.job == id)

/-- A job ends when no part works for it. -/
def State.dropDone (s : State) : State :=
  { s with jobs := s.jobs.filter fun j => j.parts.any fun p => (s.part (fin128 p.1) (fin4 p.2)).uses j.id }

/-- The strand that owns a part, when its passes go on: the chip runs, the region is awake and the strand has a launch
in progress (R85, R317). -/
def State.worker (s : State) (b : BlockId) (p : PartNo) : Option StrandId :=
  match (s.part b p).owner with
  | some n => if s.unitsOn && s.awake (blockRegion b) && (s.strand n).run == .running then some n else none
  | none => none

def blockLog (s : State) (b : BlockId) (n : StrandId) (ecc : Ecc) (structure_ : Nat) : State :=
  match ecc with
  | .clean => s
  | .corrected => s.logEv 0 1 n.val 0x02 0 (b.val % 16 + 16 * structure_)
  | .uncorrected => s.logEv 1 1 n.val 0x03 0 (b.val % 16 + 16 * structure_)

/-! ### Stationary sets -/

/-- Indices of a 2:4 pair of stored rows rise in every column that the output has (R78). -/
def risingIdx (j : Job) (it : Item) (lo hi : List Cell) : Bool :=
  (List.zip lo hi).take (j.colsDim - j.colBase it) |>.all fun p => p.1.idx < p.2.idx

/-- TABADDR of the T4 sets that a part holds, from their loads until the part's work on their MMA ends. Log entry 102, DEDUCED. -/
def State.t4Tables (s : State) (x : Part) : List Nat :=
  (s.jobs.filter fun j => j.w.fmt == .t4 && Part.uses { x with queue := [] } j.id).map fun j => j.w.tabaddr

/-- Another part of the block holds a T4 set from another table than tab (R58). -/
def State.t4Clash (s : State) (b : BlockId) (p : PartNo) (tab : Nat) : Bool :=
  (List.range 4).any fun q => q != p.val && (s.t4Tables (s.part b (fin4 q))).any (· != tab)

/-- Loads one row of item it into a set, with the checks of R58 and R78 and the row buffer's error code (R87). DS on a
stationary activation is counted here (R112). Under AS64, where the T4 weight is streamed, the table is read at the first row of the
activation set. Log entry 156, DESIGN CHOICE. -/
def State.loadRow (s : State) (b : BlockId) (p : PartNo) (n : StrandId) (j : Job) (it : Item) (rows : List (List Cell))
    (ecc : Ecc) : Except Kind (State × List (List Cell)) :=
  let r := rows.length
  let t4 : Bool := j.w.fmt == .t4
  if r == 0 && t4 && s.t4Clash b p j.w.tabaddr then .error .format
  else
    let cells := s.statRow j it r
    let row := cells.map (·.1)
    if j.w.sparse == 1 && r % 2 == 1 && !risingIdx j it (rows.getD (r - 1) []) row then .error .format
    else
      let s := blockLog s b n ecc 0
      let s := if j.as64 && j.countsDs it then s.count n (cells.foldl (fun e c => e.add c.2) {}) else s
      let blk := s.block b
      let blk := if r == 0 && t4 then
          { blk with t4shadow := (List.range 16).map fun i => leValue (memGetN s.mem (j.w.tabaddr + 2 * i) 2) }
        else blk
      .ok (s.setBlock b blk, rows ++ [row])

def Item.rows (it : Item) : Nat := it.kHi - it.kLo

/-- The item that the next row belongs to, and the rows it has: in the shadow set, or, for a paired-bank set, in both
banks directly once every earlier row has issued (R72). direct says which. -/
def State.loadTarget (s : State) (x : Part) : Option (Job × Item × List (List Cell) × Bool) :=
  match x.shadow.item with
  | some it => if x.shadow.rows.length < it.rows then (s.jobOf it.job).map fun j => (j, it, x.shadow.rows, false) else none
  | none =>
    let liveJob := x.live.item.bind fun it => (s.jobOf it.job).map fun j => (j, it)
    match liveJob with
    | some (j, it) =>
      if j.paired then
        (if x.live.rows.length < it.rows then some (j, it, x.live.rows, true) else none)
      else
        x.queue.head?.bind fun it => (s.jobOf it.job).bind fun j => if j.paired then none else some (j, it, [], false)
    | none => x.queue.head?.bind fun it => (s.jobOf it.job).map fun j => (j, it, [], j.paired)

/-- The row is read from memory when it is loaded, and waits where the access waits (R296, R311). In a paired-bank part, which
has no swap, a parity mark ends when its cell row is next written, in either bank. Log entry 159, DESIGN CHOICE. -/
def execStationaryRowLoad (b : BlockId) (p : PartNo) (ecc : Ecc) (s : State) : Out1 :=
  match s.worker b p with
  | none => .next s
  | some n =>
    match s.loadTarget (s.part b p) with
    | none => .next s
    | some (j, it, rows, direct) =>
      match s.gate (.stationaryRowLoad b p ecc) (j.statReads it rows.length) [] with
      | some u => .next u
      | none =>
      let s := s.meet (j.statReads it rows.length)
      match s.loadRow b p n j it rows ecc with
      | .error k => .next (s.strandFaultAt n k j.pc)
      | .ok (t, rows') =>
        let x := t.part b p
        let q := if rows.isEmpty then x.queue.tail else x.queue
        let old := if direct then x.live else x.shadow
        let set : StatSet := { rows := rows', fresh := true, item := some it,
                               bad := (!rows.isEmpty && old.bad) || ecc == .uncorrected }
        if direct then
          let par := x.parity.filter fun c => c.1 != rows.length % 64
          let t := if j.w.fmt == .t4 then t.setBlock b { t.block b with t4live := (t.block b).t4shadow } else t
          .next (t.setPart b p { x with queue := q, live := set, parity := par, row := if rows.isEmpty then 0 else x.row })
        else .next (t.setPart b p { x with queue := q, shadow := set })

/-- Log entry 63, DEDUCED. -/
def execStationarySwap (b : BlockId) (p : PartNo) (s : State) : Out1 :=
  match s.worker b p with
  | none => .next s
  | some n =>
    let x := s.part b p
    match x.live.item, x.shadow.item with
    | none, none => .next (s.strandFault n .sequence)
    | none, some it =>
      if x.shadow.rows.length < it.rows then .next s
      else
        let rows := x.shadow.rows.length
        let x' := { x with live := { x.shadow with fresh := false }, shadow := {}, row := 0,
                           parity := x.parity.filter fun c => rows ≤ c.1 }
        let s := s.setPart b p x'
        let t4 : Bool := match s.jobOf it.job with | some j => j.w.fmt == .t4 | none => false
        .next (if t4 then s.setBlock b { s.block b with t4live := (s.block b).t4shadow } else s)
    | some _, none => .next (s.strandFaultAt n .sequence (s.strand n).pc)
    | some _, some _ => .next s

/-! ### Pass rows -/

/-- A live set that multiplies with the faulty T4 bank poisons its output tile from its next pass row on (R87). -/
def Part.t4Bad (x : Part) (isT4 : Nat → Bool) : Part :=
  match x.live.item with
  | some it => if isT4 it.job then { x with live := { x.live with bad := true } } else x
  | none => x

def State.t4Error (s : State) (b : BlockId) (n : StrandId) (ecc : Ecc) : State :=
  let s := blockLog s b n ecc 2
  if ecc == .uncorrected then
    let isT4 (id : Nat) : Bool := match s.jobOf id with | some j => j.w.fmt == .t4 | none => false
    s.setBlock b ((s.block b).mapParts fun x => x.t4Bad isT4)
  else s

/-- Cell parity mismatches (R86): each is logged, by its row and by its column within the part, and marks its column until a new
set is live there. Log entry 143, DEDUCED. -/
def State.parityErrors (s : State) (b : BlockId) (p : PartNo) (n : StrandId) (cells : List (Nat × Nat)) : State :=
  cells.foldl (fun s c =>
    let s := s.logEv 1 0 n.val 0x01 0 (c.2 % 64 + 64 * p.val + 256 * (b.val % 16))
    let x := s.part b p
    s.setPart b p { x with parity := if x.parity.contains c then x.parity else x.parity ++ [c] }) s

/-- The tokens of one pass row (R68): logical row in the output tile. -/
def Job.rowTokens (j : Job) (q : Nat) (rows : Nat) : List Nat :=
  if j.info.twoLane then (if 2 * q + 1 < rows then [2 * q, 2 * q + 1] else [2 * q])
  else if j.paired then [q / 2] else [q]

/-- Groups of one pass row over stored rows of the bank, each a range of stored rows and its offset in promotions. -/
def Job.rowGroups (j : Job) (it : Item) (q : Nat) : List (Nat × Nat × Nat) :=
  let n := it.rows
  if j.paired then
    let lo := if q % 2 = 0 then 0 else 64
    [(lo, min n (lo + 64), 0)]
  else if j.g = 32 then
    if n ≤ 32 then [(0, n, 0)] else [(0, 32, 0), (32, n, 1)]
  else [(0, min n 64, 0)]

/-- What a promotion adds at once: a whole group, or under BASIN each of its half-sums in turn (R91, R96). -/
def Job.addends (j : Job) (g : Nat × Nat × Nat) : List (Nat × Nat × Nat × Bool) :=
  if j.acm = .basin ∧ g.1 + 32 < g.2.1 then [(g.1, g.1 + 32, g.2.2, false), (g.1 + 32, g.2.1, g.2.2, true)]
  else [(g.1, g.2.1, g.2.2, true)]

/-- Columns of one group for one token: registers, and the poisoned columns. Level 6 joins the halves unless G is 32. -/
def Job.groupCols (j : Job) (it : Item) (pl : Planes) (tab : List Nat) (set : List (List Cell)) (els : List Elem)
    (lo hi : Nat) : List ColReg × List Nat :=
  let idx := (List.zip (List.range set.length) set).filter fun r => lo ≤ r.1 && r.1 < hi
  let mid := lo + 32
  let out := (List.range j.width).map fun c =>
    let h0 := j.colSum it pl tab (idx.filter fun r => r.1 < mid) els c
    if j.g = 32 then h0
    else
      let h1 := j.colSum it pl tab (idx.filter fun r => mid ≤ r.1) els c
      (h0.1.join h1.1, h0.2 || h1.2)
  (out.map (·.1), (List.range j.width).filter fun c => (out.getD c ({}, false)).2)

/-- fw × fa of each column of a group (R53): the scales at its first stored row. -/
def State.groupScales (s : State) (j : Job) (it : Item) (pl : Planes) (set : List (List Cell)) (lo src : Nat)
    (zero : Bool) : List Ex :=
  let k := it.kLo + lo
  let fx (v : Val) : Ex := match v with | .fin x => x | _ => Ex.ofInt 1
  let st : Ex := if zero then Ex.ofInt 1
    else if j.as64 then fx (pl.w.fine s.mem k src)
    else
      let rc := j.actAt src (k * sparseFactor j.shape)
      fx (pl.a.fine s.mem rc.1 rc.2)
  let sk := if j.as64 then pl.a.skind else pl.w.skind
  (List.range j.width).map fun c =>
    (fx (fineVal sk ((set.getD lo []).getD c ⟨0, 0, 0, false⟩).fs)).mul st

/-- One token's share of a pass row: closed groups in order, or the open row of a paired-bank group. Log entry 54, DEDUCED. -/
def State.tokenRow (s : State) (j : Job) (it : Item) (x : Part) (tab : List Nat) (q tok : Nat) (src : Option Nat)
    (srcBad : Bool) : List Closed × Option OpenRow × Events :=
  let pl := j.planes it
  let sf := sparseFactor j.shape
  let n := sf * it.rows
  let raw := (List.range n).map fun i =>
    match src with
    | some t => s.streamElem j pl tab t (sf * it.kLo + i)
    | none => (zeroElem j.a.fmt, {})
  let els := raw.map (·.1)
  let count := !j.as64 && j.countsDs it && (!j.paired || q % 2 == 0)
  let ev := if count then raw.foldl (fun e y => e.add y.2) {} else {}
  let parityCols := (x.parity.map (·.2)).eraseDups
  let rows := j.tileRows (j.outTile it.tile)
  let all := List.range j.width
  let close (g : Nat × Nat × Nat × Bool) (cols : List ColReg) (bad : List Nat) : Closed :=
    { item := it, row := tok, promo := it.promo + g.2.2.1,
      cols := List.zip cols (s.groupScales j it pl x.live.rows (if j.paired then 0 else g.1) (src.getD 0) src.isNone),
      badEls := if srcBad then all else bad, badCols := parityCols, badAll := x.live.bad,
      final := g.2.2.2 && it.last && tok + 1 == rows && it.promo + g.2.2.1 + 1 == j.promos }
  let groups := ((j.rowGroups it q).flatMap j.addends).map fun g => (g, j.groupCols it pl tab x.live.rows els g.1 g.2.1)
  if j.paired && j.acm != .basin then
    match groups with
    | [(g, cs)] =>
      if q % 2 = 0 then ([], some ⟨tok, cs.1, if srcBad then all else cs.2⟩, ev)
      else
        match x.opened with
        | some o => ([close g (List.zipWith ColReg.join o.cols cs.1) (o.badEls ++ cs.2)], none, ev)
        | none => ([close g cs.1 cs.2], none, ev)
    | _ => ([], none, ev)
  else
    let done := !j.paired || q % 2 == 1
    (groups.map fun g => close (g.1.1, g.1.2.1, g.1.2.2.1, g.1.2.2.2 && done) g.2.1 g.2.2, none, ev)

/-- What pass row q of item it reads: entries of the index list, and the rows, unless an entry names none. -/
def State.passReads (s : State) (j : Job) (it : Item) (q : Nat) : List (Nat × Nat) :=
  let toks := j.rowTokens q (j.tileRows (j.outTile it.tile))
  let srcs := toks.map fun t => (s.gatherRow j (j.rowBase it + t)).1
  (if j.shape = shGx then toks.map fun t => (j.gxList + 4 * (j.rowBase it + t), 4) else [])
    ++ (if srcs.any Option.isNone then [] else srcs.flatMap fun y => (y.getD none).toList.flatMap (j.streamReads it))

/-- The row reads its streamed elements from memory when it issues, and waits where the access waits (R296, R311). -/
def execPassRowIssue (b : BlockId) (p : PartNo) (badCells : List (Nat × Nat)) (t4 : Ecc) (s : State) : Out1 :=
  match s.worker b p with
  | none => .next s
  | some n =>
    match (s.part b p).live.item with
    | none => .next s
    | some it =>
      match s.jobOf it.job with
      | none => .next s
      | some j =>
        if (s.part b p).live.rows.length < it.rows then .next s
        else
          match s.gate (.passRowIssue b p badCells t4) (s.passReads j it (s.part b p).row) [] with
          | some u => .next u
          | none =>
          let s := s.meet (s.passReads j it (s.part b p).row)
          let s := if j.w.fmt == .t4 then s.t4Error b n t4 else s
          let s := s.parityErrors b p n (badCells.filter fun c => c.1 < 64 && c.2 < j.width)
          let x := s.part b p
          let q := x.row
          let rows := j.tileRows (j.outTile it.tile)
          let toks := j.rowTokens q rows
          let tab := (s.block b).t4live
          let srcs := toks.map fun t => (t, s.gatherRow j (j.rowBase it + t))
          if srcs.any fun y => y.2.1.isNone then .next (s.strandFaultAt n .format j.pc)
          else
            let outs := srcs.map fun y => s.tokenRow j it x tab q y.1 (y.2.1.getD none) y.2.2
            let total := if j.paired then 2 * rows else j.passRows (j.outTile it.tile)
            let done := q + 1 == total
            let x := { x with closed := x.closed ++ outs.flatMap (·.1),
                              opened := outs.foldl (fun o y => match y.2.1 with | some r => some r | none => o) none,
                              row := if done then 0 else q + 1,
                              live := if done then { x.live with item := none } else x.live }
            .next ((s.setPart b p x).count n (outs.foldl (fun e y => e.add y.2.2) {}))

/-! ### Promotion -/

/-- New value of one element of an accumulator tile. -/
def Job.promote (j : Job) (it : Item) (promo : Nat) (p : Word × Word) (r : ColReg) (scale : Ex) : Word × Word :=
  let sh := (j.pass it).shift
  match j.acm with
  | .intw => (BitVec.ofInt 32 (sext 32 p.1.toNat + r.exact.floorInt * (2 ^ sh : Nat)), 0)
  | .chunk => chunkPromote (chunkCloses j.chunkLen promo (j.promos - 1)) p (promoValue r scale sh).1
  | _ => let v := promoValue r scale sh; pairPromote p v.1 v.2

def State.markStarted (s : State) (id acc : Nat) : State :=
  { s with jobs := s.jobs.map fun (k : Job) => if k.id == id then { k with started := acc :: k.started } else k }

/-- An MMA that initialises tile acc has not used it yet (R99). -/
def Job.startsTile (j : Job) (acc : Nat) : Bool := j.init && !j.started.contains acc

/-- Clears a quire tile at its first use when the MMA initialises it (R99). -/
def State.initTile (s : State) (j : Job) (acc : Nat) : State :=
  if j.startsTile acc then (s.zeroFill acc j.size).markStarted j.id acc else s

/-- Poisons columns of a tile of words at a, n bytes an element, in every row (R86). -/
def State.poisonCols (s : State) (a n width : Nat) (cols : List Nat) : State :=
  cols.foldl (fun s k => (List.range 64).foldl (fun s r => s.poisonLines (a + (r * width + k) * n) n) s) s

/-- Adds a closed group into the quire tile in the Basin (R96). -/
def State.promoteQuire (s : State) (j : Job) (c : Closed) : State :=
  let n := j.quire
  let bytes := 2 * n
  let s := (s.initTile j c.item.acc).meet [(c.item.acc + c.row * j.width * bytes, j.width * bytes)]
  let s := (List.zip (List.range c.cols.length) c.cols).foldl (fun s y =>
    let a := c.item.acc + (c.row * j.width + y.1) * bytes
    let r := s.read a bytes
    let g := y.2.1
    let nar := g.nan || g.pinf || g.ninf
    let d := (g.exact.mul y.2.2).shift ((j.pass c.item).shift + 8 * (n : Int) - 16)
    s.write a (leBytes bytes (quireAdd n (leValue r.1) nar d.floorInt))
      (r.2 || c.badAll || c.badEls.contains y.1 || c.badCols.contains y.1)) s
  let s := s.poisonCols c.item.acc bytes j.width c.badCols
  if c.badAll then s.poisonLines c.item.acc j.size else s

/-- Writes a closed group into its plane of the promotion list (R104). -/
def State.promoteList (s : State) (j : Job) (c : Closed) : State :=
  let a := c.item.acc + j.size * c.promo
  let ws := (List.zip (List.range c.cols.length) c.cols).map fun y =>
    let bad := c.badAll || c.badEls.contains y.1 || c.badCols.contains y.1
    let v : Word × Word := if j.acm = .intw then
        (BitVec.ofInt 32 (y.2.1.exact.floorInt * (2 ^ (j.pass c.item).shift : Nat)), 0)
      else promoValue y.2.1 y.2.2 (j.pass c.item).shift
    ((⟨v.1.toNat, {}, bad⟩ : Wr), (⟨v.2.toNat, {}, bad⟩ : Wr))
  let s := s.writeRow (a + c.row * j.width * 4) 32 (ws.map (·.1))
  let s := if j.acm = .intw then s else s.writeRow (a + (64 + c.row) * j.width * 4) 32 (ws.map (·.2))
  let s := (s.poisonCols a 4 j.width c.badCols).poisonCols (if j.acm = .intw then a else a + 64 * j.width * 4) 4 j.width c.badCols
  if c.badAll then s.poisonLines a j.size else s

/-- The tile has the layout of job k's tiles. -/
def AccTile.fits (t : AccTile) (k : Job) : Bool := (t.rows.headD []).length == k.width && t.int == (k.acm == .intw)

/-- Two items update the same live tile: one tile of one MMA, or consecutive uses of one ACCIX, with INIT or without it
(R100). A tile whose MMA has an epilogue drains first, since the epilogue runs at the drain after its last group (R113).
Log entry 22, DEDUCED. -/
def State.sameTile (s : State) (t : AccTile) (it : Item) : Bool :=
  t.acc == it.acc &&
    ((t.job == it.job && t.tile == it.tile) ||
      (match s.jobOf t.job, s.jobOf it.job with
        | some j, some k => j.chain == 0 && t.fits k
        | none, some k => t.fits k
        | _, none => false))

/-- A tile that holds zeros, without poison. -/
def AccTile.zeroed (t : AccTile) (width : Nat) : AccTile :=
  { t with rows := List.replicate 64 (List.replicate width (0, 0)), badAll := false, badEls := [], badCols := [] }

/-- Applies a closed group to the live tile, which starts from zero at the first group of an MMA with INIT that finds the
tile live. -/
def AccTile.update (t : AccTile) (j : Job) (c : Closed) : AccTile :=
  let t := if j.startsTile t.acc then t.zeroed j.width else t
  let row := (t.rows.getD c.row [])
  let row' := (List.zip (List.range j.width) (List.zip c.cols row)).map fun y =>
    j.promote c.item c.promo y.2.2 y.2.1.1 y.2.1.2
  { t with rows := t.rows.set c.row row', badAll := t.badAll || c.badAll,
           badEls := t.badEls ++ (c.badEls.map fun k => (c.row, k)), badCols := (t.badCols ++ c.badCols).eraseDups,
           job := c.item.job, tile := c.item.tile, final := c.final, drained := false }

/-- An epilogue that has written no row yet. -/
def newEpi (job tile acc : Nat) : Epi :=
  { job := job, tile := tile, acc := acc, rows := [], badAll := false, badEls := [], badCols := [], next := 0 }

/-- The live tile of a part is the one that item it updates. -/
def State.tileLive (s : State) (x : Part) (it : Item) : Bool :=
  match x.acc with | some t => s.sameTile t it | none => false

/-- READ has still to convert rows of a quire tile of the strand that meets the n bytes at acc (R113). -/
def State.quireUnread (s : State) (k : StrandId) (acc n : Nat) : Bool :=
  s.jobs.any fun j => j.strand == k && j.acm == .basin && j.parts.any fun p =>
    (s.part (fin128 p.1) (fin4 p.2)).epi.any fun t => t.job == j.id && overlap (t.acc, j.size) (acc, n)

/-- Where a promotion goes: a quire tile and a promotion list are in memory, any other tile must be live first. A quire tile
whose epilogue is not over keeps what READ converts. -/
def State.canPromote (s : State) (x : Part) (j : Job) (c : Closed) : Bool :=
  if j.acm = .basin then !s.quireUnread j.strand c.item.acc j.size else j.list || s.tileLive x c.item

/-- Uncorrectable words that a promotion meets in the accumulator poison the tile (R87); in the Basin they are that
memory's (Table 15.8). -/
def State.promotionEcc (s : State) (b : BlockId) (n : StrandId) (j : Job) (c : Closed) (ecc : Ecc) : State × Closed :=
  if j.list then (s, c)
  else
    let s := if j.acm = .basin then s.eccAt (c.item.acc + c.row * j.width * (2 * j.quire)) 64 ecc else blockLog s b n ecc 1
    (s, if ecc == .uncorrected then { c with badAll := true } else c)

def execPromotion (b : BlockId) (q : PartRead) (s : State) : Out1 :=
  let p := q.part
  let x := s.part b p
  match x.owner, x.closed with
  | some n, c :: rest =>
    if !s.unitsOn || s.asleep (blockRegion b) then .next s
    else
      match s.jobOf c.item.job with
      | none => .next (s.setPart b p { x with closed := rest })
      | some j =>
        if !s.canPromote x j c then .next s
        else
        let running := (s.strand n).run == .running
        let sc := s.promotionEcc b n j c q.ecc
        let s := sc.1
        let c := sc.2
        if j.acm = .basin then
          let s := (s.setPart b p { x with closed := rest }).promoteQuire j c
          let x := s.part b p
          let s := if c.final && j.chain != 0 && running then
              s.setPart b p { x with epi := x.epi ++ [newEpi j.id c.item.tile c.item.acc] }
            else s
          .next s.dropDone
        else if j.list then
          let s := s.setPart b p { x with closed := rest }
          .next (if running then s.promoteList j c else s).dropDone
        else
          let s := s.setPart b p { x with closed := rest, acc := x.acc.map fun t => t.update j c }
          .next (if j.startsTile c.item.acc then s.markStarted j.id c.item.acc else s).dropDone
  | _, _ => .next s

/-! ### Exchange and swap of accumulator tiles (R99, R100, R113) -/

/-- The next item of the part that needs an accumulator tile other than the live one, or the live one after its drain. -/
def State.nextTile (s : State) (x : Part) : Option Item :=
  let items := x.closed.map (·.item) ++ x.live.item.toList ++ x.shadow.item.toList ++ x.queue
  items.find? fun it =>
    match s.jobOf it.job with
    | some j => j.acm != .basin && !j.list && (match x.acc with | some t => !s.sameTile t it | none => true)
    | none => false

/-- Whether some item still to come updates the live tile first. -/
def State.liveBusy (s : State) (x : Part) : Bool :=
  let items := x.closed.map (·.item) ++ x.live.item.toList ++ x.shadow.item.toList ++ x.queue
  match x.acc, items.find? (fun it => match s.jobOf it.job with | some j => j.acm != .basin && !j.list | none => false) with
  | some t, some it => s.sameTile t it
  | _, _ => false

/-- Writes an accumulator tile to its scratchpad lines. -/
def State.drainTile (s : State) (j : Job) (t : AccTile) : State :=
  let mk (f : Word × Word → Word) (r : Nat × List (Word × Word)) : List Wr :=
    (List.zip (List.range r.2.length) r.2).map fun y =>
      ⟨(f y.2).toNat, {}, t.badEls.contains (r.1, y.1) || t.badCols.contains y.1⟩
  let idx := List.zip (List.range t.rows.length) t.rows
  let s := idx.foldl (fun s r => s.writeRow (t.acc + r.1 * j.width * 4) 32 (mk (·.1) r)) s
  let s := if j.acm = .intw then s
    else idx.foldl (fun s r => s.writeRow (t.acc + (64 + r.1) * j.width * 4) 32 (mk (·.2) r)) s
  if t.badAll then s.poisonLines t.acc j.size else s

/-- Loads an accumulator tile: zero at its first use by an MMA with INIT, from the Saddle set while it holds the tile, or
from the scratchpad (R99, R100). -/
def State.loadTile (s : State) (j : Job) (it : Item) (saddle : Option AccTile) : AccTile :=
  let base : AccTile := { job := it.job, tile := it.tile, acc := it.acc, int := j.acm == .intw, rows := [],
                          badAll := false, badEls := [], badCols := [], final := false, drained := true }
  if j.startsTile it.acc then base.zeroed j.width
  else
    match saddle.filter fun t => t.acc == it.acc && t.fits j with
    | some t => { base with rows := t.rows, badAll := t.badAll, badEls := t.badEls, badCols := t.badCols }
    | none =>
      let plane (r : Nat) : List Word := (List.range j.width).map fun c =>
        BitVec.ofNat 32 (leValue (memGetN s.mem (it.acc + (r * j.width + c) * 4) 4))
      { base with
        rows := (List.range 64).map fun r =>
          if j.acm = .intw then (plane r).map fun v => (v, 0) else List.zip (plane r) (plane (64 + r)),
        badAll := (s.read it.acc j.size).2 }

/-- What loading an accumulator tile reads. -/
def Job.tileReads (j : Job) (it : Item) (saddle : Option AccTile) : List (Nat × Nat) :=
  if j.startsTile it.acc || (saddle.filter fun t => t.acc == it.acc && t.fits j).isSome then [] else [(it.acc, j.size)]

/-- Another part of the strand holds this tile with changes not yet drained. -/
def State.heldElsewhere (s : State) (n : StrandId) (b : BlockId) (p : PartNo) (acc : Nat) : Bool :=
  let holds (t : Option AccTile) : Bool := match t with | some t => t.acc == acc && !t.drained | none => false
  (List.range 128).any fun k =>
    (List.range 4).any fun q =>
      let x := s.part (fin128 k) (fin4 q)
      (k != b.val || q != p.val) && x.owner == some n && (holds x.acc || holds x.saddle)

/-- The tile at acc is live here and has not been drained, so that it cannot be loaded yet. -/
def Part.liveAt (x : Part) (acc : Nat) : Bool := match x.acc with | some t => t.acc == acc | none => false

/-- The drain of the Saddle set: its lines for an accumulate-only or unfinished tile, the epilogue otherwise (R113). -/
def State.drainSaddle (s : State) (b : BlockId) (p : PartNo) : State :=
  let x := s.part b p
  match x.saddle with
  | some t =>
    if t.drained then s
    else
      match s.jobOf t.job with
      | none => s.setPart b p { x with saddle := some { t with drained := true } }
      | some j =>
        let fin := t.final && j.chain != 0
        let keep := match j.crec with | some c => c.keepacc | none => true
        let s := if !fin || keep then s.drainTile j t else s
        let x := { x with saddle := some { t with drained := true } }
        s.setPart b p (if fin then
          { x with epi := x.epi ++ [{ newEpi t.job t.tile t.acc with rows := t.rows, badAll := t.badAll, badEls := t.badEls, badCols := t.badCols }] }
          else x)
  | none => s

def execAccumulatorExchange (b : BlockId) (p : PartNo) (ecc : Ecc) (s : State) : Out1 :=
  match s.worker b p with
  | none => .next s
  | some n =>
    let x := s.part b p
    let out := match x.saddle with | some t => !t.drained | none => false
    let inc := (s.nextTile x).filter fun it =>
      !x.liveAt it.acc && !s.heldElsewhere n b p it.acc && !(match x.saddle with | some t => t.drained && s.sameTile t it | none => false)
    if !out && inc.isNone then .next s
    else
      let s := blockLog s b n ecc 1
      let x := if ecc == .uncorrected && out then { x with saddle := x.saddle.map AccTile.mark } else x
      let s := (s.setPart b p x).drainSaddle b p
      let y := s.part b p
      match inc.bind fun it => (s.jobOf it.job).map fun j => (j, it) with
      | none => .next s.dropDone
      | some (j, it) =>
        let s := s.meet (j.tileReads it x.saddle)
        let t := s.loadTile j it x.saddle
        let t := if ecc == .uncorrected && !out then t.mark else t
        let s := if j.startsTile it.acc then s.markStarted j.id it.acc else s
        .next (s.setPart b p { y with saddle := some t }).dropDone

def execAccumulatorSwap (b : BlockId) (p : PartNo) (s : State) : Out1 :=
  match s.worker b p with
  | none => .next s
  | some _ =>
    let x := s.part b p
    if s.liveBusy x || (match x.saddle with | some t => !t.drained | none => false) then .next s
    else
      let inc : Option AccTile := match x.saddle, s.nextTile x with
        | some t, some it => if s.sameTile t it then some t else none
        | _, _ => none
      let again := match s.nextTile x with | some it => x.liveAt it.acc | none => false
      if (s.nextTile x).isSome && inc.isNone && !again then .next s
      else if x.acc.isNone && inc.isNone then .next s
      else .next (s.setPart b p { x with acc := inc, saddle := x.acc })

end Sys2Proof.Machine
end

