-- ==== Sys2Proof/Machine/VsuEval.lean ====
section
/-!
DEFINITION. Function evaluation: images and their validity (07 Tables 7.4 to 7.6, R131), vsu_eval (R129, R132), the
built-in slots within the bounds of Table 7.1 (R127, R128; log entry 10, DESIGN CHOICE), and the events of R357.
-/
namespace Sys2Proof.Machine

open Sys2Proof

/-! ### Images -/

structure Segm where
  c : List Word
  xlo : Word
  seamv : Word
  dir : Nat
deriving DecidableEq, Repr

structure Img where
  selshift : Nat
  nseg : Nat
  domlo : Word
  domhi : Word
  tbase : Word
  rlo : Word
  rhi : Word
  fixBelow : Word
  fixAbove : Word
  fixZero : Word
  fixmask : Nat
  clampValid : Bool
  rr : Nat
  bitsSel : Bool
  deg : Nat
  mulx : Bool
  segs : List Segm
deriving DecidableEq, Repr

def word32 (bs : List Byte) (o : Nat) : Word := BitVec.ofNat 32 (fieldLE bs o 4)

def parseSeg (bs : List Byte) (i : Nat) : Segm :=
  let o := 0x60 + 32 * i
  { c := [word32 bs o, word32 bs (o + 4), word32 bs (o + 8), word32 bs (o + 12)], xlo := word32 bs (o + 16),
    seamv := word32 bs (o + 20), dir := fieldLE bs (o + 24) 1 }

/-- Bytes of an image with n segments. -/
def imgLen (n : Nat) : Nat := 96 + 32 * n

/-- The step words of a degree-d function: (KIND, MODE) pairs, the modes of RR, SEL and RECON free. -/
def stepsOk (bs : List Byte) (d : Nat) : Bool :=
  let st (i : Nat) : Nat := fieldLE bs (0x40 + 4 * i) 4
  let kind (i : Nat) : Nat := st i / 2 ^ 28
  let mode (i : Nat) : Nat := fld (st i) 24 4
  (List.range (d + 4)).all (fun i => fld (st i) 0 24 == 0)
    && (List.range 8).all (fun i => i < d + 4 || st i == 0)
    && kind 0 == 0 && mode 0 < 9 && kind 1 == 1 && mode 1 < 2
    && (List.range d).all (fun i => kind (2 + i) == 2 && mode (2 + i) == d - 1 - i)
    && kind (2 + d) == 3 && mode (2 + d) < 2 && kind (3 + d) == 4 && mode (3 + d) == 0

/-- A valid image (R131). -/
def parseImg (bs : List Byte) : Option Img :=
  let nseg := fieldLE bs 6 2
  let nstep := fieldLE bs 4 1
  let d := nstep - 4
  let w (o : Nat) : Word := word32 bs o
  let fixmask := fieldLE bs 0x30 1
  let flags := fieldLE bs 0x31 1
  let segs := (List.range nseg).map (parseSeg bs)
  let ok := bs.length ≥ 96 && fieldLE bs 0 4 == 0x31465356 && 5 ≤ nstep && nstep ≤ 7 && fieldLE bs 5 1 ≤ 23
    && 1 ≤ nseg && nseg ≤ 256 && imgLen nseg ≤ bs.length
    && fieldLE bs 0x28 8 == 0 && fixmask % 2 + fixmask / 8 % 4 * 8 == fixmask && flags < 2 && fieldLE bs 0x32 2 == 0
    && fieldLE bs 0x38 8 == 0 && stepsOk bs d
    && (fp32 (w 0x10)).isFinite && segs.all (fun s => (fp32 s.xlo).isFinite && s.dir < 3)
    && (List.range nseg).all (fun i => allZero ((bs.drop (0x60 + 32 * i + 25)).take 7))
    && [w 8, w 0xC, w 0x14, w 0x18].all (fun v => !(fp32 v).isNan)
    && !(fp32 (w 0xC)).lt (fp32 (w 8)) && !(fp32 (w 0x18)).lt (fp32 (w 0x14))
    && fieldLE bs 0x34 4 == crc crc32c (bs.take 0x34 ++ (bs.take (imgLen nseg)).drop 0x38)
  if ok then
    some { selshift := fieldLE bs 5 1, nseg := nseg, domlo := w 8, domhi := w 0xC, tbase := w 0x10, rlo := w 0x14,
           rhi := w 0x18, fixBelow := w 0x1C, fixAbove := w 0x20, fixZero := w 0x24, fixmask := fixmask,
           clampValid := bitAt flags 0, rr := fld (fieldLE bs 0x40 4) 24 4, bitsSel := fld (fieldLE bs 0x44 4) 24 4 == 1,
           deg := d, mulx := fld (fieldLE bs (0x40 + 4 * (2 + d)) 4) 24 4 == 1, segs := segs }
  else none

/-! ### vsu_eval (R129) -/

def fma32 (a b d : Word) : Word := rne32 (((fp32 a).mul (fp32 b)).add (fp32 d))

/-- 2π with 96 significant bits, and RNE_FP32 of the fraction of x / 2π (Table 7.3 TURN). -/
def turnFrac (x : Ex) : Val :=
  let q := x.divRat (Ex.dyadic 0xC90FDAA22168C234C4C6628C (-93))
  fp32 (rne32 (.fin (q.sub (Ex.ofInt q.floorInt))))

/-- t and n of Table 7.3, for an input that is finite and, in the modes that need it, not zero. -/
def reduce (rr : Nat) (x : Ex) : Val × Int :=
  let l := x.ilog2
  match rr with
  | 1 => let n := x.floorInt; (.fin (x.sub (Ex.ofInt n)), n)
  | 2 | 7 => (.fin (x.abs.shift (-l)), l)
  | 3 | 4 => (.fin x.abs, 0)
  | 5 => (turnFrac x, 0)
  | 6 | 8 => let n := l / 2; (.fin (x.abs.shift (-2 * n)), n)
  | _ => (.fin x, 0)

/-- The exact value of RECON. The sign of a zero x counts as +. Log entry 161, DESIGN CHOICE. -/
def recon (rr : Nat) (mulx : Bool) (p : Val) (n : Int) (x : Val) : Val :=
  let sc (v : Val) (k : Int) : Val := match v with | .fin y => .fin (y.shift k) | o => o
  let sg (v : Val) : Val := if x.isNeg then v.neg else v
  let y := match rr with
    | 1 | 6 => sc p n
    | 2 => p.add (Val.ofInt n)
    | 3 => sg p
    | 7 => sg (sc p (-n))
    | 8 => sc p (-n)
    | _ => p
  if mulx then y.mul x else y

/-- What an evaluation gives: its result, whether RTZ overflowed. -/
structure FnRes where
  y : Word
  rtzOv : Bool
deriving DecidableEq, Repr

/-- Flush of R17 to R19 on a 32-bit pattern. -/
def flush32 (w : Word) : Word := rne32 (fp32 w)

/-- Class of an input in RR (R129), with what FIX writes for each class but the last. -/
inductive FnClass where
  | nan | zero | below | above
  | normal (x : Ex)
deriving DecidableEq, Repr

/-- Log entry 103, DEDUCED. -/
def Img.classOf (img : Img) (xw : Word) : FnClass :=
  let x := fp32 xw
  let zeroNan := img.rr == 2 || img.rr == 6 || img.rr == 7 || img.rr == 8
  if x.isNan then .nan
  else if x.isZero && bitAt img.fixmask 0 then .zero
  else if x.isZero && zeroNan then .nan
  else if !x.isZero && (x.lt (fp32 img.domlo) || xw == 0xFF800000) then .below
  else if !x.isZero && ((fp32 img.domhi).lt x || xw == 0x7F800000) then .above
  else match x with | .fin e => .normal e | _ => .nan

/-- The segment that SEL chooses for the reduced input t. -/
def Img.segOf (img : Img) (xw : Word) (t : Val) : Nat :=
  let i : Int := if img.bitsSel then
      let tb := if (fp32 (rne32 t)).eqv t then (rne32 t).toNat else Config.reducedBits xw img.tbase
      ((tb : Int) - img.tbase.toNat) / (2 ^ img.selshift : Nat)
    else match t.sub (fp32 img.tbase) with
      | .fin d => (d.shift img.selshift).floorInt
      | _ => 0
  (max 0 (min i (img.nseg - 1))).toNat

/-- R129. A seam value that is NaN is clamped with by R42's max and min. Log entry 145, DEDUCED. -/
def vsuEval (img : Img) (clampOn : Bool) (rm : RM) (rnd : Nat) (xw : Word) : FnRes :=
  match img.classOf xw with
  | .nan => ⟨nan32, false⟩
  | .zero => ⟨flush32 img.fixZero, false⟩
  | .below => ⟨if bitAt img.fixmask 3 then flush32 xw else flush32 img.fixBelow, false⟩
  | .above => ⟨if bitAt img.fixmask 4 then flush32 xw else flush32 img.fixAbove, false⟩
  | .normal e =>
    let tn := reduce img.rr e
    let i := img.segOf xw tn.1
    let sg := img.segs.getD i ⟨[], 0, 0, 0⟩
    let u := rne32 (tn.1.sub (fp32 sg.xlo))
    let c (k : Nat) : Word := sg.c.getD k 0
    let acc := (List.range img.deg).foldl (fun a k => fma32 a u (c (img.deg - 1 - k))) (c img.deg)
    let p : Val := if (fp32 acc).isNan then .nan
      else
        let p := ((fp32 acc).max (fp32 img.rlo)).min (fp32 img.rhi)
        if clampOn && 0 < i && sg.dir == 1 then p.max (fp32 sg.seamv)
        else if clampOn && 0 < i && sg.dir == 2 then p.min (fp32 sg.seamv)
        else p
    let cv := toFp32 rm rnd (recon img.rr img.mulx p tn.2 (.fin e))
    ⟨BitVec.ofNat 32 cv.code, cv.ov && rm == .rtz⟩

/-- Whether an element reads one of the 32-bit words bad of the image (R139): the header fields and the steps always, and
the entry of its segment where its class is normal. Log entry 128, DEDUCED. -/
def Img.readsBad (img : Img) (bad : List Nat) (xw : Word) : Bool :=
  (span 1 9 ++ [12] ++ span 16 (img.deg + 4)).any bad.contains
    || (match img.classOf xw with
        | .normal e =>
          let o := 24 + 8 * img.segOf xw (reduce img.rr e).1
          (span o (img.deg + 1) ++ span (o + 4) 3).any bad.contains
        | _ => false)

/-! ### Reference values of the built-in functions, in units of 2^−256 -/

abbrev FX := Int
def fxBits : Nat := 256
def fxOne : FX := 2 ^ 256
def fxMul (a b : FX) : FX := a * b / 2 ^ 256
def fxDiv (a b : FX) : FX := if b = 0 then 0 else a * 2 ^ 256 / b
def fxOf (x : Ex) : FX := (x.shift 256).floorInt
def fxEx (a : FX) : Ex := Ex.dyadic a (-256)

def fxPi : FX := 0x3243f6a8885a308d313198a2e03707344a4093822299f31d0082efa98ec4e6c89452821e638d01377be5466cf34e90c6cc0ac29b7c97c50dd3f84d5b5b5470917 / 2 ^ 256
def fxPi512 : Int := 0x3243f6a8885a308d313198a2e03707344a4093822299f31d0082efa98ec4e6c89452821e638d01377be5466cf34e90c6cc0ac29b7c97c50dd3f84d5b5b5470917
def fxLn2 : FX := 0xb17217f7d1cf79abc9e3b39803f2f6af40f343267298b62d8a0d175b8baafa2be7b876206debac98 / 2 ^ 64

/-- Σ of a series whose next term is term · z · num k / den k. -/
def fxSeries (z : FX) (num den : Nat → Nat) : Nat → Nat → FX → FX → FX
  | 0, _, _, s => s
  | fuel + 1, k, term, s =>
    let t := fxMul term z * num k / (den k : Nat)
    if t = 0 then s else fxSeries z num den fuel (k + 1) t (s + t)

/-- e^z for |z| below 1. -/
def fxExpSmall (z : FX) : FX := fxSeries z (fun _ => 1) (fun k => k + 1) 200 0 fxOne fxOne

/-- e^z for |z| up to about 128. -/
def fxExp (z : FX) : FX :=
  let k := z / fxLn2
  let r := fxExpSmall (z - k * fxLn2)
  if 0 ≤ k then r * 2 ^ k.toNat else r / 2 ^ (-k).toNat

def fxSqrt (a : FX) : FX := isqrt (a.toNat * 2 ^ 256)

/-- erf z = 2/√π · Σ (−1)^n z^(2n+1) / (n! (2n+1)). -/
def fxErfGo (z2 : FX) : Nat → Nat → FX → FX → FX
  | 0, _, _, s => s
  | fuel + 1, n, p, s =>
    let p := -(fxMul p z2) / (n + 1 : Nat)
    if p = 0 then s else fxErfGo z2 fuel (n + 1) p (s + p / (2 * n + 3 : Nat))
def fxErf (z : FX) : FX := fxDiv (2 * fxErfGo (fxMul z z) 900 0 z z) (fxSqrt fxPi)

/-- sin and cos of an angle below 2π. -/
def fxSin (z : FX) : FX :=
  fxSeries (-(fxMul z z)) (fun _ => 1) (fun k => (2 * k + 2) * (2 * k + 3)) 200 0 z z
def fxCos (z : FX) : FX :=
  fxSeries (-(fxMul z z)) (fun _ => 1) (fun k => (2 * k + 1) * (2 * k + 2)) 200 0 fxOne fxOne
/-- x mod 2π. -/
def fxTurn (x : Ex) : FX := (x.shift 512).floorInt % (2 * fxPi512) / 2 ^ 256

def fxSigmoid (z : FX) : FX := let e := fxExp z; fxDiv e (fxOne + e)
def fxTanh (z : FX) : FX := let e := fxExp (2 * z); fxDiv (e - fxOne) (e + fxOne)

/-- The exact function of a built-in slot inside its evaluated range, to far more bits than any bound needs; an odd one is
that of the magnitude with the input's sign, so that no floor moves it away from zero. -/
def builtinRef (slot : Nat) (x : Ex) : Ex :=
  let z := fxOf x
  let odd (f : Ex → FX) : Ex := let y := fxEx (f x.abs); if x.isNeg then y.neg else y
  match slot with
  | 0 =>
    let n := x.floorInt
    (fxEx (fxExp (fxMul (z - n * fxOne) fxLn2))).shift n
  | 1 => Ex.dyadic (x.log2Floor 160) (-160)
  | 2 => (Ex.ofInt 1).divRat x
  | 3 =>
    let n := x.ilog2 / 2
    (fxEx (fxDiv fxOne (fxSqrt (fxOf (x.shift (-2 * n)))))).shift (-n)
  | 4 =>
    let n := x.ilog2 / 2
    (fxEx (fxSqrt (fxOf (x.shift (-2 * n))))).shift n
  | 5 => odd fun w => fxTanh (fxOf w)
  | 6 => fxEx (fxSigmoid z)
  | 7 =>
    let u := fxMul (fxSqrt (2 * fxDiv fxOne fxPi)) (z + 44715 * fxMul z (fxMul z z) / 1000000)
    fxEx (fxMul (z / 2) (fxOne + fxTanh u))
  | 8 => fxEx (fxMul (z / 2) (fxOne + fxErf (fxDiv z (fxSqrt (2 * fxOne)))))
  | 9 => fxEx (fxMul z (fxSigmoid z))
  | 10 => fxEx (fxErf z)
  | 11 => odd fun w => fxSin (fxTurn w)
  | 12 => fxEx (fxCos (fxTurn x))
  | _ => fxEx (fxMul (Ex.shift (Ex.dyadic ((fxEx (fxOne + fxExp z)).log2Floor 256) (-256)) 256).floorInt fxLn2)

/-- Whether y is an accepted result for reference r (Table 7.1, R128). -/
def builtinOk (slot : Nat) (x r y : Ex) : Bool :=
  let err := (y.sub r).abs
  let le (a b : Ex) : Bool := !b.lt a
  let ulp := Ex.dyadic 1 (r.ilog2 - 23)
  let ulps (n : Int) : Bool := !r.isZero && le err (Ex.mul (Ex.ofInt n) ulp)
  let p2 (k : Int) : Ex := Ex.dyadic 1 k
  match slot with
  | 0 | 2 | 3 => ulps 1
  | 1 => ulps 2 || ((p2 (-1)).lt x && x.lt (p2 1) && le err (p2 (-22)))
  | 5 | 6 | 10 | 13 => ulps 2
  | 7 | 8 | 9 => ulps 3 || (r.abs.lt (p2 (-3)) && le err (p2 (-23)))
  | _ => if le x.abs (p2 18) then ulps 2 else le err (p2 (-12))

/-- The result outside the evaluated range (Table 7.1); none inside it. -/
def builtinFixed (slot : Nat) (xw : Word) (x : Val) : Option Word :=
  let i (n d : Int) : Val := .fin (Ex.divRat (Ex.ofInt n) (Ex.ofInt d))
  let ge (a b : Val) : Bool := !a.lt b
  let le (a b : Val) : Bool := !b.lt a
  let inf : Word := 0x7F800000
  let one : Word := 0x3F800000
  let sgn (w : Word) : Word := if x.isNeg then w ||| 0x80000000 else w
  match slot with
  | 0 => if ge x (i 128 1) then some inf else if x.lt (i (-126) 1) then some 0 else none
  | 1 => if x.isZero then some 0xFF800000 else if x.isNeg then some nan32 else if !x.isFinite then some inf else none
  | 2 => if x.isZero then some inf else if !x.isFinite || (Val.fin (Ex.dyadic 1 126)).lt x.abs then some 0 else none
  | 3 => if x.isZero then some inf else if x.isNeg then some nan32 else if !x.isFinite then some 0 else none
  | 4 => if x.isZero then some 0 else if x.isNeg then some nan32 else if !x.isFinite then some inf else none
  | 5 => if ge x.abs (i 19 2) then some (sgn one) else none
  | 6 => if ge x (i 35 2) then some one else if le x (i (-175) 2) then some 0 else none
  | 7 | 8 => if ge x (i 10 1) then some xw else if le x (i (-27) 2) then some 0 else none
  | 9 => if ge x (i 88 1) then some xw else if le x (i (-103) 1) then some 0 else none
  | 10 => if ge x.abs (i 98 25) then some (sgn one) else none
  | 11 | 12 => if x.isFinite then none else some nan32
  | _ => if ge x (i 20 1) then some xw else if le x (i (-175) 2) then some 0 else none

/-- The result of a built-in slot where Table 7.1 leaves no choice; otherwise its input and its reference value. -/
def builtinCase (slot : Nat) (xw : Word) : Word ⊕ (Ex × Ex) :=
  let x := fp32 xw
  if x.isNan then .inl nan32
  else
    match builtinFixed slot xw x, x with
    | some w, _ => .inl w
    | none, .fin e => .inr (e, builtinRef slot e)
    | none, _ => .inl nan32

/-- The reference, rounded once. -/
def builtinRounded (slot : Nat) (xw : Word) : Word :=
  match builtinCase slot xw with
  | .inl w => w
  | .inr er => rne32 (.fin er.2)

/-- Each result under RNE by itself: fixed, a correctly rounded square root, and elsewhere the free candidate when it meets the
bound of Table 7.1, else the reference rounded. -/
def builtinLone (slot : Nat) (clampOn : Bool) (xw : Word) : Word :=
  match builtinCase slot xw with
  | .inl w => w
  | .inr (e, r) =>
    let free := flush32 (Config.builtin slot clampOn xw 0 0)
    let rounded := rne32 (.fin r)
    if slot = 4 then rounded
    else if r.isZero || r.ilog2 < -126 then 0
    else
      match fp32 free with
      | .fin y => if builtinOk slot e r y then free else rounded
      | _ => rounded

/-- Whether w is what rounding by rm may make of an exact value that RNE rounds to y: y itself, the next FP32 value toward zero,
or under SR the next away from it. -/
def nextTo (rm : RM) (y w : Word) : Bool :=
  let m := y.toNat % 2 ^ 31
  let step (k : Nat) : Bool := w == flush32 (BitVec.ofNat 32 (y.toNat / 2 ^ 31 * 2 ^ 31 + k)) && (fp32 w).isFinite
  w == y || (m != 0 && (match rm with | .rne => false | .rtz => step (m - 1) | .sr => step (m - 1) || step (m + 1)))

/-- A result in the caller's rounding mode, given the one under RNE: RECON has one exact value and rounds it once (R129). Where the
rounding is not fixed by Table 7.1 it is the free candidate, if that is next to y. -/
def builtinNear (slot : Nat) (clampOn : Bool) (rm : RM) (rnd : Nat) (y xw : Word) : Word :=
  let rmN := match rm with | .rne => 0 | .rtz => 1 | .sr => 2
  match builtinCase slot xw with
  | .inl w => w
  | .inr _ =>
    let free := flush32 (Config.builtin slot clampOn xw rmN rnd)
    if nextTo rm y free then free else y

/-- Slots that Table 7.1 marks monotone; rising is false for rcp and rsqrt. -/
def builtinMonotone (slot : Nat) : Bool := slot < 7 || slot == 10 || slot == 13
def builtinRising (slot : Nat) : Bool := slot != 2 && slot != 3

/-- A table of results is monotone in the sense of Table 7.1, over every pair of inputs of one sign for rcp, and over every
pair for the others, where neither result is NaN. -/
def monotoneTable (slot : Nat) (f : Word → Word) : Bool :=
  decide (∀ a b : Word,
    ((fp32 a).lt (fp32 b) && (slot != 2 || (fp32 a).isNeg == (fp32 b).isNeg)
        && !(fp32 a).isNan && !(fp32 b).isNan && !(fp32 (f a)).isNan && !(fp32 (f b)).isNan) = true →
      (if builtinRising slot then !(fp32 (f b)).lt (fp32 (f a)) else !(fp32 (f a)).lt (fp32 (f b))) = true)

/-- With its seam clamp in effect a monotone function's results f count only where the whole table of them is monotone; otherwise
the monotone r stands in their place (R132). -/
def keepMonotone (slot : Nat) (clampOn : Bool) (f r : Word → Word) (xw : Word) : Word :=
  if f xw = r xw || !clampOn || !builtinMonotone slot then f xw else if monotoneTable slot f then f xw else r xw

/-- The result of a built-in slot under RNE (R127, R128). -/
def builtinRne (slot : Nat) (clampOn : Bool) (xw : Word) : Word :=
  keepMonotone slot clampOn (builtinLone slot clampOn) (builtinRounded slot) xw

/-- A built-in slot (R127, R128, R132). RTZ of monotone values is monotone; SR need not be. Log entry 10, DESIGN CHOICE. -/
def builtinEval (slot : Nat) (clampOn : Bool) (rm : RM) (rnd : Nat) (xw : Word) : FnRes :=
  let y := builtinRne slot clampOn
  match rm with
  | .rne => ⟨y xw, false⟩
  | .rtz => ⟨keepMonotone slot clampOn (fun v => builtinNear slot clampOn .rtz 0 (y v) v) y xw, false⟩
  | .sr => ⟨builtinNear slot clampOn .sr rnd (y xw) xw, false⟩

/-- R357. -/
def fnEvents (x : Val) (r : FnRes) : Events :=
  let y := fp32 r.y
  let fz := x.isFinite && !x.isZero
  { inv := b2n (!x.isNan && y.isNan),
    ov := b2n (fz && ((!y.isFinite && !y.isNan) || r.rtzOv)),
    un := b2n (fz && y.isZero) }

/-! ### Slots of a region -/

def Vsu.slot (v : Vsu) (i : Nat) : Slot := v.slots.toList.getD i {}
def Vsu.modSlot (v : Vsu) (i : Nat) (f : Slot → Slot) : Vsu :=
  if h : i < 32 then { v with slots := v.slots.set i (f v.slots[i]) } else v

/-- Whether a slot may be called (R127). -/
def Vsu.callable (v : Vsu) (i : Nat) : Bool := i < 14 || (16 ≤ i && i < 32 && (v.slot i).live.isSome)

/-- CLAMP_VALID of the live image (R132). -/
def Slot.clampValid (i : Nat) (t : Slot) : Bool :=
  i < 14 || (match t.live.bind parseImg with | some g => g.clampValid | none => false)

/-- Evaluates slot i on an FP32 pattern (R129, R130). -/
def Vsu.eval (v : Vsu) (i : Nat) (rm : RM) (rnd : Nat) (x : Word) : FnRes :=
  if i < 14 then builtinEval i (v.slot i).clamp rm rnd x
  else
    match (v.slot i).live.bind parseImg with
    | some g => vsuEval g ((v.slot i).clamp && g.clampValid) rm rnd x
    | none => ⟨nan32, false⟩

/-- Whether slot i's element reads one of the uncorrectable words bad of its live image (R139). -/
def Vsu.readsBad (v : Vsu) (i : Nat) (bad : List Nat) (x : Word) : Bool :=
  16 ≤ i && !bad.isEmpty && (match (v.slot i).live.bind parseImg with | some g => g.readsBad bad x | none => false)

end Sys2Proof.Machine
end

