-- ==== Sys2Proof/Machine/Chain.lean ====
section
/-!
DEFINITION. Fused chains: the menu and the chain record with its checks (06 R108 to R112, R117), the issue of an MMA
(08 R157 to R160 and the rules it names), and the epilogue of one row (06 R113, R114, R118, R120).
-/
namespace Sys2Proof.Machine

open Sys2Proof

/-! ### The menu (Table 6.2) -/

def chainSc (c : Nat) : Bool := 2 ≤ c
def chainBi (c : Nat) : Bool := c == 2 || c == 3 || c == 4 || c == 7 || (9 ≤ c && c ≤ 12)
def chainAc (c : Nat) : Bool := c == 2 || c == 4 || c == 9 || c == 11
def chainDs (c : Nat) : Bool := c == 8 || c == 9 || c == 10
def chainGr (c : Nat) : Bool := 11 ≤ c && c ≤ 13
/-- Stage numbers of READ, SC, BI, AC and CV or QZ (R109). -/
def stRead (c : Nat) : Nat := if 8 ≤ c then 2 else 1
def stSc (c : Nat) : Nat := stRead c + 1
def stBi (c : Nat) : Nat := stRead c + 2
def stAc (c : Nat) : Nat := stRead c + 3
def stOut (c : Nat) : Nat := if c = 1 then 1 else stSc c + b2n (chainBi c) + b2n (chainAc c) + 1

/-- OUTFMT permitted by Table 6.2. -/
def outfmtOk (c : Nat) (f : Fmt) : Bool :=
  if c = 5 then f.isLong
  else if c = 6 then f == .l16
  else if chainQz c then f.isMx
  else f.roleO && !f.isMx

/-! ### The chain record (Table 6.3) -/

/-- An address that a chain's field names, for n bytes. -/
def vecOk (a n al : Nat) : Bool := a % al == 0 && (n == 0 || inOneRange a n)

/-- The record at address ra for chain c, its tiles checked; cplx doubles their planes. None: a format fault. A residual may have
any format but a quire, ACCP and T4 among them, and is not sparse. Log entry 160, DESIGN CHOICE. -/
def State.chainRec (s : State) (ra c base width : Nat) (cplx : Bool) : Option ChainRec :=
  let r := memGetN s.mem ra 64
  let flags := fieldLE r 0xF 1
  let outW := fieldLE r 0x20 16
  let outfmt := fieldLE r 4 1
  let outWord := if c = 5 then setFld (setFld (setFld outW 42 6 0) 48 2 0) 82 24 (4 * tdCols outW) else outW
  let outWord := if c = 5 then setFld outWord 0 42 0 else outWord
  let scmode := fieldLE r 5 1
  let bimode := fieldLE r 6 1
  let acfn := fieldLE r 7 1
  let rdk := fieldLE r 0xC 1
  let sc := fieldLE r 0x10 8
  let bi := fieldLE r 0x18 8
  let aux := fieldLE r 0x30 8
  let stat := fieldLE r 0x38 8
  match fmtOfCode outfmt, s.tileAt outWord (if c = 5 then 0 else scaleAddr base outW) with
  | some f, some out =>
    let resid : Option (Option Tile) :=
      if chainBi c && bimode == 2 then
        (if vecOk bi 16 4 then
          (let bw := leValue (memGetN s.mem bi 16)
           (s.tileAt bw (scaleAddr base bw)).map some)
        else none)
      else some none
    match resid with
    | none => none
    | some res =>
      let resOk := match res with
        | none => true
        | some t => t.rows == out.rows && t.cols == out.cols && t.sparse == 0 && !t.fmt.isQuire && t.readOk
            && (!cplx || t.planesOk)
      let ok := outfmtOk c f && (c == 5 || out.fmt == f) && out.sparse == 0 && flags < 4
        && (!chainSc c || (scmode < 4 && (scmode < 2 || vecOk sc (4 * (if scmode = 2 then out.rows else out.cols)) 4)))
        && (!chainBi c || (bimode < 3 && (bimode != 1 || vecOk bi (4 * out.cols) 4)))
        && (!chainAc c || acfn < 32)
        && (c != 5 || ((rdk == 1 || rdk == 2 || rdk == 4 || rdk == 8) && rdk ≤ width))
        && (c != 7 || fieldLE r 0xD 1 < 2) && (!chainDs c || fieldLE r 0xE 1 < 2)
        && (!(c == 5 || c == 6 || c == 7) || aux % 8 == 0)
        && (!(c == 6 || chainDs c) || stat % 4 == 0)
        && (!chainQz c || (out.gaxis == 0 && width != 16))
        && (c == 5 || !cplx || out.planesOk) && resOk
      if ok then
        some { tensor := fieldLE r 0 4, outfmt := outfmt, scmode := if chainSc c then scmode else 0,
               bimode := if chainBi c then bimode else 0, acfn := acfn, scval := word32 r 8, rdk := rdk,
               rdop := fieldLE r 0xD 1, dsmode := fieldLE r 0xE 1, keepacc := bitAt flags 0, tr := bitAt flags 1,
               scaddr := sc, biaddr := bi, out := out, aux := aux, stat := stat, residual := res }
      else none
  | _, _ => none

/-- The SC and DS vectors of a job and its bias vector, or the descriptor of its residual. -/
def Job.vectors (j : Job) : List (Nat × Nat) :=
  match j.crec with
  | none => []
  | some c =>
    (if c.scmode = 2 then [(c.scaddr, 4 * c.out.rows)] else if c.scmode = 3 then [(c.scaddr, 4 * c.out.cols)] else [])
      ++ (if c.bimode = 1 then [(c.biaddr, 4 * c.out.cols)] else if c.residual.isSome then [(c.biaddr, 16)] else [])
      ++ (if chainDs j.chain then
            [(c.stat, 4 * (if c.dsmode = 0 then j.m else (ceilDiv (j.k * sparseFactor j.shape) 64 - 1) * j.a.rows + j.m))]
          else [])

/-- The residual, unless it equals OUTDESC and is overwritten in place (R117). -/
def Job.apart (j : Job) : Option Tile := j.crec.bind fun c => c.residual.filter fun t => t != c.out

/-- What a residual is read from, with its scale header, fine scales, table and column sums. -/
def Job.residualReads (j : Job) (t : Tile) : List (Nat × Nat) := t.readRanges ++ (if j.cplx then t.imag.ranges else [])

/-- The SC, BI and DS inputs of a job (R117). -/
def Job.inputs (j : Job) : List (Nat × Nat) :=
  j.vectors ++ (match j.apart with | some t => j.residualReads t | none => [])

/-- The fine scales by which a row of OUTDESC is divided or, in chain 7, read again: a QZ chain writes them instead. -/
def Job.outFine (j : Job) (out : Tile) (r c n : Nat) : List (Nat × Nat) := if chainQz j.chain then [] else out.fineStrip r c n

/-- What the chain reads besides its inputs: a residual that is overwritten in place, and OUTDESC's fine scales. -/
def Job.chainReads (j : Job) : List (Nat × Nat) :=
  match j.crec with
  | none => []
  | some c =>
    (match c.residual with | some t => j.residualReads t | none => [])
      ++ (if chainQz j.chain || c.out.skind == 0 then []
          else (c.out.fineAddr 0 0, c.out.fineLen) :: (if j.cplx then [(c.out.imag.fineAddr 0 0, c.out.fineLen)] else []))

/-- Column sums that the epilogue's reads take in (R55, R56). -/
def Job.sums (j : Job) : List (Nat × Nat) := if j.a.zp ≠ 0 ∧ j.w.csaddr ≠ 0 then [(j.w.csaddr, 4 * j.n)] else []

/-- Operand tiles with their planes, index planes and scale data, and the index list of GX. -/
def Job.operands (j : Job) : List (Nat × Nat) :=
  let one (t : Tile) : List (Nat × Nat) := t.ranges ++ (if j.cplx then t.imag.ranges else [])
  one j.w ++ one j.a ++ j.sums ++ (if j.shape = shGx then [(j.gxList, 4 * j.m)] else [])

/-! ### Issue of an MMA (R157, R158) -/

def acmOf (n : Nat) : Acm := match n with | 0 => .pair | 1 => .chunk | 2 => .basin | _ => .intw

def modeOfPart (b : Nat) : Option PartMode :=
  match fld b 4 2 with
  | 0 => some .whole
  | 1 => some .halves
  | 2 => some .quarters
  | _ => none

/-- Entries of part set i of a section, as (PART byte) values. -/
def sectPset (sect : List Byte) (i : Nat) : List Nat :=
  let m := fieldLE sect (0x28 + 2 * i) 2
  ((List.range 16).filter (bitAt m)).map fun k => fieldLE sect (0x18 + k) 1

/-- Accumulator or Basin area of a section: address and bytes. -/
def sectArea (n : StrandId) (sect : List Byte) (basin : Bool) : Nat × Nat :=
  if basin then (basinBase (regionOf n) + fieldLE sect 0x10 4, fieldLE sect 0x14 4)
  else (scratchBase (regionOf n) + fieldLE sect 8 4, fieldLE sect 0xC 4)

/-- Scale rules of R52 and R79 for an operand; axis is the GAXIS that runs along K, per the G that it must divide. -/
def scaleFits (t : Tile) (axis unit : Nat) : Bool :=
  t.skind == 0 || (t.gaxis == axis && unit ≤ t.groupLen && t.groupLen % unit == 0)

/-- R54. -/
def plainScale (t : Tile) : Bool := match t.hdr with | none => true | some h => h.skind == 0 && h.tscale == 0x3F800000

/-- Activations that a sparse weight pairs with, at group size g (R185). Log entry 129, DEDUCED. -/
def sparseActOk (shape g : Nat) (a : Tile) : Bool :=
  (shape != shSp24 && shape != shSp14)
    || (match a.fmt with
        | .int8 => a.skind == 2 && g == 32 && a.groupLen == (if shape = shSp24 then 64 else 128)
        | .uint8 => true
        | .fp16 => true
        | .bf16 => true
        | _ => false)

/-- Shape, partition and sparsity agree (R74, R78). Log entry 122, DEDUCED. -/
def shapeOk (shape g : Nat) (mode : PartMode) (w a : Tile) : Bool :=
  (match mode with
    | .whole => shape != 2 && shape != 3
    | .halves => shape == 2
    | .quarters => shape == 3)
    && w.sparse == (if shape = shSp24 then 1 else if shape = shSp14 then 2 else 0) && a.sparse == 0 && sparseActOk shape g a

/-- The job of an MMA, all its checks made but those of R117; none: a format fault. Log entry 50, DEDUCED. Log entry 55, DEDUCED. -/
def State.mmaJob (s : State) (n : StrandId) (w : Word64) : Option Job :=
  let x := s.strand n
  let f := fmtM w
  match x.launch with
  | none => none
  | some l =>
    let tdw := x.tdw f.tdw
    let tda := x.tdw f.tda
    match s.tileAt tdw (scaleAddr l.scaleBase tdw), s.tileAt tda (scaleAddr l.scaleBase tda), rmOfCode f.rm with
    | some tw, some ta, some rm =>
      let acm := acmOf f.acm
      let basin := acm == .basin
      let g := 32 * 2 ^ f.g
      let set := sectPset l.sect f.pset
      match (set.head?.bind modeOfPart), pairInfo tw.fmt ta.fmt acm with
      | some mode, some info =>
        let width := mode.width
        let rc := (x.reg f.rc).toNat
        let ra := scratchBase (regionOf n) + rc
        let cplx := f.shape == shCplx
        let crec : Option (Option ChainRec) :=
          if f.chain = 0 then some none
          else if rc % 64 = 0 ∧ rc + 64 ≤ scratchSize then
            (s.chainRec ra f.chain l.scaleBase width cplx).map some
          else none
        match crec with
        | none => none
        | some cr =>
          let recBad := f.chain != 0 && (s.read ra 64).2
          let tr := match cr with | some c => c.tr | none => false
          let m := if tr then ta.cols else ta.rows
          let kLog := if tr then ta.rows else ta.cols
          let sf := sparseFactor f.shape
          let area := sectArea n l.sect basin
          let size := tileSize acm tw.fmt ta.fmt width
          let tw := if recBad then { tw with hdrBad := true } else tw
          let tacc : Word := if acm = .intw then 0x3F800000 else rne32 (tw.tscale.mul ta.tscale)
          let j : Job :=
            { id := s.nextId, strand := n, pc := x.pc,
              parts := set.map fun b => (16 * regionOf n + fld b 0 4, fld b 6 2), width := width, shape := f.shape,
              acm := acm, g := g, chain := f.chain, base := area.1 + f.accix * size, size := size, rm := rm,
              init := f.init, list := f.list && !basin, w := tw, a := ta, m := m, n := tw.cols, k := tw.rows,
              tacc := tacc, seed := lrSeed l.lrec, chunkLen := if bitAt s.mgt.profile.toNat 8 then 8 else 4,
              gxList := scratchBase (regionOf n) + 4 * (Config.gxList w rc % 0xC00000), crec := cr, started := [] }
          let ok := f.g < 3 && f.chain < 14 && f.pset < fieldLE l.sect 1 1 && shapeOk f.shape g mode tw ta
            && kLog == sf * tw.rows && m ≤ 4096 && tw.cols ≤ 4096 && kLog ≤ 65536
            && (!info.twoLane || f.g == 0)
            && scaleFits tw 1 g && scaleFits ta (if tr then 1 else 0) (sf * g)
            && (acm.floating || (plainScale tw && plainScale ta)) && (!basin || ta.zp == 0)
            && (ta.zp == 0 || (tw.csaddr != 0 && f.shape != shAs64 && inOneRange tw.csaddr (4 * tw.cols)))
            && (!cplx || (tw.planesOk && ta.planesOk))
            && f.accix * size + j.accBytes ≤ area.2
            && (f.shape == shGx) == (chainGr f.chain || (f.chain == 0 && f.shape == shGx))
            && (!(f.chain == 5 || f.chain == 6 || f.chain == 7) || f.shape != shAs64)
            && (f.chain != 6 || f.shape == 0)
            && (!f.list || f.chain == 0)
            && (!chainDs f.chain || ta.fmt.isLong || ta.fmt.isL)
            && (!tr || (f.shape != shGx && f.shape != shAs64))
            && (!chainAc f.chain || (bitAt (fieldLE l.sect 0x48 2) f.pset
                  && (match cr with | some c => (s.vsu (regionFin n)).callable c.acfn | none => false)))
            && j.inputs.all (fun p => p.2 == 0 || inOneRange p.1 p.2)
            && j.outRanges.all (fun p => p.2 == 0 || inOneRange p.1 p.2)
          if ok then some j else none
      | _, _ => none
    | _, _, _ => none

/-- Lines that they must not meet: operand tiles and their scale data, and the SC, BI and DS inputs. -/
def Job.inAreas (j : Job) : List Area :=
  let one (t : Tile) : List Area := t.area :: t.sideAreas ++ (if j.cplx then t.imag.area :: t.imag.sideAreas else [])
  let bias := match j.apart with | some t => one t ++ t.sumRanges.map areaOf | none => []
  one j.w ++ one j.a ++ bias ++ (j.sums ++ j.vectors).map areaOf

/-- R117: what the chain writes meets no operand, no area of the strand and no SC, BI or DS input. -/
def Job.overlapOk (j : Job) (areas : List (Nat × Nat)) : Bool :=
  j.outAreas.all fun o => (j.inAreas ++ areas.map areaOf).all fun i => !o.meets i

/-- An MMA that takes a tile's content waits for an earlier MMA of the strand that still has the tile in another part, or
lays it out otherwise; in one part the tile stays live or passes through the Saddle set (R99, R100). -/
def State.accHazard (s : State) (j : Job) : Bool :=
  !j.init && s.jobs.any fun k => k.strand == j.strand && k.accTiles.any fun p => j.accTiles.any fun q =>
    overlap p.2 q.2 && p != q

/-- Queues the sets of a job on its parts (R159, R160). -/
def State.enqueue (s : State) (j : Job) : State :=
  let s := { s with jobs := s.jobs ++ [j], nextId := s.nextId + 1 }
  (List.zip (List.range j.parts.length) j.parts).foldl (fun s p =>
    let b := fin128 p.2.1
    let q := fin4 p.2.2
    let x := s.part b q
    s.setPart b q { x with queue := x.queue ++ j.itemsFor p.1 }) s

/-- The chain record that an MMA names, where it may lie. -/
def Strand.recRange (x : Strand) (n : StrandId) (w : Word64) : List (Nat × Nat) :=
  let rc := (x.reg (fmtM w).rc).toNat
  if (fmtM w).chain ≠ 0 ∧ rc % 64 = 0 ∧ rc + 64 ≤ scratchSize then [(scratchBase (regionOf n) + rc, 64)] else []

/-- What an MMA reads to know its operands, in stages: its chain record and the scale headers of its operands; the header of
OUTDESC and the residual's descriptor, which the record names; the residual's header (R111). -/
def State.mmaHeaders (s : State) (n : StrandId) (w : Word64) : List (List (Nat × Nat)) :=
  let x := s.strand n
  let f := fmtM w
  match x.launch with
  | none => []
  | some l =>
    let rec_ := x.recRange n w
    let outs := rec_.flatMap fun p =>
      if f.chain = 5 then [] else headerRanges l.scaleBase [leValue (memGetN s.mem (p.1 + 0x20) 16)]
    let bis := rec_.filterMap fun p =>
      let bi := leValue (memGetN s.mem (p.1 + 0x18) 8)
      if chainBi f.chain && memGet s.mem (p.1 + 6) == 2 && vecOk bi 16 4 then some (bi, 16) else none
    [rec_ ++ headerRanges l.scaleBase [x.tdw f.tdw, x.tdw f.tda], outs ++ bis,
     bis.flatMap fun p => headerRanges l.scaleBase [leValue (memGetN s.mem p.1 16)]]

def mmaBody (n : StrandId) (w : Word64) : Body := fun s =>
  let x := s.strand n
  match s.preReads n (.mma n w) (s.mmaHeaders n w) with
  | some r => r
  | none =>
    let s := s.meet (s.mmaHeaders n w).flatten
    match s.mmaJob n w with
    | none => .error .format
    | some j =>
      let reads := j.operands ++ j.inputs
      let areas := match x.launch with | some l => [sectArea n l.sect false, sectArea n l.sect true] | none => []
      if !winRanges x (regionOf n) (reads ++ j.outRanges) then .error .sequence
      else if !j.overlapOk areas then .error .format
      else if s.accHazard j || s.hazard n (reads ++ (match j.crec with
          | some c => (match c.residual with | some t => t.written j.cplx | none => [])
          | none => [])) then .ok s
      else
        match s.gate (.mma n w) (reads ++ j.chainReads) [] with
        | some t => .ok (t.holdStrand n)
        | none => .ok ((s.enqueue j).dropDone.advance n)

def execMma (n : StrandId) (w : Word64) (s : State) : Out1 :=
  .next (s.issue n w 0x30 (zeroM w) true (mmaBody n w))

/-! ### The epilogue of one row -/

/-- Logs uncorrectable words of a slot's live image when some input in xs reads one (R139). Log entry 60, DEDUCED. -/
def vsuEcc (s : State) (n : StrandId) (slot : Nat) (bad : List Nat) (xs : List Word) : State :=
  if xs.any ((s.vsu (regionFin n)).readsBad slot bad) then s.logEv 1 2 (0x60 + regionOf n) 0x18 0 slot else s

/-- A value between stages: its FP32 word, whether it is poisoned, the events so far, and what AC was given. -/
structure Stg where
  w : Word
  bad : Bool
  ev : Events
  fnIn : Word
deriving DecidableEq, Repr

/-- One FP32 stage: the exact value v from inputs, nanIn whether one of them was NaN (R43, R108). -/
def Stg.step (x : Stg) (rm : RM) (key : SrKey) (r n : Nat) (v : Val) (nanIn bad : Bool) : Stg :=
  let cv := toFp32 rm (draw rm key r n) v
  ⟨BitVec.ofNat 32 cv.code, x.bad || bad, x.ev.add (elemEvents v v cv nanIn), 0⟩

/-- A vector entry and whether it is poisoned. -/
def State.entry32 (s : State) (a : Nat) : Val × Bool :=
  (fp32 (BitVec.ofNat 32 (leValue (memGetN s.mem a 4))), (s.readHalf a 4).2)

/-- The exact READ of an accumulator element (R55, R56); bad says that the element is poisoned. -/
def State.readAcc (s : State) (j : Job) (n : Nat) (p : Word × Word) (q : Nat) (bad : Bool) : Src :=
  let cs := if j.a.zp = 0 then Val.zero else s.colSum j.w.csaddr n (j.acm == .intw)
  let bad := bad || (j.acm != .basin && j.a.zp != 0 && (s.read (j.w.csaddr + 4 * n) 4).2)
  match j.acm with
  | .basin => let v := quireDecode j.quire q; ⟨v, v.isNan, bad⟩
  | .intw => ⟨Val.ofInt (readInt p.1 j.a.zp cs), false, bad⟩
  | _ => ⟨readPair true p.1 p.2 j.a.zp cs (fp32 j.tacc),
          (fp32 p.1).isNan || (fp32 p.2).isNan || cs.isNan || (fp32 j.tacc).isNan, bad⟩

/-- READ, SC, BI and AC on one element of the tile; wrong lists the uncorrectable words of the AC slot's live image (R139).
Both planes of a complex product draw SR bits at the same row, column and stage. Log entry 121, DESIGN CHOICE. -/
def State.stages (s : State) (j : Job) (c : ChainRec) (res : Option Tile) (wrong : List Nat) (r n : Nat) (y : Src) : Stg :=
  let key (st : Nat) : SrKey := ⟨j.seed, c.tensor, st⟩
  let x := Stg.step ⟨0, y.bad, {}, 0⟩ j.rm (key (stRead j.chain)) r n y.v y.nan false
  let x := if chainSc j.chain then
      let f := match c.scmode with
        | 0 => (Val.one, false)
        | 1 => (fp32 c.scval, false)
        | 2 => s.entry32 (c.scaddr + 4 * r)
        | _ => s.entry32 (c.scaddr + 4 * n)
      x.step j.rm (key (stSc j.chain)) r n ((fp32 x.w).mul f.1) ((fp32 x.w).isNan || f.1.isNan) f.2
    else x
  let x := if chainBi j.chain && c.bimode != 0 then
      let f : Src := match res with
        | some t => s.src t r n
        | none => let y := s.entry32 (c.biaddr + 4 * n); ⟨y.1, y.1.isNan, y.2⟩
      x.step j.rm (key (stBi j.chain)) r n ((fp32 x.w).add f.v) ((fp32 x.w).isNan || f.nan) f.bad
    else x
  if chainAc j.chain then
    let k := key (stAc j.chain)
    let v := s.vsu (regionFin j.strand)
    let y := v.eval c.acfn j.rm (draw j.rm k r n) x.w
    ⟨y.y, x.bad || v.readsBad c.acfn wrong x.w, x.ev.add (fnEvents (fp32 x.w) y), x.w⟩
  else x

/-- Position of the best remaining entry: the first of largest rank (R42, R101). -/
def bestIdx (xs : List (Nat × Val)) : Option (Nat × Val) :=
  xs.foldl (fun m y => match m with
    | none => some y
    | some b => if b.2.lt y.2 then some y else m) none

/-- Indices of the k best entries in rank order; equal values keep their order in the list. -/
def topkGo : Nat → List (Nat × Val) → List Nat
  | 0, _ => []
  | k + 1, xs =>
    match bestIdx xs with
    | none => []
    | some b => b.1 :: topkGo k (xs.filter fun y => y.1 != b.1)

/-- Bytes of a top-k entry (Table 6.4, R102) over entries (position, code, value): k value slots of 4 bytes, then k
positions. -/
def topkBytes (k : Nat) (xs : List (Nat × Nat × Val)) : List Byte :=
  let sel := (topkGo k (List.zip (List.range xs.length) (xs.map (·.2.2)))).filterMap fun i => xs[i]?
  let pad := k - sel.length
  let codes : List Nat := sel.map fun (y : Nat × Nat × Val) => y.2.1
  let poss : List Nat := sel.map fun (y : Nat × Nat × Val) => y.1
  (codes ++ List.replicate pad 0).flatMap (leBytes 4) ++ (poss ++ List.replicate pad 0xFFFFFFFF).flatMap (leBytes 4)

def pairBytes (p : Word × Word) : List Byte := leBytes 4 p.1.toNat ++ leBytes 4 p.2.toNat

def sumVals (vs : List Val) : Val := vs.foldl Val.add Val.zero

/-- Value of a code that a tile holds, scales included, as a consumer will read it. -/
def Tile.valueOf (t : Tile) (m : List Host.Cell) (r c code : Nat) : Val :=
  applyTscale (applyFine (decodeElem t.fmt t.zp [] code) (t.fine m r c)) t.tscale

/-- What chain 6 makes of a row of SC results (R120): L16 codes with their events, m_t, and the sum pair. Every x of the row
is an input of each code, since m_t is, so a NaN row counts as invalid where no x is NaN (R43). -/
def softRow (rm : RM) (key : SrKey) (r n0 pc : Nat) (xs : List Word) : List (Nat × Events) × Word × (Word × Word) :=
  let idx := List.zip (List.range xs.length) xs
  let conv := idx.map fun y =>
    let v := fp32 y.2
    let cv := encodeElem .int32 0 rm (draw rm key r (n0 + y.1)) v
    (v, sext 32 cv.code, elemEvents v v cv v.isNan)
  if conv.any fun y => y.1.isNan || (!y.1.isFinite && !y.1.isNeg) then
    let inv := b2n !(conv.any fun y => y.1.isNan)
    (conv.map fun y => (0xC000, y.2.2.add { inv := inv }), 0, (nan32, 0))
  else
    let cs := (conv.filter fun y => y.1.isFinite).map fun y => y.2.1
    match cs with
    | [] => (conv.map fun y => (0x4000, y.2.2), Config.emptyRowMax [key.seed, key.tensor, pc, r, n0], (0, 0))
    | c :: rest =>
      let m := rest.foldl max c
      let out := conv.map fun y =>
        let l := y.2.1 - m
        if !y.1.isFinite then (0x4000, y.2.2)
        else if l < -16383 then (0x4000, y.2.2.add { un := 1 })
        else (wrap 15 l, y.2.2)
      let sum := out.foldl (fun e y => if y.1 = 0x4000 then e else e.add (lin16 (sext 15 y.1))) Ex.zero
      (out, BitVec.ofInt 32 m, splitPair (.fin sum))

/-- Ranges that the epilogue writes for row r of an output tile whose columns start at n0; a row that OUTDESC lacks has none. -/
def Job.rowWrites (j : Job) (c : ChainRec) (out : Tile) (r n0 nt : Nat) : List (Nat × Nat) :=
  if c.out.rows ≤ r then [] else
  (if j.chain = 5 then [] else [(out.rowAddr r + n0 * out.fmt.bits / 8, packedBytes out.fmt.bits (min j.width (out.cols - n0)))])
    ++ (if chainQz j.chain then [(out.fineAddr r n0, j.width / 32)] else [])
    ++ j.rdArrays.map fun p => (p.1 + p.2 * (nt * c.out.rows + r), p.2)

/-- Memory that the epilogue reads for row r of an output tile, its columns from n0 on: column sums, the SC and BI inputs, and
the fine scales of OUTDESC. -/
def Job.rowReads (j : Job) (c : ChainRec) (out : Tile) (res : Option Tile) (r n0 cols : Nat) : List (Nat × Nat) :=
  if c.out.rows ≤ r then []
  else
    (if j.a.zp = 0 ∨ j.acm = .basin then [] else [(j.w.csaddr + 4 * n0, 4 * cols)])
      ++ (match c.scmode with | 2 => [(c.scaddr + 4 * r, 4)] | 3 => [(c.scaddr + 4 * n0, 4 * cols)] | _ => [])
      ++ (if c.bimode = 0 then []
          else match res with | some t => t.valueStrip r n0 cols | none => [(c.biaddr + 4 * n0, 4 * cols)])
      ++ j.outFine out r n0 cols

/-- Writes the outputs of one row: elements, block scales and RD entries; answers the events. RD has one place for both planes
of a CPLX MMA. Log entry 51, DEDUCED. -/
def State.writeOutputs (s : State) (j : Job) (c : ChainRec) (out : Tile) (r n0 nt : Nat) (xs : List Stg) : State × Events :=
  let idx := List.zip (List.range xs.length) xs
  let ev0 := xs.foldl (fun e x => e.add x.ev) {}
  let key : SrKey := ⟨j.seed, c.tensor, stOut j.chain⟩
  let srcs := xs.map fun x => (⟨fp32 x.w, (fp32 x.w).isNan, x.bad⟩ : Src)
  let bad := xs.any (·.bad)
  let base := out.rowAddr r + n0 * out.fmt.bits / 8
  let e := nt * c.out.rows + r
  if j.chain = 5 then
    let f := (fmtOfCode c.outfmt).getD .fp32
    let cvs := idx.map fun y =>
      let v := fp32 y.2.w
      (n0 + y.1, v, encodeElem f 0 j.rm (draw j.rm key r (n0 + y.1)) v)
    let ev := cvs.foldl (fun a y => a.add (elemEvents y.2.1 y.2.1 y.2.2 y.2.1.isNan)) ev0
    (s.write (c.aux + 8 * c.rdk * e) (topkBytes c.rdk (cvs.map fun y => (y.1, y.2.2.code, decodeElem f 0 [] y.2.2.code))) bad, ev)
  else if j.chain = 6 then
    let y := softRow j.rm ⟨j.seed, c.tensor, 3⟩ r n0 j.pc (xs.map (·.w))
    let s := s.writeRow base 16 (List.zipWith (fun (q : Nat × Events) _ => ⟨q.1, {}, bad⟩) y.1 xs)
    let s := s.write (c.stat + 4 * e) (leBytes 4 y.2.1.toNat) bad
    (s.write (c.aux + 8 * e) (pairBytes y.2.2) bad, y.1.foldl (fun a q => a.add q.2) ev0)
  else if chainQz j.chain then
    let y := out.encodeMxRow s j.rm key r n0 r n0 srcs
    let s := s.writeRow base out.fmt.bits y.1
    (y.2.foldl (fun s p => s.write p.1 [p.2.1] p.2.2) s, y.1.foldl (fun a q => a.add q.ev) ev0)
  else
    let ws := (List.zip (List.range srcs.length) srcs).map fun y => out.encode1 s j.rm key r (n0 + y.1) r (n0 + y.1) y.2
    let s' := s.writeRow base out.fmt.bits ws
    let ev := ws.foldl (fun a q => a.add q.ev) ev0
    if j.chain = 7 then
      let vs := (List.zip (List.range ws.length) ws).map fun y => out.valueOf s.mem r (n0 + y.1) y.2.code
      let sq := pairBytes (splitPair (sumVals (vs.map fun v => v.mul v)))
      let bad := ws.any (·.bad)
      if c.rdop = 1 then (s'.write (c.aux + 16 * e) (pairBytes (splitPair (sumVals vs)) ++ sq) bad, ev)
      else (s'.write (c.aux + 8 * e) sq bad, ev)
    else (s', ev)

/-- Chain 1: READ is the last stage and rounds the accumulator's exact value to OUTFMT. -/
def State.writeRead (s : State) (j : Job) (c : ChainRec) (out : Tile) (r n0 : Nat) (vs : List Src) : State × Events :=
  let key : SrKey := ⟨j.seed, c.tensor, 1⟩
  let ws := (List.zip (List.range vs.length) vs).map fun y => out.encode1 s j.rm key r (n0 + y.1) r (n0 + y.1) y.2
  (s.writeRow (out.rowAddr r + n0 * out.fmt.bits / 8) out.fmt.bits ws, ws.foldl (fun a q => a.add q.ev) {})

/-- The plane of OUTDESC that an epilogue writes, and of the residual that it reads (R152). -/
def Job.outPlane (j : Job) (c : ChainRec) (t : Epi) : Tile := if j.cplx && t.tile % 2 == 1 then c.out.imag else c.out
def Job.resPlane (j : Job) (c : ChainRec) (t : Epi) : Option Tile :=
  if j.cplx && t.tile % 2 == 1 then c.residual.map Tile.imag else c.residual

/-- Columns of an output tile that OUTDESC has. -/
def Job.epiCols (j : Job) (c : ChainRec) (ot : Nat) : Nat := min (j.tileCols ot) (c.out.cols - j.width * (ot / j.mt))

/-- One row of an epilogue. Log entry 53, DEDUCED. A block that column N of the product cuts has its block scale from the
elements that the product gives. Log entry 157, DESIGN CHOICE. -/
def State.epilogueRow (s : State) (n : StrandId) (j : Job) (c : ChainRec) (t : Epi) (wrong : List Nat) : State :=
  let ot := j.outTile t.tile
  let r := 64 * (ot % j.mt) + t.next
  let nt := ot / j.mt
  let n0 := j.width * nt
  let out := j.outPlane c t
  let res := j.resPlane c t
  if c.out.rows ≤ r then s
  else
    let cols := j.epiCols c ot
    let vals := (List.range cols).map fun k =>
      let p := (t.rows.getD t.next []).getD k (0, 0)
      let a := t.acc + (t.next * j.width + k) * (2 * j.quire)
      let q := if j.acm = .basin then s.read a (2 * j.quire) else ([], false)
      s.readAcc j (n0 + k) p (leValue q.1) (q.2 || t.badAll || t.badEls.contains (t.next, k) || t.badCols.contains k)
    if j.chain = 1 then
      let y := s.writeRead j c out r n0 vals
      y.1.count n y.2
    else
      let xs := (List.zip (List.range vals.length) vals).map fun v => s.stages j c res wrong r (n0 + v.1) v.2
      let s := if chainAc j.chain then vsuEcc s n c.acfn wrong (xs.map (·.fnIn)) else s
      let y := s.writeOutputs j c out r n0 nt xs
      y.1.count n y.2

def execEpilogueRowWrite (b : BlockId) (q : PartWords) (s : State) : Out1 :=
  let p := q.part
  match s.worker b p, (s.part b p).epi with
  | some n, t :: rest =>
    match (s.jobOf t.job).bind fun j => j.crec.map fun c => (j, c) with
    | none => .next ((s.setPart b p { s.part b p with epi := rest }).dropDone)
    | some (j, c) =>
      let ot := j.outTile t.tile
      let r := 64 * (ot % j.mt) + t.next
      let n0 := j.width * (ot / j.mt)
      let out := j.outPlane c t
      match s.gate (.epilogueRowWrite b q) (j.rowReads c out (j.resPlane c t) r n0 (j.epiCols c ot))
          (j.rowWrites c out r n0 (ot / j.mt)) with
      | some u => .next u
      | none =>
        let quires := if j.acm = .basin then [(t.acc + t.next * j.width * (2 * j.quire), j.width * (2 * j.quire))] else []
        let s := s.meet (j.rowReads c out (j.resPlane c t) r n0 (j.epiCols c ot) ++ quires)
        let s := s.epilogueRow n j c t q.bad
        let x := s.part b p
        let epi := if t.next + 1 < j.tileRows ot then { t with next := t.next + 1 } :: rest else rest
        .next (s.setPart b p { x with epi := epi }).dropDone
  | _, _ => .next s

end Sys2Proof.Machine
end

