-- ==== Sys2Proof/Machine/Vector.lean ====
section
/-!
DEFINITION. Vector instructions (08 R161, R162) and the loading of functions by strands (07 R133 to R135).
-/
namespace Sys2Proof.Machine

open Sys2Proof

/-- The operands of a vector instruction at issue. -/
structure VecOps where
  td : Tile
  ta : Tile
  tb : Option Tile
  rm : RM
  tensor : Nat
  stage : Nat
  seed : Nat
deriving DecidableEq, Repr

/-- TB has TD's dimensions, one row or one column (R161). -/
def shapeFits (a b : Tile) : Bool :=
  (b.rows == a.rows && b.cols == a.cols) || (b.rows == 1 && b.cols == a.cols) || (b.cols == 1 && b.rows == a.rows)

def vecKey (o : VecOps) : SrKey := ⟨o.seed, o.tensor, o.stage⟩

/-- The source tiles lie in the strand's region (R161). Log entry 56, DEDUCED. -/
def VecOps.inside (o : VecOps) (n : StrandId) : Bool :=
  let at_ (t : Tile) : Bool := inRegion (regionOf n) t.addr t.extent
  at_ o.ta && (match o.tb with | some t => at_ t | none => true)

/-- How an instruction uses TB: not at all, as a tile, or as the DS entries of a mode (R112, R161). -/
inductive TbUse where
  | no | tile | entries (mode : Nat)
deriving DecidableEq, Repr

/-- Bytes of the DS entries that TA takes (R112). -/
def dsLen (a : Tile) (mode : Nat) : Nat := 4 * (if mode = 0 then a.rows else ceilDiv a.cols 64 * a.rows)

/-- TB as the instruction reads it. The DS entries of VDS start at TB's address, whose shape is only held to the rule of
R161. None: a format fault. Log entry 127, DEDUCED. -/
def TbUse.view (u : TbUse) (a b : Tile) : Option Tile :=
  match u with
  | .entries mode =>
    if ((b.rows == a.rows && b.cols == a.cols) || b.rows == 1 || b.cols == 1) && b.addr % 4 == 0 then
      some { b with fmt := .fp32, sparse := 0, rows := 1, cols := dsLen a mode / 4, stride := dsLen a mode, hdr := none, hdrBad := false }
    else none
  | _ => some b

/-- The descriptor words a vector instruction names. -/
def Strand.vecWords (x : Strand) (w : Word64) (u : TbUse) : List Nat :=
  let f := fmtT w
  [x.tdw f.td, x.tdw f.ta] ++ (if u = .no then [] else [x.tdw f.tb])

/-- The scale headers it reads before it knows its operands. -/
def Strand.vecHeaders (x : Strand) (w : Word64) (u : TbUse) : List (Nat × Nat) :=
  match x.launch with
  | none => []
  | some l => headerRanges l.scaleBase (x.vecWords w u)

/-- Decoded operands; none: a format fault. -/
def State.vecOps (s : State) (n : StrandId) (w : Word64) (u : TbUse) : Option VecOps :=
  let x := s.strand n
  let f := fmtT w
  match x.launch with
  | none => none
  | some l =>
    let tile (i : Nat) : Option Tile := s.tileAt (x.tdw i) (scaleAddr l.scaleBase (x.tdw i))
    match tile f.td, tile f.ta, rmOfCode f.rm with
    | some d, some a, some rm =>
      match (if u = .no then some none else ((tile f.tb).bind (u.view a)).map some) with
      | some b =>
        let ok (t : Tile) : Bool := t.sparse == 0 && t.readOk
        if d.rows == a.rows && d.cols == a.cols && d.sparse == 0 && ok a && (match b with | some t => ok t | none => true) then
          some { td := d, ta := a, tb := b, rm := rm, tensor := (x.reg f.rt).toNat, stage := f.stg, seed := lrSeed l.lrec }
        else none
      | none => none
    | _, _, _ => none

/-- VSU lanes of the strand (R116, R162). -/
def Strand.share (x : Strand) : Nat := match x.launch with | some l => fieldLE l.sect 2 2 | none => 0

def VecOps.reads (o : VecOps) : List (Nat × Nat) :=
  o.ta.readRanges ++ (match o.tb with | some t => t.readRanges | none => []) ++ o.td.sideRanges

/-- Frame of a vector instruction: lanes, operands, window and hold, then the effect f (R161, R162, R166). -/
def vecBody (n : StrandId) (w : Word64) (c : Instr) (u : TbUse) (ok : State → VecOps → Bool)
    (writes : VecOps → List (Nat × Nat)) (f : State → VecOps → State) : Body := fun s =>
  let x := s.strand n
  if x.share = 0 then .error .sequence
  else
    match s.preRead n c (x.vecHeaders w u) with
    | some r => r
    | none =>
      let s := s.meet (x.vecHeaders w u)
      match s.vecOps n w u with
      | none => .error .format
      | some o =>
        if !winRanges x (regionOf n) (o.reads ++ writes o) then .error .sequence
        else if !ok s o || !o.inside n || !(writes o).all (fun p => p.2 == 0 || inRegion (regionOf n) p.1 p.2) then
          .error .format
        else if s.hazard n (o.reads ++ writes o) then .ok s
        else
          match s.gate c o.reads [] with
          | some t => .ok (t.holdStrand n)
          | none => .ok ((f (s.meet o.reads) o).advance n)

def tileWrites (o : VecOps) : List (Nat × Nat) := o.td.written false

/-- Element (r, c) of TB by its shape. -/
def State.srcB (s : State) (o : VecOps) (r c : Nat) : Src :=
  match o.tb with
  | none => ⟨Val.one, false, false⟩
  | some t => s.src t (if t.rows = 1 then 0 else r) (if t.cols = 1 then 0 else c)

/-- A destination of an element-wise operation (R14): an output format; a conversion may also fill an accumulator tile
by Table 2.10. -/
def dstOk (cvt : Bool) (src dst : Fmt) : Bool :=
  dst.roleO || (cvt && (dst == .accp || (dst.isQuire && (src.isPosit || src.isIntegerClass || src == dst))))

/-- Writes f of every element into TD, rounding once, and counts (R161, R43); each value comes with what its element
counts, given what is stored and the events of its conversion. -/
def State.mapTile (s : State) (n : StrandId) (o : VecOps) (f : Nat → Nat → Src × (Stored → Events → Events)) : State :=
  let rows := (List.range o.td.rows).map fun r => (List.range o.td.cols).map fun c => f r c
  let st := o.td.encodeTile s o.rm (vecKey o) 0 0 (rows.map fun r => r.map (·.1))
  let ev := (List.zip st.rows rows).foldl (fun a p => (List.zip p.1 p.2).foldl (fun a x => a.add (x.2.2 st x.1.ev)) a) {}
  (s.storeTile o.td st).count n ev

/-- An element counts the events of its conversion. -/
def keepEvents (_ : Stored) (e : Events) : Events := e

def comb2 (f : Val → Val → Val) (a b : Src) : Src := ⟨f a.v b.v, a.nan || b.nan, a.bad || b.bad⟩

/-- The smallest magnitude that an L format writes. -/
def lSmallest (f : Fmt) : Val := decodeElem f 0 [] (2 ^ (f.bits - 2) + 1)

/-- A product of two codes of one L format that is written as an L output saturates at the low end too (R28). Log entry
115, DEDUCED. -/
def lFloor (o : VecOps) (v : Val) : Val :=
  match o.tb, v, o.td.tscale with
  | some b, .fin x, .fin t =>
    let lo := (lSmallest o.td.fmt).mul (.fin t.abs)
    if o.ta.fmt.isL && b.fmt == o.ta.fmt && o.td.fmt.isL && !x.isZero && !t.isZero && (Val.fin x.abs).lt lo then
      (if x.isNeg then lo.neg else lo)
    else v
  | _, _, _ => v

/-- Element-wise operation of TA and TB. -/
def vec2 (n : StrandId) (w : Word64) (c : Instr) (s : State) (op : Nat) (f : VecOps → Val → Val → Val) : Out1 :=
  .next (s.issue n w op (zeroT w && (fmtT w).sub == 0) true
    (vecBody n w c .tile (fun _ o => dstOk false o.ta.fmt o.td.fmt && (match o.tb with | some b => shapeFits o.ta b | none => false))
      tileWrites fun s o => s.mapTile n o fun r k => (comb2 (f o) (s.src o.ta r k) (s.srcB o r k), keepEvents)))

/-- The product of VMUL. -/
def vmulVal (o : VecOps) (a b : Val) : Val := lFloor o (a.mul b)

def execVadd (n : StrandId) (w : Word64) (s : State) : Out1 := vec2 n w (.vadd n w) s 0x40 fun _ => Val.add
def execVmul (n : StrandId) (w : Word64) (s : State) : Out1 := vec2 n w (.vmul n w) s 0x41 vmulVal
def execVmax (n : StrandId) (w : Word64) (s : State) : Out1 := vec2 n w (.vmax n w) s 0x43 fun _ => Val.max
def execVmin (n : StrandId) (w : Word64) (s : State) : Out1 := vec2 n w (.vmin n w) s 0x44 fun _ => Val.min

def bFits (o : VecOps) : Bool := match o.tb with | some b => shapeFits o.ta b | none => false

def execVfma (n : StrandId) (w : Word64) (s : State) : Out1 :=
  .next (s.issue n w 0x42 (zeroT w && (fmtT w).sub == 0) true
    (vecBody n w (.vfma n w) .tile (fun _ o => dstOk false o.ta.fmt o.td.fmt && bFits o) tileWrites
      fun s o => let s := s.meet o.td.ranges; s.mapTile n o fun r k =>
        (comb2 Val.add (comb2 Val.mul (s.src o.ta r k) (s.srcB o r k)) (s.src o.td r k), keepEvents)))

def execVcmp (n : StrandId) (w : Word64) (s : State) : Out1 :=
  .next (s.issue n w 0x45 (zeroT w && (fmtT w).sub < 4) true
    (vecBody n w (.vcmp n w) .tile (fun _ o => o.td.fmt == .int8 && bFits o) tileWrites
      fun s o => s.mapTile n o fun r k =>
        let a := s.src o.ta r k
        let b := s.srcB o r k
        (⟨if (vcmpCond (fmtT w).sub a.v b.v).getD false then Val.one else Val.zero, false, a.bad || b.bad⟩, keepEvents)))

/-- No scale and no zero point changes what the tile's codes read as. -/
def Tile.plain (t : Tile) : Bool := match t.hdr with | none => true | some h => h.skind == 0 && h.tscale == 0x3F800000 && h.zp == 0

/-- Both planes of an accumulator tile, bit for bit. -/
def State.copyPlanes (s : State) (o : VecOps) : State :=
  s.writeRows ((List.range (2 * o.td.rows)).map fun r =>
    (o.td.rowAddr r, 32, (List.range o.td.cols).map fun c =>
      ⟨o.ta.code s.mem r c, {}, o.td.hdrBad || s.elemBad o.ta (r % o.td.rows) c⟩))

/-- VCVT. Table 2.10 gives ACCP to ACCP as a copy, which both planes take; where a header of either side scales the value, the value
read is what is converted. Log entry 166, DESIGN CHOICE. -/
def State.vcvt (s : State) (n : StrandId) (o : VecOps) : State :=
  if o.ta.fmt = .accp ∧ o.td.fmt = .accp ∧ o.ta.plain ∧ o.td.plain then s.copyPlanes o
  else s.mapTile n o fun r k => (s.src o.ta r k, keepEvents)

def execVcvt (n : StrandId) (w : Word64) (s : State) : Out1 :=
  .next (s.issue n w 0x46 (zeroT w && (fmtT w).sub == 0) true
    (vecBody n w (.vcvt n w) .no (fun _ o => dstOk true o.ta.fmt o.td.fmt) tileWrites
      fun s o => s.vcvt n o))

/-- What an element of VFN counts: x its input, y the function's result, e the events of writing y to format f, nan whether it
lies in a NaN block. What is written, and not y, is compared with x (R357): a written NaN is invalid or, in a NaN block with a NaN
input, not counted (R43), and nothing else; a NaN that an integer format writes as zero is an underflow. Log entry 140, DEDUCED. -/
def vfnEvents (f : Fmt) (x : Val) (y : FnRes) (nan : Bool) (e : Events) : Events :=
  let g := fnEvents x y
  let fz := x.isFinite && !x.isZero && e.inv == 0 && !nan
  { inv := e.inv, ov := if fz then max e.ov g.ov else 0,
    un := if fz then max (max e.un g.un) (b2n ((fp32 y.y).isNan && f.isIntegerClass)) else 0 }

/-- The FP32 pattern that element (r, k) gives a function: a value that FP32 does not hold is rounded RNE. Log entry 59, DEDUCED. -/
def State.fnInput (s : State) (o : VecOps) (r k : Nat) : Word := rne32 (s.src o.ta r k).v

/-- The effect of VFN; bad lists the words of the slot's live image that are uncorrectable. Log entry 59, DEDUCED. -/
def State.applyFn (s : State) (n : StrandId) (slot : Nat) (bad : List Nat) (o : VecOps) : State :=
  let v := s.vsu (regionFin n)
  let xs := (List.range o.ta.rows).flatMap fun r => (List.range o.ta.cols).map fun k => s.fnInput o r k
  (vsuEcc s n slot bad xs).mapTile n o fun r k =>
    let x := s.fnInput o r k
    let y := v.eval slot o.rm (draw o.rm (vecKey o) r k) x
    (⟨fp32 y.y, (fp32 x).isNan, (s.src o.ta r k).bad || v.readsBad slot bad x⟩,
     fun st e => vfnEvents o.td.fmt (fp32 x) y (st.nanBlock o.td r k) e)

def execVfn (n : StrandId) (w : Word64) (badWords : List Nat) (s : State) : Out1 :=
  let slot := (fmtT w).sub
  .next (s.issue n w 0x47 (zeroT w && slot < 32) true
    (vecBody n w (.vfn n w badWords) .no
      (fun s o => dstOk false o.ta.fmt o.td.fmt && (s.vsu (regionFin n)).callable slot) tileWrites
      fun s o => s.applyFn n slot badWords o))

/-- VREAD of an accumulator tile under R56: of an INT32 tile s × TSCALE, as IEEE 754 has the product. -/
def State.readTile (s : State) (o : VecOps) (pairAware : Bool) (r c : Nat) : Src :=
  if o.ta.fmt = .accp then s.srcPair o.ta pairAware r c
  else if o.ta.fmt = .int32 then
    ⟨(Val.ofInt (sext 32 (o.ta.code s.mem r c))).mul o.ta.tscale, o.ta.tscale.isNan, s.elemBad o.ta r c⟩
  else s.src o.ta r c

def execVread (n : StrandId) (w : Word64) (s : State) : Out1 :=
  .next (s.issue n w 0x48 (zeroT w && (fmtT w).sub < 2) true
    (vecBody n w (.vread n w) .no (fun _ o => dstOk false o.ta.fmt o.td.fmt && o.ta.fmt.roleAcc) tileWrites
      fun s o => s.mapTile n o fun r k => (s.readTile o ((fmtT w).sub == 1) r k, keepEvents)))

/-- Log entry 57, DEDUCED. -/
def rowVec (o : VecOps) : Bool := match o.tb with | some b => b.rows == o.ta.rows && b.cols == 1 | none => false
def colVec (o : VecOps) : Bool := match o.tb with | some b => b.cols == o.ta.cols && b.rows == 1 | none => false
def sameTb (o : VecOps) : Bool := match o.tb with | some b => b.rows == o.ta.rows && b.cols == o.ta.cols | none => false

def execVsc (n : StrandId) (w : Word64) (s : State) : Out1 :=
  let f := fmtT w
  .next (s.issue n w 0x49 (zeroT w && 1 ≤ f.sub && f.sub < 4) true
    (vecBody n w (.vsc n w) (if f.sub = 1 then .no else .tile)
      (fun _ o => dstOk false o.ta.fmt o.td.fmt && (f.sub == 1 || (f.sub == 2 && rowVec o) || (f.sub == 3 && colVec o)))
      tileWrites
      fun s o =>
        let k := fp32 ((s.strand n).freg f.f)
        s.mapTile n o fun r c =>
          (comb2 (vmulVal o) (s.src o.ta r c) (if f.sub = 1 then ⟨k, k.isNan, false⟩ else s.srcB o r c), keepEvents)))

def execVbi (n : StrandId) (w : Word64) (s : State) : Out1 :=
  let f := fmtT w
  .next (s.issue n w 0x4A (zeroT w && 1 ≤ f.sub && f.sub < 3) true
    (vecBody n w (.vbi n w) .tile
      (fun _ o => dstOk false o.ta.fmt o.td.fmt && ((f.sub == 1 && colVec o) || (f.sub == 2 && sameTb o))) tileWrites
      fun s o => s.mapTile n o fun r c => (comb2 Val.add (s.src o.ta r c) (s.srcB o r c), keepEvents)))

/-- Address of the DS entry of element (r, c) (R112). -/
def dsEntry (o : VecOps) (mode r c : Nat) : Nat :=
  match o.tb with
  | some b => b.addr + 4 * (if mode = 0 then r else c / 64 * o.ta.rows + r)
  | none => 0

/-- L code plus an offset (R112): code and events. -/
def lOffset (n code : Nat) (d : Int) : Nat × Events :=
  match lParts n code with
  | some (false, neg, l) =>
    let t := l + d
    let top : Int := 2 ^ (n - 2) - 1
    (if t < -top then 2 ^ (n - 2) else (if neg then 2 ^ (n - 1) else 0) + wrap (n - 1) (if t > top then top else t),
     { ov := b2n (decide (t > top)), un := b2n (decide (t < -top)) })
  | _ => (code, {})

/-- Rows of raw codes stored without a conversion. -/
def State.storeCodes (s : State) (n : StrandId) (t : Tile) (f : Nat → Nat → Nat × Events × Bool) : State :=
  let rows := (List.range t.rows).map fun r => (List.range t.cols).map fun c => let y := f r c; (⟨y.1, y.2.1, y.2.2⟩ : Wr)
  let st : Stored := ⟨rows, []⟩
  (s.storeTile t st).count n st.events

def execVds (n : StrandId) (w : Word64) (s : State) : Out1 :=
  let mode := (fmtT w).sub
  .next (s.issue n w 0x4B (zeroT w && mode < 2) true
    (vecBody n w (.vds n w) (.entries mode)
      (fun _ o => o.ta.fmt.isLong && dstOk false o.ta.fmt o.td.fmt || (o.ta.fmt.isL && o.td.fmt == o.ta.fmt)) tileWrites
      fun s o =>
        if o.ta.fmt.isL then
          s.storeCodes n o.td fun r c =>
            let e := dsEntry o mode r c
            let y := lOffset o.ta.fmt.bits (o.ta.code s.mem r c) (sext 32 (leValue (memGetN s.mem e 4)))
            (y.1, y.2, s.elemBad o.ta r c || (s.readHalf e 4).2)
        else
          s.mapTile n o fun r c =>
            let d := s.entry32 (dsEntry o mode r c)
            (comb2 Val.mul (s.src o.ta r c) ⟨d.1, d.1.isNan, d.2⟩, keepEvents)))

def execVlc (n : StrandId) (w : Word64) (s : State) : Out1 :=
  .next (s.issue n w 0x4C (zeroT w && (fmtT w).sub == 0) true
    (vecBody n w (.vlc n w) .tile
      (fun _ o => o.ta.fmt == .int32 && o.td.fmt == .l16 && rowVec o
        && (match o.tb with | some b => b.fmt == .int32 | none => false)) tileWrites
      fun s o => s.storeCodes n o.td fun r c =>
        let b := o.tb.getD o.ta
        let l := sext 32 (o.ta.code s.mem r c) - sext 32 (b.code s.mem r 0)
        let bad := s.elemBad o.ta r c || s.elemBad b r 0
        if l < -16383 then (0x4000, { un := 1 }, bad)
        else if 16383 < l then (Config.lcAbove (BitVec.ofInt 32 l) % 65536, {}, bad)
        else (wrap 15 l, {}, bad)))

/-! ### Row reductions (R161, Table 6.4) -/

structure RdForm where
  op : Nat
  k : Nat
  width : Nat
deriving DecidableEq, Repr

def rdForm (sub : Nat) : RdForm := ⟨sub % 8, 2 ^ fld sub 3 2, 64 / 2 ^ fld sub 5 2⟩
/-- Bytes of one entry. -/
def RdForm.bytes (f : RdForm) : Nat := match f.op with | 2 => 16 | 3 => 4 | 4 => 8 * f.k | _ => 8
def rdFmtOk (f : RdForm) (ta td : Fmt) : Bool :=
  match f.op with
  | 3 => ta == .int32 && td == .int32
  | 4 => td.isLong
  | _ => td == .fp32

/-- Element (r, c) of an L16 tile with the linear form of R29 in place of its exact value. -/
def Tile.linear (t : Tile) (m : List Host.Cell) (r c : Nat) : Val :=
  let x : Val := match lParts 16 (t.code m r c) with
    | some (false, neg, l) => let v := Val.fin (lin16 l); if neg then v.neg else v
    | _ => decodeElem .l16 0 [] (t.code m r c)
  applyTscale (applyFine x (t.fine m r c)) t.tscale

/-- The entry of row r and column tile t, its poison and its events: only the rounded values of a top-k are counted, sum
pairs are not. Log entry 120, DESIGN CHOICE. The sum pair alone is the RD of chain 6, so of an L16 tile it sums linear forms
(R119, R120). Log entry 141, DEDUCED. -/
def State.rdEntry (s : State) (o : VecOps) (f : RdForm) (r t : Nat) : List Byte × Bool × Events :=
  let cs := span (t * f.width) (min f.width (o.ta.cols - t * f.width))
  let xs := cs.map fun c => (c, s.src o.ta r c)
  let bad := xs.any fun x => x.2.bad
  let vs := xs.map fun x => x.2.v
  let sum := pairBytes (splitPair (sumVals (if f.op = 0 ∧ o.ta.fmt = .l16 then cs.map (o.ta.linear s.mem r) else vs)))
  let sq := pairBytes (splitPair (sumVals (vs.map fun v => v.mul v)))
  match f.op with
  | 0 => (sum, bad, {})
  | 1 => (sq, bad, {})
  | 2 => (sum ++ sq, bad, {})
  | 3 =>
    let ms := cs.map fun c => sext 32 (o.ta.code s.mem r c)
    (leBytes 4 (wrap 32 (ms.foldl max (ms.headD 0))), bad, {})
  | _ =>
    let ys := xs.map fun x => (x.1, x.2, encodeElem o.td.fmt 0 o.rm (draw o.rm (vecKey o) r x.1) x.2.v)
    (topkBytes f.k (ys.map fun y => (y.1, y.2.2.code, decodeElem o.td.fmt 0 [] y.2.2.code)), bad,
     ys.foldl (fun a y => a.add (elemEvents y.2.1.v y.2.1.v y.2.2 y.2.1.nan)) {})

/-- Log entry 58, DEDUCED. -/
def execVrd (n : StrandId) (w : Word64) (s : State) : Out1 :=
  let sub := (fmtT w).sub
  let f := rdForm sub
  .next (s.issue n w 0x4D (zeroT w && sub % 8 < 5 && sub < 128) true
    (vecBody n w (.vrd n w) .no (fun _ o => fld sub 5 2 != 3 && rdFmtOk f o.ta.fmt o.td.fmt)
      (fun o => [(o.td.addr, f.bytes * o.ta.rows * ceilDiv o.ta.cols f.width)])
      fun s o =>
        let es := (List.range (ceilDiv o.ta.cols f.width)).flatMap fun t =>
          (List.range o.ta.rows).map fun r => (o.td.addr + f.bytes * (t * o.ta.rows + r), s.rdEntry o f r t)
        (es.foldl (fun s e => s.write e.1 e.2.1 e.2.2.1) s).count n (es.foldl (fun a e => a.add e.2.2.2) {})))

/-! ### Loading functions (R133 to R135) -/

/-- Strand n lists slot i and the slot is loadable (R133). -/
def State.lists (s : State) (n : StrandId) (i : Nat) : Bool :=
  16 ≤ i && ((s.vsu (regionFin n)).slot i).owner == some n

def State.modSlot (s : State) (n : StrandId) (i : Nat) (f : Slot → Slot) : State :=
  s.setVsu (regionFin n) ((s.vsu (regionFin n)).modSlot i f)

/-- Bytes of the image that starts at a, by the NSEG of its header. -/
def State.imageLen (s : State) (a : Nat) : Nat := imgLen (fieldLE (memGetN s.mem a 8) 6 2)

/-- Begins a TLOAD, or puts it behind what the slot has still to do. -/
def Slot.begin_ (t : Slot) (l : TLoad) : Slot :=
  if t.load.isNone && t.waiting.isEmpty then { t with load := some l } else { t with waiting := t.waiting ++ [.load l] }

/-- The next TLOAD begins once nothing before it is held. -/
def Slot.goOn (t : Slot) : Slot :=
  match t.load, t.waiting with
  | none, .load l :: rest => { t with load := some l, waiting := rest }
  | _, _ => t

/-- Log entry 109, DEDUCED. -/
def execTload (n : StrandId) (w : Word64) (s : State) : Out1 :=
  let f := fmtT w
  .next (s.issue n w 0x4E (zeroT w && f.sub < 32) true fun s =>
    let x := s.strand n
    let a := tdAddr (x.tdw f.ta)
    if x.inWindow && !inRegion (regionOf n) a 1 then .error .sequence
    else if !s.lists n f.sub || a % 64 != 0 || !inScratch (regionOf n) a 1 || !rmOk w
        || !(tileFields (x.tdw f.ta)).any Tile.shapeOk then .error .format
    else if s.hazard n [(a, 64)] || s.hazard n [(a, s.imageLen a)] then .ok s
    else .ok ((s.modSlot n f.sub fun t => t.begin_ ⟨n, a, x.pc⟩).advance n))

/-- Slots of the strand's region with a TLOAD in progress for it. -/
def State.loadingSlots (s : State) (n : StrandId) : List Nat :=
  (List.range 32).filter fun i => match ((s.vsu (regionFin n)).slot i).load with | some l => l.strand == n | none => false

def swapSlot (t : Slot) : Slot := { t with live := t.shadow, shadow := t.live }

/-- The end of a TLOAD (R131, R134): the image enters the shadow bank, or the strand takes a format fault. A swap held
behind it stays held for TSWAP_TAKES_EFFECT. A poisoned image is no valid one. Log entry 146, DEDUCED. -/
def execTloadComplete (n : StrandId) (s : State) : Out1 :=
  match s.loadingSlots n with
  | [] => .next s
  | i :: _ =>
    if !s.unitsOn || s.asleep (regionOf n) then .next s
    else
      match ((s.vsu (regionFin n)).slot i).load with
      | none => .next s
      | some l =>
        let len := s.imageLen l.addr
        let s := s.meet [(l.addr, len)]
        let r := s.read l.addr len
        let good := inScratch (regionOf n) l.addr len && !r.2 && (parseImg r.1).isSome
        let s := s.modSlot n i fun t => { t with load := none, shadow := if good then some r.1 else none }.goOn
        if good then .next s else .next (s.strandFaultAt n .format l.pc)

def execTswap (n : StrandId) (w : Word64) (s : State) : Out1 :=
  let f := fmtT w
  .next (s.issue n w 0x4F (zeroT w && f.sub < 32) true fun s =>
    let t := (s.vsu (regionFin n)).slot f.sub
    let pc := (s.strand n).pc
    if !s.lists n f.sub || !rmOk w then .error .format
    else if t.load.isSome || !t.waiting.isEmpty then
      .ok ((s.modSlot n f.sub fun t => { t with waiting := t.waiting ++ [.swap n pc] }).advance n)
    else if t.shadow.isNone then .error .sequence
    else .ok ((s.modSlot n f.sub swapSlot).advance n))

/-- The byte offset of strand n's TSWAP that heads what waits in the slot, once no TLOAD goes before it. -/
def Slot.swapDue (t : Slot) (n : StrandId) : Option Nat :=
  match t.load, t.waiting with
  | none, .swap m pc :: _ => if m = n then some pc else none
  | _, _ => none

/-- The held TSWAP that takes effect next for strand n: its slot and its byte offset. -/
def State.dueSwap (s : State) (n : StrandId) : Option (Nat × Nat) :=
  (List.range 32).findSome? fun i => (((s.vsu (regionFin n)).slot i).swapDue n).map fun pc => (i, pc)

/-- A TSWAP held behind a TLOAD takes effect after it; with no valid shadow image it is a sequence fault at its own offset
(R135, R174). -/
def execTswapTakesEffect (n : StrandId) (s : State) : Out1 :=
  match s.dueSwap n with
  | none => .next s
  | some (i, pc) =>
    if !s.unitsOn || s.asleep (regionOf n) then .next s
    else
      let pop (t : Slot) : Slot := { t with waiting := t.waiting.tail }.goOn
      if ((s.vsu (regionFin n)).slot i).shadow.isNone then .next ((s.modSlot n i pop).strandFaultAt n .sequence pc)
      else .next (s.modSlot n i fun t => pop (swapSlot t))

end Sys2Proof.Machine
end

