-- ==== Sys2Proof/Machine/Handoff.lean ====
section
/-!
DEFINITION. Hand-offs to staging engines and queues, windows, fences, barriers and the end of a program (06 R123 to
R125; 08 R163 to R169).
-/
namespace Sys2Proof.Machine

open Sys2Proof

/-! ### Hand-offs (R163, R164) -/

def execStgrun (n : StrandId) (w : Word64) (s : State) : Out1 :=
  let f := fmtX w
  .next (s.issue n w 0x60 (f.sub < 4) false fun s =>
    let x := s.strand n
    let off := (x.reg f.a).toNat
    if off % 64 != 0 || scratchSize ≤ off then .error .format
    else .ok (s.setStrand n { x with wait := .stgrun (fin4 f.sub) off (x.reg f.b) }))

def execStgwait (n : StrandId) (w : Word64) (s : State) : Out1 :=
  let f := fmtX w
  .next (s.issue n w 0x61 (f.sub < 4) false fun s =>
    .ok (s.modStrand n fun x => { x with wait := .stgwait (fin4 f.sub) f.pd }))

/-- A waiting instruction proceeds: it sets p[PD] and the strand goes on. -/
def State.proceed (s : State) (n : StrandId) (f : Strand → Strand) : State :=
  (s.modStrand n fun x => f { x with wait := .none }).advance n

/-- The awaited program has ended. A strand that started none reads a free value, one for each engine and instruction, so
that equal runs read equal values (R257; log entry 9, DESIGN CHOICE). -/
def execStgwaitProceed (n : StrandId) (s : State) : Out1 :=
  let x := s.strand n
  match x.wait with
  | .stgwait e pd =>
    if !s.going n then .next s
    else
      match x.stg[e] with
      | .running _ => .next s
      | .ok => .next (s.proceed n fun x => x.setPred pd true)
      | .failed => .next (s.proceed n fun x => x.setPred pd false)
      | .never => .next (s.proceed n fun x => x.setPred pd (Config.stgwaitNever e.val x.pc))
  | _ => .next s

/-- The record of a LAUNCHIF with the count in argument word 0. -/
def launchRecOf (bs : List Byte) : List Byte := bs.take 0x20 ++ (bs.drop 64).take 4 ++ (bs.take 64).drop 0x24

/-- The count enters argument word 0 of the record at a, with its poison (R164, Table 9.2). -/
def State.countIn (s : State) (a : Nat) : State :=
  let c := s.read (a + 64) 4
  s.write (a + 0x20) c.1 c.2

/-- A count of a predicated-off LAUNCHIF is zero. A poisoned record goes to the ring poisoned (log entry 25, DEDUCED). -/
def execLaunchif (n : StrandId) (w : Word64) (s : State) : Out1 :=
  let f := fmtX w
  let x := s.strand n
  if s.mayIssue n w && opOf w == 0x62 && f.sub == 0 && !x.inWindow && !x.predOn w then
    .next (s.proceed n fun x => x.setPred f.pd false)
  else
    .next (s.issue n w 0x62 (f.sub == 0) false fun s =>
      let x := s.strand n
      match scratchAddr n (x.reg f.a).toNat 68 with
      | none => .error .format
      | some a =>
        if s.hazard n [(a, 68)] then .ok s
        else
          let s := s.meet [(a, 68)]
          let r := s.read a 68
          if leValue (r.1.drop 64) = 0 then .ok (s.proceed n fun x => x.setPred f.pd false)
          else .ok ((s.countIn a).setStrand n
            { x with wait := .launchif ((x.reg f.b).toNat % 2 ^ 20) (launchRecOf r.1) r.2 f.pd }))

/-! ### Windows (R125, R165, R167) -/

/-- The numbers a window's path starts from: its strand section. -/
def Strand.openWindow (x : Strand) : Strand :=
  { x with inWindow := true, broken := false,
           path := [match x.launch with | some l => leValue l.sect | none => 0] }

/-- A window completes: its length is recorded unless FUNC_DISABLE interrupted it (R317). -/
def Strand.closeWindow (x : Strand) : Strand :=
  { x with inWindow := false, broken := false, path := [],
           windowCycles := if x.broken then x.windowCycles else Config.windowCycles x.path,
           windowCount := satAdd x.windowCount 1 }

def execStart (n : StrandId) (w : Word64) (s : State) : Out1 :=
  .next (s.issue n w 0x70 ((fmtX w).sub == 0) false fun s =>
    if !s.settled n then .ok s else .ok ((s.advance n).modStrand n Strand.openWindow))

def execEndW (n : StrandId) (w : Word64) (s : State) : Out1 :=
  .next (s.issue n w 0x71 ((fmtX w).sub == 0) true fun s =>
    let x := s.strand n
    if !x.inWindow then .error .sequence else .ok (s.setStrand n { x with wait := .endW }))

def execEndComplete (n : StrandId) (s : State) : Out1 :=
  if s.going n && (s.strand n).wait == .endW && s.settled n then .next (s.proceed n Strand.closeWindow) else .next s

/-- Flags F0 to F0 + NF. -/
def flagSpan (f0 nf : Nat) : List Nat := span f0 (nf + 1)

def execArm (n : StrandId) (w : Word64) (s : State) : Out1 :=
  let f := fmtX w
  .next (s.issue n w 0x72 (f.sub == 0 && f.f0 + f.nf < 64) true fun s =>
    let x := s.strand n
    if (flagSpan f.f0 f.nf).all fun i => (armAt (x.flag i)).isSome then
      regBody n (fun x => (flagSpan f.f0 f.nf).foldl (fun x i => x.setFlag i .armed) x) s
    else .error .sequence)

/-- WAITA on an IDLE or CLOSED flag is a sequence fault; it completes an open window before it waits. -/
def execWaita (n : StrandId) (w : Word64) (s : State) : Out1 :=
  let f := fmtX w
  .next (s.issue n w 0x73 (f.sub == 0 && f.f0 + f.nf < 64) true fun s =>
    let x := s.strand n
    if (flagSpan f.f0 f.nf).any fun i => x.flag i == .idle || x.flag i == .closed then .error .sequence
    else if x.inWindow && !s.settled n then .ok s
    else
      let x := if x.inWindow then x.closeWindow else x
      .ok (s.setStrand n { x with wait := .waita f.f0 f.nf }))

def execWaitaProceed (n : StrandId) (s : State) : Out1 :=
  let x := s.strand n
  match x.wait with
  | .waita f0 nf =>
    if s.going n && (flagSpan f0 nf).all fun i => x.flag i == .set then
      let s := s.proceed n fun x => (flagSpan f0 nf).foldl (fun x i => x.setFlag i .idle) x
      .next (if (s.strand n).run == .running then s.modStrand n Strand.openWindow else s)
    else .next s
  | _ => .next s

/-! ### Fences and barriers (R169) -/

/-- Every write of the strand and of the programs it started that have ended is visible within the scope. Log entry 107, DEDUCED. -/
def State.released (s : State) (n : StrandId) (scope : Nat) : Bool :=
  s.settled n && (List.range 4).all fun k =>
    let e := s.engine (engineId n k)
    e.owner != n.val || e.run == .running || (e.bursts.isEmpty && (scope < 2 || (e.hostWrites == 0 && e.peers.isEmpty)))

def execRel (n : StrandId) (w : Word64) (s : State) : Out1 :=
  .next (s.issue n w 0x74 ((fmtX w).sub < 3) false fun s => .ok (s.modStrand n fun x => { x with wait := .rel }))

def execRelComplete (n : StrandId) (s : State) : Out1 :=
  let x := s.strand n
  let scope := match x.codeWord with | some w => (fmtX w).sub | none => 2
  if s.going n && x.wait == .rel && s.released n scope then .next (s.proceed n id) else .next s

/-- Later reads see every visible write: in this model a read sees every write applied before it. -/
def execAcq (n : StrandId) (w : Word64) (s : State) : Out1 :=
  .next (s.issue n w 0x75 ((fmtX w).sub < 3) false (regBody n id))

def execBar (n : StrandId) (w : Word64) (s : State) : Out1 :=
  let k := (fmtX w).sub
  .next (s.issue n w 0x76 (k < 16) false fun s =>
    let x := s.strand n
    let s := s.setStrand n { x with wait := .bar k }
    match x.launch with
    | none => .ok s
    | some l => .ok (s.modLaunch l.id fun y =>
        { y with barriers := assocSet k (setFld (assoc k 0 y.barriers) n.val 1 1) y.barriers }))

/-- The barrier that strand n waits at, when every strand of the launch has issued it: the launch and its strands. -/
def State.barReady (s : State) (n : StrandId) : Option (Launch × Nat) :=
  let x := s.strand n
  match x.wait, x.launch with
  | .bar k, some l =>
    match s.launchOf l.id with
    | some y => if assoc k 0 y.barriers == lrMask y.lrec then some (y, k) else none
    | none => none
  | _, _ => none

def execBarComplete (n : StrandId) (s : State) : Out1 :=
  match s.barReady n with
  | none => .next s
  | some (y, k) =>
    if !s.unitsOn then .next s
    else
      let s := s.modLaunch y.id fun y => { y with barriers := assocSet k 0 y.barriers }
      .next ((maskList (lrMask y.lrec)).foldl (fun s i =>
        if (s.strand (fin32 i)).wait == .bar k then s.proceed (fin32 i) id else s) s)

/-! ### The end of a program (R169, R222, R225, R259) -/

/-- The digest of the strand's stream enters the launch. -/
def State.noteDigest (s : State) (n : StrandId) (id : Nat) : State :=
  let h := match (s.strand n).digest with | some d => d | none => sha256 (s.engine n).shaD
  s.modLaunch id fun l => { l with digests := assocSet n.val h l.digests }

/-- Slots listed by strand n are listed by none. -/
def State.unlist (s : State) (n : StrandId) : State :=
  s.setVsu (regionFin n) { s.vsu (regionFin n) with
    slots := (s.vsu (regionFin n)).slots.map fun t => if t.owner == some n then { t with owner := none } else t }

/-- The strand's parts and slots are owned by none. -/
def State.disown (s : State) (n : StrandId) : State :=
  (s.mapOwned n fun p => { p with owner := none }).unlist n

/-- A strand after HALT: STR_PC stays at the HALT. Log entry 163, DESIGN CHOICE. -/
def Strand.atHalt (x : Strand) : Strand := { x with run := .idle, launch := none, reps := [], wait := .none }

def execHalt (n : StrandId) (w : Word64) (s : State) : Out1 :=
  .next (s.issue n w 0x77 ((fmtX w).sub == 0) false fun s =>
    let x := s.strand n
    if !s.released n 2 then .ok s
    else
      match x.launch with
      | none => .ok (s.setStrand n x.atHalt)
      | some l =>
        let s := s.noteDigest n l.id
        let s := (s.disown n).setStrand n x.atHalt
        .ok ((s.endPart n l.id true).unblock n))

end Sys2Proof.Machine
end

