-- ==== Sys2Proof/Machine/Mailbox.lean ====
section
/-!
DEFINITION. Mailboxes (08 R170; 11 R234 to R237).
-/
namespace Sys2Proof.Machine

open Sys2Proof

/-- The host reaches BAR0 and BAR2: the chip runs and the function is in D0 (R286). -/
def State.hostOn (s : State) : Bool := s.chipOn && !s.host.d3hot

/-- The host reaches the registers of the fabric units, which a device-fatal error stops (R320). -/
def State.fabricOn (s : State) : Bool := s.hostOn && !s.errlog.fatal

/-- The answer to a request to BAR0 that is not served: an Unsupported Request in D3hot (R286). -/
def State.noBar0 (s : State) : Out1 := .next (if s.chipOn && s.host.d3hot then s.refuse else s)

def State.setMbx (s : State) (m : Mailboxes) : State := { s with mbx := m }

/-- Whether an enabled bit of either pending register is set (R236). -/
def Mailboxes.enabledPending (m : Mailboxes) : Bool := (m.pend &&& m.ien) != 0 || (m.mcpend &&& m.mcien) != 0

/-- An event sets its bits; the vector goes out on the first enabled one (R236). -/
def State.mbxEvent (s : State) (pend : Word64) (mc : BitVec 2) : State :=
  let m := s.mbx
  let t := s.setMbx { m with pend := m.pend ||| pend, mcpend := m.mcpend ||| mc }
  let sets := (pend &&& ~~~m.pend &&& m.ien) != 0 || (mc &&& ~~~m.mcpend &&& m.mcien) != 0
  if sets && !m.enabledPending then t.sendMsix m.vector.toNat else t

def oneBit64 (i : Nat) : Word64 := BitVec.ofNat 64 (2 ^ i)

/-- A mailbox with a word stored, and emptied by a read. -/
def Mbx.store (m : Mbx) (v : Word64) : Mbx := { m with word := v, full := true }
def Mbx.empty (m : Mbx) : Mbx := { m with full := false }

def State.s2h (s : State) (n : StrandId) : Mbx := s.mbx.s2h[n]
def State.h2s (s : State) (n : StrandId) : Mbx := s.mbx.h2s[n]
def State.setS2h (s : State) (n : StrandId) (m : Mbx) : State := s.setMbx { s.mbx with s2h := s.mbx.s2h.set n m }
def State.setH2s (s : State) (n : StrandId) (m : Mbx) : State := s.setMbx { s.mbx with h2s := s.mbx.h2s.set n m }

/-! ### The strand's side (R170) -/

/-- Stores a strand's word in its empty mailbox; the on-full event goes to the host. -/
def State.mbxPut (s : State) (n : StrandId) (v : Word64) : State :=
  (s.setS2h n ((s.s2h n).store v)).mbxEvent (oneBit64 (32 + n.val)) 0

/-- Empties the host's mailbox; the on-empty event goes to the host. -/
def State.mbxTake (s : State) (n : StrandId) : State := (s.setH2s n (s.h2s n).empty).mbxEvent (oneBit64 n.val) 0

def pairWord (hi lo : Word) : Word64 := BitVec.ofNat 64 (hi.toNat * 2 ^ 32 + lo.toNat)
def lowWord (v : Word64) : Word := BitVec.ofNat 32 v.toNat
def highWord (v : Word64) : Word := BitVec.ofNat 32 (v.toNat / 2 ^ 32)

def execMbxw (n : StrandId) (w : Word64) (s : State) : Out1 :=
  let f := fmtX w
  .next (s.issue n w 0x80 (f.sub == 0) false fun s =>
    let x := s.strand n
    let v := pairWord (x.reg f.b) (x.reg f.a)
    if (s.s2h n).full then .ok (s.setStrand n { x with wait := .mbxw v }) else .ok ((s.mbxPut n v).advance n))

def execMbxwProceed (n : StrandId) (s : State) : Out1 :=
  match (s.strand n).wait with
  | .mbxw v => if s.going n && !(s.s2h n).full then .next ((s.mbxPut n v).proceed n id) else .next s
  | _ => .next s

/-- The word in sA (low) and sB (high); with A = B the high part, written later, stands. Log entry 162, DESIGN CHOICE. -/
def Strand.takeWord (x : Strand) (a b : Nat) (v : Word64) : Strand := (x.setReg a (lowWord v)).setReg b (highWord v)

def execMbxr (n : StrandId) (w : Word64) (s : State) : Out1 :=
  let f := fmtX w
  .next (s.issue n w 0x81 (f.sub == 0) false fun s =>
    if (s.h2s n).full then .ok ((s.mbxTake n).proceed n fun x => x.takeWord f.a f.b (s.h2s n).word)
    else .ok (s.modStrand n fun x => { x with wait := .mbxr (fin32 f.a) (fin32 f.b) }))

def execMbxrProceed (n : StrandId) (s : State) : Out1 :=
  match (s.strand n).wait with
  | .mbxr a b =>
    if s.going n && (s.h2s n).full then
      .next ((s.mbxTake n).proceed n fun x => x.takeWord a.val b.val (s.h2s n).word)
    else .next s
  | _ => .next s

def execMbxt (n : StrandId) (w : Word64) (s : State) : Out1 :=
  let f := fmtX w
  .next (s.issue n w 0x82 (f.sub < 2) false fun s =>
    regBody n (fun x => x.setPred f.pd (if f.sub = 0 then (s.h2s n).full else (s.s2h n).full)) s)

/-! ### The host's and the MC's side -/

/-- The word that an access of a half writes (R235). -/
def Mbx.wordFor (m : Mbx) (h : Half) (v : Word64) : Word64 :=
  match h with
  | .whole => v
  | _ => pairWord (lowWord v) m.latch

/-- What a host write leaves: stored when empty, else counted; a store clears the latch (R234, R235). The flag says
whether it was stored. -/
def Mbx.hostWrite (m : Mbx) (h : Half) (v : Word64) : Mbx × Bool :=
  if m.full then ({ m with latch := 0 }, false) else ({ word := m.wordFor h v, full := true, latch := 0 }, true)

def State.overrun (s : State) : State := s.setMbx { s.mbx with overrun := satAdd s.mbx.overrun 1 }

/-- A wake event of region r when it sleeps in PS3 or PS4 (R237). -/
def State.wakeIfAsleep (s : State) (r : RegionId) : State := if s.sleeping r.val then s.wake r else s

def execMbxH2sWrite (n : StrandId) (h : Half) (v : Word64) (s : State) : Out1 :=
  if !s.fabricOn then s.noBar0
  else
    match h with
    | .lower => .next (s.setH2s n { s.h2s n with latch := lowWord v })
    | _ =>
      let m := (s.h2s n).hostWrite h v
      let s := s.setH2s n m.1
      if m.2 then .next (s.wakeIfAsleep (regionFin n)) else .next s.overrun

/-- Bytes of the half that a read returns. -/
def halfBytes (h : Half) (v : Word64) : List Byte :=
  match h with
  | .whole => leBytes 8 v.toNat
  | .lower => leBytes 4 v.toNat
  | .upper => leBytes 4 (v.toNat / 2 ^ 32)

/-- A host read empties the mailbox unless it reads the lower half; the on-empty event lets a waiting MBXW proceed. -/
def execMbxS2hRead (n : StrandId) (h : Half) (s : State) : Out1 :=
  if !s.fabricOn then s.noBar0
  else
    let m := s.s2h n
    let s := s.send (.hostData (halfBytes h m.word) false)
    .next (if h == .lower then s else s.setS2h n m.empty)

def execMbxH2mcWrite (h : Half) (v : Word64) (s : State) : Out1 :=
  if !s.fabricOn then s.noBar0
  else
    match h with
    | .lower => .next (s.setMbx { s.mbx with h2mc := { s.mbx.h2mc with latch := lowWord v } })
    | _ =>
      let m := s.mbx.h2mc.hostWrite h v
      let s := s.setMbx { s.mbx with h2mc := m.1 }
      .next (if m.2 then s else s.overrun)

def execMbxMc2hRead (h : Half) (s : State) : Out1 :=
  if !s.fabricOn then s.noBar0
  else
    let m := s.mbx.mc2h
    let s := s.send (.hostData (halfBytes h m.word) false)
    .next (if h == .lower then s else s.setMbx { s.mbx with mc2h := m.empty })

/-- A 4-byte write of a lower half, held in the mailbox's latch (R235). -/
def execMailboxLatchWrite (i : Fin 33) (v : Word) (s : State) : Out1 :=
  if !s.fabricOn then s.noBar0
  else if i.val < 32 then
    let n := fin32 i.val
    .next (s.setH2s n { s.h2s n with latch := v })
  else .next (s.setMbx { s.mbx with h2mc := { s.mbx.h2mc with latch := v } })

/-- The sequencer of a region that is not asleep reads the word that the MC has left for it. Log entry 134, DESIGN CHOICE. -/
def State.sequencerReads (s : State) (r : RegionId) : State :=
  if s.sleeping r.val then s else s.setMbx { s.mbx with region := s.mbx.region.set r s.mbx.region[r].empty }

/-- The MC writes a region's mailbox; it waits while the mailbox is full. A sleeping region keeps the word, and the write
wakes it (R237). Log entry 67, DEDUCED. -/
def execMcRegionMailboxWrite (r : RegionId) (v : Word64) (s : State) : Out1 :=
  let m := s.mbx.region[r]
  if !s.unitsOn || !s.mcOn || m.full then .next s
  else .next (((s.setMbx { s.mbx with region := s.mbx.region.set r (m.store v) }).wakeIfAsleep r).sequencerReads r)

def execMbxMc2hWrite (v : Word64) (s : State) : Out1 :=
  if !s.unitsOn || !s.mcOn || s.mbx.mc2h.full then .next s
  else .next ((s.setMbx { s.mbx with mc2h := s.mbx.mc2h.store v }).mbxEvent 0 2)

def execMbxH2mcRead (s : State) : Out1 :=
  if !s.unitsOn || !s.mcOn || !s.mbx.h2mc.full then .next s
  else .next ((s.setMbx { s.mbx with h2mc := s.mbx.h2mc.empty }).mbxEvent 0 1)

end Sys2Proof.Machine
end

