-- ==== Sys2Proof/Machine/Collective.lean ====
section
/-!
DEFINITION. The collective steps on tiles of the strand's region (05 R103 to R106; 06 R121, R122; 08 R171).
-/
namespace Sys2Proof.Machine

open Sys2Proof

/-- Tile of descriptor register i; none: a format fault. -/
def State.colTile (s : State) (n : StrandId) (i : Nat) : Option Tile :=
  let x := s.strand n
  match x.launch with
  | none => none
  | some l => s.tileAt (x.tdw i) (scaleAddr l.scaleBase (x.tdw i))

/-- Address that a descriptor names, its fields and its scale header checked but not its extent (R14, R152). -/
def State.tdBase (s : State) (n : StrandId) (i : Nat) : Option Nat :=
  let w := (s.strand n).tdw i
  match (s.strand n).launch, tileFields w with
  | some l, some t =>
    if !t.shapeOk || t.addr % 4 != 0 then none
    else ((s.withHeader t (scaleAddr l.scaleBase w)).filter fun t => t.sideRanges.all fun p => inOneRange p.1 p.2).map (·.addr)
  | _, _ => none

/-- Scale headers of the descriptors a collective step names. -/
def Strand.colHeaders (x : Strand) (ds : List Nat) : List (Nat × Nat) :=
  match x.launch with
  | none => []
  | some l => headerRanges l.scaleBase (ds.map x.tdw)

/-- What comes before the operands of a collective step: RM is not reserved (R14), and the headers may be read now. -/
def colBody (n : StrandId) (w : Word64) (c : Instr) (ds : List Nat) (b : Body) : Body := fun s =>
  if !rmOk w then .error .format
  else match s.preRead n c ((s.strand n).colHeaders ds) with
    | some r => r
    | none => b (s.meet ((s.strand n).colHeaders ds))

/-- Checks of a collective step on the ranges it reads and writes, then its effect (R162, R166, R171). sides are the arrays
its scale headers name. -/
def colRun (n : StrandId) (reads writes sides : List (Nat × Nat)) (f : State → State) : Body := fun s =>
  let x := s.strand n
  if !winRanges x (regionOf n) (reads ++ writes ++ sides) then .error .sequence
  else if !(reads ++ writes).all fun p => p.2 == 0 || inRegion (regionOf n) p.1 p.2 then .error .format
  else if s.hazard n (reads ++ writes) then .ok s
  else .ok ((f (s.meet reads)).advance n)

/-- The descriptor's own ranges, without scales. -/
def Tile.body (t : Tile) : Nat × Nat := (t.addr, t.extent)

def Tile.sumWord (t : Tile) (m : List Host.Cell) (r c : Nat) : Word := BitVec.ofNat 32 (t.code m r c)
def Tile.errWord (t : Tile) (m : List Host.Cell) (r c : Nat) : Word := BitVec.ofNat 32 (t.code m (t.rows + r) c)

/-- Stores elements as raw codes, the second of a pair in the error plane. -/
def State.putPairs (s : State) (t : Tile) (rows : List (List (Nat × Nat × Bool))) : State :=
  let idx := List.zip (List.range rows.length) rows
  let rows := idx.map fun p => (t.rowAddr p.1, t.fmt.bits, p.2.map fun x => ⟨x.1, {}, x.2.2⟩)
  let errs := if t.fmt = .accp then
      idx.map fun p => (t.rowAddr (t.rows + p.1), 32, p.2.map fun x => ⟨x.2.1, {}, x.2.2⟩)
    else []
  s.writeRows (rows ++ errs)

/-- The element format of an accumulator mode. -/
def acmFmtOk (acm : Acm) (f : Fmt) : Bool :=
  match acm with
  | .pair | .chunk => f == .accp
  | .intw => f == .int32
  | .basin => f.isQuire

def quireN (f : Fmt) : Nat := f.bits / 16

def sameShape (a b : Tile) : Bool := a.fmt == b.fmt && a.rows == b.rows && a.cols == b.cols && a.sparse == 0 && b.sparse == 0

/-! ### The ordered chain (R104) -/

/-- Bytes of a promotion-list plane. -/
def planeSize (acm : Acm) (t : Tile) : Nat := (match acm with | .intw => 4 | _ => 8) * t.rows * t.cols

/-- Plane j of a list that starts at tile t. -/
def Tile.plane (t : Tile) (acm : Acm) (j : Nat) : Tile := { t with addr := t.addr + j * planeSize acm t }

/-- Element (r, c) of the running tile d after the planes of the list that starts at a. -/
def chainElem (m : List Host.Cell) (acm : Acm) (len : Nat) (d a : Tile) (planes r c : Nat) : Nat × Nat :=
  let p0 := (d.sumWord m r c, if d.fmt = .accp then d.errWord m r c else 0)
  match acm with
  | .basin => (quireCombine (quireN d.fmt) (d.code m r c) (a.code m r c), 0)
  | .intw =>
    (((List.range planes).foldl (fun (x : Word) j => x + (a.plane acm j).sumWord m r c) p0.1).toNat, 0)
  | .pair =>
    let p := (List.range planes).foldl
      (fun p j => pairPromote p ((a.plane acm j).sumWord m r c) ((a.plane acm j).errWord m r c)) p0
    (p.1.toNat, p.2.toNat)
  | .chunk =>
    let p := (List.range planes).foldl
      (fun p j => chunkPromote (chunkCloses len j (planes - 1)) p ((a.plane acm j).sumWord m r c)) p0
    (p.1.toNat, p.2.toNat)

def State.chunkLen (s : State) : Nat := if bitAt s.mgt.profile.toNat 8 then 8 else 4

def execChstep (n : StrandId) (w : Word64) (s : State) : Out1 :=
  let f := fmtT w
  .next (s.issue n w 0x90 (zeroT w && f.sub < 4) true (colBody n w (.chstep n w) [f.td, f.ta] fun s =>
    let acm := acmOf f.sub
    let planes := ((s.strand n).reg f.rt).toNat
    match s.colTile n f.td, s.colTile n f.ta with
    | some d, some a =>
      if !acmFmtOk acm d.fmt || !sameShape d a then .error .format
      else
        let list := if acm = .basin then a.body
          else (a.addr, if planes = 0 then 0 else (planes - 1) * planeSize acm a + a.extent)
        colRun n [d.body, list] [d.body] (d.sideRanges ++ a.sideRanges) (fun s =>
          let bad := (s.read d.addr d.extent).2 || (lineHalves list.1 list.2).any s.poison.contains
          s.putPairs d ((List.range d.rows).map fun r => (List.range d.cols).map fun c =>
            let e := chainElem s.mem acm s.chunkLen d a planes r c
            (e.1, e.2, bad))) s
    | _, _ => .error .format))

/-! ### The tree (R106) -/

def treeElem (m : List Host.Cell) (acm : Acm) (a b : Tile) (r c : Nat) : Nat × Nat :=
  match acm with
  | .basin => (quireCombine (quireN a.fmt) (a.code m r c) (b.code m r c), 0)
  | .intw => ((a.sumWord m r c + b.sumWord m r c).toNat, 0)
  | .pair =>
    let p := pairCombine (a.sumWord m r c, a.errWord m r c) (b.sumWord m r c, b.errWord m r c)
    (p.1.toNat, p.2.toNat)
  | .chunk => ((add32 (a.sumWord m r c) (b.sumWord m r c)).toNat, 0)

def execTrstep (n : StrandId) (w : Word64) (s : State) : Out1 :=
  let f := fmtT w
  .next (s.issue n w 0x91 (zeroT w && f.sub < 4) true (colBody n w (.trstep n w) [f.td, f.ta, f.tb] fun s =>
    let acm := acmOf f.sub
    match s.colTile n f.td, s.colTile n f.ta, s.colTile n f.tb with
    | some d, some a, some b =>
      if !acmFmtOk acm d.fmt || !sameShape d a || !sameShape d b then .error .format
      else
        colRun n [a.body, b.body] [d.body] (d.sideRanges ++ a.sideRanges ++ b.sideRanges) (fun s =>
          s.putPairs d ((List.range d.rows).map fun r => (List.range d.cols).map fun c =>
            let e := treeElem s.mem acm a b r c
            (e.1, e.2, s.elemBad a r c || s.elemBad b r c))) s
    | _, _, _ => .error .format))

/-! ### Top-k merge (R103) -/

/-- The code of a format's own value: −0, subnormals and NaNs in their canonical form (R17 to R19, R42). -/
def canonCode (f : Fmt) (code : Nat) : Nat := (encodeElem f 0 .rne 0 (decodeElem f 0 [] code)).code

/-- Entries of row r of a top-k result: position, code and value; padding slots are none. -/
def topkRow (m : List Host.Cell) (t : Tile) (k r : Nat) : List (Nat × Nat × Val) :=
  (List.range k).filterMap fun i =>
    let code := canonCode t.fmt (leValue (memGetN m (t.rowAddr r + 4 * i) 4) % 2 ^ t.fmt.bits)
    let pos := leValue (memGetN m (t.rowAddr r + 4 * k + 4 * i) 4)
    if pos = 0xFFFFFFFF then none else some (pos, code, decodeElem t.fmt 0 [] code)

/-- Both results of one row merged under the order of R101: equal values rank by position. -/
def mergeRow (m : List Host.Cell) (a b : Tile) (k r : Nat) : List Byte :=
  topkBytes k (sortBy (fun x y => decide (x.1 < y.1)) (topkRow m a k r ++ topkRow m b k r))

def execTkmerge (n : StrandId) (w : Word64) (s : State) : Out1 :=
  let f := fmtT w
  let k := 2 ^ f.sub
  .next (s.issue n w 0x92 (zeroT w && f.sub < 4) true (colBody n w (.tkmerge n w) [f.td, f.ta, f.tb] fun s =>
    match s.colTile n f.td, s.colTile n f.ta, s.colTile n f.tb with
    | some d, some a, some b =>
      let ok (t : Tile) : Bool := t.fmt.isLong && t.cols == k && 8 * k ≤ t.stride
      if !ok d || !ok a || !ok b || !sameShape d a || !sameShape d b then .error .format
      else
        let rng (t : Tile) : Nat × Nat := (t.addr, (t.rows - 1) * t.stride + 8 * k)
        colRun n [rng a, rng b] [rng d] (d.sideRanges ++ a.sideRanges ++ b.sideRanges) (fun s =>
          let out := (List.range d.rows).map fun r =>
            (d.rowAddr r, mergeRow s.mem a b k r, (s.read (a.rowAddr r) (8 * k)).2 || (s.read (b.rowAddr r) (8 * k)).2)
          out.foldl (fun s e => s.write e.1 e.2.1 e.2.2) s) s
    | _, _, _ => .error .format))

/-! ### Softmax statistics (R121) -/

structure SoftAcc where
  m : Int
  acc : Word × Word
deriving DecidableEq, Repr

/-- A pair times the linear form of a code sum, as a pair (R114, R121). -/
def pscale (p : Word × Word) (d : Int) : Word × Word :=
  let l := Val.fin (lin16 d)
  splitPair (((fp32 p.1).mul l).add ((fp32 p.2).mul l))

/-- One more column tile of a row. -/
def SoftAcc.step (x : SoftAcc) (mt : Int) (p : Word × Word) : SoftAcc :=
  if x.m < mt then
    let acc := pscale x.acc (x.m - mt)
    ⟨mt, pairPromote acc p.1 p.2⟩
  else
    let q := pscale p (mt - x.m)
    ⟨x.m, pairPromote x.acc q.1 q.2⟩

/-- The combine of a row over its tiles, with what precedes tile 0. -/
def softFold : Option SoftAcc → List (Int × (Word × Word)) → SoftAcc
  | some x, ts => ts.foldl (fun x t => x.step t.1 t.2) x
  | none, t :: ts => ts.foldl (fun x t => x.step t.1 t.2) ⟨t.1, t.2⟩
  | none, [] => ⟨0, (0, 0)⟩

def memWord (m : List Host.Cell) (a : Nat) : Word := BitVec.ofNat 32 (leValue (memGetN m a 4))
def memInt (m : List Host.Cell) (a : Nat) : Int := sext 32 (leValue (memGetN m a 4))
/-- A pair of FP32 values, read under R17 to R19. -/
def memPair (m : List Host.Cell) (a : Nat) : Word × Word := (flush32 (memWord m a), flush32 (memWord m (a + 4)))

/-- tdTA holds T rows by RS columns and tdTB T rows by 2 × RS, else a format fault (log entry 26, DEDUCED). -/
def execSmxc (n : StrandId) (w : Word64) (s : State) : Out1 :=
  let f := fmtT w
  .next (s.issue n w 0x93 (zeroT w && f.sub < 2) true (colBody n w (.smxc n w) [f.td, f.ta, f.tb] fun s =>
    let x := s.strand n
    let t := (x.reg f.rt).toNat
    match s.tdBase n f.td, s.colTile n f.ta, s.colTile n f.tb with
    | some o, some a, some b =>
      let rs := a.cols
      if a.fmt != .int32 || b.fmt != .fp32 || a.rows != t || b.rows != t || b.cols != 2 * rs
        || a.sparse != 0 || b.sparse != 0 then .error .format
      else
        let out := (o, 12 * rs)
        colRun n ([a.body, b.body] ++ (if f.sub = 1 then [out] else [])) [out] (a.sideRanges ++ b.sideRanges) (fun s =>
          let rows := (List.range rs).map fun r =>
            let ts := (List.range t).map fun i => (memInt s.mem (a.rowAddr i + 4 * r), memPair s.mem (b.rowAddr i + 8 * r))
            let prev : Option SoftAcc :=
              if f.sub = 1 then some ⟨memInt s.mem (o + 4 * r), memPair s.mem (o + 4 * rs + 8 * r)⟩ else none
            let bad := ((List.range t).any fun i => s.elemBad a i r || s.elemBad b i (2 * r) || s.elemBad b i (2 * r + 1))
              || (f.sub == 1 && ((s.read (o + 4 * r) 4).2 || (s.read (o + 4 * rs + 8 * r) 8).2))
            (r, softFold prev ts, bad)
          rows.foldl (fun s e =>
            (s.write (o + 4 * e.1) (leBytes 4 (wrap 32 e.2.1.m)) e.2.2).write (o + 4 * rs + 8 * e.1)
              (pairBytes e.2.1.acc) e.2.2) s) s
    | _, _, _ => .error .format))

/-- d[t][r] := tdTA[t][r] − m[r]; a difference outside INT32 is a free value (log entry 27, DESIGN CHOICE). -/
def smxdCode (a b : Int) : Nat :=
  let d := a - b
  if -(2 ^ 31) ≤ d ∧ d < 2 ^ 31 then wrap 32 d else (Config.smxdOver (BitVec.ofInt 32 a) (BitVec.ofInt 32 b)).toNat

def execSmxd (n : StrandId) (w : Word64) (s : State) : Out1 :=
  let f := fmtT w
  .next (s.issue n w 0x94 (zeroT w && f.sub == 0) true (colBody n w (.smxd n w) [f.td, f.ta, f.tb] fun s =>
    match s.colTile n f.td, s.colTile n f.ta, s.tdBase n f.tb with
    | some d, some a, some m =>
      if d.fmt != .int32 || !sameShape d a then .error .format
      else
        colRun n [a.body, (m, 4 * a.cols)] [d.body] (d.sideRanges ++ a.sideRanges) (fun s =>
          s.putPairs d ((List.range d.rows).map fun t => (List.range d.cols).map fun r =>
            (smxdCode (memInt s.mem (a.rowAddr t + 4 * r)) (memInt s.mem (m + 4 * r)), 0,
             s.elemBad a t r || (s.read (m + 4 * r) 4).2))) s
    | _, _, _ => .error .format))

/-! ### Norm statistics (R122) -/

/-- tdTA is FP32, T rows of RS entries of one or two pairs, else a format fault (log entry 26, DEDUCED). -/
def execPrcomb (n : StrandId) (w : Word64) (s : State) : Out1 :=
  let f := fmtT w
  .next (s.issue n w 0x95 (zeroT w && f.sub < 4) true (colBody n w (.prcomb n w) [f.td, f.ta] fun s =>
    let x := s.strand n
    let t := (x.reg f.rt).toNat
    let two := bitAt f.sub 1
    let from_ := bitAt f.sub 0
    let np := if two then 2 else 1
    match s.tdBase n f.td, s.colTile n f.ta with
    | some o, some a =>
      if a.fmt != .fp32 || a.rows != t || a.cols % (2 * np) != 0 || a.sparse != 0 then .error .format
      else
        let k := a.cols / 2
        let out := (o, 8 * k)
        colRun n ([a.body] ++ (if from_ then [out] else [])) [out] a.sideRanges (fun s =>
          let es := (List.range k).map fun i =>
            let ps := (List.range t).map fun j => memPair s.mem (a.rowAddr j + 8 * i)
            let ps := if from_ then memPair s.mem (o + 8 * i) :: ps else ps
            let r := match ps with
              | [] => (0, 0)
              | p :: qs => qs.foldl (fun p q => pairPromote p q.1 q.2) p
            (i, r)
          let bad (i : Nat) : Bool :=
            let i0 := i / np * np
            ((List.range t).any fun j => (List.range (2 * np)).any fun c => s.elemBad a j (2 * i0 + c))
              || (from_ && (s.read (o + 8 * i0) (8 * np)).2)
          es.foldl (fun t e => t.write (o + 8 * e.1) (pairBytes e.2) (bad e.1)) s) s
    | _, _ => .error .format))

end Sys2Proof.Machine
end

