-- ==== Sys2Proof/Machine/Session.lean ====
section
/-!
DEFINITION. Sessions and KV pages: the strand's session instructions and the commands of the session engine (08 R172; 11
R217, R228 to R233), and the strand's digest instructions (08 R173, 12 R259).
-/
namespace Sys2Proof.Machine

open Sys2Proof

def State.setSe (s : State) (e : Se) : State := { s with se := e }

/-! ### Free pages and slots (R229, R232) -/

/-- Pages on the free list. -/
def Se.free (e : Se) : Nat := e.freed.length + (e.limit - e.next)

/-- A pool page from the free list. -/
def Se.takePage (e : Se) : Option (Nat × Se) :=
  match e.freed with
  | k :: t => some (k, { e with freed := t })
  | [] => if e.next < e.limit then some (e.next, { e with next := e.next + 1 }) else none

def Se.freePage (e : Se) (k : Nat) : Se := { e with freed := k :: e.freed }

/-- A spill slot (log entry 29, DESIGN CHOICE: freed slots first, then the lowest unused). -/
def Se.takeSlot (e : Se) : Option (Nat × Se) :=
  match e.slotFreed with
  | j :: t => some (j, { e with slotFreed := t })
  | [] => if e.slotNext < e.spillslots.toNat then some (e.slotNext, { e with slotNext := e.slotNext + 1 }) else none

/-- The slots that the next n pages would take. -/
def Se.slotsFor (e : Se) : Nat → List Nat
  | 0 => []
  | n + 1 => match e.takeSlot with
    | none => []
    | some (j, f) => j :: f.slotsFor n

def Se.freeSlot (e : Se) (j : Nat) : Se := { e with slotFreed := j :: e.slotFreed }

/-- Page numbers are device addresses over 64 KiB (R172). -/
def Se.firstPage (e : Se) : Nat := e.poolbase.toNat / 0x10000
def Se.pageAddr (e : Se) (k : Nat) : Nat := e.poolbase.toNat + 0x10000 * k
def Se.sumAddr (e : Se) (k : Nat) : Nat := e.sumbase.toNat + 64 * k
def Se.slotAddr (e : Se) (j : Nat) : Nat := e.spillbase.toNat + 0x10000 * j
def Se.slotSum (e : Se) (j : Nat) : Nat := e.spillsumbase.toNat + 64 * j

/-- A page of the pool that is on no free list. -/
def Se.allocated (e : Se) (k : Nat) : Bool := k < e.next && !e.freed.contains k

/-- A command of the SE runs: a spill, or a recall that a strand waits for. -/
def State.seBusy (s : State) : Bool :=
  s.se.spilling.isSome || s.strands.toList.any fun x => match x.wait with | .slook .. => true | _ => false

/-- A session operation or a command of the SE that waits, as it reached the SE. -/
def State.seOp (s : State) (c : Instr) : Bool :=
  match c with
  | .salloc n _ => s.retrying n
  | .slook n _ => s.retrying n
  | .sfree n _ => s.retrying n
  | .ssum n _ => s.retrying n
  | .initpool => true
  | .openS _ => true
  | .closeS _ => true
  | .spill _ => true
  | _ => false

/-- Another operation reached the SE before c and waits: they are carried out one at a time, in order (R230). -/
def State.seBehind (s : State) (c : Instr) : Bool :=
  match s.coh.held.find? s.seOp with
  | some d => d != c
  | none => false

/-- The SE does not take operation c now: it is stopped and c has not begun, or it is busy, or others come first (R230, R316, R318). -/
def State.seWaits (s : State) (c : Instr) : Bool :=
  (s.seStopped && (s.se.faulted || !s.resumes c)) || s.seBusy || s.seBehind c

/-! ### Session table and directory (R228) -/

structure SessEnt where
  addr : Nat
  state : Nat
  nidx : Nat
  dir : Nat
  resident : Nat
  spilled : Nat
  bad : Bool
deriving DecidableEq, Repr

def State.sessAddr (s : State) (i : Nat) : Nat := s.se.stbase.toNat + 64 * i

def State.sessEnt (s : State) (i : Nat) : SessEnt :=
  let a := s.sessAddr i
  let r := s.read a 64
  { addr := a, state := fieldLE r.1 0 1, nidx := fieldLE r.1 4 4, dir := fieldLE r.1 8 8, resident := fieldLE r.1 0x10 4,
    spilled := fieldLE r.1 0x14 4, bad := r.2 }

structure DirEnt where
  addr : Nat
  loc : Nat
  spilled : Bool
  valid : Bool
  bad : Bool
deriving DecidableEq, Repr

def State.dirEnt (s : State) (e : SessEnt) (i : Nat) : DirEnt :=
  let a := e.dir + 4 * i
  let r := s.readHalf a 4
  let v := leValue r.1
  { addr := a, loc := fld v 0 24, spilled := bitAt v 30, valid := bitAt v 31, bad := r.2 }

def dirBytes (loc : Nat) (spilled valid : Bool) : List Byte :=
  leBytes 4 (loc % 2 ^ 24 + b2n spilled * 2 ^ 30 + b2n valid * 2 ^ 31)

/-- Counts of resident and spilled pages written back to an entry. -/
def State.setCounts (s : State) (e : SessEnt) (resident spilled : Nat) : State :=
  s.write (e.addr + 0x10) (leBytes 4 resident ++ leBytes 4 spilled) false

/-- A poisoned or offline entry is logged (R321; log entry 30, DEDUCED). -/
def State.logEntry (s : State) (a sess : Nat) : State := (s.readMark a 4).logEv 1 3 0x51 0x1A a (sess % 2 ^ 20)

/-- What an operation finds at an index: nothing to act on, a bad line, or the entries. -/
inductive Found where
  | none
  | bad (addr : Nat)
  | at (e : SessEnt) (d : DirEnt)
deriving DecidableEq, Repr

/-- Looks up index i of session q (R230). -/
def State.find (s : State) (q i : Nat) : Found :=
  if 2 ^ 20 ≤ q then .none
  else
    let e := s.sessEnt q
    if e.bad then .bad e.addr
    else if e.state != 1 || e.nidx ≤ i then .none
    else
      let d := s.dirEnt e i
      if d.bad then .bad d.addr else .at e d

/-- A session instruction is held while the SE is disabled or busy (R230, R318). -/
def State.seHold (s : State) (n : StrandId) (c : Instr) : Option State :=
  if s.seWaits c then some ((s.hold c).holdStrand n) else none

/-- What a look-up of index i of session q reads: the session entry, and of an open session the directory entry. Each may
be read only once the gate lets it pass (R296, R311), so the entry comes first. -/
def State.findGate (s : State) (c : Instr) (q i : Nat) : Option State :=
  if 2 ^ 20 ≤ q then none
  else
    match s.gate c [(s.sessAddr q, 64)] [] with
    | some t => some t
    | none =>
      let e := s.sessEnt q
      if e.bad || e.state != 1 || e.nidx ≤ i then none else s.gate c [(e.addr, 64), (e.dir + 4 * i, 4)] []

/-- The session entry of session q is read. -/
def State.meetSess (s : State) (q : Nat) : State := s.meet [(s.sessAddr q, 64)]

/-- What a look-up of index i of session q reads is read. -/
def State.meetFind (s : State) (q i : Nat) : State :=
  if 2 ^ 20 ≤ q then s
  else
    let s := s.meetSess q
    let e := s.sessEnt q
    if e.bad || e.state != 1 || e.nidx ≤ i then s else s.meet [(e.dir + 4 * i, 4)]

/-- A session instruction: its own row, opcode and effect, given the look-up of session sB at index IMM. -/
def sessRun (n : StrandId) (w : Word64) (op : Nat) (c : Instr) (s : State)
    (writes : SessEnt → DirEnt → List (Nat × Nat)) (f : State → Found → State) : State :=
  s.issue n w op ((fmtX w).sub == 0) false fun s =>
    match s.seHold n c with
    | some t => .ok t
    | none =>
      let x := s.strand n
      let q := (x.reg (fmtX w).b).toNat
      match s.findGate c q (fmtX w).imm with
      | some t => .ok (t.holdStrand n)
      | none =>
        let s := s.meetFind q (fmtX w).imm
        let r := s.find q (fmtX w).imm
        match r with
        | .at e d =>
          match s.gate c [] (writes e d) with
          | some t => .ok (t.holdStrand n)
          | none => .ok (f s r)
        | _ => .ok (f s r)

/-- Ends a session instruction with p[PD] false. -/
def State.sessFail (s : State) (n : StrandId) (pd : Nat) : State := s.proceed n fun x => x.setPred pd false

def entWrites (e : SessEnt) (d : DirEnt) : List (Nat × Nat) := [(e.addr + 0x10, 8), (d.addr, 4)]

def execSalloc (n : StrandId) (w : Word64) (s : State) : Out1 :=
  let f := fmtX w
  .next (sessRun n w 0xA0 (.salloc n w) s (fun e d => if d.valid then [] else entWrites e d) fun s r =>
    let q := ((s.strand n).reg f.b).toNat
    match r with
    | .none => s.sessFail n f.pd
    | .bad a => (s.logEntry a q).sessFail n f.pd
    | .at e d =>
      if d.valid then s.sessFail n f.pd
      else
        match s.se.takePage with
        | none => s.sessFail n f.pd
        | some (k, se) =>
          let page := se.firstPage + k
          let s := (s.setSe se).write d.addr (dirBytes page false true) false
          (s.setCounts e (e.resident + 1) e.spilled).proceed n fun x =>
            (x.setReg f.a (BitVec.ofNat 32 page)).setPred f.pd true)

/-- Pins a page for a launch, once (R231). Log entry 76, DEDUCED. -/
def Se.pin (e : Se) (launch page : Nat) : Se :=
  let p : Pin := ⟨launch, page⟩
  if e.pins.contains p then e else { e with pins := p :: e.pins }

/-- No pin is free for this page. -/
def Se.pinsFull (e : Se) (launch page : Nat) : Bool := 524288 ≤ e.pins.length && !e.pins.contains ⟨launch, page⟩

def Strand.launchId (x : Strand) : Nat := match x.launch with | some l => l.id | none => 0

/-- SLOOK returns and pins the page. -/
def State.lookDone (s : State) (n : StrandId) (a pd page : Nat) : State :=
  (s.setSe (s.se.pin (s.strand n).launchId page)).proceed n fun x =>
    (x.setReg a (BitVec.ofNat 32 page)).setPred pd true

def execSlook (n : StrandId) (w : Word64) (s : State) : Out1 :=
  let f := fmtX w
  .next (sessRun n w 0xA1 (.slook n w) s (fun _ _ => []) fun s r =>
    let x := s.strand n
    let q := (x.reg f.b).toNat
    match r with
    | .none => s.sessFail n f.pd
    | .bad a => (s.logEntry a q).sessFail n f.pd
    | .at _ d =>
      if !d.valid then s.sessFail n f.pd
      else if !d.spilled then
        if s.se.pinsFull x.launchId d.loc then (s.hold (.slook n w)).holdStrand n else s.lookDone n f.a f.pd d.loc
      else
        match s.se.takePage with
        | none =>
          (s.setSe { s.se with recallFail := satAdd s.se.recallFail 1 }).sessFail n f.pd
        | some (k, _) =>
          if s.se.pinsFull x.launchId (s.se.firstPage + k) || !s.cxlOn then (s.hold (.slook n w)).holdStrand n
          else
            let a := s.se.slotAddr d.loc
            let s := { s with host := { s.host with d2h := s.host.d2h ++ [(D2HAgent.se, true, a, 0x10000)] } }
            (s.send (.d2hRead .se a 0x10000)).modStrand n fun x => { x with wait := .slook (fin32 f.a) q f.imm f.pd })

/-- Removes the oldest outstanding D2H request of an agent of one kind. -/
def dropD2h (a : D2HAgent) (isRead : Bool) : List (D2HAgent × Bool × Nat × Nat) → List (D2HAgent × Bool × Nat × Nat)
  | [] => []
  | r :: t => if r.1 == a && r.2.1 == isRead then t else r :: dropD2h a isRead t

def State.dropD2h (s : State) (a : D2HAgent) (isRead : Bool) : State :=
  { s with host := { s.host with d2h := Sys2Proof.Machine.dropD2h a isRead s.host.d2h } }

/-- The slot's content has arrived: it enters a pool page with its summary, and the entry turns resident (R233). A copy in
flight ends even while the SE is disabled (R316). -/
def State.recallDone (s : State) (n : StrandId) (data : List Byte) (poisoned : Bool) : State :=
  match (s.strand n).wait with
  | .slook a q i pd =>
    if !s.unitsOn || s.se.faulted || data.length != 0x10000 then s
    else
      let c : Instr := .recall n data poisoned
      match s.findGate c q i with
      | some t => t
      | none =>
        let s := s.meetFind q i
        match s.find q i, s.se.takePage with
        | .at e d, some (k, se) =>
          let dst := se.pageAddr k
          match s.gate c [(se.slotSum d.loc, 64)] (entWrites e d ++ [(dst, 0x10000), (se.sumAddr k, 64)]) with
          | some t => t
          | none =>
            let s := s.meet [(se.slotSum d.loc, 64)]
            let sum := s.read (se.slotSum d.loc) 64
            let s := if poisoned then s.rasCorrected 4 else s
            let s := ((s.dropD2h .se true).setSe (se.freeSlot d.loc)).write dst data poisoned
            let s := s.write (se.sumAddr k) sum.1 sum.2
            let s := s.write d.addr (dirBytes (se.firstPage + k) false true) false
            let s := s.setCounts e (e.resident + 1) (e.spilled - 1)
            s.lookDone n a.val pd (se.firstPage + k)
        | .bad x, _ => ((s.dropD2h .se true).logEntry x q).sessFail n pd
        | _, _ => (s.dropD2h .se true).sessFail n pd
  | _ => s

def execSfree (n : StrandId) (w : Word64) (s : State) : Out1 :=
  let f := fmtX w
  .next (sessRun n w 0xA2 (.sfree n w) s (fun e d => if d.valid then entWrites e d else []) fun s r =>
    let q := ((s.strand n).reg f.b).toNat
    match r with
    | .none => s.advance n
    | .bad a => (s.logEntry a q).advance n
    | .at e d =>
      if !d.valid then s.advance n
      else
        let se := if d.spilled then s.se.freeSlot d.loc else s.se.freePage (d.loc - s.se.firstPage)
        let s := (s.setSe se).write d.addr (dirBytes d.loc d.spilled false) false
        (if d.spilled then s.setCounts e e.resident (e.spilled - 1) else s.setCounts e (e.resident - 1) e.spilled).advance n)

/-- SSUM names a page: one that is in the pool and allocated takes the summary. -/
def execSsum (n : StrandId) (w : Word64) (s : State) : Out1 :=
  let f := fmtX w
  .next (s.issue n w 0xA3 (f.sub == 0) false fun s =>
    let x := s.strand n
    match scratchAddr n (x.reg f.a).toNat 64 with
    | none => .error .format
    | some a =>
      if s.hazard n [(a, 64)] then .ok s
      else
        match s.seHold n (.ssum n w) with
        | some t => .ok t
        | none =>
          let page := (x.reg f.b).toNat
          let k := page - s.se.firstPage
          if page < s.se.firstPage || s.se.poolpages.toNat ≤ k || !s.se.allocated k then .ok (s.advance n)
          else
            match s.gate (.ssum n w) [] [(s.se.sumAddr k, 64)] with
            | some t => .ok (t.holdStrand n)
            | none =>
              let s := s.meet [(a, 64)]
              let r := s.read a 64
              .ok ((s.write (s.se.sumAddr k) r.1 r.2).advance n))

/-! ### Digests (R173, R202, R259) -/

/-- Whether the strand's launch asks for a digest that is not yet finished. -/
def Strand.wantsDigest (x : Strand) : Bool :=
  (match x.launch with | some l => lrDigest l.lrec | none => false) && x.digest.isNone

/-- One record of a strand's stream: kind, length, bytes. -/
def digestRecord (kind : Nat) (bs : List Byte) : List Byte := BitVec.ofNat 8 kind :: leBytes 4 bs.length ++ bs

def execDgadd (n : StrandId) (w : Word64) (s : State) : Out1 :=
  let f := fmtX w
  .next (s.issue n w 0xB0 (f.sub < 2) false fun s =>
    let x := s.strand n
    let len := (x.reg f.b).toNat
    if !x.wantsDigest then .ok (s.advance n)
    else
      match scratchAddr n (x.reg f.a).toNat len with
      | none => .error .format
      | some a =>
        if s.hazard n [(a, len)] then .ok s
        else
          let s := s.meet [(a, len)]
          .ok ((s.modEngine n fun e => { e with shaD := e.shaD ++ digestRecord f.sub (memGetN s.mem a len) }).advance n))

def execDgfin (n : StrandId) (w : Word64) (s : State) : Out1 :=
  .next (s.issue n w 0xB1 ((fmtX w).sub == 0) false fun s =>
    if (s.strand n).wantsDigest then
      regBody n (fun x => { x with digest := some (sha256 (s.engine n).shaD) }) s
    else .ok (s.advance n))

/-! ### Commands of the SE (R217, R229, R232, R233) -/

/-- Ends an SE command: done, or refused with an error code. -/
def State.seDone (s : State) : State := s.setSe { s.se with state := 2, err := 0 }
def State.seRefuse (s : State) (err : Nat) : State := s.setSe { s.se with state := 3, err := err }

/-- The register fields of an SE command as GO starts it. -/
def State.seCmd (s : State) (op sess : Nat) : State :=
  s.setSe { s.se with op := BitVec.ofNat 4 op, session := BitVec.ofNat 20 sess }

/-- The SE takes a command now; one that finds it busy or disabled waits with STATE 1. -/
def seRun (op sess : Nat) (c : Instr) (s : State) (f : State → State) : Out1 :=
  if !s.fabricOn then s.noBar0
  else if s.se.state = 1 then .next s
  else
    let s := s.seCmd op sess
    if s.seWaits c then .next ((s.hold c).setSe { s.se with state := 1 }) else .next (f s)

/-- The command when the accesses it needs may be applied, else it waits with STATE 1. -/
def seGate (c : Instr) (s : State) (reads writes : List (Nat × Nat)) (f : State → State) : State :=
  match s.gate c reads writes with
  | some t => t.setSe { t.se with state := 1 }
  | none => f s

/-- Bits of a base register that are kept (Table 11.9; log entry 31, DEDUCED). -/
def alignDown (v k : Nat) : Nat := v / k * k

def execSeBaseWrite (r : SeReg) (v : Word64) (s : State) : Out1 :=
  if !s.fabricOn then s.noBar0
  else
    let e := s.se
    if e.openCount ≠ 0 ∨ e.free < e.poolpages.toNat then .next (s.seRefuse 6)
    else
      let al (k : Nat) : Word64 := BitVec.ofNat 64 (alignDown v.toNat k)
      .next (s.setSe (match r with
        | .stbase => { e with stbase := al 0x4000000 }
        | .poolbase => { e with poolbase := al 0x10000 }
        | .poolpages => { e with poolpages := BitVec.ofNat 24 v.toNat }
        | .sumbase => { e with sumbase := al 64 }
        | .spillbase => { e with spillbase := al 0x10000 }
        | .spillslots => { e with spillslots := BitVec.ofNat 24 v.toNat, slotFreed := [], slotNext := 0 }
        | .spillsumbase => { e with spillsumbase := al 64 }))

/-- Every pool page goes on the free list, unless pages of it are allocated. -/
def execInitpool (s : State) : Out1 :=
  seRun 1 s.se.session.toNat .initpool s fun s =>
    let e := s.se
    if e.free < e.limit then s.seRefuse 5
    else (s.setSe { e with freed := [], next := 0, limit := e.poolpages.toNat }).seDone

/-- Log entry 68, DEDUCED. -/
def execOpenS (i : SessionId) (s : State) : Out1 :=
  seRun 2 i.val (.openS i) s fun s => seGate (.openS i) s [(s.sessAddr i.val, 64)] [] fun s =>
    let s := s.meetSess i.val
    let e := s.sessEnt i.val
    if e.bad then (s.logEntry e.addr i.val).seRefuse 1
    else if e.state ≠ 0 then s.seRefuse 2
    else if e.nidx = 0 ∨ 65536 < e.nidx ∨ e.dir % 64 ≠ 0 ∨ 0xF000000000 < e.dir + 4 * e.nidx then s.seRefuse 1
    else seGate (.openS i) s [] [(e.addr, 64), (e.dir, 4 * e.nidx)] fun s =>
      let s := s.write e.dir (List.replicate (4 * e.nidx) 0) false
      let s := (s.write e.addr [1] false).setCounts e 0 0
      (s.setSe { s.se with openCount := s.se.openCount + 1 }).seDone

/-- Directory entries of a session that hold a page, by index. -/
def State.heldPages (s : State) (e : SessEnt) : List DirEnt :=
  ((List.range e.nidx).map (s.dirEnt e)).filter fun d => d.valid && !d.bad

/-- Logs each poisoned directory entry of session q that the SE reads (R321). -/
def State.logBadEntries (s : State) (q : Nat) (e : SessEnt) : State :=
  ((List.range e.nidx).map (s.dirEnt e)).foldl (fun t d => if d.bad then t.logEntry d.addr q else t) s

/-- A poisoned directory entry names no page that CLOSE could free (log entry 30, DEDUCED). -/
def execCloseS (i : SessionId) (s : State) : Out1 :=
  seRun 3 i.val (.closeS i) s fun s => seGate (.closeS i) s [(s.sessAddr i.val, 64)] [] fun s =>
    let s := s.meetSess i.val
    let e := s.sessEnt i.val
    if e.bad then (s.logEntry e.addr i.val).seRefuse 1
    else if e.state ≠ 1 then s.seRefuse 2
    else seGate (.closeS i) s [(e.dir, 4 * e.nidx)] [] fun s =>
      let s := s.meet [(e.dir, 4 * e.nidx)]
      let ds := s.heldPages e
      if ds.any (fun d => !d.spilled && s.se.pins.any fun p => p.page == d.loc) then (s.logBadEntries i.val e).seRefuse 4
      else seGate (.closeS i) s [] [(e.addr, 64)] fun s =>
        let s := s.logBadEntries i.val e
        let se := ds.foldl (fun se d => if d.spilled then se.freeSlot d.loc else se.freePage (d.loc - se.firstPage)) s.se
        let s := ((s.setSe { se with openCount := se.openCount - 1 }).write e.addr [0] false).setCounts e 0 0
        s.seDone

def Se.isPinned (e : Se) (page : Nat) : Bool := e.pins.any fun p => p.page == page

/-- Goes on with a spill from index i: the next resident page that is not pinned starts its copy. Pinned pages are
counted. What the gate stops waits as the SPILL at its index. fuel bounds the indices. -/
def spillGo (q : SessionId) (e : SessEnt) : Nat → Nat → State → State
  | 0, _, s => (s.setSe { s.se with spilling := none }).seDone
  | fuel + 1, i, s =>
    let wait (t : State) : State := t.setSe { t.se with spilling := some ⟨q.val, i, none⟩, state := 1 }
    if s.seStopped || !s.cxlOn then wait (s.hold (.spill q))
    else match s.gate (.spill q) [(e.addr, 64), (e.dir + 4 * i, 4)] [] with
    | some t => wait t
    | none =>
      let s := s.meet [(e.dir + 4 * i, 4)]
      let d := s.dirEnt e i
      if d.bad then spillGo q e fuel (i + 1) (s.logEntry d.addr q.val)
      else if !d.valid || d.spilled then spillGo q e fuel (i + 1) s
      else if s.se.isPinned d.loc then
        spillGo q e fuel (i + 1) (s.setSe { s.se with skipped := satAddN 16 s.se.skipped 1 })
      else
        match s.se.takeSlot with
        | none => (s.setSe { s.se with spilling := none }).seRefuse 3
        | some (j, se) =>
          let page := se.pageAddr (d.loc - se.firstPage)
          match s.gate (.spill q) [(page, 0x10000)] [] with
          | some t => wait t
          | none =>
            let s := s.meet [(page, 0x10000)]
            let r := s.read page 0x10000
            let a := se.slotAddr j
            let s := s.setSe { se with spilling := some ⟨q.val, i, some j⟩, state := 1 }
            let s := { s with host := { s.host with d2h := s.host.d2h ++ [(D2HAgent.se, false, a, 0x10000)] } }
            s.send (.d2hWrite .se a r.1 r.2)

/-- A spill of session i that waits at the gate between two pages. -/
def Se.spillWaits (e : Se) (i : SessionId) : Option Nat :=
  match e.spilling with
  | some p => if p.session = i.val ∧ p.slot.isNone then some p.idx else none
  | none => none

def execSpill (i : SessionId) (s : State) : Out1 :=
  match s.se.spillWaits i with
  | some k =>
    if !s.unitsOn || s.seStopped then .next (s.hold (.spill i))
    else
      let e := s.sessEnt i.val
      .next (spillGo i e (e.nidx - k) k s)
  | none =>
    seRun 4 i.val (.spill i) s fun s => seGate (.spill i) s [(s.sessAddr i.val, 64)] [] fun s =>
      let s := s.meetSess i.val
      let e := s.sessEnt i.val
      if e.bad then (s.logEntry e.addr i.val).seRefuse 1
      else if e.state ≠ 1 then s.seRefuse 2
      else spillGo i e e.nidx 0 (s.setSe { s.se with skipped := 0, err := 0 })

/-- Accesses that end the copy of a page: its summary moves and its entry is written. -/
def State.spillAccess (s : State) (p : Spilling) : List (Nat × Nat) × List (Nat × Nat) :=
  let e := s.sessEnt p.session
  let d := s.dirEnt e p.idx
  ([(s.se.sumAddr (d.loc - s.se.firstPage), 64)], entWrites e d ++ [(s.se.slotSum (p.slot.getD 0), 64)])

/-- The host has acknowledged the copy of a page: its summary moves, the entry turns spilled, the page is freed, and the
next page follows (R232). A disabled SE stops after the page; a reset ends the spill there (R316). -/
def State.spillStep (s : State) : State :=
  match s.se.spilling with
  | none => s
  | some p =>
    match p.slot with
    | none => s
    | some j =>
      let e := s.sessEnt p.session
      let d := s.dirEnt e p.idx
      let k := d.loc - s.se.firstPage
      let s := s.meet [(s.se.sumAddr k, 64)]
      let sum := s.read (s.se.sumAddr k) 64
      let s := s.write (s.se.slotSum j) sum.1 sum.2
      let s := s.write d.addr (dirBytes j true true) false
      let s := (s.setCounts e (e.resident - 1) (e.spilled + 1)).setSe (s.se.freePage k)
      if s.func.resetting == some 0x51 then s.setSe { s.se with spilling := none }
      else spillGo (fin20 p.session) e (e.nidx - (p.idx + 1)) (p.idx + 1) s

end Sys2Proof.Machine
end

