-- ==== Sys2Proof/Machine/Engine.lean ====
section
/-!
DEFINITION. A staging engine between its steps: faults, the end of a program, answers of peers and of the host, the CVU,
and the step frame (10 R189, R190, R195, R198 to R201; 13 R272).
-/
namespace Sys2Proof.Machine

open Sys2Proof

/-- Kinds of Table 10.6. -/
inductive SKind where
  | decode | format | address | poison | watchdog
deriving DecidableEq, Repr

def SKind.code : SKind → Nat
  | .decode => 1 | .format => 2 | .address => 3 | .poison => 4 | .watchdog => 5

def engRegion (e : EngineId) : Nat := e.val / 4
def engFid (e : EngineId) : Nat := 0x20 + e.val

/-- The engine runs steps: running, enabled, its region awake, and neither ending nor faulting. One that is to stop or has faulted
ends the write that it has issued first (R195, R198, R316). -/
def State.engGo (s : State) (e : EngineId) : Bool :=
  let x := s.engine e
  s.unitsOn && x.run == .running && s.awake (engRegion e) && !x.ending
    && (x.storing || (!x.faulting && !x.disabled && !s.host.flr && s.func.resetting != some (BitVec.ofNat 8 (engFid e))))

/-! ### Outcomes (R163, R198, R249) -/

/-- Tells the strand that started the program how it ended. -/
def State.stgOutcome (s : State) (e : EngineId) (ok : Bool) : State :=
  let x := s.engine e
  s.modStrand (fin32 x.owner) fun y =>
    if y.stg[fin4 e.val] == .running x.prog then
      { y with stg := y.stg.set (fin4 e.val) (if ok then .ok else .failed) }
    else y

/-- Writes of the program that a peer or the host has not answered. -/
def Engine.unanswered (x : Engine) : Bool := x.peers.any (fun p => !p.isRead) || x.hostWrites != 0

/-- The CRC register of a computation after its open chunk (R200). -/
def cvuParams (poly : Nat) : CrcParams := if poly = 0 then crc32c else crc64

def Cvu.close (c : Cvu) : Cvu :=
  if c.open_.isEmpty then c
  else
    let fold := if c.fold = 0 then c.first else (c.seq + c.chunk) % 2 ^ 64
    { c with reg := crcUpdate (cvuParams c.poly) c.reg (c.open_ ++ leBytes 8 fold), chunk := c.chunk + 1, open_ := [] }

def Cvu.result (c : Cvu) : Word64 := BitVec.ofNat 64 (crcFinish (cvuParams c.poly) c.reg)

/-- Takes stream bytes that lie in one row, the first at staging address word a. -/
def Cvu.feedGo : Nat → Cvu → Nat → List Byte → Cvu
  | 0, c, _, _ => c
  | fuel + 1, c, a, bs =>
    if bs.isEmpty then c
    else
      let k := min (256 - c.open_.length) bs.length
      let c := { c with first := if c.open_.isEmpty then a else c.first, open_ := c.open_ ++ bs.take k }
      let c := if c.open_.length = 256 then c.close else c
      Cvu.feedGo fuel c (a + k) (bs.drop k)

def Cvu.feed (c : Cvu) (a : Nat) (bs : List Byte) : Cvu := Cvu.feedGo (bs.length + 1) c a bs

/-! ### Col settings (13 R284) -/

/-- The engine is within a COPY step. -/
def Engine.midCopy (x : Engine) : Bool :=
  x.run == .running && (!x.bursts.isEmpty || x.fetch.isSome || x.arrival.isSome)
    && (match x.store[x.step]? with | some st => fld st.toNat 0 8 == 1 | none => false)

def Col.commit (c : Col) : Col :=
  { c with modid := c.modidShadow, eng := c.engShadow, inj := c.injShadow, pending := false }

/-- A commit of the Col settings takes effect between the COPY steps of every engine. Log entry 90, DEDUCED. -/
def State.colSettle (s : State) : State :=
  if s.col.pending && s.engines.toList.all (fun x => !x.midCopy) then { s with col := s.col.commit } else s

/-- A program that has ended or faulted settles when its writes are issued and answered (R198, R272). -/
def State.settleEngine (s : State) (e : EngineId) : State :=
  let x := s.engine e
  if x.unanswered || !x.bursts.isEmpty || x.storing then s
  else if x.faulting then
    (s.setEngine e { x with faulting := false, run := .faulted, cvu := none }).stgOutcome e false
  else if x.ending then
    let x := match x.cvu with
      | none => x
      | some c => { x with cvu := none, cvuResult := c.close.result, cvuValid := true }
    (s.setEngine e { x with ending := false, run := .idle }).stgOutcome e true
  else s

/-- Raises a staging fault at the current step; only the first is recorded. Bursts not yet issued are dropped; a write that is
issued and waits at the gate is not (R198, R249). Log entry 73, DEDUCED. -/
def State.engineFault (s : State) (e : EngineId) (k : SKind) : State :=
  let x := s.engine e
  if x.run != .running || x.faulting then s
  else
    let s := s.setEngine e { x with faulting := true, ending := false, faultKind := k.code, faultStep := x.step,
                                    cvu := if x.storing then x.cvu else none,
                                    bursts := if x.storing then x.bursts.take 1 else [], arrival := none, fetch := none }
    ((s.logEv 2 2 (engFid e) 0x09 0 (k.code + x.step * 256)).settleEngine e).colSettle

/-- The write that the engine issued is over. A fault that came before its end settles, if the step is not the one to raise it. -/
def State.engClosed (s : State) (e : EngineId) (f : State → State) : State :=
  let s := s.modEngine e fun x => { x with storing := false }
  if (s.engine e).faulting then s.settleEngine e else f s

/-- A fault of the step itself: nothing of it stays issued. -/
def State.stepFault (s : State) (e : EngineId) (k : SKind) : State :=
  (s.modEngine e fun x => { x with bursts := [] }).engClosed e fun s => s.engineFault e k

/-! ### Staging address words (R200) -/

def stagWord (space dst addr : Nat) : Nat := space * 2 ^ 62 + (if space = 2 then dst * 2 ^ 42 + addr else addr)

/-! ### Answers -/

/-- A peer has acknowledged the burst with this tag. -/
def State.peerDone (s : State) (e : EngineId) (tag : Nat) : State :=
  (s.modEngine e fun x => { x with peers := x.peers.filter fun p => p.tag != tag || p.isRead }).settleEngine e

/-- A burst or read that a peer refused or never answered: it is logged and the engine takes an address fault (R272). -/
def State.peerLost (s : State) (e : EngineId) (tag : Nat) : State :=
  match (s.engine e).peers.find? (fun p => p.tag == tag) with
  | none => s
  | some p =>
    let s := s.modEngine e fun x => { x with peers := x.peers.filter fun q => q.tag != tag }
    let s := if p.isRead then s else s.logEv 1 3 (engFid e) 0x0D (stagWord 2 p.dst p.addr) p.dst
    if (s.engine e).faulting then s.settleEngine e else s.engineFault e .address

/-- The oldest host write of the engine is acknowledged. -/
def State.hostWriteDone (s : State) (e : EngineId) : State :=
  (s.modEngine e fun x => { x with hostWrites := x.hostWrites - 1 }).settleEngine e

/-! ### Steps (R187, R189, R190) -/

abbrev Step512 := BitVec 512

/-- The n bytes at byte offset off of a step. -/
def stF (st : Step512) (off n : Nat) : Nat := fld st.toNat (8 * off) (8 * n)

/-- Opcodes of Table 10.1 that may stand at step 1 and after. Log entry 74, DEDUCED. -/
def knownStep (op : Nat) : Bool :=
  op == 1 || op == 2 || op == 3 || (0x10 ≤ op && op ≤ 0x14) || op == 0x20 || op == 0x21 || op == 0x28 || op == 0x29
    || op == 0x30 || op == 0x3F

/-- Bits outside the given fields, each an offset and a length in bytes, are zero. -/
def onlyFields (st : Step512) (fs : List (Nat × Nat)) : Bool :=
  fs.foldl (fun w f => setFld w (8 * f.1) (8 * f.2) 0) st.toNat == 0

/-- The engine begins step st now: the previous step has issued its last burst. Log entry 3, DESIGN CHOICE. -/
def State.mayStep (s : State) (e : EngineId) (st : Step512) : Bool :=
  let x := s.engine e
  s.engGo e && x.bursts.isEmpty && x.arrival.isNone && x.store[x.step]? == some st

/-- Goes on at step i; past the last step it is a decode fault of that last step (log entry 32, DEDUCED). -/
def State.engGoto (s : State) (e : EngineId) (i : Nat) : State :=
  if i < (s.engine e).store.length then (s.modEngine e fun x => { x with step := i, storing := false }).colSettle
  else s.engineFault e .decode

def State.engNext (s : State) (e : EngineId) : State := s.engGoto e ((s.engine e).step + 1)

/-- A step that has written goes on. -/
def State.engStored (s : State) (e : EngineId) : State := s.engClosed e fun s => s.engNext e

abbrev SBody := State → Except SKind State

/-- One step of engine e: op its opcode, dec its decode checks, body its checks and effect. -/
def State.stepRun (s : State) (e : EngineId) (st : Step512) (op : Nat) (dec : Bool) (body : SBody) : State :=
  if !s.mayStep e st || stF st 0 1 != op then s
  else if !dec then s.engineFault e .decode
  else
    match body s with
    | .ok t => t
    | .error k => s.stepFault e k

def Engine.xr (x : Engine) (i : Nat) : Word := x.x.toList.getD i 0
def Engine.setX (x : Engine) (i : Nat) (v : Word) : Engine := if h : i < 8 then { x with x := x.x.set i v } else x

/-- Register operands of a control step (R190). -/
def stD (st : Step512) : Nat := stF st 4 1
def stA (st : Step512) : Nat := stF st 5 1
def stB (st : Step512) : Nat := stF st 6 1
def stImm (st : Step512) : Nat := stF st 8 4
def stTarget (st : Step512) : Nat := stF st 0xC 2
def stAddr (st : Step512) : Nat := stF st 0x10 8

/-- A range that the engine may not reach: reserved, or in the scratchpad or Basin of a sleeping region (R309). -/
def State.unreachable (s : State) (a n : Nat) : Bool := !inOneRange a n || s.asleepAt a

/-- Whether the engine may access [a, a + n): an unreachable or offline range is an address fault (R198, R209). -/
def State.engReach (s : State) (a n : Nat) : Bool := !s.unreachable a n && s.answers a n

/-- An address fault; an access to an offline segment is logged first (R209). -/
def State.addressFault (s : State) (e : EngineId) (a n : Nat) (isWrite : Bool) : State :=
  let s := if !s.unreachable a n && !s.answers a n then s.logOffline a isWrite else s
  s.stepFault e .address

end Sys2Proof.Machine
end

