-- ==== Sys2Proof/Machine/Arbiter.lean ====
section
/-!
DEFINITION. Weighted-credit arbiters (12 R241 to R244, R247): credit periods, decisions, charges, locks and gap hints.
-/
namespace Sys2Proof.Machine

open Sys2Proof

def State.arb (s : State) (a : Nat) : Arb := s.arbs.getD a (arbReset a)
def State.setArb (s : State) (a : Nat) (x : Arb) : State := { s with arbs := s.arbs.set a x }

def Arb.point (x : Arb) (pt : Nat) : ArbPoint := x.points.getD pt { credits := x.live }
def Arb.setPoint (x : Arb) (pt : Nat) (p : ArbPoint) : Arb := { x with points := x.points.set pt p }

/-- A credit period starts at a point: a commit that waits takes effect, and the point's counters refill (R242, R243; log
entry 34, DEDUCED). -/
def Arb.startPeriod (x : Arb) (pt : Nat) : Arb :=
  let x := if x.pending then { x with live := x.shadow, pending := false } else x
  x.setPoint pt { x.point pt with credits := x.live }

/-- The pending requester with the most credit; the lower index of equals. -/
def bestOf (credits : List Nat) : List Nat → Option Nat
  | [] => none
  | i :: t =>
    match bestOf credits t with
    | none => some i
    | some j =>
      let ci := credits.getD i 0
      let cj := credits.getD j 0
      if cj < ci ∨ (ci = cj ∧ i < j) then some i else some j

/-- A decision among pending requesters: the period ends first when every one of them has no credit. -/
def Arb.decide (x : Arb) (pt : Nat) (pend : List Nat) : Arb × Option Nat :=
  let x := if !pend.isEmpty && pend.all (fun i => (x.point pt).credits.getD i 0 == 0) then x.startPeriod pt else x
  (x, bestOf (x.point pt).credits pend)

/-- Charges a grant. -/
def Arb.charge (x : Arb) (pt i cost : Nat) : Arb :=
  let p := x.point pt
  x.setPoint pt { p with credits := p.credits.set i (p.credits.getD i 0 - cost) }

/-- Whether arbiter a grants requester r a lock (R244): a staging engine, the SE, the coherence engine or a Col port. A
requester that stands for a region, and ring inbound, lock for the engine or the port whose transfer it is. -/
def mayLock (a : Nat) (r : ArbReq) : Bool :=
  let i := r.index.val
  let engine := 0x20 ≤ r.owner && r.owner < 0x40
  if a = 0 then false
  else if a < 14 && i < 8 then engine
  else if a = 1 then i == 9 || i == 10
  else if a < 14 then true
  else if i = 5 then 0x20 ≤ r.owner
  else i < 4 || i == 7 || i == 9

/-- FABCLK cycles that a grant costs (Table 12.2). At the QE class arbiter a record is charged as it is consumed. At a region
arbiter the table gives whole bursts and scrub groups; a shorter access brings its cost. Log entry 132, DESIGN CHOICE. -/
def grantCost (a : Nat) (r : ArbReq) : Nat :=
  if a = 0 then 0
  else if a = 1 then max 1 (ceilDiv r.len 256)
  else if a < 14 then 1
  else if r.index.val = 8 then 16
  else if r.len ≠ 0 ∧ r.len % 256 = 0 then 4 * (r.len / 256)
  else r.cost

/-- ⌈log2 (e + 1)⌉, 32 at most. -/
def hintOf (e : Nat) : Nat := min 32 (if e = 0 then 0 else e.log2 + 1)

/-- Gap hints at a decision among pending requesters: each gets its distance in credit from those that rank ahead of it.
The point is free, so nothing remains of a grant (R247). -/
def gapHints (credits pend : List Nat) : List (Nat × Nat) :=
  pend.map fun i =>
    let c (j : Nat) : Nat := credits.getD j 0
    let ahead := pend.filter fun j => c i < c j || (c i == c j && j < i)
    (i, hintOf (ahead.foldl (fun e j => e + (c j - c i)) 0))

/-- Under a lock every requester but the owner gets 0xFF. -/
def lockedHints (owner : Nat) (pend : List Nat) : List (Nat × Nat) :=
  (pend.filter (· != owner)).map fun i => (i, 0xFF)

def Arb.setHints (x : Arb) (pt : Nat) (h : List (Nat × Nat)) : Arb := x.setPoint pt { x.point pt with hints := h }

/-- The pending requester that a point serves: the owner of a lock, else the winner of a decision. The others get their gap
hints. -/
def Arb.pick (x : Arb) (pt : Nat) (reqs : List Nat) : Arb × Option Nat :=
  let pend := reqs.eraseDups
  match (x.point pt).owner.filter (·.lock) with
  | some o =>
    (x.setHints pt (lockedHints o.index.val pend), if pend.contains o.index.val then some o.index.val else none)
  | none =>
    let d := x.decide pt pend
    match d.2 with
    | none => (x, none)
    | some i => (d.1.setHints pt ((gapHints (d.1.point pt).credits pend).filter fun h => h.1 != i), some i)

/-- Number of requesters of an arbiter (Table 12.2). -/
def requesters (a : Nat) : Nat := if a = 0 then 16 else if a = 1 then 12 else if a < 14 then 20 else 10

/-- Number of arbitration points. -/
def points (a : Nat) : Nat := if a < 14 then 1 else 12

/-- The grant that an arbiter gives: its owner is the winner, with the lock it may hold. -/
def Arb.grant (x : Arb) (a pt : Nat) (r : ArbReq) : Arb :=
  let x := x.charge pt r.index.val (grantCost a r)
  x.setPoint pt { x.point pt with owner := some { r with lock := r.lock && mayLock a r } }

/-- A free point grants the pending requester with the most credit. A locked owner keeps the point: its own next request
is served and no decision takes place (R242, R244). With the new state comes what the admitted transfer meets in SRAM. -/
def State.arbGrant (s : State) (a : ArbId) (pt : Fin 12) (reqs : List ArbReq) : State × Ecc :=
  let reqs := reqs.filter fun r => r.index.val < requesters a.val
  if points a.val ≤ pt.val then (s, .clean)
  else
    let d := (s.arb a.val).pick pt.val (reqs.map fun r => r.index.val)
    match d.2 with
    | none => (s.setArb a.val d.1, .clean)
    | some i =>
      match reqs.find? fun r => r.index.val == i with
      | some r => (s.setArb a.val (d.1.grant a.val pt.val r), r.sram)
      | none => (s, .clean)

/-- The requester that Col egress port p serves next, of those that are pending; its flit is charged (Table 12.2). -/
def State.egressPick (s : State) (p : PortId) (pend : List Nat) : State × Option Nat :=
  let d := (s.arb (p.val + 2)).pick 0 pend
  match d.2 with
  | none => (s.setArb (p.val + 2) d.1, none)
  | some i => (s.setArb (p.val + 2) (d.1.charge 0 i 1), some i)

/-- A credit period ends after its cycles, or when every pending counter is zero; the next starts at once. -/
def execCreditPeriodEnd (a : ArbId) (pt : Fin 12) (s : State) : Out1 :=
  if !s.chipOn || points a.val ≤ pt.val then .next s
  else .next (s.setArb a.val ((s.arb a.val).startPeriod pt.val))

/-- ARB_COMMIT.GO: the shadows become live at the next period start. -/
def execArbCommit (a : ArbId) (s : State) : Out1 :=
  if !s.hostOn then s.noBar0 else .next (s.setArb a.val { s.arb a.val with pending := true })

end Sys2Proof.Machine
end

