-- ==== Sys2Proof/Machine/ColBase.lean ====
section
/-!
DEFINITION. Col messages, flits, routes and transmission (13 R264 to R277): what the staging engines and the Col rows
share.
-/
namespace Sys2Proof.Machine

open Sys2Proof

/-! ### Messages (R269) -/

def mtWrite : Nat := 0
def mtReadReq : Nat := 1
def mtReadRsp : Nat := 2
def mtWrack : Nat := 3
def mtArrive : Nat := 4
def mtAtomAdd : Nat := 5
def mtUnreach : Nat := 6

def hasData (mtype : Nat) : Bool := mtype == mtWrite || mtype == mtReadRsp || mtype == mtAtomAdd

/-- The 16-byte header of Table 13.4. -/
def msgHeader (m : ColMsg) : List Byte :=
  leBytes 16 (m.mtype % 16 + m.poison % 16 * 2 ^ 4 + m.lenm1 % 256 * 2 ^ 8 + m.tag % 65536 * 2 ^ 16
    + m.addr % 2 ^ 42 * 2 ^ 32 + m.offset % 256 * 2 ^ 74 + m.blenm1 % 256 * 2 ^ 82 + m.cause % 16 * 2 ^ 90)

def msgBytes (m : ColMsg) : List Byte := msgHeader m ++ m.data

def parseHeader (bs : List Byte) : ColMsg :=
  let v := fieldLE bs 0 16
  { mtype := fld v 0 4, poison := fld v 4 4, lenm1 := fld v 8 8, tag := fld v 16 16, addr := fld v 32 42,
    offset := fld v 74 8, blenm1 := fld v 82 8, cause := fld v 90 4, data := [] }

/-- The messages of a flit payload: a PAD byte in the place of a header, or too few bytes, ends them. -/
def parseMsgsGo : Nat → List Byte → List ColMsg
  | 0, _ => []
  | fuel + 1, bs =>
    if bs.length < 16 || fld (leValue (bs.take 1)) 0 4 = 15 then []
    else
      let m := parseHeader bs
      let n := if hasData m.mtype then m.lenm1 + 1 else 0
      let rest := bs.drop 16
      if rest.length < n then [] else { m with data := rest.take n } :: parseMsgsGo fuel (rest.drop n)

def parseMsgs (bs : List Byte) : List ColMsg := parseMsgsGo 16 bs

def simpleMsg (mtype tag addr cause : Nat) : ColMsg :=
  { mtype := mtype, poison := 0, lenm1 := 0, tag := tag, addr := addr, offset := 0, blenm1 := 0, cause := cause, data := [] }

/-- Payload bytes of a flit. -/
def payloadMax : Nat := 244

/-- Fragments of a burst: the first takes the room left in the open flit, each other one fills a flit. -/
def fragmentsGo : Nat → ColMsg → Nat → Nat → List Byte → List ColMsg
  | 0, _, _, _, _ => []
  | fuel + 1, m, room, off, bs =>
    if bs.isEmpty then []
    else if room < 17 then fragmentsGo fuel m payloadMax off bs
    else
      let k := min (room - 16) bs.length
      { m with offset := off, lenm1 := k - 1, data := bs.take k } ::
        fragmentsGo fuel m (if k = room - 16 then payloadMax else room - 16 - k) (off + k) (bs.drop k)

/-! ### Flits (R266) -/

/-- Flits of one flow (R270). -/
def Flit.sameFlow (f g : Flit) : Bool := f.tc == g.tc && f.dst == g.dst && f.src == g.src && f.sport == g.sport

/-- The requester of a flit at the egress arbiter (12 Table 12.2): the region it leaves, or the Col port it arrived on. Log entry
136, DESIGN CHOICE. -/
def Flit.requester (f : Flit) : Nat := if f.via = 0 then f.req else 8 + (f.via - 1) / 8

def padPayload (bs : List Byte) : List Byte :=
  let room := payloadMax - bs.length
  if room = 0 then bs else bs ++ (0x0F : Byte) :: List.replicate (room - 1) 0

/-- The 256 bytes of a DATA or CTRL flit with its sequence number and acknowledgement. -/
def flitBytes (f : Flit) (seq ack : Nat) : List Byte :=
  let h := (if f.ctrl then 2 else 1) + seq % 1024 * 2 ^ 3 + ack % 1024 * 2 ^ 13 + 2 ^ 23 + f.tc % 4 * 2 ^ 24
    + f.vc % 2 * 2 ^ 26 + f.ttl % 32 * 2 ^ 27 + f.dst % 4096 * 2 ^ 32 + f.src % 4096 * 2 ^ 44
    + f.sport % 16 * 2 ^ 56 + b2n f.esc * 2 ^ 60
  let body := leBytes 8 h ++ padPayload f.payload
  body ++ leBytes 4 (crc crc32c body)

/-- The 256 bytes of an IDLE flit: an acknowledgement, or a NAK with the SEQ expected next (R266, R267). -/
def idleBytes (nak : Bool) (ack : Nat) : List Byte :=
  let body := leBytes 8 (ack % 1024 * 2 ^ 13 + 2 ^ 23 + b2n nak * 2 ^ 63) ++ List.replicate payloadMax 0
  body ++ leBytes 4 (crc crc32c body)

def vcIndex (tc vc : Nat) : Nat := tc * 2 + vc

/-- A port that carries or queues traffic. -/
def Port.usable (p : Port) : Bool := p.state == .up || p.state == .lpi

/-- Last sequence number received in order. -/
def Port.ack (p : Port) : Nat := (p.expSeq + 1023) % 1024

/-- A receive buffer has been freed: its credit is owed to the partner (R268). -/
def State.owe (s : State) (via : Nat) : State :=
  if via = 0 then s
  else
    let v := fin8 ((via - 1) % 8)
    s.modPort (fin12 ((via - 1) / 8)) fun x => { x with owed := x.owed.set v (x.owed[v] + 1) }

/-- Sends a flit now: it enters the retry buffer. -/
def State.sendFlit (s : State) (p : PortId) (f : Flit) : State :=
  let x := s.port p
  let v := fin8 (vcIndex f.tc f.vc)
  let x := { x with retry := x.retry ++ [(x.sendSeq, f)], sendSeq := (x.sendSeq + 1) % 1024,
                    credits := if f.ctrl then x.credits else x.credits.set v (x.credits[v] - 1) }
  ((s.setPort p x).send (.flit p (flitBytes f ((s.port p).sendSeq) x.ack))).owe f.via

/-- The first waiting flit of each flow. -/
def flowHeads : List Flit → List Flit → List Flit
  | _, [] => []
  | seen, f :: t => if seen.any f.sameFlow then flowHeads seen t else f :: flowHeads (f :: seen) t

/-- Flits that may leave: the first of their flow, with a credit of their channel (R268, R274). -/
def Port.ready (x : Port) : List Flit := (flowHeads [] x.waiting).filter fun f => x.credits[fin8 (vcIndex f.tc f.vc)] != 0

/-- Sends the waiting flits that may leave, nothing while the retry buffer is full: control flits first, then those that the
egress arbiter serves (R267, R268, R274). -/
def pumpGo (p : PortId) : Nat → State → State
  | 0, s => s
  | fuel + 1, s =>
    let x := s.port p
    let go (s : State) (f : Flit) : State := pumpGo p fuel ((s.setPort p { x with waiting := x.waiting.erase f }).sendFlit p f)
    if 512 ≤ x.retry.length then s
    else
      match x.waiting.find? (·.ctrl) with
      | some f => go s f
      | none =>
        let d := s.egressPick p (x.ready.map Flit.requester)
        match d.2 with
        | none => d.1
        | some i =>
          match x.ready.find? fun f => f.requester == i with
          | some f => go d.1 f
          | none => d.1

def State.pump (s : State) (p : PortId) : State :=
  let x := s.port p
  if !s.chipOn || x.state != .up || x.disabledFn then s else pumpGo p x.waiting.length s

/-- Sends again every flit from the oldest that is not acknowledged; a stopped transmit path does so once it goes on (R282). -/
def State.resend (s : State) (p : PortId) : State :=
  let x := s.port p
  if x.disabledFn then s.setPort p { x with owesReplay := true }
  else x.retry.foldl (fun s q => s.send (.flit p (flitBytes q.2 q.1 x.ack))) (s.setPort p { x with owesReplay := false })

/-- Messages of a burst, its first fragment in the room left of an open flit; or a message without data. -/
def fragments (m : ColMsg) (room : Nat) : List ColMsg :=
  if hasData m.mtype then fragmentsGo 8 { m with blenm1 := m.data.length - 1 } room 0 m.data else [m]

/-- Adds messages to the open flit of their flow: the flits that close, and the open one (R269). -/
def packGo : Flit → List (List Byte) → List Flit × Flit
  | f, [] => ([], f)
  | f, b :: t =>
    if f.payload.length + b.length ≤ payloadMax then packGo { f with payload := f.payload ++ b } t
    else
      let r := packGo { f with payload := b } t
      (f :: r.1, r.2)

def State.enqueueFlit (s : State) (p : PortId) (f : Flit) : State :=
  let x := s.port p
  (s.setPort p { x with waiting := x.waiting ++ [f] }).pump p

/-! ### Routes (R273 to R276) -/

structure Route where
  dport : Nat
  valid : Bool
  dateline : Bool
  amask : Nat
deriving DecidableEq, Repr

def routeOf (v : Nat) : Route := ⟨fld v 0 4, bitAt v 4, bitAt v 5, fld v 6 12⟩

/-- Where a flit goes: a port with the flit as it leaves, or a cause of discard. -/
inductive Hop where
  | port (p : PortId) (f : Flit)
  | drop (cause : Nat)
deriving DecidableEq, Repr

/-- Ports of a mask that are UP and hold a credit for adaptive flits, the most credits first, then the lowest number. -/
def State.adaptivePort (s : State) (mask : Nat) : Option PortId :=
  (List.range 12).foldl (fun (best : Option PortId) i =>
    let p := fin12 i
    let c := (s.port p).credits[fin8 4]
    if bitAt mask i && (s.port p).state == .up && c != 0 then
      match best with
      | none => some p
      | some b => if (s.port b).credits[fin8 4] < c then some p else some b
    else best) none

/-- The deterministic hop of a flit. -/
def State.fixedHop (s : State) (r : Route) (f : Flit) : Hop :=
  if 12 ≤ r.dport then .drop 2
  else if !(s.port (fin12 r.dport)).usable then .drop 1
  else .port (fin12 r.dport) { f with vc := if r.dateline then 1 else f.vc }

/-- The forwarding decision for a flit that is not for this module. -/
def State.hop (s : State) (tbl : List (Nat × Nat)) (f : Flit) : Hop :=
  let r := routeOf (assoc f.dst 0 tbl)
  if !r.valid || r.dport == 15 then .drop 2
  else if f.tc == 2 && !f.esc then
    match s.adaptivePort r.amask with
    | some p => .port p f
    | none => s.fixedHop r { f with esc := true, vc := 1 }
  else s.fixedHop r f

/-- Engine and tag of a message TAG. -/
def tagEngine (tag : Nat) : EngineId := fin32 (tag / 2048)
def tagOf (e : EngineId) (k : Nat) : Nat := e.val * 2048 + k % 2048

/-- Requests whose loss is answered with UNREACH (R276). -/
def wantsUnreach (m : ColMsg) : Bool :=
  m.mtype == mtWrite || m.mtype == mtReadReq || m.mtype == mtAtomAdd || m.mtype == mtArrive

/-- A request of this module has been lost: its engine learns it at once, as by UNREACH (R276). -/
def State.ownLost (s : State) (m : ColMsg) : State :=
  if m.mtype == mtArrive then s.engineFault (tagEngine m.tag) .address
  else if m.mtype == mtWrite || m.mtype == mtReadReq || m.mtype == mtAtomAdd then
    s.peerLost (tagEngine m.tag) (m.tag % 2048)
  else s

/-- A flit of this module leaves by the injection table, each flit for itself (R275), or is discarded and counted (R276). -/
def State.launchFlit (s : State) (f : Flit) : State :=
  match s.hop s.col.inj f with
  | .port p g => s.enqueueFlit p { g with sport := p.val }
  | .drop _ =>
    (parseMsgs f.payload).foldl (fun s m => s.ownLost m)
      { s with col := { s.col with injDrop := satAdd s.col.injDrop 1 } }

/-- More of the flow of a filling flit is to come: an engine holds bursts, or the arrival that follows them, for it. Log entry
136, DESIGN CHOICE. -/
def State.flowOpen (s : State) (f : Flit) : Bool :=
  (List.range 32).any fun i =>
    let x := s.engine (fin32 i)
    s.engGo (fin32 i) && (x.bursts.any (fun b => b.space == 2 && b.dst == f.dst && b.tc == f.tc)
      || (match x.arrival with | some a => a.space == 2 && !a.late && a.dst == f.dst && f.tc == 0 | none => false))

/-- The filling flits of which no more is to come are closed and leave. -/
def State.flushFlits (s : State) : State :=
  if s.col.filling.isEmpty then s
  else
    let keep := s.col.filling.filter s.flowOpen
    let go := s.col.filling.filter fun f => !s.flowOpen f
    go.foldl State.launchFlit { s with col := { s.col with filling := keep } }

/-- Originates a message of one flow in the open flit of the flow; req is its requester at the egress arbiter. A message to this
module itself is delivered here (R273). -/
def State.injectMsg (s : State) (tc dst req : Nat) (m : ColMsg) : State :=
  if dst = s.col.modid.toNat then { s with col := { s.col with loop := s.col.loop ++ [m] } }
  else
    let mine (f : Flit) : Bool := f.tc == tc && f.dst == dst
    let f := (s.col.filling.find? mine).getD
      { ctrl := false, tc := tc, vc := 0, ttl := 31, dst := dst, src := s.col.modid.toNat, sport := 0, esc := false,
        payload := [], req := req }
    let r := packGo f ((fragments m (payloadMax - f.payload.length)).map msgBytes)
    let s := { s with col := { s.col with filling := (s.col.filling.filter fun g => !mine g) ++ [r.2] } }
    (r.1.foldl State.launchFlit s).flushFlits

/-- The region whose resources hold an address, for the egress arbiter. -/
def State.regionAt (s : State) (a : Nat) : Nat :=
  if isDevice a then s.channelOf a / 32 else (a - 0x20000000000) / 0x10000000 % 8

/-- Sends a response in TC1 on behalf of requester req; a lost one is lost. -/
def State.respond (s : State) (dst req : Nat) (m : ColMsg) : State := s.injectMsg 1 dst req m

/-- Sends a request of engine e. -/
def State.request (s : State) (e : EngineId) (tc dst : Nat) (m : ColMsg) : State := s.injectMsg tc dst (engRegion e) m

/-- Poison bits of a burst at a with bad lines. -/
def poisonBits (a : Nat) (bad : Nat → Bool) : Nat :=
  (List.range 4).foldl (fun v i => if bad (a / 64 + i) then v + 2 ^ i else v) 0

/-- A free tag of an engine. -/
def Engine.freeTag (x : Engine) : Option Nat :=
  ((List.range 2048).map fun i => (x.tag + i) % 2048).find? fun k => x.peers.all fun p => p.tag != k

end Sys2Proof.Machine
end

