-- ==== Sys2Proof/Machine/Staging.lean ====
section
/-!
DEFINITION. Staging programs: their start, control steps, COPY with its bursts and arrivals, column sums, bucketing, the
CVU and SHA steps, and END (09 R176, R177; 10 R187 to R204; 13 R278).
-/
namespace Sys2Proof.Machine

open Sys2Proof

/-! ### Start (R163, R187, R188) -/

/-- The start of a program: its first NSTEP steps are copied; a poisoned line, a bad header or a copy past the
scratchpad is a staging fault at step 0. -/
def State.startProgram (s : State) (e : EngineId) (n : StrandId) (off : Nat) (arg : Word) : State :=
  let a := scratchBase (regionOf n) + off
  let s := s.meet [(a, 64)]
  let hdr := s.read a 64
  let nstep := fieldLE hdr.1 4 2
  let st0 : Step512 := BitVec.ofNat 512 (leValue hdr.1)
  let good := stF st0 0 1 == 0 && onlyFields st0 [(4, 2)] && 2 ≤ nstep && nstep ≤ 256
  let fits := off + 64 * nstep ≤ scratchSize
  let s := if good && fits then s.meet [(a, 64 * nstep)] else s
  let all := s.read a (64 * nstep)
  let y := s.strand n
  let seed := match y.launch with | some l => lrSeed l.lrec | none => 0
  let x := { s.engine e with
    run := .running, step := if good && fits && !all.2 then 1 else 0, owner := n.val,
    store := if good && fits then (pieces 64 all.1).map fun bs => BitVec.ofNat 512 (leValue bs) else [st0],
    x := (Vector.replicate 8 (0 : Word)).set 0 arg, seed := seed, prog := s.nextId, faultKind := 0, faultStep := 0,
    cvu := none }
  let s := { s with nextId := s.nextId + 1 }.setEngine e x
  let s := s.modStrand n fun y => { y with stg := y.stg.set (fin4 e.val) (.running x.prog) }
  let s := s.proceed n id
  if hdr.2 then s.engineFault e .poison
  else if !good then s.engineFault e .decode
  else if !fits then s.engineFault e .address
  else if all.2 then s.engineFault e .poison
  else s

/-- The engine is being reset, or what it asked of the host for an earlier program is unanswered: it starts none yet (R305, R316).
Log entry 152, DEDUCED. -/
def State.engClosing (s : State) (e : EngineId) : Bool :=
  s.func.resetting == some (BitVec.ofNat 8 (engFid e)) || s.host.cxlReset.isSome || s.host.flr
    || s.host.d2h.any fun r => r.1 == .engine e && r.2.1

def execStagingProgramStart (e : EngineId) (n : StrandId) (s : State) : Out1 :=
  let x := s.engine e
  match (s.strand n).wait with
  | .stgrun k off arg =>
    if engineId n k.val != e || !s.going n || x.run != .idle || x.disabled || s.engClosing e then .next s
    else
      let a := scratchBase (regionOf n) + off
      let len := 64 * fieldLE (memGetN s.mem a 64) 4 2
      if s.hazard n [(a, max 64 len)] then .next s else .next (s.startProgram e n off arg)
  | _ => .next s

/-! ### Control steps (R190) -/

def execSetx (e : EngineId) (st : Step512) (s : State) : Out1 :=
  .next (s.stepRun e st 0x10 (onlyFields st [(0, 1), (4, 2), (8, 4)] && stD st < 8 && stA st < 8) fun s =>
    let x := s.engine e
    .ok ((s.setEngine e (x.setX (stD st) (x.xr (stA st) + BitVec.ofNat 32 (stImm st)))).engNext e))

/-- ADDR + x[A]. -/
def stepAddr (x : Engine) (st : Step512) : Nat := stAddr st + (x.xr (stA st)).toNat

/-- A write of the program to this module itself, over space 2, that is not yet visible and that meets the ranges (R189). -/
def State.loopWrites (s : State) (e : EngineId) (rs : List (Nat × Nat)) : Bool :=
  (s.engine e).peers.any fun p => !p.isRead && p.dst == s.col.modid.toNat && rs.any fun r => overlap (p.addr, p.bytes) r

def execLdx (e : EngineId) (q : StepRead) (s : State) : Out1 :=
  let st := q.step
  .next (s.stepRun e st 0x11 (onlyFields st [(0, 1), (4, 2), (0x10, 8)] && stD st < 8 && stA st < 8) fun s =>
    let a := stepAddr (s.engine e) st
    if a % 4 ≠ 0 then .error .format
    else if !s.engReach a 4 then .ok (s.addressFault e a 4 false)
    else if s.loopWrites e [(a, 4)] then .ok s
    else
      match s.gate (.ldx e q) [(a, 4)] [] with
      | some t => .ok t
      | none =>
        let s := s.eccFound [(a, 4)] q.found
        let r := s.readHalf a 4
        let s := s.readMark a 4
        if r.2 then .ok (s.stepFault e .poison)
        else .ok ((s.modEngine e fun x => x.setX (stD st) (BitVec.ofNat 32 (leValue r.1))).engNext e))

/-- A write of the engine waits at the gate: it is issued, and ends before the engine stops (R195, R316). -/
def State.engStoring (s : State) (e : EngineId) : State := s.modEngine e fun x => { x with storing := true }

/-- A write by the engine itself: reach, gate, write, next step. -/
def engStore (e : EngineId) (c : Instr) (found : EccList) (s : State) (a : Nat) (bs : List Byte) (f : State → State) : State :=
  if !s.engReach a bs.length then s.addressFault e a bs.length true
  else
    match s.gate c [] [(a, bs.length)] with
    | some t => t.engStoring e
    | none => (f ((s.strike found).write a bs false)).engStored e

def execStx (e : EngineId) (q : StepRead) (s : State) : Out1 :=
  let st := q.step
  .next (s.stepRun e st 0x12 (onlyFields st [(0, 1), (5, 2), (0x10, 8)] && stA st < 8 && stB st < 8) fun s =>
    let x := s.engine e
    let a := stepAddr x st
    if a % 4 ≠ 0 then .error .format
    else .ok (engStore e (.stx e q) q.found s a (leBytes 4 (x.xr (stB st)).toNat) id))

/-- COND of Table 10.1; none for a reserved one. -/
def stCond (k : Nat) (a b : Word) : Option Bool :=
  match k with
  | 0 => some true
  | 1 => some (a == b)
  | 2 => some (a != b)
  | 3 => some (a.ult b)
  | 4 => some (!a.ult b)
  | _ => none

def execStgBr (e : EngineId) (st : Step512) (s : State) : Out1 :=
  let n := (s.engine e).store.length
  .next (s.stepRun e st 0x13
    (onlyFields st [(0, 1), (5, 3), (0xC, 2)] && stA st < 8 && stB st < 8 && stF st 7 1 < 5 && stTarget st < n) fun s =>
    let x := s.engine e
    if (stCond (stF st 7 1) (x.xr (stA st)) (x.xr (stB st))).getD false then .ok (s.engGoto e (stTarget st))
    else .ok (s.engNext e))

def execLoop (e : EngineId) (st : Step512) (s : State) : Out1 :=
  let n := (s.engine e).store.length
  .next (s.stepRun e st 0x14 (onlyFields st [(0, 1), (4, 1), (0xC, 2)] && stD st < 8 && stTarget st < n) fun s =>
    let x := s.engine e
    let v := x.xr (stD st) - 1
    let s := s.setEngine e (x.setX (stD st) v)
    if v ≠ 0 then .ok (s.engGoto e (stTarget st)) else .ok (s.engNext e))

/-! ### CVU and SHA steps (R199 to R204) -/

def execCvuset (e : EngineId) (st : Step512) (s : State) : Out1 :=
  let poly := stF st 4 1
  let fold := stF st 5 1
  let side := stF st 6 1
  .next (s.stepRun e st 0x20 (onlyFields st [(0, 1), (4, 3), (8, 8)] && poly < 2 && fold < 2 && side < 2) fun s =>
    let c : Cvu := { poly := poly, fold := fold, side := side, seq := stF st 8 8, reg := (cvuParams poly).init, chunk := 0,
                     open_ := [], first := 0 }
    .ok ((s.modEngine e fun x =>
      { x with cvu := some c, cvuValid := false, cvuLost := true, cvuPoly := poly == 1, cvuFold := fold == 1 }).engNext e))

def execCvuout (e : EngineId) (q : StepRead) (s : State) : Out1 :=
  let st := q.step
  .next (s.stepRun e st 0x21 (onlyFields st [(0, 1), (0x10, 8)]) fun s =>
    match (s.engine e).cvu with
    | none => .error .format
    | some c =>
      if stAddr st % 8 ≠ 0 then .error .format
      else .ok (engStore e (.cvuout e q) q.found s (stAddr st) (leBytes 8 c.close.result.toNat) fun s =>
        s.modEngine e fun x => { x with cvu := some c.close }))

def execShainit (e : EngineId) (st : Step512) (s : State) : Out1 :=
  .next (s.stepRun e st 0x28 (onlyFields st [(0, 1)]) fun s =>
    .ok ((s.modEngine e fun x => { x with shaP := [] }).engNext e))

/-- Writes a weight-digest table entry (R204). -/
def Wdt.put (t : Wdt) (i : Nat) (d : List Byte) : Wdt := { t with entries := assocSet i d t.entries }

def execShafin (e : EngineId) (st : Step512) (s : State) : Out1 :=
  let reg := stF st 4 1
  let widx := stF st 6 2
  .next (s.stepRun e st 0x29 (onlyFields st [(0, 1), (4, 1), (6, 2), (0x10, 8)] && reg < 2 && widx < 4096) fun s =>
    if stAddr st % 32 ≠ 0 then .error .format
    else
      let d := sha256 (s.engine e).shaP
      .ok (engStore e (.shafin e st) [] s (stAddr st) d fun s =>
        let s := s.modEngine e fun x => { x with shaP := [] }
        if reg = 1 then { s with wdt := s.wdt.put widx d } else s))

/-! ### Arrivals (R194, R278) -/

def execArrive (e : EngineId) (st : Step512) (s : State) : Out1 :=
  let ext := stF st 0x38 8
  let space := fld ext 14 2
  let dhi := fld ext 16 12
  let clean := setFld (setFld (setFld (setFld ext 14 2 0) 16 12 0) 36 6 0) 42 5 0
  .next (s.stepRun e st 0x30 (onlyFields st [(0, 1), (0x38, 8)] && clean == 0 && (space != 0 || dhi == 0)) fun s =>
    if space = 1 ∨ space = 3 then .error .format
    else .ok (s.modEngine e fun x =>
      { x with arrival := some { space := space, dst := dhi, strand := fld ext 42 5, flag := fld ext 36 6, late := true } }))

/-- The arrival acts once the writes it follows are visible; the program then goes on. An ARRIVE message has a tag of its
own; one that has no route faults the engine at its step (R272, R276). -/
def State.arrivalStep (s : State) (e : EngineId) : State :=
  let x := s.engine e
  match x.arrival with
  | none => s
  | some a =>
    let waits := if a.late then x.unanswered else a.space == 1 && x.hostWrites != 0
    if !s.engGo e || !x.bursts.isEmpty || waits then s
    else
      if a.space = 2 then
        match x.freeTag with
        | none => s
        | some k =>
          let s := s.setEngine e { x with arrival := none, tag := (k + 1) % 2048 }
          let s := s.request e 0 a.dst (simpleMsg mtArrive (tagOf e k) (a.flag + a.strand * 64) 0)
          if (s.engine e).run == .running && !(s.engine e).faulting then s.engNext e else s
      else ((s.setEngine e { x with arrival := none }).arrival (fin32 a.strand) a.flag).engNext e

/-! ### COPY (R191 to R194) -/

/-- One side of a COPY: its space, its module or high address bits, its tile. -/
structure Side where
  space : Nat
  hi : Nat
  tile : Tile
deriving DecidableEq, Repr

/-- Address of the tile in its space. -/
def Side.base (x : Side) : Nat := if x.space = 1 then x.hi * 2 ^ 42 + x.tile.addr else x.tile.addr

/-- Where the bytes of a side stand while a step reads them: a remote side has a place of its own past every address. -/
def Side.at (x : Side) : Nat :=
  if x.space = 0 then x.tile.addr else 2 ^ 60 * x.space + x.hi * 2 ^ 42 + x.tile.addr

def Side.placed (x : Side) : Tile := { x.tile with addr := x.at }

/-- Packed rows of a tile: value rows of every plane, then index-plane rows (R15, R31, R78). -/
def Tile.spans (t : Tile) : List (Nat × Nat) :=
  (List.range (t.planes * t.rows)).map (fun r => (t.rowAddr r, t.rowBytes))
    ++ (if t.sparse = 0 then [] else (List.range t.rows).map fun r => (t.indexAddr r, ceilDiv t.cols 4))

/-- Parts of a range within aligned 256-byte blocks; fuel bounds them. -/
def blocksGo : Nat → Nat → Nat → List (Nat × Nat)
  | 0, _, _ => []
  | fuel + 1, a, n =>
    if n = 0 then []
    else
      let k := min n (256 - a % 256)
      (a, k) :: blocksGo fuel (a + k) (n - k)

def blocks256 (a n : Nat) : List (Nat × Nat) := blocksGo (n / 256 + 2) a n

structure CopyStep where
  bitcopy : Bool
  cvu : Bool
  sha : Bool
  arrive : Bool
  rm : Nat
  stage : Nat
  tensor : Nat
  src : Nat
  dst : Nat
  srcsh : Nat
  dstsh : Nat
  ext : Nat
deriving DecidableEq, Repr

def copyOf (st : Step512) : CopyStep :=
  let f := stF st 1 1
  { bitcopy := bitAt f 3, cvu := bitAt f 0, sha := bitAt f 1, arrive := bitAt f 2, rm := stF st 2 1, stage := stF st 3 1,
    tensor := stF st 4 4, src := stF st 8 16, dst := stF st 0x18 16, srcsh := stF st 0x28 8, dstsh := stF st 0x30 8,
    ext := stF st 0x38 8 }

def CopyStep.sspace (c : CopyStep) : Nat := fld c.ext 0 2
def CopyStep.shi (c : CopyStep) : Nat := fld c.ext 2 12
def CopyStep.dspace (c : CopyStep) : Nat := fld c.ext 14 2
def CopyStep.dhi (c : CopyStep) : Nat := fld c.ext 16 12
def CopyStep.sreg (c : CopyStep) : Nat := fld c.ext 28 4
def CopyStep.dreg (c : CopyStep) : Nat := fld c.ext 32 4
def CopyStep.aflag (c : CopyStep) : Nat := fld c.ext 36 6
def CopyStep.astrand (c : CopyStep) : Nat := fld c.ext 42 5
def CopyStep.creg (c : CopyStep) : Nat := fld c.ext 47 4

/-- High bits that a space permits (Table 10.2). -/
def hiOk (space hi : Nat) : Bool :=
  match space with
  | 0 => hi == 0
  | 1 => hi < 1024
  | _ => true

/-- Decode checks of a COPY: reserved bits, scale pointers, register numbers. Log entry 69, DEDUCED. Log entry 70, DEDUCED. -/
def CopyStep.decOk (c : CopyStep) (st : Step512) : Bool :=
  fld (stF st 1 1) 4 4 == 0 && fld c.ext 51 13 == 0 && tdSptr c.src == 0 && tdSptr c.dst == 0
    && c.sreg ≤ 8 && c.dreg ≤ 8 && c.creg ≤ 8 && hiOk c.sspace c.shi && hiOk c.dspace c.dhi

/-- Source and destination classes of Table 2.10, which lists a quire as the source of an ACCP tile and of the same quire;
R26 names the bit copy alone. Log entry 116, DESIGN CHOICE. -/
def pairOk (a b : Fmt) : Bool :=
  if b == .t4 then false
  else if b == .accp then true
  else if b.isQuire then a == b || a.isPosit || a.isIntegerClass
  else true

/-- One side from a descriptor, an address register and a header address. -/
def State.side (s : State) (x : Engine) (desc sh space hi reg : Nat) : Except SKind Side :=
  match tileFields desc with
  | none => .error .format
  | some t0 =>
    let off := if reg = 0 then 0 else (x.xr (reg - 1)).toNat
    let t1 := { t0 with addr := (t0.addr + off) % 2 ^ 42 }
    if !t1.shapeOk then .error .format
    else
      match s.withHeader t1 sh with
      | none => .error .format
      | some t => .ok ⟨space, hi, t⟩

/-- A bit copy reads no header (R192). -/
def bareSide (x : Engine) (desc space hi reg : Nat) : Except SKind Side :=
  match tileFields desc with
  | none => .error .format
  | some t0 =>
    let off := if reg = 0 then 0 else (x.xr (reg - 1)).toNat
    let t := { t0 with addr := (t0.addr + off) % 2 ^ 42 }
    if t.shapeOk then .ok ⟨space, hi, t⟩ else .error .format

/-- Range [ADDR, ADDR + P × ROWS × STRIDE) of R192. -/
def Tile.gross (t : Tile) : Nat × Nat := (t.addr, t.planes * t.rows * t.stride)

def isBasin (a : Nat) : Bool := match place a with | .basin _ _ => true | _ => false

/-- The sides of a COPY after the checks of R192, R278. -/
def State.copySides (s : State) (e : EngineId) (c : CopyStep) : Except SKind (Side × Side) :=
  let x := s.engine e
  if c.sspace = 3 ∨ c.dspace = 3 then .error .address
  else if 8 ≤ c.stage ∨ (rmOfCode c.rm).isNone then .error .format
  else
    let mk (desc sh space hi reg : Nat) := if c.bitcopy then bareSide x desc space hi reg else s.side x desc sh space hi reg
    match mk c.src c.srcsh c.sspace c.shi c.sreg, mk c.dst c.dstsh c.dspace c.dhi c.dreg with
    | .ok a, .ok b =>
      let same := a.tile.rows == b.tile.rows && a.tile.cols == b.tile.cols
      let kind := if c.bitcopy then a.tile.fmt == b.tile.fmt && a.tile.sparse == b.tile.sparse && b.tile.fmt != .t4
        else pairOk a.tile.fmt b.tile.fmt && a.tile.sparse == 0 && b.tile.sparse == 0 && a.tile.sumOk
      let basin := b.space != 1 && isBasin b.tile.addr && !b.tile.fmt.isQuire
      let clash := a.space == 0 && b.space == 0 && overlap a.tile.gross b.tile.gross
      let atom := b.space == 2 && fld s.col.eng.toNat (2 * e.val) 2 == 2
      let atomOk := !atom || (b.tile.fmt == .fp32 && !c.bitcopy)
      if same && kind && !basin && !clash && atomOk then .ok (a, b) else .error .format
    | .error k, _ => .error k
    | _, .error k => .error k

/-- Scale headers of a step: where one may lie (R49). -/
def headersOf (shs : List Nat) : List (Nat × Nat) :=
  shs.filterMap fun a => if a ≠ 0 ∧ hdrPlaceOk a then some (a, 32) else none

/-- A step may read its headers and, once they are read, the arrays they name: each is an address fault where the engine does
not reach it (R191, R198, R209), and waits for the program's own writes (R189) and at the gate. none: go on. -/
def State.engReads (s : State) (e : EngineId) (c : Instr) (rs : List (Nat × Nat)) : Option State :=
  match rs.find? fun p => p.2 != 0 && !s.engReach p.1 p.2 with
  | some p => some (s.addressFault e p.1 p.2 false)
  | none => if s.loopWrites e rs then some s else s.gate c rs []

/-- What a step leaves of its reads: what the error code finds, and the count of the poisoned halves, each once (R207). -/
def State.engMark (s : State) (rs : List (Nat × Nat)) (found : EccList) : State :=
  (s.eccFound rs found).countHalves (rs.flatMap fun p => halvesOf p.1 p.2)

/-- Addresses of a side that lie outside its space. -/
def State.sideReach (s : State) (x : Side) : Bool :=
  match x.space with
  | 0 => s.engReach x.tile.addr x.tile.extent
  | 1 => x.base + x.tile.extent ≤ 2 ^ 52
  | _ => x.tile.addr + x.tile.extent ≤ 2 ^ 42

/-- State with the bytes of a remote source in their place, for reading only. -/
def State.overlay (s : State) (x : Side) (f : Fetch) : State :=
  let r := x.placed.spans.foldl (fun (acc : List Host.Cell × List Nat × List Byte × List Bool) p =>
    let bs := acc.2.2.1.take p.2
    let marks := (List.zip (List.range p.2) (acc.2.2.2.take p.2)).filterMap fun q => if q.2 then some ((p.1 + q.1) / 32) else none
    (memSetN acc.1 p.1 bs, poisonAdd acc.2.1 (marks.flatMap fun h => [h / 2 * 2, h / 2 * 2 + 1]), acc.2.2.1.drop p.2,
     acc.2.2.2.drop p.2)) (s.mem, s.poison, f.got, f.poison)
  { s with mem := r.1, poison := r.2.1 }

/-- A packed row to write: its address, its bytes, and for each element its first and last byte, poison and vanish. -/
structure RowOut where
  addr : Nat
  bytes : List Byte
  els : List (Nat × Nat × Bool × Bool)
deriving DecidableEq, Repr

/-- Bursts of a row; a vanished element is counted with the burst of its first byte. Log entry 142, DESIGN CHOICE. -/
def RowOut.bursts (r : RowOut) (space dst : Nat) (atom : Bool) (tc : Nat) : List Burst :=
  (blocks256 r.addr r.bytes.length).map fun p =>
    let o := p.1 - r.addr
    { space := space, dst := dst, addr := p.1, bytes := (r.bytes.drop o).take p.2,
      poison := r.els.any fun x => x.2.2.1 && x.1 < o + p.2 && o ≤ x.2.1,
      vanish := (r.els.filter fun x => x.2.2.2 && o ≤ x.1 && x.1 < o + p.2).length, atom := atom, tc := tc }

def rowOfWrs (addr bits : Nat) (ws : List Wr) : RowOut :=
  { addr := addr, bytes := packCodes bits (ws.map (·.code)),
    els := (List.zip (List.range ws.length) ws).map fun p =>
      (p.1 * bits / 8, (p.1 * bits + bits - 1) / 8, p.2.bad, p.2.ev.un != 0) }

/-- Rows of scale bytes: consecutive addresses joined. -/
def scaleRows : List (Nat × Byte × Bool) → List RowOut
  | [] => []
  | x :: t =>
    match scaleRows t with
    | r :: rs =>
      if r.addr = x.1 + 1 then
        ⟨x.1, x.2.1 :: r.bytes, (0, 0, x.2.2, false) :: r.els.map fun e => (e.1 + 1, e.2.1 + 1, e.2.2.1, e.2.2.2)⟩ :: rs
      else ⟨x.1, [x.2.1], [(0, 0, x.2.2, false)]⟩ :: r :: rs
    | [] => [⟨x.1, [x.2.1], [(0, 0, x.2.2, false)]⟩]

/-- What a COPY writes: rows, rows of scales in space 0, and the events of its conversion. -/
structure CopyOut where
  rows : List RowOut
  scales : List RowOut
  ev : Events
deriving DecidableEq, Repr

/-- A bit copy: bytes and the poison of the lines they come from. -/
def State.bitCopy (s : State) (a b : Side) : CopyOut :=
  let rows := (List.zip a.placed.spans (Tile.spans { b.tile with addr := b.base })).map fun p =>
    let bs := memGetN s.mem p.1.1 p.1.2
    let els := (List.range p.1.2).map fun i => (i, i, (lineHalves (p.1.1 + i) 1).any s.poison.contains, false)
    { addr := p.2.1, bytes := bs, els := els }
  ⟨rows, [], {}⟩

/-- A conversion (R192). Log entry 75, DEDUCED. -/
def State.convert (s : State) (x : Engine) (c : CopyStep) (a b : Side) : CopyOut :=
  let rm := (rmOfCode c.rm).getD .rne
  let org (i : Nat) : Nat := if c.creg = 0 then 0 else (x.xr ((c.creg - 1 + i) % 8)).toNat
  let t : Tile := { b.tile with addr := b.base }
  let vals := (List.range t.rows).map fun i => (List.range t.cols).map fun j => s.src a.placed i j
  let st := t.encodeTile s rm ⟨x.seed, c.tensor, c.stage⟩ (org 0) (org 1) vals
  let idx := List.zip (List.range st.rows.length) st.rows
  let rows := idx.map fun p => rowOfWrs (t.rowAddr p.1) t.fmt.bits p.2
  let errs := if t.fmt = .accp then
      idx.map fun p => rowOfWrs (t.rowAddr (t.rows + p.1)) 32 (p.2.map fun w => ⟨0, {}, w.bad⟩)
    else []
  ⟨rows ++ errs, scaleRows st.scales, st.events⟩

/-- The stream of a side with the staging address word of each row (R200). -/
def State.stream (s : State) (x : Side) : List (Nat × List Byte) :=
  x.placed.spans.map fun p =>
    (stagWord x.space x.hi (if x.space = 0 then p.1 else x.base + (p.1 - x.at)), memGetN s.mem p.1 p.2)

def feedAll (c : Cvu) (rows : List (Nat × List Byte)) : Cvu := rows.foldl (fun c r => c.feed r.1 r.2) c

/-- Feeds the CVU and the SHA context from a COPY. -/
def Engine.consume (x : Engine) (c : CopyStep) (src dst : List (Nat × List Byte)) : Engine :=
  let x := if c.cvu then
      { x with cvu := x.cvu.map fun v => feedAll v (if v.side = 0 then src else dst) }
    else x
  if c.sha then { x with shaP := x.shaP ++ src.flatMap (·.2) } else x

/-- Queues the bursts of a COPY and its arrival. Its conversion events go to the strand that started the program. -/
def State.copyGo (s : State) (e : EngineId) (c : CopyStep) (a b : Side) : State :=
  let x := s.engine e
  let o := match x.fetch with | some f => s.overlay a f | none => s
  let out := if c.bitcopy then o.bitCopy a b else o.convert x c a b
  let cls := fld s.col.eng.toNat (2 * e.val) 2
  let atom := b.space == 2 && cls == 2
  let tc := if cls = 0 then 0 else 2
  let bursts := ((out.rows.flatMap fun r => r.bursts b.space b.hi atom tc)
    ++ (out.scales.flatMap fun r => r.bursts 0 0 false 0)).map fun r => { r with remote := a.space != 0 }
  let dst := out.rows.map fun r => (stagWord b.space b.hi r.addr, r.bytes)
  let arr : Option Arrive := if c.arrive then
      some { space := b.space, dst := b.hi, strand := c.astrand, flag := c.aflag, late := b.space == 2 && cls != 0 }
    else none
  let x := x.consume c (o.stream a) dst
  let s := (s.setEngine e { x with fetch := none, bursts := bursts, arrival := arr }).count (fin32 x.owner) out.ev
  if bursts.isEmpty && arr.isNone then s.engNext e else s

/-- Arrays that the headers of a COPY name, column sums of the source included (R50, R56). -/
def copyArrays (a b : Side) : List (Nat × Nat) := a.tile.sideRanges ++ a.tile.sumRanges ++ b.tile.sideRanges

/-- Ranges of space 0 that a COPY reads. -/
def copyReads (a b : Side) : List (Nat × Nat) :=
  (if a.space = 0 then a.tile.spans else []) ++ copyArrays a b

/-- Writes of the program to the source's space that are not yet visible and that the COPY would read (R189). -/
def State.ownWrites (s : State) (e : EngineId) (a : Side) : Bool :=
  let src := (a.base, a.tile.extent)
  if a.space = 1 then
    s.host.d2h.any fun r => r.1 == .engine e && !r.2.1 && overlap (r.2.2.1, r.2.2.2) src
  else (s.engine e).peers.any fun p => !p.isRead && p.dst == a.hi && overlap (p.addr, p.bytes) src

/-- Asks for the next piece of a remote source. Log entry 71, DEDUCED. -/
def State.fetchNext (s : State) (e : EngineId) : State :=
  let x := s.engine e
  match x.fetch with
  | none => s
  | some f =>
    match f.todo with
    | [] => s
    | p :: t =>
      if f.space = 1 then
        if !s.cxlOn then s
        else
        let s := s.setEngine e { x with fetch := some { f with todo := t, waiting := some p } }
        let s := { s with host := { s.host with d2h := s.host.d2h ++ [(D2HAgent.engine e, true, p.1, p.2)] } }
        s.send (.d2hRead (.engine e) p.1 p.2)
      else
        match x.freeTag with
        | none => s
        | some k =>
          let peer : PeerOut := { dst := f.dst, tag := k, addr := p.1, bytes := p.2, isRead := true }
          let s := s.setEngine e { x with fetch := some { f with todo := t, waiting := some p }, peers := x.peers ++ [peer],
                                          tag := (k + 1) % 2048 }
          let m := { simpleMsg mtReadReq (tagOf e k) p.1 0 with lenm1 := p.2 - 1 }
          s.request e 0 f.dst m

/-- A remote source has arrived whole. -/
def Fetch.complete (f : Fetch) : Bool := f.todo.isEmpty && f.waiting.isNone

/-- Headers that a COPY reads; a bit copy reads none (R192). -/
def CopyStep.headers (c : CopyStep) : List (Nat × Nat) := if c.bitcopy then [] else headersOf [c.srcsh, c.dstsh]

/-- A COPY at its step: a remote source is fetched first, then the bursts are queued. A step whose opcode is reserved is
a decode fault. -/
def State.copyStep (s : State) (e : EngineId) (r : StepRead) : State :=
  let st := r.step
  let c := copyOf st
  let i : Instr := .copy e r
  let go (s : State) (a b : Side) : State :=
    if s.loopWrites e (copyReads a b) then s
    else match s.gate i (copyReads a b) [] with
    | some t => t
    | none =>
      let t := s.engMark (c.headers ++ copyReads a b) r.found
      match t.copySides e c with
      | .ok (a, b) => t.copyGo e c a b
      | .error _ => t.copyGo e c a b
  if s.mayStep e st && !knownStep (stF st 0 1) then s.engineFault e .decode
  else
    s.stepRun e st 0x01 (c.decOk st) fun s =>
      match s.engReads e i c.headers with
      | some t => .ok t
      | none =>
      match s.copySides e c with
      | .error k => .error k
      | .ok (a, b) =>
        if !s.sideReach a then .ok (s.addressFault e a.tile.addr a.tile.extent false)
        else if !s.sideReach b then .ok (s.addressFault e b.tile.addr b.tile.extent true)
        else
          match (copyArrays a b).find? fun p => p.2 != 0 && !s.engReach p.1 p.2 with
          | some p => .ok (s.addressFault e p.1 p.2 false)
          | none =>
          match (s.engine e).fetch with
          | some f =>
            if f.complete then .ok (go s a b) else .ok (if f.waiting.isNone then s.fetchNext e else s)
          | none =>
            if a.space = 0 then .ok (go s a b)
            else if s.ownWrites e a then .ok s
            else
              let pcs := (Tile.spans { a.tile with addr := a.base }).flatMap fun p => blocks256 p.1 p.2
              let f : Fetch := { space := a.space, dst := a.hi, todo := pcs, got := [], poison := [], waiting := none }
              .ok ((s.modEngine e fun x => { x with fetch := some f }).fetchNext e)

/-- The step the engine stands at goes on, when it is a COPY whose source is now whole. -/
def State.copyResume (s : State) (e : EngineId) : State :=
  match (s.engine e).store[(s.engine e).step]? with
  | none => s
  | some st => s.copyStep e { step := st }

/-- Bytes of the awaited piece arrive, each with its poison; the next piece is asked for, or the COPY goes on. -/
def State.fetchData (s : State) (e : EngineId) (bs : List Byte) (bad : List Bool) (last : Bool) : State :=
  let x := s.engine e
  match x.fetch with
  | none => s
  | some f =>
    let f := { f with got := f.got ++ bs, poison := f.poison ++ bad, waiting := if last then none else f.waiting }
    let s := s.setEngine e { x with fetch := some f }
    if !last then s
    else if f.todo.isEmpty then s.copyResume e
    else if s.engGo e then s.fetchNext e else s

/-! ### Bursts (R193, R64, R278) -/

/-- The front burst leaves the queue; its vanished elements count at its end. -/
def Engine.popBurst (x : Engine) (b : Burst) : Engine :=
  { x with bursts := x.bursts.tail, vanish := satAdd x.vanish b.vanish, storing := false }

/-- After its last burst a step without an arrival is over. -/
def State.burstDone (s : State) (e : EngineId) : State :=
  let x := s.engine e
  if x.faulting then s.settleEngine e
  else if x.bursts.isEmpty && x.arrival.isNone && x.run == .running then s.engNext e else s

def State.burstWrite (s : State) (e : EngineId) (found : EccList) : State :=
  let x := s.engine e
  match x.bursts with
  | [] => s
  | b :: _ =>
    let n := b.bytes.length
    if !s.engGo e then s
    else if b.space = 0 then
      if !s.engReach b.addr n then s.addressFault e b.addr n true
      else
        match s.gateWith true (.burstWrite ⟨e, found⟩) [] [(b.addr, n)] with
        | some t => t.engStoring e
        | none =>
          let s := (s.strike found).write b.addr b.bytes b.poison
          let s := if b.poison && b.remote then s.poisonWritten b.addr else s
          (s.setEngine e (x.popBurst b)).burstDone e
    else if b.space = 1 then
      if !s.cxlOn then s
      else
      let y := x.popBurst b
      let s := s.setEngine e { y with hostWrites := y.hostWrites + 1 }
      let s := { s with host := { s.host with d2h := s.host.d2h ++ [(D2HAgent.engine e, false, b.addr, n)] } }
      (s.send (.d2hWrite (.engine e) b.addr b.bytes b.poison)).burstDone e
    else
      match x.freeTag with
      | none => s
      | some k =>
        let y := x.popBurst b
        let peer : PeerOut := { dst := b.dst, tag := k, addr := b.addr, bytes := n, isRead := false }
        let s := s.setEngine e { y with peers := y.peers ++ [peer], tag := (k + 1) % 2048 }
        let m : ColMsg := { mtype := if b.atom then mtAtomAdd else mtWrite,
                            poison := if b.poison then poisonBits b.addr (fun l => l * 64 < b.addr + n) else 0,
                            lenm1 := n - 1, tag := tagOf e k, addr := b.addr, offset := 0, blenm1 := n - 1, cause := 0,
                            data := b.bytes }
        (s.request e b.tc b.dst m).burstDone e

/-! ### COLSUM (R59, R196) -/

/-- S[n] of a weight tile, exact; tensor scales are ignored. -/
def State.colTotal (s : State) (t : Tile) (c : Nat) : Val :=
  (List.range t.rows).foldl (fun v r =>
    v.add (applyFine (decodeElem t.fmt t.zp (t.table s.mem) (t.code s.mem r c)) (t.fine s.mem r c))) Val.zero

/-- A NaN among the products of column c (Table 2.12). -/
def State.colNan (s : State) (t : Tile) (c : Nat) : Bool :=
  (List.range t.rows).any fun r =>
    (applyFine (decodeElem t.fmt t.zp (t.table s.mem) (t.code s.mem r c)) (t.fine s.mem r c)).isNan

/-- One column sum as stored: FP32, or INT32 modulo 2^32. nan: one of its inputs was NaN. -/
def sumCode (dst : Fmt) (v : Val) (nan : Bool) : Nat × Events :=
  if dst = .int32 then
    (match v with | .fin x => wrap 32 x.floorInt | _ => 0, {})
  else
    let cv := toFp32 .rne 0 v
    (cv.code, elemEvents v v cv nan)

/-- Column sums. One that is flushed to zero counts in STG_VANISH_COUNT. Log entry 142, DESIGN CHOICE. -/
def execColsum (e : EngineId) (r : StepRead) (s : State) : Out1 :=
  let st := r.step
  let src := stF st 8 16
  let dst := stF st 0x18 16
  .next (s.stepRun e st 0x02
    (onlyFields st [(0, 1), (8, 16), (0x18, 16), (0x28, 8)] && tdSptr src == 0 && tdSptr dst == 0) fun s =>
    let x := s.engine e
    let i : Instr := .colsum e r
    match s.engReads e i (headersOf [stF st 0x28 8]) with
    | some t => .ok t
    | none =>
    match s.side x src (stF st 0x28 8) 0 0 0, bareSide x dst 0 0 0 with
    | .ok a, .ok b =>
      let w := a.tile
      let d := b.tile
      let ok := w.fmt.roleW && d.sparse == 0 && d.rows == 1 && d.cols == w.cols
        && (d.fmt == .fp32 || (d.fmt == .int32 && w.fmt.isIntegerClass && w.skind == 0))
        && !isBasin d.addr
      if !ok then .error .format
      else if !s.sideReach a then .ok (s.addressFault e w.addr w.extent false)
      else if !s.sideReach b then .ok (s.addressFault e d.addr d.extent true)
      else
        match s.engReads e i w.ranges with
        | some t => .ok t
        | none =>
          let s := s.engMark (headersOf [stF st 0x28 8] ++ w.spans ++ w.sideRanges) r.found
          let w := match s.side x src (stF st 0x28 8) 0 0 0 with | .ok a => a.tile | .error _ => w
          let ws := (List.range d.cols).map fun c =>
            let k := sumCode d.fmt (s.colTotal w c) (s.colNan w c)
            (⟨k.1, k.2, (List.range w.rows).any fun r => s.elemBad w r c⟩ : Wr)
          let ev := ws.foldl (fun a x => a.add x.ev) {}
          let bursts := (rowOfWrs d.addr d.fmt.bits ws).bursts 0 0 false 0
          .ok ((s.setEngine e { x with bursts := bursts }).count (fin32 x.owner) ev)
    | .error k, _ => .error k
    | _, .error k => .error k)

/-! ### BUCKET (R176, R177, R197) -/

structure BucketStep where
  fixed : Bool
  ktop : Nat
  m : Nat
  experts : Nat
  pos : Nat
  gate : Nat
  bk : Nat
  stride : Nat
  cb : Nat
  cbrow : Nat
  src : Tile
  region : Nat
deriving DecidableEq, Repr

/-- Parameters of a BUCKET step of engine e; none: a field outside Table 10.5. -/
def bucketOf (e : EngineId) (st : Step512) : Option BucketStep :=
  match tileFields (stF st 0x18 16) with
  | none => none
  | some t =>
    let b : BucketStep := { fixed := stF st 1 1 == 1, ktop := stF st 2 1, m := stF st 4 2, experts := stF st 6 2,
                            pos := stF st 8 8, gate := stF st 0x10 8, bk := scratchBase (engRegion e) + stF st 0x28 4,
                            stride := stF st 0x2C 4, cb := stF st 0x30 8, cbrow := stF st 0x38 4, src := t, region := engRegion e }
    let ok := stF st 1 1 < 2 && 1 ≤ b.ktop && b.ktop ≤ 8 && 1 ≤ b.m && b.m ≤ 4096 && 1 ≤ b.experts && b.experts ≤ 4096
      && stF st 0x28 4 % 64 == 0 && stF st 0x28 4 < scratchSize && b.stride % 64 == 0 && t.shapeOk && t.rows == b.m && t.sparse == 0
    if ok then some b else none

def BucketStep.recAt (b : BucketStep) (i : Nat) : Nat := b.bk + i * b.stride

/-- What the step holds of each bucket: COUNT, CAP, DROPPED, ACTADDR, and the poison of the record. -/
structure Bk where
  count : Nat
  cap : Nat
  dropped : Nat
  act : Nat
  last : Nat
  bad : Bool
deriving DecidableEq, Repr

/-- The step's progress: buckets by expert, what it writes and what it reads, each the latest first; it ends at a read that
the engine does not reach. -/
structure BkRun where
  bks : List (Nat × Bk)
  out : List (Nat × List Byte × Bool)
  fault : Option SKind
  reads : List (Nat × Nat) := []
deriving DecidableEq, Repr

def BkRun.put (r : BkRun) (a : Nat) (bs : List Byte) (bad : Bool) : BkRun := { r with out := (a, bs, bad) :: r.out }

/-- The procedure reads n bytes at a, or ends there. -/
def State.bkRead (s : State) (a n : Nat) (r : BkRun) (f : BkRun → BkRun) : BkRun :=
  let r := { r with reads := (a, n) :: r.reads }
  if s.engReach a n then f r else { r with fault := some .address }

/-- The start of the procedure for bucket i. A CAP outside its range is a format fault. Log entry 164, DESIGN CHOICE. -/
def State.bkInit (s : State) (b : BucketStep) (r : BkRun) (i : Nat) : BkRun :=
  if r.fault.isSome then r
  else
    let a := b.recAt i
    if !inScratch b.region a 128 then { r with fault := some .address }
    else s.bkRead (a + 0x40) 64 r fun r =>
      let h := s.read (a + 0x40) 64
      let cap := fieldLE h.1 4 4
      if cap = 0 ∨ 4096 < cap ∨ (b.fixed && cap < b.m) then { r with fault := some .format }
      else if !inScratch b.region a (128 + 12 * cap) then { r with fault := some .address }
      else
        let k : Bk := { count := 0, cap := cap, dropped := 0, act := fieldLE h.1 0x10 8, last := b.m, bad := h.2 }
        let r := { r with bks := assocSet i k r.bks }
        let r := (r.put (a + 0x40) (leBytes 4 0) false).put (a + 0x48) (leBytes 4 0) false
        if b.fixed then
          (r.put (a + 0x80) (List.replicate (8 * cap) 0xFF) false).put (a + 0x80 + 8 * cap) (List.replicate (4 * cap) 0) false
        else r

/-- Token t's entry at position x of bucket e, whose record is k: the lists, the gate, in compact mode the source row, and the
count. The rows at ACTADDR lie one stride of SRC apart. Log entry 165, DESIGN CHOICE. -/
def State.bkEnter (s : State) (b : BucketStep) (t slot e x : Nat) (k : Bk) (bad : Bool) (r : BkRun) : BkRun :=
  let a := b.recAt e
  let r := (r.put (a + 0x80 + 4 * x) (leBytes 4 t) bad).put (a + 0x80 + 4 * k.cap + 4 * x) (leBytes 4 slot) bad
  s.bkRead (b.gate + 4 * slot) 4 r fun r =>
    let g := s.read (b.gate + 4 * slot) 4
    let r := r.put (a + 0x80 + 8 * k.cap + 4 * x) g.1 (bad || g.2)
    let done (r : BkRun) : BkRun :=
      { r.put (a + 0x40) (leBytes 4 (k.count + 1)) bad with
        bks := assocSet e { k with count := k.count + 1, last := t, bad := bad } r.bks }
    if b.fixed then done r
    else s.bkRead (b.src.rowAddr t) b.src.rowBytes r fun r =>
      let row := s.read (b.src.rowAddr t) b.src.rowBytes
      done (r.put (k.act + x * b.src.stride) row.1 (row.2 || bad))

/-- One rank of one token. -/
def State.bkSlot (s : State) (b : BucketStep) (t : Nat) (r : BkRun) (j : Nat) : BkRun :=
  if r.fault.isSome then r
  else
    let slot := t * b.ktop + j
    s.bkRead (b.pos + 4 * slot) 4 r fun r =>
      let p := s.read (b.pos + 4 * slot) 4
      let e := leValue p.1
      let zero (r : BkRun) : BkRun := r.put (b.cb + slot * b.cbrow) (List.replicate b.cbrow 0) p.2
      if e = 0xFFFFFFFF then zero r
      else if b.experts ≤ e then { r with fault := some .format }
      else
        let k := assoc e { count := 0, cap := 0, dropped := 0, act := 0, last := b.m, bad := false } r.bks
        let bad := p.2 || k.bad
        let x := if b.fixed then t else k.count
        if b.fixed && k.last == t then { r with fault := some .format }
        else if x < k.cap then s.bkEnter b t slot e x k bad r
        else
          let d := satAddN 32 k.dropped 1
          let r := zero (r.put (b.recAt e + 0x48) (leBytes 4 d) bad)
          { r with bks := assocSet e { k with dropped := d, bad := bad } r.bks }

/-- The whole procedure. -/
def State.bkRun (s : State) (b : BucketStep) : BkRun :=
  let r := (List.range b.experts).foldl (s.bkInit b) ⟨[], [], none, []⟩
  (List.range b.m).foldl (fun r t => (List.range b.ktop).foldl (s.bkSlot b t) r) r

/-- The step's writes are visible in order; a fault leaves those before it (log entry 33, DEDUCED). The scale pointer of SRC is a
field that the step does not use. -/
def execBucket (e : EngineId) (q : StepRead) (s : State) : Out1 :=
  let st := q.step
  .next (s.stepRun e st 0x03
    (onlyFields st [(0, 3), (4, 2), (6, 2), (8, 8), (0x10, 8), (0x18, 16), (0x28, 4), (0x2C, 4), (0x30, 8), (0x38, 4)]
      && tdSptr (stF st 0x18 16) == 0)
    fun s =>
      match bucketOf e st with
      | none => .error .format
      | some b =>
        let head (r : BkRun) : List (Nat × List Byte × Bool) := r.out.reverse.takeWhile fun w => s.engReach w.1 w.2.1.length
        let r0 := s.bkRun b
        match s.engReads e (.bucket e q) (r0.reads.filter fun p => s.engReach p.1 p.2) with
        | some t => .ok t
        | none =>
          match s.gateWith true (.bucket e q) [] ((head r0).map fun w => (w.1, w.2.1.length)) with
          | some t => .ok (t.engStoring e)
          | none =>
            let s := s.engMark (r0.reads.filter fun p => s.engReach p.1 p.2) q.found
            let r := s.bkRun b
            let t := (head r).foldl (fun s w => s.write w.1 w.2.1 w.2.2) s
            match r.out.reverse.find? fun w => !s.engReach w.1 w.2.1.length with
            | some w => .ok (t.addressFault e w.1 w.2.1.length true)
            | none =>
              match r.reads.find? fun p => !s.engReach p.1 p.2 with
              | some p => .ok (t.addressFault e p.1 p.2 false)
              | none =>
                match r.fault with
                | some k => .ok (t.stepFault e k)
                | none => .ok (t.engStored e))

/-! ### END (R201, R249, R272) -/

def execStgEnd (e : EngineId) (st : Step512) (s : State) : Out1 :=
  .next (s.stepRun e st 0x3F (onlyFields st [(0, 1)]) fun s =>
    .ok ((s.modEngine e fun x => { x with ending := true }).settleEngine e))

end Sys2Proof.Machine
end

