-- ==== Sys2Proof/Machine/Queue.lean ====
section
/-!
DEFINITION. The queue engine: enabling and disabling queues, doorbells, dispatch, binary loading, completion records and
LAUNCHIF submissions (08 R143 to R147; 11 R214 to R227; 12 R260, R261).
-/
namespace Sys2Proof.Machine

open Sys2Proof

def State.setQe (s : State) (e : Qe) : State := { s with qe := e }

/-! ### Queue entries (R214 to R216) -/

structure QEnt where
  type : Nat
  flags : Nat
  log : Nat
  cls : Nat
  vector : Nat
  base : Nat
  head : Nat
  tail : Nat
  phase : Nat
deriving DecidableEq, Repr

def parseEntry (bs : List Byte) : QEnt :=
  { type := fieldLE bs 0 1, flags := fieldLE bs 1 1, log := fieldLE bs 2 1, cls := fieldLE bs 3 1,
    vector := fieldLE bs 4 2, base := fieldLE bs 8 8, head := fieldLE bs 0x10 4, tail := fieldLE bs 0x14 4,
    phase := fieldLE bs 0x18 1 % 2 }

def QEnt.host (q : QEnt) : Bool := bitAt q.flags 0
def QEnt.feed (q : QEnt) : Bool := bitAt q.flags 1
def QEnt.ien (q : QEnt) : Bool := bitAt q.flags 2
def QEnt.recSize (q : QEnt) : Nat := if q.type = 2 ∧ bitAt q.flags 3 then 128 else 64
def QEnt.size (q : QEnt) : Nat := 2 ^ q.log
/-- Records held, D of R214. -/
def QEnt.held (q : QEnt) : Nat := (q.tail + 2 ^ 32 - q.head) % 2 ^ 32
def QEnt.slot (q : QEnt) (i : Nat) : Nat := q.base + i % q.size * q.recSize

def State.ent (s : State) (q : Nat) : QEnt := parseEntry (s.qEntry q)
def State.entAddr (s : State) (q : Nat) : Nat := qeEntry s.qe.qtbase.toNat q
def State.entBad (s : State) (q : Nat) : Bool := (s.read (s.entAddr q) 64).2

/-- The entry of queue q is read. -/
def State.meetEnt (s : State) (q : Nat) : State := s.meet [(s.entAddr q, 64)]

/-- The line as it was read, written back whole with new HEAD, TAIL and PHASE. -/
def State.putEnt (s : State) (q : Nat) (x : QEnt) : State :=
  let bs := s.entLine q
  let bs := bs.take 0x10 ++ leBytes 4 x.head ++ leBytes 4 x.tail ++ leBytes 1 x.phase ++ bs.drop 0x19
  let e := s.qe
  let keep (p : Nat × List Byte) : Nat × List Byte := if p.1 == q then (q, p.2.take 16 ++ leBytes 1 x.phase) else p
  (s.setQe { e with enabled := e.enabled.map keep, line := e.line.map fun p => if p.1 = q then (q, bs) else p }).write
    (s.entAddr q) bs false

/-- Begins a transaction on the ring of queue q in host memory: the QE has read the entry and has yet to write it back. -/
def State.qeBegin (s : State) (t : QeHost) (q : Nat) : State :=
  s.setQe { s.qe with host := some t, line := some (q, s.entLine q) }

/-- Queue whose entry the answer to the QE's transaction writes. -/
def QeHost.queue : QeHost → Option Nat
  | .readRec q => some q
  | .writeRec cq _ => some cq
  | .writeLaunch q _ => some q
  | .dropped => none

/-- Disables a queue: its ready bit is cleared, completions waiting for it are discarded, and a transaction on its ring
moves nothing any more (R215). -/
def State.disableQueue (s : State) (q : Nat) : State :=
  let e := s.qe
  let lost := e.records.filter fun r => r.cq == q
  let host := e.host.map fun t => if t.queue == some q then .dropped else t
  let line := e.line.filter fun p => p.1 != q
  let s := s.setQe { e with host := host, line := line, enabled := e.enabled.filter (fun p => p.1 != q), ready := e.ready.filter (· != q),
                            blocked := e.blocked.filter (fun p => p.1 != q), records := e.records.filter fun r => r.cq != q }
  lost.foldl (fun s _ => s.discardCompletion q) s

/-- A poisoned queue entry disables the queue (R321; log entry 30, DEDUCED). Log entry 108, DEDUCED. -/
def State.poisonedQueue (s : State) (q : Nat) : State :=
  ((s.readMark (s.entAddr q) 64).disableQueue q).logEv 1 3 0x50 0x1A (s.entAddr q) q

/-- Checks of Table 11.1 at enable; fields of the other ring type are ignored. -/
def entryOk (bs : List Byte) : Bool :=
  let q := parseEntry bs
  let align := min (q.size * q.recSize) 4096
  let fits := if q.host then q.base + q.size * q.recSize ≤ 2 ^ 52 else q.base + q.size * q.recSize ≤ 0xF000000000
  (q.type == 1 || q.type == 2) && q.flags < 16 && 4 ≤ q.log && q.log ≤ 20
    && (q.type == 2 || q.cls < 16) && (q.type == 1 || q.vector < 2048)
    && fieldLE bs 6 2 == 0 && allZero ((bs.drop 0x19).take 39) && q.base % align == 0 && fits

def State.qeStat (s : State) (st err : Nat) : State := s.setQe { s.qe with state := st, err := err }

/-- Fields of QE_QCMD as GO starts it. -/
def State.qeCmd (s : State) (op q : Nat) : State :=
  s.setQe { s.qe with op := BitVec.ofNat 2 op, qid := BitVec.ofNat 20 q }

def execQueueEnable (q : QueueId) (s : State) : Out1 :=
  if !s.fabricOn then s.noBar0
  else if s.qe.state = 1 then .next s
  else
    let s := s.qeCmd 1 q.val
    let a := s.entAddr q.val
    if s.queueOn q.val then .next (s.qeStat 3 2)
    else
      match s.gate (.queueEnable q) [(a, 64)] [] with
      | some t => .next (t.qeStat 1 0)
      | none =>
        let s := s.meetEnt q.val
        if s.entBad q.val then .next ((s.poisonedQueue q.val).qeStat 3 1)
        else if !entryOk (s.qEntry q.val) then .next (s.qeStat 3 1)
        else
          match s.gate (.queueEnable q) [] [(a, 64)] with
          | some t => .next (t.qeStat 1 0)
          | none =>
            let cfg := (s.qEntry q.val).take 0x10 ++ [1]
            let s := s.putEnt q.val { s.ent q.val with head := 0, tail := 0, phase := 1 }
            .next ((s.setQe { s.qe with enabled := assocSet q.val cfg s.qe.enabled }).qeStat 2 0)

def execQueueDisable (q : QueueId) (s : State) : Out1 :=
  if !s.fabricOn then s.noBar0
  else if s.qe.state = 1 then .next s
  else
    let s := s.qeCmd 2 q.val
    if !s.queueOn q.val then .next (s.qeStat 3 2) else .next ((s.disableQueue q.val).qeStat 2 0)

/-- A misaligned value while a queue is enabled meets both conditions of R217: the lower code is reported. Log entry 154,
DEDUCED. -/
def execQtbaseWrite (v : Word64) (s : State) : Out1 :=
  if !s.fabricOn then s.noBar0
  else if v.toNat % 2 ^ 26 ≠ 0 then .next (s.qeStat 3 3)
  else if !s.qe.enabled.isEmpty then .next (s.qeStat 3 4)
  else .next (s.setQe { s.qe with qtbase := v })

/-! ### Doorbells (R218, R219) -/

def State.rejectDb (s : State) (q : Nat) : State :=
  s.setQe { s.qe with dbErr := satAdd s.qe.dbErr 1, errQid := BitVec.ofNat 20 q }

/-- A submission queue with records turns ready, unless its head is blocked. Log entry 72, DEDUCED. -/
def State.setReady (s : State) (q : Nat) : State :=
  if s.qe.blocked.any (fun p => p.1 == q) then s else s.setQe { s.qe with ready := setInsert q s.qe.ready }

/-- What a doorbell with count t does to queue q once its entry may be read: refused, stale, or the new count (R219). The
entry is written back whole in each case (R216). -/
def State.ringDoorbell (s : State) (q t : Nat) : State :=
  let x := s.ent q
  let d := (t + 2 ^ 32 - x.head) % 2 ^ 32
  if x.type = 1 ∧ x.feed then (s.putEnt q x).rejectDb q
  else if x.type = 1 then
    if x.size < d then (s.putEnt q x).rejectDb q
    else if d < x.held then s.putEnt q x
    else
      let s := s.putEnt q { x with tail := t }
      if d = 0 then s else s.setReady q
  else if x.held < d then (s.putEnt q x).rejectDb q
  else s.putEnt q { x with head := t }

/-- A doorbell waits; the QE applies those behind it after it, in their order (R219). -/
def State.doorbellHeld (s : State) : Bool := s.coh.held.any fun c => match c with | .doorbell .. => true | _ => false

def execDoorbell (i : Fin 64) (bytes : Nat) (v : Word64) (s : State) : Out1 :=
  if !s.fabricOn then s.noBar0
  else if bytes ≠ 8 then .next (s.setQe { s.qe with dbErr := satAdd s.qe.dbErr 1 })
  else if s.doorbellHeld then .next (s.holdReq (.doorbell i bytes v))
  else
    let q := fld v.toNat 0 20
    if !s.queueOn q then .next (s.rejectDb q)
    else
      match s.gate (.doorbell i bytes v) [(s.entAddr q, 64)] [(s.entAddr q, 64)] with
      | some u => .next u
      | none =>
        let s := s.meetEnt q
        .next (if s.entBad q then s.poisonedQueue q else s.ringDoorbell q (fld v.toNat 32 32))

/-! ### Dispatch (R222, R223, R260) -/

/-- WROOT: SHA-256 over the valid entries of the weight-digest table. -/
def Wdt.root (t : Wdt) : List Byte := sha256 (t.entries.flatMap fun e => leBytes 2 e.1 ++ e.2)

/-- A strand that a launch may take (R222). -/
def State.strandIdle (s : State) (n : StrandId) : Bool :=
  let x := s.strand n
  x.run == .idle && !x.disabled && s.awake (regionOf n)

/-- Record checks of R223. -/
def recordOk (bs : List Byte) : Bool :=
  lrMask bs != 0 && lrFlags bs < 4 && fieldLE bs 5 1 == 0 && fieldLE bs 0x14 4 < 2 ^ 20
    && (!lrSign bs || lrDigest bs)

/-- Ready queues of a class. -/
def State.readyOf (s : State) (k : Nat) : List Nat := s.qe.ready.filter fun q => (s.ent q).cls % 16 == k

/-- First ready queue of a class at or after its cursor, wrapping. -/
def State.pickQueue (s : State) (k : Nat) : Option Nat :=
  let qs := s.readyOf k
  let c := s.qe.cursors.toList.getD k 0
  match qs.find? fun q => c ≤ q with
  | some q => some q
  | none => qs.head?

/-- HEAD has moved past a record: the queue stays ready while it holds more, and its class is charged. -/
def State.consumed (s : State) (q : Nat) : State :=
  let x := s.ent q
  let s := s.putEnt q { x with head := (x.head + 1) % 2 ^ 32 }
  let s := if (s.ent q).held = 0 then s.setQe { s.qe with ready := s.qe.ready.filter (· != q) } else s
  s.setArb 0 ((s.arb 0).charge 0 (x.cls % 16) 1)

/-- Takes the record at the head of queue q: it is discarded, refused, dispatched, or blocks the queue. -/
def State.takeRecord (s : State) (q : Nat) (bs : List Byte) (bad : Bool) : State :=
  let x := s.ent q
  let head := (x.head + 1) % 2 ^ 32
  let cq := lrCq bs
  let refuse (s : State) : State :=
    s.addRec { cq := cq, tag := lrTag bs, status := 1, sqid := q, sqhead := head, reason := 1, faultFn := 0xFF,
               faultKind := 0, faultPc := 0, digest := none, digestFailed := false, sign := none }
  if !s.cqOn cq then (s.consumed q).discardCompletion cq
  else if bad || !recordOk bs then refuse (s.consumed q)
  else
    let ns := maskList (lrMask bs)
    if !ns.all (fun i => s.strandIdle (fin32 i)) then
      s.setQe { s.qe with ready := s.qe.ready.filter (· != q), blocked := s.qe.blocked ++ [(q, lrMask bs)] }
    else
      let id := s.nextId
      let l : Launch := { id := id, lrec := bs, sqid := q, sqhead := head, wroot := s.wdt.root, codehash := [],
                          profile := 0, accepted := false, halted := 0, ended := 0, digests := [], digestLost := false,
                          recorded := false, orphan := false, barriers := [] }
      let s := { s.consumed q with nextId := id + 1 }
      let s := s.setQe { s.qe with launches := s.qe.launches ++ [l] }
      ns.foldl (fun s i => s.modStrand (fin32 i) fun y =>
        { y with run := .loading, launch := some { id := id, lrec := bs, sect := [], scaleBase := 0 } }) s

/-- The QE takes no command c: it is stopped, and c has not begun, or it has faulted (R316, R318). -/
def State.qeStops (s : State) (c : Instr) : Bool := s.qeStopped && (s.qe.faulted || !s.resumes c)

/-- The QE grants a class, finds its next ready queue, and takes the record at its head. A ring in host memory is read
over CXL.cache first. -/
def execDispatch (s : State) : Out1 :=
  if !s.unitsOn || s.qeStops .dispatch || s.qe.host.isSome then .next s
  else
    let d := (s.arb 0).pick 0 ((List.range 16).filter fun k => !(s.readyOf k).isEmpty)
    match d.2 with
    | none => .next s
    | some k =>
      match s.pickQueue k with
      | none => .next s
      | some q =>
        match s.gate .dispatch [(s.entAddr q, 64)] [(s.entAddr q, 64)] with
        | some t => .next t
        | none =>
        let s := s.meetEnt q
        if s.entBad q then .next (s.poisonedQueue q)
        else
          let x := s.ent q
          let a := x.slot x.head
          let go (s : State) : State :=
            (s.setArb 0 d.1).setQe { s.qe with cursors := s.qe.cursors.set (fin16 k) ((q + 1) % 2 ^ 20) }
          if x.host then
            if !s.cxlOn then .next s
            else
            let s := go s
            let s := { s with host := { s.host with d2h := s.host.d2h ++ [(D2HAgent.qe, true, a, 64)] } }
            .next ((s.qeBegin (.readRec q) q).send (.d2hRead .qe a 64))
          else
            match s.gate .dispatch [(a, 64)] [] with
            | some t => .next t
            | none =>
              let s := s.meet [(a, 64)]
              let r := s.read a 64
              .next (((go s).readMark a 64).takeRecord q r.1 r.2)

/-! ### Binary load (R83, R98, R116, R133, R140, R143 to R147) -/

def binHeader : Nat := 0x240

/-- Part numbers that a mode has. -/
def partValid (p : Nat) : Bool :=
  match fld p 4 2 with
  | 0 => fld p 6 2 == 0
  | 1 => fld p 6 2 < 2
  | 2 => true
  | _ => false

def sectParts (sect : List Byte) : List Nat := (List.range (fieldLE sect 0 1)).map fun i => fieldLE sect (0x18 + i) 1

def nodup (xs : List Nat) : Bool :=
  match xs with
  | [] => true
  | x :: t => !t.contains x && nodup t

/-- Part set i names entries in use, at least one, of one mode. -/
def psetOk (sect : List Byte) (i : Nat) : Bool :=
  let m := fieldLE sect (0x28 + 2 * i) 2
  let ps := sectPset sect i
  m < 2 ^ fieldLE sect 0 1 && !ps.isEmpty && ps.all fun p => fld p 4 2 == fld (ps.headD 0) 4 2

/-- Field checks of a strand section (Table 8.2, R146); PART and PSET entries past NPART and NPSET are not read. Log entry 148,
DEDUCED. -/
def sectOk (sect : List Byte) : Bool :=
  let np := fieldLE sect 0 1
  let ns := fieldLE sect 1 1
  np ≤ 16 && ns ≤ 16 && fieldLE sect 2 2 ≤ 256 && fieldLE sect 4 4 % 2 ^ 16 == 0
    && fieldLE sect 8 4 % 64 == 0 && fieldLE sect 0x10 4 % 64 == 0
    && (sectParts sect).all partValid && nodup ((sectParts sect).map fun p => fld p 0 8)
    && (List.range ns).all (psetOk sect) && fieldLE sect 0x48 2 < 2 ^ ns && allZero ((sect.drop 0x4A).take 54)

/-- Field checks of the common part, with the code's digest (Table 8.1, R143, R146). -/
def headerOk (h code : List Byte) (profile : Nat) : Bool :=
  let size := fieldLE h 8 4
  let entry := fieldLE h 0xC 4
  let sb := fieldLE h 0x18 8
  fieldLE h 0 4 == 0x3154434F && fieldLE h 4 2 == 1 && fieldLE h 6 2 == 0
    && size % 8 == 0 && 8 ≤ size && size ≤ 65536 && entry % 8 == 0 && entry < size
    && fieldLE h 0x10 8 == profile && sb % 32 == 0 && sb < 2 ^ 42 && place sb != .reserved
    && sha256 code == (h.drop 0x20).take 32

def sectOf (h : List Byte) (n : StrandId) : List Byte := (h.drop (0x40 + 128 * (n.val % 4))).take 128

/-- A claim of a part: block of the chip, mode bits, part. -/
def claimsOf (n : StrandId) (sect : List Byte) : List (Nat × Nat × Nat) :=
  (sectParts sect).map fun p => (16 * regionOf n + fld p 0 4, fld p 4 2, fld p 6 2)

def modeBits (m : PartMode) : Nat := match m with | .whole => 0 | .halves => 1 | .quarters => 2

/-- The claims of a launch neither meet parts owned by strands nor each other, and agree with the modes held. -/
def State.mapOk (s : State) (cs : List (Nat × Nat × Nat)) : Bool :=
  cs.all (fun c =>
    let b := s.block (fin128 c.1)
    let held := b.parts.toList.any fun p => p.owner.isSome
    (b.parts.toList.getD c.2.2 {}).owner.isNone && (!held || modeBits b.mode == c.2.1)
      && cs.all (fun d => c.1 != d.1 || c.2.1 == d.2.1))
    && nodup (cs.map fun c => c.1 * 16 + c.2.1 * 4 + c.2.2)

/-- Strands that hold a loaded launch: running, or faulted and not yet reset. -/
def State.holding (s : State) (n : StrandId) : Bool :=
  match (s.strand n).launch with
  | some l => !l.sect.isEmpty
  | none => false

/-- Areas of a section: accumulator and Basin, as strand addresses. -/
def areasOf (n : StrandId) (sect : List Byte) : List (Nat × Nat) := [sectArea n sect false, sectArea n sect true]

def State.sectHeld (s : State) (n : StrandId) : List Byte := match (s.strand n).launch with | some l => l.sect | none => []

/-- Sections by strand: those held and those of the launch. -/
abbrev Sects := List (StrandId × List Byte)

def State.heldSects (s : State) : Sects :=
  ((List.range 32).map fin32).filterMap fun n => if s.holding n then some (n, s.sectHeld n) else none

/-- Sections of the strands that run (R98, R116, R133); a faulted strand does not. Log entry 130, DEDUCED. -/
def State.runningSects (s : State) : Sects := s.heldSects.filter fun o => (s.strand o.1).run != .faulted

/-- Areas within the scratchpad and the Basin, and apart from those of the strands already running. -/
def areasOk (others : Sects) (n : StrandId) (sect : List Byte) : Bool :=
  fieldLE sect 8 4 + fieldLE sect 0xC 4 ≤ scratchSize && fieldLE sect 0x10 4 + fieldLE sect 0x14 4 ≤ basinSize
    && others.all fun o => (areasOf o.1 o.2).all fun p => (areasOf n sect).all fun q => !overlap p q

/-- Shares of R116: wide enough for the part sets marked, and 256 lanes at most in the region. -/
def shareOk (all : Sects) (n : StrandId) (sect : List Byte) : Bool :=
  let total := (all.filter fun o => regionOf o.1 == regionOf n).foldl (fun a o => a + fieldLE o.2 2 2) 0
  total ≤ 256 && (List.range (fieldLE sect 1 1)).all fun i =>
    !bitAt (fieldLE sect 0x48 2) i || (sectPset sect i).all fun p => 64 / 2 ^ fld p 4 2 ≤ fieldLE sect 2 2

/-- No slot of the list is listed by a strand running in the region, nor twice in the launch (R133). -/
def slotsOk (others : Sects) (n : StrandId) (sect : List Byte) : Bool :=
  (List.range 32).all fun i =>
    !bitAt (fieldLE sect 4 4) i || others.all fun o => regionOf o.1 != regionOf n || !bitAt (fieldLE o.2 4 4) i

/-- The REASON of Table 11.4 for refusing a launch: the lowest of those that hold; 0 to accept (log entry 35, DEDUCED). -/
def State.refusal (s : State) (ns : List StrandId) (h code : List Byte) (bad : Bool) : Nat :=
  let sects : Sects := ns.map fun n => (n, sectOf h n)
  let held := s.runningSects
  let others (n : StrandId) : Sects := held ++ sects.filter fun o => o.1 != n
  if bad || !headerOk h code s.mgt.profile.toNat || !sects.all (fun o => sectOk o.2) then 2
  else if !s.mapOk (sects.flatMap fun o => claimsOf o.1 o.2) then 3
  else if !sects.all (fun o => areasOk held o.1 o.2) then 4
  else if !sects.all (fun o => shareOk (held ++ sects) o.1 o.2) then 5
  else if !sects.all (fun o => slotsOk (others o.1) o.1 o.2) then 6
  else if sects.any (fun o => (s.vsu (regionFin o.1)).disabled) then 7
  else 0

def modeOfBits (k : Nat) : PartMode := if k = 0 then .whole else if k = 1 then .halves else .quarters

/-- Claims a part for a strand: a fresh part in the mode of the map. -/
def State.claimPart (s : State) (n : StrandId) (c : Nat × Nat × Nat) : State :=
  let b := s.block (fin128 c.1)
  s.setBlock (fin128 c.1)
    { b with mode := modeOfBits c.2.1,
             parts := if h : c.2.2 < 4 then b.parts.set c.2.2 { ({} : Part) with owner := some n } else b.parts }

/-- The registers of a strand at the start of a launch (R124, R147, R175). -/
def Strand.atLaunch (x : Strand) (l : Launched) (code : List Word64) (entry : Nat) : Strand :=
  { x with s := Vector.replicate 32 0, f := Vector.replicate 16 0, td := Vector.replicate 64 0,
           p := (Vector.replicate 8 false).set 0 true, af := x.af.map Flag.atLaunch, code := code, inWindow := false,
           wait := .none, pc := entry, reps := [], windowCycles := 0, windowCount := 0, launch := some l, fopSr := 0,
           path := [], broken := false, stg := Vector.replicate 4 .never, digest := none }

/-- Sets up strand n for its launch; it stays loading. -/
def State.setUp (s : State) (n : StrandId) (l : Launched) (h code : List Byte) : State :=
  let words := (pieces 8 code).map fun bs => BitVec.ofNat 64 (leValue bs)
  let sect := sectOf h n
  let s := (claimsOf n sect).foldl (fun s c => s.claimPart n c) s
  let s := s.setVsu (regionFin n) ((List.range 32).foldl (fun v i =>
    if bitAt (fieldLE sect 4 4) i then v.modSlot i fun t => { t with owner := some n } else v) (s.vsu (regionFin n)))
  let s := s.modEngine n fun e => { e with shaD := [] }
  s.modStrand n fun x =>
    x.atLaunch { l with sect := sect, scaleBase := fieldLE h 0x18 8 } words (fieldLE h 0xC 4)

/-- Strands of a launch that still wait in it: none that a function reset has taken out. -/
def State.waitingIn (s : State) (l : Launch) : List StrandId :=
  ((maskList (lrMask l.lrec)).map fin32).filter fun n =>
    match (s.strand n).launch with | some y => y.id == l.id | none => false

/-- Refuses a launch: no strand state changes, and each strand is idle again. -/
def State.refuseLaunch (s : State) (l : Launch) (reason : Nat) : State :=
  let ns := s.waitingIn l
  let s := ns.foldl (fun s n => s.modStrand n fun x => { x with run := .idle, launch := none }) s
  let s := (s.recordLaunch l 1 reason 0xFF 0 0).closeLaunch l.id
  ns.foldl (fun s n => s.unblock n.val) s

/-- The first strand to load checks the launch for all of its strands and sets them up or refuses it; an accepted strand
begins at ENTRY. -/
def execBinaryLoad (n : StrandId) (s : State) : Out1 :=
  let x := s.strand n
  match x.launch with
  | none => .next s
  | some y =>
    if !s.unitsOn || x.run != .loading || x.disabled || !s.awake (regionOf n) then .next s
    else
      match s.launchOf y.id with
      | none => .next s
      | some l =>
        if l.accepted then .next (s.setStrand n { x with run := .running })
        else match s.gate (.binaryLoad n) [(lrBin l.lrec, binHeader)] [] with
        | some t => .next t
        | none =>
          let a := lrBin l.lrec
          let s := s.meet [(a, binHeader)]
          let h := s.read a binHeader
          let size := fieldLE h.1 8 4
          let inDev := a % 64 = 0 ∧ a + binHeader + size ≤ 0xF000000000 ∧ size ≤ 65536
          if !decide inDev then .next (s.refuseLaunch l 2)
          else
            match s.gate (.binaryLoad n) [(a, binHeader + size)] [] with
            | some t => .next t
            | none =>
              let s := s.meet [(a + binHeader, size)]
              let c := s.read (a + binHeader) size
              let ns := s.waitingIn l
              let s := s.readMark a (binHeader + size)
              let why := s.refusal ns h.1 c.1 (h.2 || c.2)
              if why ≠ 0 then .next (s.refuseLaunch l why)
              else
                let s := s.modLaunch l.id fun l =>
                  { l with accepted := true, codehash := (h.1.drop 0x20).take 32, profile := fieldLE h.1 0x10 8 }
                let s := ns.foldl (fun s m => s.setUp m y h.1 c.1) s
                .next (s.modStrand n fun x => { x with run := .running })

/-! ### Completion records (R225 to R227, R261) -/

/-- Bytes of a record with its phase; a signature of the alias key only in the 128-byte form. -/
def recBytes (key : List Byte) (r : CRec) (phase size nonce : Nat) : List Byte :=
  let sign := size == 128 && r.sign.isSome
  let flags := phase + 2 * b2n r.digest.isSome + 4 * b2n sign + 8 * b2n r.digestFailed
  let sig := match r.sign with
    | some m => leBytes 64 (Config.signature key m nonce).toNat
    | none => List.replicate 64 0
  leBytes 2 r.tag ++ leBytes 1 r.status ++ leBytes 1 flags ++ leBytes 4 r.sqid ++ leBytes 4 r.sqhead
    ++ leBytes 1 r.reason ++ leBytes 1 r.faultFn ++ leBytes 1 r.faultKind ++ [0] ++ leBytes 4 r.faultPc
    ++ List.replicate 12 0 ++ (match r.digest with | some d => d | none => List.replicate 32 0)
    ++ (if size = 128 then (if sign then sig else List.replicate 64 0) else [])

def popRec (cq : Nat) : List CRec → List CRec
  | [] => []
  | r :: t => if r.cq == cq then t else r :: popRec cq t

/-- The record has been written: TAIL and PHASE move, and the vector is sent. -/
def State.recordWritten (s : State) (cq : Nat) : State :=
  let x := s.ent cq
  let tail := (x.tail + 1) % 2 ^ 32
  let s := s.putEnt cq { x with tail := tail, phase := if tail % x.size = 0 then 1 - x.phase else x.phase }
  let s := s.setQe { s.qe with records := popRec cq s.qe.records }
  if x.ien then s.sendMsix x.vector else s

def execCompletionRecordWrite (cq : QueueId) (s : State) : Out1 :=
  let q := cq.val
  match s.qe.records.find? fun r => r.cq == q with
  | none => .next s
  | some r =>
    if !s.unitsOn || s.qeStops (.completionRecordWrite cq) || s.qe.host.isSome || !s.cqOn q then .next s
    else match s.gate (.completionRecordWrite cq) [(s.entAddr q, 64)] [(s.entAddr q, 64)] with
    | some u => .next u
    | none =>
    let s := s.meetEnt q
    if s.entBad q then .next (s.poisonedQueue q)
    else
      let x := s.ent q
      if x.size ≤ x.held then .next s
      else
        let a := x.slot x.tail
        let bs := recBytes s.nvm.aliasKey r x.phase x.recSize s.fresh
        let t := { s with fresh := s.fresh + 1 }
        if x.host then
          if !s.cxlOn then .next s
          else
          let t := { t with host := { t.host with d2h := t.host.d2h ++ [(D2HAgent.qe, false, a, x.recSize)] } }
          .next ((t.qeBegin (.writeRec q x.recSize) q).send (.d2hWrite .qe a bs false))
        else
          match s.gate (.completionRecordWrite cq) [] [(a, x.recSize)] with
          | some u => .next u
          | none => .next ((t.write a bs false).recordWritten q)

/-! ### LAUNCHIF (R164, R224) -/

/-- The record has entered its ring: TAIL advances, the queue turns ready, and the strand goes on. -/
def State.launchPut (s : State) (q : Nat) (n : StrandId) (pd : Nat) : State :=
  let x := s.ent q
  let s := (s.putEnt q { x with tail := (x.tail + 1) % 2 ^ 32 }).setReady q
  s.proceed n fun y => y.setPred pd true

/-- A LAUNCHIF aimed at an unfit queue: BADQUEUE on the record's CQ (log entry 28, DESIGN CHOICE). -/
def State.badQueue (s : State) (q : Nat) (bs : List Byte) : State :=
  { s with fresh := s.fresh + 1 }.addRec
    { cq := lrCq bs, tag := lrTag bs, status := 4, sqid := q, sqhead := (Config.badQueueHead q s.fresh).toNat, reason := 0,
      faultFn := 0xFF, faultKind := 0, faultPc := 0, digest := none, digestFailed := false, sign := none }

def execLaunchifSubmit (n : StrandId) (s : State) : Out1 :=
  match (s.strand n).wait with
  | .launchif q bs bad pd =>
    if !s.going n || s.qeStopped || s.qe.host.isSome then .next s
    else match (if s.queueOn q then s.gate (.launchifSubmit n) [(s.entAddr q, 64)] [(s.entAddr q, 64)] else none) with
    | some t => .next t
    | none =>
      let s := if s.queueOn q then s.meetEnt q else s
      let poisoned := s.queueOn q && s.entBad q
      let s := if poisoned then s.poisonedQueue q else s
      let x := s.ent q
      if !s.queueOn q || x.type ≠ 1 || !x.feed then
        .next ((s.badQueue q bs).proceed n fun y => y.setPred pd true)
      else if x.size ≤ x.held then .next s
      else
        let a := x.slot x.tail
        if x.host then
          if !s.cxlOn then .next s
          else
          let s := { s with host := { s.host with d2h := s.host.d2h ++ [(D2HAgent.qe, false, a, 64)] } }
          .next ((s.qeBegin (.writeLaunch q n.val) q).send (.d2hWrite .qe a bs bad))
        else
          match s.gate (.launchifSubmit n) [] [(a, 64)] with
          | some t => .next t
          | none => .next ((s.write a bs bad).launchPut q n pd)
  | _ => .next s

/-! ### Host rings (R294) -/

/-- The host has answered the QE's transaction on a ring in host memory: the entry is written back as the QE holds it, and
what another agent has written there meanwhile is lost (R216). A dispatch or a record write in flight ends even while the
QE is disabled (R316). -/
def State.qeHostDone (s : State) (isRead : Bool) (data : List Byte) (bad : Bool) : State :=
  match s.qe.host with
  | none => s
  | some t =>
    let clear (s : State) : State := s.setQe { s.qe with host := none, line := none }
    let s := if isRead && bad then s.rasCorrected 4 else s
    match t with
    | .dropped => clear s
    | .readRec q => if !isRead then s else clear (if s.queueOn q then s.takeRecord q data bad else s)
    | .writeRec cq _ => if isRead then s else clear (if s.cqOn cq then s.recordWritten cq else s)
    | .writeLaunch q n =>
      if isRead then s
      else
        match (s.strand (fin32 n)).wait with
        | .launchif _ _ _ pd => clear (if s.queueOn q then s.launchPut q (fin32 n) pd else s)
        | _ => clear s

end Sys2Proof.Machine
end

