-- ==== Sys2Proof/Machine/Col.lean ====
section
/-!
DEFINITION. The Col ports: link states, retry, credits, low-power idle, messages delivered to this module, and
forwarding (13 R263 to R284).
-/
namespace Sys2Proof.Machine

open Sys2Proof

/-- A control flit with its free header and payload (log entry 37, DESIGN CHOICE). -/
def ctrlFlit (args : List Nat) : Flit :=
  let v := Config.ctrlHeader args
  { ctrl := true, tc := fld v 0 2, vc := fld v 2 1, ttl := fld v 3 5, dst := fld v 8 12, src := fld v 20 12,
    sport := fld v 32 4, esc := bitAt v 36, payload := leBytes 244 (Config.ctrlPayload args) }

def State.sendCtrl (s : State) (p : PortId) (args : List Nat) : State := s.enqueueFlit p (ctrlFlit args)

/-- The INFO message of this module (R265). -/
def State.sendInfo (s : State) (p : PortId) : State :=
  s.sendCtrl p [0, s.col.modid.toNat, p.val, s.mgt.profile.toNat]

/-! ### Discards (R276) -/

/-- Answers the requests of a forwarded flit with UNREACH. -/
def State.unreachAll (s : State) (f : Flit) (cause : Nat) : State :=
  (parseMsgs f.payload).foldl (fun s m =>
    if wantsUnreach m then s.respond f.src f.requester (simpleMsg mtUnreach m.tag 0 cause) else s) s

def State.countDrop (s : State) (p : PortId) (k : Nat) : State := s.modPort p fun x => { x with drop := satAdd x.drop k }

/-- Discards a flit that no port takes. -/
def State.dropFlit (s : State) (f : Flit) (cause : Nat) : State :=
  if f.ctrl then s
  else if f.via = 0 then
    (parseMsgs f.payload).foldl (fun s m => s.ownLost m)
      { s with col := { s.col with injDrop := satAdd s.col.injDrop 1 } }
  else ((s.countDrop (fin12 ((f.via - 1) / 8)) 1).owe f.via).unreachAll f cause

/-! ### Link states (R280, R281) -/

/-- A port as it begins to train afresh. -/
def Port.afresh (x : Port) : Port :=
  { x with sendSeq := 0, expSeq := 0, retry := [], discarding := false, owesReplay := false, nakSeq := 0, nakCount := 0,
           credits := Vector.replicate 8 32, owed := Vector.replicate 8 0, waiting := [], parked := [], partnerLpi := false, failed := 0,
           retraining := false }

/-- The port carries a link: UP, LPI, or in a retrain that keeps its buffers. -/
def Port.linked (x : Port) : Bool := x.usable || (x.state == .training && x.retraining)

/-- A flit in the receive buffer of port p: it arrived there and waits to leave by some port. -/
def Flit.receivedBy (f : Flit) (p : PortId) : Bool := f.via != 0 && (f.via - 1) / 8 == p.val

/-- Leaves the link for DOWN or DISABLED: what its retry and receive buffers hold is discarded, counted and logged; flits
that waited to leave by it are discarded under R276 (log entry 38, DEDUCED). -/
def State.leaveLink (s : State) (p : PortId) (st : PortState) : State :=
  let held (q : Port) : List Flit := (q : Port).waiting.filter fun f => f.receivedBy p
  let lost := (s.port p).retry.length + (s.port p).parked.length + (s.col.ports.toList.map fun q => (held q).length).sum
  let s := { s with col := { s.col with
    ports := s.col.ports.map fun (q : Port) => { q with waiting := q.waiting.filter fun f => !f.receivedBy p } } }
  let x := s.port p
  let t := s.setPort p { x.afresh with state := st, drop := if x.linked then satAdd x.drop lost else x.drop }
  let t := if x.linked then t.logEv 1 3 (0x40 + p.val) 0x0C 0 (p.val + lost % 2 ^ 32 * 2 ^ 16) else t
  x.waiting.foldl (fun s f => s.dropFlit f 1) t

/-- The host commands a port: the function is in D0 and the chip alive. -/
def execColPortEnable (p : PortId) (s : State) : Out1 :=
  if !s.hostOn then s.noBar0
  else
    let x := s.port p
    .next (s.setPort p { x with
      enable := true, state := if x.state == .disabled && !s.errlog.fatal && !s.board.chipBistLeft then .down else x.state })

def execColPortDisable (p : PortId) (s : State) : Out1 :=
  if !s.hostOn then s.noBar0
  else
    let s := s.modPort p fun x => { x with enable := false }
    .next (if (s.port p).state == .disabled then s else s.leaveLink p .disabled)

/-- Enters LPI when both ends ask for it, nothing is left to send or to acknowledge, and the partner has nothing to replay
(R281). -/
def State.tryLpi (s : State) (p : PortId) : State :=
  let x := s.port p
  if x.state == .up && x.lpi && x.partnerLpi && x.retry.isEmpty && x.waiting.isEmpty && !x.discarding then
    s.setPort p { x with state := .lpi }
  else s

/-- Leaves LPI; the flits that wait go out. -/
def State.leaveLpi (s : State) (p : PortId) : State :=
  let x := s.port p
  if x.state == .lpi then (s.setPort p { x with state := .up }).pump p else s

def execLpiRequest (p : PortId) (s : State) : Out1 :=
  if !s.hostOn then s.noBar0
  else
    let was := (s.port p).lpi
    let s := s.modPort p fun x => { x with lpi := true }
    .next (if (s.port p).state == .up && !was then s.sendCtrl p [2] else s)

def execLpiRelease (p : PortId) (s : State) : Out1 :=
  if !s.hostOn then s.noBar0 else .next ((s.modPort p fun x => { x with lpi := false }).leaveLpi p)

/-- The partner asks for LPI: a port that asks too answers. -/
def execLpiReq (p : PortId) (s : State) : Out1 :=
  if !s.chipOn || (s.port p).state != .up then .next s
  else
    let s := s.modPort p fun x => { x with partnerLpi := true }
    .next ((if (s.port p).lpi then s.sendCtrl p [3] else s).tryLpi p)

def execLpiAck (p : PortId) (s : State) : Out1 :=
  if !s.chipOn || (s.port p).state != .up then .next s
  else .next ((s.modPort p fun x => { x with partnerLpi := true }).tryLpi p)

def execPartnerLpiExit (p : PortId) (s : State) : Out1 :=
  if !s.chipOn then .next s else .next ((s.modPort p fun x => { x with partnerLpi := false }).leaveLpi p)

/-- Starts a retrain: both buffers stay. -/
def State.retrain (s : State) (p : PortId) : State :=
  let x := s.port p
  if x.usable then
    s.setPort p { x with state := .training, retraining := true, failed := 0, nakCount := 0,
                         retrains := BitVec.ofNat 8 (satAddN 8 x.retrains.toNat 1) }
  else s

def execRetrain (p : PortId) (s : State) : Out1 := if !s.hostOn then s.noBar0 else .next (s.retrain p)

def execTrainingAttempt (p : PortId) (s : State) : Out1 :=
  let x := s.port p
  if s.unitsOn && x.state == .down then .next (s.setPort p { x with state := .training, retraining := false }) else .next s

/-- Training is complete and INFO exchanged: the port is UP, and a retrain goes on with its replay. -/
def execTrainingComplete (p : PortId) (modid : BitVec 12) (port : BitVec 4) (profile : Word64) (s : State) : Out1 :=
  let x := s.port p
  if !s.unitsOn || x.state != .training then .next s
  else
    let s := s.setPort p { x with
      state := .up, retrains := 0, failed := 0, retraining := false, partnerId := modid, partnerPort := port,
      partnerValid := true, partnerProfile := profile, mismatch := profile != s.mgt.profile }
    let s := if x.retraining then s.resend p else s
    let s := s.sendInfo p
    .next ((if (s.port p).lpi then s.sendCtrl p [2] else s).pump p)

/-- A training attempt has failed: a fresh one ends in DOWN, a retrain after its third failure. -/
def execTrainingTimeout (p : PortId) (s : State) : Out1 :=
  let x := s.port p
  if !s.unitsOn || x.state != .training then .next s
  else if !x.retraining then .next (s.setPort p { x with state := .down })
  else if 2 ≤ x.failed then .next (s.leaveLink p .down)
  else .next (s.setPort p { x with failed := x.failed + 1, retrains := BitVec.ofNat 8 (satAddN 8 x.retrains.toNat 1) })

def execLossOfSignal (p : PortId) (s : State) : Out1 :=
  let x := s.port p
  if s.unitsOn && (x.usable || x.state == .training) then .next (s.leaveLink p .down) else .next s

/-! ### Retry and credits (R267, R268) -/

/-- Flits from sequence number q on stay in the retry buffer; all of them when q is not among them. -/
def ackTo (q : Nat) (r : List (Nat × Flit)) : List (Nat × Flit) :=
  if r.any fun f => f.1 == q then r.dropWhile fun f => f.1 != q else r

/-- An ACK covers every flit up to SEQ q. -/
def Port.acked (x : Port) (q : Nat) : Port :=
  if x.retry.any fun f => f.1 == q then
    { x with retry := (x.retry.dropWhile fun f => f.1 != q).drop 1, nakCount := 0 }
  else x

/-- A NAK names the SEQ expected next. -/
def State.onNak (s : State) (p : PortId) (q : Nat) : State :=
  let x := s.port p
  let s := s.setPort p { x with
    replay := satAdd x.replay 1, nakSeq := q, nakCount := if x.nakSeq = q then x.nakCount + 1 else 1,
    retry := if x.sendSeq = q then [] else ackTo q x.retry }
  (s.resend p).pump p

def execNak (p : PortId) (seq : BitVec 10) (s : State) : Out1 :=
  if !s.chipOn || (s.port p).state != .up then .next s else .next (s.onNak p seq.toNat)

/-- A receiver that waits repeats its NAK. -/
def execNakRepeat (p : PortId) (s : State) : Out1 :=
  let x := s.port p
  if s.chipOn && x.state == .up && x.discarding then .next (s.send (.flit p (idleBytes true x.expSeq))) else .next s

def execNakLimitRetrain (p : PortId) (s : State) : Out1 :=
  if s.chipOn && 16 ≤ (s.port p).nakCount then .next (s.retrain p) else .next s

/-- Owed credits go back in one CREDIT message, unless the retry buffer is full. -/
def execCreditReturn (p : PortId) (s : State) : Out1 :=
  let x := s.port p
  if s.chipOn && x.state == .up && !x.disabledFn && x.retry.length < 512 && x.owed.toList.any (fun k => k != 0) then
    .next ((s.setPort p { x with owed := Vector.replicate 8 0 }).sendCtrl p (1 :: x.owed.toList))
  else .next s

def execCredit (p : PortId) (vc : Fin 8) (k : Nat) (s : State) : Out1 :=
  if !s.chipOn || (s.port p).state != .up then .next s
  else .next ((s.modPort p fun x => { x with credits := x.credits.set vc (min 32 (x.credits[vc] + k)) }).pump p)

def execInfo (p : PortId) (modid : BitVec 12) (port : BitVec 4) (profile : Word64) (s : State) : Out1 :=
  if !s.chipOn || (s.port p).state != .up then .next s
  else .next (s.modPort p fun x => { x with
    partnerId := modid, partnerPort := port, partnerValid := true, partnerProfile := profile,
    mismatch := profile != s.mgt.profile })

/-! ### Messages delivered to this module (R269 to R272) -/

/-- A Col command of this source that waits at the gate. -/
def State.colHeld (s : State) (src : BitVec 12) : Bool :=
  s.coh.held.any fun c => match c with
    | .write q _ => q == src
    | .atomadd q _ => q == src
    | .colArrive q _ => q == src
    | _ => false

def State.refuseMsg (s : State) (src : BitVec 12) (tag addr : Nat) : State :=
  s.respond src.toNat (s.regionAt addr) (simpleMsg mtUnreach tag 0 4)

/-- The lines of a burst that its POISON bits mark. -/
def markedLines (a n poison : Nat) : List Nat :=
  (List.range (linesOf a n).length).filterMap fun i => if bitAt poison i then some (a / 64 + i) else none

def State.poisonMarked (s : State) (a n poison : Nat) : State :=
  (markedLines a n poison).foldl (fun s l => (s.poisonLines (64 * l) 64).poisonWritten (64 * l)) s

/-- Adds a burst of FP32 elements into memory, line by line; poison of either side stays. -/
def State.atomApply (s : State) (a : Nat) (bs : List Byte) (poison : Nat) : State :=
  let s := s.meet [(a, bs.length)]
  let old := memGetN s.mem a bs.length
  let sums := (List.zip (pieces 4 old) (pieces 4 bs)).flatMap fun p =>
    leBytes 4 (add32 (BitVec.ofNat 32 (leValue p.1)) (BitVec.ofNat 32 (leValue p.2))).toNat
  let bad := (lineHalves a bs.length).filter s.poison.contains
  let s := (s.write a sums false).poisonMarked a bs.length poison
  { s with poison := poisonAdd s.poison bad }

def Assembly.complete (b : Assembly) : Bool := (List.range b.len).all fun i => b.got.any fun g => g.1 == i
def Assembly.bytes (b : Assembly) : List Byte := (List.range b.len).map fun i => assoc i 0 b.got

/-- Adds a fragment to its burst. -/
def Assembly.add (b : Assembly) (m : ColMsg) : Assembly :=
  let put := (List.zip (span m.offset m.data.length) m.data).filter fun p => p.1 < b.len
  { b with got := put.foldl (fun g p => assocSet p.1 p.2 g) b.got, poison := b.poison.lor m.poison }

def newBurst (src : BitVec 12) (m : ColMsg) (atom : Bool) : Assembly :=
  { src := src.toNat, tag := m.tag, addr := m.addr, len := m.blenm1 + 1, got := [], poison := 0, atom := atom }

def sameBurst (src tag : Nat) (b : Assembly) : Bool := b.src == src && b.tag == tag

/-- A fragment of a write or an atomic add arrives; a burst whose last byte has come is applied whole and answered. -/
def State.onBurst (s : State) (c : Instr) (src : BitVec 12) (m : ColMsg) (atom : Bool) : State :=
  if s.colHeld src then s.hold c
  else
    let b := ((s.col.bursts.find? (sameBurst src.toNat m.tag)).getD (newBurst src m atom)).add m
    let rest := s.col.bursts.filter fun x => !sameBurst src.toNat m.tag x
    let setB (s : State) (bs : List Assembly) : State := { s with col := { s.col with bursts := bs } }
    if !b.complete then setB s (rest ++ [b])
    else if !s.engReach b.addr b.len || (b.atom && isBasin b.addr) then (setB s rest).refuseMsg src b.tag b.addr
    else
      match s.gateWith true c (if b.atom then [(b.addr, b.len)] else []) [(b.addr, b.len)] with
      | some t => t
      | none =>
        let s := setB s rest
        let s := if b.atom then s.atomApply b.addr b.bytes b.poison
          else (s.write b.addr b.bytes false).poisonMarked b.addr b.len b.poison
        s.respond src.toNat (s.regionAt b.addr) (simpleMsg mtWrack b.tag 0 0)

def State.onWrite (s : State) (src : BitVec 12) (m : ColMsg) : State := s.onBurst (.write src m) src m false
def State.onAtomadd (s : State) (src : BitVec 12) (m : ColMsg) : State := s.onBurst (.atomadd src m) src m true

/-- A read request is answered with the data, or refused. -/
def State.onReadreq (s : State) (src : BitVec 12) (m : ColMsg) : State :=
  let n := m.lenm1 + 1
  if !s.engReach m.addr n then s.refuseMsg src m.tag m.addr
  else
    match s.gate (.readreq src m) [(m.addr, n)] [] with
    | some t => t
    | none =>
      let s := s.meet [(m.addr, n)]
      let r := s.read m.addr n
      let bad := poisonBits m.addr fun l => l * 64 < m.addr + n && (s.read (64 * l) 64).2
      (s.readMark m.addr n).respond src.toNat (s.regionAt m.addr)
        { mtype := mtReadRsp, poison := bad, lenm1 := n - 1, tag := m.tag, addr := m.addr, offset := 0, blenm1 := n - 1,
          cause := 0, data := r.1 }

/-- Data of a read of an engine; the last fragment ends the read. -/
def State.onReadrsp (s : State) (src : BitVec 12) (m : ColMsg) : State :=
  let e := tagEngine m.tag
  let k := m.tag % 2048
  match (s.engine e).peers.find? fun p => p.tag == k && p.isRead && p.dst == src.toNat with
  | none => s
  | some p =>
    let last := m.blenm1 < m.offset + m.data.length
    let s := if last then s.modEngine e fun x => { x with peers := x.peers.filter fun q => q.tag != k } else s
    let bad := (List.range m.data.length).map fun i => bitAt m.poison ((p.addr + m.offset + i) / 64 - p.addr / 64)
    s.fetchData e m.data bad last

def State.onWrack (s : State) (src : BitVec 12) (m : ColMsg) : State :=
  let e := tagEngine m.tag
  if (s.engine e).peers.any fun p => p.tag == m.tag % 2048 && p.dst == src.toNat then s.peerDone e (m.tag % 2048) else s

/-- An arrival acts after the data of its flow. -/
def State.onArrive (s : State) (src : BitVec 12) (m : ColMsg) : State :=
  if s.colHeld src then s.hold (.colArrive src m) else s.arrival (fin32 (fld m.addr 6 5)) (fld m.addr 0 6)

/-- UNREACH for a burst or read still outstanding, or else for an arrival of the engine. -/
def State.onUnreach (s : State) (m : ColMsg) : State :=
  let e := tagEngine m.tag
  if (s.engine e).peers.any fun p => p.tag == m.tag % 2048 then s.peerLost e (m.tag % 2048) else s.engineFault e .address

def State.deliver (s : State) (src : BitVec 12) (m : ColMsg) : State :=
  if m.mtype == mtWrite then s.onWrite src m
  else if m.mtype == mtReadReq then s.onReadreq src m
  else if m.mtype == mtReadRsp then s.onReadrsp src m
  else if m.mtype == mtWrack then s.onWrack src m
  else if m.mtype == mtArrive then s.onArrive src m
  else if m.mtype == mtAtomAdd then s.onAtomadd src m
  else if m.mtype == mtUnreach then s.onUnreach m
  else s

/-- One round of the messages to this module itself. -/
def State.loopRound (s : State) : State :=
  s.col.loop.foldl (fun s m => s.deliver s.col.modid m) { s with col := { s.col with loop := [] } }

def loopGo : Nat → State → State
  | 0, s => s
  | fuel + 1, s => if s.col.loop.isEmpty then s else loopGo fuel s.loopRound

/-- Delivers the messages to this module itself, and those that they give rise to: at most a request and its answer for each
piece still to be read (R273). -/
def State.loopIn (s : State) : State :=
  if s.col.loop.isEmpty || !s.unitsOn then s
  else loopGo (4 + 2 * (s.engines.toList.map fun x => (x.fetch.elim 0 fun f => f.todo.length)).sum) s

def execWrite (src : BitVec 12) (m : ColMsg) (s : State) : Out1 :=
  if !s.unitsOn then .next s else .next (s.onWrite src m).loopIn
def execReadreq (src : BitVec 12) (m : ColMsg) (s : State) : Out1 :=
  if !s.unitsOn then .next s else .next (s.onReadreq src m).loopIn
def execReadrsp (src : BitVec 12) (m : ColMsg) (s : State) : Out1 :=
  if !s.unitsOn then .next s else .next (s.onReadrsp src m).loopIn
def execWrack (src : BitVec 12) (m : ColMsg) (s : State) : Out1 :=
  if !s.unitsOn then .next s else .next (s.onWrack src m).loopIn
def execColArrive (src : BitVec 12) (m : ColMsg) (s : State) : Out1 :=
  if !s.unitsOn then .next s else .next (s.onArrive src m).loopIn
def execAtomadd (src : BitVec 12) (m : ColMsg) (s : State) : Out1 :=
  if !s.unitsOn then .next s else .next (s.onAtomadd src m).loopIn
def execUnreach (src : BitVec 12) (m : ColMsg) (s : State) : Out1 :=
  let _ := src
  if !s.unitsOn then .next s else .next (s.onUnreach m).loopIn

/-- A burst of a staging engine leaves (10 R193). -/
def execBurstWrite (e : BurstEnd) (s : State) : Out1 := .next (s.burstWrite e.engine e.found).loopIn

/-- An arrival of a staging program (10 R194). -/
def execArrival (e : EngineId) (s : State) : Out1 := .next (s.arrivalStep e).loopIn

def execCopy (e : EngineId) (r : StepRead) (s : State) : Out1 := .next (s.copyStep e r).loopIn

/-- The fragment of burst (src, tag) that a command brings, and whether it adds. -/
def fragmentOf (src tag : Nat) (c : Instr) : Option (ColMsg × Bool) :=
  match c with
  | .write q m => if q.toNat == src && m.tag == tag then some (m, false) else none
  | .atomadd q m => if q.toNat == src && m.tag == tag then some (m, true) else none
  | _ => none

/-- Burst (src, tag) with the fragments of it that wait; none has come: none. -/
def State.burstSoFar (s : State) (src : BitVec 12) (tag : Nat) : Option Assembly :=
  let held := s.coh.held.filterMap (fragmentOf src.toNat tag)
  let first := match s.col.bursts.find? (sameBurst src.toNat tag) with
    | some b => some b
    | none => held.head?.map fun (f : ColMsg × Bool) => newBurst src f.1 f.2
  first.map fun b => held.foldl (fun b (f : ColMsg × Bool) => b.add f.1) b

/-- Discards every fragment of burst (src, tag). -/
def State.dropBurst (s : State) (src tag : Nat) : State :=
  { s with
    col := { s.col with bursts := s.col.bursts.filter fun x => !sameBurst src tag x },
    coh := { s.coh with held := s.coh.held.filter (fun c => (fragmentOf src tag c).isNone),
                        access := s.coh.access.filter fun p => (fragmentOf src tag p.1).isNone } }

/-- A burst still incomplete after its time is discarded and logged; one of which every fragment has come is not. -/
def execBurstAssemblyTimeout (src : BitVec 12) (tag : BitVec 16) (s : State) : Out1 :=
  match s.burstSoFar src tag.toNat with
  | none => .next s
  | some b =>
    if !s.unitsOn || b.complete then .next s
    else .next ((s.dropBurst src.toNat tag.toNat).logEv 1 3 0xFF 0x0D (stagWord 0 0 b.addr) b.src)

/-- A burst or read without answer within the end-to-end timeout. -/
def execE2eTimeout (e : EngineId) (tag : BitVec 16) (s : State) : Out1 :=
  if !s.unitsOn then .next s else .next (s.peerLost e (tag.toNat % 2048))

/-! ### Flits (R266, R267, R273 to R276) -/

/-- The fields of a flit as it arrives. -/
structure Arriving where
  kind : Nat
  seq : Nat
  ack : Nat
  ackv : Bool
  nak : Bool
  bad : Bool
  flit : Flit
deriving DecidableEq, Repr

def arriving (p : PortId) (bs : List Byte) (fecBad : Bool) : Arriving :=
  let h := fieldLE bs 0 8
  let tc := fld h 24 2
  let vc := fld h 26 1
  { kind := fld h 0 3, seq := fld h 3 10, ack := fld h 13 10, ackv := bitAt h 23, nak := bitAt h 63,
    bad := fecBad || fieldLE bs 252 4 != crc crc32c (bs.take 252),
    flit := { ctrl := fld h 0 3 == 2, tc := tc, vc := vc, ttl := fld h 27 5, dst := fld h 32 12, src := fld h 44 12,
              sport := fld h 56 4, esc := bitAt h 60, payload := (bs.drop 8).take 244,
              via := 1 + 8 * p.val + vcIndex tc vc } }

/-- The first flit not accepted is counted and answered with NAK. -/
def State.rejectFlit (s : State) (p : PortId) (fecBad : Bool) : State :=
  let x := s.port p
  if x.discarding then s
  else
    let x := { x with discarding := true }
    (s.setPort p (if fecBad then { x with fecUncorr := satAdd x.fecUncorr 1 } else { x with crcErr := satAdd x.crcErr 1 })).send
      (.flit p (idleBytes true x.expSeq))

/-- Sends a flit for another module on by its route, or discards it. -/
def State.forward (s : State) (p : PortId) (f : Flit) : State :=
  if f.ttl ≤ 1 then s.dropFlit f 3
  else
    match s.hop (s.port p).rtLive { f with ttl := f.ttl - 1 } with
    | .drop c => s.dropFlit f c
    | .port q g => s.enqueueFlit q g

/-- Delivers, forwards or consumes an accepted flit. On a port under FUNC_DISABLE one for another module waits (R282). -/
def State.takeFlit (s : State) (p : PortId) (f : Flit) : State :=
  if f.ctrl then s
  else if f.dst = s.col.modid.toNat then
    (parseMsgs f.payload).foldl (fun s m => s.deliver (BitVec.ofNat 12 f.src) m) (s.owe f.via)
  else if (s.port p).disabledFn then s.modPort p fun x => { x with parked := x.parked ++ [f] }
  else s.forward p f

/-- What the acknowledgement fields of a good flit do. -/
def State.onAck (s : State) (p : PortId) (a : Arriving) : State :=
  if !a.ackv then s
  else if a.nak then s.onNak p a.ack
  else (s.modPort p fun x => x.acked a.ack).pump p

/-- A flit arrives, its codewords with corrected errors counted, or one of them uncorrectable (R264, R267, R283). -/
def execFlitReceive (p : PortId) (bytes : List Byte) (fec : Fec) (s : State) : Out1 :=
  if bytes.length ≠ 256 then .fault .illFormed
  else if !s.unitsOn || (s.port p).state != .up then .next s
  else
    let s := s.modPort p fun x => { x with fecCorr := satAdd x.fecCorr fec.corrected }
    let a := arriving p bytes fec.bad
    let data := a.kind == 1 || a.kind == 2
    if a.bad then .next (if data then s.rejectFlit p fec.bad else s)
    else
      let s := s.onAck p a
      let x := s.port p
      if !data then .next (s.tryLpi p)
      else if a.seq ≠ x.expSeq then .next (s.rejectFlit p false)
      else
        let s := s.setPort p { x with expSeq := (x.expSeq + 1) % 1024, discarding := false }
        let s := (s.takeFlit p a.flit).loopIn
        .next (s.send (.flit p (idleBytes false (s.port p).ack)))

/-! ### Commits (R277, R284, R330) -/

def execColRtCommit (p : PortId) (s : State) : Out1 :=
  if !s.hostOn then s.noBar0 else .next (s.modPort p fun x => { x with rtLive := x.rtShadow })

def execMgtColCommit (s : State) : Out1 :=
  if !s.hostOn then s.noBar0 else .next ({ s with col := { s.col with pending := true } }.colSettle)

/-- MGT_PROFILE_COMMIT (16 R330). -/
def profileOk (v : Word64) : Bool := fld v.toNat 0 8 == 1 && fld v.toNat 9 55 == 0

def execMgtProfileCommit (s : State) : Out1 :=
  if !s.hostOn then s.noBar0
  else
    let running := s.strands.toList.any fun x => x.run == .loading || x.run == .running
    if running || !profileOk s.mgt.profileShadow then .next { s with mgt := { s.mgt with refused := true } }
    else
      let s := { s with mgt := { s.mgt with profile := s.mgt.profileShadow, refused := false } }
      .next (s.forN 12 fun i s =>
        let p := fin12 i
        let x := s.port p
        let s := s.setPort p { x with mismatch := x.partnerValid && x.partnerProfile != s.mgt.profile }
        if x.state == .up then s.sendInfo p else s)

end Sys2Proof.Machine
end

