-- ==== Sys2Proof/Machine/Fatal.lean ====
section
/-!
DEFINITION. The device-fatal error (15 R320): every unit stops through State.unitsOn, the Col ports are disabled, and the
device enters viral.
-/
namespace Sys2Proof.Machine

open Sys2Proof

/-- Logs an event of class 3 and stops the device, with an uncorrectable internal error of AER (R319); the vector is sent once, whatever its enable (log entry 39, DEDUCED). -/
def State.deviceFatal (s : State) (level fid code addr info : Nat) : State :=
  let t := s.logEv 3 level fid code addr info
  if s.errlog.fatal then t
  else
    let sent := t.errlog.ien.getLsbD 3 && t.errlog.seq != s.errlog.seq
    let t := if sent then t else t.sendMsix t.errlog.vecUe.toNat
    let cfg := { t.host.cfg with dvsec := { t.host.cfg.dvsec with viralStatus := true } }
    let t := (({ t with host := { t.host with cfg := cfg }, errlog := { t.errlog with fatal := true, viral := true } }.aer 22).send .viral).send .aerFatal
    t.forN 12 fun i s => if (s.port (fin12 i)).state == .disabled then s else s.leaveLink (fin12 i) .disabled

end Sys2Proof.Machine
end

