-- ==== Sys2Proof/Machine/Cxl.lean ====
section
/-!
DEFINITION. The host's CXL.mem and BAR2 requests, the answers to CXL.cache requests, the decoder, and the DOE mailbox (14
R286 to R303).
-/
namespace Sys2Proof.Machine

open Sys2Proof

/-! ### Snoop filter (R295, R297) -/

/-- Set of a line: bits [24:6] of its offset. -/
def sfSet (l : Nat) : Nat := l % 524288

def State.sfFull (s : State) (l : Nat) : Bool := 16 ≤ (s.coh.sf.filter fun e => sfSet e.line == sfSet l).length

def State.setSf (s : State) (sf : List SfEntry) : State := { s with coh := { s.coh with sf := sf } }

/-- Records a line as S or A; a new entry is the latest allocated. -/
def State.sfPut (s : State) (l : Nat) (any : Bool) : State :=
  if s.sfHas l then s.setSf (s.coh.sf.map fun e => if e.line == l then { e with any := any } else e)
  else s.setSf (s.coh.sf ++ [⟨l, any⟩])

def State.sfDrop (s : State) (l : Nat) : State := s.setSf (s.coh.sf.filter fun e => e.line != l)

/-- The filter after a read (Table 14.4). -/
def State.sfRead (s : State) (l : Nat) (mv : Meta) : State :=
  match mv with
  | .any => s.sfPut l true
  | .shared => s.sfPut l (s.sfAny l)
  | .inv => s
  | .noop => if s.sfHas l then s else s.sfPut l true

/-- The filter after a write. -/
def State.sfWrite (s : State) (l : Nat) (mv : Meta) : State :=
  match mv with
  | .any => s.sfPut l true
  | .shared => s.sfPut l false
  | .inv => s.sfDrop l
  | .noop => if s.sfHas l then s else s.sfPut l true

/-- Evicts the earliest entry of a full set; it is counted when its BISnp is sent. -/
def State.evictFor (s : State) (l : Nat) : State :=
  match s.coh.sf.find? fun e => sfSet e.line == sfSet l with
  | none => s
  | some e =>
    if s.snooped e.line || 256 ≤ s.coh.snps.length then s
    else
      let s := s.snoop e.line 1 false true
      { s with coh := { s.coh with evict := satAdd s.coh.evict 1 } }

/-- An eviction from the set of line l has no BIRsp yet. -/
def State.evicting (s : State) (l : Nat) : Bool := s.coh.snps.any fun q => q.evict && sfSet q.line == sfSet l

/-- None when a host request for line l may be served now; wb marks the write-back that an outstanding BISnp waits for. A request
that misses a full set waits for the BIRsp of the eviction (R297). -/
def State.hostGate (s : State) (c : Instr) (l : Nat) (mv : Meta) (wb : Bool) : Option State :=
  let miss := mv != .inv && !s.sfHas l
  if (s.snooped l && !wb) || s.lineDown l || (miss && s.evicting l) then some (s.holdReq c)
  else if miss && s.sfFull l then some ((s.evictFor l).holdReq c)
  else none

/-! ### CXL.mem requests (R293, R295, R300) -/

/-- HDM offset of a host physical address; none while the decoder does not hold it. -/
def State.hdmOffset (s : State) (hpa : Nat) : Option Nat :=
  let d := s.host.hdm
  if d.committed && d.base ≤ hpa && hpa < d.base + d.size then some (hpa - d.base) else none

/-- A request that the decoder refuses. Log entry 84, DEDUCED. -/
def State.decoderMiss (s : State) : State :=
  { s with coh := { s.coh with decoderMiss := satAdd s.coh.decoderMiss 1 } }.logEv 1 3 0xFF 0x10 0 0

/-- A read of one line. Where the data is poisoned without content the completion carries no bytes. Log entry 83, DEDUCED. -/
def State.hostRead (s : State) (c : Instr) (hpa : Nat) (mv : Meta) (ecc : Ecc) : State :=
  match s.hdmOffset hpa with
  | none => s.decoderMiss.send (.hostData [] true)
  | some o =>
    let l := o / 64
    if s.errlog.fatal then s.send (.hostData [] true)
    else
      match s.hostGate c l mv false with
      | some t => t
      | none =>
        let s := s.sfRead l mv
        if s.offline (64 * l) then (s.logOffline (64 * l) false).send (.hostData [] true)
        else
          let s := (s.eccAt (64 * l) 64 ecc).meet [(64 * l, 64)]
          let r := s.read (64 * l) 64
          (s.readMark (64 * l) 64).send (.hostData r.1 r.2)

/-- The chip serves CXL.cache and CXL.mem (R285). -/
def State.memOn (s : State) : Bool := s.chipOn && s.cxlOn

def execMemrd (hpa : Nat) (mv : Meta) (ecc : Ecc) (s : State) : Out1 :=
  if !s.memOn then .next s else .next (s.hostRead (.memrd hpa mv ecc) hpa mv ecc)

def execMemrddata (hpa : Nat) (mv : Meta) (ecc : Ecc) (s : State) : Out1 :=
  if !s.memOn then .next s else .next (s.hostRead (.memrddata hpa mv ecc) hpa mv ecc)

/-- Bytes of a line with the enabled ones replaced. -/
def mergeBytes (enable : BitVec 64) (old new : List Byte) : List Byte :=
  (List.zip (List.range 64) (List.zip old new)).map fun p => if enable.getLsbD p.1 then p.2.2 else p.2.1

/-- Bytes of half h of a line that are enabled. -/
def enabledIn (enable : BitVec 64) (h : Nat) : Nat := ((List.range 32).filter fun i => enable.getLsbD (32 * h + i)).length

/-- Halves of the line at a that the enabled bytes cover in part, and whole. -/
def partEnabled (a : Nat) (enable : BitVec 64) : List Nat :=
  ([0, 1].filter fun h => enabledIn enable h != 0 && enabledIn enable h != 32).map fun h => a / 32 + h
def wholeEnabled (a : Nat) (enable : BitVec 64) : List Nat :=
  ([0, 1].filter fun h => enabledIn enable h == 32).map fun h => a / 32 + h

/-- Writes the enabled bytes of a line; a half written whole loses its poison, one written in part is read first and keeps it
(R207). -/
def State.writeEnabled (s : State) (a : Nat) (enable : BitVec 64) (data : List Byte) (bad : Bool) : State :=
  let bs := mergeBytes enable (memGetN s.mem a 64) data
  let s := s.meet (halfRanges (partEnabled a enable))
  let p := poisonDel s.poison (wholeEnabled a enable)
  { s with struck := s.struck.filter fun f => !(wholeEnabled a enable).any fun h => struckOver (32 * h) 32 f, mcs := (s.countHalves (partEnabled a enable)).mcs, mem := memSetN s.mem a bs,
           poison := if bad then poisonAdd p (lineHalves a 64) else p }

/-- Whether a write answers an outstanding BISnp of its line: the copy goes back, invalid or, for BISnpData, shared. -/
def State.writeBack (s : State) (l : Nat) (mv : Meta) : Bool :=
  mv == .inv || (mv == .shared && s.coh.snps.any fun q => q.line ≤ l && l < q.line + q.n && q.data)

def execMemwr (hpa : Nat) (mv : Meta) (enable : BitVec 64) (data : List Byte) (q : WriteMark) (s : State) : Out1 :=
  if data.length ≠ 64 then .fault .illFormed
  else if !s.memOn then .next s
  else
    match s.hdmOffset hpa with
    | none => .next (s.decoderMiss.send .hostAck)
    | some o =>
      let l := o / 64
      if s.errlog.fatal then .next (s.send .hostAck)
      else
        match s.hostGate (.memwr hpa mv enable data q) l mv (s.writeBack l mv) with
        | some t => .next t
        | none =>
          let s := s.sfWrite l mv
          if s.offline (64 * l) then .next ((s.logOffline (64 * l) true).send .hostAck)
          else
            let s := (s.strike q.found).writeEnabled (64 * l) enable data q.poisoned
            let s := if q.poisoned then (s.poisonWritten (64 * l)).rasCorrected 5 else s
            .next (s.send .hostAck)

def execMeminv (hpa : Nat) (s : State) : Out1 :=
  if !s.memOn then .next s
  else
    match s.hdmOffset hpa with
    | none => .next (s.decoderMiss.send .hostAck)
    | some o =>
      if s.errlog.fatal then .next (s.send .hostAck)
      else if s.snooped (o / 64) then .next (s.holdReq (.meminv hpa))
      else .next ((s.sfDrop (o / 64)).send .hostAck)

/-! ### CXL.cache (R294) -/

def execH2dSnoop (hpa : Nat) (s : State) : Out1 := if !s.memOn then .next s else .next (s.send (.rspIHitI hpa))

/-- The oldest request of an agent and kind that the host has not answered. -/
def State.d2hOldest (s : State) (a : D2HAgent) (isRead : Bool) : Option (D2HAgent × Bool × Nat × Nat) :=
  s.host.d2h.find? fun r => r.1 == a && r.2.1 == isRead

/-- A strand waits for a recall. -/
def State.recalling (s : State) : Bool := s.strands.toList.any fun x => match x.wait with | .slook .. => true | _ => false

/-- A completion arrives at its agent. That of a recall is the RECALL command. -/
def State.d2hDone (s : State) (a : D2HAgent) (isRead : Bool) (data : List Byte) (poisoned : Bool) : State :=
  match s.d2hOldest a isRead with
  | none => s
  | some r =>
    let c : Instr := .d2hCompletion a isRead data poisoned
    if !s.unitsOn || !s.cxlOn || (isRead && data.length != r.2.2.2) then s
    else
      match a with
      | .engine e =>
        let s := s.dropD2h a isRead
        let s := if isRead && poisoned then s.rasCorrected 4 else s
        if isRead then s.fetchData e data (List.replicate data.length poisoned) true else s.hostWriteDone e
      | .se =>
        if isRead then (if s.recalling then s else s.dropD2h a isRead)
        else
          match s.se.spilling with
          | none => s.dropD2h a isRead
          | some p =>
            match s.gate c [(s.sessAddr p.session, 64), ((s.sessEnt p.session).dir + 4 * p.idx, 4)] [] with
            | some t => t
            | none =>
              match s.gate c (s.spillAccess p).1 (s.spillAccess p).2 with
              | some t => t
              | none => (s.dropD2h a isRead).spillStep
      | .qe =>
        match s.qe.host with
        | none => s.dropD2h a isRead
        | some t =>
          let q := match t.queue with | some q => [(s.entAddr q, 64)] | none => []
          match s.gate c q q with
          | some u => u
          | none => (s.dropD2h a isRead).qeHostDone isRead data poisoned

/-- A request has had no completion in 50 ms: its engine faults, or an event is logged, with the address as the fold word
of host memory (R200, R322; log entry 40, DEDUCED). -/
def State.d2hLate (s : State) (a : D2HAgent) : State :=
  match s.host.d2h.find? fun r => r.1 == a with
  | none => s
  | some r =>
    if !s.unitsOn then s
    else
      let s := s.dropD2h a r.2.1
      let addr := stagWord 1 0 r.2.2.1
      match a with
      | .engine e =>
        let s := if r.2.1 then s else s.modEngine e fun x => { x with hostWrites := x.hostWrites - 1 }
        if (s.engine e).faulting then s.settleEngine e else s.engineFault e .address
      | .se =>
        let s := s.logEv 1 3 0x51 0x11 addr 0x51
        if r.2.1 then
          (List.range 32).foldl (fun s i =>
            match (s.strand (fin32 i)).wait with
            | .slook _ _ _ pd => s.sessFail (fin32 i) pd
            | _ => s) s
        else s.setSe { s.se with spilling := none, state := 3, err := 0 }
      | .qe => (s.logEv 1 3 0x50 0x11 addr 0x50).setQe { s.qe with host := none, line := none }

/-! ### BAR2 (R289, R290) -/

/-- Where a BAR2 offset leads: a strand address, or reserved space. -/
def bar2Addr (off : Nat) : Option Nat :=
  let r := off / 0x4000000
  let o := off % 0x4000000
  if 8 ≤ r then none
  else if o < scratchSize then some (scratchBase r + o)
  else if o < scratchSize + basinSize then some (basinBase r + (o - scratchSize))
  else none

/-- The parts of a request within 64-byte lines; fuel bounds them. -/
def lineParts : Nat → Nat → Nat → List (Nat × Nat)
  | 0, _, _ => []
  | fuel + 1, off, n =>
    if n = 0 then []
    else
      let k := min n (64 - off % 64)
      (off, k) :: lineParts fuel (off + k) (n - k)

/-- The region a request reaches sleeps or is under BIST. -/
def State.bar2Asleep (s : State) (off : Nat) : Bool := (bar2Addr off).isSome && s.asleep (off / 0x4000000)

/-- Completes a request to a sleeping region: Unsupported Request, and an event record. -/
def State.bar2Refuse (s : State) (off : Nat) (isWrite : Bool) : State :=
  s.refuse.logEv 4 2 0xFF 0x0F ((bar2Addr off).getD 0) (b2n isWrite)

def execBar2Read (off : Nat) (len : Nat) (ecc : Ecc) (s : State) : Out1 :=
  if !s.chipOn then .next s
  else if s.host.d3hot then .next s.refuse
  else if s.bar2Asleep off then .next (s.bar2Refuse off false)
  else
    let s := match bar2Addr off with | some a => (s.eccAt a len ecc).meet [(a, len)] | none => s
    let parts := (lineParts (len / 64 + 2) off len).map fun p =>
      match bar2Addr p.1 with
      | some a => s.read a p.2
      | none => (List.replicate p.2 0, false)
    .next (s.send (.hostData (parts.flatMap (·.1)) (parts.any (·.2))))

/-- Applies the parts of a BAR2 write. -/
def State.bar2Put (s : State) (off : Nat) (data : List Byte) (bad : Bool) : State :=
  (lineParts (data.length / 64 + 2) off data.length).foldl (fun s p =>
    match bar2Addr p.1 with
    | some a => s.write a ((data.drop (p.1 - off)).take p.2) bad
    | none => s) s

/-- Poison in the request enters the AER status (R300). Log entry 79, DEDUCED. -/
def execBar2Write (off : Nat) (data : List Byte) (poisoned : Bool) (s : State) : Out1 :=
  if !s.chipOn then .next s
  else
    let s := if poisoned then s.aer 12 else s
    if s.host.d3hot then .next s.refuse
    else if s.bar2Asleep off then
      let t := if (s.region (off / 0x4000000)).state = 3 then s.bar2Put off data poisoned else s
      .next (t.bar2Refuse off true)
    else .next (s.bar2Put off data poisoned)

/-! ### Decoder and D-states (R286, R293) -/

/-- A commit of the decoder's fields; a locked decoder keeps its own. Log entry 93, PRESUMED. -/
def execHdmDecoderCommit (base size : Nat) (ways : Nat) (bi : Bool) (lock : Bool) (s : State) : Out1 :=
  let d := s.host.hdm
  if !s.hostOn then s.noBar0
  else if (d.committed && d.lock) then .next s
  else
    let good := size == 0xF000000000 && base % 0x10000000 == 0 && ways == 1 && bi
    let d : Hdm := { d with committed := good, commit := true, base := base, size := size, ways := ways, bi := bi, lock := good && lock,
                            errNotCommitted := !good }
    .next { s with host := { s.host with hdm := d } }

def execD3hotEntry (s : State) : Out1 :=
  if !s.chipOn then .next s else .next { s with host := { s.host with d3hot := true } }

def execD3hotExit (s : State) : Out1 :=
  if !s.chipOn then .next s else .next { s with host := { s.host with d3hot := false } }

/-! ### DOE (R301 to R303; log entry 41, DESIGN CHOICE) -/

/-- The MC answers on the link. -/
def State.doeOn (s : State) : Bool := s.chipOn && s.mcOn

/-- A request enters the mailbox; while another waits for its answer, it gets DOE Busy. -/
def State.doeRequest (s : State) (r : DoeReq) : State :=
  if !s.doeOn then s
  else if s.host.doe.isSome then s.send (.doe .busy)
  else { s with host := { s.host with doe := some r } }

def execDoeDiscovery (idx : Byte) (s : State) : Out1 := .next (s.doeRequest (.discovery idx.toNat))

def execSpdmRequest (req : List Byte) (s : State) : Out1 := .next (if 4096 < req.length then s else s.doeRequest (.spdm req))

def execCdatRead (entry : BitVec 16) (s : State) : Out1 := .next (s.doeRequest (.cdat entry.toNat))

/-- DOE Abort discards the request in progress. -/
def execDoeAbort (s : State) : Out1 := .next (if s.doeOn then { s with host := { s.host with doe := none } } else s)

def doeProtocols : List DoeProtocol := [.discovery, .spdm, .cdat]

def cdatEntries : List CdatEntry :=
  [.dsmas 0 0 0xF000000000 false false, .dsemtsSpecificPurpose, .readLatency 140, .writeLatency 90, .readBandwidth 2050000,
   .writeBandwidth 2050000]

/-- Applied settings in ascending key, each as KEY, LEN and the value (16 R334). -/
def Nvm.liveSet (n : Nvm) : List Byte := n.applied.flatMap fun p => leBytes 2 p.1 ++ leBytes 2 p.2.length ++ p.2

/-- Measurement blocks 1 to 8 (Table 14.7). -/
def State.measurements (s : State) : List Byte :=
  let n := s.nvm
  Config.measurement 1 ++ measured 2 n.activeBank ++ leBytes 4 n.boot.version.toNat ++ leBytes 4 n.rollback.toNat
    ++ Config.measurement 4 ++ measured 5 n.library ++ leBytes 8 s.mgt.profile.toNat ++ sha256 n.liveSet
    ++ leBytes 1 (b2n s.board.debug)

/-- The certificates of an SPDM slot: slot 0 holds the chain, the others are empty. -/
def certChain (slot : Nat) : List Cert := if slot = 0 then [.root, .device, .derived] else []

/-- The answer to an SPDM request (R302), by its request code. Log entry 41, DESIGN CHOICE. -/
def State.spdmAnswer (s : State) (req : List Byte) : SpdmOut :=
  let sign := Config.signature s.nvm.aliasKey (req ++ s.measurements) s.fresh
  match fieldLE req 1 1 with
  | 0x84 => .versions [(1, 2), (1, 3)]
  | 0xE1 => .capabilities true true true false false false 18
  | 0xE3 => .algorithms true true true true
  | 0x81 => .digests [0]
  | 0x82 => .certificate (fieldLE req 2 1 % 16) (certChain (fieldLE req 2 1 % 16))
  | 0x83 => .challengeAuth sign
  | 0xE0 => .measurements s.measurements sign
  | _ => .other (Config.spdmAnswer req s.measurements)

/-- Entry i of a list with the number of the one that follows it. -/
def doeEntry {α : Type} (l : List α) (i : Nat) : Option α × Option Nat := (l[i]?, if i + 1 < l.length then some (i + 1) else none)

/-- The MC answers the request in the mailbox. -/
def State.doeServe (s : State) : State :=
  match s.host.doe with
  | none => s
  | some r =>
    if !s.doeOn then s
    else
      let a : DoeOut := match r with
        | .discovery i => .protocol (doeEntry doeProtocols i).1 (doeEntry doeProtocols i).2
        | .spdm q => .spdm (s.spdmAnswer q)
        | .cdat i => .cdat (doeEntry cdatEntries i).1 (doeEntry cdatEntries i).2
      { s with host := { s.host with doe := none }, fresh := s.fresh + 1 }.send (.doe a)

end Sys2Proof.Machine
end

