-- ==== Sys2Proof/Machine/Nvm.lean ====
section
/-!
DEFINITION. The non-volatile memory: settings, the journal with its replay and compaction, firmware images, and the
commands of NVS_CMD (16 R328 to R337).
-/
namespace Sys2Proof.Machine

open Sys2Proof

/-! ### Settings (R329, Table 16.2) -/

/-- Keys in ascending order: seven scalars, then 16 blocks for each of 13 route tables. -/
def settingKeys : List Nat := [1, 2, 3, 4, 5, 6, 7] ++ (List.range 208).map fun i => 0x1000 + i

def settingDefault (k : Nat) : List Byte :=
  match k with
  | 1 => leBytes 8 1
  | 2 => List.replicate 8 0
  | 3 => List.replicate 4 0
  | 4 => leBytes 2 0x6E5F
  | 5 => List.replicate 960 0
  | 6 => List.replicate 2 0
  | 7 => List.replicate 8 0
  | _ => List.replicate 2048 0

/-- Byte of key 0x0005: an online segment with its placement, an offline one with what MEM_SEGMAPn holds. -/
def Seg.setting (g : Seg) : Nat :=
  if g.online then 1 + 2 * b2n g.place + 4 * g.home else 2 * b2n g.placeShadow + 4 * g.homeShadow

/-- Live route table t: 0 to 11 the ports, 12 the injection table. -/
def State.liveTable (s : State) (t : Nat) : List (Nat × Nat) := if t = 12 then s.col.inj else (s.port (fin12 t)).rtLive

def Pwr.setting (p : Pwr) : Nat := p.target.toNat + 8 * b2n p.selfref

/-- The value of a setting at its source. -/
def State.settingValue (s : State) (k : Nat) : List Byte :=
  match k with
  | 1 => leBytes 8 s.mgt.profile.toNat
  | 2 => s.power.regions.toList.map fun p => BitVec.ofNat 8 p.setting
  | 3 => leBytes 4 s.power.wakeArm.toNat
  | 4 => [s.power.tjWarn, s.power.tjCrit]
  | 5 => (List.range 960).map fun n => BitVec.ofNat 8 (s.seg n).setting
  | 6 => leBytes 2 s.col.modid.toNat
  | 7 => leBytes 8 s.col.eng.toNat
  | _ =>
    let i := k - 0x1000
    (List.range 256).flatMap fun j => leBytes 8 (assoc (256 * (i % 16) + j) 0 (s.liveTable (i / 16)))

/-- The stored value of a setting, or its default. -/
def Nvm.stored (n : Nvm) (k : Nat) : List Byte := assoc k (settingDefault k) n.applied

/-- Settings whose source differs from the stored value. -/
def State.changed (s : State) : List (Nat × List Byte) :=
  (settingKeys.map fun k => (k, s.settingValue k)).filter fun p => p.2 != s.nvm.stored p.1

/-! ### Journal records (R331) -/

def areaSize : Nat := 0x80000

/-- n bytes of an area from an offset; what has not been written reads as erased. -/
def areaBytes (a : List Byte) (off n : Nat) : List Byte :=
  let bs := (a.drop off).take n
  bs ++ List.replicate (n - bs.length) 0xFF

structure JRec where
  type : Nat
  seq : Nat
  key : Nat
  value : List Byte
deriving DecidableEq, Repr

def pad16 (bs : List Byte) : List Byte := bs ++ List.replicate ((16 - bs.length % 16) % 16) 0

def JRec.bytes (r : JRec) : List Byte :=
  let h := leBytes 2 0x4A53 ++ leBytes 1 r.type ++ [0] ++ leBytes 4 r.seq ++ leBytes 2 r.key ++ leBytes 2 r.value.length
  pad16 (h ++ leBytes 4 (crc crc32c (h ++ r.value)) ++ r.value)

/-- The record at an offset of an area; none where replay ends. -/
def readRec (a : List Byte) (off : Nat) : Option JRec :=
  let h := areaBytes a off 16
  let len := fieldLE h 0xA 2
  let v := areaBytes a (off + 16) len
  if areaSize < off + 16 + len ∨ fieldLE h 0 2 ≠ 0x4A53 ∨ 2048 < len ∨ fieldLE h 0xC 4 ≠ crc crc32c (h.take 12 ++ v) then none
  else some ⟨fieldLE h 2 1, fieldLE h 4 4, fieldLE h 8 2, v⟩

/-- Generation of an area with a correct marker. -/
def areaGen (a : List Byte) : Option Nat :=
  match readRec a 0 with
  | some r => if r.type = 3 then some r.seq else none
  | none => none

/-- The active area: whether it is area 1, and its generation (R331). -/
def Nvm.active (n : Nvm) : Option (Bool × Nat) :=
  match areaGen n.area0, areaGen n.area1 with
  | none, none => none
  | some g, none => some (false, g)
  | none, some g => some (true, g)
  | some g0, some g1 =>
    let d := (g1 + 2 ^ 32 - g0) % 2 ^ 32
    if d ≠ 0 ∧ d < 2 ^ 31 then some (true, g1) else some (false, g0)

def Nvm.area (n : Nvm) (one : Bool) : List Byte := if one then n.area1 else n.area0
def Nvm.setArea (n : Nvm) (one : Bool) (a : List Byte) : Nvm := if one then { n with area1 := a } else { n with area0 := a }

/-! ### Replay (R332) -/

/-- What replay finds: the applied values, the end of the last applied commit, the SEQ after it. -/
structure Replay where
  applied : List (Nat × List Byte) := []
  stop : Nat := 16
  next : Nat := 0
deriving DecidableEq, Repr

/-- The settings that a commit with value f and its own SEQ applies, of those read before it, newest first; none when
they are not contiguous. -/
def committed (f seq : Nat) (prev : List JRec) : Option (List JRec) :=
  let n := (seq + 2 ^ 32 - f) % 2 ^ 32
  if prev.length < n then none
  else
    let rs := (prev.take n).reverse
    if rs.map (·.seq) == (List.range n).map (fun i => (f + i) % 2 ^ 32) then some rs else none

def applyRec (m : List (Nat × List Byte)) (r : JRec) : List (Nat × List Byte) :=
  if settingKeys.contains r.key && r.value.length == (settingDefault r.key).length then assocSet r.key r.value m else m

def replayGo (a : List Byte) : Nat → Nat → List JRec → Replay → Replay
  | 0, _, _, p => p
  | fuel + 1, off, prev, p =>
    match readRec a off with
    | none => p
    | some r =>
      let next := off + r.bytes.length
      if r.type = 1 then replayGo a fuel next (r :: prev) p
      else if r.type = 2 then
        match committed (leValue r.value) r.seq prev with
        | some rs => replayGo a fuel next prev ⟨rs.foldl applyRec p.applied, next, (r.seq + 1) % 2 ^ 32⟩
        | none => replayGo a fuel next prev p
      else replayGo a fuel next prev p

def replay (a : List Byte) : Replay := replayGo a (areaSize / 16) 16 [] {}

/-- Replay of the active area; nothing is applied without one. -/
def Nvm.replayed (n : Nvm) : Replay :=
  match n.active with
  | some p => replay (n.area p.1)
  | none => {}

/-! ### Writing the journal (R333, R334) -/

/-- An act on the NVM: the erase of a journal area or a bank, or one program unit of either. -/
inductive JOp where
  | erase (one : Bool)
  | put (one : Bool) (off : Nat) (bytes : List Byte)
  | eraseBank (b : Bool)
  | putBank (b : Bool) (off : Nat) (bytes : List Byte)
deriving DecidableEq, Repr

def JOp.erases : JOp → Bool
  | .erase _ => true
  | .eraseBank _ => true
  | _ => false

def Nvm.bank (n : Nvm) (b : Bool) : List Byte := if b then n.bankB else n.bankA
def Nvm.setBank (n : Nvm) (b : Bool) (bs : List Byte) : Nvm := if b then { n with bankB := bs } else { n with bankA := bs }

def putAt (a : List Byte) (off : Nat) (bs : List Byte) : List Byte :=
  if off = a.length then a ++ bs
  else if a.length < off then a ++ List.replicate (off - a.length) 0xFF ++ bs
  else a.take off ++ bs ++ a.drop (off + bs.length)

def Nvm.act (n : Nvm) : JOp → Nvm
  | .erase one => n.setArea one []
  | .put one off bs => n.setArea one (putAt (n.area one) off bs)
  | .eraseBank b => n.setBank b []
  | .putBank b off bs => n.setBank b (putAt (n.bank b) off bs)

/-- Program units of records laid from an offset. -/
def putUnits (one : Bool) (off : Nat) (rs : List JRec) : List JOp :=
  let us := pieces 16 (rs.flatMap JRec.bytes)
  (List.zip (List.range us.length) us).map fun p => .put one (off + 16 * p.1) p.2

/-- Setting records in ascending key with their commit. -/
def batch (seq : Nat) (vs : List (Nat × List Byte)) : List JRec :=
  let rs : List JRec := (List.zip (List.range vs.length) vs).map fun p => ⟨1, (seq + p.1) % 2 ^ 32, p.2.1, p.2.2⟩
  rs ++ [⟨2, (seq + vs.length) % 2 ^ 32, 0, leBytes 4 (seq % 2 ^ 32)⟩]

def batchSize (rs : List JRec) : Nat := (rs.map fun r => r.bytes.length).foldl (· + ·) 0

/-- The live set that compaction keeps: stored values that differ from their defaults. Log entry 91, DEDUCED. -/
def Nvm.kept (n : Nvm) : List (Nat × List Byte) := n.replayed.applied.filter fun p => p.2 != settingDefault p.1

/-- Compaction into the other area. With no valid area it starts area 0 at generation 0 (log entry 47, DEDUCED). -/
def Nvm.compactOps (n : Nvm) : List JOp :=
  let p := n.active.getD (true, 2 ^ 32 - 1)
  let one := !p.1
  [.erase one] ++ putUnits one 16 (batch n.replayed.next n.kept) ++ putUnits one 0 [⟨3, (p.2 + 1) % 2 ^ 32, 0, []⟩]

/-- Where a batch is appended: none when compaction comes first. -/
def Nvm.appendAt (n : Nvm) (size : Nat) : Option (Bool × Nat) :=
  match n.active with
  | none => none
  | some p =>
    let r := n.replayed
    if ((n.area p.1).drop r.stop).any (fun b => b != 0xFF) || areaSize < r.stop + size then none else some (p.1, r.stop)

/-- The acts of a STORE of these values. -/
def Nvm.storeOps (n : Nvm) (vs : List (Nat × List Byte)) : List JOp :=
  if vs.isEmpty then []
  else
    match n.appendAt (batchSize (batch n.replayed.next vs)) with
    | some p => putUnits p.1 p.2 (batch n.replayed.next vs)
    | none =>
      let c := n.compactOps
      let m := c.foldl Nvm.act n
      let p := m.active.getD (false, 0)
      c ++ putUnits p.1 m.replayed.stop (batch m.replayed.next vs)

/-- The acts of step 2 of R336: the image goes into the inactive bank. -/
def Nvm.updateOps (n : Nvm) (img : List Byte) : List JOp :=
  let b := !n.boot.active
  let us := pieces 16 img
  .eraseBank b :: (List.zip (List.range us.length) us).map fun p => .putBank b (16 * p.1) p.2

/-- Acts of the command in progress; img is the image of an UPDATE that passes step 1 of R336. -/
def Nvm.workOps (n : Nvm) (img : Option (List Byte)) : List JOp :=
  match n.work with
  | .store vs => n.storeOps vs
  | .compact => n.compactOps
  | .update .. => img.elim [] n.updateOps
  | .none => []

def Nvm.settle (n : Nvm) : Nvm := { n with applied := n.replayed.applied }

/-- The first k acts have been done; the next unit, if it is one, is torn (log entry 46, DESIGN CHOICE). -/
def Nvm.partly (n : Nvm) (ops : List JOp) (k : Nat) : Nvm :=
  let i := Config.choice k % (ops.length + 1)
  let m := (ops.take i).foldl Nvm.act n
  let torn := leBytes 16 (Config.tornUnit k).toNat
  match ops[i]? with
  | some (.put one off _) => m.act (.put one off torn)
  | some (.putBank b off _) => m.act (.putBank b off torn)
  | _ => m

/-- Power loss or a restart of the MC: a command in progress stops within its acts, and a copy of the library within its
units. -/
def Nvm.interrupt (n : Nvm) (img : Option (List Byte)) (k : Nat) : Nvm :=
  let m := n.partly (n.workOps img) k
  let m := if m.copying then { m with library := m.library.take (Config.choice (k + 1) % (m.library.length + 1)) } else m
  { m with op := 0, state := 0, err := 0, updAddr := 0, updLen := 0, work := .none, copying := false }

/-! ### Firmware images (R335, R336) -/

def imgCode (bs : List Byte) : Nat := fieldLE bs 0x10 4
def imgLib (bs : List Byte) : Nat := fieldLE bs 0x14 4

/-- ERRCODE of an image: the lowest that holds, 0 for a good one. -/
def imageErr (bs : List Byte) (rollback : Nat) : Nat :=
  let c := imgCode bs
  let l := imgLib bs
  let code := (bs.drop 0x100).take c
  let lib := (bs.drop (0x100 + c)).take l
  let libHash := (bs.drop 0x40).take 32
  if bs.length < 0x100 ∨ 0x400000 < bs.length ∨ bs.length ≠ 0x100 + c + l ∨ fieldLE bs 0 4 ≠ 0x57464E41
      ∨ fieldLE bs 4 2 ≠ 0x100 ∨ fieldLE bs 6 2 ≠ 0 ∨ c % 64 ≠ 0 ∨ c < 64 ∨ 0x1FFF00 < c ∨ 0x200000 < l
      ∨ fieldLE bs 0x18 8 ≠ 0 ∨ !allZero ((bs.drop 0x60).take 96) ∨ (l = 0 ∧ !allZero libHash) then 2
  else if sha256 code ≠ (bs.drop 0x20).take 32 ∨ (l ≠ 0 ∧ sha256 lib ≠ libHash) then 3
  else if !Config.firmwareSigned (bs.take 0xC0) ((bs.drop 0xC0).take 64) then 4
  else if fieldLE bs 0xC 4 < rollback then 5
  else 0

def Nvm.pendingBank (n : Nvm) : List Byte := n.bank (!n.boot.active)

/-- ERRCODE of an UPDATE in its step 1, and the image it reads at a (R336). -/
def State.updateCheck (s : State) (a len : Nat) : Nat × List Byte :=
  if len < 0x100 ∨ 0x400000 < len ∨ a % 64 ≠ 0 ∨ 0xF000000000 < a + len then (2, [])
  else if !s.unitsOn then (3, [])
  else
    let r := s.read a len
    (if r.2 then 3 else imageErr r.1 s.nvm.rollback.toNat, r.1)

/-! ### Commands (R333 to R336) -/

def State.setNvm (s : State) (n : Nvm) : State := { s with nvm := n }

/-- How the NVM takes what a command writes (log entry 92, DESIGN CHOICE). -/
def flashOf (k : BitVec 2) : Flash := if k = 0 then .good else if k = 1 then .mismatch else .worn

/-- GO in NVS_CMD: ignored while a command is busy. -/
def nvsStart (op : Nat) (w : NvsWork) (s : State) : Out1 :=
  if !s.hostOn then s.noBar0
  else if !s.mcOn || s.nvm.state = 1 then .next s
  else .next ({ s with fresh := s.fresh + 1 }.setNvm
    { s.nvm with op := BitVec.ofNat 4 op, state := 1, err := 0, work := w, flash := flashOf (Config.flash s.fresh) })

/-- STORE takes every source at its start. -/
def execStore (s : State) : Out1 := nvsStart 1 (.store s.changed) s
def execUpdate (s : State) : Out1 :=
  nvsStart 2 (.update s.nvm.updAddr.toNat s.nvm.updLen.toNat) s
def execCompact (s : State) : Out1 := nvsStart 3 .compact s

def State.nvsDone (s : State) (n : Nvm) (st err : Nat) : State := s.setNvm { n with state := st, err := err, work := .none }

/-- The end of an UPDATE: the image in device memory is checked, written to the inactive bank and read back; the bank turns
pending. A difference leaves a free unit in the bank (R336). -/
def State.finishUpdate (s : State) (a len : Nat) : State :=
  if (s.updateCheck a len).2.isEmpty then s.nvsDone s.nvm 3 (s.updateCheck a len).1
  else
    match s.gate .nvsCommandComplete [(a, len)] [] with
    | some t => t
    | none =>
      let s := s.meet [(a, len)]
      let chk := s.updateCheck a len
      let s := s.readMark a len
      let n := s.nvm
      if chk.1 ≠ 0 then s.nvsDone n 3 chk.1
      else
        let m := (n.updateOps chk.2).foldl Nvm.act n
        match n.flash with
        | .good => s.nvsDone (m.putBoot { n.boot with pending := true }) 2 0
        | .mismatch =>
          { s with fresh := s.fresh + 1 }.nvsDone (m.act (.putBank (!n.boot.active) 0 (leBytes 16 (Config.tornUnit s.fresh).toNat))) 3 6
        | .worn => s.nvsDone n 3 7

/-- A worn sector stops a command that erases (Table 16.6). Log entry 92, DESIGN CHOICE. -/
def execNvsCommandComplete (s : State) : Out1 :=
  if !s.mcOn || s.nvm.state ≠ 1 then .next s
  else
    match s.nvm.work with
    | .none => .next (s.nvsDone s.nvm 2 0)
    | .update a len => .next (s.finishUpdate a len)
    | _ =>
      let ops := s.nvm.workOps none
      if s.nvm.flash = .worn ∧ ops.any JOp.erases then .next (s.nvsDone s.nvm 3 7)
      else .next (s.nvsDone (ops.foldl Nvm.act s.nvm).settle 2 0)

/-! ### The boot ROM (R332, R337) -/

/-- The boot record as the boot ROM leaves it: a trial left by a power loss is reverted, a pending bank is checked again
and tried. -/
def Nvm.bootRom (n : Nvm) : Nvm :=
  let b := n.boot
  if b.trial then n.putBoot { b with pending := false, trial := false, last := 2 }
  else if b.pending then
    if imageErr n.pendingBank n.rollback.toNat = 0 then n.putBoot { b with trial := true }
    else n.putBoot { b with pending := false, last := 2 }
  else n

/-- The trial firmware has not reached ready in time: the previous bank boots. -/
def Nvm.revert (n : Nvm) : Nvm := n.putBoot { n.boot with pending := false, trial := false, last := 2 }

/-- Step 2 of R337: the MC has reached ready, and a trial is confirmed. -/
def Nvm.confirm (n : Nvm) : Nvm :=
  if n.boot.trial then
    let img := n.pendingBank
    { n.putBoot { n.boot with active := !n.boot.active, pending := false, trial := false, last := 1,
                              version := BitVec.ofNat 32 (fieldLE img 8 4) } with
      rollback := BitVec.ofNat 32 (max n.rollback.toNat (fieldLE img 0xC 4)) }
  else n

/-- Step 3 of R337 begins when the active image has a library payload with another digest: the payload is copied. -/
def Nvm.beginCopy (n : Nvm) : Nvm :=
  let img := n.activeBank
  if imgLib img ≠ 0 ∧ (img.drop 0x40).take 32 ≠ n.boot.libDigest then
    { n with copying := true, library := (img.drop (0x100 + imgCode img)).take (imgLib img) }
  else n

/-- Step 3 of R337 ends: the new digest is recorded. -/
def Nvm.endCopy (n : Nvm) : Nvm :=
  if n.copying then { n.putBoot { n.boot with libDigest := (n.activeBank.drop 0x40).take 32 } with copying := false } else n

/-- The MC starts: boot records, then the journal. Its command registers are at their reset values. -/
def Nvm.start (n : Nvm) : Nvm :=
  { n.bootRom.settle with op := 0, state := 0, err := 0, updAddr := 0, updLen := 0, work := .none, copying := false }

/-! ### The layout (R328, Table 16.1) -/

def nvmSize : Nat := 0x1000000

/-- Areas of the NVM: offset and bytes. -/
inductive NvmArea where
  | bankA | bankB | library | journal0 | journal1 | identity | calibration | bootControl | reserved
deriving DecidableEq, Repr

def NvmArea.span : NvmArea → Nat × Nat
  | .bankA => (0x000000, 0x400000)
  | .bankB => (0x400000, 0x400000)
  | .library => (0x800000, 0x200000)
  | .journal0 => (0xA00000, 0x80000)
  | .journal1 => (0xA80000, 0x80000)
  | .identity => (0xB00000, 0x20000)
  | .calibration => (0xB20000, 0x60000)
  | .bootControl => (0xB80000, 0x10000)
  | .reserved => (0xB90000, 0x470000)

/-- A boot record in its 64 bytes (log entry 138, DESIGN CHOICE). -/
def BootCopy.bytes (c : BootCopy) : List Byte :=
  let bs := c.record.body ++ leBytes 4 c.seq ++ leBytes 4 c.crc
  bs ++ List.replicate (64 - bs.length) 0xFF

/-- The part number in ASCII (R339). -/
def partNo : List Byte := [0x41, 0x4C, 0x4E, 0x2D, 0x41, 0x31, 0x2D, 0x39, 0x36, 0x30, 0, 0, 0, 0, 0, 0]

/-- The items of the identity area, in the order of Table 16.1 (log entry 14, DESIGN CHOICE). -/
def identityBytes : List Byte :=
  leBytes 8 Config.serial.toNat ++ partNo ++ Config.wrappedKey Config.deviceKey ++ Config.deviceCert Config.deviceKey
    ++ Config.intermediateCert

/-- Bytes of an area as far as it has been written. Identity is written at manufacture; the spare sectors hold the working copy
of the calibration area. -/
def Nvm.bytes (n : Nvm) : NvmArea → List Byte
  | .bankA => n.bankA
  | .bankB => n.bankB
  | .library => n.library
  | .journal0 => n.area0
  | .journal1 => n.area1
  | .identity => identityBytes ++ (span identityBytes.length (0x20000 - identityBytes.length)).map Config.factoryByte
  | .calibration => n.calibration
  | .bootControl => n.boot0.bytes ++ n.boot1.bytes ++ leBytes 4 n.rollback.toNat
  | .reserved => List.replicate (0x10000 * n.calCopy) 0xFF ++ n.calibration

def nvmAreas : List NvmArea :=
  [.bankA, .bankB, .library, .journal0, .journal1, .identity, .calibration, .bootControl, .reserved]

/-- The byte at an offset of the NVM; an erased byte reads 0xFF. -/
def Nvm.byte (n : Nvm) (off : Nat) : Byte :=
  match nvmAreas.find? fun a => a.span.1 ≤ off && off < a.span.1 + a.span.2 with
  | some a => (n.bytes a).getD (off - a.span.1) 0xFF
  | none => 0xFF

end Sys2Proof.Machine
end

