-- ==== Sys2Proof/Machine/Rerun.lean ====
section
/-!
DEFINITION. Commands that waited for a snoop answer or a channel run again, in the order in which they came (12 R251; 14
R296 to R298; 15 R311, R318), and the answers that let them go.
-/
namespace Sys2Proof.Machine

open Sys2Proof

/-- The state a meaning answers; a command that stops leaves the state as it was. -/
def Out1.or (o : Host.Outcome State Fault Refusal) (s : State) : State :=
  match o with
  | .next t => t
  | _ => s

/-- Runs a held command again. -/
def State.runHeld (s : State) (c : Instr) : State :=
  match c with
  | .ldm n w => Out1.or (execLdm n w s) s
  | .ldmDataReturn n ecc => Out1.or (execLdmDataReturn n ecc s) s
  | .stm n q => Out1.or (execStm n q s) s
  | .mma n w => Out1.or (execMma n w s) s
  | .stationaryRowLoad b p ecc => Out1.or (execStationaryRowLoad b p ecc s) s
  | .passRowIssue b p bad t4 => Out1.or (execPassRowIssue b p bad t4 s) s
  | .epilogueRowWrite b p => Out1.or (execEpilogueRowWrite b p s) s
  | .vadd n w => Out1.or (execVadd n w s) s
  | .vmul n w => Out1.or (execVmul n w s) s
  | .vfma n w => Out1.or (execVfma n w s) s
  | .vmax n w => Out1.or (execVmax n w s) s
  | .vmin n w => Out1.or (execVmin n w s) s
  | .vcmp n w => Out1.or (execVcmp n w s) s
  | .vcvt n w => Out1.or (execVcvt n w s) s
  | .vfn n w bad => Out1.or (execVfn n w bad s) s
  | .vread n w => Out1.or (execVread n w s) s
  | .vsc n w => Out1.or (execVsc n w s) s
  | .vbi n w => Out1.or (execVbi n w s) s
  | .vds n w => Out1.or (execVds n w s) s
  | .vlc n w => Out1.or (execVlc n w s) s
  | .vrd n w => Out1.or (execVrd n w s) s
  | .chstep n w => Out1.or (execChstep n w s) s
  | .trstep n w => Out1.or (execTrstep n w s) s
  | .tkmerge n w => Out1.or (execTkmerge n w s) s
  | .smxc n w => Out1.or (execSmxc n w s) s
  | .smxd n w => Out1.or (execSmxd n w s) s
  | .prcomb n w => Out1.or (execPrcomb n w s) s
  | .salloc n w => Out1.or (execSalloc n w s) s
  | .slook n w => Out1.or (execSlook n w s) s
  | .sfree n w => Out1.or (execSfree n w s) s
  | .ssum n w => Out1.or (execSsum n w s) s
  | .recall n d p => s.recallDone n d p
  | .launchifSubmit n => Out1.or (execLaunchifSubmit n s) s
  | .copy e r => Out1.or (execCopy e r s) s
  | .burstWrite e => Out1.or (execBurstWrite e s) s
  | .colsum e r => Out1.or (execColsum e r s) s
  | .bucket e r => Out1.or (execBucket e r s) s
  | .ldx e r => Out1.or (execLdx e r s) s
  | .stx e st => Out1.or (execStx e st s) s
  | .cvuout e st => Out1.or (execCvuout e st s) s
  | .shafin e st => Out1.or (execShafin e st s) s
  | .doorbell i b v => Out1.or (execDoorbell i b v s) s
  | .dispatch => Out1.or (execDispatch s) s
  | .binaryLoad n => Out1.or (execBinaryLoad n s) s
  | .completionRecordWrite q => Out1.or (execCompletionRecordWrite q s) s
  | .queueEnable q => Out1.or (execQueueEnable q s) s
  | .initpool => Out1.or (execInitpool s) s
  | .openS i => Out1.or (execOpenS i s) s
  | .closeS i => Out1.or (execCloseS i s) s
  | .spill i => Out1.or (execSpill i s) s
  | .write q m => Out1.or (execWrite q m s) s
  | .readreq q m => Out1.or (execReadreq q m s) s
  | .colArrive q m => Out1.or (execColArrive q m s) s
  | .atomadd q m => Out1.or (execAtomadd q m s) s
  | .nvsCommandComplete => Out1.or (execNvsCommandComplete s) s
  | .memrd h mv ecc => Out1.or (execMemrd h mv ecc s) s
  | .memrddata h mv ecc => Out1.or (execMemrddata h mv ecc s) s
  | .memwr h mv en d p => Out1.or (execMemwr h mv en d p s) s
  | .meminv h => Out1.or (execMeminv h s) s
  | .d2hCompletion a r d p => s.d2hDone a r d p
  | _ => s

/-- Runs every held command again; one that has begun goes on though its function stops. A register command that waits shows STATE 1 and starts afresh; commands taken in D0
go on in D3hot. -/
def State.rerunOnce (s : State) : State :=
  let h := s.coh.held
  let d3 := s.host.d3hot
  let se := if s.se.state = 1 ∧ s.se.spilling.isNone then { s.se with state := 0 } else s.se
  let qe := if s.qe.state = 1 then { s.qe with state := 0 } else s.qe
  let t := { s with coh := { s.coh with held := [], access := [], resumed := h.filter s.begun }, se := se, qe := qe, host := { s.host with d3hot := false } }
  let t := h.foldl State.runHeld t
  { t with host := { t.host with d3hot := d3 }, coh := { t.coh with resumed := s.coh.resumed } }

/-- Runs what is held, and what waited for the SE again when a copy of a page has ended in the course of it. -/
def State.rerun (s : State) : State :=
  let t := s.rerunOnce
  if s.seBusy && !t.seBusy then t.rerunOnce else t

/-- A device-fatal error; the host requests that waited are answered with poison. -/
def State.fatalNow (s : State) (level fid code addr info : Nat) : State :=
  (s.deviceFatal level fid code addr info).rerun

/-- What waited for the SE runs once it is free (R230). -/
def State.seNext (s t : State) : State := if s.seBusy && !t.seBusy then t.rerun else t

def execRecall (n : StrandId) (data : List Byte) (poisoned : Bool) (s : State) : Out1 :=
  .next (s.seNext (s.recallDone n data poisoned))

def execD2hCompletion (a : D2HAgent) (isRead : Bool) (data : List Byte) (poisoned : Bool) (s : State) : Out1 :=
  .next (s.seNext (s.d2hDone a isRead data poisoned))

def execD2hTimeout (a : D2HAgent) (s : State) : Out1 := .next (s.seNext (s.d2hLate a))

/-! ### Back-invalidation (R296, R298) -/

/-- The filter after the host's answer: an invalidated line leaves it, a line read for data stays shared. -/
def answered (q : Snp) (sf : List SfEntry) : List SfEntry :=
  if q.data then sf.map fun e => if q.line ≤ e.line && e.line < q.line + q.n then { e with any := false } else e
  else sf.filter fun e => !(q.line ≤ e.line && e.line < q.line + q.n)

def execBirsp (line : Nat) (s : State) : Out1 :=
  match s.coh.snps.find? fun q => q.line == line with
  | none => .next s
  | some q =>
    if !s.chipOn then .next s
    else
      .next { s with coh := { s.coh with snps := s.coh.snps.filter (fun x => x.line != line),
                                         sf := answered q s.coh.sf } }.rerun

def execBiconflict (line : Nat) (s : State) : Out1 :=
  if !s.chipOn || !s.snooped line then .next s
  else .next ({ s with coh := { s.coh with conflict := satAdd s.coh.conflict 1 } }.send (.biConflictAck line))

/-- No BIRsp within 100 ms: device-fatal. -/
def execBisnpTimeout (line : Nat) (s : State) : Out1 :=
  if !s.chipOn || s.errlog.fatal || !s.coh.snps.any (fun q => q.line == line) then .next s
  else .next (s.fatalNow 3 0xFF 0x17 (64 * line) 0)

end Sys2Proof.Machine
end

