-- ==== Sys2Proof/Machine/VsuRegs.lean ====
section
/-!
DEFINITION. The VSU's registers: seam clamps and the loads from the NVM library (07 R131, R137, R138; 16 R338).
-/
namespace Sys2Proof.Machine

open Sys2Proof

/-- A register write to a sleeping region's RGN_, STR_, STG_ or VSU_ block is dropped and logged (18 R355). -/
def State.dropAsleep (s : State) : State := s.logEv 4 2 0xFF 0x0F 0 1

def State.modVsu (s : State) (r : RegionId) (f : Vsu → Vsu) : State := s.setVsu r (f (s.vsu r))

/-- A write to region r's blocks takes effect, or is dropped while it sleeps. -/
def regionWrite (r : RegionId) (s : State) (f : State → State) : Out1 :=
  if !s.fabricOn then s.noBar0
  else if s.sleeping r.val then .next s.dropAsleep
  else .next (f s)

def execVsuCommit (r : RegionId) (s : State) : Out1 :=
  regionWrite r s fun s => s.modVsu r fun v => { v with slots := v.slots.map fun t => { t with clamp := t.clampShadow } }

/-- The strand holds or loads a launch that has not ended. -/
def State.strandBusy (s : State) (n : StrandId) : Bool := (s.strand n).run == .running || (s.strand n).run == .loading

/-- Strands of a region. -/
def regionStrands (r : RegionId) : List StrandId := (List.range 4).map fun i => fin32 (4 * r.val + i)
def regionEngines (r : RegionId) : List EngineId := (List.range 4).map fun i => fin32 (4 * r.val + i)

/-- ERRCODE of a request (Table 7.11): the lowest that holds, 0 for none. -/
def State.libRefusal (s : State) (r : RegionId) (slot : Fin 32) (swap : Bool) : Nat :=
  if slot.val < 16 then 1
  else if (match ((s.vsu r).slot slot.val).owner with | some n => s.strandBusy n | none => false) then 2
  else if swap && (regionStrands r).any s.strandBusy then 3
  else 0

def State.libLoad (s : State) (r : RegionId) (slot : Fin 32) (idx : Byte) (swap : Bool) : State :=
  if (s.vsu r).libState = 1 then s
  else
    let e := s.libRefusal r slot swap
    s.modVsu r fun v => { v with libSlot := BitVec.ofNat 5 slot.val, libIdx := BitVec.ofNat 8 idx.toNat, libSwap := swap,
                                 libState := if e = 0 then 1 else 3, libErr := e,
                                 libJob := if e = 0 then some (slot.val, idx.toNat, swap) else none }

def execVsuLibLoad (r : RegionId) (slot : Fin 32) (idx : Byte) (s : State) : Out1 :=
  regionWrite r s fun s => s.libLoad r slot idx false

def execVsuLibLoadSwap (r : RegionId) (slot : Fin 32) (idx : Byte) (s : State) : Out1 :=
  regionWrite r s fun s => s.libLoad r slot idx true

/-- Bytes of the library area; what has not been written reads as erased. -/
def Nvm.lib (n : Nvm) (off k : Nat) : List Byte :=
  let bs := (n.library.drop off).take k
  bs ++ List.replicate (k - bs.length) 0xFF

/-- The image of library entry i (R338): its bytes, or the ERRCODE of a bad entry. -/
def Nvm.libImage (n : Nvm) (i : Nat) : Except Nat (List Byte) :=
  let d := n.lib 0 6
  if fieldLE d 0 4 ≠ 0x42494C56 ∨ fieldLE d 4 2 ≤ i then .error 4
  else
    let e := n.lib (0x40 + 16 * i) 16
    let off := fieldLE e 0 4
    let len := imgLen (fieldLE (n.lib (off + 6) 2) 0 2)
    let img := n.lib off len
    if off % 64 ≠ 0 ∨ 0x200000 < off + len ∨ (parseImg img).isNone then .error 5 else .ok img

/-- The MC ends a library load: the image enters the shadow bank, and the live bank with SWAP. -/
def execVsuLibLoadComplete (r : RegionId) (s : State) : Out1 :=
  let v := s.vsu r
  match v.libJob with
  | none => .next s
  | some (slot, idx, swap) =>
    if !s.unitsOn || !s.mcOn || v.libState ≠ 1 then .next s
    else
      match s.nvm.libImage idx with
      | .error k => .next (s.setVsu r { v with libState := 3, libErr := k, libJob := none })
      | .ok img =>
        let v := v.modSlot slot fun t => { t with shadow := some img }
        let v := if swap then v.modSlot slot swapSlot else v
        .next (s.setVsu r { v with libState := 2, libErr := 0, libJob := none })

/-! ### Weight-digest table (10 R204) -/

def execWdtInvalidateEntry (i : Fin 4096) (s : State) : Out1 :=
  if !s.hostOn then s.noBar0
  else .next { s with wdt := { s.wdt with index := BitVec.ofNat 12 i.val, all := false,
                                          entries := s.wdt.entries.filter fun p => p.1 != i.val } }

def execWdtInvalidateAll (s : State) : Out1 :=
  if !s.hostOn then s.noBar0 else .next { s with wdt := { s.wdt with all := true, entries := [] } }

end Sys2Proof.Machine
end

