-- ==== Sys2Proof/Machine/Power.lean ====
section
/-!
DEFINITION. Region power states, memory self-refresh, self-test and thermal limits (15 R307 to R314, R326, R327), and
the states that a reset of a strand, an engine or a VSU leaves (15 R316).
-/
namespace Sys2Proof.Machine

open Sys2Proof

/-! ### States after a function reset (Table 15.5) -/

/-- Function id whose held command this is. -/
def heldBy (c : Instr) : Option Nat :=
  match c with
  | .ldm n _ => some n.val
  | .ldmDataReturn n _ => some n.val
  | .stm n _ => some n.val
  | .mma n _ => some n.val
  | .vadd n _ => some n.val
  | .vmul n _ => some n.val
  | .vfma n _ => some n.val
  | .vmax n _ => some n.val
  | .vmin n _ => some n.val
  | .vcmp n _ => some n.val
  | .vcvt n _ => some n.val
  | .vfn n _ _ => some n.val
  | .vread n _ => some n.val
  | .vsc n _ => some n.val
  | .vbi n _ => some n.val
  | .vds n _ => some n.val
  | .vlc n _ => some n.val
  | .vrd n _ => some n.val
  | .salloc n _ => some n.val
  | .slook n _ => some n.val
  | .sfree n _ => some n.val
  | .ssum n _ => some n.val
  | .recall n _ _ => some n.val
  | .launchifSubmit n => some n.val
  | .copy e _ => some (0x20 + e.val)
  | .burstWrite e => some (0x20 + e.engine.val)
  | .colsum e _ => some (0x20 + e.val)
  | .bucket e _ => some (0x20 + e.val)
  | .ldx e _ => some (0x20 + e.val)
  | .stx e _ => some (0x20 + e.val)
  | .cvuout e _ => some (0x20 + e.val)
  | .shafin e _ => some (0x20 + e.val)
  | .dispatch => some 0x50
  | .binaryLoad _ => some 0x50
  | .completionRecordWrite _ => some 0x50
  | .queueEnable _ => some 0x50
  | .initpool => some 0x51
  | .openS _ => some 0x51
  | .closeS _ => some 0x51
  | .spill _ => some 0x51
  | _ => none

/-- Discards the held commands of a function: nothing of them has been issued (log entry 43, DEDUCED). -/
def State.unhold (s : State) (f : Nat) : State :=
  { s with coh := { s.coh with held := s.coh.held.filter (fun c => heldBy c != some f),
                               access := s.coh.access.filter fun p => heldBy p.1 != some f } }

/-- TSWAPs of strand n at the head of what waits in a slot with no TLOAD in progress. -/
def Slot.swapsDue (t : Slot) (n : StrandId) : Nat :=
  if t.load.isSome then 0
  else (t.waiting.takeWhile fun a => match a with | .swap m _ => m == n | .load _ => false).length

/-- A slot after a reset of strand n (R134, R135): the swaps that were due take effect, the TLOAD in progress is abandoned
with the shadow bank invalid, and nothing else of the strand waits. -/
def Slot.abandon (t : Slot) (n : StrandId) : Slot :=
  let t := (List.range (t.swapsDue n)).foldl (fun t _ => if t.shadow.isSome then swapSlot t else t) t
  let mine := match t.load with | some l => l.strand == n | none => false
  let t := if mine then { t with load := none, shadow := none } else t
  { t with waiting := t.waiting.filter fun a => a.strand != n }.goOn

/-- A strand at its reset values, its parts, slots and areas released, the parts' group registers clear and their
stationary sets empty (R85), and its arrival flags CLOSED. -/
def State.clearStrand (s : State) (n : StrandId) : State :=
  let s := ((s.mapOwned n fun _ => {}).unlist n).unhold n.val
  let s := s.modVsu (regionFin n) fun v => { v with slots := v.slots.map fun t => t.abandon n }
  { s with jobs := s.jobs.filter fun j => j.strand != n }.setStrand n {}

/-- An engine at its reset values; its vanish count stays, and what it has sent is still answered (R64, R195, R205). -/
def Engine.afterReset (x : Engine) : Engine :=
  { ({} : Engine) with vanish := x.vanish, peers := x.peers.filter (fun p => !p.isRead), hostWrites := x.hostWrites,
                       tag := x.tag }

/-- Launch of strand n whose digest stream runs through this engine's D context is lost with it (12 R259, 10 R202). -/
def State.loseDigest (s : State) (n : StrandId) : State :=
  if (s.strand n).wantsDigest then s.modLaunch (s.strand n).launchId fun l => { l with digestLost := true } else s

def State.clearEngine (s : State) (e : EngineId) : State :=
  let x := s.engine e
  let s := if x.run == .running then s.stgOutcome e false else s
  ((((s.loseDigest e).unhold (engFid e)).setEngine e x.afterReset)).colSettle

/-- R140: both banks of every loadable slot invalid, the registers at their reset values, and a library load in progress gone.
A VSU that is disabled stays so until FUNC_ENABLE. Log entry 147, DEDUCED. -/
def Vsu.afterReset (v : Vsu) : Vsu :=
  { ({} : Vsu) with disabled := v.disabled, libState := if v.libState = 1 then 0 else v.libState, libErr := v.libErr }

/-! ### Region states (R307 to R310) -/

/-- STG_STATUS.STATE is 0 or 3, and STR_STATUS.STATE is 0 or 3. -/
def Engine.resting (x : Engine) : Bool := x.run == .faulted || (x.run == .idle && !x.disabled)
def Strand.resting (x : Strand) : Bool := x.run == .idle || x.run == .faulted

/-- R308. -/
def State.regionIdle (s : State) (r : RegionId) : Bool :=
  (regionStrands r).all (fun n => (s.strand n).resting) && (regionEngines r).all (fun e => (s.engine e).resting)
    && (s.vsu r).libState != 1 && !(s.region r.val).bist

/-- Blocks of a region. -/
def regionBlocks (r : RegionId) : List BlockId := (List.range 16).map fun i => fin128 (16 * r.val + i)

/-- The compute plane of a region as a function reset of everything leaves it, its memories zero-filled (R310). -/
def State.coldRegion (s : State) (r : RegionId) : State :=
  let s := (regionStrands r).foldl (fun s n => s.clearStrand n) s
  let s := (regionEngines r).foldl (fun s e => s.clearEngine e) s
  let s := s.setVsu r (s.vsu r).afterReset
  let s := (regionBlocks r).foldl (fun s b => s.setBlock b {}) s
  (s.zeroFill (scratchBase r.val) scratchSize).zeroFill (basinBase r.val) basinSize

/-- Queues whose head was blocked on a strand of the region look again (R222, R309). -/
def State.unblockRegion (s : State) (r : RegionId) : State := (regionStrands r).foldl (fun s n => s.unblock n.val) s

/-- GO with a TARGET in PWR_REGION_CTLr: refused, or the transition begins. The flag says whether it was taken. -/
def State.regionCmd (s : State) (r : RegionId) (tgt : Nat) : State × Bool :=
  let p : Pwr := { s.region r.val with target := BitVec.ofNat 3 tgt }
  if p.defect && tgt < 4 then (s.setPwr r { p with err := 3 }, false)
  else if 3 ≤ tgt && !s.regionIdle r then (s.setPwr r { p with err := 1 }, false)
  else
    let p := { p with err := 0 }
    (s.setPwr r (if p.state = tgt then p else startTransition p tgt), true)

/-- The transition ends: a plane that loses or regains its power is cold, and a region that wakes is looked at again. -/
def execPowerTransitionComplete (r : RegionId) (s : State) : Out1 :=
  let p := s.region r.val
  if !s.unitsOn || !p.busy then .next s
  else
    let s := if p.goal = 4 ∨ p.state = 4 then s.coldRegion r else s
    let s := (s.setPwr r { p with state := p.goal, busy := false }).sequencerReads r
    .next (if 3 ≤ p.state ∧ p.goal ≤ 2 then s.unblockRegion r else s)

/-! ### Self-refresh (R311) -/

/-- Controllers of a region. -/
def regionMcs (r : RegionId) : List McId := (List.range 8).map fun i => fin64 (8 * r.val + i)

def State.setSelfref (s : State) (r : RegionId) (v : BitVec 4) : State :=
  (regionMcs r).foldl (fun s m => if (s.mc m).resetting then s else s.setMc m { s.mc m with selfref := v }) s

/-- All 32 channels enter self-refresh; accesses already applied have ended. -/
def State.enterSelfref (s : State) (r : RegionId) : State :=
  (s.setSelfref r 0xF).setPwr r { (s.region r.val : Pwr) with selfref := true, selfrefStat := true }

/-- The channels come back, and the accesses that waited go on. -/
def State.leaveSelfref (s : State) (r : RegionId) : State :=
  ((s.setSelfref r 0).setPwr r { (s.region r.val : Pwr) with selfref := false, selfrefStat := false }).rerun

def execSelfRefreshEntry (r : RegionId) (s : State) : Out1 :=
  if !s.fabricOn then s.noBar0
  else if (s.region r.val).busy then .next s else .next (s.enterSelfref r)

def execSelfRefreshExit (r : RegionId) (s : State) : Out1 :=
  if !s.fabricOn then s.noBar0
  else if (s.region r.val).busy then .next s else .next (s.leaveSelfref r)

/-! ### PWR_REGION_CTLr (Table 15.11, R7, R358) -/

/-- What SELFREF asks of the channels. -/
def State.applySelfref (s : State) (r : RegionId) : State :=
  let p := s.region r.val
  if p.selfref && !p.selfrefStat then s.enterSelfref r
  else if !p.selfref && p.selfrefStat then s.leaveSelfref r
  else s

/-- A write of the register: its fields, then with GO the command, which is ignored while BUSY is 1. A reserved TARGET
keeps the field and starts nothing; a refused command leaves the channels as they are. Log entry 78, DEDUCED. Log entry 98, DEDUCED. -/
def State.writeCtl (s : State) (r : RegionId) (w : Nat) : State :=
  let tgt := fld w 0 3
  let p := s.region r.val
  let q : Pwr := { p with selfref := bitAt w 3, target := if tgt < 5 then BitVec.ofNat 3 tgt else p.target }
  let t := s.setPwr r q
  if !bitAt w 31 || p.busy then t
  else if 5 ≤ tgt then t.setPwr r { q with err := 5 }
  else
    let c := t.regionCmd r tgt
    if c.2 then c.1.applySelfref r else c.1

/-- The command as the host gives it, with SELFREF as it stands. -/
def setPs (r : RegionId) (tgt : Nat) (s : State) : Out1 :=
  if !s.fabricOn then s.noBar0 else .next (s.writeCtl r (tgt + 8 * b2n (s.region r.val).selfref + 0x80000000))

def execSetPs0 (r : RegionId) (s : State) : Out1 := setPs r 0 s
def execSetPs1 (r : RegionId) (s : State) : Out1 := setPs r 1 s
def execSetPs2 (r : RegionId) (s : State) : Out1 := setPs r 2 s
def execSetPs3 (r : RegionId) (s : State) : Out1 := setPs r 3 s
def execSetPs4 (r : RegionId) (s : State) : Out1 := setPs r 4 s

/-! ### Self-test (R326, R327, R350) -/

def State.bistStart (s : State) (kind target : Nat) : State :=
  { s with power := { s.power with bistKind := BitVec.ofNat 2 kind, bistTarget := BitVec.ofNat 8 target } }

def State.bistStat (s : State) (st err : Nat) : State := { s with power := { s.power with bistState := st, bistErr := err, bistChannel := none } }

def execRegionBist (r : RegionId) (s : State) : Out1 :=
  if !s.fabricOn then s.noBar0
  else if s.power.bistState = 1 then .next s
  else
    let s := s.bistStart 1 r.val
    if !s.regionIdle r then .next (s.bistStat 3 1)
    else if s.sleeping r.val then .next (s.bistStat 3 4)
    else .next ((s.setPwr r { (s.region r.val : Pwr) with bist := true }).bistStat 1 0)

/-- An online segment has frames on a channel. -/
def State.channelUsed (s : State) (c : Nat) : Bool :=
  s.segs.any fun p => p.2.online && (!p.2.place || p.2.home == c / 32)

def execMemoryBist (c : ChannelId) (s : State) : Out1 :=
  if !s.fabricOn then s.noBar0
  else if s.power.bistState = 1 then .next s
  else
    let s := s.bistStart 2 c.val
    if s.channelUsed c.val then .next (s.bistStat 3 2)
    else
      let t := s.bistStat 1 0
      .next { t with power := { t.power with bistChannel := some c.val } }

/-- Logs a failed test (log entry 42, DEDUCED). -/
def State.logBist (s : State) (level kind target : Nat) : State :=
  s.logEv 1 level 0xFF 0x15 0 (Config.bistInfo kind target).toNat

/-- A region that failed its test: held in PS4. -/
def State.defectRegion (s : State) (r : RegionId) : State :=
  let s := (s.coldRegion r).logBist 2 1 r.val
  s.setPwr r { (s.region r.val : Pwr) with defect := true, state := 4, busy := false, bist := false }

def State.unusable (s : State) (c : Nat) : State :=
  let m := mcOfChannel c
  s.setMc m { s.mc m with unusable := (s.mc m).unusable ||| BitVec.ofNat 4 (2 ^ (c % 4)) }

/-- A test ends. -/
def execBistComplete (t : BistTarget) (pass : Bool) (s : State) : Out1 :=
  if !s.unitsOn then .next s
  else
    match t with
    | .region r =>
      let p := s.region r.val
      if !p.bist || s.power.bistState ≠ 1 then .next s
      else if pass then
        .next ((((s.coldRegion r).setPwr r { p with bist := false }).bistStat 2 0).unblockRegion r)
      else .next ((s.defectRegion r).bistStat 3 0x10)
    | .channel c =>
      if s.power.bistChannel ≠ some c.val then .next s
      else if pass then .next (s.bistStat 2 0)
      else .next (((s.unusable c.val).logBist 2 2 c.val).bistStat 3 0x10)
    | .startRegion r =>
      if !s.board.bistLeft.contains r.val then .next s
      else
        let s := { s with board := { s.board with bistLeft := s.board.bistLeft.filter (· != r.val) } }
        let p := s.region r.val
        if !pass then .next (s.defectRegion r)
        else .next (s.setPwr r (if p.target.toNat = 4 then p else startTransition p p.target.toNat))
    | .startChip =>
      if !s.board.chipBistLeft then .next s
      else
        let s := { s with board := { s.board with chipBistLeft := false } }
        if !pass then .next (s.fatalNow 3 0xFF 0x15 0 (Config.bistInfo 0 0).toNat)
        else .next (s.forN 12 fun i s => s.modPort (fin12 i) fun x => if x.enable then { x with state := .down } else x)

/-! ### Thermal limits (R314) -/

/-- The emergency stop: clocks stopped, compute planes unpowered, every channel in self-refresh. -/
def State.emergencyStop (s : State) : State :=
  let s := s.forN 8 fun i s =>
    let r := fin8 i
    let s := (s.coldRegion r).setSelfref r 0xF
    s.setPwr r { (s.region i : Pwr) with state := 5, selfrefStat := true, busy := false, bist := false }
  { s with power := { s.power with emergency := true } }

def State.thermInfo (s : State) : Nat := s.power.tjMax.toNat + s.power.sensor * 2 ^ 8

/-- What the hottest reading of the last sample leads to under the limits as they stand. -/
def State.thermal (s : State) : State :=
  let p := s.power
  let hot := p.tjMax.toNat
  let s :=
    if p.tjWarn.toNat ≤ hot && !p.warnHeld then
      let s := { s with power := { p with warnPend := true, warnHeld := true } }
      (s.logEv 4 3 0xFF 0x12 0 s.thermInfo).sendMsix p.vector.toNat
    else if hot + 3 ≤ p.tjWarn.toNat then { s with power := { p with warnHeld := false } }
    else s
  if p.tjCrit.toNat ≤ hot && !p.emergency then
    (s.deviceFatal 3 0xFF 0x13 0 s.thermInfo).emergencyStop.rerun
  else s

/-- The hottest of the readings and its sensor, the lowest number of equals. -/
def hottest (tj : List Byte) : Nat × Nat :=
  (List.zip (List.range tj.length) tj).foldl (fun b p => if b.1 < p.2.toNat then (p.2.toNat, p.1) else b) (0, 0)

def execThermalSample (tj : List Byte) (s : State) : Out1 :=
  if tj.length ≠ 16 then .fault .illFormed
  else if !s.chipOn then .next s
  else
    let h := hottest tj
    .next { s with power := { s.power with tjMax := BitVec.ofNat 8 h.1, sensor := h.2 } }.thermal

end Sys2Proof.Machine
end

