-- ==== Sys2Proof/Machine/Func.lean ====
section
/-!
DEFINITION. The functions of Table 15.4: reset, disable and enable, their refusals and their end (15 R315 to R318, R325),
and the release of a grant by an arbiter's watchdog (12 R245, R246).
-/
namespace Sys2Proof.Machine

open Sys2Proof

/-- A function id (Table 15.4). -/
inductive Fn where
  | strand (n : StrandId)
  | engine (e : EngineId)
  | port (p : PortId)
  | qe
  | se
  | vsu (r : RegionId)
  | mc (m : McId)
deriving DecidableEq, Repr

/-- The function of an id; none for a reserved one. -/
def fnOf (f : Nat) : Option Fn :=
  if f < 0x20 then some (.strand (fin32 f))
  else if f < 0x40 then some (.engine (fin32 (f - 0x20)))
  else if f < 0x4C then some (.port (fin12 (f - 0x40)))
  else if f = 0x50 then some .qe
  else if f = 0x51 then some .se
  else if 0x60 ≤ f ∧ f < 0x68 then some (.vsu (fin8 (f - 0x60)))
  else if 0x80 ≤ f ∧ f < 0xC0 then some (.mc (fin64 (f - 0x80)))
  else none

def Fn.code : Fn → Nat
  | .strand n => n.val
  | .engine e => 0x20 + e.val
  | .port p => 0x40 + p.val
  | .qe => 0x50
  | .se => 0x51
  | .vsu r => 0x60 + r.val
  | .mc m => 0x80 + m.val

/-- LEVEL of a function's records. -/
def Fn.level : Fn → Nat
  | .port _ => 3
  | .qe => 3
  | .se => 3
  | _ => 2

def State.fnDisabled (s : State) : Fn → Bool
  | .strand n => (s.strand n).disabled
  | .engine e => (s.engine e).disabled
  | .port p => (s.port p).disabledFn
  | .qe => s.qe.disabled
  | .se => s.se.disabled
  | .vsu r => (s.vsu r).disabled
  | .mc m => (s.mc m).disabled

def State.fnFaulted (s : State) : Fn → Bool
  | .strand n => (s.strand n).run == .faulted
  | .engine e => (s.engine e).run == .faulted || (s.engine e).faulting
  | .qe => s.qe.faulted
  | .se => s.se.faulted
  | _ => false

/-- FUNC_STATE of a function: 0 enabled, 1 disabled, 2 faulted, 3 reset in progress. -/
def State.fnState (s : State) (f : Fn) : Nat :=
  if s.func.resetting == some (BitVec.ofNat 8 f.code) then 3
  else if s.fnFaulted f then 2
  else if s.fnDisabled f then 1
  else 0

/-! ### Refusals (Table 15.6) -/

inductive FnCmd where
  | reset | disable | enable
deriving DecidableEq, Repr

def State.fnBusy (s : State) (c : FnCmd) (f : Fn) : Bool :=
  c != .enable && (match f with
    | .vsu r => (regionStrands r).any s.strandBusy
    | .se => !s.qe.launches.isEmpty
    | .mc m => (match s.power.bistChannel with | some c => mcOfChannel c == m | none => false)
    | _ => false)

def State.fnAsleep (s : State) (f : Fn) : Bool :=
  match f with
  | .strand n => s.sleeping (regionOf n)
  | .engine e => s.sleeping (engRegion e)
  | .vsu r => s.sleeping r.val
  | _ => false

def State.fnStateBad (s : State) (c : FnCmd) (f : Fn) : Bool :=
  match c with
  | .reset => false
  | .disable => s.fnFaulted f
  | .enable => !s.fnDisabled f

/-- ERRCODE of a command: FATAL before all others, then the lowest that holds; 0 to accept (log entry 44, DEDUCED). -/
def State.fnRefusal (s : State) (c : FnCmd) (f : Nat) : Nat :=
  if s.errlog.fatal then 5
  else
    match fnOf f with
    | none => 2
    | some g => if s.fnBusy c g then 1 else if s.fnStateBad c g then 3 else if s.fnAsleep g then 4 else 0

/-! ### Reset (Table 15.5, R325) -/

/-- The writes of an engine that wait at the gate for one step: staging address and bytes. -/
def State.storesOf (s : State) (e : EngineId) (c : Instr) : List (Nat × Nat) :=
  let x := s.engine e
  match c with
  | .stx f q => if f = e then [(stepAddr x q.step, 4)] else []
  | .cvuout f q => if f = e then [(stAddr q.step, 8)] else []
  | .shafin f st => if f = e then [(stAddr st, 32)] else []
  | .bucket f q =>
    if f = e then
      match bucketOf e q.step with
      | some b => (((s.bkRun b).out.reverse).takeWhile fun w => s.engReach w.1 w.2.1.length).map fun w => (w.1, w.2.1.length)
      | none => []
    else []
  | _ => []

/-- Discards what the engine had still to write, each burst and each store with its record. -/
def State.logUnwritten (s : State) (e : EngineId) : State :=
  let x := s.engine e
  let stores := if x.storing then s.coh.held.flatMap (s.storesOf e) else []
  (x.bursts.map (fun b => (stagWord b.space b.dst b.addr, b.bytes.length)) ++ stores).foldl
    (fun s w => s.logEv 1 2 (engFid e) 0x0B w.1 w.2) s

/-- The launch of a strand that is reset: the RESET marker, once, and the end of the strand's part. -/
def State.resetLaunch (s : State) (n : StrandId) : State :=
  match (s.strand n).launch with
  | none => s
  | some l =>
    let s := match s.launchOf l.id with
      | some y => s.recordLaunch y 3 0 n.val 0 0
      | none => s
    s.endPart n l.id false

def State.emptyMailboxes (s : State) (n : StrandId) : State :=
  let m := s.mbx
  let mask := oneBit64 n.val ||| oneBit64 (32 + n.val)
  s.setMbx { m with h2s := m.h2s.set n m.h2s[n].empty, s2h := m.s2h.set n m.s2h[n].empty, pend := m.pend &&& ~~~mask }

def State.resetStrand (s : State) (n : StrandId) : State :=
  let s := (s.logEv 4 2 n.val 0x19 0 n.val).resetLaunch n
  ((s.clearStrand n).emptyMailboxes n).unblock n.val

def State.resetEngine (s : State) (e : EngineId) : State :=
  ((s.logUnwritten e).clearEngine e).logEv 4 2 (engFid e) 0x19 0 (engFid e)

/-- The port goes to DOWN and trains again; a port that the host keeps DISABLED stays there. -/
def State.resetPort (s : State) (p : PortId) : State :=
  let st := (s.port p).state
  let s := (s.leaveLink p (if st == .disabled then .disabled else .down)).modPort p fun x => { x with disabledFn := false }
  s.logEv 4 3 (0x40 + p.val) 0x19 0 (0x40 + p.val)

/-- Every queue is disabled; running launches go on without records. -/
def State.resetQe (s : State) : State :=
  let e := s.qe
  let t := s.setQe { e with enabled := [], ready := [], blocked := [], cursors := Vector.replicate 16 0, records := [],
                            host := e.host.map (fun _ => .dropped), line := none, disabled := false, faulted := false, state := if e.state = 1 then 0 else e.state,
                            launches := e.launches.map fun l => { l with orphan := true } }
  let t := e.records.foldl (fun s r => s.discardCompletion r.cq) t
  (t.unhold 0x50).logEv 4 3 0x50 0x19 0 0x50

/-- Session entries that the rebuild of the SE reads: those that a poisoned line holds, by session id, and the open ones. -/
def State.badSessions (s : State) : List Nat := (List.range (2 ^ 20)).filter fun q => (s.sessEnt q).bad
def State.openSessions (s : State) : List Nat :=
  (List.range (2 ^ 20)).filter fun q => (s.sessEnt q).state == 1 && !(s.sessEnt q).bad

/-- Locations that VALID entries of open sessions name: pool pages, and spill slots. -/
def State.namedLocs (s : State) : List Nat × List Nat :=
  let es := s.openSessions.map s.sessEnt
  let ds := es.flatMap s.heldPages
  ((ds.filter fun d => !d.spilled).map (·.loc), (ds.filter fun d => d.spilled).map (·.loc))

/-- Numbers below the highest in use, and not in use; then the first number above. -/
def freeBelow (used : List Nat) : List Nat × Nat :=
  let top := used.foldl (fun m k => max m (k + 1)) 0
  ((List.range top).filter fun k => !used.contains k, top)

/-- Logs every poisoned entry that the rebuild reads (R321). -/
def State.logBadTables (s : State) : State :=
  let t := s.badSessions.foldl (fun t q => t.logEntry (s.sessAddr q) q) s
  s.openSessions.foldl (fun t q => t.logBadEntries q (s.sessEnt q)) t

/-- The free list and the slot list are rebuilt from the tables in memory. A disabled SE stays disabled. Log entry 89, DEDUCED. -/
def State.resetSe (s : State) : State :=
  let e := s.se
  let s := s.meet [(e.stbase.toNat, 64 * 2 ^ 20)]
  let s := s.meet (s.openSessions.map fun q => ((s.sessEnt q).dir, 4 * (s.sessEnt q).nidx))
  let n := s.namedLocs
  let pages := freeBelow (n.1.map fun p => p - e.firstPage)
  let slots := freeBelow n.2
  let s := s.logBadTables
  let s := s.setSe { e with freed := pages.1, next := pages.2, limit := e.poolpages.toNat, slotFreed := slots.1,
                            slotNext := slots.2, spilling := none, faulted := false,
                            state := if e.state = 1 then 0 else e.state }
  (s.unhold 0x51).logEv 4 3 0x51 0x19 0 0x51

def State.resetVsu (s : State) (r : RegionId) : State :=
  (s.modVsu r Vsu.afterReset).logEv 4 2 (0x60 + r.val) 0x19 0 (0x60 + r.val)

/-- The controller's channels are in self-refresh until it has retrained them. -/
def State.resetMc (s : State) (m : McId) : State :=
  let x := s.mc m
  (s.setMc m { x with ce := 0, ue := 0, selfref := 0xF, trained := 0, resetting := true, disabled := false }).logEv
    4 2 (0x80 + m.val) 0x19 0 (0x80 + m.val)

def State.resetFn (s : State) : Fn → State
  | .strand n => s.resetStrand n
  | .engine e => s.resetEngine e
  | .port p => s.resetPort p
  | .qe => s.resetQe
  | .se => s.resetSe
  | .vsu r => s.resetVsu r
  | .mc m => s.resetMc m

/-- The QE or the SE, for a command of its own that reads and then writes a queue, session or directory entry. -/
def tableCmd (c : Instr) : Option Nat :=
  match c with
  | .dispatch => some 0x50
  | .completionRecordWrite _ => some 0x50
  | .queueEnable _ => some 0x50
  | .openS _ => some 0x51
  | .closeS _ => some 0x51
  | _ => none

/-- Such commands of function f that have begun and wait at the gate. -/
def State.begunOf (s : State) (f : Nat) : List Instr := s.coh.held.filter fun c => tableCmd c == some f && s.begun c

/-- What such a command has still to write. -/
def State.tableWrites (s : State) (c : Instr) : List (Nat × Nat) :=
  match c with
  | .completionRecordWrite q =>
    let x := s.ent q.val
    (if x.host then [] else [(x.slot x.tail, x.recSize)]) ++ [(s.entAddr q.val, 64)]
  | .dispatch => []
  | .queueEnable q => [(s.entAddr q.val, 64)]
  | .openS i => let e := s.sessEnt i.val; [(e.dir, 4 * e.nidx), (e.addr, 64)]
  | .closeS i => [(s.sessAddr i.val, 64)]
  | _ => []

/-- Abandons those commands: each write is recorded as not made visible (R252). Log entry 150, DEDUCED. -/
def State.dropTables (s : State) (f : Nat) : State :=
  ((s.begunOf f).flatMap s.tableWrites).foldl (fun s w => s.logEv 1 3 f 0x0B w.1 w.2) (s.unhold f)

/-- The function stands at an atomic-unit boundary (Table 15.4): a strand's passes and its store at the gate, an engine's write
at the gate, an SE's page copy, the QE's transaction on a host ring, and what the QE or the SE has begun and holds at the gate are
over. A TLOAD in progress is abandoned (R134). -/
def State.atBoundary (s : State) : Fn → Bool
  | .strand n => (s.strand n).run == .faulted || (s.drained n && (s.heldStore n).isNone)
  | .engine e => (s.engine e).run == .faulted || !(s.engine e).storing
  | .se => s.se.faulted || ((match s.se.spilling with | some p => p.slot.isNone | none => true) && (s.begunOf 0x51).isEmpty)
  | .qe => s.qe.faulted || ((match s.qe.host with | some t => t.queue.isNone | none => true) && (s.begunOf 0x50).isEmpty)
  | _ => true

def State.setFunc (s : State) (st err f : Nat) (resetting : Option Byte) (due : Bool) : State :=
  { s with func := { state := st, err := err, fid := BitVec.ofNat 8 f, resetting := resetting, due := due } }

/-- A command: ignored while another is busy, refused under Table 15.6, or begun. -/
def fnCmd (c : FnCmd) (f : Byte) (s : State) (go : State → Fn → State) : Out1 :=
  if !s.hostOn then s.noBar0
  else if s.func.state = 1 then .next s
  else
    let e := s.fnRefusal c f.toNat
    if e ≠ 0 then .next (s.setFunc 3 e f.toNat none false)
    else
      match fnOf f.toNat with
      | none => .next s
      | some g => .next (go (s.setFunc 1 0 f.toNat none false) g)

/-- Tables that the rebuild of the SE reads: the session table, then the directories of open sessions. -/
def State.seTables (s : State) : List (List (Nat × Nat)) :=
  [[(s.se.stbase.toNat, 64 * 2 ^ 20)], (s.openSessions.map s.sessEnt).map fun e => (e.dir, 4 * e.nidx)]

/-- What a reset reads may be read now; else the state with the snoops it needs sent (R296, R311, R318). -/
def State.resetAsk (s : State) : Fn → Option State
  | .se => s.seTables.findSome? fun rs => s.ask false rs []
  | _ => none

/-- The reset takes place, unless its function stands at no boundary yet or what it reads may not be read: then it is due. -/
def State.tryReset (s : State) (g : Fn) : State :=
  if !s.atBoundary g then { s with func := { s.func with due := true } }
  else
    match s.resetAsk g with
    | some t => { t with func := { t.func with due := true } }
    | none => { s with func := { s.func with due := false } }.resetFn g

/-- The reset takes place at the function's next boundary: at once, or before FUNC_COMMAND_COMPLETE. -/
def execFuncReset (f : Byte) (s : State) : Out1 :=
  fnCmd .reset f s fun s g => (s.setFunc 1 0 f.toNat (some f) false).tryReset g

def State.disableFn (s : State) : Fn → State
  | .strand n => s.modStrand n fun x => { x with disabled := true, broken := x.broken || x.inWindow }
  | .engine e => s.modEngine e fun x => { x with disabled := true }
  | .port p => s.modPort p fun x => { x with disabledFn := true }
  | .qe => s.setQe { s.qe with disabled := true }
  | .se => s.setSe { s.se with disabled := true }
  | .vsu r => s.modVsu r fun v => { v with disabled := true }
  | .mc m => s.setMc m { s.mc m with disabled := true }

def execFuncDisable (f : Byte) (s : State) : Out1 := fnCmd .disable f s fun s g => s.disableFn g

/-- The function goes on where it stopped, and what waited for it runs. -/
def State.enableFn (s : State) : Fn → State
  | .strand n => (s.modStrand n fun x => { x with disabled := false }).unblock n.val
  | .engine e => s.modEngine e fun x => { x with disabled := false }
  | .port p =>
    let kept := (s.port p).parked
    let s := s.modPort p fun x => { x with disabledFn := false, parked := [] }
    kept.foldl (fun s f => s.forward p f) ((if (s.port p).owesReplay && (s.port p).state == .up then s.resend p else s).pump p)
  | .qe => (s.setQe { s.qe with disabled := false }).rerun
  | .se => (s.setSe { s.se with disabled := false }).rerun
  | .vsu r => s.modVsu r fun v => { v with disabled := false }
  | .mc m => (s.setMc m { s.mc m with disabled := false }).rerun

def execFuncEnable (f : Byte) (s : State) : Out1 := fnCmd .enable f s fun s g => s.enableFn g

/-- What the function has sent has been answered, and the RESET marker of its launch is written, unless the QE writes none
(R325). Log entry 133, DEDUCED. -/
def State.writesSettled (s : State) : Fn → Bool
  | .engine e => !(s.engine e).unanswered && s.host.d2h.all fun r => r.1 != .engine e
  | .strand n => s.qeStopped || s.qe.records.all fun r => r.status != 3 || r.faultFn != n.val
  | _ => true

/-- The end of a reset: a memory controller's channels return to service. -/
def State.serveFn (s : State) : Fn → State
  | .mc m =>
    let x := s.mc m
    let sr : BitVec 4 := if (s.region (m.val / 8)).selfrefStat then 0xF else 0
    (s.setMc m { x with resetting := false, selfref := sr, trained := ~~~x.unusable }).rerun
  | .se => s.rerun
  | .strand _ => s.rerun
  | _ => s

/-- The command ends once its writes and records are settled; a reset that waited for its boundary comes first. -/
def execFuncCommandComplete (s : State) : Out1 :=
  if !s.unitsOn || s.func.state ≠ 1 then .next s
  else
    let f := s.func.fid.toNat
    match s.func.resetting, fnOf f with
    | some _, some g =>
      let s := if s.func.due then s.tryReset g else s
      if s.func.due || !s.writesSettled g then .next s else .next ((s.setFunc 2 0 f none false).serveFn g)
    | _, _ => .next (s.setFunc 2 0 f none false)

/-! ### Grants and the SRAM of the chip (12 R241, 15 Table 15.8) -/

/-- A Col egress arbiter whose point is free sends what waits (R274). -/
def State.egressGo (s : State) (a : ArbId) : State := if 2 ≤ a.val ∧ a.val < 14 then s.pump (fin12 (a.val - 2)) else s

/-- A decision at an arbitration point. The transfer it admits passes the tables of the QE or the SE, the snoop filter or the
fabric: a single-bit error in their SRAM is counted, an uncorrectable one is device-fatal. Log entry 131, DESIGN CHOICE. -/
def execArbiterGrant (a : ArbId) (pt : Fin 12) (reqs : List ArbReq) (s : State) : Out1 :=
  if !s.chipOn then .next s
  else
    let t := s.arbGrant a pt reqs
    match t.2 with
    | .clean => .next (t.1.egressGo a)
    | .corrected => .next ({ t.1 with errlog := t.1.errlog.counted 0 }.egressGo a)
    | .uncorrected => .next (t.1.fatalNow 3 0xFF 0x16 0 (Config.sramStructure a.val).toNat)

/-! ### Watchdog (12 R245, R246) -/

/-- Who holds a grant (Table 12.2). -/
inductive Owner where
  | fn (f : Fn)
  | coherence
  | mc
  | host
  | scrub
  | inbound
  | forwarded (p : PortId)
deriving DecidableEq, Repr

/-- A staging engine or a strand by its function id; it stands for its region. -/
def ownerFn (f : Nat) : Owner :=
  match fnOf f with
  | some (.engine e) => .fn (.engine e)
  | some (.strand n) => .fn (.strand n)
  | _ => .inbound

def ownerOf (a : ArbId) (o : ArbReq) : Owner :=
  let i := o.index.val
  if 14 ≤ a.val then
    if i < 4 then .fn (.engine (fin32 (4 * (a.val - 14) + i)))
    else if i = 4 then .fn (.strand (fin32 (4 * (a.val - 14) + o.owner % 4)))
    else if i = 5 then ownerFn o.owner
    else if i = 6 then .host
    else if i = 7 then .fn .se
    else if i = 8 then .scrub
    else .coherence
  else if a.val = 0 then .fn .qe
  else if i < 8 then ownerFn o.owner
  else if a.val = 1 then (if i = 8 then .fn .qe else if i = 9 then .fn .se else if i = 10 then .coherence else .mc)
  else .forwarded (fin12 (i - 8))

def Owner.cls : Owner → Nat
  | .fn _ => 2
  | .coherence => 3
  | .mc => 3
  | _ => 1

def Owner.fid : Owner → Nat
  | .fn f => f.code
  | _ => 0xFF

/-- A page copy that the SE abandons: the page that a recall or a spill was to write is recorded as not made visible (R252).
Log entry 150, DEDUCED. -/
def State.dropCopy (s : State) : State :=
  let spill := match s.se.spilling with
    | some p => (match p.slot with | some j => [stagWord 1 0 (s.se.slotAddr j)] | none => [])
    | none => []
  let back := if s.recalling then (match s.se.takePage with | some (k, _) => [s.se.pageAddr k] | none => []) else []
  (spill ++ back).foldl (fun s a => s.logEv 1 3 0x51 0x0B a 0x10000) s

/-- The function becomes function-fatal with kind watchdog, its transfer in progress abandoned and what it had not made
visible recorded (R245, R325). -/
def State.watchdogFault (s : State) : Fn → State
  | .strand n => (s.strandFault n .watchdog).unhold n.val
  | .engine e => ((s.logUnwritten e).unhold (engFid e)).stepFault e .watchdog
  | .qe => (s.dropTables 0x50).setQe { s.qe with faulted := true, host := s.qe.host.map (fun _ => .dropped), line := none }
  | .se => (s.dropCopy.dropTables 0x51).setSe { s.se with faulted := true, spilling := none }
  | _ => s

/-- Abandons the host's request at a line: a read is answered with poison. A BAR2 read has its completion here too; a BAR2
write is posted, and moves bytes (len ≠ 0). -/
def State.abandonHost (s : State) (line len : Nat) : State :=
  let here (h : Nat) : Bool := match s.hdmOffset h with | some o => o / 64 == line | none => false
  let mine (c : Instr) : Bool := match c with
    | .memrd h _ _ => here h
    | .memrddata h _ _ => here h
    | .memwr h _ _ _ _ => here h
    | _ => false
  let go := s.coh.held.filter mine
  let s := if len = 0 ∧ !isDevice (64 * line) then s.send (.hostData [] true) else s
  let s := { s with coh := { s.coh with held := s.coh.held.filter fun c => !mine c } }
  go.foldl (fun s c => match c with
    | .memwr .. => s.send .hostAck
    | _ => s.send (.hostData [] true)) s

/-- Source and tag of the held burst of a command that covers address a. -/
def heldBurst (a : Nat) (c : Instr) : Option (Nat × Nat) :=
  match c with
  | .write q m => if m.addr ≤ a && a ≤ m.addr + m.blenm1 then some (q.toNat, m.tag) else none
  | .atomadd q m => if m.addr ≤ a && a ≤ m.addr + m.blenm1 then some (q.toNat, m.tag) else none
  | _ => none

/-- Discards the inbound bursts at an address; their sources receive UNREACH with cause 5. -/
def State.abandonInbound (s : State) (a : Nat) : State :=
  let hit (b : Assembly) : Bool := b.addr ≤ a && a < b.addr + b.len
  let open_ := (s.col.bursts.filter hit).map fun b => (b.src, b.tag)
  let lost := open_ ++ (s.coh.held.filterMap (heldBurst a)).filter fun k => !open_.contains k
  let t := { s with
    col := { s.col with bursts := s.col.bursts.filter fun b => !hit b },
    coh := { s.coh with held := s.coh.held.filter fun c => (heldBurst a c).isNone } }
  lost.foldl (fun s k => s.respond k.1 (s.regionAt a) (simpleMsg mtUnreach k.2 0 5)) t

/-- Discards the flits of the flow that holds an egress port: those of the first waiting flit that arrived on port p. They
are counted in COL_DROP of that port (13 R276). -/
def State.abandonFlow (s : State) (egress p : PortId) : State :=
  let from_ (f : Flit) : Bool := f.receivedBy p
  let x := s.port egress
  let mine (f : Flit) : Bool := match x.waiting.find? from_ with
    | some g => from_ f && f.src == g.src && f.dst == g.dst && f.tc == g.tc && f.vc == g.vc && f.sport == g.sport
    | none => false
  let t := s.setPort egress { x with waiting := x.waiting.filter fun f => !mine f }
  (x.waiting.filter mine).foldl (fun s f => ((s.countDrop p 1).owe f.via).unreachAll f 5) t

/-- The message is a request of engine e. -/
def requestOf (e : EngineId) (m : ColMsg) : Bool := wantsUnreach m && tagEngine m.tag == e

/-- The requests of engine e in flits of this module. -/
def requestsIn (e : EngineId) (fs : List Flit) : List ColMsg :=
  (fs.filter fun f => f.via == 0 && !f.ctrl).flatMap fun f => (parseMsgs f.payload).filter (requestOf e)

/-- The flits without them; one that holds no more is gone. -/
def withoutRequests (e : EngineId) (fs : List Flit) : List Flit :=
  (fs.map fun f => if f.via == 0 && !f.ctrl then
      { f with payload := ((parseMsgs f.payload).filter fun m => !requestOf e m).flatMap msgBytes } else f).filter
    fun f => f.via != 0 || f.ctrl || !f.payload.isEmpty

/-- Abandons what engine e has sent and a Col egress port has not: each write of it is recorded as not made visible (R252). -/
def State.abandonSent (s : State) (p : PortId) (e : EngineId) : State :=
  let x := s.port p
  let tags := ((requestsIn e (x.waiting ++ s.col.filling)).filter fun m => m.mtype != mtArrive).map fun m => m.tag % 2048
  let lost := (s.engine e).peers.filter fun q => tags.contains q.tag
  let s := s.setPort p { x with waiting := withoutRequests e x.waiting }
  let s := { s with col := { s.col with filling := withoutRequests e s.col.filling } }
  let s := s.modEngine e fun y => { y with peers := y.peers.filter fun q => !tags.contains q.tag }
  (lost.filter fun q => !q.isRead).foldl (fun s q => s.logEv 1 2 (engFid e) 0x0B (stagWord 2 q.dst q.addr) q.bytes) s

/-- The transfer in progress of a function at a Col egress port (arbiters 2 to 13): an engine's requests that have not left. -/
def State.abandonEgress (s : State) (a : ArbId) : Fn → State
  | .engine e => if 2 ≤ a.val ∧ a.val < 14 then s.abandonSent (fin12 (a.val - 2)) e else s
  | _ => s

/-- The scrub goes on with the group after the one it has abandoned. -/
def State.abandonScrub (s : State) (a : Nat) : State :=
  let c := s.channelOf a
  let x := s.mc (mcOfChannel c)
  s.setMc (mcOfChannel c) { x with scrubPos := x.scrubPos.set (fin4 c) (BitVec.ofNat 32 ((x.scrubPos[fin4 c].toNat + 1) % 2 ^ 22)) }

/-- A grant held for its limit: it is recorded and released, the lines partly written are poisoned, and what follows
depends on the owner. -/
def execWatchdogBite (a : ArbId) (pt : Fin 12) (s : State) : Out1 :=
  let x := s.arb a.val
  match (x.point pt.val).owner with
  | none => .next s
  | some o =>
    if !s.unitsOn || points a.val ≤ pt.val then .next s
    else
      let w := ownerOf a o
      let x := { x.setPoint pt.val { x.point pt.val with owner := none } with bites := satAdd x.bites 1 }
      let s := s.setArb a.val x
      let level := if a.val < 14 then 3 else 2
      let info := a.val + o.index.val * 256
      let s := if o.len = 0 then s else s.poisonLines o.addr o.len
      match w with
      | .fn f => .next ((((s.logEv 2 level f.code 0x0A 0 info).abandonEgress a f).watchdogFault f).egressGo a)
      | .coherence => .next (s.fatalNow level 0xFF 0x0A 0 info)
      | .mc => .next (s.fatalNow level 0xFF 0x0A 0 info)
      | .host => .next ((s.logEv 1 level 0xFF 0x0A 0 info).abandonHost (o.addr / 64) o.len)
      | .scrub => .next ((s.logEv 1 level 0xFF 0x0A 0 info).abandonScrub o.addr)
      | .inbound => .next ((s.logEv 1 level 0xFF 0x0A 0 info).abandonInbound o.addr)
      | .forwarded p => .next (((s.logEv 1 level 0xFF 0x0A 0 info).abandonFlow (fin12 (a.val - 2)) p).egressGo a)

end Sys2Proof.Machine
end

