-- ==== Sys2Proof/Machine/Segment.lean ====
section
/-!
DEFINITION. Segments: their frames, and the online and offline commands (10 R208, R209; 17 R351).
-/
namespace Sys2Proof.Machine

open Sys2Proof

def State.setSeg (s : State) (n : Nat) (g : Seg) : State := { s with segs := assocSet n g s.segs }

/-- Frames of region r that segments hold. -/
def State.framesUsed (s : State) (r : Nat) : List Nat :=
  s.segs.flatMap fun p => if p.2.place then (if p.2.home = r then p.2.frames else []) else (p.2.frames.drop r).take 1

/-- A channel of region r has failed training or a test. -/
def State.regionUnusable (s : State) (r : Nat) : Bool :=
  (List.range 8).any fun p => (s.mc (fin64 (8 * r + p))).unusable != 0

/-- The k lowest free frames of region r; none when there are fewer (log entry 48, DESIGN CHOICE). -/
def State.takeFrames (s : State) (r k : Nat) : Option (List Nat) :=
  let used := s.framesUsed r
  let free := ((List.range 960).filter fun f => !used.contains f).take k
  if free.length < k || s.regionUnusable r then none else some free

/-- Frames for a segment with the placement that MEM_SEGMAPn holds. -/
def State.framesFor (s : State) (g : Seg) : Option (List Nat) :=
  if g.placeShadow then s.takeFrames g.homeShadow 8
  else (List.range 8).foldl (fun acc r => match acc, s.takeFrames r 1 with
    | some fs, some f => some (fs ++ f)
    | _, _ => none) (some [])

def State.setMgt (s : State) (m : Mgt) : State := { s with mgt := m }

def State.segStat (s : State) (st err : Nat) (work : Option (Nat × Bool)) : State :=
  s.setMgt { s.mgt with segState := st, segErr := err, segWork := work }

/-- MEM_SEGCMD as GO starts it; none while it is ignored. -/
def State.segCmd (s : State) (q : BitVec 10) (op : Nat) : Option State :=
  if !s.fabricOn || !s.board.memActive || s.mgt.segState = 1 then none
  else some (s.setMgt { s.mgt with segSel := q, segOp := BitVec.ofNat 2 op })

/-- Commits the placement and takes the frames. -/
def Seg.commit (g : Seg) (fs : List Nat) : Seg := { g with place := g.placeShadow, home := g.homeShadow, frames := fs }

def execSegmentOnline (q : BitVec 10) (s : State) : Out1 :=
  let n := q.toNat
  match s.segCmd q 1 with
  | none => s.noBar0
  | some s =>
    if 960 ≤ n then .next (s.segStat 3 3 none)
    else
      let g := s.seg n
      if g.online then .next (s.segStat 3 2 none)
      else
        match s.framesFor g with
        | none => .next (s.segStat 3 1 none)
        | some fs => .next ((s.setSeg n (g.commit fs)).segStat 1 0 (some (n, true)))

/-- Lines of a segment that the host may hold. -/
def State.segLines (s : State) (n : Nat) : List Nat :=
  (s.coh.sf.filter fun e => segOf (64 * e.line) == n).map (·.line)

/-- Asks the host for every line of the segment, as many at once as may be outstanding. -/
def State.snoopSeg (s : State) (n : Nat) : State := (s.segLines n).foldl (fun s l => s.snoop l 1 false) s

def execSegmentOffline (q : BitVec 10) (s : State) : Out1 :=
  let n := q.toNat
  match s.segCmd q 2 with
  | none => s.noBar0
  | some s =>
    if 960 ≤ n then .next (s.segStat 3 3 none)
    else if !(s.seg n).online then .next (s.segStat 3 2 none)
    else .next ((s.segStat 1 0 (some (n, false))).snoopSeg n)

def segBase (n : Nat) : Nat := n * 0x40000000

/-- The segment is filled with zeros and answers. -/
def State.segUp (s : State) (n : Nat) : State :=
  (s.zeroFill (segBase n) 0x40000000).setSeg n { s.seg n with online := true }

/-- The segment's frames are free and its contents lost. -/
def State.segDown (s : State) (n : Nat) : State :=
  (s.zeroFill (segBase n) 0x40000000).setSeg n { s.seg n with online := false, frames := [] }

/-- Every channel that holds the segment serves accesses (R311, R318). -/
def State.segChannelsUp (s : State) (n : Nat) : Bool :=
  let g := s.seg n
  (List.range 256).all fun c => (g.place && g.home != c / 32) || s.channelUp c

/-- Segment of a host request that waits. -/
def State.hostSegment (s : State) (c : Instr) : Option Nat :=
  let line (h : Nat) : Option Nat := (s.hdmOffset h).map segOf
  match c with
  | .memrd h _ _ => line h
  | .memrddata h _ _ => line h
  | .memwr h _ _ _ _ => line h
  | .meminv h => line h
  | _ => none

/-- Segments that a Col burst writes, whether it is at the gate or behind another burst of its source. -/
def burstSegments (c : Instr) : List Nat :=
  match c with
  | .write _ m => (deviceLines [(m.addr, m.blenm1 + 1)]).map fun l => segOf (64 * l)
  | .atomadd _ m => (deviceLines [(m.addr, m.blenm1 + 1)]).map fun l => segOf (64 * l)
  | _ => []

/-- A command that waits has an access to the segment. -/
def State.heldIn (s : State) (n : Nat) (c : Instr) : Bool :=
  s.hostSegment c == some n || (burstSegments c).contains n || s.coh.access.any fun p => p.1 == c && p.2.contains n

/-- A load of a strand from the segment has been issued and its data has not come. -/
def Strand.loadsIn (n : Nat) (x : Strand) : Bool := match x.wait with | .ldm _ a => isDevice a && segOf a == n | _ => false

/-- No line of the segment is with the host or on its way back. -/
def State.segFree (s : State) (n : Nat) : Bool :=
  (s.segLines n).isEmpty && s.coh.snps.all fun q => segOf (64 * q.line) != n

/-- Nor does an access to it wait or run. -/
def State.segQuiet (s : State) (n : Nat) : Bool :=
  s.segFree n && s.coh.held.all (fun c => !s.heldIn n c) && s.strands.toList.all fun x => !x.loadsIn n

/-- The command ends. Both fill or free every line, so both wait for the host's answers (R209, R296); an online command waits
for its channels, an offline command for accesses in flight. -/
def execSegmentCommandComplete (s : State) : Out1 :=
  if !s.unitsOn || s.mgt.segState ≠ 1 then .next s
  else
    match s.mgt.segWork with
    | none => .next s
    | some (n, true) =>
      if !s.segChannelsUp n then .next s
      else if s.segFree n then
        .next ((s.segUp n).segStat 2 0 none)
      else .next (s.snoopSeg n)
    | some (n, false) => if s.segQuiet n then .next ((s.segDown n).segStat 2 0 none) else .next (s.snoopSeg n)

end Sys2Proof.Machine
end

