-- ==== Sys2Proof/Machine/Startup.lean ====
section
/-!
DEFINITION. Resets, power inputs and start-up: conventional reset through PERST#, CXL Reset, FLR, the supplies, the MC's
boot, LPDDR4X training and the segments brought online (14 R292, R304 to R306; 16 R329, R337; 17 R343 to R351).
-/
namespace Sys2Proof.Machine

open Sys2Proof

/-! ### Stored settings into their sources (R329) -/

/-- Entries of a stored route table that are not zero. -/
def Nvm.table (n : Nvm) (t : Nat) : List (Nat × Nat) :=
  (List.range 16).flatMap fun b =>
    match n.applied.find? fun p => p.1 == 0x1000 + 16 * t + b with
    | none => []
    | some p => ((List.range 256).map fun j => (256 * b + j, fieldLE p.2 (8 * j) 8)).filter fun e => e.2 != 0

/-- Bytes of key 0x0005 that are not zero, by segment. -/
def Nvm.segments (n : Nvm) : List (Nat × Nat) :=
  match n.applied.find? fun p => p.1 == 5 with
  | none => []
  | some p => ((List.zip (List.range 960) p.2).map fun q => (q.1, q.2.toNat)).filter fun q => q.2 != 0

/-- Segments that start-up brings online, ascending. -/
def Nvm.onlineAtStart (n : Nvm) : List Nat := (n.segments.filter fun q => bitAt q.2 0).map (·.1)

def segStaged (v : Nat) : Seg :=
  { placeShadow := bitAt v 1, homeShadow := fld v 2 3, place := bitAt v 1, home := fld v 2 3 }

def pwrStaged (b : Byte) : Pwr := { target := BitVec.ofNat 3 (b.toNat % 8), selfref := bitAt b.toNat 3 }

def powerStaged (n : Nvm) (p : Power) : Power :=
  let v := n.stored 2
  let th := n.stored 4
  { p with regions := Vector.ofFn fun i => pwrStaged (v.getD i.val 0),
           wakeArm := BitVec.ofNat 32 (leValue (n.stored 3)), tjWarn := th.getD 0 0, tjCrit := th.getD 1 0 }

def colStaged (n : Nvm) (c : Col) : Col :=
  let m := BitVec.ofNat 12 (leValue (n.stored 6))
  let e := BitVec.ofNat 64 (leValue (n.stored 7))
  { c with modidShadow := m, modid := m, engShadow := e, eng := e, injShadow := n.table 12, inj := n.table 12,
           ports := Vector.ofFn fun i => { (c.ports[i] : Port) with rtShadow := n.table i.val, rtLive := n.table i.val } }

/-- Loads each stored value into its source and commits it. -/
def State.stage (s : State) : State :=
  let n := s.nvm
  let v := BitVec.ofNat 64 (leValue (n.stored 1))
  { s with mgt := { s.mgt with profileShadow := v, profile := v }, power := powerStaged n s.power, col := colStaged n s.col,
           segs := n.segments.map fun q => (q.1, segStaged q.2) }

/-! ### Conventional reset (R304, R344) -/

/-- The board after a conventional reset that has not been released. -/
def Board.conventional (b : Board) : Board :=
  { b with memInfoValid := false, memActive := false, bistLeft := List.range 8, chipBistLeft := true, trained := false,
           toOnline := [], debug := false, heldRelease := false }

/-- Everything a conventional reset resets; the NVM, the telemetry of the auxiliary rail and the board stay. Log entry 87, DEDUCED. -/
def State.conventional (s : State) : State :=
  { State.reset with nvm := s.nvm, tel := { sample := s.tel.sample, tplate := s.tel.tplate, vaux := s.tel.vaux }, out := s.out, fresh := s.fresh, nextId := s.nextId,
                     pending := s.pending, board := s.board.conventional }.stage

/-- The image of an UPDATE in progress that has passed step 1 of R336. -/
def State.updateImage (s : State) : Option (List Byte) :=
  match s.nvm.work with
  | .update a len => if (s.updateCheck a len).1 = 0 then some (s.updateCheck a len).2 else none
  | _ => none

/-- The MC stops within whatever it does. -/
def State.stopMc (s : State) : State :=
  if s.nvm.work = .none ∧ !s.nvm.copying then s
  else { s with nvm := s.nvm.interrupt s.updateImage s.fresh, fresh := s.fresh + 2 }

def State.setBoard (s : State) (b : Board) : State := { s with board := b }

/-- PERST# falls: the chip is reset, and the MC restarts while it has power (R337). Log entry 81, DEDUCED. -/
def execPerstAssert (s : State) : Out1 :=
  if s.board.perst then .next (s.setBoard { s.board with heldRelease := false, stopped := false })
  else
    let s := s.stopMc
    let s := { s with nvm := if s.board.aux then s.nvm.start else s.nvm, tel := {} }.conventional
    .next (s.setBoard { s.board with perst := true, stopped := false, mcRdy := false })

/-- Time P of Table 17.5. -/
def State.release (s : State) : State :=
  s.setBoard { s.board with perst := false, heldRelease := false, memInfoValid := true, toOnline := s.nvm.onlineAtStart }

/-- A held release takes place once MC_RDY and MAIN_PG are both asserted (R349). -/
def State.tryRelease (s : State) : State :=
  let b := s.board
  if b.perst && b.heldRelease && b.aux && b.mcRdy && b.mainPg && !b.stopped then s.release else s

def execPerstRelease (s : State) : Out1 :=
  if !s.board.perst || s.board.stopped then .next s
  else .next (s.setBoard { s.board with heldRelease := true }).tryRelease

/-! ### Supplies and the MC (R337, R343 to R345) -/

/-- Whether the chip stays stopped until PERST# is asserted again: the pin was not asserted when the power went. Log entry 80, DEDUCED. -/
def Board.mustPulse (b : Board) : Bool := !b.perst || b.heldRelease || b.stopped

def execMainPowerOn (s : State) : Out1 :=
  .next (s.setBoard { s.board with mainPower := true, mainPg := s.board.aux }).tryRelease

def execMainPowerOff (s : State) : Out1 :=
  if !s.board.mainPower then .next s
  else
    let pulse := s.board.mustPulse
    let t := s.conventional
    .next (t.setBoard { t.board with mainPower := false, mainPg := false, stopped := pulse, jtag := .idcode, boundary := [] })

def execAuxPowerRemoved (s : State) : Out1 :=
  if !s.board.aux then .next s
  else
    let pulse := s.board.mustPulse
    let t := { s.stopMc with tel := {} }.conventional
    .next (t.setBoard { t.board with aux := false, mcRdy := false, mainPg := false, stopped := pulse, busAddr := none,
                                     jtag := .idcode, boundary := [] })

/-- The boot ROM starts the MC, which replays the journal and stages the settings. A release of PERST# that came before is still
held (R349). -/
def execAuxPowerApplied (s : State) : Out1 :=
  if s.board.aux then .next s
  else
    let t := { s with nvm := s.nvm.start, tel := {} }.conventional
    .next (t.setBoard { t.board with aux := true, mcRdy := false, mainPg := t.board.mainPower,
                                     heldRelease := s.board.heldRelease })

def execTrialBootTimeout (s : State) : Out1 :=
  if s.board.aux && !s.board.mcRdy && s.nvm.boot.trial then .next (s.setNvm s.nvm.revert) else .next s

/-- MC_RDY is asserted, once a library copy that is due has ended (Table 17.5). -/
def State.mcReady (s : State) : State :=
  ((s.setNvm (if s.nvm.copying then s.nvm.endCopy else s.nvm)).setBoard { s.board with mcRdy := true }).tryRelease

/-- The MC reaches ready: the trial boot is confirmed; a library copy that is due then runs, and the MC is ready at its end. -/
def execMcReady (s : State) : Out1 :=
  if !s.board.aux || s.board.mcRdy then .next s
  else if s.nvm.copying then .next s.mcReady
  else
    let t := s.setNvm s.nvm.confirm.beginCopy
    .next (if t.nvm.copying then t else t.mcReady)

/-! ### Training and start-up segments (R292, R350) -/

/-- Memory_Active once the chip has passed its test and nothing is left to bring online; stored self-refresh requests take effect
then (log entry 86, DEDUCED). -/
def State.tryActive (s : State) : State :=
  if s.board.trained && s.board.toOnline.isEmpty && !s.board.chipBistLeft && !s.board.memActive then
    (s.setBoard { s.board with memActive := true }).forN 8 fun r s => s.applySelfref (fin8 r)
  else s

/-- All channels have trained, or failed to; the tests come first (Table 17.5). -/
def execLpddrTrainingComplete (failed : List ChannelId) (s : State) : Out1 :=
  if !s.unitsOn || s.board.trained || s.board.chipBistLeft || !s.board.bistLeft.isEmpty then .next s
  else
    let s := failed.foldl (fun s c => (s.unusable c.val).logBist 2 2 c.val) s
    let s := s.forN 64 fun i s => s.setMc (fin64 i) { s.mc (fin64 i) with trained := ~~~(s.mc (fin64 i)).unusable }
    .next (s.setBoard { s.board with trained := true }).tryActive

/-- The next stored segment comes online, or stays offline when its frames are unusable; either shows in MEM_SEGSTAT as the outcome
of an online command (R350, Table 10.13). Its fill waits for its channels and for
the host's answers, as an online command's does (R209, R296, R311, R318). Log entry 86, DEDUCED. -/
def execStartupSegmentOnline (s : State) : Out1 :=
  match s.board.toOnline with
  | [] => .next s
  | n :: t =>
    if !s.unitsOn || !s.board.trained then .next s
    else
      let done (s : State) : State := (s.setBoard { s.board with toOnline := t }).tryActive
      match s.framesFor (s.seg n) with
      | none => .next (done (s.segStat 3 1 none))
      | some fs =>
        let u := s.setSeg n ((s.seg n).commit fs)
        if !u.segChannelsUp n then .next s
        else if s.segFree n then .next (done ((u.segUp n).segStat 2 0 none))
        else .next (s.snoopSeg n)

/-! ### CXL Reset and FLR (R304 to R306) -/

/-- Commands that outlive a reset of the functions: those of the host and of Col peers. -/
def outlives (c : Instr) : Bool :=
  match c with
  | .memrd .. => true
  | .memrddata .. => true
  | .memwr .. => true
  | .meminv .. => true
  | .write .. => true
  | .readreq .. => true
  | .colArrive .. => true
  | .atomadd .. => true
  | .nvsCommandComplete => true
  | _ => false

/-- Every strand, engine, VSU, the QE and the SE is reset, and the mailboxes are emptied; no completion record is
written, and each write that was not made visible has its record (R252). What has been sent to the host is still answered,
or times out. Log entry 88, DEDUCED. Log entry 100, DEDUCED. -/
def State.resetUnits (s : State) : State :=
  let s := ((s.forN 32 fun i s => (s.logUnwritten (fin32 i)).dropStore (fin32 i)).dropTables 0x50).dropTables 0x51
  { s with strands := Vector.replicate 32 {}, blocks := Vector.replicate 128 {}, jobs := [],
           engines := s.engines.map Engine.afterReset, vsus := Vector.replicate 8 {},
           qe := { host := s.qe.host.map fun _ => .dropped }, se := {}, mbx := {},
           coh := { s.coh with held := s.coh.held.filter outlives } }.colSettle

/-- Arbiter weights at their defaults. -/
def Arb.defaults (x : Arb) (a : Nat) : Arb := { x with shadow := arbDefaults a, live := arbDefaults a, pending := false }

def execCxlReset (memClr : Bool) (s : State) : Out1 :=
  if !s.chipOn || s.host.cxlReset.isSome then .next s
  else
    let s := s.resetUnits
    .next { s with
      host := { s.host with
        hdm := {}, cxlReset := some memClr,
        cfg := { s.host.cfg with dvsec := { s.host.cfg.dvsec with resetMemClr := memClr, resetComplete := false } } },
      coh := { s.coh with sf := [], snps := [] },
      wdt := { s.wdt with entries := [] },
      arbs := (List.zip (List.range 22) s.arbs).map fun (p : Nat × Arb) => Arb.defaults p.2 p.1 }.rerun

/-- Segments that are online. -/
def State.onlineSegs (s : State) : List Nat := (s.segs.filter fun p => p.2.online).map (·.1)

/-- The reset ends; with Mem Clr every online segment is zero-filled first, which waits for the channels and for lines that the
host holds (R296, R311, R318). -/
def execCxlResetComplete (s : State) : Out1 :=
  match s.host.cxlReset with
  | none => .next s
  | some clr =>
    if !s.chipOn then .next s
    else if clr && !s.onlineSegs.all (fun n => s.segChannelsUp n && s.segFree n) then
      .next (s.onlineSegs.foldl (fun s n => s.snoopSeg n) s)
    else
      let s := if clr then s.onlineSegs.foldl (fun s n => s.zeroFill (segBase n) 0x40000000) s else s
      let cfg := { s.host.cfg with dvsec := { s.host.cfg.dvsec with resetComplete := true } }
      .next ({ s with host := { s.host with cxlReset := none, cfg := cfg } }.send .cxlResetDone)

/-- Every strand, every engine, the QE and the SE stand at the boundary of an atomic unit, and the host has answered what was
asked of it, or has been given up (R305). -/
def State.allAtBoundary (s : State) : Bool :=
  ((List.range 32).all fun i => s.atBoundary (.strand (fin32 i)) && s.atBoundary (.engine (fin32 i)))
    && s.atBoundary .qe && s.atBoundary .se && s.host.d2h.isEmpty

/-- The end of an FLR: the functions are reset. -/
def State.flrDone (s : State) : State :=
  let s := s.resetUnits
  { s with host := { s.host with msix := [], pba := [], msixEnable := false, funcMask := false, d3hot := false,
                                 flr := false } }.rerun

/-- An FLR stops every function at its next atomic unit (R305). It resets them at once when none has work issued, else as
soon as that work is over and no command waits: State.idle. After a device-fatal error every unit has stopped (R320), and the
reset takes effect at once. -/
def execFlr (s : State) : Out1 :=
  if !s.chipOn then .next s
  else
    let t := { s with host := { s.host with flr := true } }
    .next (if t.errlog.fatal || t.allAtBoundary then t.flrDone else t)

/-- The MC's own work: it answers the DOE mailbox and ends a copy of the library. -/
def State.mcIdle (s : State) : State :=
  let s := s.doeServe
  if !s.board.aux || !s.nvm.copying then s else if s.board.mcRdy then s.setNvm s.nvm.endCopy else s.mcReady

/-- The SE is free and an operation waits for it (R230). -/
def State.seIdle (s : State) : Bool := s.unitsOn && !s.seStopped && !s.seBusy && s.coh.held.any s.seOp

/-- What the block does with no command waiting. An FLR whose functions have stopped takes effect; the SE takes what waits for it;
Col flits that wait for no more messages leave, and messages of the module to itself arrive; the MC answers the DOE mailbox and
ends a copy of the library. Log entry 135, DESIGN CHOICE. -/
def State.idle (s : State) : State :=
  let s := if s.unitsOn && s.host.flr && s.allAtBoundary then s.flrDone else s
  let s := if s.seIdle then s.rerun else s
  (if s.unitsOn then s.flushFlits.loopIn else s).mcIdle

end Sys2Proof.Machine
end

