-- ==== Sys2Proof/Machine/Maintenance.lean ====
section
/-!
DEFINITION. Background work: refresh and calibration, patrol scrub, scratchpad scrub, telemetry, wear management (10 R210
to R213; 12 R255, R256; 16 R340).
-/
namespace Sys2Proof.Machine

open Sys2Proof

/-- Refresh delays accesses only: it changes no state of the model (R210, R211). -/
def execRefresh (c : ChannelId) (bank : Fin 16) (s : State) : Out1 :=
  let _ := (c, bank)
  .next s

/-- ZQ calibration and the oscillator read delay accesses only, retraining included (R210, R211). -/
def execZqCalibration (c : ChannelId) (rank : Fin 2) (s : State) : Out1 :=
  let _ := (c, rank)
  .next s

def execDqsOscillatorRead (c : ChannelId) (rank : Fin 2) (drift : Bool) (s : State) : Out1 :=
  let _ := (c, rank, drift)
  .next s

/-- The channel runs: it is trained and not in self-refresh, its controller neither disabled nor in reset. -/
def State.channelRuns (s : State) (c : Nat) : Bool :=
  s.unitsOn && (s.mc (mcOfChannel c)).trained.getLsbD (c % 4) && s.channelUp c

/-- The report of mode register 4 enters MC_DRAM_TEMP. -/
def execMr4Read (c : ChannelId) (code : BitVec 3) (s : State) : Out1 :=
  if !s.channelRuns c.val then .next s
  else
    let m := mcOfChannel c.val
    let x := s.mc m
    .next (s.setMc m { x with dramTemp := BitVec.ofNat 12 (setFld x.dramTemp.toNat (3 * (c.val % 4)) 3 code.toNat) })

/-! ### Patrol scrub (R207, R208, R212) -/

/-- HDM offset of frame offset x of segment n on channel c, where the segment's frame list holds that frame at index j
(the inverse of R208). -/
def frameAddr (n : Nat) (g : Seg) (c j x : Nat) : Nat :=
  let hi := x / 256
  if g.place then
    let k := j * 16384 + hi
    segBase n + (k * 32 + (c % 32).xor (k % 32)) * 256 + x % 256
  else segBase n + (hi * 256 + c.xor (hi % 256)) * 256 + x % 256

/-- Index of a frame of channel c in a segment's list, when the segment holds it. -/
def Seg.frameIndex (g : Seg) (c f : Nat) : Option Nat :=
  if g.place then (if g.home = c / 32 then g.frames.findIdx? (· == f) else none)
  else if g.frames[c / 32]? = some f then some (c / 32) else none

/-- HDM offset of usable byte offset u of channel c; none in a frame that no segment holds. -/
def State.hdmOf (s : State) (c u : Nat) : Option Nat :=
  (s.segs.findSome? fun p => (p.2.frameIndex c (u / 0x400000)).map fun j => frameAddr p.1 p.2 c j (u % 0x400000))

/-- Groups of a channel's raw space. -/
def scrubGroups : Nat := 2 ^ 22

/-- HDM offset of half h of group g of channel c: lines 0 to 14 hold data. -/
def State.halfAddr (s : State) (c g h : Nat) : Option Nat :=
  if 30 ≤ h then none else (s.hdmOf c (64 * (15 * g + h / 2))).map fun a => a + 32 * (h % 2)

/-- One finding: a correctable half is counted and logged, an uncorrectable one marked POISON and logged. -/
def State.scrubFind (s : State) (c g : Nat) (f : Finding) : State :=
  let m := mcOfChannel c
  let a := s.halfAddr c g f.1
  let addr := a.getD 0
  match f.2 with
  | .clean => s
  | .corrected => (s.setMc m { s.mc m with ce := satAdd (s.mc m).ce 1 }).logEv 0 2 (0x80 + m.val) 0x06 addr c
  | .uncorrected =>
    let s := s.setMc m { s.mc m with ue := satAdd (s.mc m).ue 1 }
    let s := match a with | some x => { s with poison := poisonAdd s.poison (halvesOf x 32) } | none => s
    s.logEv 1 2 (0x80 + m.val) 0x07 addr c

/-- Halves of group g of channel c that an upset has struck, with what it is. -/
def State.scrubStruck (s : State) (c g : Nat) : List (Nat × Nat × Ecc) :=
  if s.struck.isEmpty then []
  else (List.range 30).flatMap fun h => match s.halfAddr c g h with
    | none => []
    | some a => (s.struck.filter (struckIn [(a, 32)])).map fun f => (a, h, f.2)

/-- Scrubs the next group. A corrected half's write-back is dropped for a line that an agent has written since: the
model's bytes are the corrected ones either way. Log entry 82, DEDUCED. -/
def execPatrolScrub (c : ChannelId) (found : List Finding) (written : List Nat) (s : State) : Out1 :=
  let _ := written
  if !s.channelRuns c.val then .next s
  else
    let m := mcOfChannel c.val
    let q := fin4 c.val
    let g := ((s.mc m).scrubPos[q].toNat + 1) % scrubGroups
    let hit := s.scrubStruck c.val g
    let s := { s with struck := s.struck.filter fun f => !struckIn (hit.map fun (x : Nat × Nat × Ecc) => (x.1, 32)) f }
    let s := ((found.filter fun f => f.1 < 32) ++ hit.map (·.2)).foldl (fun s f => s.scrubFind c.val g f) s
    let x := s.mc m
    .next (s.setMc m { x with scrubPos := x.scrubPos.set q (BitVec.ofNat 32 g) })

/-- One slot of the scratchpad scrub, while the region's clock runs. -/
def execScratchpadScrub (r : RegionId) (bank : Fin 64) (word : Fin 12288) (ecc : Ecc) (s : State) : Out1 :=
  if !s.unitsOn || s.asleep r.val then .next s
  else .next (s.eccAt (scratchBase r.val + (word.val * 64 + bank.val) * 64) 64 ecc |>.meet [(scratchBase r.val + (word.val * 64 + bank.val) * 64, 64)])

/-! ### MC background work (R256, R340) -/

/-- The highest refresh-rate code that the channels report (Table 16.7). -/
def State.dramCode (s : State) : Nat :=
  s.mcs.toList.foldl (fun m x => (List.range 4).foldl (fun m q => max m (fld x.dramTemp.toNat (3 * q) 3)) m) 0

/-- The two sensors of a region as TEL_TJ reports them: HOT the hotter one, COOL the other (Table 16.7). -/
def tjPair (p : Byte × Byte) : Byte × Byte := if p.1.toNat < p.2.toNat then (p.2, p.1) else p

/-- One sample latches; with main power off, only what the auxiliary rail measures. -/
def execTelemetryLatch (t : TelSample) (s : State) : Out1 :=
  if !s.mcOn then .next s
  else
    let n := s.tel.sample + 1
    if s.board.mainPg then
      .next { s with tel := { sample := n, pin := t.pin, vin := t.vin, iin := t.iin, energy := t.energy,
                              tj := ((t.tj ++ List.replicate 8 (0, 0)).take 8).map tjPair, tplate := t.tplate, vaux := t.vaux,
                              tdram := BitVec.ofNat 8 s.dramCode } }
    else .next { s with tel := { sample := n, tplate := t.tplate, vaux := t.vaux } }

/-- Spare sectors of the reserved area (Table 16.1). -/
def spareSectors : Nat := 71

/-- Wear management moves the working copies of the calibration area to other spare sectors, while no STORE is pending (16 R328,
12 R256). Which sectors it takes is free. Log entry 139, DESIGN CHOICE. -/
def execWearManagement (s : State) : Out1 :=
  match s.nvm.work with
  | .store _ => .next s
  | _ =>
    if !s.mcOn then .next s
    else
      .next { s with nvm := { s.nvm with calCopy := Config.choice s.fresh % (spareSectors - 5) }, fresh := s.fresh + 1 }

end Sys2Proof.Machine
end

