-- ==== Sys2Proof/Machine/RegRead.lean ====
section
/-!
DEFINITION. What the registers of BAR0 read as, one 32-bit word at a time (00 Table 0.3, R6; 18 R353 to R355 and the
register tables of each part). Reads with an effect are rows of their own.
-/
namespace Sys2Proof.Machine

open Sys2Proof

/-- The half of a 64-bit register that the word at off shows. -/
def half (v off : Nat) : Nat := if off % 8 = 0 then v % 2 ^ 32 else v / 2 ^ 32 % 2 ^ 32

/-! ### Chip blocks -/

/-- Table 18.3. -/
def State.readChip (s : State) (o : Nat) : Nat :=
  if o = 0 then Config.vendorId.toNat + 0xA196 * 2 ^ 16
  else if o = 4 then Config.stepping.toNat
  else if o = 8 then
    b2n s.board.memActive + 2 * b2n s.errlog.fatal
      + ((List.range 8).map fun r => b2n (s.region r).defect * 2 ^ (2 + r)).foldl (· + ·) 0
  else 0

def Pwr.ctl (p : Pwr) : Nat := p.target.toNat + 8 * b2n p.selfref
def Pwr.stat (p : Pwr) : Nat :=
  p.state + 8 * b2n p.selfrefStat + 16 * b2n p.busy + 32 * b2n p.defect + 256 * p.err

/-- Table 15.11. -/
def State.readPwr (s : State) (o : Nat) : Nat :=
  let p := s.power
  if o < 0x40 then (if o % 8 = 0 then (s.region (o / 8)).ctl else (s.region (o / 8)).stat)
  else if o = 0x80 then p.wakeArm.toNat
  else if o = 0x84 then p.wakePend.toNat
  else if o = 0x90 then p.tjWarn.toNat + 256 * p.tjCrit.toNat
  else if o = 0x94 then p.tjMax.toNat + 256 * b2n p.warnPend
  else if o = 0xA0 then p.vector.toNat
  else if o = 0xC0 then p.bistKind.toNat + 4 * p.bistTarget.toNat
  else if o = 0xC4 then p.bistState + 256 * p.bistErr
  else 0

/-- Table 15.12. -/
def State.readFunc (s : State) (o : Nat) : Nat :=
  if o = 0x10 then s.func.state + 256 * s.func.err + 2 ^ 16 * s.func.fid.toNat
  else if 0x100 ≤ o ∧ o < 0x140 then
    ((List.range 16).map fun k =>
      (match fnOf (16 * ((o - 0x100) / 4) + k) with | some f => s.fnState f | none => 0) * 4 ^ k).foldl (· + ·) 0
  else 0

/-- Table 15.9. -/
def EvRec.bytes (r : EvRec) : List Byte :=
  leBytes 4 r.seq.toNat ++ leBytes 1 r.cls ++ leBytes 1 r.level ++ leBytes 1 r.fid ++ leBytes 1 r.code ++ leBytes 8 r.addr
    ++ leBytes 8 r.time ++ leBytes 8 r.info

/-- Table 15.13. -/
def State.readErr (s : State) (o : Nat) : Nat :=
  let e := s.errlog
  if o = 0 then b2n e.fatal + 2 * b2n e.viral + 4 * b2n e.overflow
  else if o = 8 then e.head.toNat
  else if o = 0xC then e.tail.toNat
  else if o = 0x10 then e.lost.toNat
  else if o = 0x14 then e.ce.toNat
  else if o = 0x18 then e.ue.toNat
  else if o = 0x20 then e.vecCe.toNat + 2 ^ 16 * e.vecUe.toNat
  else if o = 0x24 then e.ien.toNat
  else if 0x1000 ≤ o ∧ o < 0x9000 then
    match e.ring.find? fun p => p.1 == (o - 0x1000) / 32 with
    | some p => fieldLE p.2.bytes (o % 32) 4
    | none => 0
  else 0

/-- Table 12.4. -/
def State.readArb (s : State) (a o : Nat) : Nat :=
  let x := s.arb a
  if o < 0x80 then x.shadow.getD (o / 4) 0
  else if o < 0x100 then x.live.getD ((o - 0x80) / 4) 0
  else if o = 0x100 then 2 * b2n x.pending
  else if o = 0x104 then x.wdog.toNat
  else if o = 0x108 then
    match (x.point x.sel.toNat).owner with
    | some w => w.index.val + 64 + 128 * b2n w.lock
    | none => 0
  else if o = 0x10C then x.bites.toNat
  else if o = 0x110 then (Config.periodCycle a s.fresh).toNat
  else if o = 0x114 then x.sel.toNat
  else 0

/-- Bits of the FULL flags of mailboxes. -/
def fullBits (ms : List Mbx) : Nat :=
  ((List.zip (List.range ms.length) ms).map fun p => b2n p.2.full * 2 ^ p.1).foldl (· + ·) 0

/-- Table 11.10; a word of a mailbox that the strand or the MC has written is shown without emptying it. -/
def State.readMbx (s : State) (o : Nat) : Nat :=
  let m := s.mbx
  if 0x100 ≤ o ∧ o < 0x200 then half (s.s2h (fin32 ((o - 0x100) / 8))).word.toNat o
  else if o / 8 = 0x208 / 8 then half m.mc2h.word.toNat o
  else if o / 8 = 0x300 / 8 then half (fullBits m.h2s.toList + 2 ^ 32 * fullBits m.s2h.toList) o
  else if o = 0x308 then b2n m.h2mc.full + 2 * b2n m.mc2h.full
  else if o / 8 = 0x310 / 8 then half m.pend.toNat o
  else if o = 0x318 then m.mcpend.toNat
  else if o / 8 = 0x320 / 8 then half m.ien.toNat o
  else if o = 0x328 then m.mcien.toNat
  else if o = 0x330 then m.vector.toNat
  else if o = 0x338 then m.overrun.toNat
  else 0

/-- Table 11.8. -/
def State.readQe (s : State) (o : Nat) : Nat :=
  let e := s.qe
  if o / 8 = 0x400 / 8 then half e.qtbase.toNat o
  else if o = 0x410 then e.qid.toNat + 2 ^ 20 * e.op.toNat
  else if o = 0x414 then e.state + 256 * e.err
  else if o = 0x420 then e.dbErr.toNat
  else if o = 0x424 then e.errQid.toNat
  else if o = 0x428 then e.enabled.length
  else 0

/-- Table 11.9. -/
def State.readSe (s : State) (o : Nat) : Nat :=
  let e := s.se
  if o < 8 then half e.stbase.toNat o
  else if o < 0x10 then half e.poolbase.toNat o
  else if o = 0x10 then e.poolpages.toNat
  else if o / 8 = 0x18 / 8 then half e.sumbase.toNat o
  else if o / 8 = 0x20 / 8 then half e.spillbase.toNat o
  else if o = 0x28 then e.spillslots.toNat
  else if o = 0x30 then e.session.toNat + 2 ^ 20 * e.op.toNat
  else if o = 0x34 then e.state + 256 * e.err + 2 ^ 16 * e.skipped
  else if o = 0x38 then e.free
  else if o = 0x3C then e.recallFail.toNat
  else if o / 8 = 0x40 / 8 then half e.spillsumbase.toNat o
  else if o = 0x48 then e.openCount
  else 0

/-- Bytes used in the active journal area. -/
def Nvm.used (n : Nvm) : Nat :=
  match n.active with
  | some p => (n.area p.1).length
  | none => 0

/-- Table 16.6. -/
def State.readNvs (s : State) (o : Nat) : Nat :=
  let n := s.nvm
  if o = 0 then n.op.toNat
  else if o = 4 then n.state + 256 * n.err
  else if o / 8 = 1 then half n.updAddr.toNat o
  else if o = 0x10 then n.updLen.toNat
  else if o = 0x18 then (match n.active with | some p => p.2 | none => 0)
  else if o = 0x1C then n.replayed.next
  else if o = 0x20 then n.used
  else if o = 0x28 then b2n n.boot.active + 2 * b2n n.boot.pending + 4 * n.boot.last
  else if o = 0x2C then n.boot.version.toNat
  else if o = 0x30 then n.rollback.toNat
  else 0

/-- MEM_SEGMAPn (Table 10.12). -/
def Seg.map (g : Seg) : Nat := b2n g.online + 2 * b2n g.placeShadow + 4 * g.homeShadow

/-- The MGT block behind the NVS registers (Tables 10.12, 10.13, 10.15, 13.9, 16.4). -/
def State.readMgt (s : State) (o : Nat) : Nat :=
  let c := s.col
  let w := s.wdt
  let digest := assoc w.rdIndex.toNat [] w.entries
  if o < 0x100 then s.readNvs o
  else if o / 8 = 0x100 / 8 then half (s.mgt.profileShadow.toNat % 2 ^ 9) o
  else if o = 0x108 then 2 * b2n s.mgt.refused
  else if o / 8 = 0x110 / 8 then half Config.serial.toNat o
  else if 0x120 ≤ o ∧ o < 0x130 then fieldLE partNo (o - 0x120) 4
  else if o = 0x3F00 then s.mgt.segSel.toNat + 2 ^ 10 * s.mgt.segOp.toNat
  else if o = 0x3F04 then (if s.board.memActive then s.mgt.segState else 1) + 256 * s.mgt.segErr
  else if 0x4000 ≤ o ∧ o < 0x4F00 then (s.seg ((o - 0x4000) / 4)).map
  else if o = 0x5000 then c.modidShadow.toNat
  else if o / 8 = 0x5008 / 8 then half c.engShadow.toNat o
  else if o = 0x5010 then c.e2e.toNat
  else if o = 0x5018 then c.injIndex.toNat
  else if o / 8 = 0x5020 / 8 then half (assoc c.injIndex.toNat 0 c.injShadow) o
  else if o = 0x5028 then 2 * b2n c.pending
  else if o = 0x5030 then c.injDrop.toNat
  else if o = 0x6000 then w.index.toNat + 2 ^ 12 * b2n w.all
  else if o = 0x6004 then w.entries.length
  else if o = 0x6008 then w.rdIndex.toNat
  else if o = 0x600C then b2n (w.entries.any fun p => p.1 == w.rdIndex.toNat)
  else if 0x6020 ≤ o ∧ o < 0x6040 then fieldLE digest (o - 0x6020) 4
  else 0

/-- Table 16.7. -/
def State.readTel (s : State) (o : Nat) : Nat :=
  let t := s.tel
  if o = 0 then t.sample.toNat
  else if o = 4 then t.pin.toNat
  else if o = 8 then t.vin.toNat
  else if o = 0xC then t.iin.toNat
  else if o / 8 = 2 then half t.energy.toNat o
  else if 0x20 ≤ o ∧ o < 0x40 then
    let p := t.tj.getD ((o - 0x20) / 4) (0, 0)
    p.1.toNat + 256 * p.2.toNat
  else if o = 0x40 then t.tplate.toNat
  else if o = 0x44 then t.vaux.toNat
  else if o = 0x48 then t.tdram.toNat
  else 0

/-- MSI-X table and PBA (R299). -/
def State.readMsix (s : State) (o : Nat) : Nat :=
  let m := s.msixEntry (o / 16)
  if o < 0x8000 then (if o % 16 < 8 then half m.addr.toNat o else if o % 16 = 8 then m.data.toNat else m.control.toNat)
  else if o < 0x8100 then ((s.host.pba.filter fun v => v / 32 == (o - 0x8000) / 4).map fun v => 2 ^ (v % 32)).foldl (· + ·) 0
  else 0

/-- Interleave ways as the control register encodes them: 0 for one way. Log entry 93, PRESUMED. -/
def waysCode (k : Nat) : Nat := if k = 0 then 0 else k - 1

def Hdm.control (d : Hdm) : Nat :=
  2 ^ 4 * waysCode d.ways + 2 ^ 8 * b2n d.lock + 2 ^ 9 * b2n d.commit + 2 ^ 10 * b2n d.committed + 2 ^ 11 * b2n d.errNotCommitted
    + 2 ^ 13 * b2n d.bi

/-- The CXL RAS registers at offset o of the capability. -/
def ErrLog.readRas (e : ErrLog) (o : Nat) : Nat :=
  if o = 0 then e.rasUe.toNat
  else if o = 4 then e.rasUeMask.toNat
  else if o = 8 then e.rasUeSeverity.toNat
  else if o = 0xC then e.rasCe.toNat
  else if o = 0x10 then e.rasCeMask.toNat
  else if o = 0x14 then e.rasControl.toNat + (if e.rasUe = 0 then 0 else 7)
  else if 0x18 ≤ o ∧ o < 0x58 then (if e.rasUe = 0 then 0 else (Config.rasHeader ((o - 0x18) / 4)).toNat)
  else 0

/-- The decoder's registers at offset o of the capability: one decoder, poison on a decode error. -/
def Hdm.readReg (d : Hdm) (o : Nat) : Nat :=
  if o = 0 then 2 ^ 10
  else if o = 4 then d.global.toNat
  else if o = 0x10 then d.base % 2 ^ 32
  else if o = 0x14 then d.base / 2 ^ 32 % 2 ^ 32
  else if o = 0x18 then d.size % 2 ^ 32
  else if o = 0x1C then d.size / 2 ^ 32 % 2 ^ 32
  else if o = 0x20 then d.control
  else 0

/-- The CXL component registers, in the layout of the CXL specification: an array of two capabilities, RAS at 0x1100 and the HDM
decoder at 0x1200 (14 R288, R293, R300). Log entry 93, PRESUMED. -/
def State.readComponent (s : State) (o : Nat) : Nat :=
  if o = 0x1000 then 0x02110001
  else if o = 0x1004 then 0x10020002
  else if o = 0x1008 then 0x20010005
  else if 0x1100 ≤ o ∧ o < 0x1158 then s.errlog.readRas (o - 0x1100)
  else if 0x1200 ≤ o ∧ o < 0x1230 then s.host.hdm.readReg (o - 0x1200)
  else 0

def State.readCoh (s : State) (o : Nat) : Nat :=
  let c := s.coh
  if o = 0 then c.sf.length
  else if o = 8 then c.evict.toNat
  else if o = 0xC then c.bisnp.toNat
  else if o = 0x10 then c.snps.length
  else if o = 0x14 then c.conflict.toNat
  else if o = 0x18 then c.decoderMiss.toNat
  else 0

def PortState.code : PortState → Nat
  | .disabled => 0 | .down => 1 | .training => 2 | .up => 3 | .lpi => 4

/-- Table 13.8. -/
def Port.readReg (x : Port) (o : Nat) : Nat :=
  if o = 0 then b2n x.enable + 2 * b2n x.lpi
  else if o = 4 then x.state.code + 8 * b2n x.mismatch + 16 * x.retrains.toNat
  else if o = 8 then x.partnerId.toNat + 2 ^ 12 * x.partnerPort.toNat + 2 ^ 16 * b2n x.partnerValid
  else if o / 8 = 2 then half x.partnerProfile.toNat o
  else if o = 0x20 then x.rtIndex.toNat
  else if o / 8 = 5 then half (assoc x.rtIndex.toNat 0 x.rtShadow) o
  else if o = 0x40 then x.crcErr.toNat
  else if o = 0x44 then x.replay.toNat
  else if o = 0x48 then x.fecCorr.toNat
  else if o = 0x4C then x.fecUncorr.toNat
  else if o = 0x50 then x.drop.toNat
  else 0

/-! ### Region blocks -/

/-- Lanes that the running strands of a region hold (R116). -/
def State.lanesHeld (s : State) (r : RegionId) : Nat :=
  ((regionStrands r).map fun n =>
    match (s.strand n).run, (s.strand n).launch with
    | .running, some l => fieldLE l.sect 2 2
    | _, _ => 0).foldl (· + ·) 0

/-- Table 18.4. -/
def State.readRgn (s : State) (r : RegionId) (o : Nat) : Nat :=
  if o ≠ 0 then 0
  else
    r.val + ((List.range 4).map fun i =>
      b2n (!(s.strand (fin32 (4 * r.val + i))).resting) * 2 ^ (8 + i)
        + b2n (!(s.engine (fin32 (4 * r.val + i))).resting) * 2 ^ (12 + i)).foldl (· + ·) 0
      + 2 ^ 16 * (256 - s.lanesHeld r)

def StrandRun.code : StrandRun → Nat
  | .idle => 0 | .loading => 1 | .running => 2 | .faulted => 3

/-- STR_STATUS.WAITING: of what is held to issue again, an LDM, an STM and a session instruction wait; the end of a window
and an operation held at the gate do not (Table 8.11). -/
def Strand.isWaiting (x : Strand) : Bool :=
  match x.wait with
  | .none => false
  | .endW => false
  | .retry =>
    match x.codeWord with
    | some w => opOf w == 0x13 || opOf w == 0x14 || (0xA0 ≤ opOf w && opOf w ≤ 0xA3)
    | none => false
  | _ => true

/-- Tables 8.11 to 8.13. -/
def Strand.readReg (x : Strand) (o : Nat) : Nat :=
  if o = 0 then x.run.code + 4 * b2n x.inWindow + 8 * b2n x.isWaiting
  else if o = 4 then x.pc
  else if o = 8 then x.faultKind
  else if o = 0xC then x.faultPc
  else if o = 0x10 then x.windowCycles.toNat
  else if o = 0x14 then x.windowCount.toNat
  else if o = 0x20 then x.cntInvalid.toNat
  else if o = 0x24 then x.cntOverflow.toNat
  else if o = 0x28 then x.cntUnderflow.toNat
  else if o = 0x30 then x.arriveDrop.toNat
  else 0

/-- STG_STATUS.STATE. -/
def Engine.code (x : Engine) : Nat :=
  if x.run == .faulted then 3 else if x.disabled then 2 else if x.run == .running then 1 else 0

/-- Tables 3.7 and 10.8 to 10.10; the result is not defined while VALID is 0 (R201). -/
def Engine.readReg (x : Engine) (e o : Nat) : Nat :=
  let res := if x.cvuValid then x.cvuResult.toNat else if x.cvuLost then (Config.cvuUndefined e).toNat else 0
  if o = 0 then x.code + 256 * x.step + 2 ^ 16 * x.owner
  else if o = 8 then x.faultKind + 256 * x.faultStep
  else if o = 0x10 then res % 2 ^ 32
  else if o = 0x14 then res / 2 ^ 32
  else if o = 0x18 then b2n x.cvuValid + 2 * b2n x.cvuPoly + 4 * b2n x.cvuFold
  else if o = 0x40 then x.vanish.toNat
  else 0

/-- LATENCY of slot i: 8 for a built-in slot, else the steps of the live image and one (R126). -/
def Slot.latency (i : Nat) (t : Slot) : Nat :=
  if i < 14 then 8 else match t.live with | some bs => fieldLE bs 4 1 + 1 | none => 0

/-- VSU_SLOT_CTLn (Table 7.8). -/
def Slot.ctl (i : Nat) (t : Slot) : Nat :=
  b2n t.clampShadow + 2 * b2n (t.clamp && t.clampValid i) + 4 * b2n (i < 14 || t.live.isSome) + 8 * b2n t.shadow.isSome
    + 16 * b2n (i < 14) + 2 ^ 8 * t.latency i + 2 ^ 16 * (match t.owner with | some n => n.val | none => 0xFF)

/-- Tables 7.8 to 7.11. -/
def Vsu.readReg (v : Vsu) (o : Nat) : Nat :=
  if o < 0x80 then (v.slot (o / 4)).ctl (o / 4)
  else if o = 0x88 then v.libSlot.toNat + 2 ^ 8 * v.libIdx.toNat + 2 ^ 30 * b2n v.libSwap
  else if o = 0x8C then v.libState + 256 * v.libErr
  else 0

/-- Table 10.14. -/
def MemCtl.readReg (m : MemCtl) (o : Nat) : Nat :=
  if o = 0 then m.trained.toNat + 16 * m.selfref.toNat
  else if o = 0x10 then m.ce.toNat
  else if o = 0x14 then m.ue.toNat
  else if 0x18 ≤ o ∧ o < 0x28 then m.scrubPos[fin4 ((o - 0x18) / 4)].toNat
  else if o = 0x30 then m.dramTemp.toNat
  else 0

/-- A region's registers at offset o of its base. In PS4 the compute plane's read their reset values (R355). -/
def State.readRegion (s : State) (r : RegionId) (o : Nat) : Nat :=
  let live := (s.region r.val).state < 4
  let i := 4 * r.val + o / 0x10000 % 16
  let k := o % 0x10000
  if o < 0x10000 then
    (if live then s.readRgn r o else State.reset.readRgn r o)
  else if 0x100000 ≤ o ∧ o < 0x140000 then
    (if live then s.strand (fin32 i) else {}).readReg k
  else if 0x200000 ≤ o ∧ o < 0x240000 then
    (if live then s.engine (fin32 i) else {}).readReg i k
  else if 0x300000 ≤ o ∧ o < 0x340000 then
    (if live then s.vsu r else {}).readReg (o - 0x300000)
  else if 0x340000 ≤ o ∧ o < 0x360000 then (s.mc (fin64 (8 * r.val + (o - 0x340000) / 0x4000))).readReg (o % 0x4000)
  else if 0x380000 ≤ o ∧ o < 0x381000 then s.readArb (14 + r.val) (o - 0x380000)
  else 0

/-! ### The map (Table 18.1) -/

/-- The 32-bit word at a 4-byte aligned offset of BAR0. -/
def State.readWord (s : State) (off : Nat) : Nat :=
  let o := off % 0x10000
  let blk := off / 0x10000
  if blk = 0 then s.readChip o
  else if blk = 1 then s.readPwr o
  else if blk = 2 then s.readFunc o
  else if blk = 3 then s.readErr o
  else if blk = 4 then (if o < 0xE000 then s.readArb (o / 0x1000) (o % 0x1000) else 0)
  else if blk = 5 then s.readMbx o
  else if blk = 6 then s.readQe o
  else if blk = 7 then s.readSe o
  else if blk = 8 then s.readMgt o
  else if blk = 9 then s.readTel o
  else if blk = 0xA then s.readMsix o
  else if blk = 0xC then s.readComponent o
  else if blk = 0xD then s.readCoh o
  else if 0x10 ≤ blk ∧ blk < 0x1C then (s.port (fin12 (blk - 0x10))).readReg o
  else if 0x100 ≤ blk ∧ blk < 0x300 then
    s.readRegion (fin8 ((off - 0x1000000) / 0x400000)) ((off - 0x1000000) % 0x400000)
  else 0

/-- Eight bytes at an 8-byte aligned offset. -/
def State.readLine (s : State) (off : Nat) : List Byte := leBytes 4 (s.readWord off) ++ leBytes 4 (s.readWord (off + 4))

end Sys2Proof.Machine
end

