-- ==== Sys2Proof/Machine/Board.lean ====
section
/-!
DEFINITION. The management bus, the test port and the ALERT# pin (17 R347, R348).
-/
namespace Sys2Proof.Machine

open Sys2Proof

/-! ### Management bus (R347) -/

/-- ALERT# is asserted. -/
def State.alert (s : State) : Bool := s.power.warnPend || s.errlog.fatal

/-- Offsets that REGREAD serves at any time after MC_RDY. Log entry 94, DEDUCED. -/
def busAlways (off : Nat) : Bool := off == 0x80110 || off == 0x80120 || off == 0x80128 || off / 0x10000 == 9

/-- Offsets that it serves while MAIN_PG is asserted: the CHIP block, PWR_THERM_STAT in the upper half of its eight bytes,
and ERR_STATUS. -/
def busMain (off : Nat) : Bool := off / 0x10000 == 0 || off == 0x10090 || off == 0x30000

/-- CRC-8 of packet error checking: polynomial x⁸ + x² + x + 1, register 0 at the start. Log entry 153, PRESUMED. -/
def crc8Bits : Nat → Nat → Nat
  | 0, c => c
  | n + 1, c => crc8Bits n (if 128 ≤ c then (2 * c).xor 0x107 else 2 * c)
def pecOf (bs : List Byte) : Byte := BitVec.ofNat 8 (bs.foldl (fun c b => crc8Bits 8 (c.xor b.toNat)) 0)

/-- Static address of the target. -/
def Board.staticAddr (b : Board) : BitVec 7 := 0x4C + b.straps.zeroExtend 7

/-- Address that the target answers at. -/
def Board.ownAddr (b : Board) : BitVec 7 := b.busAddr.getD b.staticAddr

/-- What the target at a sends before its data in a read: the address and the request, then the address again. -/
def busHead (a : BitVec 7) (req : List Byte) : List Byte := BitVec.ofNat 8 (2 * a.toNat) :: req ++ [BitVec.ofNat 8 (2 * a.toNat + 1)]

/-- REGREAD at the target's own address: a block of 8 bytes, or a NACK; with PEC the request is checked, and the answer carries its
own. A request to another address has no answer here. Log entry 153, PRESUMED. -/
def execRegread (r : BusRead) (s : State) : Out1 :=
  let req := [0x10, 4] ++ leBytes 4 r.off
  if !s.mcOn || r.addr != s.board.ownAddr then .next s
  else if r.off % 8 != 0 || !(busAlways r.off || (s.board.mainPg && busMain r.off)) then .next (s.send .busNack)
  else
    let bs := s.readLine r.off
    match r.pec with
    | none => .next (s.send (.bus bs))
    | some p =>
      if p != pecOf (BitVec.ofNat 8 (2 * r.addr.toNat) :: req) then .next (s.send .busNack)
      else .next (s.send (.bus (bs ++ [pecOf (busHead r.addr req ++ [BitVec.ofNat 8 bs.length] ++ bs)])))

/-- The status byte. Log entry 153, PRESUMED: the PEC byte after it. -/
def execStatus (s : State) : Out1 :=
  let b := s.board
  if !b.aux then .next s
  else
    let v : Byte := BitVec.ofNat 8 (b2n b.mcRdy + 2 * b2n b.mainPg + 4 * b2n (!b.perst) + 8 * b2n b.memActive + 16 * b2n s.errlog.fatal)
    .next (s.send (.busPec [v] (pecOf (busHead b.ownAddr [0x11] ++ [v]))))

/-- SETDASA gives the target at a static address its dynamic address. -/
def execSetdasa (q : Dasa) (s : State) : Out1 :=
  if !s.board.aux || q.target != s.board.staticAddr || s.board.busAddr.isSome then .next s
  else .next (s.setBoard { s.board with busAddr := some q.addr })

/-- ENTDAA addresses targets that have no dynamic address. -/
def execEntdaa (addr : BitVec 7) (s : State) : Out1 :=
  if !s.board.aux || s.board.busAddr.isSome then .next s else .next (s.setBoard { s.board with busAddr := some addr })

/-! ### Test port (R348; log entry 13, PRESUMED) -/

/-- The test port of the chip has power. -/
def State.jtagOn (s : State) : Bool := s.board.aux && s.board.mainPg

/-- The bypass bit captures 0 and then holds TDI. -/
def State.jtagBypass (s : State) (tdi : Bool) : State :=
  (s.setBoard { s.board with jtag := .bypass }).send (.jtag [false, tdi])

def execBypass (tdi : Bool) (s : State) : Out1 := if !s.jtagOn then .next s else .next (s.jtagBypass tdi)

def idcodeWord : Nat := 1 + 2 * Config.jedecCode.toNat + 2 ^ 12 * 0xA196 + 2 ^ 28 * Config.stepping.toNat

def execIdcode (s : State) : Out1 :=
  if !s.jtagOn then .next s
  else .next ((s.setBoard { s.board with jtag := .idcode }).send (.jtag ((List.range 32).map (bitAt idcodeWord))))

/-- The pins are captured and shifted out while TDI is shifted in, which the update latches then hold. -/
def execSamplePreload (q : Scan) (s : State) : Out1 :=
  if !s.jtagOn then .next s
  else .next ((s.setBoard { s.board with jtag := .sample, boundary := q.tdi }).send (.jtag q.pins))

/-- EXTEST is accepted only while PERST# is asserted; else the instruction is BYPASS. The latches drive the pins, then the pins are
captured and shifted out while TDI is shifted in, and the pins follow the new latches. -/
def execExtest (q : Scan) (s : State) : Out1 :=
  if !s.jtagOn then .next s
  else if !s.board.perst then .next (s.jtagBypass (q.tdi.headD false))
  else
    let t := (s.send (.pins s.board.boundary)).send (.jtag q.pins)
    .next ((t.setBoard { t.board with jtag := .extest, boundary := q.tdi }).send (.pins q.tdi))

/-- The MC accepts a token signed for this device. -/
def execDebugUnlock (token : List Byte) (s : State) : Out1 :=
  if s.mcOn && Config.debugToken token then .next (s.setBoard { s.board with debug := true }) else .next s

end Sys2Proof.Machine
end

