-- ==== Sys2Proof/Machine/Registers.lean ====
section
/-!
DEFINITION. Host writes of registers (00 Table 0.3, R5 to R7, R358; 18 R353 to R355). A write that starts a command runs
that command's own row.
-/
namespace Sys2Proof.Machine

open Sys2Proof

/-- The state a row leaves. -/
def State.run (s : State) (f : State → Out1) : State := Out1.or (f s) s

/-- W1C: each 1 clears the bit. -/
def w1c {n : Nat} (c : BitVec n) (w : Nat) : BitVec n := c &&& ~~~(BitVec.ofNat n w)

/-- A 64-bit register with one of its halves replaced (R353). -/
def withHalf (v : Word64) (o w : Nat) : Word64 := BitVec.ofNat 64 (setFld v.toNat (if o % 8 = 0 then 0 else 32) 32 w)

/-- GO of a command register. -/
def goBit (w : Nat) : Bool := bitAt w 31

/-! ### Chip blocks -/

/-- TJ_WARN and TJ_CRIT keep their limits (R314). -/
def thermLimOk (warn crit : Nat) : Bool := 60 ≤ warn && warn ≤ 105 && 100 ≤ crit && crit ≤ 115 && warn + 5 ≤ crit

/-- PWR_BIST_CMD: the fields, then with GO the test. A channel number that names no region starts nothing (log entry 42, DEDUCED). -/
def State.writeBist (s : State) (w : Nat) : State :=
  let k := fld w 0 2
  let tgt := fld w 2 8
  let ok := k = 1 ∨ k = 2
  let t := { s with power := { s.power with bistKind := if ok then BitVec.ofNat 2 k else s.power.bistKind,
                                            bistTarget := BitVec.ofNat 8 tgt } }
  if !goBit w || s.power.bistState = 1 then t
  else if k = 1 then (if tgt < 8 then t.run (execRegionBist (fin8 tgt)) else t)
  else if k = 2 then t.run (execMemoryBist ⟨tgt % 256, Nat.mod_lt _ (by decide)⟩)
  else t.bistStat 3 5

/-- Table 15.11. New limits act on the last sample at once (R314). Log entry 95, DEDUCED. -/
def State.writePwr (s : State) (o w : Nat) : State :=
  let p := s.power
  if o < 0x40 then (if o % 8 = 0 then s.writeCtl (fin8 (o / 8)) w else s)
  else if o = 0x80 then { s with power := { p with wakeArm := BitVec.ofNat 32 w } }
  else if o = 0x84 then { s with power := { p with wakePend := w1c p.wakePend w } }
  else if o = 0x90 then
    if thermLimOk (fld w 0 8) (fld w 8 8) then
      { s with power := { p with tjWarn := BitVec.ofNat 8 w, tjCrit := BitVec.ofNat 8 (w / 256) } }.thermal
    else s
  else if o = 0x94 then { s with power := { p with warnPend := p.warnPend && !bitAt w 8 } }
  else if o = 0xA0 then { s with power := { p with vector := BitVec.ofNat 11 w } }
  else if o = 0xC0 then s.writeBist w
  else s

/-- RAS status bits are cleared by writing 1; masks, severity and the poison enable are plain. Log entry 93, PRESUMED. -/
def ErrLog.writeRas (e : ErrLog) (o w : Nat) : ErrLog :=
  if o = 0 then { e with rasUe := w1c e.rasUe w }
  else if o = 4 then { e with rasUeMask := BitVec.ofNat 32 w }
  else if o = 8 then { e with rasUeSeverity := BitVec.ofNat 32 w }
  else if o = 0xC then { e with rasCe := w1c e.rasCe w }
  else if o = 0x10 then { e with rasCeMask := BitVec.ofNat 32 w }
  else if o = 0x14 then { e with rasControl := BitVec.ofNat 32 (setFld 0 13 1 (fld w 13 1)) }
  else e

/-- The control register: with COMMIT the fields are committed (R293), without it an unlocked decoder is uncommitted. -/
def State.writeHdmControl (s : State) (w : Nat) : State :=
  let d := s.host.hdm
  if bitAt w 9 then
    (if d.committed then s else s.run (execHdmDecoderCommit d.base d.size (fld w 4 4 + 1) (bitAt w 13) (bitAt w 8)))
  else if d.committed && d.lock then s
  else { s with host := { s.host with hdm := { d with
    committed := false, commit := false, errNotCommitted := false, ways := fld w 4 4 + 1, bi := bitAt w 13, lock := bitAt w 8 } } }

/-- The decoder's registers: base and size in units of 256 MiB, fixed while it is committed. Log entry 93, PRESUMED. -/
def State.writeHdm (s : State) (o w : Nat) : State :=
  let d := s.host.hdm
  let set (d : Hdm) : State := { s with host := { s.host with hdm := d } }
  let lo (v : Nat) : Nat := v / 2 ^ 32 * 2 ^ 32 + fld w 28 4 * 2 ^ 28
  let hi (v : Nat) : Nat := v % 2 ^ 32 + w % 2 ^ 32 * 2 ^ 32
  if o = 4 then set { d with global := BitVec.ofNat 2 w }
  else if o = 0x20 then s.writeHdmControl w
  else if d.committed then s
  else if o = 0x10 then set { d with base := lo d.base }
  else if o = 0x14 then set { d with base := hi d.base }
  else if o = 0x18 then set { d with size := lo d.size }
  else if o = 0x1C then set { d with size := hi d.size }
  else s

/-- The CXL component registers. -/
def State.writeComponent (s : State) (o w : Nat) : State :=
  if 0x1100 ≤ o ∧ o < 0x1158 then { s with errlog := s.errlog.writeRas (o - 0x1100) w }
  else if 0x1200 ≤ o ∧ o < 0x1230 then s.writeHdm (o - 0x1200) w
  else s

/-- Table 15.12. -/
def State.writeFunc (s : State) (o w : Nat) : State :=
  let f : Byte := BitVec.ofNat 8 w
  if o = 0 then s.run (execFuncReset f)
  else if o = 4 then s.run (execFuncDisable f)
  else if o = 8 then s.run (execFuncEnable f)
  else s

/-- Table 15.13. -/
def State.writeErr (s : State) (o w : Nat) : State :=
  let e := s.errlog
  if o = 0 then { s with errlog := { e with overflow := e.overflow && !bitAt w 2 } }
  else if o = 0xC then { s with errlog := { e with tail := BitVec.ofNat 10 w } }
  else if o = 0x10 then { s with errlog := { e with lost := w1c e.lost w } }
  else if o = 0x14 then { s with errlog := { e with ce := w1c e.ce w } }
  else if o = 0x18 then { s with errlog := { e with ue := w1c e.ue w } }
  else if o = 0x20 then { s with errlog := { e with vecCe := BitVec.ofNat 11 w, vecUe := BitVec.ofNat 11 (w / 2 ^ 16) } }
  else if o = 0x24 then { s with errlog := { e with ien := BitVec.ofNat 5 w } }
  else s

/-- Table 12.4; weights beyond the arbiter's requesters are not there. Log entry 96, DEDUCED. -/
def State.writeArb (s : State) (a : ArbId) (o w : Nat) : State :=
  let x := s.arb a.val
  if o < 0x80 then s.setArb a.val { x with shadow := x.shadow.set (o / 4) (w % 256) }
  else if o = 0x100 then (if bitAt w 0 then s.run (execArbCommit a) else s)
  else if o = 0x104 then
    if 12 ≤ w % 32 ∧ w % 32 ≤ 28 then s.setArb a.val { x with wdog := BitVec.ofNat 5 w } else s
  else if o = 0x10C then s.setArb a.val { x with bites := w1c x.bites w }
  else if o = 0x114 then if w % 16 < points a.val then s.setArb a.val { x with sel := BitVec.ofNat 4 w } else s
  else s

/-- Table 11.10, 4-byte accesses (R235). -/
def State.writeMbx (s : State) (o w : Nat) : State :=
  let m := s.mbx
  let v : Word64 := BitVec.ofNat 64 w
  if o < 0x100 then
    if o % 8 = 0 then s.run (execMailboxLatchWrite ⟨o / 8 % 33, Nat.mod_lt _ (by decide)⟩ (BitVec.ofNat 32 w))
    else s.run (execMbxH2sWrite (fin32 (o / 8)) .upper v)
  else if o = 0x200 then s.run (execMailboxLatchWrite 32 (BitVec.ofNat 32 w))
  else if o = 0x204 then s.run (execMbxH2mcWrite .upper v)
  else if o / 8 = 0x310 / 8 then
    let mask := if o % 8 = 0 then w % 2 ^ 32 else w % 2 ^ 32 * 2 ^ 32
    s.setMbx { m with pend := w1c m.pend mask }
  else if o = 0x318 then s.setMbx { m with mcpend := w1c m.mcpend w }
  else if o / 8 = 0x320 / 8 then s.setMbx { m with ien := withHalf m.ien o w }
  else if o = 0x328 then s.setMbx { m with mcien := BitVec.ofNat 2 w }
  else if o = 0x330 then s.setMbx { m with vector := BitVec.ofNat 11 w }
  else if o = 0x338 then s.setMbx { m with overrun := w1c m.overrun w }
  else s

def queueIdOf (v : Nat) : QueueId := ⟨v % 1048576, Nat.mod_lt _ (by decide)⟩
def sessionIdOf (v : Nat) : SessionId := ⟨v % 1048576, Nat.mod_lt _ (by decide)⟩

/-- QE_QCMD (R7, R358). -/
def State.writeQcmd (s : State) (w : Nat) : State :=
  let op := fld w 20 2
  let q := fld w 0 20
  let t := s.setQe { s.qe with qid := BitVec.ofNat 20 q, op := if op = 1 ∨ op = 2 then BitVec.ofNat 2 op else s.qe.op }
  if !goBit w || s.qe.state = 1 then t
  else if op = 1 then t.run (execQueueEnable (queueIdOf q))
  else if op = 2 then t.run (execQueueDisable (queueIdOf q))
  else t.qeStat 3 5

/-- Table 11.8; a 4-byte write of a doorbell is counted (R218). -/
def State.writeQe (s : State) (o w : Nat) : State :=
  let e := s.qe
  if o < 0x200 then s.run (execDoorbell (fin64 (o / 8)) 4 (BitVec.ofNat 64 w))
  else if o / 8 = 0x400 / 8 then s.run (execQtbaseWrite (withHalf e.qtbase o w))
  else if o = 0x410 then s.writeQcmd w
  else if o = 0x420 then s.setQe { e with dbErr := w1c e.dbErr w }
  else s

/-- SE_CMD (R7, R358). -/
def State.writeSeCmd (s : State) (w : Nat) : State :=
  let op := fld w 20 4
  let i := fld w 0 20
  let ok := 1 ≤ op ∧ op ≤ 4
  let t := s.setSe { s.se with session := BitVec.ofNat 20 i, op := if ok then BitVec.ofNat 4 op else s.se.op }
  if !goBit w || s.se.state = 1 then t
  else if op = 1 then t.run execInitpool
  else if op = 2 then t.run (execOpenS (sessionIdOf i))
  else if op = 3 then t.run (execCloseS (sessionIdOf i))
  else if op = 4 then t.run (execSpill (sessionIdOf i))
  else t.seRefuse 1

/-- Table 11.9. -/
def State.writeSe (s : State) (o w : Nat) : State :=
  let e := s.se
  let v : Word64 := BitVec.ofNat 64 w
  if o < 8 then s.run (execSeBaseWrite .stbase (withHalf e.stbase o w))
  else if o < 0x10 then s.run (execSeBaseWrite .poolbase (withHalf e.poolbase o w))
  else if o = 0x10 then s.run (execSeBaseWrite .poolpages v)
  else if o / 8 = 0x18 / 8 then s.run (execSeBaseWrite .sumbase (withHalf e.sumbase o w))
  else if o / 8 = 0x20 / 8 then s.run (execSeBaseWrite .spillbase (withHalf e.spillbase o w))
  else if o = 0x28 then s.run (execSeBaseWrite .spillslots v)
  else if o = 0x30 then s.writeSeCmd w
  else if o = 0x3C then s.setSe { e with recallFail := w1c e.recallFail w }
  else if o / 8 = 0x40 / 8 then s.run (execSeBaseWrite .spillsumbase (withHalf e.spillsumbase o w))
  else s

/-- NVS_CMD (R7, R358). -/
def State.writeNvsCmd (s : State) (w : Nat) : State :=
  let n := s.nvm
  let op := fld w 0 4
  let ok := 1 ≤ op ∧ op ≤ 3
  let t := s.setNvm { n with op := if ok then BitVec.ofNat 4 op else n.op }
  if !goBit w || n.state = 1 then t
  else if op = 1 then t.run execStore
  else if op = 2 then t.run execUpdate
  else if op = 3 then t.run execCompact
  else t.nvsDone t.nvm 3 1

/-- MEM_SEGCMD; until Memory_Active a write with GO is ignored whole (R7, R351, R358). -/
def State.writeSegCmd (s : State) (w : Nat) : State :=
  let m := s.mgt
  let op := fld w 10 2
  let q : BitVec 10 := BitVec.ofNat 10 w
  let t := s.setMgt { m with segSel := q, segOp := if op = 1 ∨ op = 2 then BitVec.ofNat 2 op else m.segOp }
  if goBit w && !s.board.memActive then s
  else if !goBit w || m.segState = 1 then t
  else if op = 1 then t.run (execSegmentOnline q)
  else if op = 2 then t.run (execSegmentOffline q)
  else t.segStat 3 4 none

/-- Engine classes: a reserved class keeps its field (R7). -/
def engClasses (old new : Nat) : Nat :=
  ((List.range 32).map fun e => (if fld new (2 * e) 2 = 3 then fld old (2 * e) 2 else fld new (2 * e) 2) * 4 ^ e).foldl
    (· + ·) 0

/-- A route-table entry as a shadow holds it: a reserved DPORT keeps its field, bits above AMASK are zero (R6, R7). Log entry 97, DEDUCED. -/
def routeEntry (old new : Nat) : Nat :=
  let n := new % 2 ^ 18
  if 12 ≤ n % 16 ∧ n % 16 < 15 then setFld n 0 4 old else n

/-- A shadow table with one half of an entry replaced. -/
def routeWrite (t : List (Nat × Nat)) (i o w : Nat) : List (Nat × Nat) :=
  let old := assoc i 0 t
  let v := routeEntry old (withHalf (BitVec.ofNat 64 old) o w).toNat
  if v = 0 then t.filter fun p => p.1 != i else assocSet i v t

/-- MGT_WDT_CMD. -/
def State.writeWdt (s : State) (w : Nat) : State :=
  let all := bitAt w 12
  let t := { s with wdt := { s.wdt with index := BitVec.ofNat 12 w, all := all } }
  if !goBit w then t
  else if all then t.run execWdtInvalidateAll
  else t.run (execWdtInvalidateEntry ⟨w % 4096, Nat.mod_lt _ (by decide)⟩)

/-- The MGT and NVS block (Tables 10.12, 10.13, 10.15, 13.9, 16.4, 16.6). Log entry 106, DEDUCED. -/
def State.writeMgt (s : State) (o w : Nat) : State :=
  let c := s.col
  if o = 0 then s.writeNvsCmd w
  else if o / 8 = 1 then s.setNvm { s.nvm with updAddr := withHalf s.nvm.updAddr o w }
  else if o = 0x10 then s.setNvm { s.nvm with updLen := BitVec.ofNat 23 w }
  else if o / 8 = 0x100 / 8 then
    s.setMgt { s.mgt with profileShadow := withHalf s.mgt.profileShadow o w }
  else if o = 0x108 then (if bitAt w 0 then s.run execMgtProfileCommit else s)
  else if o = 0x3F00 then s.writeSegCmd w
  else if 0x4000 ≤ o ∧ o < 0x4F00 then
    let n := (o - 0x4000) / 4
    s.setSeg n { s.seg n with placeShadow := bitAt w 1, homeShadow := fld w 2 3 }
  else if o = 0x5000 then { s with col := { c with modidShadow := BitVec.ofNat 12 w } }
  else if o / 8 = 0x5008 / 8 then
    { s with col := { c with
        engShadow := BitVec.ofNat 64 (engClasses c.engShadow.toNat (withHalf c.engShadow o w).toNat) } }
  else if o = 0x5010 then { s with col := { c with e2e := BitVec.ofNat 24 w } }
  else if o = 0x5018 then { s with col := { c with injIndex := BitVec.ofNat 12 w } }
  else if o / 8 = 0x5020 / 8 then { s with col := { c with injShadow := routeWrite c.injShadow c.injIndex.toNat o w } }
  else if o = 0x5028 then (if bitAt w 0 then s.run execMgtColCommit else s)
  else if o = 0x5030 then { s with col := { c with injDrop := w1c c.injDrop w } }
  else if o = 0x6000 then s.writeWdt w
  else if o = 0x6008 then { s with wdt := { s.wdt with rdIndex := BitVec.ofNat 12 w } }
  else s

/-- Sends every pending message whose vector and function are not masked (R299). -/
def State.flushMsix (s : State) : State :=
  if !s.host.msixEnable || s.host.funcMask then s
  else
    let go := s.host.pba.filter fun v => !(s.msixEntry v).control.getLsbD 0
    let t := { s with host := { s.host with pba := s.host.pba.filter fun v => !go.contains v } }
    go.foldl (fun s v => s.send (.msix v)) t

/-- The MSI-X table (R299). -/
def State.writeMsix (s : State) (o w : Nat) : State :=
  if 0x8000 ≤ o then s
  else
    let i := o / 16
    let m := s.msixEntry i
    let m := if o % 16 < 8 then { m with addr := withHalf m.addr o w }
      else if o % 16 = 8 then { m with data := BitVec.ofNat 32 w }
      else { m with control := BitVec.ofNat 32 (w % 2) }
    let t := s.host.msix.filter fun p => p.1 != i
    { s with host := { s.host with msix := if m == ({} : MsixEntry) then t else assocSet i m t } }.flushMsix

/-- Table 14.6. -/
def State.writeCoh (s : State) (o w : Nat) : State :=
  let c := s.coh
  if o = 8 then { s with coh := { c with evict := w1c c.evict w } }
  else if o = 0xC then { s with coh := { c with bisnp := w1c c.bisnp w } }
  else if o = 0x14 then { s with coh := { c with conflict := w1c c.conflict w } }
  else if o = 0x18 then { s with coh := { c with decoderMiss := w1c c.decoderMiss w } }
  else s

/-- COL_CTL: enable or disable, the low-power request, then a retrain. -/
def State.writeColCtl (s : State) (p : PortId) (w : Nat) : State :=
  let s := s.run (if bitAt w 0 then execColPortEnable p else execColPortDisable p)
  let s := s.run (if bitAt w 1 then execLpiRequest p else execLpiRelease p)
  if bitAt w 2 then s.run (execRetrain p) else s

/-- Table 13.8. -/
def State.writePort (s : State) (p : PortId) (o w : Nat) : State :=
  let x := s.port p
  if o = 0 then s.writeColCtl p w
  else if o = 0x20 then s.setPort p { x with rtIndex := BitVec.ofNat 12 w }
  else if o / 8 = 5 then s.setPort p { x with rtShadow := routeWrite x.rtShadow x.rtIndex.toNat o w }
  else if o = 0x30 then (if bitAt w 0 then s.run (execColRtCommit p) else s)
  else if o = 0x40 then s.setPort p { x with crcErr := w1c x.crcErr w }
  else if o = 0x44 then s.setPort p { x with replay := w1c x.replay w }
  else if o = 0x48 then s.setPort p { x with fecCorr := w1c x.fecCorr w }
  else if o = 0x4C then s.setPort p { x with fecUncorr := w1c x.fecUncorr w }
  else if o = 0x50 then s.setPort p { x with drop := w1c x.drop w }
  else s

/-! ### Region blocks -/

/-- VSU_LIB_LOAD. -/
def State.writeLib (s : State) (r : RegionId) (w : Nat) : State :=
  let slot := fin32 (w % 32)
  let idx : Byte := BitVec.ofNat 8 (w / 256)
  let swap := bitAt w 30
  let t := s.modVsu r fun v => { v with libSlot := BitVec.ofNat 5 w, libIdx := idx, libSwap := swap }
  if !goBit w then t else t.libLoad r slot idx swap

/-- Tables 7.8 to 7.10. -/
def State.writeVsu (s : State) (r : RegionId) (o w : Nat) : State :=
  if o < 0x80 then s.modVsu r fun v => v.modSlot (o / 4) fun t => { t with clampShadow := bitAt w 0 }
  else if o = 0x80 then (if bitAt w 0 then s.run (execVsuCommit r) else s)
  else if o = 0x88 then s.writeLib r w
  else s

/-- Table 10.14. -/
def State.writeMc (s : State) (m : McId) (o w : Nat) : State :=
  let x := s.mc m
  if o = 0x10 then s.setMc m { x with ce := w1c x.ce w }
  else if o = 0x14 then s.setMc m { x with ue := w1c x.ue w }
  else s

/-- STG_VANISH_COUNT is the one writable register of an engine (Table 3.7). -/
def State.writeEngine (s : State) (e : EngineId) (o w : Nat) : State :=
  if o = 0x40 then s.modEngine e fun x => { x with vanish := BitVec.ofNat 32 w } else s

/-- Offsets of the RGN_, STR_, STG_ and VSU_ sub-blocks (Table 18.2). -/
def planeOffset (o : Nat) : Bool :=
  o < 0x10000 || (0x100000 ≤ o && o < 0x140000) || (0x200000 ≤ o && o < 0x240000) || (0x300000 ≤ o && o < 0x340000)

/-- A write in a region: while it sleeps, one to its compute plane is dropped and logged (R355). -/
def State.writeRegion (s : State) (r : RegionId) (o w : Nat) : State :=
  if planeOffset o && s.sleeping r.val then s.dropAsleep
  else if 0x200000 ≤ o ∧ o < 0x240000 then s.writeEngine (fin32 (4 * r.val + o / 0x10000 % 16)) (o % 0x10000) w
  else if 0x300000 ≤ o ∧ o < 0x340000 then s.writeVsu r (o - 0x300000) w
  else if 0x340000 ≤ o ∧ o < 0x360000 then s.writeMc (fin64 (8 * r.val + (o - 0x340000) / 0x4000)) (o % 0x4000) w
  else if 0x380000 ≤ o ∧ o < 0x381000 then s.writeArb ⟨(14 + r.val) % 22, Nat.mod_lt _ (by decide)⟩ (o - 0x380000) w
  else s

/-! ### The map (Table 18.1) -/

/-- Blocks that a device-fatal error leaves writable: functions, errors, NVS and MGT (R320; log entry 45, DEDUCED). -/
def fatalOpen (blk : Nat) : Bool := blk == 2 || blk == 3 || blk == 8

/-- A 4-byte write. -/
def State.writeWord (s : State) (off w : Nat) : State :=
  let o := off % 0x10000
  let blk := off / 0x10000
  if s.errlog.fatal && !fatalOpen blk then s
  else if blk = 1 then s.writePwr o w
  else if blk = 2 then s.writeFunc o w
  else if blk = 3 then s.writeErr o w
  else if blk = 4 then (if o < 0xE000 then s.writeArb ⟨o / 0x1000 % 22, Nat.mod_lt _ (by decide)⟩ (o % 0x1000) w else s)
  else if blk = 5 then s.writeMbx o w
  else if blk = 6 then s.writeQe o w
  else if blk = 7 then s.writeSe o w
  else if blk = 8 then s.writeMgt o w
  else if blk = 0xA then s.writeMsix o w
  else if blk = 0xC then s.writeComponent o w
  else if blk = 0xD then s.writeCoh o w
  else if 0x10 ≤ blk ∧ blk < 0x1C then s.writePort (fin12 (blk - 0x10)) o w
  else if 0x100 ≤ blk ∧ blk < 0x300 then
    s.writeRegion (fin8 ((off - 0x1000000) / 0x400000)) ((off - 0x1000000) % 0x400000) w
  else s

/-- An 8-byte write: whole where a rule gives one, else the lower word first (R353). -/
def State.writeWord64 (s : State) (off : Nat) (v : Word64) : State :=
  if s.errlog.fatal && !fatalOpen (off / 0x10000) then s
  else if 0x50000 ≤ off ∧ off < 0x50100 then s.run (execMbxH2sWrite (fin32 ((off - 0x50000) / 8)) .whole v)
  else if off = 0x50200 then s.run (execMbxH2mcWrite .whole v)
  else if 0x60000 ≤ off ∧ off < 0x60200 then s.run (execDoorbell (fin64 ((off - 0x60000) / 8)) 8 v)
  else if off = 0x60400 then s.run (execQtbaseWrite v)
  else (s.writeWord off (v.toNat % 2 ^ 32)).writeWord (off + 4) (v.toNat / 2 ^ 32)

/-- A read of BAR0: the mailboxes that a read empties have rows of their own (R235). -/
def State.readBar0 (s : State) (off bytes : Nat) : State :=
  let h : Half := if bytes = 8 then .whole else if off % 8 = 0 then .lower else .upper
  if 0x50100 ≤ off ∧ off < 0x50200 then s.run (execMbxS2hRead (fin32 ((off - 0x50100) / 8)) h)
  else if off / 8 = 0x50208 / 8 then s.run (execMbxMc2hRead h)
  else s.send (.hostData (if bytes = 8 then s.readLine off else leBytes 4 (s.readWord off)) false)

/-- BAR0 serves this access: 4 or 8 bytes, naturally aligned, within the BAR, in D0 (R286, R353). -/
def State.bar0Ok (s : State) (off bytes : Nat) : Bool :=
  !s.host.d3hot && (bytes == 4 || bytes == 8) && off % bytes == 0 && off + bytes ≤ 0x4000000

/-- A host access to BAR0, or a write of the MSI-X control word of configuration space: bit 15 enables, bit 14 masks. Log entry 99,
DESIGN CHOICE. -/
def execRegisterWrite (sp : RegSpace) (off bytes : Nat) (v : Word64) (s : State) : Out1 :=
  if !s.chipOn then .next s
  else
    match sp with
    | .msixControl =>
      .next { s with host := { s.host with msixEnable := v.getLsbD 15, funcMask := v.getLsbD 14 } }.flushMsix
    | .bar0 =>
      if !s.bar0Ok off bytes then .next s.refuse
      else if bytes = 8 then .next (s.writeWord64 off v)
      else .next (s.writeWord off (v.toNat % 2 ^ 32))
    | .bar0Read => if !s.bar0Ok off bytes then .next s.refuse else .next (s.readBar0 off bytes)

end Sys2Proof.Machine
end

