-- ==== Sys2Proof/Machine/Dispatch.lean ====
section
/-!
DEFINITION. One arm for each command of the table.
-/
namespace Sys2Proof.Machine

open Sys2Proof

def exec (i : Instr) (s : State) : Host.Outcome State Fault Refusal :=
  match i with
  | .nop n w => Sys2Proof.Machine.execNop n w s
  | .add n w => Sys2Proof.Machine.execAdd n w s
  | .sub n w => Sys2Proof.Machine.execSub n w s
  | .mul n w => Sys2Proof.Machine.execMul n w s
  | .and n w => Sys2Proof.Machine.execAnd n w s
  | .or n w => Sys2Proof.Machine.execOr n w s
  | .xor n w => Sys2Proof.Machine.execXor n w s
  | .shl n w => Sys2Proof.Machine.execShl n w s
  | .shr n w => Sys2Proof.Machine.execShr n w s
  | .sra n w => Sys2Proof.Machine.execSra n w s
  | .addi n w => Sys2Proof.Machine.execAddi n w s
  | .cmp n w => Sys2Proof.Machine.execCmp n w s
  | .plog n w => Sys2Proof.Machine.execPlog n w s
  | .fmov n w => Sys2Proof.Machine.execFmov n w s
  | .fop n w => Sys2Proof.Machine.execFop n w s
  | .spec n w => Sys2Proof.Machine.execSpec n w s
  | .clrc n w => Sys2Proof.Machine.execClrc n w s
  | .lds n w ecc => Sys2Proof.Machine.execLds n w ecc s
  | .sts n w => Sys2Proof.Machine.execSts n w s
  | .ldm n w => Sys2Proof.Machine.execLdm n w s
  | .ldmDataReturn n ecc => Sys2Proof.Machine.execLdmDataReturn n ecc s
  | .stm n w => Sys2Proof.Machine.execStm n w s
  | .br n w => Sys2Proof.Machine.execBr n w s
  | .rep n w => Sys2Proof.Machine.execRep n w s
  | .tdld n w => Sys2Proof.Machine.execTdld n w s
  | .tdst n w => Sys2Proof.Machine.execTdst n w s
  | .tdmov n w => Sys2Proof.Machine.execTdmov n w s
  | .tdset n w => Sys2Proof.Machine.execTdset n w s
  | .tdget n w => Sys2Proof.Machine.execTdget n w s
  | .tdadd n w => Sys2Proof.Machine.execTdadd n w s
  | .mma n w => Sys2Proof.Machine.execMma n w s
  | .stationaryRowLoad b p ecc => Sys2Proof.Machine.execStationaryRowLoad b p ecc s
  | .stationarySwap b p => Sys2Proof.Machine.execStationarySwap b p s
  | .passRowIssue b p badCells t4 => Sys2Proof.Machine.execPassRowIssue b p badCells t4 s
  | .promotion b p => Sys2Proof.Machine.execPromotion b p s
  | .accumulatorExchange b p ecc => Sys2Proof.Machine.execAccumulatorExchange b p ecc s
  | .accumulatorSwap b p => Sys2Proof.Machine.execAccumulatorSwap b p s
  | .epilogueRowWrite b p => Sys2Proof.Machine.execEpilogueRowWrite b p s
  | .vadd n w => Sys2Proof.Machine.execVadd n w s
  | .vmul n w => Sys2Proof.Machine.execVmul n w s
  | .vfma n w => Sys2Proof.Machine.execVfma n w s
  | .vmax n w => Sys2Proof.Machine.execVmax n w s
  | .vmin n w => Sys2Proof.Machine.execVmin n w s
  | .vcmp n w => Sys2Proof.Machine.execVcmp n w s
  | .vcvt n w => Sys2Proof.Machine.execVcvt n w s
  | .vfn n w badWords => Sys2Proof.Machine.execVfn n w badWords s
  | .vread n w => Sys2Proof.Machine.execVread n w s
  | .vsc n w => Sys2Proof.Machine.execVsc n w s
  | .vbi n w => Sys2Proof.Machine.execVbi n w s
  | .vds n w => Sys2Proof.Machine.execVds n w s
  | .vlc n w => Sys2Proof.Machine.execVlc n w s
  | .vrd n w => Sys2Proof.Machine.execVrd n w s
  | .tload n w => Sys2Proof.Machine.execTload n w s
  | .tloadComplete n => Sys2Proof.Machine.execTloadComplete n s
  | .tswap n w => Sys2Proof.Machine.execTswap n w s
  | .tswapTakesEffect n => Sys2Proof.Machine.execTswapTakesEffect n s
  | .stgrun n w => Sys2Proof.Machine.execStgrun n w s
  | .stagingProgramStart e n => Sys2Proof.Machine.execStagingProgramStart e n s
  | .stgwait n w => Sys2Proof.Machine.execStgwait n w s
  | .stgwaitProceed n => Sys2Proof.Machine.execStgwaitProceed n s
  | .launchif n w => Sys2Proof.Machine.execLaunchif n w s
  | .launchifSubmit n => Sys2Proof.Machine.execLaunchifSubmit n s
  | .start n w => Sys2Proof.Machine.execStart n w s
  | .endW n w => Sys2Proof.Machine.execEndW n w s
  | .endComplete n => Sys2Proof.Machine.execEndComplete n s
  | .arm n w => Sys2Proof.Machine.execArm n w s
  | .waita n w => Sys2Proof.Machine.execWaita n w s
  | .waitaProceed n => Sys2Proof.Machine.execWaitaProceed n s
  | .rel n w => Sys2Proof.Machine.execRel n w s
  | .relComplete n => Sys2Proof.Machine.execRelComplete n s
  | .acq n w => Sys2Proof.Machine.execAcq n w s
  | .bar n w => Sys2Proof.Machine.execBar n w s
  | .barComplete n => Sys2Proof.Machine.execBarComplete n s
  | .halt n w => Sys2Proof.Machine.execHalt n w s
  | .mbxw n w => Sys2Proof.Machine.execMbxw n w s
  | .mbxwProceed n => Sys2Proof.Machine.execMbxwProceed n s
  | .mbxr n w => Sys2Proof.Machine.execMbxr n w s
  | .mbxrProceed n => Sys2Proof.Machine.execMbxrProceed n s
  | .mbxt n w => Sys2Proof.Machine.execMbxt n w s
  | .chstep n w => Sys2Proof.Machine.execChstep n w s
  | .trstep n w => Sys2Proof.Machine.execTrstep n w s
  | .tkmerge n w => Sys2Proof.Machine.execTkmerge n w s
  | .smxc n w => Sys2Proof.Machine.execSmxc n w s
  | .smxd n w => Sys2Proof.Machine.execSmxd n w s
  | .prcomb n w => Sys2Proof.Machine.execPrcomb n w s
  | .salloc n w => Sys2Proof.Machine.execSalloc n w s
  | .slook n w => Sys2Proof.Machine.execSlook n w s
  | .sfree n w => Sys2Proof.Machine.execSfree n w s
  | .ssum n w => Sys2Proof.Machine.execSsum n w s
  | .recall n data poisoned => Sys2Proof.Machine.execRecall n data poisoned s
  | .dgadd n w => Sys2Proof.Machine.execDgadd n w s
  | .dgfin n w => Sys2Proof.Machine.execDgfin n w s
  | .copy e st => Sys2Proof.Machine.execCopy e st s
  | .burstWrite e => Sys2Proof.Machine.execBurstWrite e s
  | .arrival e => Sys2Proof.Machine.execArrival e s
  | .colsum e st => Sys2Proof.Machine.execColsum e st s
  | .bucket e st => Sys2Proof.Machine.execBucket e st s
  | .setx e st => Sys2Proof.Machine.execSetx e st s
  | .ldx e st => Sys2Proof.Machine.execLdx e st s
  | .stx e st => Sys2Proof.Machine.execStx e st s
  | .stgBr e st => Sys2Proof.Machine.execStgBr e st s
  | .loop e st => Sys2Proof.Machine.execLoop e st s
  | .cvuset e st => Sys2Proof.Machine.execCvuset e st s
  | .cvuout e st => Sys2Proof.Machine.execCvuout e st s
  | .shainit e st => Sys2Proof.Machine.execShainit e st s
  | .shafin e st => Sys2Proof.Machine.execShafin e st s
  | .arrive e st => Sys2Proof.Machine.execArrive e st s
  | .stgEnd e st => Sys2Proof.Machine.execStgEnd e st s
  | .doorbell j bytes v => Sys2Proof.Machine.execDoorbell j bytes v s
  | .dispatch => Sys2Proof.Machine.execDispatch s
  | .binaryLoad n => Sys2Proof.Machine.execBinaryLoad n s
  | .completionRecordWrite cq => Sys2Proof.Machine.execCompletionRecordWrite cq s
  | .queueEnable q => Sys2Proof.Machine.execQueueEnable q s
  | .queueDisable q => Sys2Proof.Machine.execQueueDisable q s
  | .qtbaseWrite v => Sys2Proof.Machine.execQtbaseWrite v s
  | .seBaseWrite r v => Sys2Proof.Machine.execSeBaseWrite r v s
  | .initpool => Sys2Proof.Machine.execInitpool s
  | .openS q => Sys2Proof.Machine.execOpenS q s
  | .closeS q => Sys2Proof.Machine.execCloseS q s
  | .spill q => Sys2Proof.Machine.execSpill q s
  | .mbxH2sWrite n h v => Sys2Proof.Machine.execMbxH2sWrite n h v s
  | .mbxS2hRead n h => Sys2Proof.Machine.execMbxS2hRead n h s
  | .mbxH2mcWrite h v => Sys2Proof.Machine.execMbxH2mcWrite h v s
  | .mbxMc2hRead h => Sys2Proof.Machine.execMbxMc2hRead h s
  | .mailboxLatchWrite j v => Sys2Proof.Machine.execMailboxLatchWrite j v s
  | .mcRegionMailboxWrite r v => Sys2Proof.Machine.execMcRegionMailboxWrite r v s
  | .setPs0 r => Sys2Proof.Machine.execSetPs0 r s
  | .setPs1 r => Sys2Proof.Machine.execSetPs1 r s
  | .setPs2 r => Sys2Proof.Machine.execSetPs2 r s
  | .setPs3 r => Sys2Proof.Machine.execSetPs3 r s
  | .setPs4 r => Sys2Proof.Machine.execSetPs4 r s
  | .selfRefreshEntry r => Sys2Proof.Machine.execSelfRefreshEntry r s
  | .selfRefreshExit r => Sys2Proof.Machine.execSelfRefreshExit r s
  | .powerTransitionComplete r => Sys2Proof.Machine.execPowerTransitionComplete r s
  | .regionBist r => Sys2Proof.Machine.execRegionBist r s
  | .memoryBist c => Sys2Proof.Machine.execMemoryBist c s
  | .bistComplete t pass => Sys2Proof.Machine.execBistComplete t pass s
  | .funcReset f => Sys2Proof.Machine.execFuncReset f s
  | .funcDisable f => Sys2Proof.Machine.execFuncDisable f s
  | .funcEnable f => Sys2Proof.Machine.execFuncEnable f s
  | .funcCommandComplete => Sys2Proof.Machine.execFuncCommandComplete s
  | .thermalSample tj => Sys2Proof.Machine.execThermalSample tj s
  | .vsuCommit r => Sys2Proof.Machine.execVsuCommit r s
  | .vsuLibLoad r slot idx => Sys2Proof.Machine.execVsuLibLoad r slot idx s
  | .vsuLibLoadSwap r slot idx => Sys2Proof.Machine.execVsuLibLoadSwap r slot idx s
  | .vsuLibLoadComplete r => Sys2Proof.Machine.execVsuLibLoadComplete r s
  | .arbCommit a => Sys2Proof.Machine.execArbCommit a s
  | .arbiterGrant a pt reqs => Sys2Proof.Machine.execArbiterGrant a pt reqs s
  | .creditPeriodEnd a pt => Sys2Proof.Machine.execCreditPeriodEnd a pt s
  | .watchdogBite a pt => Sys2Proof.Machine.execWatchdogBite a pt s
  | .wdtInvalidateEntry j => Sys2Proof.Machine.execWdtInvalidateEntry j s
  | .wdtInvalidateAll => Sys2Proof.Machine.execWdtInvalidateAll s
  | .mgtProfileCommit => Sys2Proof.Machine.execMgtProfileCommit s
  | .mgtColCommit => Sys2Proof.Machine.execMgtColCommit s
  | .colRtCommit p => Sys2Proof.Machine.execColRtCommit p s
  | .colPortEnable p => Sys2Proof.Machine.execColPortEnable p s
  | .colPortDisable p => Sys2Proof.Machine.execColPortDisable p s
  | .lpiRequest p => Sys2Proof.Machine.execLpiRequest p s
  | .lpiRelease p => Sys2Proof.Machine.execLpiRelease p s
  | .retrain p => Sys2Proof.Machine.execRetrain p s
  | .trainingAttempt p => Sys2Proof.Machine.execTrainingAttempt p s
  | .trainingComplete p modid port profile => Sys2Proof.Machine.execTrainingComplete p modid port profile s
  | .trainingTimeout p => Sys2Proof.Machine.execTrainingTimeout p s
  | .lossOfSignal p => Sys2Proof.Machine.execLossOfSignal p s
  | .flitReceive p bytes fec => Sys2Proof.Machine.execFlitReceive p bytes fec s
  | .nak p seq => Sys2Proof.Machine.execNak p seq s
  | .nakRepeat p => Sys2Proof.Machine.execNakRepeat p s
  | .nakLimitRetrain p => Sys2Proof.Machine.execNakLimitRetrain p s
  | .creditReturn p => Sys2Proof.Machine.execCreditReturn p s
  | .info p modid port profile => Sys2Proof.Machine.execInfo p modid port profile s
  | .credit p vc k => Sys2Proof.Machine.execCredit p vc k s
  | .lpiReq p => Sys2Proof.Machine.execLpiReq p s
  | .lpiAck p => Sys2Proof.Machine.execLpiAck p s
  | .write src m => Sys2Proof.Machine.execWrite src m s
  | .burstAssemblyTimeout src tag => Sys2Proof.Machine.execBurstAssemblyTimeout src tag s
  | .readreq src m => Sys2Proof.Machine.execReadreq src m s
  | .readrsp src m => Sys2Proof.Machine.execReadrsp src m s
  | .wrack src m => Sys2Proof.Machine.execWrack src m s
  | .colArrive src m => Sys2Proof.Machine.execColArrive src m s
  | .atomadd src m => Sys2Proof.Machine.execAtomadd src m s
  | .unreach src m => Sys2Proof.Machine.execUnreach src m s
  | .e2eTimeout e tag => Sys2Proof.Machine.execE2eTimeout e tag s
  | .memrd hpa mv ecc => Sys2Proof.Machine.execMemrd hpa mv ecc s
  | .memrddata hpa mv ecc => Sys2Proof.Machine.execMemrddata hpa mv ecc s
  | .memwr hpa mv enable data poisoned => Sys2Proof.Machine.execMemwr hpa mv enable data poisoned s
  | .meminv hpa => Sys2Proof.Machine.execMeminv hpa s
  | .birsp line => Sys2Proof.Machine.execBirsp line s
  | .biconflict line => Sys2Proof.Machine.execBiconflict line s
  | .bisnpTimeout line => Sys2Proof.Machine.execBisnpTimeout line s
  | .h2dSnoop hpa => Sys2Proof.Machine.execH2dSnoop hpa s
  | .d2hCompletion a isRead data poisoned => Sys2Proof.Machine.execD2hCompletion a isRead data poisoned s
  | .d2hTimeout a => Sys2Proof.Machine.execD2hTimeout a s
  | .bar2Read off len ecc => Sys2Proof.Machine.execBar2Read off len ecc s
  | .bar2Write off data poisoned => Sys2Proof.Machine.execBar2Write off data poisoned s
  | .hdmDecoderCommit base size ways bi lock => Sys2Proof.Machine.execHdmDecoderCommit base size ways bi lock s
  | .d3hotEntry => Sys2Proof.Machine.execD3hotEntry s
  | .perstAssert => Sys2Proof.Machine.execPerstAssert s
  | .perstRelease => Sys2Proof.Machine.execPerstRelease s
  | .lpddrTrainingComplete failed => Sys2Proof.Machine.execLpddrTrainingComplete failed s
  | .startupSegmentOnline => Sys2Proof.Machine.execStartupSegmentOnline s
  | .cxlReset memClr => Sys2Proof.Machine.execCxlReset memClr s
  | .flr => Sys2Proof.Machine.execFlr s
  | .doeDiscovery idx => Sys2Proof.Machine.execDoeDiscovery idx s
  | .spdmRequest req => Sys2Proof.Machine.execSpdmRequest req s
  | .cdatRead entry => Sys2Proof.Machine.execCdatRead entry s
  | .doeAbort => Sys2Proof.Machine.execDoeAbort s
  | .segmentOnline q => Sys2Proof.Machine.execSegmentOnline q s
  | .segmentOffline q => Sys2Proof.Machine.execSegmentOffline q s
  | .segmentCommandComplete => Sys2Proof.Machine.execSegmentCommandComplete s
  | .store => Sys2Proof.Machine.execStore s
  | .update => Sys2Proof.Machine.execUpdate s
  | .compact => Sys2Proof.Machine.execCompact s
  | .nvsCommandComplete => Sys2Proof.Machine.execNvsCommandComplete s
  | .auxPowerApplied => Sys2Proof.Machine.execAuxPowerApplied s
  | .trialBootTimeout => Sys2Proof.Machine.execTrialBootTimeout s
  | .mcReady => Sys2Proof.Machine.execMcReady s
  | .mainPowerOn => Sys2Proof.Machine.execMainPowerOn s
  | .mainPowerOff => Sys2Proof.Machine.execMainPowerOff s
  | .regread off => Sys2Proof.Machine.execRegread off s
  | .status => Sys2Proof.Machine.execStatus s
  | .setdasa addr => Sys2Proof.Machine.execSetdasa addr s
  | .entdaa addr => Sys2Proof.Machine.execEntdaa addr s
  | .bypass tdi => Sys2Proof.Machine.execBypass tdi s
  | .idcode => Sys2Proof.Machine.execIdcode s
  | .samplePreload pins => Sys2Proof.Machine.execSamplePreload pins s
  | .extest pins => Sys2Proof.Machine.execExtest pins s
  | .debugUnlock token => Sys2Proof.Machine.execDebugUnlock token s
  | .refresh c bank => Sys2Proof.Machine.execRefresh c bank s
  | .mr4Read c code => Sys2Proof.Machine.execMr4Read c code s
  | .zqCalibration c rank => Sys2Proof.Machine.execZqCalibration c rank s
  | .dqsOscillatorRead c rank drift => Sys2Proof.Machine.execDqsOscillatorRead c rank drift s
  | .patrolScrub c found written => Sys2Proof.Machine.execPatrolScrub c found written s
  | .scratchpadScrub r bank word ecc => Sys2Proof.Machine.execScratchpadScrub r bank word ecc s
  | .telemetryLatch t => Sys2Proof.Machine.execTelemetryLatch t s
  | .wearManagement => Sys2Proof.Machine.execWearManagement s
  | .registerWrite sp off bytes v => Sys2Proof.Machine.execRegisterWrite sp off bytes v s
  | .d3hotExit => Sys2Proof.Machine.execD3hotExit s
  | .auxPowerRemoved => Sys2Proof.Machine.execAuxPowerRemoved s
  | .mbxMc2hWrite v => Sys2Proof.Machine.execMbxMc2hWrite v s
  | .mbxH2mcRead => Sys2Proof.Machine.execMbxH2mcRead s
  | .partnerLpiExit p => Sys2Proof.Machine.execPartnerLpiExit p s
  | .cxlResetComplete => Sys2Proof.Machine.execCxlResetComplete s

end Sys2Proof.Machine
end

