-- ==== Sys2Proof/WellFormed.lean ====
section
/-!
DEFINITION. Which commands have the shape their rows give: a strand instruction carries a word of its own opcode (08 Table
8.7), a staging step its own opcode (10 Table 10.1), and a transaction the length that it has on its bus.
-/
namespace Sys2Proof

/-- Opcode of a strand instruction's row (08 Table 8.7); none for the other rows. -/
def Instr.opcode : Instr → Option Nat
  | .nop .. => some 0x00 | .add .. => some 0x01 | .sub .. => some 0x02 | .mul .. => some 0x03
  | .and .. => some 0x04 | .or .. => some 0x05 | .xor .. => some 0x06 | .shl .. => some 0x07
  | .shr .. => some 0x08 | .sra .. => some 0x09 | .addi .. => some 0x0A | .cmp .. => some 0x0B
  | .plog .. => some 0x0C | .fmov .. => some 0x0D | .fop .. => some 0x0E | .spec .. => some 0x0F
  | .clrc .. => some 0x10 | .lds .. => some 0x11 | .sts .. => some 0x12 | .ldm .. => some 0x13
  | .stm .. => some 0x14 | .br .. => some 0x18 | .rep .. => some 0x19
  | .tdld .. => some 0x20 | .tdst .. => some 0x21 | .tdmov .. => some 0x22 | .tdset .. => some 0x23
  | .tdget .. => some 0x24 | .tdadd .. => some 0x25 | .mma .. => some 0x30
  | .vadd .. => some 0x40 | .vmul .. => some 0x41 | .vfma .. => some 0x42 | .vmax .. => some 0x43
  | .vmin .. => some 0x44 | .vcmp .. => some 0x45 | .vcvt .. => some 0x46 | .vfn .. => some 0x47
  | .vread .. => some 0x48 | .vsc .. => some 0x49 | .vbi .. => some 0x4A | .vds .. => some 0x4B
  | .vlc .. => some 0x4C | .vrd .. => some 0x4D | .tload .. => some 0x4E | .tswap .. => some 0x4F
  | .stgrun .. => some 0x60 | .stgwait .. => some 0x61 | .launchif .. => some 0x62
  | .start .. => some 0x70 | .endW .. => some 0x71 | .arm .. => some 0x72 | .waita .. => some 0x73
  | .rel .. => some 0x74 | .acq .. => some 0x75 | .bar .. => some 0x76 | .halt .. => some 0x77
  | .mbxw .. => some 0x80 | .mbxr .. => some 0x81 | .mbxt .. => some 0x82
  | .chstep .. => some 0x90 | .trstep .. => some 0x91 | .tkmerge .. => some 0x92 | .smxc .. => some 0x93
  | .smxd .. => some 0x94 | .prcomb .. => some 0x95
  | .salloc .. => some 0xA0 | .slook .. => some 0xA1 | .sfree .. => some 0xA2 | .ssum .. => some 0xA3
  | .dgadd .. => some 0xB0 | .dgfin .. => some 0xB1
  | _ => none

/-- The word of a strand instruction. -/
def Instr.word : Instr → Option Word64
  | .nop _ f => some f.word | .add _ w => some w | .sub _ w => some w | .mul _ w => some w
  | .and _ w => some w | .or _ w => some w | .xor _ w => some w | .shl _ w => some w
  | .shr _ w => some w | .sra _ w => some w | .addi _ w => some w | .cmp _ w => some w
  | .plog _ w => some w | .fmov _ w => some w | .fop _ w => some w | .spec _ w => some w
  | .clrc _ w => some w | .lds _ w _ => some w | .sts _ w => some w | .ldm _ w => some w
  | .stm _ w => some w.word | .br _ w => some w | .rep _ w => some w
  | .tdld _ w => some w | .tdst _ w => some w | .tdmov _ w => some w | .tdset _ w => some w
  | .tdget _ w => some w | .tdadd _ w => some w | .mma _ w => some w
  | .vadd _ w => some w | .vmul _ w => some w | .vfma _ w => some w | .vmax _ w => some w
  | .vmin _ w => some w | .vcmp _ w => some w | .vcvt _ w => some w | .vfn _ w _ => some w
  | .vread _ w => some w | .vsc _ w => some w | .vbi _ w => some w | .vds _ w => some w
  | .vlc _ w => some w | .vrd _ w => some w | .tload _ w => some w | .tswap _ w => some w
  | .stgrun _ w => some w | .stgwait _ w => some w | .launchif _ w => some w
  | .start _ w => some w | .endW _ w => some w | .arm _ w => some w | .waita _ w => some w
  | .rel _ w => some w | .acq _ w => some w | .bar _ w => some w | .halt _ w => some w
  | .mbxw _ w => some w | .mbxr _ w => some w | .mbxt _ w => some w
  | .chstep _ w => some w | .trstep _ w => some w | .tkmerge _ w => some w | .smxc _ w => some w
  | .smxd _ w => some w | .prcomb _ w => some w
  | .salloc _ w => some w | .slook _ w => some w | .sfree _ w => some w | .ssum _ w => some w
  | .dgadd _ w => some w | .dgfin _ w => some w
  | _ => none

/-- The 64 bytes of a staging step with the opcode of its row (10 Table 10.1); none for the other rows. -/
def Instr.stagingStep : Instr → Option (BitVec 512 × Nat)
  | .copy _ r => some (r.step, 0x01) | .colsum _ r => some (r.step, 0x02) | .bucket _ r => some (r.step, 0x03)
  | .setx _ b => some (b, 0x10) | .ldx _ r => some (r.step, 0x11) | .stx _ r => some (r.step, 0x12)
  | .stgBr _ b => some (b, 0x13) | .loop _ b => some (b, 0x14) | .cvuset _ b => some (b, 0x20)
  | .cvuout _ r => some (r.step, 0x21) | .shainit _ b => some (b, 0x28) | .shafin _ b => some (b, 0x29)
  | .arrive _ b => some (b, 0x30) | .stgEnd _ b => some (b, 0x3F)
  | _ => none

/-- Opcode and word agree. -/
def Instr.opcodeOk (i : Instr) : Bool :=
  match i.opcode, i.word with
  | some k, some w => w.toNat / 2 ^ 56 == k
  | _, _ => true

/-- Opcode and step agree. -/
def Instr.stepOk (i : Instr) : Bool :=
  match i.stagingStep with
  | some (b, k) => b.toNat % 256 == k
  | none => true

/-- Operand lengths, and numbers that index no resource of this chip. -/
def Instr.shapeOk : Instr → Bool
  | .flitReceive _ bytes _ => bytes.length == 256
  | .memwr _ _ _ data _ => data.length == 64
  | .thermalSample tj => tj.length == 16
  | .arbiterGrant a pt _ => a.val ≥ 14 || pt.val == 0
  | .creditPeriodEnd a pt => a.val ≥ 14 || pt.val == 0
  | .watchdogBite a pt => a.val ≥ 14 || pt.val == 0
  | .telemetryLatch t => t.tj.length == 8
  | .bar2Read off len _ => 0 < len && off + len ≤ 0x20000000
  | .bar2Write off data _ => !data.isEmpty && off + data.length ≤ 0x20000000
  | .registerWrite _ _ bytes _ => bytes == 4 || bytes == 8
  | .regread r => r.off % 8 == 0 && r.off < 0x4000000
  | _ => true

/-- A well-formed command. -/
def Instr.wellFormed (i : Instr) : Bool := i.opcodeOk && i.stepOk && i.shapeOk

end Sys2Proof
end

