-- ==== Sys2Proof/Safety.lean ====
section
/-!
DEFINITION. The terms claims are stated in: safe runs, when a strand's word or an engine's step goes through, and the
invariants of the machine.
-/
namespace Sys2Proof.Machine

open Sys2Proof

/-- The step at s answers a next state. -/
def State.stepsOn (s : State) : Prop := ∃ t, step s = .next t

/-- No device-fatal error has occurred (15 R320). -/
def State.alive (s : State) : Prop := s.errlog.fatal = false

/-- k steps from s all answer next states. -/
def runsOn : Nat → State → Prop
  | 0, _ => True
  | k + 1, s => ∃ t, step s = .next t ∧ runsOn k t

/-! ### Strand instructions (08 R149, R150, R156, R166) -/

/-- Strand n issues word w of opcode op now, and its predicate holds. -/
def State.issues (s : State) (n : StrandId) (w : Word64) (op : Nat) : Bool :=
  s.mayIssue n w && opOf w == op && (s.strand n).predOn w

/-- As State.issues, with the predicate off. -/
def State.skips (s : State) (n : StrandId) (w : Word64) (op : Nat) : Bool :=
  s.mayIssue n w && opOf w == op && !(s.strand n).predOn w && !(s.strand n).inWindow

/-- The state an instruction acts on: it no longer waits, and in a window it is on the issue path. -/
def State.atIssue (s : State) (n : StrandId) (w : Word64) : State :=
  let x := { s.strand n with wait := .none }
  let t := s.setStrand n x
  if x.inWindow then t.setStrand n { x with path := x.pathOf w ++ x.path } else t

/-- What is left when its effect is t: in a window the issue path of an instruction that is held stays as it was. -/
def State.afterIssue (s : State) (n : StrandId) (t : State) : State :=
  let x := { s.strand n with wait := .none }
  if x.inWindow then t.modStrand n x.settlePath else t

/-- The state after word w has changed registers of strand n by f and gone on. -/
def State.ran (s : State) (n : StrandId) (w : Word64) (f : Strand → Strand) : State :=
  s.afterIssue n (((s.atIssue n w).modStrand n f).advance n)

/-- The state after word w has left the strand waiting. -/
def State.waits (s : State) (n : StrandId) (w : Word64) (k : Wait) : State :=
  s.afterIssue n ((s.atIssue n w).modStrand n fun x => { x with wait := k })

/-- The instruction at strand n's PC is not the last that it runs: going on stays inside the code (R156). -/
def State.staysIn (s : State) (n : StrandId) : Bool :=
  (nextPc ((s.strand n).pc + 8) (s.strand n).reps).1 != (s.strand n).codeSize

/-- The decode checks of a scalar instruction of opcode k (R150, Table 8.7). -/
def scalarDec (k : Nat) (w : Word64) : Bool :=
  if k = 0x0A then zeroI w
  else zeroS w &&
    (if k = 0x0B then (fmtS w).sub < 6
     else if k = 0x0C then (fmtS w).sub < 4
     else if k = 0x0F then (fmtS w).sub < 7 || (8 ≤ (fmtS w).sub && (fmtS w).sub < 16)
     else (fmtS w).sub == 0)

/-- The register files of a strand. -/
def Strand.files (x : Strand) : Vector Word 32 × Vector Word 16 × Vector Word128 64 × Vector Bool 8 × Vector Flag 64 :=
  (x.s, x.f, x.td, x.p, x.af)

/-- The state once a vector instruction has read its scale headers: what the error code finds there is met (10 R207). -/
def State.vecHead (s : State) (n : StrandId) (w : Word64) (u : TbUse) : State := s.meet ((s.strand n).vecHeaders w u)

/-- The state once it has read its operands too. -/
def State.vecMet (s : State) (n : StrandId) (w : Word64) (u : TbUse) (o : VecOps) : State := (s.vecHead n w u).meet o.reads

/-- The operands of a vector instruction when every check of 08 R161 and R162 passes and no access is held. -/
def State.vecPlan (s : State) (n : StrandId) (w : Word64) (c : Instr) (u : TbUse) (ok : State → VecOps → Bool)
    (writes : VecOps → List (Nat × Nat)) : Option VecOps :=
  let x := s.strand n
  if x.share = 0 || (s.preRead n c (x.vecHeaders w u)).isSome then none
  else
    let s := s.vecHead n w u
    match s.vecOps n w u with
    | none => none
    | some o =>
      if ok s o && o.inside n && winRanges x (regionOf n) (o.reads ++ writes o)
          && (writes o).all (fun p => p.2 == 0 || inRegion (regionOf n) p.1 p.2)
          && !s.hazard n (o.reads ++ writes o) && (s.gate c o.reads []).isNone then some o
      else none

/-- A collective step reaches its operands: RM is not reserved, and its scale headers may be read now. -/
def State.colReady (s : State) (n : StrandId) (w : Word64) (c : Instr) (ds : List Nat) : Bool :=
  rmOk w && (s.preRead n c ((s.strand n).colHeaders ds)).isNone

/-- The checks of a collective step on its ranges pass: in the region, none in flight, and inside the window's reach. -/
def collectiveOk (s : State) (n : StrandId) (reads writes sides : List (Nat × Nat)) : Bool :=
  winRanges (s.strand n) (regionOf n) (reads ++ writes ++ sides)
    && (reads ++ writes).all (fun p => p.2 == 0 || inRegion (regionOf n) p.1 p.2) && !s.hazard n (reads ++ writes)

/-! ### Steps of an engine (10 R189, R190) -/

/-- Engine e runs step st of opcode op now. -/
def State.stepsNow (s : State) (e : EngineId) (st : Step512) (op : Nat) : Bool := s.mayStep e st && stF st 0 1 == op

/-- An engine's own write of n bytes at a goes through now. -/
def State.engWrites (s : State) (e : EngineId) (c : Instr) (a n : Nat) : Bool :=
  let _ := e
  s.engReach a n && (s.gate c [] [(a, n)]).isNone

/-! ### Invariants -/

/-- s0 reads zero and p0 reads true in every strand (08 R147). -/
def State.hardwired (s : State) : Prop := ∀ n : StrandId, (s.strand n).reg 0 = 0 ∧ (s.strand n).pred 0 = true

/-- Commands through which the module leaves the device-fatal state: PERST#, and the loss or return of a supply. -/
def resets (c : Instr) : Bool :=
  match c with
  | .perstAssert => true
  | .mainPowerOff => true
  | .auxPowerRemoved => true
  | .auxPowerApplied => true
  | _ => false

end Sys2Proof.Machine
end

