-- ==== Sys2Proof/Certificates/Slice0/Obligations.lean ====
section
/-!
DEFINITION. The statements for the provers, family by family. Where a statement speaks of an instruction of a strand, s.issues says that the
strand issues that word now and s.ran is the state after an instruction that changes registers and goes on (Safety.lean).
-/
open Sys2Proof Sys2Proof.Machine

/-! ### Commands and the queue -/

/-- The command at the front of the queue runs on the state with the queue's rest, whatever the outcome. -/
def Obligations.StepRunsFront : Prop :=
  ∀ (c : Instr) (s : State), step { s with pending := c :: s.pending } = exec c s

/-- Every command completes: a well-formed one answers a next state, and a stop is always the fault illFormed of a
command whose operands have no such shape (Instr.shapeOk: the length of a transaction, the width of a register access,
the points of the chip arbiters, the range of BAR2, the offset of REGREAD). Nothing is refused. That a strand's or an
engine's command acts only where its store stands, and that a chip's step whose guard does not hold leaves the state
as it is, are the model's choices (log entries 1 and 3, DESIGN CHOICE). -/
def Obligations.EveryCommandCompletes : Prop :=
  ∀ (c : Instr) (s : State),
    (c.wellFormed = true → ∃ t, exec c s = .next t)
    ∧ (∀ f, exec c s = .fault f → f = .illFormed ∧ c.shapeOk = false)
    ∧ ∀ r, exec c s ≠ .refused r

/-! ### Strands (08) -/

/-- Table 8.7, R147, R153: what the scalar instructions on registers write. An instruction that runs goes on to the
next one (State.ran); register s0 takes no write (Strand.setReg), and results wrap at 32 bits. -/
def Obligations.ScalarResults : Prop :=
  ∀ (s : State) (n : StrandId) (w : Word64),
    let f := fmtS w
    let on (k : Nat) : Bool := s.issues n w k && decS0 w
    let alu (g : Word → Word → Word) : State := s.ran n w fun x => x.setReg f.d (g (x.reg f.a) (x.reg f.b))
    (∀ e, e ≠ .uncorrected → on 0x00 = true → exec (.nop n ⟨w, e⟩) s = .next (s.ran n w id))
    ∧ (on 0x01 = true → exec (.add n w) s = .next (alu fun a b => a + b))
    ∧ (on 0x02 = true → exec (.sub n w) s = .next (alu fun a b => a - b))
    ∧ (on 0x03 = true → exec (.mul n w) s = .next (alu fun a b => a * b))
    ∧ (on 0x04 = true → exec (.and n w) s = .next (alu fun a b => a &&& b))
    ∧ (on 0x05 = true → exec (.or n w) s = .next (alu fun a b => a ||| b))
    ∧ (on 0x06 = true → exec (.xor n w) s = .next (alu fun a b => a ^^^ b))
    ∧ (on 0x07 = true → exec (.shl n w) s = .next (alu fun a b => a <<< (b.toNat % 32)))
    ∧ (on 0x08 = true → exec (.shr n w) s = .next (alu fun a b => a >>> (b.toNat % 32)))
    ∧ (on 0x09 = true → exec (.sra n w) s = .next (alu fun a b => a.sshiftRight (b.toNat % 32)))
    ∧ ((s.issues n w 0x0A && zeroI w) = true →
        exec (.addi n w) s = .next (s.ran n w fun x =>
          x.setReg (fmtI w).d (x.reg (fmtI w).a + BitVec.ofNat 32 (fmtI w).imm)))
    ∧ (on 0x10 = true →
        exec (.clrc n w) s = .next (s.ran n w fun x => { x with cntInvalid := 0, cntOverflow := 0, cntUnderflow := 0 }))

/-- Table 8.7: CMP writes the condition that SUB names and PLOG the predicate logic; FMOV, FOP and SPEC by their
SUB. A FOP's result is rounded once from the exact value and its events are counted (02 R37, R43). -/
def Obligations.PredicateAndFloatResults : Prop :=
  ∀ (s : State) (n : StrandId) (w : Word64),
    let f := fmtS w
    ((s.issues n w 0x0B && zeroS w && f.sub < 6) = true →
      ∃ v : Word → Word → Bool,
        exec (.cmp n w) s = .next (s.ran n w fun x => x.setPred (f.d % 8) (v (x.reg f.a) (x.reg f.b)))
        ∧ ∀ a b, v a b = [a == b, a != b, a.slt b, a.ult b, !a.slt b, !a.ult b].getD f.sub false)
    ∧ ((s.issues n w 0x0C && zeroS w && f.sub < 4) = true →
      ∃ v : Bool → Bool → Bool,
        exec (.plog n w) s = .next (s.ran n w fun x => x.setPred (f.d % 8) (v (x.pred (f.a % 8)) (x.pred (f.b % 8))))
        ∧ ∀ a b, v a b = [a && b, a || b, a != b, !a].getD f.sub false)
    ∧ ((s.issues n w 0x0D && zeroS w && f.sub == 0 && f.d < 16) = true →
      exec (.fmov n w) s = .next (s.ran n w fun x => x.setFreg f.d (x.reg f.a)))
    ∧ ((s.issues n w 0x0D && zeroS w && f.sub == 1 && f.a < 16) = true →
      exec (.fmov n w) s = .next (s.ran n w fun x => x.setReg f.d (x.freg f.a)))
    ∧ ((s.issues n w 0x0E && zeroS w && fld f.sub 3 3 == 0 && f.sub % 8 < 5 && f.d < 16 && f.a < 16 && f.b < 16) = true →
      ∀ rm, rmOfCode (f.sub / 64) = some rm → exec (.fop n w) s = .next (s.ran n w (fopStrand w rm)))
    ∧ ((s.issues n w 0x0F && zeroS w && (f.sub < 7 || (8 ≤ f.sub && f.sub < 16))) = true →
      exec (.spec n w) s = .next (s.ran n w fun x => x.setReg f.d (specValue n x f.sub)))

/-- The frame of the instructions on registers: when the strand goes on inside its code, nothing outside it changes,
and in it only the destination, where it stands (pc, REP frames), its wait and the issue path of an open window. -/
def Obligations.ScalarFrame : Prop :=
  ∀ (s : State) (n : StrandId) (w : Word64),
    ∀ c ∈ [Instr.add n w, .sub n w, .mul n w, .and n w, .or n w, .xor n w, .shl n w, .shr n w, .sra n w, .addi n w,
           .spec n w, .cmp n w, .plog n w],
      ∀ k, c.opcode = some k → (s.issues n w k && scalarDec k w && s.staysIn n) = true →
        ∃ t, exec c s = .next t ∧ { t with strands := s.strands } = s
          ∧ (∀ m, m ≠ n → t.strand m = s.strand m)
          ∧ (let x := s.strand n
             { t.strand n with s := x.s, p := x.p, pc := x.pc, reps := x.reps, wait := x.wait, path := x.path } = x)
          ∧ (∀ i, i ≠ (fmtS w).d → (t.strand n).reg i = (s.strand n).reg i)
          ∧ (∀ i, i ≠ (fmtS w).d % 8 → (t.strand n).pred i = (s.strand n).pred i)
          ∧ (k = 0x0B ∨ k = 0x0C → (t.strand n).s = (s.strand n).s)
          ∧ (k ≠ 0x0B → k ≠ 0x0C → (t.strand n).p = (s.strand n).p)
          ∧ (t.strand n).pc = (nextPc ((s.strand n).pc + 8) (s.strand n).reps).1

/-- R147, Table 8.3: s0 reads 0 and takes no write, and p0 reads 1 and takes no write: an instruction that names one
as its destination completes and leaves every register as it was. -/
def Obligations.ZeroDestinations : Prop :=
  ∀ (s : State) (n : StrandId) (w : Word64), s.hardwired →
    (fmtS w).d = 0 → s.staysIn n = true →
      ∀ c ∈ [Instr.add n w, .sub n w, .mul n w, .and n w, .or n w, .xor n w, .shl n w, .shr n w, .sra n w, .addi n w,
             .spec n w, .cmp n w, .plog n w],
        ∀ k, c.opcode = some k → (s.issues n w k && scalarDec k w) = true →
          ∃ t, exec c s = .next t ∧ (t.strand n).s = (s.strand n).s ∧ (t.strand n).p = (s.strand n).p
            ∧ (t.strand n).reg 0 = 0 ∧ (t.strand n).pred 0 = true
            ∧ (t.strand n).pc = (nextPc ((s.strand n).pc + 8) (s.strand n).reps).1

/-- R150: an instruction whose predicate is false is checked and does nothing else; outside a window it only goes on.
R149, R174: an opcode that Table 8.7 does not list is a decode fault at the word's offset, and an uncorrectable word
of the instruction store a poison fault (Table 15.8): the strand stops with KIND 1 or 4; no register file and no byte
of memory changes. R14: a descriptor instruction with a reserved RM is a format fault. That NOP carries what the error
code finds in the word (log entry 104, DESIGN CHOICE), and that the reserved RM is seen before the window's own fault
(log entry 49, DEDUCED), are the model's choices. -/
def Obligations.ChecksWithoutEffect : Prop :=
  (∀ (s : State) (n : StrandId) (w : Word64),
      let t := (s.modStrand n fun x => { x with wait := .none }).advance n
      (∀ c ∈ [Instr.nop n ⟨w, .clean⟩, .add n w, .sub n w, .mul n w, .and n w, .or n w, .xor n w, .shl n w, .shr n w, .sra n w,
              .clrc n w, .ldm n w, .stm n ⟨w, .clean⟩], ∀ k, c.opcode = some k → (s.skips n w k && decS0 w) = true → exec c s = .next t)
      ∧ (∀ ecc, ∀ c ∈ [Instr.addi n w, .lds n w ecc, .sts n w], ∀ k, c.opcode = some k → (s.skips n w k && zeroI w) = true →
          exec c s = .next t)
      ∧ (∀ c ∈ [Instr.tdld n w, .tdst n w, .tdmov n w, .tdadd n w], ∀ k, c.opcode = some k →
          (s.skips n w k && zeroT w && (fmtT w).sub == 0) = true → exec c s = .next t)
      ∧ ((s.skips n w 0x18 && zeroB w) = true → exec (.br n w) s = .next t))
  ∧ (∀ (s : State) (n : StrandId) (w : Word64),
      ∀ e, s.mayIssue n w = true → (!knownOp (opOf w) || e == .uncorrected) = true →
        ∃ t, exec (.nop n ⟨w, e⟩) s = .next t ∧ (t.strand n).run = .faulted
          ∧ (t.strand n).faultKind = (if e = .uncorrected then 4 else 1)
          ∧ (t.strand n).faultPc = (s.strand n).pc ∧ t.mem = s.mem
          ∧ ∀ m, (t.strand m).files = (s.strand m).files)
  ∧ (∀ (s : State) (n : StrandId) (w : Word64),
      ∀ c ∈ [Instr.tdld n w, .tdst n w, .tdmov n w, .tdadd n w, .tdset n w, .tdget n w], ∀ k, c.opcode = some k →
        (s.issues n w k && zeroT w && (fmtT w).sub == 0 && (fmtT w).rm == 3) = true →
          ∃ t, exec c s = .next t ∧ (t.strand n).run = .faulted ∧ (t.strand n).faultKind = 2
            ∧ (t.strand n).faultPc = (s.strand n).pc ∧ t.mem = s.mem)

/-- R155: LDS reads four bytes of the region's scratchpad, lowest address first, into sD; STS writes them from sD.
The offset is sA + IMM, a multiple of 4 that lies inside the 48 MiB. R148, R155: LDM and STM act on the 42-bit
strand address sB[9:0] · 2^32 + sA. An LDM waits for its data, which LDM_DATA_RETURN writes to sD; an STM whose line
the host does not cache writes at once. What the error code finds on a word that is read is met first (R207); that an upset may
lie there before a read is the model's choice (log entry 112, DESIGN CHOICE). -/
def Obligations.LoadsAndStores : Prop :=
  (∀ (s : State) (n : StrandId) (w : Word64),
      let f := fmtI w
      let o := ((s.strand n).reg f.a + BitVec.ofNat 32 f.imm).toNat
      let a := scratchBase (regionOf n) + o
      (o % 4 == 0 && o + 4 ≤ scratchSize && zeroI w) = true →
        ((s.issues n w 0x11 && !s.hazard n [(a, 4)] && !(((s.atIssue n w).meet [(a, 4)]).read a 4).2) = true →
          exec (.lds n w .clean) s = .next (s.afterIssue n ((((s.atIssue n w).meet [(a, 4)]).modStrand n fun x =>
            x.setReg f.d (BitVec.ofNat 32 (leValue (memGetN s.mem a 4)))).advance n)))
        ∧ (s.issues n w 0x12 = true →
          exec (.sts n w) s = .next (s.afterIssue n
            (((s.atIssue n w).write a (leBytes 4 ((s.strand n).reg f.d).toNat) false).advance n))))
  ∧ (∀ (s : State) (n : StrandId) (w : Word64),
      let f := fmtS w
      let x := s.strand n
      let a := (x.reg f.b).toNat % 1024 * 2 ^ 32 + (x.reg f.a).toNat
      ((a % 4 == 0 && inOneRange a 4 && decS0 w && !x.inWindow) = true →
        ((s.issues n w 0x13 && !s.hazard n [(a, 4)] && (s.gate (.ldm n w) [(a, 4)] []).isNone) = true →
          exec (.ldm n w) s = .next (s.waits n w (.ldm (fin32 f.d) a)))
        ∧ (∀ ecc, (s.issues n w 0x14 && (s.gate (.stm n ⟨w, ecc⟩) [] [(a, 4)]).isNone && !s.asleepAt a) = true →
          exec (.stm n ⟨w, ecc⟩) s = .next ((((s.atIssue n w).strike [(a, ecc)]).write a
            (leBytes 4 (x.reg f.d).toNat) false).advance n)))
      ∧ ∀ (d : Fin 32) (b : Nat),
          (x.wait == .ldm d b && s.unitsOn && x.run == .running && s.awake (regionOf n) && !s.asleepAt b
            && (s.gate (.ldmDataReturn n .clean) [(b, 4)] []).isNone && !((s.meet [(b, 4)]).read b 4).2) = true →
            exec (.ldmDataReturn n .clean) s = .next (((s.meet [(b, 4)]).modStrand n fun x =>
              { x with wait := .none }.setReg d.val (BitVec.ofNat 32 (leValue (memGetN s.mem b 4)))).advance n))

/-- Whatever a store's outcome (done, held for the host, or a fault), no byte outside the ones it stores to changes,
and no register file of any strand. The address is the one that the instruction computes from its operands. No load,
branch, REP or descriptor instruction that stores nothing changes a byte of memory, whatever its outcome, nor a
register file of another strand. -/
def Obligations.StrandMemoryFrames : Prop :=
  (∀ (s : State) (n : StrandId) (w : Word64), Memory.wf s.mem = true →
      let x := s.strand n
      (∀ t, exec (.sts n w) s = .next t →
        (∀ b, (∀ a, scratchAddr n (x.reg (fmtI w).a + BitVec.ofNat 32 (fmtI w).imm).toNat 4 = some a → b < a ∨ a + 4 ≤ b) →
          memGet t.mem b = memGet s.mem b)
        ∧ ∀ m, (t.strand m).files = (s.strand m).files)
      ∧ (∀ ecc t, exec (.stm n ⟨w, ecc⟩) s = .next t →
        (∀ b, (∀ a, longAddr x w = some a → b < a ∨ a + 4 ≤ b) → memGet t.mem b = memGet s.mem b)
        ∧ ∀ m, (t.strand m).files = (s.strand m).files)
      ∧ (∀ t, exec (.tdst n w) s = .next t →
        (∀ b, (∀ a, scratchAddr n (x.reg (fmtT w).rt).toNat 16 = some a → b < a ∨ a + 16 ≤ b) →
          memGet t.mem b = memGet s.mem b)
        ∧ ∀ m, (t.strand m).files = (s.strand m).files))
  ∧ (∀ (s : State) (n : StrandId) (w : Word64) (ecc : Ecc),
      ∀ c ∈ [Instr.lds n w ecc, .ldm n w, .ldmDataReturn n ecc, .br n w, .rep n w, .tdld n w, .tdmov n w, .tdset n w,
             .tdget n w, .tdadd n w, .fmov n w, .fop n w, .clrc n w, .nop n ⟨w, ecc⟩],
        ∀ t, exec c s = .next t → t.mem = s.mem ∧ ∀ m, m ≠ n → (t.strand m).files = (s.strand m).files)

/-- R156: a taken BR goes to PC + 8 · OFF inside the code; REP sets up CNT + 1 runs of the OFF instructions that
follow. Table 8.7 and R155, R156: the descriptor instructions. In a window a change of FMT, SPARSE, ROWS or COLS is no
completion (R166), so the statement asks for an equal shape there. R14: RM and the format of a descriptor that is read
are not reserved. REP's bodies may nest as R156 counts four levels; that a body which ends inside an enclosing one
runs is the model's reading against the letter of its last sentence (log entry 21, DEDUCED). -/
def Obligations.BranchesAndDescriptors : Prop :=
  (∀ (s : State) (n : StrandId) (w : Word64),
      let x := s.strand n
      let t : Int := x.pc + 8 * (fmtB w).off
      ((s.issues n w 0x18 && zeroB w && !x.inWindow && decide (0 ≤ t ∧ t < 8 * x.code.length)) = true →
        exec (.br n w) s = .next ((s.atIssue n w).goto n t.toNat))
      ∧ ((s.issues n w 0x19 && repDec x w && repOk x (x.pc + 8 + 8 * (fmtB w).off.toNat)) = true →
        exec (.rep n w) s = .next (s.afterIssue n ((s.atIssue n w).modStrand n fun x =>
          { x with pc := x.pc + 8,
                   reps := ⟨x.pc + 8, x.pc + 8 + 8 * (fmtB w).off.toNat, (fmtB w).cnt⟩ :: x.reps }))))
  ∧ (∀ (s : State) (n : StrandId) (w : Word64),
      let f := fmtT w
      let x := s.strand n
      let a := scratchBase (regionOf n) + (x.reg f.rt).toNat
      let fits (v : Nat) : Bool := !x.inWindow || tdShape v == tdShape (x.tdw f.td)
      let wr (v : Nat) : State := s.ran n w fun x => x.setTd f.td v
      ((zeroT w && rmOk w) = true →
        ((s.issues n w 0x20 && f.sub == 0 && (x.reg f.rt).toNat + 16 ≤ scratchSize && !s.hazard n [(a, 16)]
            && !(((s.atIssue n w).meet [(a, 16)]).read a 16).2 && fits (leValue (memGetN s.mem a 16))) = true →
          exec (.tdld n w) s = .next (s.afterIssue n ((((s.atIssue n w).meet [(a, 16)]).modStrand n fun x =>
            x.setTd f.td (leValue (memGetN s.mem a 16))).advance n)))
        ∧ ((s.issues n w 0x21 && f.sub == 0 && x.tdOk f.ta && (x.reg f.rt).toNat + 16 ≤ scratchSize) = true →
          exec (.tdst n w) s = .next (s.afterIssue n
            (((s.atIssue n w).write a (leBytes 16 (x.tdw f.ta)) false).advance n)))
        ∧ ((s.issues n w 0x22 && f.sub == 0 && x.tdOk f.ta && fits (x.tdw f.ta)) = true → exec (.tdmov n w) s = .next (wr (x.tdw f.ta)))
        ∧ (∀ v, tdSetField f.sub (x.reg f.rt).toNat (x.reg f.ru).toNat (x.tdw f.td) = some v →
            (s.issues n w 0x23 && f.sub < 7 && (f.sub == 1 || x.tdOk f.td) && fits v) = true → exec (.tdset n w) s = .next (wr v))
        ∧ ((s.issues n w 0x24 && 1 ≤ f.sub && f.sub < 7 && x.tdOk f.ta) = true →
          exec (.tdget n w) s = .next (s.ran n w fun x => x.setReg f.rt (BitVec.ofNat 32 (tdGetField f.sub (x.tdw f.ta)))))
        ∧ ((s.issues n w 0x24 && f.sub == 0 && x.tdOk f.ta) = true →
          exec (.tdget n w) s = .next (s.ran n w fun x => (x.setReg f.rt (BitVec.ofNat 32 (fld (x.tdw f.ta) 0 32))).setReg f.ru
            (BitVec.ofNat 32 (fld (x.tdw f.ta) 32 10))))
        ∧ ((s.issues n w 0x25 && f.sub == 0 && x.tdOk f.td) = true →
          exec (.tdadd n w) s = .next (s.ran n w fun x => x.setTd f.td (setFld (x.tdw f.td) 0 42
            (wrap 42 (tdAddr (x.tdw f.td) + sext 32 (x.reg f.rt).toNat)))))))

/-! ### The matrix array (04, 05, 06) -/

/-- R158 to R160: an MMA whose operands pass its checks is queued on the parts of its part set as a job, and the
strand goes on; u is the state that the instruction acts on, once it has read its headers. R71, R72, R78: a row load adds one row to the set being
loaded, and a swap makes a whole shadow set the live one. R70, R80: a pass row streams its tokens through the live
set; the next row follows, and after the last one the part takes another set. -/
def Obligations.MatrixPasses : Prop :=
  (∀ (s : State) (n : StrandId) (w : Word64) (j : Job),
      let v := s.atIssue n w
      let u := v.meet (v.mmaHeaders n w).flatten
      let x := u.strand n
      let reads := j.operands ++ j.inputs
      let resid := match j.crec with
        | some c => (match c.residual with | some t => t.written j.cplx | none => [])
        | none => []
      let areas := match x.launch with | some l => [sectArea n l.sect false, sectArea n l.sect true] | none => []
      u.mmaJob n w = some j → v.preReads n (.mma n w) (v.mmaHeaders n w) = none →
      (s.issues n w 0x30 && zeroM w && winRanges x (regionOf n) (reads ++ j.outRanges) && j.overlapOk areas
          && !u.accHazard j && !u.hazard n (reads ++ resid) && (u.gate (.mma n w) (reads ++ j.chainReads) []).isNone) = true →
        exec (.mma n w) s = .next (s.afterIssue n ((u.enqueue j).dropDone.advance n)))
  ∧ (∀ (s : State) (b : BlockId) (p : PartNo) (n : StrandId), s.worker b p = some n →
      (∀ (ecc : Ecc) (j : Job) (it : Item) (rows rows' : List (List Cell)) (direct : Bool) (u : State),
        s.loadTarget (s.part b p) = some (j, it, rows, direct) →
        s.gate (.stationaryRowLoad b p ecc) (j.statReads it rows.length) [] = none →
        (s.meet (j.statReads it rows.length)).loadRow b p n j it rows ecc = .ok (u, rows') →
          ∃ t, exec (.stationaryRowLoad b p ecc) s = .next t ∧ rows'.length = rows.length + 1
            ∧ (if direct then (t.part b p).live else (t.part b p).shadow) = { rows := rows', fresh := true, item := some it, bad := (!rows.isEmpty
                && (if direct then (u.part b p).live else (u.part b p).shadow).bad) || ecc == .uncorrected })
      ∧ (∀ it, (s.part b p).live.item = none → (s.part b p).shadow.item = some it →
          it.rows ≤ (s.part b p).shadow.rows.length →
          ∃ t, exec (.stationarySwap b p) s = .next t
            ∧ (t.part b p).live = { (s.part b p).shadow with fresh := false }
            ∧ (t.part b p).shadow = {} ∧ (t.part b p).row = 0))
  ∧ (∀ (s : State) (b : BlockId) (p : PartNo) (n : StrandId) (it : Item) (j : Job),
      let x := s.part b p
      let rows := j.tileRows (j.outTile it.tile)
      let total := if j.paired then 2 * rows else j.passRows (j.outTile it.tile)
      s.worker b p = some n → x.live.item = some it → s.jobOf it.job = some j → it.rows ≤ x.live.rows.length →
      (∀ tok ∈ j.rowTokens x.row rows, (s.gatherRow j (j.rowBase it + tok)).1.isSome = true) →
      s.gate (.passRowIssue b p [] .clean) (s.passReads j it x.row) [] = none →
        ∃ t, exec (.passRowIssue b p [] .clean) s = .next t ∧ t.mem = s.mem
          ∧ (t.part b p).live.item = (if x.row + 1 = total then none else some it)
          ∧ (t.part b p).row = (if x.row + 1 = total then 0 else x.row + 1)
          ∧ ∃ new, (t.part b p).closed = x.closed ++ new ∧ ∀ c ∈ new, c.item = it)

/-- R93 to R97, R104: a promotion takes the oldest closed group of a part into the live accumulator tile, the quire
tile in the Basin or the promotion list; one of a quire tile that READ has still to convert waits for it (R113). R99,
R100, R113: the exchange loads the next tile into the Saddle set (zero under INIT), the swap makes it the live tile and
the old one the Saddle tile, to be drained; an epilogue writes one row of a finished tile after another. -/
def Obligations.PromotionsAndTiles : Prop :=
  (∀ (s : State) (b : BlockId) (p : PartNo) (n : StrandId) (c : Closed) (rest : List Closed) (j : Job) (ecc : Ecc),
      let x := s.part b p
      let y := s.promotionEcc b n j c ecc
      let popped := y.1.setPart b p { x with closed := rest }
      x.owner = some n → x.closed = c :: rest → s.jobOf c.item.job = some j →
      (s.unitsOn && s.awake (blockRegion b)) = true →
        (j.acm = .basin → (c.final && j.chain != 0 && (s.strand n).run == .running) = false →
          s.quireUnread j.strand c.item.acc j.size = false →
          exec (.promotion b ⟨p, ecc⟩) s = .next (popped.promoteQuire j y.2).dropDone)
        ∧ (j.acm = .basin → s.quireUnread j.strand c.item.acc j.size = true → exec (.promotion b ⟨p, ecc⟩) s = .next s)
        ∧ (j.acm ≠ .basin → j.list = true → (s.strand n).run = .running →
          exec (.promotion b ⟨p, ecc⟩) s = .next (popped.promoteList j c).dropDone)
        ∧ (∀ t, j.acm ≠ .basin → j.list = false → x.acc = some t → s.sameTile t c.item = true →
          let v := y.1.setPart b p { x with closed := rest, acc := some (t.update j y.2) }
          exec (.promotion b ⟨p, ecc⟩) s
            = .next (if j.startsTile c.item.acc then v.markStarted j.id c.item.acc else v).dropDone)
        ∧ (∀ t, j.acm ≠ .basin → j.list = false → x.acc = some t → s.sameTile t c.item = false →
          exec (.promotion b ⟨p, ecc⟩) s = .next s))
  ∧ (∀ (s : State) (b : BlockId) (p : PartNo) (n : StrandId), s.worker b p = some n →
      let x := s.part b p
      (∀ it j, x.saddle = none → s.nextTile x = some it → s.jobOf it.job = some j →
          (!x.liveAt it.acc && !s.heldElsewhere n b p it.acc) = true →
        ∃ t tile, exec (.accumulatorExchange b p .clean) s = .next t ∧ (t.part b p).saddle = some tile
          ∧ tile.acc = it.acc ∧ (j.startsTile it.acc = true → tile.rows = List.replicate 64 (List.replicate j.width (0, 0))))
      ∧ (∀ it tile, s.liveBusy x = false → x.saddle = some tile → tile.drained = true → s.nextTile x = some it →
          s.sameTile tile it = true →
          ∃ t, exec (.accumulatorSwap b p) s = .next t ∧ (t.part b p).acc = some tile ∧ (t.part b p).saddle = x.acc)
      ∧ (∀ (e : Epi) (rest : List Epi) (j : Job) (c : ChainRec) (wrong : List Nat), x.epi = e :: rest → s.jobOf e.job = some j →
          j.crec = some c →
          let out := j.outPlane c e
          let ot := j.outTile e.tile
          let r := 64 * (ot % j.mt) + e.next
          let n0 := j.width * (ot / j.mt)
          let reads := j.rowReads c out (j.resPlane c e) r n0 (j.epiCols c ot)
          let quires := if j.acm = .basin then [(e.acc + e.next * j.width * (2 * j.quire), j.width * (2 * j.quire))] else []
          s.gate (.epilogueRowWrite b ⟨p, wrong⟩) reads (j.rowWrites c out r n0 (ot / j.mt)) = none →
          let u := (s.meet (reads ++ quires)).epilogueRow n j c e wrong
          exec (.epilogueRowWrite b ⟨p, wrong⟩) s = .next (u.setPart b p { u.part b p with
            epi := if e.next + 1 < j.tileRows ot then { e with next := e.next + 1 } :: rest else rest }).dropDone))

/-! ### Vector instructions (07, 08) -/

/-- R161, R43: the element-wise operations write, for every element, the exact operation of TA and TB (whole, one
row or one column) rounded once to TD's format, and count its events. -/
def Obligations.VectorElementwise : Prop :=
  ∀ (s : State) (n : StrandId) (w : Word64) (o : VecOps),
    let v := s.atIssue n w
    let f := fmtT w
    let done (u : State) (g : Nat → Nat → Src) : State := s.afterIssue n ((u.mapTile n o fun r c => (g r c, keepEvents)).advance n)
    let u := v.vecMet n w .tile o
    let y := v.vecMet n w .no o
    let z := u.meet o.td.ranges
    let two (f : Val → Val → Val) : State := done u fun r c => comb2 f (u.src o.ta r c) (u.srcB o r c)
    let plan (c : Instr) : Option VecOps :=
      v.vecPlan n w c .tile (fun _ o => dstOk false o.ta.fmt o.td.fmt && bFits o) tileWrites
    let on (k : Nat) : Bool := s.issues n w k && zeroT w && f.sub == 0
    (plan (.vadd n w) = some o → on 0x40 = true → exec (.vadd n w) s = .next (two Val.add))
    ∧ (plan (.vmul n w) = some o → on 0x41 = true → exec (.vmul n w) s = .next (two (vmulVal o)))
    ∧ (plan (.vmax n w) = some o → on 0x43 = true → exec (.vmax n w) s = .next (two Val.max))
    ∧ (plan (.vmin n w) = some o → on 0x44 = true → exec (.vmin n w) s = .next (two Val.min))
    ∧ (plan (.vfma n w) = some o → on 0x42 = true → exec (.vfma n w) s = .next (done z fun r c =>
        comb2 Val.add (comb2 Val.mul (z.src o.ta r c) (z.srcB o r c)) (z.src o.td r c)))
    ∧ (v.vecPlan n w (.vcmp n w) .tile (fun _ o => o.td.fmt == .int8 && bFits o) tileWrites = some o →
        (s.issues n w 0x45 && zeroT w && f.sub < 4) = true → exec (.vcmp n w) s = .next (done u fun r c =>
          ⟨if (vcmpCond f.sub (u.src o.ta r c).v (u.srcB o r c).v).getD false then Val.one else Val.zero, false,
            (u.src o.ta r c).bad || (u.srcB o r c).bad⟩))
    ∧ (v.vecPlan n w (.vcvt n w) .no (fun _ o => dstOk true o.ta.fmt o.td.fmt) tileWrites = some o →
        on 0x46 = true → exec (.vcvt n w) s = .next
          (if o.ta.fmt = .accp ∧ o.td.fmt = .accp ∧ o.ta.plain ∧ o.td.plain then s.afterIssue n ((y.copyPlanes o).advance n)
           else done y fun r c => y.src o.ta r c))
    ∧ (v.vecPlan n w (.vread n w) .no (fun _ o => dstOk false o.ta.fmt o.td.fmt && o.ta.fmt.roleAcc) tileWrites = some o →
        (s.issues n w 0x48 && zeroT w && f.sub < 2) = true →
          exec (.vread n w) s = .next (done y fun r c => y.readTile o (f.sub == 1) r c))

/-- R161: the operations that stand for single stages of a chain: VFN through a callable VSU slot, VSC by a scalar or
a vector, VBI by a column vector or a residual, VDS through an index list's scales, VLC and VRD. The model's readings:
VFN rounds to FP32 and then to TD's format (log entry 59, DEDUCED), the shapes of TB in VDS and of TD in VRD (log
entry 127, DEDUCED), and which words of an image an element reads (log entry 128, DEDUCED). -/
def Obligations.VectorStages : Prop :=
  ∀ (s : State) (n : StrandId) (w : Word64) (o : VecOps),
    let q := s.atIssue n w
    let f := fmtT w
    let done (u : State) (g : Nat → Nat → Src) : State := s.afterIssue n ((u.mapTile n o fun r c => (g r c, keepEvents)).advance n)
    let v := q.vsu (regionFin n)
    let u := q.vecMet n w .tile o
    let z := q.vecMet n w .no o
    (∀ bad, q.vecPlan n w (.vfn n w bad) .no
        (fun s o => dstOk false o.ta.fmt o.td.fmt && (s.vsu (regionFin n)).callable f.sub) tileWrites = some o →
      (s.issues n w 0x47 && zeroT w && f.sub < 32) = true →
        let xs := (List.range o.ta.rows).flatMap fun r => (List.range o.ta.cols).map fun c => rne32 (z.src o.ta r c).v
        exec (.vfn n w bad) s = .next (s.afterIssue n (((vsuEcc z n f.sub bad xs).mapTile n o fun r c =>
          let x := rne32 (z.src o.ta r c).v
          let y := v.eval f.sub o.rm (draw o.rm (vecKey o) r c) x
          (⟨fp32 y.y, (fp32 x).isNan, (z.src o.ta r c).bad || v.readsBad f.sub bad x⟩,
           fun st e => vfnEvents o.td.fmt (fp32 x) y (st.nanBlock o.td r c) e)).advance n)))
    ∧ (q.vecPlan n w (.vsc n w) (if f.sub = 1 then .no else .tile) (fun _ o => dstOk false o.ta.fmt o.td.fmt
          && (f.sub == 1 || (f.sub == 2 && rowVec o) || (f.sub == 3 && colVec o))) tileWrites = some o →
        (s.issues n w 0x49 && zeroT w && 1 ≤ f.sub && f.sub < 4) = true → 
          let y := if f.sub = 1 then z else u
          exec (.vsc n w) s = .next (done y fun r c =>
            comb2 (vmulVal o) (y.src o.ta r c)
              (if f.sub = 1 then ⟨fp32 ((q.strand n).freg f.f), (fp32 ((q.strand n).freg f.f)).isNan, false⟩
               else y.srcB o r c)))
    ∧ (q.vecPlan n w (.vbi n w) .tile (fun _ o => dstOk false o.ta.fmt o.td.fmt
          && ((f.sub == 1 && colVec o) || (f.sub == 2 && sameTb o))) tileWrites = some o →
        (s.issues n w 0x4A && zeroT w && 1 ≤ f.sub && f.sub < 3) = true →
          exec (.vbi n w) s = .next (done u fun r c => comb2 Val.add (u.src o.ta r c) (u.srcB o r c)))
    ∧ (q.vecPlan n w (.vds n w) (.entries f.sub) (fun _ o =>
          o.ta.fmt.isLong && dstOk false o.ta.fmt o.td.fmt || (o.ta.fmt.isL && o.td.fmt == o.ta.fmt)) tileWrites = some o →
        (s.issues n w 0x4B && zeroT w && f.sub < 2) = true →
          let u := q.vecMet n w (.entries f.sub) o
          (o.ta.fmt.isL = false → exec (.vds n w) s = .next (done u fun r c =>
            let d := u.entry32 (dsEntry o f.sub r c)
            comb2 Val.mul (u.src o.ta r c) ⟨d.1, d.1.isNan, d.2⟩))
          ∧ (o.ta.fmt.isL = true → exec (.vds n w) s = .next (s.afterIssue n ((u.storeCodes n o.td fun r c =>
            let e := dsEntry o f.sub r c
            let y := lOffset o.ta.fmt.bits (o.ta.code u.mem r c) (sext 32 (leValue (memGetN u.mem e 4)))
            (y.1, y.2, u.elemBad o.ta r c || (u.readHalf e 4).2)).advance n))))
    ∧ (q.vecPlan n w (.vlc n w) .tile (fun _ o => o.ta.fmt == .int32 && o.td.fmt == .l16 && rowVec o
          && (match o.tb with | some b => b.fmt == .int32 | none => false)) tileWrites = some o →
        (s.issues n w 0x4C && zeroT w && f.sub == 0) = true →
          ∃ g : Nat → Nat → Nat × Events × Bool,
            exec (.vlc n w) s = .next (s.afterIssue n ((u.storeCodes n o.td g).advance n))
            ∧ ∀ r c, let l := sext 32 (o.ta.code u.mem r c) - sext 32 ((o.tb.getD o.ta).code u.mem r 0)
                (l < -16383 → (g r c).1 = 0x4000 ∧ (g r c).2.1 = { un := 1 })
                ∧ (-16383 ≤ l → l ≤ 16383 → (g r c).1 = wrap 15 l ∧ (g r c).2.1 = {}))
    ∧ (let d := rdForm f.sub
       q.vecPlan n w (.vrd n w) .no (fun _ o => fld f.sub 5 2 != 3 && rdFmtOk d o.ta.fmt o.td.fmt)
          (fun o => [(o.td.addr, d.bytes * o.ta.rows * ceilDiv o.ta.cols d.width)]) = some o →
        (s.issues n w 0x4D && zeroT w && f.sub % 8 < 5 && f.sub < 128) = true →
          ∃ es : List (Nat × List Byte × Bool × Events),
            exec (.vrd n w) s = .next (s.afterIssue n
              (((es.foldl (fun s e => s.write e.1 e.2.1 e.2.2.1) z).count n
                (es.foldl (fun a e => a.add e.2.2.2) {})).advance n))
            ∧ es.length = ceilDiv o.ta.cols d.width * o.ta.rows
            ∧ ∀ t < ceilDiv o.ta.cols d.width, ∀ r < o.ta.rows,
                es[t * o.ta.rows + r]? = some (o.td.addr + d.bytes * (t * o.ta.rows + r), z.rdEntry o d r t))

/-- R133 to R135: TLOAD starts the load of an image into a listed slot's shadow bank, TLOAD_COMPLETE puts a valid
image there, and TSWAP exchanges the banks. What a slot cannot do at once it does in order: a TLOAD behind a load and
its swap waits for them, and a TSWAP behind a load takes effect at TSWAP_TAKES_EFFECT. The order of what waits at a
slot is the model's reading (log entry 109, DEDUCED), and so is the check of tdTA's other fields at TLOAD (log entry
26, DEDUCED). -/
def Obligations.FunctionLoading : Prop :=
  ∀ (s : State) (n : StrandId) (w : Word64),
    let u := s.atIssue n w
    let f := fmtT w
    let a := tdAddr ((u.strand n).tdw f.ta)
    let v := s.vsu (regionFin n)
    let slot := (u.vsu (regionFin n)).slot f.sub
    ((s.issues n w 0x4E && zeroT w && f.sub < 32 && (!(s.strand n).inWindow || inRegion (regionOf n) a 1)
        && u.lists n f.sub && a % 64 == 0 && inScratch (regionOf n) a 1 && rmOk w
        && (tileFields ((u.strand n).tdw f.ta)).any Tile.shapeOk
        && !u.hazard n [(a, 64)] && !u.hazard n [(a, u.imageLen a)]) = true →
      exec (.tload n w) s = .next (s.afterIssue n ((u.modSlot n f.sub fun t =>
        if t.load.isNone && t.waiting.isEmpty then { t with load := some ⟨n, a, (u.strand n).pc⟩ }
        else { t with waiting := t.waiting ++ [.load ⟨n, a, (u.strand n).pc⟩] }).advance n)))
    ∧ ((s.issues n w 0x4F && zeroT w && f.sub < 32 && u.lists n f.sub && rmOk w) = true →
      ((slot.load.isSome || !slot.waiting.isEmpty) = true →
        exec (.tswap n w) s = .next (s.afterIssue n ((u.modSlot n f.sub fun t =>
          { t with waiting := t.waiting ++ [.swap n (u.strand n).pc] }).advance n)))
      ∧ (slot.load = none → slot.waiting = [] → slot.shadow.isSome = true →
        exec (.tswap n w) s = .next (s.afterIssue n ((u.modSlot n f.sub fun t =>
          { t with live := t.shadow, shadow := t.live }).advance n))))
    ∧ (∀ i rest l, s.loadingSlots n = i :: rest → (v.slot i).load = some l → (s.unitsOn && s.awake (regionOf n)) = true →
        let len := imgLen (fieldLE (memGetN s.mem l.addr 8) 6 2)
        let img := memGetN s.mem l.addr len
        let u := s.meet [(l.addr, len)]
        (inScratch (regionOf n) l.addr len && !(u.read l.addr len).2 && (parseImg img).isSome) = true →
          exec (.tloadComplete n) s = .next (u.modSlot n i fun t => { t with load := none, shadow := some img }.goOn))
    ∧ (∀ i pc rest, s.dueSwap n = some (i, pc) → (v.slot i).waiting = .swap n pc :: rest →
        (s.unitsOn && s.awake (regionOf n)) = true → (v.slot i).shadow.isSome = true →
        exec (.tswapTakesEffect n) s = .next (s.modSlot n i fun t =>
          { t with live := t.shadow, shadow := t.live, waiting := t.waiting.tail }.goOn))

/-! ### Hand-offs, windows, fences and mailboxes (06, 08, 11) -/

/-- R163, R164: STGRUN, STGWAIT and LAUNCHIF leave the strand waiting; STGWAIT's predicate then says whether the
awaited program ended without a fault. A LAUNCHIF whose count is 0 sets p[PD] to 0 and goes on; any other count enters
argument word 0 of its record (Table 9.2). A poisoned record or count waits with its poison and faults nothing, and the
poison goes to the ring with it: the model's reading (log entry 25, DEDUCED). -/
def Obligations.HandOffs : Prop :=
  ∀ (s : State) (n : StrandId) (w : Word64),
    let f := fmtX w
    let x := s.strand n
    let off := (x.reg f.a).toNat
    let a := scratchBase (regionOf n) + off
    (x.inWindow = false →
      ((s.issues n w 0x60 && f.sub < 4 && off % 64 == 0 && off < scratchSize) = true →
        exec (.stgrun n w) s = .next (s.waits n w (.stgrun (fin4 f.sub) off (x.reg f.b))))
      ∧ ((s.issues n w 0x61 && f.sub < 4) = true → exec (.stgwait n w) s = .next (s.waits n w (.stgwait (fin4 f.sub) f.pd)))
      ∧ ((s.issues n w 0x62 && f.sub == 0 && off + 68 ≤ scratchSize && !s.hazard n [(a, 68)]) = true →
        let bs := memGetN s.mem a 68
        let u := (s.atIssue n w).meet [(a, 68)]
        (leValue (bs.drop 64) = 0 → exec (.launchif n w) s = .next (s.afterIssue n (u.proceed n fun x => x.setPred f.pd false)))
        ∧ (leValue (bs.drop 64) ≠ 0 →
          let k := (x.reg f.b).toNat % 2 ^ 20
          let rec_ := bs.take 0x20 ++ (bs.drop 64).take 4 ++ (bs.take 64).drop 0x24
          exec (.launchif n w) s = .next ((u.write (a + 0x20) ((bs.drop 64).take 4) (u.read (a + 64) 4).2).modStrand
            n fun x => { x with wait := .launchif k rec_ (u.read a 68).2 f.pd }))))
    ∧ (∀ (e : Fin 4) (pd : Nat), x.wait = .stgwait e pd → s.going n = true →
        (x.stg[e] = .ok → exec (.stgwaitProceed n) s = .next (s.proceed n fun x => x.setPred pd true))
        ∧ (x.stg[e] = .failed → exec (.stgwaitProceed n) s = .next (s.proceed n fun x => x.setPred pd false)))

/-- R165, R167: START opens a window once nothing of the strand is in flight, END closes it, and then the window's
length is recorded and the count of windows rises. R123, R165: ARM makes flags IDLE or CLOSED into ARMED; WAITA
waits for every flag to be SET and leaves them IDLE. R123, R124: an arrival sets an ARMED flag, is a sequence fault
on an IDLE or a SET one, and is dropped and counted on a CLOSED one or while the strand runs no launch. -/
def Obligations.WindowsAndArrivals : Prop :=
  (∀ (s : State) (n : StrandId) (w : Word64),
      let x := s.strand n
      ((s.issues n w 0x70 && (fmtX w).sub == 0 && !x.inWindow && s.settled n) = true →
        exec (.start n w) s = .next ((s.ran n w id).modStrand n Strand.openWindow))
      ∧ ((s.issues n w 0x71 && (fmtX w).sub == 0 && x.inWindow) = true →
        exec (.endW n w) s = .next (s.waits n w .endW))
      ∧ ((s.going n && x.wait == .endW && s.settled n) = true →
        exec (.endComplete n) s = .next (s.proceed n fun x =>
          { x with inWindow := false, broken := false, path := [],
                   windowCycles := if x.broken then x.windowCycles else Config.windowCycles x.path,
                   windowCount := satAdd x.windowCount 1 })))
  ∧ (∀ (s : State) (n : StrandId) (w : Word64),
      let f := fmtX w
      let x := s.strand n
      let fl := span f.f0 (f.nf + 1)
      ((s.issues n w 0x72 && f.sub == 0 && f.f0 + f.nf < 64 && fl.all fun i => x.flag i == .idle || x.flag i == .closed)
          = true →
        exec (.arm n w) s = .next (s.ran n w fun x => fl.foldl (fun x i => x.setFlag i .armed) x))
      ∧ ((s.issues n w 0x73 && f.sub == 0 && f.f0 + f.nf < 64 && !x.inWindow
            && fl.all fun i => x.flag i == .armed || x.flag i == .set) = true →
        exec (.waita n w) s = .next (s.waits n w (.waita f.f0 f.nf)))
      ∧ (∀ f0 nf, x.wait = .waita f0 nf → (s.going n && (span f0 (nf + 1)).all fun i => x.flag i == .set) = true →
          let t := s.proceed n fun x => (span f0 (nf + 1)).foldl (fun x i => x.setFlag i .idle) x
          exec (.waitaProceed n) s = .next (if (t.strand n).run == .running then t.modStrand n Strand.openWindow else t)))
  ∧ (∀ (s : State) (n : StrandId) (i : Nat), i < 64 → (s.region (regionOf n)).state ≠ 4 →
      let x := s.strand n
      let t := s.arrival n i
      (x.run = .running → x.flag i = .armed → (t.strand n).flag i = .set ∧ (t.strand n).run = .running)
      ∧ (x.run = .running → x.flag i = .idle ∨ x.flag i = .set → (t.strand n).run = .faulted ∧ (t.strand n).faultKind = 3)
      ∧ (x.run = .running → x.flag i = .closed →
          t = s.setStrand n ({ x with arriveDrop := satAdd x.arriveDrop 1 }.setFlag i .closed))
      ∧ (x.run = .idle → t = s.setStrand n { x with arriveDrop := satAdd x.arriveDrop 1 }))

/-- R169: REL waits until the strand's writes are visible, ACQ goes on, BAR waits until every strand of the launch
has issued it and then lets them all go on, and HALT ends the strand's part. -/
def Obligations.FencesAndHalt : Prop :=
  ∀ (s : State) (n : StrandId) (w : Word64),
    let f := fmtX w
    let x := s.strand n
    let u := s.atIssue n w
    (x.inWindow = false →
      ((s.issues n w 0x74 && f.sub < 3) = true → exec (.rel n w) s = .next (s.waits n w .rel))
      ∧ ((s.issues n w 0x75 && f.sub < 3) = true → exec (.acq n w) s = .next (s.ran n w id))
      ∧ (∀ l, x.launch = some l → (s.issues n w 0x76 && f.sub < 16) = true →
          exec (.bar n w) s = .next ((s.waits n w (.bar f.sub)).modLaunch l.id fun y =>
            { y with barriers := assocSet f.sub (setFld (assoc f.sub 0 y.barriers) n.val 1 1) y.barriers }))
      ∧ (∀ l, x.launch = some l → (s.issues n w 0x77 && f.sub == 0 && u.released n 2) = true →
          exec (.halt n w) s = .next (((((u.noteDigest n l.id).disown n).setStrand n (u.strand n).atHalt).endPart n l.id
            true).unblock n)))
    ∧ (∀ v, x.codeWord = some v → (s.going n && x.wait == .rel && s.released n (fmtX v).sub) = true →
        exec (.relComplete n) s = .next (s.proceed n id))
    ∧ (∀ (y : Launch) (k : Nat), s.barReady n = some (y, k) → s.unitsOn = true →
        exec (.barComplete n) s = .next ((maskList (lrMask y.lrec)).foldl
          (fun s i => if (s.strand (fin32 i)).wait == .bar k then s.proceed (fin32 i) id else s)
          (s.modLaunch y.id fun y => { y with barriers := assocSet k 0 y.barriers })))

/-- R170: MBXW stores sB:sA in the strand's empty mailbox or waits, MBXR takes the host's word into sA and sB or
waits, and MBXT reads a full flag. -/
def Obligations.StrandMailboxes : Prop :=
  ∀ (s : State) (n : StrandId) (w : Word64),
    let f := fmtX w
    let x := s.strand n
    let u := s.atIssue n w
    let v : Word64 := BitVec.ofNat 64 ((x.reg f.b).toNat * 2 ^ 32 + (x.reg f.a).toNat)
    let h := s.h2s n
    let take (a b : Nat) (x : Strand) : Strand :=
      (x.setReg a (BitVec.ofNat 32 h.word.toNat)).setReg b (BitVec.ofNat 32 (h.word.toNat / 2 ^ 32))
    (x.inWindow = false →
      ((s.issues n w 0x80 && f.sub == 0 && !(s.s2h n).full) = true →
        exec (.mbxw n w) s = .next ((u.mbxPut n v).advance n))
      ∧ ((s.issues n w 0x80 && f.sub == 0 && (s.s2h n).full) = true → exec (.mbxw n w) s = .next (s.waits n w (.mbxw v)))
      ∧ ((s.issues n w 0x81 && f.sub == 0 && h.full) = true →
        exec (.mbxr n w) s = .next ((u.mbxTake n).proceed n (take f.a f.b)))
      ∧ ((s.issues n w 0x81 && f.sub == 0 && !h.full) = true →
        exec (.mbxr n w) s = .next (s.waits n w (.mbxr (fin32 f.a) (fin32 f.b))))
      ∧ ((s.issues n w 0x82 && f.sub < 2) = true →
        exec (.mbxt n w) s = .next (s.ran n w fun x => x.setPred f.pd (if f.sub = 0 then h.full else (s.s2h n).full))))
    ∧ (∀ v, x.wait = .mbxw v → (s.going n && !(s.s2h n).full) = true →
        exec (.mbxwProceed n) s = .next ((s.mbxPut n v).proceed n id))
    ∧ (∀ a b : Fin 32, x.wait = .mbxr a b → (s.going n && h.full) = true →
        exec (.mbxrProceed n) s = .next ((s.mbxTake n).proceed n (take a.val b.val)))

/-- R234, R235: a host write of an empty mailbox stores the word and sets FULL (an 8-byte write whole, a 4-byte write
of the upper half with the latched lower half); a full one keeps its word and the overrun is counted. A host read
returns the word, and empties the mailbox unless it reads the lower half. R236, R237: the MC's side. Its write of a
region's empty mailbox stores the word and wakes a region in PS3 or PS4; a write of the empty MC-to-host mailbox and a
read of the full host-to-MC one set their pending bits. That the sequencer of an awake region reads its word at once,
and a sleeping one's when it wakes, is the model's choice (log entry 134, DESIGN CHOICE). -/
def Obligations.HostAndMcMailboxes : Prop :=
  (∀ (s : State) (n : StrandId) (v : Word64), s.fabricOn = true →
      let m := s.h2s n
      let r := s.s2h n
      let c := s.mbx.h2mc
      let d := s.mbx.mc2h
      let full (lo : Word) : Mbx := { word := pairWord (lowWord v) lo, full := true, latch := 0 }
      (m.full = false →
        exec (.mbxH2sWrite n .whole v) s = .next ((s.setH2s n { word := v, full := true, latch := 0 }).wakeIfAsleep (regionFin n))
        ∧ exec (.mbxH2sWrite n .upper v) s = .next ((s.setH2s n (full m.latch)).wakeIfAsleep (regionFin n)))
      ∧ (∀ h, h ≠ .lower → m.full = true →
          ∃ t, exec (.mbxH2sWrite n h v) s = .next t ∧ (t.h2s n).word = m.word ∧ (t.h2s n).full = true
            ∧ t.mbx.overrun = satAdd s.mbx.overrun 1)
      ∧ exec (.mbxH2sWrite n .lower v) s = .next (s.setH2s n { m with latch := lowWord v })
      ∧ (c.full = false →
          exec (.mbxH2mcWrite .whole v) s = .next (s.setMbx { s.mbx with h2mc := { word := v, full := true, latch := 0 } })
          ∧ exec (.mbxH2mcWrite .upper v) s = .next (s.setMbx { s.mbx with h2mc := full c.latch }))
      ∧ exec (.mbxH2mcWrite .lower v) s = .next (s.setMbx { s.mbx with h2mc := { c with latch := lowWord v } })
      ∧ (∀ i : Fin 33, ∀ x : Word, exec (.mailboxLatchWrite i x) s = .next
          (if i.val < 32 then s.setH2s (fin32 i.val) { s.h2s (fin32 i.val) with latch := x }
           else s.setMbx { s.mbx with h2mc := { c with latch := x } }))
      ∧ exec (.mbxS2hRead n .whole) s = .next ((s.send (.hostData (leBytes 8 r.word.toNat) false)).setS2h n { r with full := false })
      ∧ exec (.mbxS2hRead n .upper) s
          = .next ((s.send (.hostData (leBytes 4 (r.word.toNat / 2 ^ 32)) false)).setS2h n { r with full := false })
      ∧ exec (.mbxS2hRead n .lower) s = .next (s.send (.hostData (leBytes 4 r.word.toNat) false))
      ∧ exec (.mbxMc2hRead .whole) s = .next ((s.send (.hostData (leBytes 8 d.word.toNat) false)).setMbx
          { s.mbx with mc2h := { d with full := false } })
      ∧ exec (.mbxMc2hRead .upper) s = .next ((s.send (.hostData (leBytes 4 (d.word.toNat / 2 ^ 32)) false)).setMbx
          { s.mbx with mc2h := { d with full := false } })
      ∧ exec (.mbxMc2hRead .lower) s = .next (s.send (.hostData (leBytes 4 d.word.toNat) false)))
  ∧ (∀ (s : State) (v : Word64), (s.unitsOn && s.mcOn) = true →
      (∀ r : RegionId, s.mbx.region[r].full = false →
        exec (.mcRegionMailboxWrite r v) s = .next (((s.setMbx { s.mbx with
          region := s.mbx.region.set r { s.mbx.region[r] with word := v, full := true } }).wakeIfAsleep r).sequencerReads r))
      ∧ (s.mbx.mc2h.full = false → ∃ t, exec (.mbxMc2hWrite v) s = .next t
          ∧ t.mbx.mc2h = { s.mbx.mc2h with word := v, full := true } ∧ t.mbx.mcpend = s.mbx.mcpend ||| 2
          ∧ t.mbx.pend = s.mbx.pend)
      ∧ (s.mbx.h2mc.full = true → ∃ t, exec .mbxH2mcRead s = .next t
          ∧ t.mbx.h2mc = { s.mbx.h2mc with full := false } ∧ t.mbx.mcpend = s.mbx.mcpend ||| 1 ∧ t.mbx.pend = s.mbx.pend))

/-! ### Collectives, sessions and digests (05, 06, 08, 11) -/

/-- R104, R106: CHSTEP updates a tile by the planes of a promotion list in order, TRSTEP combines two tiles element
by element, in the arithmetic of the accumulator mode that SUB names. R103: TKMERGE writes, for every row, the best
k of both results under the order of R101. u is the state once the step has read its headers, v once it has read its
operands: what the error code finds on a word that is read is met first (R207). -/
def Obligations.ChainTreeAndTopk : Prop :=
  (∀ (s : State) (n : StrandId) (w : Word64) (d a : Tile),
      let f := fmtT w
      let q := s.atIssue n w
      let acm := acmOf f.sub
      let planes := ((q.strand n).reg f.rt).toNat
      let list := if acm = .basin then a.body else (a.addr, if planes = 0 then 0 else (planes - 1) * planeSize acm a + a.extent)
      let grid (v : State) (g : Nat → Nat → Nat × Nat × Bool) : State := s.afterIssue n ((v.putPairs d
        ((List.range d.rows).map fun r => (List.range d.cols).map fun c => g r c)).advance n)
      (let u := q.meet ((q.strand n).colHeaders [f.td, f.ta])
       let v := u.meet [d.body, list]
       u.colTile n f.td = some d → u.colTile n f.ta = some a →
        (s.issues n w 0x90 && zeroT w && f.sub < 4 && q.colReady n w (.chstep n w) [f.td, f.ta] && acmFmtOk acm d.fmt
            && sameShape d a && collectiveOk u n [d.body, list] [d.body] (d.sideRanges ++ a.sideRanges)) = true →
          exec (.chstep n w) s = .next (grid v fun r c =>
            ((chainElem s.mem acm s.chunkLen d a planes r c).1, (chainElem s.mem acm s.chunkLen d a planes r c).2,
             (v.read d.addr d.extent).2 || (lineHalves list.1 list.2).any v.poison.contains)))
      ∧ (∀ b,
          let u := q.meet ((q.strand n).colHeaders [f.td, f.ta, f.tb])
          let v := u.meet [a.body, b.body]
          u.colTile n f.td = some d → u.colTile n f.ta = some a → u.colTile n f.tb = some b →
            (s.issues n w 0x91 && zeroT w && f.sub < 4 && q.colReady n w (.trstep n w) [f.td, f.ta, f.tb]
              && acmFmtOk acm d.fmt && sameShape d a && sameShape d b
              && collectiveOk u n [a.body, b.body] [d.body] (d.sideRanges ++ a.sideRanges ++ b.sideRanges)) = true →
            exec (.trstep n w) s = .next (grid v fun r c =>
              ((treeElem s.mem acm a b r c).1, (treeElem s.mem acm a b r c).2, v.elemBad a r c || v.elemBad b r c))))
  ∧ (∀ (s : State) (n : StrandId) (w : Word64) (d a b : Tile),
      let f := fmtT w
      let q := s.atIssue n w
      let u := q.meet ((q.strand n).colHeaders [f.td, f.ta, f.tb])
      let k := 2 ^ f.sub
      let ok (t : Tile) : Bool := t.fmt.isLong && t.cols == k && 8 * k ≤ t.stride
      let rng (t : Tile) : Nat × Nat := (t.addr, (t.rows - 1) * t.stride + 8 * k)
      let v := u.meet [rng a, rng b]
      u.colTile n f.td = some d → u.colTile n f.ta = some a → u.colTile n f.tb = some b →
      (s.issues n w 0x92 && zeroT w && f.sub < 4 && q.colReady n w (.tkmerge n w) [f.td, f.ta, f.tb] && ok d && ok a && ok b
          && sameShape d a && sameShape d b
          && collectiveOk u n [rng a, rng b] [rng d] (d.sideRanges ++ a.sideRanges ++ b.sideRanges)) = true →
        exec (.tkmerge n w) s = .next (s.afterIssue n (((List.range d.rows).foldl (fun t r =>
          t.write (d.rowAddr r)
            (topkBytes k (sortBy (fun x y => decide (x.1 < y.1)) (topkRow s.mem a k r ++ topkRow s.mem b k r)))
            ((v.read (a.rowAddr r) (8 * k)).2 || (v.read (b.rowAddr r) (8 * k)).2)) v).advance n)))

/-- R121, R122: SMXC combines running maxima and sums over T tiles, SMXD takes the differences from a row's maximum,
and PRCOMB combines pairs in order, once what they read is met (R207). What each writes; the checks on shapes are those of log entry 26. -/
def Obligations.SoftmaxAndNorm : Prop :=
  ∀ (s : State) (n : StrandId) (w : Word64) (a : Tile),
    let f := fmtT w
    let q := s.atIssue n w
    let t := ((q.strand n).reg f.rt).toNat
    let y := q.meet ((q.strand n).colHeaders [f.td, f.ta, f.tb])
    let z := q.meet ((q.strand n).colHeaders [f.td, f.ta])
    (∀ o b, y.tdBase n f.td = some o → y.colTile n f.ta = some a → y.colTile n f.tb = some b →
      let rs := a.cols
      let out := (o, 12 * rs)
      let reads := [a.body, b.body] ++ (if f.sub = 1 then [out] else [])
      let u := y.meet reads
      (s.issues n w 0x93 && zeroT w && f.sub < 2 && q.colReady n w (.smxc n w) [f.td, f.ta, f.tb] && a.fmt == .int32 && b.fmt == .fp32 && a.rows == t && b.rows == t
          && b.cols == 2 * rs && a.sparse == 0 && b.sparse == 0
          && collectiveOk y n reads [out] (a.sideRanges ++ b.sideRanges)) = true →
        ∃ bad : Nat → Bool, exec (.smxc n w) s = .next (s.afterIssue n (((List.range rs).foldl (fun v r =>
          let prev : Option SoftAcc :=
            if f.sub = 1 then some ⟨memInt u.mem (o + 4 * r), memPair u.mem (o + 4 * rs + 8 * r)⟩ else none
          let y := softFold prev ((List.range t).map fun i =>
            (memInt u.mem (a.rowAddr i + 4 * r), memPair u.mem (b.rowAddr i + 8 * r)))
          (v.write (o + 4 * r) (leBytes 4 (wrap 32 y.m)) (bad r)).write (o + 4 * rs + 8 * r) (pairBytes y.acc) (bad r))
          u).advance n)))
    ∧ (∀ d m, y.colTile n f.td = some d → y.colTile n f.ta = some a → y.tdBase n f.tb = some m →
      let u := y.meet [a.body, (m, 4 * a.cols)]
      (s.issues n w 0x94 && zeroT w && f.sub == 0 && q.colReady n w (.smxd n w) [f.td, f.ta, f.tb] && d.fmt == .int32
          && sameShape d a && collectiveOk y n [a.body, (m, 4 * a.cols)] [d.body] (d.sideRanges ++ a.sideRanges)) = true →
        exec (.smxd n w) s = .next (s.afterIssue n ((u.putPairs d ((List.range d.rows).map fun t =>
          (List.range d.cols).map fun r => (smxdCode (memInt u.mem (a.rowAddr t + 4 * r)) (memInt u.mem (m + 4 * r)), 0,
            u.elemBad a t r || (u.read (m + 4 * r) 4).2))).advance n)))
    ∧ (∀ o, z.tdBase n f.td = some o → z.colTile n f.ta = some a →
      let np := if bitAt f.sub 1 then 2 else 1
      let k := a.cols / 2
      let out := (o, 8 * k)
      let reads := [a.body] ++ (if bitAt f.sub 0 then [out] else [])
      let u := z.meet reads
      (s.issues n w 0x95 && zeroT w && f.sub < 4 && q.colReady n w (.prcomb n w) [f.td, f.ta] && a.fmt == .fp32 && a.rows == t && a.cols % (2 * np) == 0
          && a.sparse == 0 && collectiveOk z n reads [out] a.sideRanges) = true →
        ∃ bad : Nat → Bool, exec (.prcomb n w) s = .next (s.afterIssue n (((List.range k).foldl (fun v i =>
          let ps := (if bitAt f.sub 0 then [memPair u.mem (o + 8 * i)] else [])
            ++ (List.range t).map fun j => memPair u.mem (a.rowAddr j + 8 * i)
          let r := match ps with
            | [] => (0, 0)
            | p :: qs => qs.foldl (fun p q => pairPromote p q.1 q.2) p
          v.write (o + 8 * i) (pairBytes r) (bad i)) u).advance n)))

/-- R172, R228 to R231: on an SE that takes the operation now, SALLOC takes a free page into an empty directory entry,
SLOOK returns and pins a resident page or asks the host for a spilled one, and SFREE frees an entry's page or slot. A
session or index with nothing to act on makes p[PD] false. SSUM stores a page's 64-byte summary. u is the state once
the look-up has read its entries (R207). -/
def Obligations.Sessions : Prop :=
  (∀ (s : State) (n : StrandId) (w : Word64),
      let f := fmtX w
      let v := s.atIssue n w
      let x := v.strand n
      let q := (x.reg f.b).toNat
      let u := v.meetFind q f.imm
      let ready (c : Instr) (k : Nat) : Bool := s.issues n w k && f.sub == 0 && !(s.strand n).inWindow && !v.seWaits c
        && (v.findGate c q f.imm).isNone
      let can (c : Instr) (rs : List (Nat × Nat)) : Bool := (u.gate c [] rs).isNone
      let fails (v : State) : State := v.proceed n fun x => x.setPred f.pd false
      (∀ e d, u.find q f.imm = .at e d →
        (∀ k se, u.se.takePage = some (k, se) → (ready (.salloc n w) 0xA0 && !d.valid && can (.salloc n w) (entWrites e d)) = true →
            exec (.salloc n w) s = .next ((((u.setSe se).write d.addr (dirBytes (se.firstPage + k) false true) false).setCounts
              e (e.resident + 1) e.spilled).proceed n fun x =>
                (x.setReg f.a (BitVec.ofNat 32 (se.firstPage + k))).setPred f.pd true))
        ∧ ((ready (.salloc n w) 0xA0 && d.valid && can (.salloc n w) []) = true → exec (.salloc n w) s = .next (fails u))
        ∧ ((ready (.slook n w) 0xA1 && can (.slook n w) []) = true →
            (d.valid = false → exec (.slook n w) s = .next (fails u))
            ∧ (d.valid = true → d.spilled = false → u.se.pinsFull x.launchId d.loc = false →
                exec (.slook n w) s = .next ((u.setSe (u.se.pin x.launchId d.loc)).proceed n fun x =>
                  (x.setReg f.a (BitVec.ofNat 32 d.loc)).setPred f.pd true))
            ∧ (∀ k se, d.valid = true → d.spilled = true → u.se.takePage = some (k, se) →
                u.se.pinsFull x.launchId (u.se.firstPage + k) = false → s.cxlOn = true →
                  let a := u.se.slotAddr d.loc
                  let v : State := { u with host := { u.host with d2h := u.host.d2h ++ [(D2HAgent.se, true, a, 0x10000)] } }
                  exec (.slook n w) s = .next ((v.send (.d2hRead .se a 0x10000)).modStrand n fun x =>
                    { x with wait := .slook (fin32 f.a) q f.imm f.pd }))))
        ∧ (∀ e d, u.find q f.imm = .at e d → (ready (.sfree n w) 0xA2 && d.valid && can (.sfree n w) (entWrites e d)) = true →
            let se := if d.spilled then u.se.freeSlot d.loc else u.se.freePage (d.loc - u.se.firstPage)
            exec (.sfree n w) s = .next ((((u.setSe se).write d.addr (dirBytes d.loc d.spilled false) false).setCounts e
              (if d.spilled then e.resident else e.resident - 1) (if d.spilled then e.spilled - 1 else e.spilled)).advance n))
        ∧ (u.find q f.imm = .none →
            (ready (.salloc n w) 0xA0 = true → exec (.salloc n w) s = .next (fails u))
            ∧ (ready (.slook n w) 0xA1 = true → exec (.slook n w) s = .next (fails u))
            ∧ (ready (.sfree n w) 0xA2 = true → exec (.sfree n w) s = .next (u.advance n))))
  ∧ (∀ (s : State) (n : StrandId) (w : Word64),
      let f := fmtX w
      let u := s.atIssue n w
      let x := u.strand n
      let a := scratchBase (regionOf n) + (x.reg f.a).toNat
      let page := (x.reg f.b).toNat
      let k := page - u.se.firstPage
      (s.issues n w 0xA3 && f.sub == 0 && !(s.strand n).inWindow && (x.reg f.a).toNat + 64 ≤ scratchSize
          && !u.hazard n [(a, 64)] && !u.seWaits (.ssum n w)) = true →
        ((u.se.firstPage ≤ page && k < u.se.poolpages.toNat && u.se.allocated k
            && (u.gate (.ssum n w) [] [(u.se.sumAddr k, 64)]).isNone) = true →
          let v := u.meet [(a, 64)]
          exec (.ssum n w) s = .next ((v.write (u.se.sumAddr k) (v.read a 64).1 (v.read a 64).2).advance n))
        ∧ ((page < u.se.firstPage || u.se.poolpages.toNat ≤ k || !u.se.allocated k) = true →
          exec (.ssum n w) s = .next (u.advance n)))

/-- R232, R233: a recall that SLOOK started ends when the slot's 64 KiB arrive: they enter a pool page, the summary
moves with them, the entry turns resident, the slot is free and SLOOK returns the page; what waited for the SE follows.
u is the state once the entries are read, v once the summary is (R207). SPILL of an open session goes through its directory; a session with no resident page is done at once, and the first
page that is not pinned starts its copy to the slot that the SE takes next: the spec names none, and the model takes the
slot freed last, else the lowest that was never taken (log entry 29, DESIGN CHOICE). -/
def Obligations.RecallsAndSpills : Prop :=
  (∀ (s : State) (n : StrandId) (r : Fin 32) (q i pd k : Nat) (e : SessEnt) (d : DirEnt) (se : Se) (data : List Byte)
      (bad : Bool), let u := s.meetFind q i
      (s.strand n).wait = .slook r q i pd → u.find q i = .at e d → s.se.takePage = some (k, se) →
      data.length = 0x10000 → (s.unitsOn && !s.se.faulted) = true → s.findGate (.recall n data bad) q i = none →
      u.gate (.recall n data bad) [(se.slotSum d.loc, 64)]
        (entWrites e d ++ [(se.pageAddr k, 0x10000), (se.sumAddr k, 64)]) = none →
      let v := u.meet [(se.slotSum d.loc, 64)]
      let sum := v.read (se.slotSum d.loc) 64
      let v := if bad then v.rasCorrected 4 else v
      let t := (((v.dropD2h .se true).setSe (se.freeSlot d.loc)).write (se.pageAddr k) data bad).write (se.sumAddr k)
        sum.1 sum.2
      let t := (t.write d.addr (dirBytes (se.firstPage + k) false true) false).setCounts e (e.resident + 1) (e.spilled - 1)
      exec (.recall n data bad) s = .next (s.seNext ((t.setSe (t.se.pin (t.strand n).launchId (se.firstPage + k))).proceed n
        fun x => (x.setReg r.val (BitVec.ofNat 32 (se.firstPage + k))).setPred pd true)))
  ∧ (∀ (s : State) (q : SessionId),
      let y := s.seCmd 4 q.val
      let u := y.meetSess q.val
      let e := u.sessEnt q.val
      let v := u.setSe { u.se with skipped := 0, err := 0 }
      (s.fabricOn && s.se.state != 1 && !y.seWaits (.spill q) && (s.se.spillWaits q).isNone && !e.bad && e.state == 1
          && (y.gate (.spill q) [(e.addr, 64)] []).isNone) = true →
        (e.nidx = 0 → ∃ t, exec (.spill q) s = .next t ∧ t.se.state = 2 ∧ t.se.err = 0 ∧ t.se.spilling = none ∧ t.mem = s.mem)
        ∧ (∀ j se, e.nidx ≠ 0 → v.seStopped = false → (v.gate (.spill q) [(e.addr, 64), (e.dir, 4)] []).isNone = true →
            let d := (v.meet [(e.dir, 4)]).dirEnt e 0
            let page := v.se.pageAddr (d.loc - v.se.firstPage)
            (d.valid && !d.spilled && !d.bad && !v.se.isPinned d.loc) = true → v.se.takeSlot = some (j, se) → s.cxlOn = true →
              ((v.meet [(e.dir, 4)]).gate (.spill q) [(page, 0x10000)] []).isNone = true →
                ∃ t, exec (.spill q) s = .next t ∧ t.se.spilling = some ⟨q.val, 0, some j⟩ ∧ t.se.state = 1
                  ∧ t.host.d2h = s.host.d2h ++ [(D2HAgent.se, false, se.slotAddr j, 0x10000)] ∧ t.mem = s.mem))

/-- R173, R259: while its launch asks for a digest, DGADD appends a record (SUB, length, bytes) to the strand's
stream, SUB 0 for an input and SUB 1 for the result, and DGFIN takes the SHA-256 of the stream; without a request
both only go on. The bytes are read, and whatever upset lies in them is met (R207); the clauses hold for every such upset (log
entry 112). -/
def Obligations.DigestStream : Prop :=
  ∀ (s : State) (n : StrandId) (w : Word64),
    let f := fmtX w
    let u := s.atIssue n w
    let x := u.strand n
    let len := (x.reg f.b).toNat
    let a := scratchBase (regionOf n) + (x.reg f.a).toNat
    ((s.issues n w 0xB0 && f.sub < 2 && !(s.strand n).inWindow && x.wantsDigest && (x.reg f.a).toNat + len ≤ scratchSize
        && !u.hazard n [(a, len)]) = true →
      exec (.dgadd n w) s = .next (((u.meet [(a, len)]).modEngine n fun e =>
        { e with shaD := e.shaD ++ (BitVec.ofNat 8 f.sub :: leBytes 4 (memGetN u.mem a len).length ++ memGetN u.mem a len) }).advance
          n))
    ∧ ((s.issues n w 0xB0 && f.sub < 2 && !(s.strand n).inWindow && !x.wantsDigest) = true →
      exec (.dgadd n w) s = .next (u.advance n))
    ∧ ((s.issues n w 0xB1 && f.sub == 0 && !(s.strand n).inWindow && x.wantsDigest) = true →
      exec (.dgfin n w) s = .next (s.ran n w fun x => { x with digest := some (sha256 (u.engine n).shaD) }))
    ∧ ((s.issues n w 0xB1 && f.sub == 0 && !(s.strand n).inWindow && !x.wantsDigest) = true →
      exec (.dgfin n w) s = .next (u.advance n))

/-! ### Staging engines (09, 10) -/

/-- R163, R187, R188: a waiting STGRUN starts its program on the idle engine: the steps are copied, x0 holds the
argument and the other registers zero, the engine stands at step 1 and the strand goes on. R190: what the control
steps compute, write and where they go. What the error code finds on a word that is read is met first (R207); that an
upset may lie there before a read is the model's choice (log entry 112, DESIGN CHOICE). -/
def Obligations.StagingControl : Prop :=
  (∀ (s : State) (e : EngineId) (n : StrandId) (k : Fin 4) (off : Nat) (arg : Word),
      let a := scratchBase (regionOf n) + off
      let hdr := memGetN s.mem a 64
      let nstep := fieldLE hdr 4 2
      let u := s.meet [(a, 64)]
      (s.strand n).wait = .stgrun k off arg → engineId n k.val = e →
      (s.going n && (s.engine e).run == .idle && !(s.engine e).disabled && fieldLE hdr 0 4 == 0 && fieldLE hdr 6 58 == 0
          && 2 ≤ nstep && nstep ≤ 256 && off + 64 * nstep ≤ scratchSize && !(u.read a 64).2
          && !((u.meet [(a, 64 * nstep)]).read a (64 * nstep)).2 && !s.hazard n [(a, 64 * nstep)] && !s.engClosing e) = true →
        ∃ t, exec (.stagingProgramStart e n) s = .next t ∧ t.mem = s.mem
          ∧ (t.engine e).run = .running ∧ (t.engine e).step = 1 ∧ (t.engine e).owner = n.val
          ∧ (t.engine e).store.length = nstep ∧ (t.engine e).x = (Vector.replicate 8 (0 : Word)).set 0 arg
          ∧ (t.strand n).wait = .none ∧ (t.strand n).stg[fin4 e.val] = .running s.nextId)
  ∧ (∀ (s : State) (e : EngineId) (st : Step512),
      let x := s.engine e
      let a := stAddr st + (x.xr (stA st)).toNat
      ((s.stepsNow e st 0x10 && onlyFields st [(0, 1), (4, 2), (8, 4)] && stD st < 8 && stA st < 8) = true →
        exec (.setx e st) s = .next ((s.setEngine e (x.setX (stD st) (x.xr (stA st) + BitVec.ofNat 32 (stImm st)))).engNext e))
      ∧ ((s.stepsNow e st 0x11 && onlyFields st [(0, 1), (4, 2), (0x10, 8)] && stD st < 8 && stA st < 8 && a % 4 == 0
            && s.engReach a 4 && !s.loopWrites e [(a, 4)] && (s.gate (.ldx e ⟨st, []⟩) [(a, 4)] []).isNone
            && !((s.meet [(a, 4)]).readHalf a 4).2) = true →
        ∃ t : State, exec (.ldx e ⟨st, []⟩) s = .next (t.engNext e) ∧ t.mem = s.mem
          ∧ t.engine e = x.setX (stD st) (BitVec.ofNat 32 (leValue (memGetN s.mem a 4))))
      ∧ (∀ found, (s.stepsNow e st 0x12 && onlyFields st [(0, 1), (5, 2), (0x10, 8)] && stA st < 8 && stB st < 8 && a % 4 == 0
            && s.engWrites e (.stx e ⟨st, found⟩) a 4) = true →
        exec (.stx e ⟨st, found⟩) s
          = .next (((s.strike found).write a (leBytes 4 (x.xr (stB st)).toNat) false).engStored e))
      ∧ ((s.stepsNow e st 0x13 && onlyFields st [(0, 1), (5, 3), (0xC, 2)] && stA st < 8 && stB st < 8 && stF st 7 1 < 5
            && stTarget st < x.store.length) = true →
        let p := x.xr (stA st)
        let q := x.xr (stB st)
        exec (.stgBr e st) s = .next (if [true, p == q, p != q, p.ult q, !p.ult q].getD (stF st 7 1) false = true
          then s.engGoto e (stTarget st) else s.engNext e))
      ∧ ((s.stepsNow e st 0x14 && onlyFields st [(0, 1), (4, 1), (0xC, 2)] && stD st < 8 && stTarget st < x.store.length)
            = true →
        let v := x.xr (stD st) - 1
        let t := s.setEngine e (x.setX (stD st) v)
        exec (.loop e st) s = .next (if v ≠ 0 then t.engGoto e (stTarget st) else t.engNext e)))

/-- R191 to R193: a COPY whose source is at hand queues its bursts; with a source in host or peer memory it first asks
for the source's bytes, once its program's own writes to them are visible (R189). R192: a bit copy inside the address
space queues the rows of the source, byte for byte, as the rows of the destination. That a remote source is fetched
whole before the first burst is queued is the model's reading (log entry 71, DEDUCED). t is the state once the COPY has
read, and a' and b' its sides with the headers as read there. -/
def Obligations.CopySteps : Prop :=
  ∀ (s : State) (e : EngineId) (st : Step512) (found : EccList) (a b : Side),
    let c := copyOf st
    let t := s.engMark (c.headers ++ copyReads a b) found
    (s.stepsNow e st 0x01 && c.decOk st && (s.engReads e (.copy e ⟨st, found⟩) c.headers).isNone && s.sideReach a && s.sideReach b
        && (copyArrays a b).all fun p => p.2 == 0 || s.engReach p.1 p.2) = true → s.copySides e c = .ok (a, b) →
      (∀ a' b', t.copySides e c = .ok (a', b') → ((s.engine e).fetch = none ∧ a.space = 0) ∨ (∃ f, (s.engine e).fetch = some f ∧ f.complete = true) →
        s.loopWrites e (copyReads a b) = false → s.gate (.copy e ⟨st, found⟩) (copyReads a b) [] = none → exec (.copy e ⟨st, found⟩) s = .next (t.copyGo e c a' b').loopIn)
      ∧ (a.space ≠ 0 → (s.engine e).fetch = none → s.ownWrites e a = false →
        exec (.copy e ⟨st, found⟩) s = .next ((s.modEngine e fun x => { x with fetch := some {
          space := a.space, dst := a.hi, todo := (Tile.spans { a.tile with addr := a.base }).flatMap fun p => blocks256 p.1 p.2,
          got := [], poison := [], waiting := none } }).fetchNext e).loopIn)
      ∧ (c.bitcopy = true → c.arrive = false → found = [] → a.space = 0 → b.space = 0 → (s.engine e).fetch = none →
        s.loopWrites e (copyReads a b) = false → s.gate (.copy e ⟨st, found⟩) (copyReads a b) [] = none →
        let rows := (List.zip a.tile.spans b.tile.spans).flatMap fun p => (⟨p.2.1, memGetN s.mem p.1.1 p.1.2,
          (List.range p.1.2).map fun k => (k, k, (lineHalves (p.1.1 + k) 1).any t.poison.contains, false)⟩ : RowOut).bursts
            0 b.hi false (if fld s.col.eng.toNat (2 * e.val) 2 = 0 then 0 else 2)
        rows ≠ [] → ∃ v : State, exec (.copy e ⟨st, found⟩) s = .next v.loopIn ∧ v.mem = s.mem ∧ (v.engine e).bursts = rows)

/-- R193, R278: the front burst of an engine goes to memory, to the host as a write that is counted until its
answer, or to a peer as a write with a free tag. R194, R278: ARRIVE sets up an arrival; it acts once the writes
before it are visible, on a flag of this module or as a message to the peer, and the program goes on. END ends the
program, which settles when its writes are answered. -/
def Obligations.BurstsArriveAndEnd : Prop :=
  (∀ (s : State) (e : EngineId) (found : EccList) (b : Burst) (rest : List Burst),
      let x := s.engine e
      let y := x.popBurst b
      x.bursts = b :: rest → s.engGo e = true →
        (b.space = 0 → (s.engReach b.addr b.bytes.length
              && (s.gateWith true (.burstWrite ⟨e, found⟩) [] [(b.addr, b.bytes.length)]).isNone) = true →
          let t := (s.strike found).write b.addr b.bytes b.poison
          let t := if b.poison && b.remote then t.poisonWritten b.addr else t
          exec (.burstWrite ⟨e, found⟩) s = .next ((t.setEngine e y).burstDone e).loopIn)
        ∧ (b.space = 1 → s.cxlOn = true → ∃ t : State, exec (.burstWrite ⟨e, found⟩) s = .next (t.burstDone e).loopIn ∧ t.mem = s.mem
            ∧ t.engine e = { y with hostWrites := y.hostWrites + 1 }
            ∧ t.out = .d2hWrite (.engine e) b.addr b.bytes b.poison :: s.out
            ∧ t.host.d2h = s.host.d2h ++ [(D2HAgent.engine e, false, b.addr, b.bytes.length)])
        ∧ (∀ k, b.space = 2 → x.freeTag = some k → ∃ (t : State) (m : ColMsg),
            exec (.burstWrite ⟨e, found⟩) s = .next ((t.request e b.tc b.dst m).burstDone e).loopIn
            ∧ t = s.setEngine e { y with
                peers := y.peers ++ [({ dst := b.dst, tag := k, addr := b.addr, bytes := b.bytes.length, isRead := false } : PeerOut)],
                tag := (k + 1) % 2048 }
            ∧ m.mtype = (if b.atom then mtAtomAdd else mtWrite) ∧ m.addr = b.addr ∧ m.data = b.bytes))
  ∧ (∀ (s : State) (e : EngineId) (st : Step512),
      let ext := stF st 0x38 8
      let x := s.engine e
      ((s.stepsNow e st 0x30 && onlyFields st [(0, 1), (0x38, 8)]
            && setFld (setFld (setFld (setFld ext 14 2 0) 16 12 0) 36 6 0) 42 5 0 == 0
            && (fld ext 14 2 == 2 || (fld ext 14 2 == 0 && fld ext 16 12 == 0))) = true →
        exec (.arrive e st) s = .next (s.modEngine e fun x => { x with
          arrival := some ⟨fld ext 14 2, fld ext 16 12, fld ext 42 5, fld ext 36 6, true⟩ }))
      ∧ (∀ a, x.arrival = some a → (s.engGo e && x.bursts.isEmpty && !x.unanswered) = true →
          (a.space ≠ 2 → exec (.arrival e) s
            = .next (((s.setEngine e { x with arrival := none }).arrival (fin32 a.strand) a.flag).engNext e).loopIn)
          ∧ (∀ k, a.space = 2 → x.freeTag = some k →
            let t := (s.setEngine e { x with arrival := none, tag := (k + 1) % 2048 }).request e 0 a.dst
              (simpleMsg mtArrive (tagOf e k) (a.flag + a.strand * 64) 0)
            exec (.arrival e) s
              = .next (if (t.engine e).run == .running && !(t.engine e).faulting then t.engNext e else t).loopIn))
      ∧ ((s.stepsNow e st 0x3F && onlyFields st [(0, 1)]) = true →
          exec (.stgEnd e st) s = .next ((s.modEngine e fun x => { x with ending := true }).settleEngine e))
      ∧ (∀ c : Option Cvu, (s.stepsNow e st 0x3F && onlyFields st [(0, 1)] && !x.unanswered && !x.faulting && !x.storing) = true → x.cvu = c →
          ∃ t, exec (.stgEnd e st) s = .next t ∧ (t.engine e).run = .idle ∧ (t.engine e).cvu = none
            ∧ ∀ v, c = some v → (t.engine e).cvuResult = v.close.result ∧ (t.engine e).cvuValid = true))

/-- R199 to R204: CVUSET starts a computation, CVUOUT stores its 8-byte result, SHAINIT empties the program's SHA
stream and SHAFIN stores its digest, which with REG 1 enters the weight-digest table. R196, R197: COLSUM queues the
column sums of a weight tile as a row of the destination; BUCKET writes what its procedure makes, in order, and goes
on. -/
def Obligations.StagingCompute : Prop :=
  (∀ (s : State) (e : EngineId) (st : Step512),
      let x := s.engine e
      let a := stAddr st
      let poly := stF st 4 1
      ((s.stepsNow e st 0x20 && onlyFields st [(0, 1), (4, 3), (8, 8)] && poly < 2 && stF st 5 1 < 2 && stF st 6 1 < 2) = true →
        exec (.cvuset e st) s = .next ((s.modEngine e fun x => { x with
          cvu := some ⟨poly, stF st 5 1, stF st 6 1, stF st 8 8, (if poly = 0 then crc32c else crc64).init, 0, [], 0⟩,
          cvuValid := false, cvuLost := true, cvuPoly := poly == 1, cvuFold := stF st 5 1 == 1 }).engNext e))
      ∧ (∀ c found, x.cvu = some c → (s.stepsNow e st 0x21 && onlyFields st [(0, 1), (0x10, 8)] && a % 8 == 0
            && s.engWrites e (.cvuout e ⟨st, found⟩) a 8) = true →
          exec (.cvuout e ⟨st, found⟩) s = .next ((((s.strike found).write a
            (leBytes 8 c.close.result.toNat) false).modEngine e fun x => { x with cvu := some c.close }).engStored e))
      ∧ ((s.stepsNow e st 0x28 && onlyFields st [(0, 1)]) = true →
          exec (.shainit e st) s = .next ((s.modEngine e fun x => { x with shaP := [] }).engNext e))
      ∧ ((s.stepsNow e st 0x29 && onlyFields st [(0, 1), (4, 1), (6, 2), (0x10, 8)] && stF st 4 1 < 2 && stF st 6 2 < 4096
            && a % 32 == 0 && s.engWrites e (.shafin e st) a (sha256 x.shaP).length) = true →
          let t := (s.write a (sha256 x.shaP) false).modEngine e fun x => { x with shaP := [] }
          exec (.shafin e st) s = .next (State.engStored (if stF st 4 1 = 1 then
              { t with wdt := { t.wdt with entries := assocSet (stF st 6 2) (sha256 x.shaP) t.wdt.entries } }
            else t) e)))
  ∧ (∀ (s : State) (e : EngineId) (st : Step512) (found : EccList),
      let x := s.engine e
      (∀ a b : Side, s.side x (stF st 8 16) (stF st 0x28 8) 0 0 0 = .ok a → bareSide x (stF st 0x18 16) 0 0 0 = .ok b →
        let w := a.tile
        let d := b.tile
        (s.stepsNow e st 0x02 && onlyFields st [(0, 1), (8, 16), (0x18, 16), (0x28, 8)] && tdSptr (stF st 8 16) == 0
            && tdSptr (stF st 0x18 16) == 0 && w.fmt.roleW && d.sparse == 0 && d.rows == 1 && d.cols == w.cols
            && (d.fmt == .fp32 || (d.fmt == .int32 && w.fmt.isIntegerClass && w.skind == 0)) && !isBasin d.addr
            && s.sideReach a && s.sideReach b && (s.engReads e (.colsum e ⟨st, found⟩) (headersOf [stF st 0x28 8])).isNone
            && (s.engReads e (.colsum e ⟨st, found⟩) w.ranges).isNone) = true →
          let u := s.engMark (headersOf [stF st 0x28 8] ++ w.spans ++ w.sideRanges) found
          ∀ a', u.side x (stF st 8 16) (stF st 0x28 8) 0 0 0 = .ok a' → let w := a'.tile
          ∃ t : State, exec (.colsum e ⟨st, found⟩) s = .next t ∧ t.mem = s.mem
            ∧ (t.engine e).bursts = (rowOfWrs d.addr d.fmt.bits ((List.range d.cols).map fun c =>
                (⟨(sumCode d.fmt (u.colTotal w c) (u.colNan w c)).1, (sumCode d.fmt (u.colTotal w c) (u.colNan w c)).2,
                  (List.range w.rows).any fun r => u.elemBad w r c⟩ : Wr))).bursts 0 0 false 0)
      ∧ (∀ b, bucketOf e st = some b →
        let rs := (s.bkRun b).reads
        (s.stepsNow e st 0x03 && onlyFields st [(0, 3), (4, 2), (6, 2), (8, 8), (0x10, 8), (0x18, 16), (0x28, 4), (0x2C, 4),
              (0x30, 8), (0x38, 4)]
            && tdSptr (stF st 0x18 16) == 0 && rs.all (fun p => s.engReach p.1 p.2)
            && (s.engReads e (.bucket e ⟨st, found⟩) rs).isNone) = true →
          let ws := (s.bkRun b).out.reverse
          (ws.all (fun w => s.engReach w.1 w.2.1.length)
            && (s.gateWith true (.bucket e ⟨st, found⟩) [] (ws.map fun w => (w.1, w.2.1.length))).isNone) = true →
          let u := s.engMark rs found
          let r := u.bkRun b
          let out := r.out.reverse
          (r.fault.isNone && out.all (fun w => u.engReach w.1 w.2.1.length) && r.reads.all (fun p => u.engReach p.1 p.2)) = true →
          exec (.bucket e ⟨st, found⟩) s = .next ((out.foldl (fun s w => s.write w.1 w.2.1 w.2.2) u).engStored e)))

/-! ### Queues and sessions (11) -/

/-- R218: a doorbell write narrower than 8 bytes is ignored and counted in QE_DB_ERR: nothing else changes. R218,
R219: an 8-byte doorbell names the queue in bits [19:0] and the new count in [63:32]. On a submission queue it moves
TAIL when the records it adds fit the ring, and the queue turns ready; a smaller count than the one held is a repeat
and moves nothing; more than the ring holds is rejected. On a completion queue it moves HEAD over records written.
R216: the entry is written back whole each time. Any doorbell register may carry any queue. While a doorbell waits for the
host to give up its line, those behind it wait in their order. u is the state once the QE has read the entry
(R207); the clauses hold for every upset that lies there (log entry 112). -/
def Obligations.Doorbells : Prop :=
  (∀ (s : State) (i : Fin 64) (bytes : Nat) (v : Word64), s.fabricOn = true → bytes ≠ 8 →
      exec (.doorbell i bytes v) s = .next { s with qe := { s.qe with dbErr := satAdd s.qe.dbErr 1 } })
  ∧ (∀ (s : State) (i : Fin 64) (v : Word64),
      let q := fld v.toNat 0 20
      let t := fld v.toNat 32 32
      let x := s.ent q
      let u := s.meetEnt q
      let d := (t + 2 ^ 32 - x.head) % 2 ^ 32
      let open_ := (s.gate (.doorbell i 8 v) [(s.entAddr q, 64)] [(s.entAddr q, 64)]).isNone
      (s.fabricOn = true → s.doorbellHeld = true → exec (.doorbell i 8 v) s = .next (s.holdReq (.doorbell i 8 v)))
      ∧ (s.fabricOn = true → s.doorbellHeld = false →
        ((!s.queueOn q) = true → exec (.doorbell i 8 v) s = .next (s.rejectDb q))
        ∧ ((s.queueOn q && !u.entBad q && open_) = true →
          (x.type = 1 → x.feed = true ∨ x.size < d → exec (.doorbell i 8 v) s = .next ((u.putEnt q x).rejectDb q))
          ∧ (x.type = 1 → x.feed = false → d ≤ x.size → d < x.held → exec (.doorbell i 8 v) s = .next (u.putEnt q x))
          ∧ (x.type = 1 → x.feed = false → d ≤ x.size → x.held ≤ d → exec (.doorbell i 8 v) s
              = .next (if d = 0 then u.putEnt q { x with tail := t } else (u.putEnt q { x with tail := t }).setReady q))
          ∧ (x.type = 2 → x.held < d → exec (.doorbell i 8 v) s = .next ((u.putEnt q x).rejectDb q))
          ∧ (x.type = 2 → d ≤ x.held → exec (.doorbell i 8 v) s = .next (u.putEnt q { x with head := t })))))

/-- R217: QE_QTBASE takes an aligned value while no queue is enabled. An aligned write while one is leaves the register and
QE_QSTAT reads STATE 3 with code 4; a misaligned value is ignored in the same way with code 3, and never enters the
register. The clause with code 3 is for no queue enabled: with one enabled both conditions of R217 hold, and the last
clause on QE_QTBASE leaves the code open. A write of an SE base or size register while a session is open or a pool page is
allocated leaves the register, and SE_CMDSTAT reads STATE 3 with code 6. -/
def Obligations.QtbaseWrites : Prop :=
  ∀ (s : State) (v : Word64), s.fabricOn = true →
    (s.qe.enabled = [] → v.toNat % 2 ^ 26 = 0 → exec (.qtbaseWrite v) s = .next (s.setQe { s.qe with qtbase := v }))
    ∧ (s.qe.enabled = [] → v.toNat % 2 ^ 26 ≠ 0 →
        exec (.qtbaseWrite v) s = .next (s.setQe { s.qe with state := 3, err := 3 }))
    ∧ (s.qe.enabled ≠ [] → v.toNat % 2 ^ 26 = 0 →
        exec (.qtbaseWrite v) s = .next (s.setQe { s.qe with state := 3, err := 4 }))
    ∧ (v.toNat % 2 ^ 26 ≠ 0 → ∃ t, exec (.qtbaseWrite v) s = .next t ∧ t.qe.qtbase = s.qe.qtbase ∧ t.qe.state = 3)
    ∧ (∀ r, s.se.openCount ≠ 0 ∨ s.se.free < s.se.poolpages.toNat →
        exec (.seBaseWrite r v) s = .next (s.setSe { s.se with state := 3, err := 6 }))

/-- R215, R216: enabling a queue whose entry passes Table 11.1 sets HEAD and TAIL to 0 and PHASE to 1, and freezes
its first 16 bytes and its PHASE; disabling clears its ready bit, and a transaction on its ring moves nothing more. -/
def Obligations.QueueCommands : Prop :=
  ∀ (s : State) (q : QueueId), s.fabricOn = true →
    let a := s.entAddr q.val
    let u (op : Nat) := s.qeCmd op q.val
    let v := (u 1).meetEnt q.val
    (s.qe.state ≠ 1 →
      ((!s.queueOn q.val && !v.entBad q.val && entryOk (s.qEntry q.val) && ((u 1).gate (.queueEnable q) [(a, 64)] []).isNone
            && (v.gate (.queueEnable q) [] [(a, 64)]).isNone) = true →
        let t := v.putEnt q.val { s.ent q.val with head := 0, tail := 0, phase := 1 }
        exec (.queueEnable q) s = .next ((t.setQe { t.qe with
          enabled := assocSet q.val ((s.qEntry q.val).take 0x10 ++ [1]) t.qe.enabled }).qeStat 2 0))
      ∧ (s.queueOn q.val = true → ∃ t, exec (.queueDisable q) s = .next t ∧ t.mem = s.mem ∧ t.queueOn q.val = false
          ∧ q.val ∉ t.qe.ready ∧ (∀ y, t.qe.host = some y → y.queue ≠ some q.val) ∧ t.qe.state = 2 ∧ t.qe.err = 0)
      ∧ (s.queueOn q.val = false → exec (.queueDisable q) s = .next ((u 2).qeStat 3 2)))

/-- R222, R241: the QE grants a class by its arbiter, takes the first ready queue of the class at or after its
cursor, and takes the record at its head: from device memory at once, from host memory by a read over CXL.cache.
R222, R223: a record that is well formed and whose strands are idle makes a launch: each strand of its mask turns to
loading with the record. While one of its strands is not idle the record stays at HEAD and its queue is blocked. A
record that is not well formed is passed over with a completion of status 1, and one for no enabled completion queue
is discarded. u is the state once the QE has read the entry, v once it has read the record (R207). -/
def Obligations.Dispatching : Prop :=
  (∀ (s : State) (k q : Nat),
      let d := (s.arb 0).pick 0 ((List.range 16).filter fun k => !(s.readyOf k).isEmpty)
      let x := s.ent q
      let a := x.slot x.head
      let u := s.meetEnt q
      let v := u.meet [(a, 64)]
      let g := (v.setArb 0 d.1).setQe { v.qe with cursors := v.qe.cursors.set (fin16 k) ((q + 1) % 2 ^ 20) }
      (s.unitsOn && !s.qeStops .dispatch && s.qe.host.isNone && !u.entBad q
          && (s.gate .dispatch [(s.entAddr q, 64)] [(s.entAddr q, 64)]).isNone) = true →
        d.2 = some k → s.pickQueue k = some q →
        (x.host = false → (u.gate .dispatch [(a, 64)] []).isNone = true →
          exec .dispatch s = .next ((g.readMark a 64).takeRecord q (v.read a 64).1 (v.read a 64).2))
        ∧ (x.host = true → s.cxlOn = true → ∃ t, exec .dispatch s = .next t ∧ t.qe.host = some (.readRec q)
            ∧ t.qe.line = some (q, s.entLine q) ∧ t.out = .d2hRead .qe a 64 :: s.out ∧ t.mem = s.mem))
  ∧ (∀ (s : State) (q : Nat) (bs : List Byte),
      let ns := maskList (lrMask bs)
      let t := s.takeRecord q bs false
      (s.cqOn (lrCq bs) = true → recordOk bs = true →
        ((∀ i ∈ ns, s.strandIdle (fin32 i) = true) →
          (∀ i ∈ ns, (t.strand (fin32 i)).run = .loading
              ∧ (t.strand (fin32 i)).launch = some { id := s.nextId, lrec := bs, sect := [], scaleBase := 0 })
          ∧ (∀ m : StrandId, m.val ∉ ns → t.strand m = s.strand m) ∧ t.nextId = s.nextId + 1)
        ∧ ((∃ i ∈ ns, s.strandIdle (fin32 i) = false) →
            t = s.setQe { s.qe with ready := s.qe.ready.filter (· != q), blocked := s.qe.blocked ++ [(q, lrMask bs)] }))
      ∧ (s.cqOn (lrCq bs) = true → recordOk bs = false →
          t = (s.consumed q).addRec {
                cq := lrCq bs, tag := lrTag bs, status := 1, sqid := q, sqhead := ((s.ent q).head + 1) % 2 ^ 32, reason := 1, faultFn := 0xFF, faultKind := 0, faultPc := 0,
                digest := none, digestFailed := false, sign := none })
      ∧ (s.cqOn (lrCq bs) = false → t = (s.consumed q).discardCompletion (lrCq bs)))

/-- R143 to R147, R223: the first strand of a launch to load checks the binary for all of its strands. When every
check passes the launch is accepted, its strands are set up and this strand runs; a strand of an accepted launch
runs. The last clause gives each REASON of Table 11.4 its condition: 2 the binary and its fields (R143, R146, Tables 8.1 and
8.2), 3 the block map (R83), 4 the areas (R98), 5 the VSU shares (R116), 6 the loadable slots (R133), 7 a disabled VSU
(R140). That the lowest of those that hold is reported is log entry 35, DEDUCED; that a faulted strand does not run here
is log entry 130, DEDUCED; that PART and PSET entries out of use are not checked is log entry 148, DEDUCED. -/
def Obligations.BinaryLoading : Prop :=
  ∀ (s : State) (n : StrandId) (y : Launched) (l : Launch),
    let x := s.strand n
    let a := lrBin l.lrec
    let v := s.meet [(a, binHeader)]
    let h := v.read a binHeader
    let size := fieldLE h.1 8 4
    let z := v.meet [(a + binHeader, size)]
    let c := z.read (a + binHeader) size
    let ns := s.waitingIn l
    let u := z.readMark a (binHeader + size)
    x.launch = some y → s.launchOf y.id = some l →
    (s.unitsOn && x.run == .loading && !x.disabled && s.awake (regionOf n)) = true →
      (l.accepted = true → exec (.binaryLoad n) s = .next (s.setStrand n { x with run := .running }))
      ∧ (l.accepted = false → a % 64 = 0 → a + binHeader + size ≤ 0xF000000000 → size ≤ 65536 →
          ((s.gate (.binaryLoad n) [(a, binHeader)] []).isNone && (v.gate (.binaryLoad n) [(a, binHeader + size)] []).isNone) = true →
          (u.refusal ns h.1 c.1 (h.2 || c.2) = 0 →
            exec (.binaryLoad n) s = .next ((ns.foldl (fun s m => s.setUp m y h.1 c.1) (u.modLaunch l.id fun l =>
              { l with accepted := true, codehash := (h.1.drop 0x20).take 32, profile := fieldLE h.1 0x10 8 })).modStrand n
                fun x => { x with run := .running }))
          ∧ (u.refusal ns h.1 c.1 (h.2 || c.2) ≠ 0 →
            exec (.binaryLoad n) s = .next (u.refuseLaunch l (u.refusal ns h.1 c.1 (h.2 || c.2)))))
      ∧ ∀ (h code : List Byte) (ns : List StrandId) (bad : Bool),
        let sects := ns.map fun m => (m, sectOf h m)
        let claims := sects.flatMap fun o => claimsOf o.1 o.2
        let held := s.runningSects
        let why := s.refusal ns h code bad
        let fine (m : StrandId) (x : List Byte) : Prop := fieldLE x 0 1 ≤ 16 ∧ fieldLE x 1 1 ≤ 16 ∧ fieldLE x 2 2 ≤ 256
          ∧ fieldLE x 4 4 % 2 ^ 16 = 0 ∧ fieldLE x 8 4 % 64 = 0 ∧ fieldLE x 0x10 4 % 64 = 0
          ∧ (∀ p ∈ sectParts x, fld p 4 2 = 2 ∨ (fld p 4 2 = 1 ∧ fld p 6 2 < 2) ∨ (fld p 4 2 = 0 ∧ fld p 6 2 = 0))
          ∧ ((sectParts x).map fun p => fld p 0 8).Pairwise (· ≠ ·)
          ∧ (∀ i < fieldLE x 1 1, fieldLE x (0x28 + 2 * i) 2 < 2 ^ fieldLE x 0 1 ∧ sectPset x i ≠ []
              ∧ ∀ p ∈ sectPset x i, fld p 4 2 = fld ((sectPset x i).headD 0) 4 2)
          ∧ fieldLE x 0x48 2 < 2 ^ fieldLE x 1 1 ∧ allZero ((x.drop 0x4A).take 54) = true ∧ x = sectOf h m
        let binary : Prop := bad = false ∧ fieldLE h 0 4 = 0x3154434F ∧ fieldLE h 4 2 = 1 ∧ fieldLE h 6 2 = 0
          ∧ fieldLE h 8 4 % 8 = 0 ∧ 8 ≤ fieldLE h 8 4 ∧ fieldLE h 8 4 ≤ 65536 ∧ fieldLE h 0xC 4 % 8 = 0
          ∧ fieldLE h 0xC 4 < fieldLE h 8 4 ∧ fieldLE h 0x10 8 = s.mgt.profile.toNat ∧ fieldLE h 0x18 8 % 32 = 0
          ∧ fieldLE h 0x18 8 < 2 ^ 42 ∧ place (fieldLE h 0x18 8) ≠ .reserved ∧ sha256 code = (h.drop 0x20).take 32
          ∧ ∀ o ∈ sects, fine o.1 o.2
        let map : Prop := (∀ c ∈ claims, let b := s.block (fin128 c.1)
            (b.parts.toList.getD c.2.2 {}).owner = none
              ∧ ((∃ p ∈ b.parts.toList, p.owner ≠ none) → modeBits b.mode = c.2.1)
              ∧ ∀ d ∈ claims, c.1 = d.1 → c.2.1 = d.2.1)
          ∧ claims.Pairwise (· ≠ ·)
        let areas : Prop := ∀ o ∈ sects, fieldLE o.2 8 4 + fieldLE o.2 0xC 4 ≤ scratchSize
          ∧ fieldLE o.2 0x10 4 + fieldLE o.2 0x14 4 ≤ basinSize
          ∧ ∀ p ∈ held, ∀ a ∈ [sectArea p.1 p.2 false, sectArea p.1 p.2 true],
              ∀ c ∈ [sectArea o.1 o.2 false, sectArea o.1 o.2 true], overlap a c = false
        let shares : Prop := ∀ o ∈ sects,
          (((held ++ sects).filter fun p => regionOf p.1 == regionOf o.1).map fun p => fieldLE p.2 2 2).sum ≤ 256
          ∧ ∀ i < fieldLE o.2 1 1, bitAt (fieldLE o.2 0x48 2) i = true →
              ∀ p ∈ sectPset o.2 i, 64 / 2 ^ fld p 4 2 ≤ fieldLE o.2 2 2
        let slots : Prop := ∀ o ∈ sects, ∀ i < 32, bitAt (fieldLE o.2 4 4) i = true →
          ∀ p ∈ held ++ sects.filter (fun p => p.1 != o.1), regionOf p.1 = regionOf o.1 → bitAt (fieldLE p.2 4 4) i = false
        let vsus : Prop := ∀ o ∈ sects, (s.vsu (regionFin o.1)).disabled = false
        (why = 2 ↔ ¬binary) ∧ (binary → (why = 3 ↔ ¬map)) ∧ (binary → map → (why = 4 ↔ ¬areas))
          ∧ (binary → map → areas → (why = 5 ↔ ¬shares)) ∧ (binary → map → areas → shares → (why = 6 ↔ ¬slots))
          ∧ (binary → map → areas → shares → slots → (why = 7 ↔ ¬vsus) ∧ (why = 0 ↔ vsus))
          ∧ (∀ m x, (m, x) ∈ held ↔ (s.strand m).run ≠ .faulted ∧ x ≠ [] ∧ ∃ y, (s.strand m).launch = some y ∧ y.sect = x)

/-- R225 to R227: the oldest completion record for a queue with room goes to its slot TAIL with the current PHASE;
TAIL and PHASE move and an enabled vector is sent. R164, R224: a LAUNCHIF that waits puts its record in a FEED
queue's ring and its strand goes on; aimed at any other queue it leaves the ring alone, and a BADQUEUE completion is
due. u is the state once the QE has read the entry (R207). -/
def Obligations.RecordsWritten : Prop :=
  ∀ (s : State),
    (∀ (cq : QueueId) (r : CRec),
      let q := cq.val
      let x := s.ent q
      let a := x.slot x.tail
      let u := s.meetEnt q
      s.qe.records.find? (fun r => r.cq == q) = some r →
      (s.unitsOn && !s.qeStops (.completionRecordWrite cq) && s.qe.host.isNone && s.cqOn q && !u.entBad q && x.held < x.size
          && !x.host && (s.gate (.completionRecordWrite cq) [(s.entAddr q, 64)] [(s.entAddr q, 64)]).isNone
          && (u.gate (.completionRecordWrite cq) [] [(a, x.recSize)]).isNone) = true →
        exec (.completionRecordWrite cq) s = .next (({ u with fresh := s.fresh + 1 }.write a
          (recBytes s.nvm.aliasKey r x.phase x.recSize s.fresh) false).recordWritten q))
    ∧ (∀ (n : StrandId) (q : Nat) (bs : List Byte) (bad : Bool) (pd : Nat),
        let x := s.ent q
        let a := x.slot x.tail
        let u := if s.queueOn q then s.meetEnt q else s
        (s.strand n).wait = .launchif q bs bad pd → (s.going n && !s.qeStopped && s.qe.host.isNone && !u.entBad q
            && (!s.queueOn q || (s.gate (.launchifSubmit n) [(s.entAddr q, 64)] [(s.entAddr q, 64)]).isNone)) = true →
          ((s.queueOn q && x.type == 1 && x.feed && x.held < x.size && !x.host
              && (u.gate (.launchifSubmit n) [] [(a, 64)]).isNone) = true →
            exec (.launchifSubmit n) s = .next ((u.write a bs bad).launchPut q n pd))
          ∧ ((!s.queueOn q || x.type != 1 || !x.feed) = true →
            exec (.launchifSubmit n) s = .next ((u.badQueue q bs).proceed n fun y => y.setPred pd true)))

/-- R217: an SE base or size register takes its value, low bits of its alignment dropped (log entry 31, DEDUCED), while no
session is open and every pool page is free; else, with a session open or fewer free pages than SE_POOLPAGES, the write is
refused with code 6. That OPEN and CLOSE leave both page counts 0 is log entry 68, DEDUCED. R217, R229, R232: INITPOOL puts every page of
the pool on the free list; OPEN opens a closed, valid session with an empty directory; CLOSE frees the pages of a
session of which none is pinned. v is the state once the SE has read the session's entry, w once it has read its directory
(R207). -/
def Obligations.SessionEngine : Prop :=
  (∀ (s : State) (r : SeReg) (v : Word64), s.fabricOn = true →
      let e := s.se
      let al (k : Nat) : Word64 := BitVec.ofNat 64 (v.toNat / k * k)
      (e.openCount = 0 → e.poolpages.toNat ≤ e.free →
        exec (.seBaseWrite r v) s = .next (s.setSe (match r with
          | .stbase => { e with stbase := al 0x4000000 }
          | .poolbase => { e with poolbase := al 0x10000 }
          | .poolpages => { e with poolpages := BitVec.ofNat 24 v.toNat }
          | .sumbase => { e with sumbase := al 64 }
          | .spillbase => { e with spillbase := al 0x10000 }
          | .spillslots => { e with spillslots := BitVec.ofNat 24 v.toNat, slotFreed := [], slotNext := 0 }
          | .spillsumbase => { e with spillsumbase := al 64 })))
      ∧ (e.openCount ≠ 0 ∨ e.free < e.poolpages.toNat →
          exec (.seBaseWrite r v) s = .next (s.setSe { e with state := 3, err := 6 })))
  ∧ (∀ (s : State) (q : SessionId), (s.fabricOn && s.se.state != 1) = true →
      let u (op : Nat) := s.seCmd op q.val
      let v (op : Nat) := (u op).meetSess q.val
      let e := (v 2).sessEnt q.val
      let ent := (e.addr, 64)
      let dir := (e.dir, 4 * e.nidx)
      let ready (c : Instr) (op : Nat) : Bool := !(u op).seWaits c && ((u op).gate c [ent] []).isNone
      ((s.seCmd 1 s.se.session.toNat).seWaits .initpool = false → s.se.limit ≤ s.se.free → ∃ t, exec .initpool s = .next t ∧ t.se.freed = [] ∧ t.se.next = 0
          ∧ t.se.limit = s.se.poolpages.toNat ∧ t.se.state = 2 ∧ t.mem = s.mem)
      ∧ ((ready (.openS q) 2 && !e.bad && e.state == 0 && 1 ≤ e.nidx && e.nidx ≤ 65536 && e.dir % 64 == 0 && e.dir + 4 * e.nidx ≤ 0xF000000000
            && ((v 2).gate (.openS q) [] [ent, dir]).isNone) = true →
          let t := (((v 2).write e.dir (List.replicate (4 * e.nidx) 0) false).write e.addr [1] false).setCounts e 0 0
          exec (.openS q) s = .next (t.setSe { t.se with openCount := t.se.openCount + 1, state := 2, err := 0 }))
      ∧ (let e := (v 3).sessEnt q.val
         let dir := (e.dir, 4 * e.nidx)
         let w := (v 3).meet [dir]
         (ready (.closeS q) 3 && !e.bad && e.state == 1 && ((v 3).gate (.closeS q) [dir] []).isNone
            && !(w.heldPages e).any (fun d => !d.spilled && s.se.pins.any fun p => p.page == d.loc)
            && (w.gate (.closeS q) [] [ent]).isNone) = true →
          let v := w.logBadEntries q.val e
          let se := (w.heldPages e).foldl
            (fun se d => if d.spilled then se.freeSlot d.loc else se.freePage (d.loc - se.firstPage)) v.se
          exec (.closeS q) s = .next (((v.setSe { se with openCount := se.openCount - 1 }).write e.addr [0] false).setCounts
            e 0 0).seDone))

/-! ### Power, functions and arbiters (07, 10, 12, 15) -/

/-- R308, Table 15.1: the commands of a region's power states. GO while BUSY is 1 is ignored; a defect region takes
only PS4; PS3 and PS4 need an idle region; a legal command from another state starts the transition. The five rows
name the target. R309, R310, R311: a transition that ends leaves the region at its goal, cold when its plane lost or
regains its power; SELFREF takes the region's 32 channels into self-refresh and back. R326, R327: a self-test starts
on an idle region that is awake, or on a channel that no online segment uses; its end leaves a cold region, PASS or
FAIL in PWR_BIST, and a failed region held in PS4 as DEFECT. R314: TJ_MAX takes the hottest of the 16 readings, and
with the limits below their thresholds a sample does nothing else; at TJ_CRIT the device stops: fatal, every region in
the emergency state with its channels in self-refresh. That TARGET of a write with BUSY 1 is stored and starts nothing
(log entry 98, DEDUCED), and when a region's sequencer reads its mailbox (log entry 134, DESIGN CHOICE), are the
model's. -/
def Obligations.RegionPower : Prop :=
  (∀ (s : State) (r : RegionId) (g : Fin 5),
      let c := [Instr.setPs0 r, .setPs1 r, .setPs2 r, .setPs3 r, .setPs4 r][g.val]
      let p := s.region r.val
      let set (q : Pwr) : State := s.setPwr r { q with target := BitVec.ofNat 3 g.val }
      s.fabricOn = true →
        (p.busy = true → exec c s = .next (set p))
        ∧ (p.busy = false → p.selfref = p.selfrefStat →
          (p.defect = true → g.val < 4 → exec c s = .next (set { p with err := 3 }))
          ∧ ((!p.defect || g.val == 4) = true → 3 ≤ g.val → s.regionIdle r = false →
              exec c s = .next (set { p with err := 1 }))
          ∧ ((!p.defect || g.val == 4) = true → (g.val < 3 || s.regionIdle r) = true →
              (p.state = g.val → exec c s = .next (set { p with err := 0 }))
              ∧ (p.state ≠ g.val → exec c s = .next (set { p with err := 0, busy := true, goal := g.val })))))
  ∧ (∀ (s : State) (r : RegionId),
      let p := s.region r.val
      (s.unitsOn = true → p.busy = true →
        let u := if p.goal = 4 ∨ p.state = 4 then s.coldRegion r else s
        let t := (u.setPwr r { p with state := p.goal, busy := false }).sequencerReads r
        exec (.powerTransitionComplete r) s = .next (if 3 ≤ p.state ∧ p.goal ≤ 2 then t.unblockRegion r else t))
      ∧ (s.fabricOn = true → p.busy = false →
        (∃ t, exec (.selfRefreshEntry r) s = .next t ∧ (t.region r.val).selfref = true ∧ (t.region r.val).selfrefStat = true
          ∧ (∀ m ∈ regionMcs r, (s.mc m).resetting = false → (t.mc m).selfref = 0xF) ∧ t.mem = s.mem)
        ∧ exec (.selfRefreshExit r) s = .next (((s.setSelfref r 0).setPwr r { p with selfref := false, selfrefStat := false }).rerun)))
  ∧ (∀ (s : State) (r : RegionId) (c : ChannelId),
      (s.fabricOn = true → s.power.bistState ≠ 1 →
        ((s.regionIdle r && !s.sleeping r.val) = true →
          ∃ t, exec (.regionBist r) s = .next t ∧ (t.region r.val).bist = true ∧ t.power.bistState = 1 ∧ t.power.bistKind = 1
            ∧ t.power.bistTarget = BitVec.ofNat 8 r.val ∧ t.mem = s.mem)
        ∧ (s.channelUsed c.val = false →
          ∃ t, exec (.memoryBist c) s = .next t ∧ t.power.bistChannel = some c.val ∧ t.power.bistState = 1
            ∧ t.power.bistKind = 2 ∧ t.mem = s.mem))
      ∧ (s.unitsOn = true → (s.region r.val).bist = true → s.power.bistState = 1 →
          exec (.bistComplete (.region r) true) s = .next ((((s.coldRegion r).setPwr r { s.region r.val with bist := false }).bistStat
            2 0).unblockRegion r)
          ∧ ∃ t, exec (.bistComplete (.region r) false) s = .next t ∧ (t.region r.val).defect = true
              ∧ (t.region r.val).state = 4 ∧ t.power.bistState = 3 ∧ t.power.bistErr = 0x10)
      ∧ (s.unitsOn = true → s.power.bistChannel = some c.val →
          exec (.bistComplete (.channel c) true) s = .next (s.bistStat 2 0)))
  ∧ (∀ (s : State) (tj : List Byte), tj.length = 16 → s.chipOn = true →
      let h := hottest tj
      (h.1 < s.power.tjWarn.toNat → h.1 < s.power.tjCrit.toNat → s.power.warnHeld = false →
        ∃ t, exec (.thermalSample tj) s = .next t
          ∧ t = { s with power := { s.power with tjMax := BitVec.ofNat 8 h.1, sensor := h.2 } })
      ∧ (s.power.tjCrit.toNat ≤ h.1 → s.power.emergency = false →
          ∃ t : State, exec (.thermalSample tj) s = .next t.rerun ∧ t.errlog.fatal = true ∧ t.power.emergency = true
            ∧ ∀ r : RegionId, (t.region r.val).state = 5 ∧ (t.region r.val).selfrefStat = true))

/-- R315 to R318, Table 15.6: with no command in progress a legal FUNC_RESET, FUNC_DISABLE or FUNC_ENABLE begins and
FUNC_STAT reads busy; one that Table 15.6 refuses changes nothing but the registers of the command, which read STATE
3 and the code. A reset waits for the function's boundary. R316: the end of a command: a reset that has taken place
and whose writes are answered, or a disable or an enable. The ids are those of Table 15.4; any other is reserved: its
commands are refused with code 2, and its FUNC_STATE reads 0. The last clause gives the codes their conditions; that
FATAL comes first and then the lowest that holds is log entry 44, DEDUCED. -/
def Obligations.FunctionCommands : Prop :=
  (∀ (s : State) (f : Byte) (g : Fn), (s.hostOn && s.func.state != 1) = true → fnOf f.toNat = some g →
      let u := s.setFunc 1 0 f.toNat none false
      let v := s.setFunc 1 0 f.toNat (some f) false
      (s.fnRefusal .reset f.toNat = 0 →
        (v.atBoundary g = true → v.resetAsk g = none → exec (.funcReset f) s = .next (v.resetFn g))
        ∧ (v.atBoundary g = false → exec (.funcReset f) s = .next (s.setFunc 1 0 f.toNat (some f) true)))
      ∧ (s.fnRefusal .disable f.toNat = 0 → exec (.funcDisable f) s = .next (u.disableFn g))
      ∧ (s.fnRefusal .enable f.toNat = 0 → exec (.funcEnable f) s = .next (u.enableFn g)))
  ∧ (∀ (s : State) (f : Byte), (s.hostOn && s.func.state != 1) = true → ∀ k, k ≠ 0 →
      (s.fnRefusal .reset f.toNat = k → exec (.funcReset f) s = .next (s.setFunc 3 k f.toNat none false))
      ∧ (s.fnRefusal .disable f.toNat = k → exec (.funcDisable f) s = .next (s.setFunc 3 k f.toNat none false))
      ∧ (s.fnRefusal .enable f.toNat = k → exec (.funcEnable f) s = .next (s.setFunc 3 k f.toNat none false)))
  ∧ (∀ (s : State) (g : Fn), (s.unitsOn && s.func.state == 1) = true → fnOf s.func.fid.toNat = some g →
      let u := s.setFunc 2 0 s.func.fid.toNat none false
      (s.func.resetting = none → exec .funcCommandComplete s = .next u)
      ∧ (∀ b, s.func.resetting = some b → s.func.due = false → s.writesSettled g = true →
          exec .funcCommandComplete s = .next (u.serveFn g)))
  ∧ (∀ f : Byte, let k := f.toNat
      (fnOf k = none ↔ (0x4C ≤ k ∧ k < 0x50) ∨ (0x52 ≤ k ∧ k < 0x60) ∨ (0x68 ≤ k ∧ k < 0x80) ∨ 0xC0 ≤ k)
      ∧ (∀ g, fnOf k = some g → g.code = k)
      ∧ (fnOf k = none → ∀ s : State, s.readWord (0x20100 + 4 * (k / 16)) / 4 ^ (k % 16) % 4 = 0))
  ∧ (∀ (s : State) (c : FnCmd) (f : Nat),
      (s.errlog.fatal = true → s.fnRefusal c f = 5)
      ∧ (s.errlog.fatal = false → fnOf f = none → s.fnRefusal c f = 2)
      ∧ (∀ g, s.errlog.fatal = false → fnOf f = some g →
        let busy : Prop := c ≠ .enable ∧ ((∃ r, g = .vsu r ∧ ∃ n ∈ regionStrands r, s.strandBusy n = true)
          ∨ (g = .se ∧ s.qe.launches ≠ []) ∨ ∃ m k, g = .mc m ∧ s.power.bistChannel = some k ∧ mcOfChannel k = m)
        let wrong : Prop := (c = .enable ∧ s.fnDisabled g = false) ∨ (c = .disable ∧ s.fnFaulted g = true)
        let asleep : Prop := (∃ n, g = .strand n ∧ s.sleeping (regionOf n) = true)
          ∨ (∃ e, g = .engine e ∧ s.sleeping (engRegion e) = true) ∨ ∃ r, g = .vsu r ∧ s.sleeping r.val = true
        (busy → s.fnRefusal c f = 1) ∧ (¬busy → wrong → s.fnRefusal c f = 3) ∧ (¬busy → ¬wrong → asleep → s.fnRefusal c f = 4)
          ∧ (¬busy → ¬wrong → ¬asleep → s.fnRefusal c f = 0)))

/-- Table 15.5, R85: a reset of a strand at its boundary leaves its registers at their reset values (arrival flags
CLOSED), its parts owned by none, with their group registers clear and no stationary set, and its mailboxes empty. -/
def Obligations.StrandReset : Prop :=
  ∀ (s : State) (n : StrandId), (s.hostOn && s.func.state != 1) = true →
    s.fnRefusal .reset n.val = 0 → s.atBoundary (.strand n) = true →
      ∃ t, exec (.funcReset (BitVec.ofNat 8 n.val)) s = .next t ∧ t.strand n = {}
        ∧ (∀ b p, (t.part b p).owner ≠ some n) ∧ (∀ b p, (s.part b p).owner = some n → t.part b p = {}) ∧ (t.h2s n).full = false ∧ (t.s2h n).full = false
        ∧ (∀ m, m ≠ n → t.strand m = s.strand m)

/-- R131, R137, R138: a commit makes every clamp shadow live; a legal library load turns busy, and its end puts the
entry's image in the slot's shadow bank, or with SWAP in the live one. R204: an invalidation removes one entry of
the weight-digest table, or every entry. -/
def Obligations.VsuAndDigestRegisters : Prop :=
  (∀ (s : State) (r : RegionId) (i : Fin 32) (idx : Byte),
      (s.fabricOn = true → s.sleeping r.val = false →
        exec (.vsuCommit r) s = .next (s.setVsu r { s.vsu r with
          slots := (s.vsu r).slots.map fun t => { t with clamp := t.clampShadow } })
        ∧ ((s.vsu r).libState ≠ 1 →
          (s.libRefusal r i false = 0 → exec (.vsuLibLoad r i idx) s = .next (s.setVsu r { s.vsu r with
            libSlot := BitVec.ofNat 5 i.val, libIdx := idx, libSwap := false, libState := 1, libErr := 0,
            libJob := some (i.val, idx.toNat, false) }))
          ∧ (s.libRefusal r i true = 0 → exec (.vsuLibLoadSwap r i idx) s = .next (s.setVsu r { s.vsu r with
            libSlot := BitVec.ofNat 5 i.val, libIdx := idx, libSwap := true, libState := 1, libErr := 0,
            libJob := some (i.val, idx.toNat, true) }))))
      ∧ (∀ k j swap img, (s.vsu r).libJob = some (k, j, swap) → (s.unitsOn && s.mcOn && (s.vsu r).libState == 1) = true →
          s.nvm.libImage j = .ok img →
          let v := (s.vsu r).modSlot k fun t => { t with shadow := some img }
          let v := if swap then v.modSlot k swapSlot else v
          exec (.vsuLibLoadComplete r) s = .next (s.setVsu r { v with libState := 2, libErr := 0, libJob := none })))
  ∧ (∀ (s : State) (i : Fin 4096), s.hostOn = true →
      (∃ t, exec (.wdtInvalidateEntry i) s = .next t ∧ (∀ p ∈ t.wdt.entries, p.1 ≠ i.val)
        ∧ (∀ p ∈ s.wdt.entries, p.1 ≠ i.val → p ∈ t.wdt.entries) ∧ t.mem = s.mem)
      ∧ (∃ t, exec .wdtInvalidateAll s = .next t ∧ t.wdt.entries = [] ∧ t.mem = s.mem))

/-- R241 to R244: a free point grants the pending requester with the most credit, the lower index of equals, and
charges its cost (Table 12.2); when every pending requester has no credit a new period starts first. An owner that
holds a lock is served before any decision, and the others read the gap hint 0xFF. R247: at a decision every other
requester gets the hint h, the least with E + 1 ≤ 2^h. A commit is live from the next period's start. An SRAM error of
the structure behind the arbiter is counted, or fatal (log entry 131, DESIGN CHOICE). R245, R246: the watchdog of a
grant releases it and counts a bite; what the owner had in progress is faulted or abandoned. That a commit reaches
each point of a region arbiter at that point's own next period is the model's reading (log entry 34, DEDUCED). -/
def Obligations.Arbiters : Prop :=
  (∀ (s : State) (a : ArbId) (pt : Fin 12) (reqs : List ArbReq), s.chipOn = true → pt.val < points a.val →
      let x := s.arb a.val
      let live := reqs.filter fun r => r.index.val < requesters a.val
      let pend := (live.map fun r => r.index.val).eraseDups
      let d := x.decide pt.val pend
      (∀ i r, (x.point pt.val).owner.filter (·.lock) = none → d.2 = some i → live.find? (fun r => r.index.val == i) = some r →
        let hints := (gapHints (d.1.point pt.val).credits pend).filter fun h => h.1 != i
        r.sram = .clean → exec (.arbiterGrant a pt reqs) s
          = .next ((s.setArb a.val ((d.1.setHints pt.val hints).grant a.val pt.val r)).egressGo a))
      ∧ (∀ o r, (x.point pt.val).owner = some o → o.lock = true → live.find? (fun r => r.index.val == o.index.val) = some r →
        r.sram = .clean → exec (.arbiterGrant a pt reqs) s
          = .next ((s.setArb a.val ((x.setHints pt.val (lockedHints o.index.val pend)).grant a.val pt.val r)).egressGo a))
      ∧ (∀ t : State, s.arbGrant a pt reqs = (t, .corrected) →
        exec (.arbiterGrant a pt reqs) s = .next (State.egressGo { t with errlog := t.errlog.counted 0 } a))
      ∧ (∀ t : State, s.arbGrant a pt reqs = (t, .uncorrected) →
        exec (.arbiterGrant a pt reqs) s = .next (t.fatalNow 3 0xFF 0x16 0 (Config.sramStructure a.val).toNat))
      ∧ (∀ i, d.2 = some i → i ∈ live.map (fun r => r.index.val) ∧ ∀ j ∈ live.map (fun r => r.index.val),
          (d.1.point pt.val).credits.getD j 0 ≤ (d.1.point pt.val).credits.getD i 0
            ∧ ((d.1.point pt.val).credits.getD j 0 = (d.1.point pt.val).credits.getD i 0 → i ≤ j))
      ∧ (pend ≠ [] → (∀ i ∈ pend, (x.point pt.val).credits.getD i 0 = 0) → d.1 = x.startPeriod pt.val)
      ∧ ((∃ i ∈ pend, (x.point pt.val).credits.getD i 0 ≠ 0) → d.1 = x)
      ∧ exec (.creditPeriodEnd a pt) s = .next (s.setArb a.val (x.startPeriod pt.val))
      ∧ (s.hostOn = true → exec (.arbCommit a) s = .next (s.setArb a.val { x with pending := true }))
      ∧ (x.pending = true → (x.startPeriod pt.val).live = x.shadow ∧ (x.startPeriod pt.val).pending = false))
  ∧ (∀ e, e < 2 ^ 32 → e + 1 ≤ 2 ^ hintOf e ∧ ∀ h, e + 1 ≤ 2 ^ h → hintOf e ≤ h)
  ∧ (∀ owner pend, ∀ h ∈ lockedHints owner pend, h.2 = 0xFF ∧ h.1 ≠ owner)
  ∧ (∀ (s : State) (a : ArbId) (pt : Fin 12) (o : ArbReq), s.unitsOn = true → pt.val < points a.val →
      ((s.arb a.val).point pt.val).owner = some o →
        let x := s.arb a.val
        let y := { x.setPoint pt.val { x.point pt.val with owner := none } with bites := satAdd x.bites 1 }
        let u := s.setArb a.val y
        let u := if o.len = 0 then u else u.poisonLines o.addr o.len
        let level := if a.val < 14 then 3 else 2
        (∀ f, ownerOf a o = .fn f → exec (.watchdogBite a pt) s
          = .next ((((u.logEv 2 level f.code 0x0A 0 (a.val + o.index.val * 256)).abandonEgress a f).watchdogFault f).egressGo a))
        ∧ (ownerOf a o = .host → exec (.watchdogBite a pt) s
          = .next ((u.logEv 1 level 0xFF 0x0A 0 (a.val + o.index.val * 256)).abandonHost (o.addr / 64) o.len))
        ∧ (ownerOf a o = .scrub → exec (.watchdogBite a pt) s
          = .next ((u.logEv 1 level 0xFF 0x0A 0 (a.val + o.index.val * 256)).abandonScrub o.addr))
        ∧ (ownerOf a o = .inbound → exec (.watchdogBite a pt) s
          = .next ((u.logEv 1 level 0xFF 0x0A 0 (a.val + o.index.val * 256)).abandonInbound o.addr))
        ∧ (∀ p, ownerOf a o = .forwarded p → exec (.watchdogBite a pt) s
          = .next (((u.logEv 1 level 0xFF 0x0A 0 (a.val + o.index.val * 256)).abandonFlow (fin12 (a.val - 2)) p).egressGo a))
        ∧ (ownerOf a o = .coherence ∨ ownerOf a o = .mc → exec (.watchdogBite a pt) s
          = .next (u.fatalNow level 0xFF 0x0A 0 (a.val + o.index.val * 256))))

/-! ### Col (13) -/

/-- R280, R281: how a port's state changes. Enabled, it goes from DISABLED to DOWN; a training ends in UP, its failure
in DOWN (a retrain's at the third); loss of signal and the disable leave the link; both requests and empty buffers
lead to LPI, and either end's release out of it. Leaving the link empties the retry and receive buffers, with SEQ at
0. What leaves the buffers of a port that is disabled, and the flits of it that wait at other ports, are the model's
reading (log entry 38, DEDUCED): R280 speaks of a port that enters DOWN. -/
def Obligations.ColPorts : Prop :=
  ∀ (s : State) (p : PortId),
    let x := s.port p
    (s.hostOn = true →
      (x.state = .disabled → s.errlog.fatal = false → s.board.chipBistLeft = false →
        exec (.colPortEnable p) s = .next (s.setPort p { x with enable := true, state := .down }))
      ∧ (x.state ≠ .disabled →
        exec (.colPortDisable p) s = .next ((s.setPort p { x with enable := false }).leaveLink p .disabled))
      ∧ (x.state = .up → x.lpi = false →
        exec (.lpiRequest p) s = .next ((s.setPort p { x with lpi := true }).sendCtrl p [2]))
      ∧ (x.state = .lpi →
        exec (.lpiRelease p) s = .next ((s.setPort p { x with lpi := false, state := .up }).pump p))
      ∧ (x.usable = true → exec (.retrain p) s = .next (s.setPort p { x with
          state := .training, retraining := true, failed := 0, nakCount := 0,
          retrains := BitVec.ofNat 8 (satAddN 8 x.retrains.toNat 1) })))
    ∧ (s.chipOn = true →
      (x.state = .up → x.lpi = false → exec (.lpiReq p) s = .next (s.setPort p { x with partnerLpi := true }))
      ∧ (x.state = .up → x.lpi = true →
        exec (.lpiReq p) s = .next (((s.setPort p { x with partnerLpi := true }).sendCtrl p [3]).tryLpi p))
      ∧ (x.state = .up → x.lpi = true → x.retry = [] → x.waiting = [] → x.discarding = false →
        exec (.lpiAck p) s = .next (s.setPort p { x with partnerLpi := true, state := .lpi }))
      ∧ (x.state = .lpi →
        exec (.partnerLpiExit p) s = .next ((s.setPort p { x with partnerLpi := false, state := .up }).pump p)))
    ∧ (s.unitsOn = true →
      (x.state = .down →
        exec (.trainingAttempt p) s = .next (s.setPort p { x with state := .training, retraining := false }))
      ∧ (∀ (modid : BitVec 12) (port : BitVec 4) (profile : Word64), x.state = .training → x.retraining = false →
        let u := (s.setPort p { x with
          state := .up, retrains := 0, failed := 0, retraining := false, partnerId := modid, partnerPort := port,
          partnerValid := true, partnerProfile := profile, mismatch := profile != s.mgt.profile }).sendInfo p
        exec (.trainingComplete p modid port profile) s
          = .next (State.pump (if (u.port p).lpi = true then u.sendCtrl p [2] else u) p))
      ∧ (x.state = .training → x.retraining = false → exec (.trainingTimeout p) s = .next (s.setPort p { x with state := .down }))
      ∧ (x.state = .training → x.retraining = true → x.failed < 2 → ∃ t, exec (.trainingTimeout p) s = .next t
          ∧ (t.port p).state = .training ∧ (t.port p).retry = x.retry ∧ (t.port p).failed = x.failed + 1)
      ∧ (x.state = .training → x.retraining = true → 2 ≤ x.failed →
          exec (.trainingTimeout p) s = .next (s.leaveLink p .down))
      ∧ (x.usable = true → exec (.lossOfSignal p) s = .next (s.leaveLink p .down)))
    ∧ (∀ st, x.waiting = [] →
        let t := s.leaveLink p st
        (t.port p).state = st ∧ (t.port p).retry = [] ∧ (t.port p).sendSeq = 0 ∧ (t.port p).expSeq = 0
          ∧ (t.port p).rtLive = x.rtLive ∧ t.mem = s.mem
          ∧ (∀ q : PortId, (t.port q).waiting = (s.port q).waiting.filter fun f => !f.receivedBy p))

/-- R266 to R268, R273, R274: the receiver and the sender of a port that is UP. A flit that is good and has the SEQ
expected is taken (delivered to this module, or forwarded) and answered by an ACK in an IDLE flit; the first other one
is counted and answered by a NAK in one; a good IDLE flit only acknowledges, and may let the port enter LPI (R281). Codewords that the FEC corrected are counted (R283). A NAK sends again from the SEQ it names, credits return, and INFO gives the partner's values.
-/
def Obligations.ColFlits : Prop :=
  ∀ (s : State) (p : PortId),
    let x := s.port p
    x.state = .up →
      (∀ (bs : List Byte) (fecBad : Bool) (fixed : Nat), bs.length = 256 → s.unitsOn = true →
        let a := arriving p bs fecBad
        let w := s.setPort p { x with fecCorr := satAdd x.fecCorr fixed }
        let u := w.onAck p a
        let y := u.port p
        let data : Prop := a.kind = 1 ∨ a.kind = 2
        (a.bad = false → data → a.seq = y.expSeq →
          let v := ((u.setPort p { y with expSeq := (y.expSeq + 1) % 1024, discarding := false }).takeFlit p a.flit).loopIn
          exec (.flitReceive p bs ⟨fecBad, fixed⟩) s = .next (v.send (.flit p (idleBytes false (v.port p).ack))))
        ∧ (a.bad = false → data → a.seq ≠ y.expSeq → exec (.flitReceive p bs ⟨fecBad, fixed⟩) s = .next (u.rejectFlit p false))
        ∧ (a.bad = true → data → exec (.flitReceive p bs ⟨fecBad, fixed⟩) s = .next (w.rejectFlit p fecBad))
        ∧ (a.bad = true → ¬data → exec (.flitReceive p bs ⟨fecBad, fixed⟩) s = .next w)
        ∧ (a.bad = false → ¬data → exec (.flitReceive p bs ⟨fecBad, fixed⟩) s = .next (u.tryLpi p)))
      ∧ (∀ fec, x.discarding = false →
          s.rejectFlit p fec = (s.setPort p (if fec = true
            then { x with discarding := true, fecUncorr := satAdd x.fecUncorr 1 }
            else { x with discarding := true, crcErr := satAdd x.crcErr 1 })).send (.flit p (idleBytes true x.expSeq)))
      ∧ (s.chipOn = true →
        (∀ q : BitVec 10, exec (.nak p q) s = .next (((s.setPort p { x with
            replay := satAdd x.replay 1, nakSeq := q.toNat, nakCount := if x.nakSeq = q.toNat then x.nakCount + 1 else 1,
            retry := if x.sendSeq = q.toNat then [] else ackTo q.toNat x.retry }).resend p).pump p))
        ∧ (x.discarding = true → exec (.nakRepeat p) s = .next (s.send (.flit p (idleBytes true x.expSeq))))
        ∧ (16 ≤ x.nakCount → exec (.nakLimitRetrain p) s = .next (s.retrain p))
        ∧ ((!x.disabledFn && decide (x.retry.length < 512) && x.owed.toList.any (fun k => k != 0)) = true →
            exec (.creditReturn p) s
              = .next ((s.setPort p { x with owed := Vector.replicate 8 0 }).sendCtrl p (1 :: x.owed.toList)))
        ∧ (∀ (vc : Fin 8) (k : Nat), exec (.credit p vc k) s
            = .next ((s.setPort p { x with credits := x.credits.set vc (min 32 (x.credits[vc] + k)) }).pump p))
        ∧ (∀ (modid : BitVec 12) (port : BitVec 4) (profile : Word64), exec (.info p modid port profile) s
            = .next (s.setPort p { x with
                partnerId := modid, partnerPort := port, partnerValid := true, partnerProfile := profile,
                mismatch := profile != s.mgt.profile })))

/-- R248, R271, R272, R276: messages delivered to this module. The last fragment of a burst writes or adds the whole
burst and is answered by WRACK (UNREACH where it does not reach); a fragment before it waits; a read is answered
with its bytes, once the error code has found what it finds there (R207); the answers of peers end the engine's transfer, or
fault it; an arrival acts on its flag. A burst still incomplete after its time is discarded with the fragments of it that wait, and
logged. -/
def Obligations.ColMessages : Prop :=
  ∀ (s : State) (src : BitVec 12) (m : ColMsg), s.unitsOn = true →
    let e := tagEngine m.tag
    let k := m.tag % 2048
    let rest := s.col.bursts.filter fun x => !sameBurst src.toNat m.tag x
    let keep (bs : List Assembly) : State := { s with col := { s.col with bursts := bs } }
    let burst (atom : Bool) : Assembly := ((s.col.bursts.find? (sameBurst src.toNat m.tag)).getD (newBurst src m atom)).add m
    (s.colHeld src = false →
      (∀ c ∈ [(Instr.write src m, false), (Instr.atomadd src m, true)],
        let b := burst c.2
        (b.complete = false → exec c.1 s = .next (keep (rest ++ [b])).loopIn)
        ∧ (b.complete = true → s.engReach b.addr b.len = false →
            exec c.1 s = .next ((keep rest).refuseMsg src b.tag b.addr).loopIn)
        ∧ (b.complete = true → b.atom = c.2 → s.engReach b.addr b.len = true → (b.atom && isBasin b.addr) = false →
            (s.gateWith true c.1 (if b.atom then [(b.addr, b.len)] else []) [(b.addr, b.len)]).isNone = true →
            exec c.1 s = .next (State.respond (if b.atom = true then (keep rest).atomApply b.addr b.bytes b.poison
              else ((keep rest).write b.addr b.bytes false).poisonMarked b.addr b.len b.poison) src.toNat
                (s.regionAt b.addr) (simpleMsg mtWrack b.tag 0 0)).loopIn))
      ∧ exec (.colArrive src m) s = .next (s.arrival (fin32 (fld m.addr 6 5)) (fld m.addr 0 6)).loopIn)
    ∧ (s.engReach m.addr (m.lenm1 + 1) = true → (s.gate (.readreq src m) [(m.addr, m.lenm1 + 1)] []).isNone = true →
        ∃ r : ColMsg, exec (.readreq src m) s
            = .next (((s.meet [(m.addr, m.lenm1 + 1)]).readMark m.addr (m.lenm1 + 1)).respond src.toNat (s.regionAt m.addr) r).loopIn
          ∧ r.mtype = mtReadRsp ∧ r.tag = m.tag ∧ r.data = memGetN s.mem m.addr (m.lenm1 + 1))
    ∧ (s.engReach m.addr (m.lenm1 + 1) = false → exec (.readreq src m) s = .next (s.refuseMsg src m.tag m.addr).loopIn)
    ∧ (∀ q, (s.engine e).peers.find? (fun p => p.tag == k && p.isRead && p.dst == src.toNat) = some q →
        ∃ bad : List Bool, exec (.readrsp src m) s = .next (State.fetchData (if m.blenm1 < m.offset + m.data.length
            then s.modEngine e fun x => { x with peers := x.peers.filter fun q => q.tag != k } else s) e m.data bad
              (m.blenm1 < m.offset + m.data.length)).loopIn)
    ∧ ((s.engine e).peers.any (fun p => p.tag == k && p.dst == src.toNat) = true →
        exec (.wrack src m) s = .next (s.peerDone e k).loopIn)
    ∧ exec (.unreach src m) s = .next (State.loopIn (if (s.engine e).peers.any (fun p => p.tag == k) = true then s.peerLost e k
        else s.engineFault e .address))
    ∧ (∀ (f : EngineId) (tag : BitVec 16), exec (.e2eTimeout f tag) s = .next (s.peerLost f (tag.toNat % 2048)))
    ∧ (∀ (tag : BitVec 16) (b : Assembly), s.burstSoFar src tag.toNat = some b → b.complete = false →
        ∃ t : State, exec (.burstAssemblyTimeout src tag) s = .next (t.logEv 1 3 0xFF 0x0D (stagWord 0 0 b.addr) b.src) ∧ t.mem = s.mem
          ∧ (∀ x ∈ t.col.bursts, x ∈ s.col.bursts ∧ ¬(x.src = src.toNat ∧ x.tag = tag.toNat))
          ∧ ∀ f : ColMsg, f.tag = tag.toNat → Instr.write src f ∉ t.coh.held ∧ Instr.atomadd src f ∉ t.coh.held)

/-- R277, R284, R330: the commits. A port's shadow route table becomes live whole; MODID, the engine classes and the
injection table become live once no engine is within a COPY; the arithmetic profile is refused while a strand runs
or for a value that is not legal, and else becomes live. -/
def Obligations.Commits : Prop :=
  ∀ (s : State), s.hostOn = true →
    let running := s.strands.toList.any fun x => x.run == .loading || x.run == .running
    (∀ p : PortId, exec (.colRtCommit p) s = .next (s.setPort p { s.port p with rtLive := (s.port p).rtShadow }))
    ∧ exec .mgtColCommit s = .next (State.colSettle { s with col := { s.col with pending := true } })
    ∧ ((running || !profileOk s.mgt.profileShadow) = true →
        exec .mgtProfileCommit s = .next { s with mgt := { s.mgt with refused := true } })
    ∧ ((running || !profileOk s.mgt.profileShadow) = false → (∀ p : PortId, (s.port p).state ≠ .up) →
        ∃ t, exec .mgtProfileCommit s = .next t ∧ t.mgt = { s.mgt with profile := s.mgt.profileShadow, refused := false }
          ∧ ∀ p : PortId, t.port p = { s.port p with
              mismatch := (s.port p).partnerValid && (s.port p).partnerProfile != s.mgt.profileShadow })

/-! ### The host interface, resets and start-up (14, 17) -/

/-- R293, R295, R300: a host request of a line that no BISnp covers and whose channel serves. A read returns the 64
bytes with their poison, a write puts the enabled bytes, an invalidation only leaves the snoop filter; each moves the
filter as Table 14.4 says. R297: a request that misses a full set waits for the eviction of its oldest entry. R300:
poison that a write brings is logged and set in the CXL RAS status. An address that the decoder does not hold is
counted and answered with poison, or dropped. The model's readings: the answer with poison holds no bytes (log entry
83, DEDUCED); a request while nothing is committed is counted alike (log entry 84, DEDUCED); which bit of the RAS
status poison sets (log entry 93, PRESUMED); a partial write leaves a half's poison (log entry 111, DEDUCED); an upset lies in a
word until a read meets it (log entry 112, DESIGN CHOICE). -/
def Obligations.HostMemory : Prop :=
  ∀ (s : State) (hpa : Nat), s.memOn = true →
    (∀ o, s.hdmOffset hpa = some o → s.errlog.fatal = false →
      let l := o / 64
      (∀ (mv : Meta), s.offline (64 * l) = false →
        let u := (s.sfRead l mv).meet [(64 * l, 64)]
        let t := (u.readMark (64 * l) 64).send (.hostData (memGetN s.mem (64 * l) 64) (u.read (64 * l) 64).2)
        ((s.hostGate (.memrd hpa mv .clean) l mv false).isNone = true → exec (.memrd hpa mv .clean) s = .next t)
        ∧ ((s.hostGate (.memrddata hpa mv .clean) l mv false).isNone = true → exec (.memrddata hpa mv .clean) s = .next t))
      ∧ (∀ (mv : Meta) (en : BitVec 64) (bs : List Byte) (bad : Bool) (found : EccList), bs.length = 64 → s.offline (64 * l) = false →
          (s.hostGate (.memwr hpa mv en bs ⟨bad, found⟩) l mv (s.writeBack l mv)).isNone = true →
          let t := ((s.sfWrite l mv).strike found).writeEnabled (64 * l) en bs bad
          exec (.memwr hpa mv en bs ⟨bad, found⟩) s
            = .next ((if bad then (t.poisonWritten (64 * l)).rasCorrected 5 else t).send .hostAck))
      ∧ (s.snooped l = false → exec (.meminv hpa) s = .next ((s.sfDrop l).send .hostAck)))
    ∧ (s.hdmOffset hpa = none → ∀ (mv : Meta) (en : BitVec 64) (bs : List Byte) (bad : Bool) (found : EccList), bs.length = 64 →
        exec (.memrd hpa mv .clean) s = .next (s.decoderMiss.send (.hostData [] true))
        ∧ exec (.memrddata hpa mv .clean) s = .next (s.decoderMiss.send (.hostData [] true))
        ∧ exec (.memwr hpa mv en bs ⟨bad, found⟩) s = .next (s.decoderMiss.send .hostAck)
        ∧ exec (.meminv hpa) s = .next (s.decoderMiss.send .hostAck))
    ∧ (∀ l, (s.sfRead l .any).sfAny l = true ∧ (s.sfRead l .shared).sfHas l = true ∧ s.sfRead l .inv = s
        ∧ (s.sfWrite l .any).sfAny l = true ∧ (s.sfWrite l .shared).sfHas l = true
        ∧ (s.sfWrite l .shared).sfAny l = false ∧ (s.sfWrite l .inv).sfHas l = false)
    ∧ (∀ (c : Instr) (l : Nat) (mv : Meta), mv ≠ .inv → s.sfHas l = false → s.snooped l = false → s.lineDown l = false →
        (s.evicting l = true → s.hostGate c l mv false = some (s.holdReq c))
        ∧ (s.evicting l = false → s.sfFull l = true → s.hostGate c l mv false = some ((s.evictFor l).holdReq c)))

/-- R294, R296, R298: an answer of the host ends a BISnp: its lines leave the filter (for BISnpData they turn shared)
and the commands that waited run again. A conflict is counted and acknowledged; no answer in time is device- fatal; a
snoop of the device is answered invalid. A completion reaches the agent that asked, and no completion in time faults
its engine; what waited for the SE runs once an answer has freed it (R230). Poison that CXL.cache brings is set in the
RAS status (R300). Which bit that is follows the layout of the CXL specification (log entry 93, PRESUMED). -/
def Obligations.CoherenceAnswers : Prop :=
  ∀ (s : State) (line : Nat), s.chipOn = true →
    (∀ q, s.coh.snps.find? (fun q => q.line == line) = some q →
      exec (.birsp line) s = .next (State.rerun { s with coh := { s.coh with
        snps := s.coh.snps.filter (fun x => x.line != line), sf := answered q s.coh.sf } })
      ∧ (q.data = false → ∀ e ∈ answered q s.coh.sf, ¬(q.line ≤ e.line ∧ e.line < q.line + q.n))
      ∧ (q.data = true → ∀ e ∈ answered q s.coh.sf, q.line ≤ e.line → e.line < q.line + q.n → e.any = false))
    ∧ (s.snooped line = true → exec (.biconflict line) s = .next (State.send { s with
        coh := { s.coh with conflict := satAdd s.coh.conflict 1 } } (.biConflictAck line)))
    ∧ (s.coh.snps.any (fun q => q.line == line) = true → s.errlog.fatal = false →
        exec (.bisnpTimeout line) s = .next (s.deviceFatal 3 0xFF 0x17 (64 * line) 0).rerun)
    ∧ (s.memOn = true → ∀ hpa, exec (.h2dSnoop hpa) s = .next (s.send (.rspIHitI hpa)))
    ∧ (∀ (e : EngineId) (data : List Byte) (bad : Bool) (r : D2HAgent × Bool × Nat × Nat), s.errlog.fatal = false → s.cxlOn = true →
        (s.d2hOldest (.engine e) true = some r → data.length = r.2.2.2 →
          let u := s.dropD2h (.engine e) true
          exec (.d2hCompletion (.engine e) true data bad) s
            = .next (s.seNext ((if bad then u.rasCorrected 4 else u).fetchData e data (List.replicate data.length bad) true)))
        ∧ (s.d2hOldest (.engine e) false = some r →
          exec (.d2hCompletion (.engine e) false data bad) s
            = .next (s.seNext ((s.dropD2h (.engine e) false).hostWriteDone e)))
        ∧ (s.host.d2h.find? (fun x => x.1 == D2HAgent.engine e) = some r → r.2.1 = true → (s.engine e).faulting = false →
          exec (.d2hTimeout (.engine e)) s = .next (s.seNext ((s.dropD2h (.engine e) true).engineFault e .address))))
    ∧ (∀ (data : List Byte) (bad : Bool) (k : Bool) (t : QeHost) (r : D2HAgent × Bool × Nat × Nat), s.errlog.fatal = false → s.cxlOn = true →
        s.qe.host = some t → s.d2hOldest .qe k = some r → (k = true → data.length = r.2.2.2) →
        let q := (t.queue.map fun q => (s.entAddr q, 64)).toList
        (s.gate (.d2hCompletion .qe k data bad) q q).isNone = true →
          exec (.d2hCompletion .qe k data bad) s = .next (s.seNext ((s.dropD2h .qe k).qeHostDone k data bad)))
    ∧ (∀ (t : State), (s.seBusy && !t.seBusy) = true → s.seNext t = t.rerun)
    ∧ (∀ (t : State), (s.seBusy && !t.seBusy) = false → s.seNext t = t)

/-- R286, R289, R290, R292: BAR2 in D0. A request to a region that is awake, or to reserved space, reads and writes
the region's scratchpad and Basin; one to a sleeping region is an Unsupported Request and an event, and in D3hot every
request is, in BAR0 too. The decoder commits the one legal range and locks; D3hot is entered and left. The class of
the event of a refused BAR2 request is the model's reading (log entry 65, DEDUCED), that an upset waits for a read is its choice (log
entry 112, DESIGN CHOICE), and the bit of AER's status that a
poisoned request sets is taken from PCIe (log entry 93, PRESUMED). -/
def Obligations.HostWindows : Prop :=
  (∀ s : State, s.refuse = { s with
      out := .unsupported :: s.out, errlog := { s.errlog with aerUe := s.errlog.aerUe ||| BitVec.ofNat 32 (2 ^ 20) } })
  ∧ ∀ (s : State) (off len : Nat) (data : List Byte) (bad : Bool), s.chipOn = true →
    (s.host.d3hot = true → ∀ ecc, exec (.bar2Read off len ecc) s = .next s.refuse
      ∧ exec (.bar2Write off data bad) s = .next (if bad then s.aer 12 else s).refuse)
    ∧ (s.host.d3hot = true → ∀ (h : Half) (n : StrandId) (v : Word64) (i : Fin 64) (f : Byte) (r : RegionId) (a : ArbId)
        (p : PortId) (q : QueueId) (k : SessionId) (g : BitVec 10) (e : Fin 4096),
        ∀ c ∈ [Instr.mbxH2sWrite n h v, .mbxS2hRead n h, .mbxH2mcWrite h v, .mbxMc2hRead h, .doorbell i 8 v, .queueEnable q,
               .queueDisable q, .openS k, .closeS k, .funcReset f, .funcDisable f, .funcEnable f, .setPs0 r, .setPs4 r,
               .selfRefreshEntry r, .selfRefreshExit r, .regionBist r, .arbCommit a, .colPortEnable p, .colPortDisable p,
               .lpiRequest p, .lpiRelease p, .retrain p, .colRtCommit p, .mgtColCommit, .mgtProfileCommit, .store, .update,
               .compact, .segmentOnline g, .segmentOffline g, .wdtInvalidateEntry e, .wdtInvalidateAll, .vsuCommit r],
          exec c s = .next s.refuse)
    ∧ (s.host.d3hot = false → s.bar2Asleep off = true → ∀ ecc,
        exec (.bar2Read off len ecc) s = .next (s.refuse.logEv 4 2 0xFF 0x0F ((bar2Addr off).getD 0) 0)
        ∧ ((s.region (off / 0x4000000)).state ≠ 3 → exec (.bar2Write off data bad) s
            = .next ((if bad then s.aer 12 else s).refuse.logEv 4 2 0xFF 0x0F ((bar2Addr off).getD 0) 1)))
    ∧ (s.host.d3hot = false → s.bar2Asleep off = false →
        (∃ bs poison, exec (.bar2Read off len .clean) s
            = .next (State.send (match bar2Addr off with | some a => s.meet [(a, len)] | none => s) (.hostData bs poison))
          ∧ (∀ a, bar2Addr off = some a → off % 64 + len ≤ 64 → 0 < len → bs = memGetN s.mem a len))
        ∧ exec (.bar2Write off data bad) s = .next ((if bad then s.aer 12 else s).bar2Put off data bad)
        ∧ (∀ a, bar2Addr off = some a → off % 64 + data.length ≤ 64 → 0 < data.length →
            s.bar2Put off data bad = s.write a data bad))
    ∧ (∀ (base size ways : Nat) (bi lock : Bool), s.host.d3hot = false → (s.host.hdm.committed && s.host.hdm.lock) = false →
        let good := size == 0xF000000000 && base % 0x10000000 == 0 && ways == 1 && bi
        ∃ t, exec (.hdmDecoderCommit base size ways bi lock) s = .next t ∧ t.host.hdm.committed = good
          ∧ t.host.hdm.base = base ∧ t.host.hdm.size = size ∧ t.host.hdm.lock = (good && lock)
          ∧ t.host.hdm.errNotCommitted = !good ∧ t.mem = s.mem)
    ∧ (∀ (base size ways : Nat) (bi lock : Bool), s.host.d3hot = false → (s.host.hdm.committed && s.host.hdm.lock) = true →
        exec (.hdmDecoderCommit base size ways bi lock) s = .next s)
    ∧ (∀ (base size ways : Nat) (bi lock : Bool), s.host.d3hot = true →
        exec (.hdmDecoderCommit base size ways bi lock) s = .next s.refuse)
    ∧ exec .d3hotEntry s = .next { s with host := { s.host with d3hot := true } }
    ∧ exec .d3hotExit s = .next { s with host := { s.host with d3hot := false } }

/-- R301 to R303 and R347, R348: what the MC and the test port answer. A DOE request waits for its answer, another one
meanwhile gets Busy, and an Abort discards it; a discovery or a CDAT read gives the entry of its number and the next,
an SPDM request what R302 says of it; the bus serves the offsets of R347; EXTEST is BYPASS while PERST# is not
asserted; a token that is not signed unlocks nothing. The model's choices: when a request is answered (log entry 135,
DESIGN CHOICE), that answers carry R301 to R303's values and not their bytes (log entry 41, DESIGN CHOICE), the scan
behaviour of the port (log entry 13, PRESUMED), the line that holds PWR_THERM_STAT (log entry 94, DEDUCED), and the
bytes that PEC covers (log entry 153, PRESUMED). -/
def Obligations.ManagementAnswers : Prop :=
  ∀ (s : State),
    (s.chipOn = true → s.mcOn = true →
      let put (r : DoeReq) : State := { s with host := { s.host with doe := some r } }
      (s.host.doe = none → (∀ i : Byte, exec (.doeDiscovery i) s = .next (put (.discovery i.toNat)))
        ∧ (∀ entry : BitVec 16, exec (.cdatRead entry) s = .next (put (.cdat entry.toNat)))
        ∧ (∀ req : List Byte, req.length ≤ 4096 → exec (.spdmRequest req) s = .next (put (.spdm req))))
      ∧ (s.host.doe ≠ none → (∀ i, exec (.doeDiscovery i) s = .next (s.send (.doe .busy)))
        ∧ (∀ entry, exec (.cdatRead entry) s = .next (s.send (.doe .busy)))
        ∧ (∀ req : List Byte, req.length ≤ 4096 → exec (.spdmRequest req) s = .next (s.send (.doe .busy))))
      ∧ exec .doeAbort s = .next { s with host := { s.host with doe := none } }
      ∧ (s.pending = [] → s.host.flr = false → s.seIdle = false → s.col.filling = [] → s.col.loop = [] → s.nvm.copying = false →
        let answer (a : DoeOut) : State := State.send { s with host := { s.host with doe := none }, fresh := s.fresh + 1 } (.doe a)
        (∀ i, s.host.doe = some (.discovery i) → step s = .next (answer (.protocol
            ([DoeProtocol.discovery, .spdm, .cdat][i]?) (if i < 2 then some (i + 1) else none))))
        ∧ (∀ i, s.host.doe = some (.cdat i) → step s = .next (answer (.cdat (cdatEntries[i]?) (if i < 5 then some (i + 1) else none))))
        ∧ (∀ req, s.host.doe = some (.spdm req) → step s = .next (answer (.spdm (s.spdmAnswer req))))
        ∧ (s.host.doe = none → step s = .next s)))
    ∧ (∀ req : List Byte, fieldLE req 1 1 = 0x84 → s.spdmAnswer req = .versions [(1, 2), (1, 3)])
    ∧ (∀ req : List Byte, fieldLE req 1 1 = 0xE0 → ∃ sign, s.spdmAnswer req = .measurements s.measurements sign)
    ∧ (∀ req : List Byte, fieldLE req 1 1 = 0x82 → ∃ k chain, s.spdmAnswer req = .certificate k chain ∧ (k ≠ 0 → chain = []))
    ∧ (s.board.ownAddr = s.board.busAddr.getD (0x4C + s.board.straps.zeroExtend 7))
    ∧ (let own := s.board.ownAddr
      let ask (req : List Byte) : List Byte := BitVec.ofNat 8 (2 * own.toNat) :: req
      let answer (req bs : List Byte) : Byte := pecOf (ask req ++ BitVec.ofNat 8 (2 * own.toNat + 1) :: bs)
      (s.mcOn = true → ∀ off, let req := [0x10, 4] ++ leBytes 4 off
        let served := off % 8 = 0 ∧ (busAlways off || (s.board.mainPg && busMain off)) = true
        let bs := s.readLine off
        (served → exec (.regread ⟨own, off, none⟩) s = .next (s.send (.bus bs))
          ∧ exec (.regread ⟨own, off, some (pecOf (ask req))⟩) s
              = .next (s.send (.bus (bs ++ [answer req (BitVec.ofNat 8 bs.length :: bs)])))
          ∧ ∀ p, p ≠ pecOf (ask req) → exec (.regread ⟨own, off, some p⟩) s = .next (s.send .busNack))
        ∧ (¬served → ∀ pec, exec (.regread ⟨own, off, pec⟩) s = .next (s.send .busNack))
        ∧ (∀ addr pec, addr ≠ own → exec (.regread ⟨addr, off, pec⟩) s = .next s))
      ∧ (s.board.aux = true → ∃ v : Byte, exec .status s = .next (s.send (.busPec [v] (answer [0x11] [v])))
        ∧ v.getLsbD 0 = s.board.mcRdy ∧ v.getLsbD 1 = s.board.mainPg ∧ v.getLsbD 2 = !s.board.perst
        ∧ v.getLsbD 3 = s.board.memActive ∧ v.getLsbD 4 = s.errlog.fatal)
      ∧ (s.board.aux = true → s.board.busAddr = none → ∀ a,
        exec (.setdasa ⟨0x4C + s.board.straps.zeroExtend 7, a⟩) s = .next (s.setBoard { s.board with busAddr := some a })
        ∧ (∀ k, k ≠ 0x4C + s.board.straps.zeroExtend 7 → exec (.setdasa ⟨k, a⟩) s = .next s)
        ∧ exec (.entdaa a) s = .next (s.setBoard { s.board with busAddr := some a })))
    ∧ (s.mcOn = true →
      (∀ token, exec (.debugUnlock token) s = .next (if Config.debugToken token = true
          then s.setBoard { s.board with debug := true } else s)))
    ∧ (s.board.aux = true → s.board.mainPg = true → ∀ (tdi : Bool) (pins shifted : List Bool),
      exec (.bypass tdi) s = .next ((s.setBoard { s.board with jtag := .bypass }).send (.jtag [false, tdi]))
      ∧ exec .idcode s = .next ((s.setBoard { s.board with jtag := .idcode }).send (.jtag ((List.range 32).map (bitAt idcodeWord))))
      ∧ exec (.samplePreload ⟨pins, shifted⟩) s
          = .next ((s.setBoard { s.board with jtag := .sample, boundary := shifted }).send (.jtag pins))
      ∧ (s.board.perst = true → ∃ t, exec (.extest ⟨pins, shifted⟩) s = .next t
          ∧ t.board = { s.board with jtag := .extest, boundary := shifted }
          ∧ t.out = .pins shifted :: .jtag pins :: .pins s.board.boundary :: s.out)
      ∧ (s.board.perst = false →
          ∃ b, exec (.extest ⟨pins, shifted⟩) s = .next ((s.setBoard { s.board with jtag := .bypass }).send (.jtag [false, b]))))

/-- R304 to R306, R344, R349: PERST# resets the chip: the units, the queues, the tables and the memory are as at
reset, and the fatal state ends; its release is held until MC_RDY and MAIN_PG. A CXL Reset resets the units and
empties the decoder and the snoop filter, and ends (with Mem Clr, over memory that reads zero in every online
segment); an FLR waits until every function stands at its atomic unit, then resets the units and the functions'
interrupts, and keeps the decoder; after a device-fatal error both take effect at once (R320 keeps the fatal state alone). The
model's readings: the stored settings are staged again, and MC_RDY falls (log
entry 81, DEDUCED); the telemetry clears (log entry 87, DEDUCED); requests to the host stay outstanding (log entry
100, DEDUCED); an FLR that is due ends at an idle step (log entry 135, DESIGN CHOICE). -/
def Obligations.Resets : Prop :=
  ∀ (s : State),
    (s.board.perst = false → ∃ t, exec .perstAssert s = .next t ∧ t.board.perst = true ∧ t.board.mcRdy = false
        ∧ t.errlog = {} ∧ t.strands = State.reset.strands ∧ t.engines = State.reset.engines ∧ t.vsus = State.reset.vsus
        ∧ t.jobs = [] ∧ t.qe = {} ∧ t.se = {} ∧ t.mbx = {} ∧ t.coh = {} ∧ t.host = {} ∧ t.mem = [] ∧ t.poison = []
        ∧ t.arbs = State.reset.arbs ∧ t.tel = {}
        ∧ (s.nvm.work = .none → s.nvm.copying = false → t.nvm = if s.board.aux then s.nvm.start else s.nvm))
    ∧ (s.board.perst = true → s.board.stopped = false →
        ((s.board.aux && s.board.mcRdy && s.board.mainPg) = true → exec .perstRelease s = .next (s.setBoard { s.board with
          perst := false, heldRelease := false, memInfoValid := true, toOnline := s.nvm.onlineAtStart }))
        ∧ ((s.board.aux && s.board.mcRdy && s.board.mainPg) = false →
          exec .perstRelease s = .next (s.setBoard { s.board with heldRelease := true })))
    ∧ (s.chipOn = true →
      (∀ clr, s.host.cxlReset = none → ∃ t : State, exec (.cxlReset clr) s = .next t.rerun ∧ t.host.cxlReset = some clr
          ∧ t.strands = State.reset.strands ∧ t.qe = { host := s.qe.host.map fun _ => .dropped } ∧ t.se = {} ∧ t.mbx = {}
          ∧ t.host.hdm = {} ∧ t.host.d2h = s.host.d2h ∧ t.coh.sf = [] ∧ t.coh.snps = [] ∧ t.wdt.entries = [] ∧ t.mem = s.mem)
      ∧ (s.host.cxlReset = some false → ∃ t, exec .cxlResetComplete s = .next t ∧ t.out = .cxlResetDone :: s.out
          ∧ t.host.cxlReset = none ∧ t.host.cfg.dvsec.resetComplete = true ∧ t.mem = s.mem)
      ∧ (s.host.cxlReset = some true → (∀ n ∈ s.onlineSegs, s.segChannelsUp n = true ∧ s.segFree n = true) → ∃ t, exec .cxlResetComplete s = .next t ∧ t.host.cxlReset = none
          ∧ t.out = .cxlResetDone :: s.out
          ∧ ∀ p ∈ s.segs, p.2.online = true → ∀ a, segBase p.1 ≤ a → a < segBase p.1 + 0x40000000 → memGet t.mem a = 0)
      ∧ (let u := { s with host := { s.host with flr := true } }
        (s.errlog.fatal = false → u.allAtBoundary = false → exec .flr s = .next u)
        ∧ (s.errlog.fatal = true ∨ u.allAtBoundary = true → exec .flr s = .next u.flrDone)))
    ∧ (∃ t : State, s.flrDone = t.rerun ∧ t.strands = State.reset.strands ∧ t.jobs = []
          ∧ t.qe = { host := s.qe.host.map fun _ => .dropped } ∧ t.se = {} ∧ t.mbx = {} ∧ t.host.flr = false
          ∧ t.host.msix = [] ∧ t.host.msixEnable = false ∧ t.host.d3hot = false ∧ t.host.hdm = s.host.hdm
          ∧ t.host.d2h = s.host.d2h ∧ t.coh.sf = s.coh.sf ∧ t.mem = s.mem)
    ∧ (s.pending = [] → s.unitsOn = true → s.host.flr = true → s.allAtBoundary = true →
        let u := s.flrDone
        let v := if u.seIdle then u.rerun else u
        step s = .next (State.mcIdle (if v.unitsOn then v.flushFlits.loopIn else v)))

/-- R337, R343 to R350: the supplies, the MC and start-up. Main power on asserts MAIN_PG while the auxiliary rail is
up, and its loss stops the chip; the MC starts with the auxiliary rail from its stored settings; training makes every
channel that did not fail ready, and each stored segment comes online in its turn. R337: a boot record is written to
the copy that does not govern, and then governs; a confirmed trial makes its bank the active one and never lowers the
rollback counter; the copy of the library ends by recording its digest. The model's choices: the zero fill of a
segment in the step that brings it online (log entry 86, DEDUCED), what the telemetry reads after a supply changes
(log entry 87, DEDUCED), the end of the library's copy at an idle step (log entry 135, DESIGN CHOICE), and the bytes
of a boot record (log entry 138, DESIGN CHOICE). -/
def Obligations.StartUp : Prop :=
  ∀ (s : State),
    exec .mainPowerOn s = .next (s.setBoard { s.board with mainPower := true, mainPg := s.board.aux }).tryRelease
    ∧ (s.board.mainPower = true → ∃ t, exec .mainPowerOff s = .next t ∧ t.board.mainPower = false ∧ t.chipOn = false
        ∧ t.errlog.fatal = false ∧ t.mem = [] ∧ t.strands = State.reset.strands ∧ t.nvm = s.nvm
        ∧ t.board.jtag = .idcode ∧ t.board.boundary = [])
    ∧ (s.board.aux = true → ∃ t, exec .auxPowerRemoved s = .next t ∧ t.board.aux = false ∧ t.board.mcRdy = false
        ∧ t.chipOn = false ∧ t.tel = {} ∧ t.board.busAddr = none)
    ∧ (s.board.aux = false → ∃ t, exec .auxPowerApplied s = .next t ∧ t.board.aux = true ∧ t.board.mcRdy = false
        ∧ t.nvm = s.nvm.start ∧ t.mgt.profile = BitVec.ofNat 64 (leValue (s.nvm.start.stored 1)) ∧ t.tel = {})
    ∧ (s.board.aux = true → s.board.mcRdy = false →
        let k := s.nvm.confirm.beginCopy
        (s.nvm.copying = false → k.copying = true → exec .mcReady s = .next (s.setNvm k))
        ∧ (s.nvm.copying = false → k.copying = false →
          exec .mcReady s = .next ((s.setNvm k).setBoard { s.board with mcRdy := true }).tryRelease)
        ∧ (s.nvm.copying = true →
          exec .mcReady s = .next ((s.setNvm s.nvm.endCopy).setBoard { s.board with mcRdy := true }).tryRelease)
        ∧ (s.nvm.boot.trial = true → exec .trialBootTimeout s
            = .next (s.setNvm (s.nvm.putBoot { s.nvm.boot with pending := false, trial := false, last := 2 }))))
    ∧ (∀ (n : Nvm) (b : BootRec), n.boot0.seq < 2 ^ 32 → n.boot1.seq < 2 ^ 32 → (n.putBoot b).boot = b
        ∧ ((n.putBoot b).boot0 = n.boot0 ∨ (n.putBoot b).boot1 = n.boot1))
    ∧ (∀ n : Nvm, n.boot.trial = true → n.boot0.seq < 2 ^ 32 → n.boot1.seq < 2 ^ 32 →
        n.confirm.boot.active = !n.boot.active ∧ n.confirm.boot.trial = false ∧ n.confirm.boot.last = 1
          ∧ n.confirm.activeBank = n.pendingBank ∧ n.rollback.toNat ≤ n.confirm.rollback.toNat)
    ∧ (∀ n : Nvm, n.copying = true → n.boot0.seq < 2 ^ 32 → n.boot1.seq < 2 ^ 32 → n.endCopy.copying = false
        ∧ n.endCopy.boot.libDigest = (n.activeBank.drop 0x40).take 32 ∧ n.endCopy.library = n.library)
    ∧ (s.pending = [] → s.host.flr = false → s.seIdle = false → s.col.filling = [] → s.col.loop = [] → s.host.doe = none →
        s.board.aux = true → s.nvm.copying = true → step s = .next (if s.board.mcRdy then s.setNvm s.nvm.endCopy
          else ((s.setNvm s.nvm.endCopy).setBoard { s.board with mcRdy := true }).tryRelease))
    ∧ (s.unitsOn = true →
      (s.board.trained = false → s.board.chipBistLeft = false → s.board.bistLeft = [] → ∃ t, exec (.lpddrTrainingComplete []) s = .next t ∧ t.board.trained = true
          ∧ (∀ m : McId, (t.mc m).trained = ~~~(s.mc m).unusable) ∧ t.board.memActive = (s.board.memActive || s.board.toOnline.isEmpty)
          ∧ t.mem = s.mem)
      ∧ (∀ n rest fs, s.board.toOnline = n :: rest → s.board.trained = true → s.framesFor (s.seg n) = some fs →
          let u := s.setSeg n ((s.seg n).commit fs)
          (u.segChannelsUp n = true → s.segFree n = true → exec .startupSegmentOnline s
            = .next (((u.segUp n).segStat 2 0 none).setBoard { s.board with toOnline := rest }).tryActive)
          ∧ (u.segChannelsUp n = false → exec .startupSegmentOnline s = .next s))
      ∧ (∀ n rest, s.board.toOnline = n :: rest → s.board.trained = true → s.framesFor (s.seg n) = none →
          exec .startupSegmentOnline s
            = .next ((s.segStat 3 1 none).setBoard { s.board with toOnline := rest }).tryActive))

/-! ### Management (10, 16, 18) -/

/-- R208, R209, R351: the segment commands. An offline segment takes its frames and comes online when the command
ends, with every byte zero; an online one goes offline once the host holds none of its lines and no access to it waits,
and its frames are free. A number past 959, a segment already in the state asked for and too few frames end with codes 3, 2 and 1. -/
def Obligations.Segments : Prop :=
  ∀ (s : State) (q : BitVec 10), (s.fabricOn && s.board.memActive) = true →
    let n := q.toNat
    let u (op : Nat) : State := s.setMgt { s.mgt with segSel := q, segOp := BitVec.ofNat 2 op }
    (s.mgt.segState ≠ 1 →
      (n < 960 → (s.seg n).online = false →
        (∀ fs, s.framesFor (s.seg n) = some fs → exec (.segmentOnline q) s
          = .next (((u 1).setSeg n ((s.seg n).commit fs)).segStat 1 0 (some (n, true))))
        ∧ (s.framesFor (s.seg n) = none → exec (.segmentOnline q) s = .next ((u 1).segStat 3 1 none))
        ∧ exec (.segmentOffline q) s = .next ((u 2).segStat 3 2 none))
      ∧ (n < 960 → (s.seg n).online = true →
        exec (.segmentOnline q) s = .next ((u 1).segStat 3 2 none)
        ∧ exec (.segmentOffline q) s = .next (((u 2).segStat 1 0 (some (n, false))).snoopSeg n))
      ∧ (960 ≤ n → exec (.segmentOnline q) s = .next ((u 1).segStat 3 3 none)
        ∧ exec (.segmentOffline q) s = .next ((u 2).segStat 3 3 none)))
    ∧ (∀ m up, s.mgt.segState = 1 → s.mgt.segWork = some (m, up) →
        (up = true → (s.segChannelsUp m && s.segFree m) = true) →
        (up = false → s.segQuiet m = true) →
        ∃ t, exec .segmentCommandComplete s = .next t ∧ t.mgt.segState = 2 ∧ t.mgt.segErr = 0 ∧ (t.seg m).online = up
          ∧ (up = false → (t.seg m).frames = []) ∧ (up = true → (t.seg m).frames = (s.seg m).frames)
          ∧ (∀ a, segBase m ≤ a → a < segBase m + 0x40000000 → memGet t.mem a = 0)
          ∧ ∀ k, k ≠ m → t.seg k = s.seg k)

/-- R328 to R336: the commands of the non-volatile memory. A command starts while none is busy; STORE takes the
settings that differ at its start. Its end writes them to the journal and applies what a replay then finds; an
UPDATE's image is checked and written to the inactive bank, which turns pending, or the command ends with the code of
its first error; a difference at the read-back ends it with code 6, a worn sector with code 7, and the boot record
stays. Which command meets a read-back that differs or a worn sector is a free choice of the model, held in the field
flash (log entry 92, DESIGN CHOICE). -/
def Obligations.NvmCommands : Prop :=
  ∀ (s : State),
    ((s.hostOn && s.mcOn && s.nvm.state != 1) = true →
      let u (op : Nat) (w : NvsWork) (f : Flash) : State := { s with fresh := s.fresh + 1 }.setNvm
        { s.nvm with op := BitVec.ofNat 4 op, state := 1, err := 0, work := w, flash := f }
      (∃ f, exec .store s = .next (u 1 (.store s.changed) f))
      ∧ (∃ f, exec .update s = .next (u 2 (.update s.nvm.updAddr.toNat s.nvm.updLen.toNat) f))
      ∧ ∃ f, exec .compact s = .next (u 3 .compact f))
    ∧ (s.mcOn = true → s.nvm.state = 1 → s.nvm.boot0.seq < 2 ^ 32 → s.nvm.boot1.seq < 2 ^ 32 →
      (∀ vs, s.nvm.work = .store vs → s.nvm.flash ≠ .worn → ∃ t, exec .nvsCommandComplete s = .next t
          ∧ t.nvm.state = 2 ∧ t.nvm.err = 0
          ∧ t.nvm.applied = ((s.nvm.storeOps vs).foldl Nvm.act s.nvm).replayed.applied ∧ t.mem = s.mem)
      ∧ (s.nvm.work = .compact → s.nvm.flash ≠ .worn → ∃ t, exec .nvsCommandComplete s = .next t
          ∧ t.nvm.state = 2 ∧ t.nvm.err = 0
          ∧ t.nvm.applied = (s.nvm.compactOps.foldl Nvm.act s.nvm).replayed.applied)
      ∧ (s.nvm.work = .compact → s.nvm.flash = .worn → exec .nvsCommandComplete s
          = .next (s.setNvm { s.nvm with state := 3, err := 7, work := .none }))
      ∧ (∀ a n, s.nvm.work = .update a n → a % 64 = 0 → 0x100 ≤ n → n ≤ 0x400000 → a + n ≤ 0xF000000000 →
          s.unitsOn = true → (s.gate .nvsCommandComplete [(a, n)] []).isNone = true →
          ((s.meet [(a, n)]).read a n).2 = false →
          let e := imageErr (memGetN s.mem a n) s.nvm.rollback.toNat
          ∃ t, exec .nvsCommandComplete s = .next t
            ∧ (e = 0 → s.nvm.flash = .good → t.nvm.state = 2 ∧ t.nvm.pendingBank = memGetN s.mem a n
                ∧ t.nvm.activeBank = s.nvm.activeBank ∧ t.nvm.boot.pending = true)
            ∧ (e = 0 → s.nvm.flash = .mismatch → t.nvm.state = 3 ∧ t.nvm.err = 6 ∧ t.nvm.boot = s.nvm.boot
                ∧ t.nvm.activeBank = s.nvm.activeBank)
            ∧ (e = 0 → s.nvm.flash = .worn → t.nvm = { s.nvm with state := 3, err := 7, work := .none })
            ∧ (e ≠ 0 → t.nvm = { s.nvm with state := 3, err := e, work := .none })))

/-- R207, R210 to R213, R255, R256, R340: refresh and calibration change nothing but timing, and wear management only
which spare sector holds the working copy of the calibration area; a temperature report and a scrub of a running channel leave their registers; a scrub of the scratchpad corrects or
poisons a word; a telemetry sample latches, the hotter sensor of a region as HOT. That an upset lies in a word until a read or a scrub meets
it is the model's choice (log entry 112, DESIGN CHOICE). -/
def Obligations.BackgroundWork : Prop :=
  ∀ (s : State) (c : ChannelId),
    let g := ((s.mc (mcOfChannel c.val)).scrubPos[fin4 c.val].toNat + 1) % 2 ^ 22
    (∀ bank, exec (.refresh c bank) s = .next s)
    ∧ (∀ rank drift, exec (.zqCalibration c rank) s = .next s ∧ exec (.dqsOscillatorRead c rank drift) s = .next s)
    ∧ (∃ t, exec .wearManagement s = .next t ∧ (∃ k, t.nvm = { s.nvm with calCopy := k }) ∧ t.mem = s.mem
        ∧ t.pending = s.pending
        ∧ (∀ a : NvmArea, a ≠ .reserved → t.nvm.bytes a = s.nvm.bytes a))
    ∧ (s.channelRuns c.val = true →
      (∀ code : BitVec 3, exec (.mr4Read c code) s = .next (s.setMc (mcOfChannel c.val) { s.mc (mcOfChannel c.val) with
          dramTemp := BitVec.ofNat 12 (setFld (s.mc (mcOfChannel c.val)).dramTemp.toNat (3 * (c.val % 4)) 3 code.toNat) }))
      ∧ (∀ written, s.scrubStruck c.val g = [] → ∃ t, exec (.patrolScrub c [] written) s = .next t ∧ t.mem = s.mem ∧ t.poison = s.poison
          ∧ (t.mc (mcOfChannel c.val)).scrubPos[fin4 c.val].toNat
              = g)
      ∧ (∀ h written, h < 32 → s.scrubStruck c.val g = [] → ∃ t, exec (.patrolScrub c [(h, .uncorrected)] written) s = .next t ∧ t.mem = s.mem
          ∧ (t.mc (mcOfChannel c.val)).ue = satAdd (s.mc (mcOfChannel c.val)).ue 1))
    ∧ (∀ (r : RegionId) (bank : Fin 64) (word : Fin 12288) (ecc : Ecc), s.unitsOn = true → s.asleep r.val = false →
        let a := scratchBase r.val + (word.val * 64 + bank.val) * 64
        exec (.scratchpadScrub r bank word ecc) s = .next ((s.eccAt a 64 ecc).meet [(a, 64)]))
    ∧ (∀ x : TelSample, s.mcOn = true → ∃ t, exec (.telemetryLatch x) s = .next t ∧ t.tel.sample = s.tel.sample + 1
        ∧ t.tel.tplate = x.tplate ∧ t.tel.vaux = x.vaux ∧ t.mem = s.mem
        ∧ (s.board.mainPg = true → (∀ p ∈ t.tel.tj, p.2.toNat ≤ p.1.toNat) ∧ t.tel.pin = x.pin ∧ t.tel.vin = x.vin ∧ t.tel.iin = x.iin ∧ t.tel.energy = x.energy
            ∧ (∃ m : McId, ∃ q < 4, t.tel.tdram.toNat = fld (s.mc m).dramTemp.toNat (3 * q) 3)
            ∧ ∀ m : McId, ∀ q < 4, fld (s.mc m).dramTemp.toNat (3 * q) 3 ≤ t.tel.tdram.toNat)
        ∧ (s.board.mainPg = false → t.tel.pin = 0 ∧ t.tel.tdram = 0))

/-- R5 to R7, R353, R354: a host write of BAR0 in D0, 4 or 8 bytes wide and naturally aligned, runs the write of its word, or
of its two words, the lower first, unless a rule takes the eight bytes whole; a read of those shapes returns the register, or its
mailbox (R235). Another access is an Unsupported Request. Some words: an RW field takes its value, a W1C field loses the bits
written as 1, a write of a read-only register changes nothing, and a value that is not legal leaves its field. That after a
fatal error blocks 2, 3 and 8 alone stay writable is the model's reading (log entry 45, DEDUCED). -/
def Obligations.RegisterWrites : Prop :=
  ∀ (s : State) (off : Nat) (v : Word64), s.chipOn = true →
    (s.host.d3hot = false → off % 4 = 0 → off + 4 ≤ 0x4000000 →
        exec (.registerWrite .bar0 off 4 v) s = .next (s.writeWord off (v.toNat % 2 ^ 32)))
    ∧ (s.host.d3hot = false → off % 8 = 0 → off + 8 ≤ 0x4000000 → s.errlog.fatal = false →
        (¬(0x50000 ≤ off ∧ off < 0x50100) → off ≠ 0x50200 → ¬(0x60000 ≤ off ∧ off < 0x60200) → off ≠ 0x60400 →
          exec (.registerWrite .bar0 off 8 v) s
            = .next ((s.writeWord off (v.toNat % 2 ^ 32)).writeWord (off + 4) (v.toNat / 2 ^ 32)))
        ∧ (off = 0x50200 → exec (.registerWrite .bar0 off 8 v) s = exec (.mbxH2mcWrite .whole v) s)
        ∧ (off = 0x60400 → exec (.registerWrite .bar0 off 8 v) s = exec (.qtbaseWrite v) s)
        ∧ (∀ n : StrandId, off = 0x50000 + 8 * n.val → exec (.registerWrite .bar0 off 8 v) s = exec (.mbxH2sWrite n .whole v) s)
        ∧ (∀ i : Fin 64, off = 0x60000 + 8 * i.val → exec (.registerWrite .bar0 off 8 v) s = exec (.doorbell i 8 v) s))
    ∧ (s.host.d3hot = false → off % 4 = 0 → off + 4 ≤ 0x4000000 → ¬(0x50100 ≤ off ∧ off < 0x50210) →
        exec (.registerWrite .bar0Read off 4 v) s = .next (s.send (.hostData (leBytes 4 (s.readWord off)) false))
        ∧ (off % 8 = 0 → exec (.registerWrite .bar0Read off 8 v) s = .next (s.send (.hostData (s.readLine off) false))))
    ∧ (∀ sp ∈ [RegSpace.bar0, .bar0Read],
        (s.host.d3hot = true ∨ off % 8 ≠ 0 → exec (.registerWrite sp off 8 v) s = .next s.refuse)
        ∧ (s.host.d3hot = true ∨ off % 4 ≠ 0 → exec (.registerWrite sp off 4 v) s = .next s.refuse)
        ∧ (∀ bytes, bytes ≠ 4 → bytes ≠ 8 → exec (.registerWrite sp off bytes v) s = .next s.refuse))
    ∧ (s.errlog.fatal = false → ∀ w,
      s.writeWord 0x10080 w = { s with power := { s.power with wakeArm := BitVec.ofNat 32 w } }
      ∧ s.writeWord 0x10084 w = { s with power := { s.power with wakePend := s.power.wakePend &&& ~~~(BitVec.ofNat 8 w) } }
      ∧ (thermLimOk (w % 256) (w / 256 % 256) = false → s.writeWord 0x10090 w = s)
      ∧ s.writeWord 0x30014 w = { s with errlog := { s.errlog with ce := s.errlog.ce &&& ~~~(BitVec.ofNat 32 w) } }
      ∧ s.writeWord 0x3000C w = { s with errlog := { s.errlog with tail := BitVec.ofNat 10 w } }
      ∧ s.writeWord 0x30008 w = s ∧ s.writeWord 0 w = s ∧ s.writeWord 0x20010 w = s
      ∧ s.writeWord 0x85010 w = { s with col := { s.col with e2e := BitVec.ofNat 24 w } })
    ∧ (s.errlog.fatal = true → ∀ w, s.writeWord off w = s ∨ off / 0x10000 = 2 ∨ off / 0x10000 = 3 ∨ off / 0x10000 = 8)

/-! ### The whole machine -/

/-- Registers with a reset value other than zero that the register tables give (Tables 12.4, 13.8, 13.9, 15.11, 16.2,
16.4), and the invariants of the statements below, hold at reset. The thermal limits at 0x10090 and the arithmetic
profile at 0x80100 (Tables 16.2 and 16.4) are the defaults of an empty journal, which is the model's factory content
(log entry 6, DESIGN CHOICE). -/
def Obligations.ResetState : Prop :=
  let s := State.reset
  s.readWord 0x10090 = 0x6E5F ∧ (∀ r : Fin 8, s.readWord (0x10000 + 8 * r.val + 4) = 4)
  ∧ (∀ a : Fin 14, s.readWord (0x40104 + 0x1000 * a.val) = 0x14)
  ∧ s.readWord 0x40000 = 16 ∧ s.readWord 0x41000 = 32 ∧ s.readWord 0x42000 = 16 ∧ s.readWord 0x42020 = 32
  ∧ (∀ p : Fin 12, s.readWord (0x100000 + 0x10000 * p.val) = 1 ∧ s.readWord (0x100004 + 0x10000 * p.val) = 0)
  ∧ s.readWord 0x80100 = 1 ∧ s.readWord 0x85010 = 0x2710
  ∧ Memory.wf s.mem = true ∧ s.hardwired ∧ s.alive ∧ s.pending = []

/-- R320: at a device-fatal error every strand and staging engine is stopped: no instruction, no step and nothing
that one waits for has an effect, and no completion record is written. -/
def Obligations.FatalStopsUnits : Prop :=
  ∀ (s : State), s.errlog.fatal = true →
    (∀ c : Instr, c.opcode.isSome = true ∨ c.stagingStep.isSome = true → exec c s = .next s)
    ∧ (∀ n : StrandId, ∀ c ∈ [Instr.stgwaitProceed n, .launchifSubmit n, .endComplete n, .waitaProceed n, .relComplete n,
          .barComplete n, .mbxwProceed n, .mbxrProceed n, .binaryLoad n], exec c s = .next s)
    ∧ (∀ (e : EngineId) (found : EccList), exec (.burstWrite ⟨e, found⟩) s = .next s ∧ exec (.arrival e) s = .next s)
    ∧ exec .dispatch s = .next s ∧ ∀ cq, exec (.completionRecordWrite cq) s = .next s

/-- Every step keeps the memory in its canonical form: addresses rise and no cell holds the byte that an unlisted
address reads as. -/
def Obligations.StepKeepsMemoryCanonical : Prop :=
  ∀ (s t : State), Memory.wf s.mem = true → step s = .next t → Memory.wf t.mem = true

/-- R147, Table 8.3: in every strand s0 reads 0 and p0 reads 1, and every step keeps that, whatever command it runs.
-/
def Obligations.StepKeepsHardwired : Prop :=
  ∀ (s t : State), s.hardwired → step s = .next t → t.hardwired

/-- R320: only a conventional reset (PERST#, or the loss or return of a supply) leaves the device-fatal state. -/
def Obligations.FatalIsFinal : Prop :=
  ∀ (s t : State), s.errlog.fatal = true → (∀ c rest, s.pending = c :: rest → resets c = false) → step s = .next t →
    t.errlog.fatal = true
end

