-- ==== Sys2Proof/Laws/State.lean ====
section
/-!
SUPPORT. One lemma for each field and each update of State: what an update leaves as it was, and what it writes.
-/
namespace Sys2Proof.Machine

open Sys2Proof

variable (s : State)

@[simp] theorem State.setStrand_blocks (n : StrandId) (x : Strand) : (s.setStrand n x).blocks = s.blocks := rfl
@[simp] theorem State.setStrand_jobs (n : StrandId) (x : Strand) : (s.setStrand n x).jobs = s.jobs := rfl
@[simp] theorem State.setStrand_engines (n : StrandId) (x : Strand) : (s.setStrand n x).engines = s.engines := rfl
@[simp] theorem State.setStrand_vsus (n : StrandId) (x : Strand) : (s.setStrand n x).vsus = s.vsus := rfl
@[simp] theorem State.setStrand_mem (n : StrandId) (x : Strand) : (s.setStrand n x).mem = s.mem := rfl
@[simp] theorem State.setStrand_poison (n : StrandId) (x : Strand) : (s.setStrand n x).poison = s.poison := rfl
@[simp] theorem State.setStrand_segs (n : StrandId) (x : Strand) : (s.setStrand n x).segs = s.segs := rfl
@[simp] theorem State.setStrand_mcs (n : StrandId) (x : Strand) : (s.setStrand n x).mcs = s.mcs := rfl
@[simp] theorem State.setStrand_qe (n : StrandId) (x : Strand) : (s.setStrand n x).qe = s.qe := rfl
@[simp] theorem State.setStrand_se (n : StrandId) (x : Strand) : (s.setStrand n x).se = s.se := rfl
@[simp] theorem State.setStrand_wdt (n : StrandId) (x : Strand) : (s.setStrand n x).wdt = s.wdt := rfl
@[simp] theorem State.setStrand_mbx (n : StrandId) (x : Strand) : (s.setStrand n x).mbx = s.mbx := rfl
@[simp] theorem State.setStrand_arbs (n : StrandId) (x : Strand) : (s.setStrand n x).arbs = s.arbs := rfl
@[simp] theorem State.setStrand_col (n : StrandId) (x : Strand) : (s.setStrand n x).col = s.col := rfl
@[simp] theorem State.setStrand_coh (n : StrandId) (x : Strand) : (s.setStrand n x).coh = s.coh := rfl
@[simp] theorem State.setStrand_host (n : StrandId) (x : Strand) : (s.setStrand n x).host = s.host := rfl
@[simp] theorem State.setStrand_power (n : StrandId) (x : Strand) : (s.setStrand n x).power = s.power := rfl
@[simp] theorem State.setStrand_func (n : StrandId) (x : Strand) : (s.setStrand n x).func = s.func := rfl
@[simp] theorem State.setStrand_errlog (n : StrandId) (x : Strand) : (s.setStrand n x).errlog = s.errlog := rfl
@[simp] theorem State.setStrand_nvm (n : StrandId) (x : Strand) : (s.setStrand n x).nvm = s.nvm := rfl
@[simp] theorem State.setStrand_mgt (n : StrandId) (x : Strand) : (s.setStrand n x).mgt = s.mgt := rfl
@[simp] theorem State.setStrand_tel (n : StrandId) (x : Strand) : (s.setStrand n x).tel = s.tel := rfl
@[simp] theorem State.setStrand_board (n : StrandId) (x : Strand) : (s.setStrand n x).board = s.board := rfl
@[simp] theorem State.setStrand_out (n : StrandId) (x : Strand) : (s.setStrand n x).out = s.out := rfl
@[simp] theorem State.setStrand_fresh (n : StrandId) (x : Strand) : (s.setStrand n x).fresh = s.fresh := rfl
@[simp] theorem State.setStrand_nextId (n : StrandId) (x : Strand) : (s.setStrand n x).nextId = s.nextId := rfl
@[simp] theorem State.setStrand_pending (n : StrandId) (x : Strand) : (s.setStrand n x).pending = s.pending := rfl
@[simp] theorem State.setStrand_struck (n : StrandId) (x : Strand) : (s.setStrand n x).struck = s.struck := rfl

@[simp] theorem State.setEngine_strands (e : EngineId) (x : Engine) : (s.setEngine e x).strands = s.strands := rfl
@[simp] theorem State.setEngine_blocks (e : EngineId) (x : Engine) : (s.setEngine e x).blocks = s.blocks := rfl
@[simp] theorem State.setEngine_jobs (e : EngineId) (x : Engine) : (s.setEngine e x).jobs = s.jobs := rfl
@[simp] theorem State.setEngine_vsus (e : EngineId) (x : Engine) : (s.setEngine e x).vsus = s.vsus := rfl
@[simp] theorem State.setEngine_mem (e : EngineId) (x : Engine) : (s.setEngine e x).mem = s.mem := rfl
@[simp] theorem State.setEngine_poison (e : EngineId) (x : Engine) : (s.setEngine e x).poison = s.poison := rfl
@[simp] theorem State.setEngine_segs (e : EngineId) (x : Engine) : (s.setEngine e x).segs = s.segs := rfl
@[simp] theorem State.setEngine_mcs (e : EngineId) (x : Engine) : (s.setEngine e x).mcs = s.mcs := rfl
@[simp] theorem State.setEngine_qe (e : EngineId) (x : Engine) : (s.setEngine e x).qe = s.qe := rfl
@[simp] theorem State.setEngine_se (e : EngineId) (x : Engine) : (s.setEngine e x).se = s.se := rfl
@[simp] theorem State.setEngine_wdt (e : EngineId) (x : Engine) : (s.setEngine e x).wdt = s.wdt := rfl
@[simp] theorem State.setEngine_mbx (e : EngineId) (x : Engine) : (s.setEngine e x).mbx = s.mbx := rfl
@[simp] theorem State.setEngine_arbs (e : EngineId) (x : Engine) : (s.setEngine e x).arbs = s.arbs := rfl
@[simp] theorem State.setEngine_col (e : EngineId) (x : Engine) : (s.setEngine e x).col = s.col := rfl
@[simp] theorem State.setEngine_coh (e : EngineId) (x : Engine) : (s.setEngine e x).coh = s.coh := rfl
@[simp] theorem State.setEngine_host (e : EngineId) (x : Engine) : (s.setEngine e x).host = s.host := rfl
@[simp] theorem State.setEngine_power (e : EngineId) (x : Engine) : (s.setEngine e x).power = s.power := rfl
@[simp] theorem State.setEngine_func (e : EngineId) (x : Engine) : (s.setEngine e x).func = s.func := rfl
@[simp] theorem State.setEngine_errlog (e : EngineId) (x : Engine) : (s.setEngine e x).errlog = s.errlog := rfl
@[simp] theorem State.setEngine_nvm (e : EngineId) (x : Engine) : (s.setEngine e x).nvm = s.nvm := rfl
@[simp] theorem State.setEngine_mgt (e : EngineId) (x : Engine) : (s.setEngine e x).mgt = s.mgt := rfl
@[simp] theorem State.setEngine_tel (e : EngineId) (x : Engine) : (s.setEngine e x).tel = s.tel := rfl
@[simp] theorem State.setEngine_board (e : EngineId) (x : Engine) : (s.setEngine e x).board = s.board := rfl
@[simp] theorem State.setEngine_out (e : EngineId) (x : Engine) : (s.setEngine e x).out = s.out := rfl
@[simp] theorem State.setEngine_fresh (e : EngineId) (x : Engine) : (s.setEngine e x).fresh = s.fresh := rfl
@[simp] theorem State.setEngine_nextId (e : EngineId) (x : Engine) : (s.setEngine e x).nextId = s.nextId := rfl
@[simp] theorem State.setEngine_pending (e : EngineId) (x : Engine) : (s.setEngine e x).pending = s.pending := rfl
@[simp] theorem State.setEngine_struck (e : EngineId) (x : Engine) : (s.setEngine e x).struck = s.struck := rfl

@[simp] theorem State.setBlock_strands (b : BlockId) (x : Block) : (s.setBlock b x).strands = s.strands := rfl
@[simp] theorem State.setBlock_jobs (b : BlockId) (x : Block) : (s.setBlock b x).jobs = s.jobs := rfl
@[simp] theorem State.setBlock_engines (b : BlockId) (x : Block) : (s.setBlock b x).engines = s.engines := rfl
@[simp] theorem State.setBlock_vsus (b : BlockId) (x : Block) : (s.setBlock b x).vsus = s.vsus := rfl
@[simp] theorem State.setBlock_mem (b : BlockId) (x : Block) : (s.setBlock b x).mem = s.mem := rfl
@[simp] theorem State.setBlock_poison (b : BlockId) (x : Block) : (s.setBlock b x).poison = s.poison := rfl
@[simp] theorem State.setBlock_segs (b : BlockId) (x : Block) : (s.setBlock b x).segs = s.segs := rfl
@[simp] theorem State.setBlock_mcs (b : BlockId) (x : Block) : (s.setBlock b x).mcs = s.mcs := rfl
@[simp] theorem State.setBlock_qe (b : BlockId) (x : Block) : (s.setBlock b x).qe = s.qe := rfl
@[simp] theorem State.setBlock_se (b : BlockId) (x : Block) : (s.setBlock b x).se = s.se := rfl
@[simp] theorem State.setBlock_wdt (b : BlockId) (x : Block) : (s.setBlock b x).wdt = s.wdt := rfl
@[simp] theorem State.setBlock_mbx (b : BlockId) (x : Block) : (s.setBlock b x).mbx = s.mbx := rfl
@[simp] theorem State.setBlock_arbs (b : BlockId) (x : Block) : (s.setBlock b x).arbs = s.arbs := rfl
@[simp] theorem State.setBlock_col (b : BlockId) (x : Block) : (s.setBlock b x).col = s.col := rfl
@[simp] theorem State.setBlock_coh (b : BlockId) (x : Block) : (s.setBlock b x).coh = s.coh := rfl
@[simp] theorem State.setBlock_host (b : BlockId) (x : Block) : (s.setBlock b x).host = s.host := rfl
@[simp] theorem State.setBlock_power (b : BlockId) (x : Block) : (s.setBlock b x).power = s.power := rfl
@[simp] theorem State.setBlock_func (b : BlockId) (x : Block) : (s.setBlock b x).func = s.func := rfl
@[simp] theorem State.setBlock_errlog (b : BlockId) (x : Block) : (s.setBlock b x).errlog = s.errlog := rfl
@[simp] theorem State.setBlock_nvm (b : BlockId) (x : Block) : (s.setBlock b x).nvm = s.nvm := rfl
@[simp] theorem State.setBlock_mgt (b : BlockId) (x : Block) : (s.setBlock b x).mgt = s.mgt := rfl
@[simp] theorem State.setBlock_tel (b : BlockId) (x : Block) : (s.setBlock b x).tel = s.tel := rfl
@[simp] theorem State.setBlock_board (b : BlockId) (x : Block) : (s.setBlock b x).board = s.board := rfl
@[simp] theorem State.setBlock_out (b : BlockId) (x : Block) : (s.setBlock b x).out = s.out := rfl
@[simp] theorem State.setBlock_fresh (b : BlockId) (x : Block) : (s.setBlock b x).fresh = s.fresh := rfl
@[simp] theorem State.setBlock_nextId (b : BlockId) (x : Block) : (s.setBlock b x).nextId = s.nextId := rfl
@[simp] theorem State.setBlock_pending (b : BlockId) (x : Block) : (s.setBlock b x).pending = s.pending := rfl
@[simp] theorem State.setBlock_struck (b : BlockId) (x : Block) : (s.setBlock b x).struck = s.struck := rfl

@[simp] theorem State.setVsu_strands (r : RegionId) (x : Vsu) : (s.setVsu r x).strands = s.strands := rfl
@[simp] theorem State.setVsu_blocks (r : RegionId) (x : Vsu) : (s.setVsu r x).blocks = s.blocks := rfl
@[simp] theorem State.setVsu_jobs (r : RegionId) (x : Vsu) : (s.setVsu r x).jobs = s.jobs := rfl
@[simp] theorem State.setVsu_engines (r : RegionId) (x : Vsu) : (s.setVsu r x).engines = s.engines := rfl
@[simp] theorem State.setVsu_mem (r : RegionId) (x : Vsu) : (s.setVsu r x).mem = s.mem := rfl
@[simp] theorem State.setVsu_poison (r : RegionId) (x : Vsu) : (s.setVsu r x).poison = s.poison := rfl
@[simp] theorem State.setVsu_segs (r : RegionId) (x : Vsu) : (s.setVsu r x).segs = s.segs := rfl
@[simp] theorem State.setVsu_mcs (r : RegionId) (x : Vsu) : (s.setVsu r x).mcs = s.mcs := rfl
@[simp] theorem State.setVsu_qe (r : RegionId) (x : Vsu) : (s.setVsu r x).qe = s.qe := rfl
@[simp] theorem State.setVsu_se (r : RegionId) (x : Vsu) : (s.setVsu r x).se = s.se := rfl
@[simp] theorem State.setVsu_wdt (r : RegionId) (x : Vsu) : (s.setVsu r x).wdt = s.wdt := rfl
@[simp] theorem State.setVsu_mbx (r : RegionId) (x : Vsu) : (s.setVsu r x).mbx = s.mbx := rfl
@[simp] theorem State.setVsu_arbs (r : RegionId) (x : Vsu) : (s.setVsu r x).arbs = s.arbs := rfl
@[simp] theorem State.setVsu_col (r : RegionId) (x : Vsu) : (s.setVsu r x).col = s.col := rfl
@[simp] theorem State.setVsu_coh (r : RegionId) (x : Vsu) : (s.setVsu r x).coh = s.coh := rfl
@[simp] theorem State.setVsu_host (r : RegionId) (x : Vsu) : (s.setVsu r x).host = s.host := rfl
@[simp] theorem State.setVsu_power (r : RegionId) (x : Vsu) : (s.setVsu r x).power = s.power := rfl
@[simp] theorem State.setVsu_func (r : RegionId) (x : Vsu) : (s.setVsu r x).func = s.func := rfl
@[simp] theorem State.setVsu_errlog (r : RegionId) (x : Vsu) : (s.setVsu r x).errlog = s.errlog := rfl
@[simp] theorem State.setVsu_nvm (r : RegionId) (x : Vsu) : (s.setVsu r x).nvm = s.nvm := rfl
@[simp] theorem State.setVsu_mgt (r : RegionId) (x : Vsu) : (s.setVsu r x).mgt = s.mgt := rfl
@[simp] theorem State.setVsu_tel (r : RegionId) (x : Vsu) : (s.setVsu r x).tel = s.tel := rfl
@[simp] theorem State.setVsu_board (r : RegionId) (x : Vsu) : (s.setVsu r x).board = s.board := rfl
@[simp] theorem State.setVsu_out (r : RegionId) (x : Vsu) : (s.setVsu r x).out = s.out := rfl
@[simp] theorem State.setVsu_fresh (r : RegionId) (x : Vsu) : (s.setVsu r x).fresh = s.fresh := rfl
@[simp] theorem State.setVsu_nextId (r : RegionId) (x : Vsu) : (s.setVsu r x).nextId = s.nextId := rfl
@[simp] theorem State.setVsu_pending (r : RegionId) (x : Vsu) : (s.setVsu r x).pending = s.pending := rfl
@[simp] theorem State.setVsu_struck (r : RegionId) (x : Vsu) : (s.setVsu r x).struck = s.struck := rfl

@[simp] theorem State.setPort_strands (p : PortId) (x : Port) : (s.setPort p x).strands = s.strands := rfl
@[simp] theorem State.setPort_blocks (p : PortId) (x : Port) : (s.setPort p x).blocks = s.blocks := rfl
@[simp] theorem State.setPort_jobs (p : PortId) (x : Port) : (s.setPort p x).jobs = s.jobs := rfl
@[simp] theorem State.setPort_engines (p : PortId) (x : Port) : (s.setPort p x).engines = s.engines := rfl
@[simp] theorem State.setPort_vsus (p : PortId) (x : Port) : (s.setPort p x).vsus = s.vsus := rfl
@[simp] theorem State.setPort_mem (p : PortId) (x : Port) : (s.setPort p x).mem = s.mem := rfl
@[simp] theorem State.setPort_poison (p : PortId) (x : Port) : (s.setPort p x).poison = s.poison := rfl
@[simp] theorem State.setPort_segs (p : PortId) (x : Port) : (s.setPort p x).segs = s.segs := rfl
@[simp] theorem State.setPort_mcs (p : PortId) (x : Port) : (s.setPort p x).mcs = s.mcs := rfl
@[simp] theorem State.setPort_qe (p : PortId) (x : Port) : (s.setPort p x).qe = s.qe := rfl
@[simp] theorem State.setPort_se (p : PortId) (x : Port) : (s.setPort p x).se = s.se := rfl
@[simp] theorem State.setPort_wdt (p : PortId) (x : Port) : (s.setPort p x).wdt = s.wdt := rfl
@[simp] theorem State.setPort_mbx (p : PortId) (x : Port) : (s.setPort p x).mbx = s.mbx := rfl
@[simp] theorem State.setPort_arbs (p : PortId) (x : Port) : (s.setPort p x).arbs = s.arbs := rfl
@[simp] theorem State.setPort_coh (p : PortId) (x : Port) : (s.setPort p x).coh = s.coh := rfl
@[simp] theorem State.setPort_host (p : PortId) (x : Port) : (s.setPort p x).host = s.host := rfl
@[simp] theorem State.setPort_power (p : PortId) (x : Port) : (s.setPort p x).power = s.power := rfl
@[simp] theorem State.setPort_func (p : PortId) (x : Port) : (s.setPort p x).func = s.func := rfl
@[simp] theorem State.setPort_errlog (p : PortId) (x : Port) : (s.setPort p x).errlog = s.errlog := rfl
@[simp] theorem State.setPort_nvm (p : PortId) (x : Port) : (s.setPort p x).nvm = s.nvm := rfl
@[simp] theorem State.setPort_mgt (p : PortId) (x : Port) : (s.setPort p x).mgt = s.mgt := rfl
@[simp] theorem State.setPort_tel (p : PortId) (x : Port) : (s.setPort p x).tel = s.tel := rfl
@[simp] theorem State.setPort_board (p : PortId) (x : Port) : (s.setPort p x).board = s.board := rfl
@[simp] theorem State.setPort_out (p : PortId) (x : Port) : (s.setPort p x).out = s.out := rfl
@[simp] theorem State.setPort_fresh (p : PortId) (x : Port) : (s.setPort p x).fresh = s.fresh := rfl
@[simp] theorem State.setPort_nextId (p : PortId) (x : Port) : (s.setPort p x).nextId = s.nextId := rfl
@[simp] theorem State.setPort_pending (p : PortId) (x : Port) : (s.setPort p x).pending = s.pending := rfl
@[simp] theorem State.setPort_struck (p : PortId) (x : Port) : (s.setPort p x).struck = s.struck := rfl

@[simp] theorem State.setMc_strands (m : McId) (x : MemCtl) : (s.setMc m x).strands = s.strands := rfl
@[simp] theorem State.setMc_blocks (m : McId) (x : MemCtl) : (s.setMc m x).blocks = s.blocks := rfl
@[simp] theorem State.setMc_jobs (m : McId) (x : MemCtl) : (s.setMc m x).jobs = s.jobs := rfl
@[simp] theorem State.setMc_engines (m : McId) (x : MemCtl) : (s.setMc m x).engines = s.engines := rfl
@[simp] theorem State.setMc_vsus (m : McId) (x : MemCtl) : (s.setMc m x).vsus = s.vsus := rfl
@[simp] theorem State.setMc_mem (m : McId) (x : MemCtl) : (s.setMc m x).mem = s.mem := rfl
@[simp] theorem State.setMc_poison (m : McId) (x : MemCtl) : (s.setMc m x).poison = s.poison := rfl
@[simp] theorem State.setMc_segs (m : McId) (x : MemCtl) : (s.setMc m x).segs = s.segs := rfl
@[simp] theorem State.setMc_qe (m : McId) (x : MemCtl) : (s.setMc m x).qe = s.qe := rfl
@[simp] theorem State.setMc_se (m : McId) (x : MemCtl) : (s.setMc m x).se = s.se := rfl
@[simp] theorem State.setMc_wdt (m : McId) (x : MemCtl) : (s.setMc m x).wdt = s.wdt := rfl
@[simp] theorem State.setMc_mbx (m : McId) (x : MemCtl) : (s.setMc m x).mbx = s.mbx := rfl
@[simp] theorem State.setMc_arbs (m : McId) (x : MemCtl) : (s.setMc m x).arbs = s.arbs := rfl
@[simp] theorem State.setMc_col (m : McId) (x : MemCtl) : (s.setMc m x).col = s.col := rfl
@[simp] theorem State.setMc_coh (m : McId) (x : MemCtl) : (s.setMc m x).coh = s.coh := rfl
@[simp] theorem State.setMc_host (m : McId) (x : MemCtl) : (s.setMc m x).host = s.host := rfl
@[simp] theorem State.setMc_power (m : McId) (x : MemCtl) : (s.setMc m x).power = s.power := rfl
@[simp] theorem State.setMc_func (m : McId) (x : MemCtl) : (s.setMc m x).func = s.func := rfl
@[simp] theorem State.setMc_errlog (m : McId) (x : MemCtl) : (s.setMc m x).errlog = s.errlog := rfl
@[simp] theorem State.setMc_nvm (m : McId) (x : MemCtl) : (s.setMc m x).nvm = s.nvm := rfl
@[simp] theorem State.setMc_mgt (m : McId) (x : MemCtl) : (s.setMc m x).mgt = s.mgt := rfl
@[simp] theorem State.setMc_tel (m : McId) (x : MemCtl) : (s.setMc m x).tel = s.tel := rfl
@[simp] theorem State.setMc_board (m : McId) (x : MemCtl) : (s.setMc m x).board = s.board := rfl
@[simp] theorem State.setMc_out (m : McId) (x : MemCtl) : (s.setMc m x).out = s.out := rfl
@[simp] theorem State.setMc_fresh (m : McId) (x : MemCtl) : (s.setMc m x).fresh = s.fresh := rfl
@[simp] theorem State.setMc_nextId (m : McId) (x : MemCtl) : (s.setMc m x).nextId = s.nextId := rfl
@[simp] theorem State.setMc_pending (m : McId) (x : MemCtl) : (s.setMc m x).pending = s.pending := rfl
@[simp] theorem State.setMc_struck (m : McId) (x : MemCtl) : (s.setMc m x).struck = s.struck := rfl

@[simp] theorem State.setPwr_strands (r : RegionId) (x : Pwr) : (s.setPwr r x).strands = s.strands := rfl
@[simp] theorem State.setPwr_blocks (r : RegionId) (x : Pwr) : (s.setPwr r x).blocks = s.blocks := rfl
@[simp] theorem State.setPwr_jobs (r : RegionId) (x : Pwr) : (s.setPwr r x).jobs = s.jobs := rfl
@[simp] theorem State.setPwr_engines (r : RegionId) (x : Pwr) : (s.setPwr r x).engines = s.engines := rfl
@[simp] theorem State.setPwr_vsus (r : RegionId) (x : Pwr) : (s.setPwr r x).vsus = s.vsus := rfl
@[simp] theorem State.setPwr_mem (r : RegionId) (x : Pwr) : (s.setPwr r x).mem = s.mem := rfl
@[simp] theorem State.setPwr_poison (r : RegionId) (x : Pwr) : (s.setPwr r x).poison = s.poison := rfl
@[simp] theorem State.setPwr_segs (r : RegionId) (x : Pwr) : (s.setPwr r x).segs = s.segs := rfl
@[simp] theorem State.setPwr_mcs (r : RegionId) (x : Pwr) : (s.setPwr r x).mcs = s.mcs := rfl
@[simp] theorem State.setPwr_qe (r : RegionId) (x : Pwr) : (s.setPwr r x).qe = s.qe := rfl
@[simp] theorem State.setPwr_se (r : RegionId) (x : Pwr) : (s.setPwr r x).se = s.se := rfl
@[simp] theorem State.setPwr_wdt (r : RegionId) (x : Pwr) : (s.setPwr r x).wdt = s.wdt := rfl
@[simp] theorem State.setPwr_mbx (r : RegionId) (x : Pwr) : (s.setPwr r x).mbx = s.mbx := rfl
@[simp] theorem State.setPwr_arbs (r : RegionId) (x : Pwr) : (s.setPwr r x).arbs = s.arbs := rfl
@[simp] theorem State.setPwr_col (r : RegionId) (x : Pwr) : (s.setPwr r x).col = s.col := rfl
@[simp] theorem State.setPwr_coh (r : RegionId) (x : Pwr) : (s.setPwr r x).coh = s.coh := rfl
@[simp] theorem State.setPwr_host (r : RegionId) (x : Pwr) : (s.setPwr r x).host = s.host := rfl
@[simp] theorem State.setPwr_func (r : RegionId) (x : Pwr) : (s.setPwr r x).func = s.func := rfl
@[simp] theorem State.setPwr_errlog (r : RegionId) (x : Pwr) : (s.setPwr r x).errlog = s.errlog := rfl
@[simp] theorem State.setPwr_nvm (r : RegionId) (x : Pwr) : (s.setPwr r x).nvm = s.nvm := rfl
@[simp] theorem State.setPwr_mgt (r : RegionId) (x : Pwr) : (s.setPwr r x).mgt = s.mgt := rfl
@[simp] theorem State.setPwr_tel (r : RegionId) (x : Pwr) : (s.setPwr r x).tel = s.tel := rfl
@[simp] theorem State.setPwr_board (r : RegionId) (x : Pwr) : (s.setPwr r x).board = s.board := rfl
@[simp] theorem State.setPwr_out (r : RegionId) (x : Pwr) : (s.setPwr r x).out = s.out := rfl
@[simp] theorem State.setPwr_fresh (r : RegionId) (x : Pwr) : (s.setPwr r x).fresh = s.fresh := rfl
@[simp] theorem State.setPwr_nextId (r : RegionId) (x : Pwr) : (s.setPwr r x).nextId = s.nextId := rfl
@[simp] theorem State.setPwr_pending (r : RegionId) (x : Pwr) : (s.setPwr r x).pending = s.pending := rfl
@[simp] theorem State.setPwr_struck (r : RegionId) (x : Pwr) : (s.setPwr r x).struck = s.struck := rfl

@[simp] theorem State.modStrand_blocks (n : StrandId) (f : Strand → Strand) : (s.modStrand n f).blocks = s.blocks := rfl
@[simp] theorem State.modStrand_jobs (n : StrandId) (f : Strand → Strand) : (s.modStrand n f).jobs = s.jobs := rfl
@[simp] theorem State.modStrand_engines (n : StrandId) (f : Strand → Strand) : (s.modStrand n f).engines = s.engines := rfl
@[simp] theorem State.modStrand_vsus (n : StrandId) (f : Strand → Strand) : (s.modStrand n f).vsus = s.vsus := rfl
@[simp] theorem State.modStrand_mem (n : StrandId) (f : Strand → Strand) : (s.modStrand n f).mem = s.mem := rfl
@[simp] theorem State.modStrand_poison (n : StrandId) (f : Strand → Strand) : (s.modStrand n f).poison = s.poison := rfl
@[simp] theorem State.modStrand_segs (n : StrandId) (f : Strand → Strand) : (s.modStrand n f).segs = s.segs := rfl
@[simp] theorem State.modStrand_mcs (n : StrandId) (f : Strand → Strand) : (s.modStrand n f).mcs = s.mcs := rfl
@[simp] theorem State.modStrand_qe (n : StrandId) (f : Strand → Strand) : (s.modStrand n f).qe = s.qe := rfl
@[simp] theorem State.modStrand_se (n : StrandId) (f : Strand → Strand) : (s.modStrand n f).se = s.se := rfl
@[simp] theorem State.modStrand_wdt (n : StrandId) (f : Strand → Strand) : (s.modStrand n f).wdt = s.wdt := rfl
@[simp] theorem State.modStrand_mbx (n : StrandId) (f : Strand → Strand) : (s.modStrand n f).mbx = s.mbx := rfl
@[simp] theorem State.modStrand_arbs (n : StrandId) (f : Strand → Strand) : (s.modStrand n f).arbs = s.arbs := rfl
@[simp] theorem State.modStrand_col (n : StrandId) (f : Strand → Strand) : (s.modStrand n f).col = s.col := rfl
@[simp] theorem State.modStrand_coh (n : StrandId) (f : Strand → Strand) : (s.modStrand n f).coh = s.coh := rfl
@[simp] theorem State.modStrand_host (n : StrandId) (f : Strand → Strand) : (s.modStrand n f).host = s.host := rfl
@[simp] theorem State.modStrand_power (n : StrandId) (f : Strand → Strand) : (s.modStrand n f).power = s.power := rfl
@[simp] theorem State.modStrand_func (n : StrandId) (f : Strand → Strand) : (s.modStrand n f).func = s.func := rfl
@[simp] theorem State.modStrand_errlog (n : StrandId) (f : Strand → Strand) : (s.modStrand n f).errlog = s.errlog := rfl
@[simp] theorem State.modStrand_nvm (n : StrandId) (f : Strand → Strand) : (s.modStrand n f).nvm = s.nvm := rfl
@[simp] theorem State.modStrand_mgt (n : StrandId) (f : Strand → Strand) : (s.modStrand n f).mgt = s.mgt := rfl
@[simp] theorem State.modStrand_tel (n : StrandId) (f : Strand → Strand) : (s.modStrand n f).tel = s.tel := rfl
@[simp] theorem State.modStrand_board (n : StrandId) (f : Strand → Strand) : (s.modStrand n f).board = s.board := rfl
@[simp] theorem State.modStrand_out (n : StrandId) (f : Strand → Strand) : (s.modStrand n f).out = s.out := rfl
@[simp] theorem State.modStrand_fresh (n : StrandId) (f : Strand → Strand) : (s.modStrand n f).fresh = s.fresh := rfl
@[simp] theorem State.modStrand_nextId (n : StrandId) (f : Strand → Strand) : (s.modStrand n f).nextId = s.nextId := rfl
@[simp] theorem State.modStrand_pending (n : StrandId) (f : Strand → Strand) : (s.modStrand n f).pending = s.pending := rfl
@[simp] theorem State.modStrand_struck (n : StrandId) (f : Strand → Strand) : (s.modStrand n f).struck = s.struck := rfl

@[simp] theorem State.modEngine_strands (e : EngineId) (f : Engine → Engine) : (s.modEngine e f).strands = s.strands := rfl
@[simp] theorem State.modEngine_blocks (e : EngineId) (f : Engine → Engine) : (s.modEngine e f).blocks = s.blocks := rfl
@[simp] theorem State.modEngine_jobs (e : EngineId) (f : Engine → Engine) : (s.modEngine e f).jobs = s.jobs := rfl
@[simp] theorem State.modEngine_vsus (e : EngineId) (f : Engine → Engine) : (s.modEngine e f).vsus = s.vsus := rfl
@[simp] theorem State.modEngine_mem (e : EngineId) (f : Engine → Engine) : (s.modEngine e f).mem = s.mem := rfl
@[simp] theorem State.modEngine_poison (e : EngineId) (f : Engine → Engine) : (s.modEngine e f).poison = s.poison := rfl
@[simp] theorem State.modEngine_segs (e : EngineId) (f : Engine → Engine) : (s.modEngine e f).segs = s.segs := rfl
@[simp] theorem State.modEngine_mcs (e : EngineId) (f : Engine → Engine) : (s.modEngine e f).mcs = s.mcs := rfl
@[simp] theorem State.modEngine_qe (e : EngineId) (f : Engine → Engine) : (s.modEngine e f).qe = s.qe := rfl
@[simp] theorem State.modEngine_se (e : EngineId) (f : Engine → Engine) : (s.modEngine e f).se = s.se := rfl
@[simp] theorem State.modEngine_wdt (e : EngineId) (f : Engine → Engine) : (s.modEngine e f).wdt = s.wdt := rfl
@[simp] theorem State.modEngine_mbx (e : EngineId) (f : Engine → Engine) : (s.modEngine e f).mbx = s.mbx := rfl
@[simp] theorem State.modEngine_arbs (e : EngineId) (f : Engine → Engine) : (s.modEngine e f).arbs = s.arbs := rfl
@[simp] theorem State.modEngine_col (e : EngineId) (f : Engine → Engine) : (s.modEngine e f).col = s.col := rfl
@[simp] theorem State.modEngine_coh (e : EngineId) (f : Engine → Engine) : (s.modEngine e f).coh = s.coh := rfl
@[simp] theorem State.modEngine_host (e : EngineId) (f : Engine → Engine) : (s.modEngine e f).host = s.host := rfl
@[simp] theorem State.modEngine_power (e : EngineId) (f : Engine → Engine) : (s.modEngine e f).power = s.power := rfl
@[simp] theorem State.modEngine_func (e : EngineId) (f : Engine → Engine) : (s.modEngine e f).func = s.func := rfl
@[simp] theorem State.modEngine_errlog (e : EngineId) (f : Engine → Engine) : (s.modEngine e f).errlog = s.errlog := rfl
@[simp] theorem State.modEngine_nvm (e : EngineId) (f : Engine → Engine) : (s.modEngine e f).nvm = s.nvm := rfl
@[simp] theorem State.modEngine_mgt (e : EngineId) (f : Engine → Engine) : (s.modEngine e f).mgt = s.mgt := rfl
@[simp] theorem State.modEngine_tel (e : EngineId) (f : Engine → Engine) : (s.modEngine e f).tel = s.tel := rfl
@[simp] theorem State.modEngine_board (e : EngineId) (f : Engine → Engine) : (s.modEngine e f).board = s.board := rfl
@[simp] theorem State.modEngine_out (e : EngineId) (f : Engine → Engine) : (s.modEngine e f).out = s.out := rfl
@[simp] theorem State.modEngine_fresh (e : EngineId) (f : Engine → Engine) : (s.modEngine e f).fresh = s.fresh := rfl
@[simp] theorem State.modEngine_nextId (e : EngineId) (f : Engine → Engine) : (s.modEngine e f).nextId = s.nextId := rfl
@[simp] theorem State.modEngine_pending (e : EngineId) (f : Engine → Engine) : (s.modEngine e f).pending = s.pending := rfl
@[simp] theorem State.modEngine_struck (e : EngineId) (f : Engine → Engine) : (s.modEngine e f).struck = s.struck := rfl

@[simp] theorem State.modPort_strands (p : PortId) (f : Port → Port) : (s.modPort p f).strands = s.strands := rfl
@[simp] theorem State.modPort_blocks (p : PortId) (f : Port → Port) : (s.modPort p f).blocks = s.blocks := rfl
@[simp] theorem State.modPort_jobs (p : PortId) (f : Port → Port) : (s.modPort p f).jobs = s.jobs := rfl
@[simp] theorem State.modPort_engines (p : PortId) (f : Port → Port) : (s.modPort p f).engines = s.engines := rfl
@[simp] theorem State.modPort_vsus (p : PortId) (f : Port → Port) : (s.modPort p f).vsus = s.vsus := rfl
@[simp] theorem State.modPort_mem (p : PortId) (f : Port → Port) : (s.modPort p f).mem = s.mem := rfl
@[simp] theorem State.modPort_poison (p : PortId) (f : Port → Port) : (s.modPort p f).poison = s.poison := rfl
@[simp] theorem State.modPort_segs (p : PortId) (f : Port → Port) : (s.modPort p f).segs = s.segs := rfl
@[simp] theorem State.modPort_mcs (p : PortId) (f : Port → Port) : (s.modPort p f).mcs = s.mcs := rfl
@[simp] theorem State.modPort_qe (p : PortId) (f : Port → Port) : (s.modPort p f).qe = s.qe := rfl
@[simp] theorem State.modPort_se (p : PortId) (f : Port → Port) : (s.modPort p f).se = s.se := rfl
@[simp] theorem State.modPort_wdt (p : PortId) (f : Port → Port) : (s.modPort p f).wdt = s.wdt := rfl
@[simp] theorem State.modPort_mbx (p : PortId) (f : Port → Port) : (s.modPort p f).mbx = s.mbx := rfl
@[simp] theorem State.modPort_arbs (p : PortId) (f : Port → Port) : (s.modPort p f).arbs = s.arbs := rfl
@[simp] theorem State.modPort_coh (p : PortId) (f : Port → Port) : (s.modPort p f).coh = s.coh := rfl
@[simp] theorem State.modPort_host (p : PortId) (f : Port → Port) : (s.modPort p f).host = s.host := rfl
@[simp] theorem State.modPort_power (p : PortId) (f : Port → Port) : (s.modPort p f).power = s.power := rfl
@[simp] theorem State.modPort_func (p : PortId) (f : Port → Port) : (s.modPort p f).func = s.func := rfl
@[simp] theorem State.modPort_errlog (p : PortId) (f : Port → Port) : (s.modPort p f).errlog = s.errlog := rfl
@[simp] theorem State.modPort_nvm (p : PortId) (f : Port → Port) : (s.modPort p f).nvm = s.nvm := rfl
@[simp] theorem State.modPort_mgt (p : PortId) (f : Port → Port) : (s.modPort p f).mgt = s.mgt := rfl
@[simp] theorem State.modPort_tel (p : PortId) (f : Port → Port) : (s.modPort p f).tel = s.tel := rfl
@[simp] theorem State.modPort_board (p : PortId) (f : Port → Port) : (s.modPort p f).board = s.board := rfl
@[simp] theorem State.modPort_out (p : PortId) (f : Port → Port) : (s.modPort p f).out = s.out := rfl
@[simp] theorem State.modPort_fresh (p : PortId) (f : Port → Port) : (s.modPort p f).fresh = s.fresh := rfl
@[simp] theorem State.modPort_nextId (p : PortId) (f : Port → Port) : (s.modPort p f).nextId = s.nextId := rfl
@[simp] theorem State.modPort_pending (p : PortId) (f : Port → Port) : (s.modPort p f).pending = s.pending := rfl
@[simp] theorem State.modPort_struck (p : PortId) (f : Port → Port) : (s.modPort p f).struck = s.struck := rfl

@[simp] theorem State.send_strands (o : Out) : (s.send o).strands = s.strands := rfl
@[simp] theorem State.send_blocks (o : Out) : (s.send o).blocks = s.blocks := rfl
@[simp] theorem State.send_jobs (o : Out) : (s.send o).jobs = s.jobs := rfl
@[simp] theorem State.send_engines (o : Out) : (s.send o).engines = s.engines := rfl
@[simp] theorem State.send_vsus (o : Out) : (s.send o).vsus = s.vsus := rfl
@[simp] theorem State.send_mem (o : Out) : (s.send o).mem = s.mem := rfl
@[simp] theorem State.send_poison (o : Out) : (s.send o).poison = s.poison := rfl
@[simp] theorem State.send_segs (o : Out) : (s.send o).segs = s.segs := rfl
@[simp] theorem State.send_mcs (o : Out) : (s.send o).mcs = s.mcs := rfl
@[simp] theorem State.send_qe (o : Out) : (s.send o).qe = s.qe := rfl
@[simp] theorem State.send_se (o : Out) : (s.send o).se = s.se := rfl
@[simp] theorem State.send_wdt (o : Out) : (s.send o).wdt = s.wdt := rfl
@[simp] theorem State.send_mbx (o : Out) : (s.send o).mbx = s.mbx := rfl
@[simp] theorem State.send_arbs (o : Out) : (s.send o).arbs = s.arbs := rfl
@[simp] theorem State.send_col (o : Out) : (s.send o).col = s.col := rfl
@[simp] theorem State.send_coh (o : Out) : (s.send o).coh = s.coh := rfl
@[simp] theorem State.send_host (o : Out) : (s.send o).host = s.host := rfl
@[simp] theorem State.send_power (o : Out) : (s.send o).power = s.power := rfl
@[simp] theorem State.send_func (o : Out) : (s.send o).func = s.func := rfl
@[simp] theorem State.send_errlog (o : Out) : (s.send o).errlog = s.errlog := rfl
@[simp] theorem State.send_nvm (o : Out) : (s.send o).nvm = s.nvm := rfl
@[simp] theorem State.send_mgt (o : Out) : (s.send o).mgt = s.mgt := rfl
@[simp] theorem State.send_tel (o : Out) : (s.send o).tel = s.tel := rfl
@[simp] theorem State.send_board (o : Out) : (s.send o).board = s.board := rfl
@[simp] theorem State.send_fresh (o : Out) : (s.send o).fresh = s.fresh := rfl
@[simp] theorem State.send_nextId (o : Out) : (s.send o).nextId = s.nextId := rfl
@[simp] theorem State.send_pending (o : Out) : (s.send o).pending = s.pending := rfl
@[simp] theorem State.send_struck (o : Out) : (s.send o).struck = s.struck := rfl

@[simp] theorem State.setMbx_strands (m : Mailboxes) : (s.setMbx m).strands = s.strands := rfl
@[simp] theorem State.setMbx_blocks (m : Mailboxes) : (s.setMbx m).blocks = s.blocks := rfl
@[simp] theorem State.setMbx_jobs (m : Mailboxes) : (s.setMbx m).jobs = s.jobs := rfl
@[simp] theorem State.setMbx_engines (m : Mailboxes) : (s.setMbx m).engines = s.engines := rfl
@[simp] theorem State.setMbx_vsus (m : Mailboxes) : (s.setMbx m).vsus = s.vsus := rfl
@[simp] theorem State.setMbx_mem (m : Mailboxes) : (s.setMbx m).mem = s.mem := rfl
@[simp] theorem State.setMbx_poison (m : Mailboxes) : (s.setMbx m).poison = s.poison := rfl
@[simp] theorem State.setMbx_segs (m : Mailboxes) : (s.setMbx m).segs = s.segs := rfl
@[simp] theorem State.setMbx_mcs (m : Mailboxes) : (s.setMbx m).mcs = s.mcs := rfl
@[simp] theorem State.setMbx_qe (m : Mailboxes) : (s.setMbx m).qe = s.qe := rfl
@[simp] theorem State.setMbx_se (m : Mailboxes) : (s.setMbx m).se = s.se := rfl
@[simp] theorem State.setMbx_wdt (m : Mailboxes) : (s.setMbx m).wdt = s.wdt := rfl
@[simp] theorem State.setMbx_arbs (m : Mailboxes) : (s.setMbx m).arbs = s.arbs := rfl
@[simp] theorem State.setMbx_col (m : Mailboxes) : (s.setMbx m).col = s.col := rfl
@[simp] theorem State.setMbx_coh (m : Mailboxes) : (s.setMbx m).coh = s.coh := rfl
@[simp] theorem State.setMbx_host (m : Mailboxes) : (s.setMbx m).host = s.host := rfl
@[simp] theorem State.setMbx_power (m : Mailboxes) : (s.setMbx m).power = s.power := rfl
@[simp] theorem State.setMbx_func (m : Mailboxes) : (s.setMbx m).func = s.func := rfl
@[simp] theorem State.setMbx_errlog (m : Mailboxes) : (s.setMbx m).errlog = s.errlog := rfl
@[simp] theorem State.setMbx_nvm (m : Mailboxes) : (s.setMbx m).nvm = s.nvm := rfl
@[simp] theorem State.setMbx_mgt (m : Mailboxes) : (s.setMbx m).mgt = s.mgt := rfl
@[simp] theorem State.setMbx_tel (m : Mailboxes) : (s.setMbx m).tel = s.tel := rfl
@[simp] theorem State.setMbx_board (m : Mailboxes) : (s.setMbx m).board = s.board := rfl
@[simp] theorem State.setMbx_out (m : Mailboxes) : (s.setMbx m).out = s.out := rfl
@[simp] theorem State.setMbx_fresh (m : Mailboxes) : (s.setMbx m).fresh = s.fresh := rfl
@[simp] theorem State.setMbx_nextId (m : Mailboxes) : (s.setMbx m).nextId = s.nextId := rfl
@[simp] theorem State.setMbx_pending (m : Mailboxes) : (s.setMbx m).pending = s.pending := rfl
@[simp] theorem State.setMbx_struck (m : Mailboxes) : (s.setMbx m).struck = s.struck := rfl

@[simp] theorem State.setQe_strands (q : Qe) : (s.setQe q).strands = s.strands := rfl
@[simp] theorem State.setQe_blocks (q : Qe) : (s.setQe q).blocks = s.blocks := rfl
@[simp] theorem State.setQe_jobs (q : Qe) : (s.setQe q).jobs = s.jobs := rfl
@[simp] theorem State.setQe_engines (q : Qe) : (s.setQe q).engines = s.engines := rfl
@[simp] theorem State.setQe_vsus (q : Qe) : (s.setQe q).vsus = s.vsus := rfl
@[simp] theorem State.setQe_mem (q : Qe) : (s.setQe q).mem = s.mem := rfl
@[simp] theorem State.setQe_poison (q : Qe) : (s.setQe q).poison = s.poison := rfl
@[simp] theorem State.setQe_segs (q : Qe) : (s.setQe q).segs = s.segs := rfl
@[simp] theorem State.setQe_mcs (q : Qe) : (s.setQe q).mcs = s.mcs := rfl
@[simp] theorem State.setQe_se (q : Qe) : (s.setQe q).se = s.se := rfl
@[simp] theorem State.setQe_wdt (q : Qe) : (s.setQe q).wdt = s.wdt := rfl
@[simp] theorem State.setQe_mbx (q : Qe) : (s.setQe q).mbx = s.mbx := rfl
@[simp] theorem State.setQe_arbs (q : Qe) : (s.setQe q).arbs = s.arbs := rfl
@[simp] theorem State.setQe_col (q : Qe) : (s.setQe q).col = s.col := rfl
@[simp] theorem State.setQe_coh (q : Qe) : (s.setQe q).coh = s.coh := rfl
@[simp] theorem State.setQe_host (q : Qe) : (s.setQe q).host = s.host := rfl
@[simp] theorem State.setQe_power (q : Qe) : (s.setQe q).power = s.power := rfl
@[simp] theorem State.setQe_func (q : Qe) : (s.setQe q).func = s.func := rfl
@[simp] theorem State.setQe_errlog (q : Qe) : (s.setQe q).errlog = s.errlog := rfl
@[simp] theorem State.setQe_nvm (q : Qe) : (s.setQe q).nvm = s.nvm := rfl
@[simp] theorem State.setQe_mgt (q : Qe) : (s.setQe q).mgt = s.mgt := rfl
@[simp] theorem State.setQe_tel (q : Qe) : (s.setQe q).tel = s.tel := rfl
@[simp] theorem State.setQe_board (q : Qe) : (s.setQe q).board = s.board := rfl
@[simp] theorem State.setQe_out (q : Qe) : (s.setQe q).out = s.out := rfl
@[simp] theorem State.setQe_fresh (q : Qe) : (s.setQe q).fresh = s.fresh := rfl
@[simp] theorem State.setQe_nextId (q : Qe) : (s.setQe q).nextId = s.nextId := rfl
@[simp] theorem State.setQe_pending (q : Qe) : (s.setQe q).pending = s.pending := rfl
@[simp] theorem State.setQe_struck (q : Qe) : (s.setQe q).struck = s.struck := rfl

@[simp] theorem State.setSe_strands (q : Se) : (s.setSe q).strands = s.strands := rfl
@[simp] theorem State.setSe_blocks (q : Se) : (s.setSe q).blocks = s.blocks := rfl
@[simp] theorem State.setSe_jobs (q : Se) : (s.setSe q).jobs = s.jobs := rfl
@[simp] theorem State.setSe_engines (q : Se) : (s.setSe q).engines = s.engines := rfl
@[simp] theorem State.setSe_vsus (q : Se) : (s.setSe q).vsus = s.vsus := rfl
@[simp] theorem State.setSe_mem (q : Se) : (s.setSe q).mem = s.mem := rfl
@[simp] theorem State.setSe_poison (q : Se) : (s.setSe q).poison = s.poison := rfl
@[simp] theorem State.setSe_segs (q : Se) : (s.setSe q).segs = s.segs := rfl
@[simp] theorem State.setSe_mcs (q : Se) : (s.setSe q).mcs = s.mcs := rfl
@[simp] theorem State.setSe_qe (q : Se) : (s.setSe q).qe = s.qe := rfl
@[simp] theorem State.setSe_wdt (q : Se) : (s.setSe q).wdt = s.wdt := rfl
@[simp] theorem State.setSe_mbx (q : Se) : (s.setSe q).mbx = s.mbx := rfl
@[simp] theorem State.setSe_arbs (q : Se) : (s.setSe q).arbs = s.arbs := rfl
@[simp] theorem State.setSe_col (q : Se) : (s.setSe q).col = s.col := rfl
@[simp] theorem State.setSe_coh (q : Se) : (s.setSe q).coh = s.coh := rfl
@[simp] theorem State.setSe_host (q : Se) : (s.setSe q).host = s.host := rfl
@[simp] theorem State.setSe_power (q : Se) : (s.setSe q).power = s.power := rfl
@[simp] theorem State.setSe_func (q : Se) : (s.setSe q).func = s.func := rfl
@[simp] theorem State.setSe_errlog (q : Se) : (s.setSe q).errlog = s.errlog := rfl
@[simp] theorem State.setSe_nvm (q : Se) : (s.setSe q).nvm = s.nvm := rfl
@[simp] theorem State.setSe_mgt (q : Se) : (s.setSe q).mgt = s.mgt := rfl
@[simp] theorem State.setSe_tel (q : Se) : (s.setSe q).tel = s.tel := rfl
@[simp] theorem State.setSe_board (q : Se) : (s.setSe q).board = s.board := rfl
@[simp] theorem State.setSe_out (q : Se) : (s.setSe q).out = s.out := rfl
@[simp] theorem State.setSe_fresh (q : Se) : (s.setSe q).fresh = s.fresh := rfl
@[simp] theorem State.setSe_nextId (q : Se) : (s.setSe q).nextId = s.nextId := rfl
@[simp] theorem State.setSe_pending (q : Se) : (s.setSe q).pending = s.pending := rfl
@[simp] theorem State.setSe_struck (q : Se) : (s.setSe q).struck = s.struck := rfl

@[simp] theorem State.setNvm_strands (q : Nvm) : (s.setNvm q).strands = s.strands := rfl
@[simp] theorem State.setNvm_blocks (q : Nvm) : (s.setNvm q).blocks = s.blocks := rfl
@[simp] theorem State.setNvm_jobs (q : Nvm) : (s.setNvm q).jobs = s.jobs := rfl
@[simp] theorem State.setNvm_engines (q : Nvm) : (s.setNvm q).engines = s.engines := rfl
@[simp] theorem State.setNvm_vsus (q : Nvm) : (s.setNvm q).vsus = s.vsus := rfl
@[simp] theorem State.setNvm_mem (q : Nvm) : (s.setNvm q).mem = s.mem := rfl
@[simp] theorem State.setNvm_poison (q : Nvm) : (s.setNvm q).poison = s.poison := rfl
@[simp] theorem State.setNvm_segs (q : Nvm) : (s.setNvm q).segs = s.segs := rfl
@[simp] theorem State.setNvm_mcs (q : Nvm) : (s.setNvm q).mcs = s.mcs := rfl
@[simp] theorem State.setNvm_qe (q : Nvm) : (s.setNvm q).qe = s.qe := rfl
@[simp] theorem State.setNvm_se (q : Nvm) : (s.setNvm q).se = s.se := rfl
@[simp] theorem State.setNvm_wdt (q : Nvm) : (s.setNvm q).wdt = s.wdt := rfl
@[simp] theorem State.setNvm_mbx (q : Nvm) : (s.setNvm q).mbx = s.mbx := rfl
@[simp] theorem State.setNvm_arbs (q : Nvm) : (s.setNvm q).arbs = s.arbs := rfl
@[simp] theorem State.setNvm_col (q : Nvm) : (s.setNvm q).col = s.col := rfl
@[simp] theorem State.setNvm_coh (q : Nvm) : (s.setNvm q).coh = s.coh := rfl
@[simp] theorem State.setNvm_host (q : Nvm) : (s.setNvm q).host = s.host := rfl
@[simp] theorem State.setNvm_power (q : Nvm) : (s.setNvm q).power = s.power := rfl
@[simp] theorem State.setNvm_func (q : Nvm) : (s.setNvm q).func = s.func := rfl
@[simp] theorem State.setNvm_errlog (q : Nvm) : (s.setNvm q).errlog = s.errlog := rfl
@[simp] theorem State.setNvm_mgt (q : Nvm) : (s.setNvm q).mgt = s.mgt := rfl
@[simp] theorem State.setNvm_tel (q : Nvm) : (s.setNvm q).tel = s.tel := rfl
@[simp] theorem State.setNvm_board (q : Nvm) : (s.setNvm q).board = s.board := rfl
@[simp] theorem State.setNvm_out (q : Nvm) : (s.setNvm q).out = s.out := rfl
@[simp] theorem State.setNvm_fresh (q : Nvm) : (s.setNvm q).fresh = s.fresh := rfl
@[simp] theorem State.setNvm_nextId (q : Nvm) : (s.setNvm q).nextId = s.nextId := rfl
@[simp] theorem State.setNvm_pending (q : Nvm) : (s.setNvm q).pending = s.pending := rfl
@[simp] theorem State.setNvm_struck (q : Nvm) : (s.setNvm q).struck = s.struck := rfl

@[simp] theorem State.setMgt_strands (q : Mgt) : (s.setMgt q).strands = s.strands := rfl
@[simp] theorem State.setMgt_blocks (q : Mgt) : (s.setMgt q).blocks = s.blocks := rfl
@[simp] theorem State.setMgt_jobs (q : Mgt) : (s.setMgt q).jobs = s.jobs := rfl
@[simp] theorem State.setMgt_engines (q : Mgt) : (s.setMgt q).engines = s.engines := rfl
@[simp] theorem State.setMgt_vsus (q : Mgt) : (s.setMgt q).vsus = s.vsus := rfl
@[simp] theorem State.setMgt_mem (q : Mgt) : (s.setMgt q).mem = s.mem := rfl
@[simp] theorem State.setMgt_poison (q : Mgt) : (s.setMgt q).poison = s.poison := rfl
@[simp] theorem State.setMgt_segs (q : Mgt) : (s.setMgt q).segs = s.segs := rfl
@[simp] theorem State.setMgt_mcs (q : Mgt) : (s.setMgt q).mcs = s.mcs := rfl
@[simp] theorem State.setMgt_qe (q : Mgt) : (s.setMgt q).qe = s.qe := rfl
@[simp] theorem State.setMgt_se (q : Mgt) : (s.setMgt q).se = s.se := rfl
@[simp] theorem State.setMgt_wdt (q : Mgt) : (s.setMgt q).wdt = s.wdt := rfl
@[simp] theorem State.setMgt_mbx (q : Mgt) : (s.setMgt q).mbx = s.mbx := rfl
@[simp] theorem State.setMgt_arbs (q : Mgt) : (s.setMgt q).arbs = s.arbs := rfl
@[simp] theorem State.setMgt_col (q : Mgt) : (s.setMgt q).col = s.col := rfl
@[simp] theorem State.setMgt_coh (q : Mgt) : (s.setMgt q).coh = s.coh := rfl
@[simp] theorem State.setMgt_host (q : Mgt) : (s.setMgt q).host = s.host := rfl
@[simp] theorem State.setMgt_power (q : Mgt) : (s.setMgt q).power = s.power := rfl
@[simp] theorem State.setMgt_func (q : Mgt) : (s.setMgt q).func = s.func := rfl
@[simp] theorem State.setMgt_errlog (q : Mgt) : (s.setMgt q).errlog = s.errlog := rfl
@[simp] theorem State.setMgt_nvm (q : Mgt) : (s.setMgt q).nvm = s.nvm := rfl
@[simp] theorem State.setMgt_tel (q : Mgt) : (s.setMgt q).tel = s.tel := rfl
@[simp] theorem State.setMgt_board (q : Mgt) : (s.setMgt q).board = s.board := rfl
@[simp] theorem State.setMgt_out (q : Mgt) : (s.setMgt q).out = s.out := rfl
@[simp] theorem State.setMgt_fresh (q : Mgt) : (s.setMgt q).fresh = s.fresh := rfl
@[simp] theorem State.setMgt_nextId (q : Mgt) : (s.setMgt q).nextId = s.nextId := rfl
@[simp] theorem State.setMgt_pending (q : Mgt) : (s.setMgt q).pending = s.pending := rfl
@[simp] theorem State.setMgt_struck (q : Mgt) : (s.setMgt q).struck = s.struck := rfl

@[simp] theorem State.setBoard_strands (q : Board) : (s.setBoard q).strands = s.strands := rfl
@[simp] theorem State.setBoard_blocks (q : Board) : (s.setBoard q).blocks = s.blocks := rfl
@[simp] theorem State.setBoard_jobs (q : Board) : (s.setBoard q).jobs = s.jobs := rfl
@[simp] theorem State.setBoard_engines (q : Board) : (s.setBoard q).engines = s.engines := rfl
@[simp] theorem State.setBoard_vsus (q : Board) : (s.setBoard q).vsus = s.vsus := rfl
@[simp] theorem State.setBoard_mem (q : Board) : (s.setBoard q).mem = s.mem := rfl
@[simp] theorem State.setBoard_poison (q : Board) : (s.setBoard q).poison = s.poison := rfl
@[simp] theorem State.setBoard_segs (q : Board) : (s.setBoard q).segs = s.segs := rfl
@[simp] theorem State.setBoard_mcs (q : Board) : (s.setBoard q).mcs = s.mcs := rfl
@[simp] theorem State.setBoard_qe (q : Board) : (s.setBoard q).qe = s.qe := rfl
@[simp] theorem State.setBoard_se (q : Board) : (s.setBoard q).se = s.se := rfl
@[simp] theorem State.setBoard_wdt (q : Board) : (s.setBoard q).wdt = s.wdt := rfl
@[simp] theorem State.setBoard_mbx (q : Board) : (s.setBoard q).mbx = s.mbx := rfl
@[simp] theorem State.setBoard_arbs (q : Board) : (s.setBoard q).arbs = s.arbs := rfl
@[simp] theorem State.setBoard_col (q : Board) : (s.setBoard q).col = s.col := rfl
@[simp] theorem State.setBoard_coh (q : Board) : (s.setBoard q).coh = s.coh := rfl
@[simp] theorem State.setBoard_host (q : Board) : (s.setBoard q).host = s.host := rfl
@[simp] theorem State.setBoard_power (q : Board) : (s.setBoard q).power = s.power := rfl
@[simp] theorem State.setBoard_func (q : Board) : (s.setBoard q).func = s.func := rfl
@[simp] theorem State.setBoard_errlog (q : Board) : (s.setBoard q).errlog = s.errlog := rfl
@[simp] theorem State.setBoard_nvm (q : Board) : (s.setBoard q).nvm = s.nvm := rfl
@[simp] theorem State.setBoard_mgt (q : Board) : (s.setBoard q).mgt = s.mgt := rfl
@[simp] theorem State.setBoard_tel (q : Board) : (s.setBoard q).tel = s.tel := rfl
@[simp] theorem State.setBoard_out (q : Board) : (s.setBoard q).out = s.out := rfl
@[simp] theorem State.setBoard_fresh (q : Board) : (s.setBoard q).fresh = s.fresh := rfl
@[simp] theorem State.setBoard_nextId (q : Board) : (s.setBoard q).nextId = s.nextId := rfl
@[simp] theorem State.setBoard_pending (q : Board) : (s.setBoard q).pending = s.pending := rfl
@[simp] theorem State.setBoard_struck (q : Board) : (s.setBoard q).struck = s.struck := rfl

@[simp] theorem State.setSeg_strands (k : Nat) (g : Seg) : (s.setSeg k g).strands = s.strands := rfl
@[simp] theorem State.setSeg_blocks (k : Nat) (g : Seg) : (s.setSeg k g).blocks = s.blocks := rfl
@[simp] theorem State.setSeg_jobs (k : Nat) (g : Seg) : (s.setSeg k g).jobs = s.jobs := rfl
@[simp] theorem State.setSeg_engines (k : Nat) (g : Seg) : (s.setSeg k g).engines = s.engines := rfl
@[simp] theorem State.setSeg_vsus (k : Nat) (g : Seg) : (s.setSeg k g).vsus = s.vsus := rfl
@[simp] theorem State.setSeg_mem (k : Nat) (g : Seg) : (s.setSeg k g).mem = s.mem := rfl
@[simp] theorem State.setSeg_poison (k : Nat) (g : Seg) : (s.setSeg k g).poison = s.poison := rfl
@[simp] theorem State.setSeg_mcs (k : Nat) (g : Seg) : (s.setSeg k g).mcs = s.mcs := rfl
@[simp] theorem State.setSeg_qe (k : Nat) (g : Seg) : (s.setSeg k g).qe = s.qe := rfl
@[simp] theorem State.setSeg_se (k : Nat) (g : Seg) : (s.setSeg k g).se = s.se := rfl
@[simp] theorem State.setSeg_wdt (k : Nat) (g : Seg) : (s.setSeg k g).wdt = s.wdt := rfl
@[simp] theorem State.setSeg_mbx (k : Nat) (g : Seg) : (s.setSeg k g).mbx = s.mbx := rfl
@[simp] theorem State.setSeg_arbs (k : Nat) (g : Seg) : (s.setSeg k g).arbs = s.arbs := rfl
@[simp] theorem State.setSeg_col (k : Nat) (g : Seg) : (s.setSeg k g).col = s.col := rfl
@[simp] theorem State.setSeg_coh (k : Nat) (g : Seg) : (s.setSeg k g).coh = s.coh := rfl
@[simp] theorem State.setSeg_host (k : Nat) (g : Seg) : (s.setSeg k g).host = s.host := rfl
@[simp] theorem State.setSeg_power (k : Nat) (g : Seg) : (s.setSeg k g).power = s.power := rfl
@[simp] theorem State.setSeg_func (k : Nat) (g : Seg) : (s.setSeg k g).func = s.func := rfl
@[simp] theorem State.setSeg_errlog (k : Nat) (g : Seg) : (s.setSeg k g).errlog = s.errlog := rfl
@[simp] theorem State.setSeg_nvm (k : Nat) (g : Seg) : (s.setSeg k g).nvm = s.nvm := rfl
@[simp] theorem State.setSeg_mgt (k : Nat) (g : Seg) : (s.setSeg k g).mgt = s.mgt := rfl
@[simp] theorem State.setSeg_tel (k : Nat) (g : Seg) : (s.setSeg k g).tel = s.tel := rfl
@[simp] theorem State.setSeg_board (k : Nat) (g : Seg) : (s.setSeg k g).board = s.board := rfl
@[simp] theorem State.setSeg_out (k : Nat) (g : Seg) : (s.setSeg k g).out = s.out := rfl
@[simp] theorem State.setSeg_fresh (k : Nat) (g : Seg) : (s.setSeg k g).fresh = s.fresh := rfl
@[simp] theorem State.setSeg_nextId (k : Nat) (g : Seg) : (s.setSeg k g).nextId = s.nextId := rfl
@[simp] theorem State.setSeg_pending (k : Nat) (g : Seg) : (s.setSeg k g).pending = s.pending := rfl
@[simp] theorem State.setSeg_struck (k : Nat) (g : Seg) : (s.setSeg k g).struck = s.struck := rfl

@[simp] theorem State.setArb_strands (a : Nat) (x : Arb) : (s.setArb a x).strands = s.strands := rfl
@[simp] theorem State.setArb_blocks (a : Nat) (x : Arb) : (s.setArb a x).blocks = s.blocks := rfl
@[simp] theorem State.setArb_jobs (a : Nat) (x : Arb) : (s.setArb a x).jobs = s.jobs := rfl
@[simp] theorem State.setArb_engines (a : Nat) (x : Arb) : (s.setArb a x).engines = s.engines := rfl
@[simp] theorem State.setArb_vsus (a : Nat) (x : Arb) : (s.setArb a x).vsus = s.vsus := rfl
@[simp] theorem State.setArb_mem (a : Nat) (x : Arb) : (s.setArb a x).mem = s.mem := rfl
@[simp] theorem State.setArb_poison (a : Nat) (x : Arb) : (s.setArb a x).poison = s.poison := rfl
@[simp] theorem State.setArb_segs (a : Nat) (x : Arb) : (s.setArb a x).segs = s.segs := rfl
@[simp] theorem State.setArb_mcs (a : Nat) (x : Arb) : (s.setArb a x).mcs = s.mcs := rfl
@[simp] theorem State.setArb_qe (a : Nat) (x : Arb) : (s.setArb a x).qe = s.qe := rfl
@[simp] theorem State.setArb_se (a : Nat) (x : Arb) : (s.setArb a x).se = s.se := rfl
@[simp] theorem State.setArb_wdt (a : Nat) (x : Arb) : (s.setArb a x).wdt = s.wdt := rfl
@[simp] theorem State.setArb_mbx (a : Nat) (x : Arb) : (s.setArb a x).mbx = s.mbx := rfl
@[simp] theorem State.setArb_col (a : Nat) (x : Arb) : (s.setArb a x).col = s.col := rfl
@[simp] theorem State.setArb_coh (a : Nat) (x : Arb) : (s.setArb a x).coh = s.coh := rfl
@[simp] theorem State.setArb_host (a : Nat) (x : Arb) : (s.setArb a x).host = s.host := rfl
@[simp] theorem State.setArb_power (a : Nat) (x : Arb) : (s.setArb a x).power = s.power := rfl
@[simp] theorem State.setArb_func (a : Nat) (x : Arb) : (s.setArb a x).func = s.func := rfl
@[simp] theorem State.setArb_errlog (a : Nat) (x : Arb) : (s.setArb a x).errlog = s.errlog := rfl
@[simp] theorem State.setArb_nvm (a : Nat) (x : Arb) : (s.setArb a x).nvm = s.nvm := rfl
@[simp] theorem State.setArb_mgt (a : Nat) (x : Arb) : (s.setArb a x).mgt = s.mgt := rfl
@[simp] theorem State.setArb_tel (a : Nat) (x : Arb) : (s.setArb a x).tel = s.tel := rfl
@[simp] theorem State.setArb_board (a : Nat) (x : Arb) : (s.setArb a x).board = s.board := rfl
@[simp] theorem State.setArb_out (a : Nat) (x : Arb) : (s.setArb a x).out = s.out := rfl
@[simp] theorem State.setArb_fresh (a : Nat) (x : Arb) : (s.setArb a x).fresh = s.fresh := rfl
@[simp] theorem State.setArb_nextId (a : Nat) (x : Arb) : (s.setArb a x).nextId = s.nextId := rfl
@[simp] theorem State.setArb_pending (a : Nat) (x : Arb) : (s.setArb a x).pending = s.pending := rfl
@[simp] theorem State.setArb_struck (a : Nat) (x : Arb) : (s.setArb a x).struck = s.struck := rfl

@[simp] theorem State.modLaunch_strands (i : Nat) (f : Launch → Launch) : (s.modLaunch i f).strands = s.strands := rfl
@[simp] theorem State.modLaunch_blocks (i : Nat) (f : Launch → Launch) : (s.modLaunch i f).blocks = s.blocks := rfl
@[simp] theorem State.modLaunch_jobs (i : Nat) (f : Launch → Launch) : (s.modLaunch i f).jobs = s.jobs := rfl
@[simp] theorem State.modLaunch_engines (i : Nat) (f : Launch → Launch) : (s.modLaunch i f).engines = s.engines := rfl
@[simp] theorem State.modLaunch_vsus (i : Nat) (f : Launch → Launch) : (s.modLaunch i f).vsus = s.vsus := rfl
@[simp] theorem State.modLaunch_mem (i : Nat) (f : Launch → Launch) : (s.modLaunch i f).mem = s.mem := rfl
@[simp] theorem State.modLaunch_poison (i : Nat) (f : Launch → Launch) : (s.modLaunch i f).poison = s.poison := rfl
@[simp] theorem State.modLaunch_segs (i : Nat) (f : Launch → Launch) : (s.modLaunch i f).segs = s.segs := rfl
@[simp] theorem State.modLaunch_mcs (i : Nat) (f : Launch → Launch) : (s.modLaunch i f).mcs = s.mcs := rfl
@[simp] theorem State.modLaunch_se (i : Nat) (f : Launch → Launch) : (s.modLaunch i f).se = s.se := rfl
@[simp] theorem State.modLaunch_wdt (i : Nat) (f : Launch → Launch) : (s.modLaunch i f).wdt = s.wdt := rfl
@[simp] theorem State.modLaunch_mbx (i : Nat) (f : Launch → Launch) : (s.modLaunch i f).mbx = s.mbx := rfl
@[simp] theorem State.modLaunch_arbs (i : Nat) (f : Launch → Launch) : (s.modLaunch i f).arbs = s.arbs := rfl
@[simp] theorem State.modLaunch_col (i : Nat) (f : Launch → Launch) : (s.modLaunch i f).col = s.col := rfl
@[simp] theorem State.modLaunch_coh (i : Nat) (f : Launch → Launch) : (s.modLaunch i f).coh = s.coh := rfl
@[simp] theorem State.modLaunch_host (i : Nat) (f : Launch → Launch) : (s.modLaunch i f).host = s.host := rfl
@[simp] theorem State.modLaunch_power (i : Nat) (f : Launch → Launch) : (s.modLaunch i f).power = s.power := rfl
@[simp] theorem State.modLaunch_func (i : Nat) (f : Launch → Launch) : (s.modLaunch i f).func = s.func := rfl
@[simp] theorem State.modLaunch_errlog (i : Nat) (f : Launch → Launch) : (s.modLaunch i f).errlog = s.errlog := rfl
@[simp] theorem State.modLaunch_nvm (i : Nat) (f : Launch → Launch) : (s.modLaunch i f).nvm = s.nvm := rfl
@[simp] theorem State.modLaunch_mgt (i : Nat) (f : Launch → Launch) : (s.modLaunch i f).mgt = s.mgt := rfl
@[simp] theorem State.modLaunch_tel (i : Nat) (f : Launch → Launch) : (s.modLaunch i f).tel = s.tel := rfl
@[simp] theorem State.modLaunch_board (i : Nat) (f : Launch → Launch) : (s.modLaunch i f).board = s.board := rfl
@[simp] theorem State.modLaunch_out (i : Nat) (f : Launch → Launch) : (s.modLaunch i f).out = s.out := rfl
@[simp] theorem State.modLaunch_fresh (i : Nat) (f : Launch → Launch) : (s.modLaunch i f).fresh = s.fresh := rfl
@[simp] theorem State.modLaunch_nextId (i : Nat) (f : Launch → Launch) : (s.modLaunch i f).nextId = s.nextId := rfl
@[simp] theorem State.modLaunch_pending (i : Nat) (f : Launch → Launch) : (s.modLaunch i f).pending = s.pending := rfl
@[simp] theorem State.modLaunch_struck (i : Nat) (f : Launch → Launch) : (s.modLaunch i f).struck = s.struck := rfl

@[simp] theorem State.hold_strands (c : Instr) : (s.hold c).strands = s.strands := by unfold State.hold; split <;> rfl
@[simp] theorem State.hold_blocks (c : Instr) : (s.hold c).blocks = s.blocks := by unfold State.hold; split <;> rfl
@[simp] theorem State.hold_jobs (c : Instr) : (s.hold c).jobs = s.jobs := by unfold State.hold; split <;> rfl
@[simp] theorem State.hold_engines (c : Instr) : (s.hold c).engines = s.engines := by unfold State.hold; split <;> rfl
@[simp] theorem State.hold_vsus (c : Instr) : (s.hold c).vsus = s.vsus := by unfold State.hold; split <;> rfl
@[simp] theorem State.hold_mem (c : Instr) : (s.hold c).mem = s.mem := by unfold State.hold; split <;> rfl
@[simp] theorem State.hold_poison (c : Instr) : (s.hold c).poison = s.poison := by unfold State.hold; split <;> rfl
@[simp] theorem State.hold_segs (c : Instr) : (s.hold c).segs = s.segs := by unfold State.hold; split <;> rfl
@[simp] theorem State.hold_mcs (c : Instr) : (s.hold c).mcs = s.mcs := by unfold State.hold; split <;> rfl
@[simp] theorem State.hold_qe (c : Instr) : (s.hold c).qe = s.qe := by unfold State.hold; split <;> rfl
@[simp] theorem State.hold_se (c : Instr) : (s.hold c).se = s.se := by unfold State.hold; split <;> rfl
@[simp] theorem State.hold_wdt (c : Instr) : (s.hold c).wdt = s.wdt := by unfold State.hold; split <;> rfl
@[simp] theorem State.hold_mbx (c : Instr) : (s.hold c).mbx = s.mbx := by unfold State.hold; split <;> rfl
@[simp] theorem State.hold_arbs (c : Instr) : (s.hold c).arbs = s.arbs := by unfold State.hold; split <;> rfl
@[simp] theorem State.hold_col (c : Instr) : (s.hold c).col = s.col := by unfold State.hold; split <;> rfl
@[simp] theorem State.hold_host (c : Instr) : (s.hold c).host = s.host := by unfold State.hold; split <;> rfl
@[simp] theorem State.hold_power (c : Instr) : (s.hold c).power = s.power := by unfold State.hold; split <;> rfl
@[simp] theorem State.hold_func (c : Instr) : (s.hold c).func = s.func := by unfold State.hold; split <;> rfl
@[simp] theorem State.hold_errlog (c : Instr) : (s.hold c).errlog = s.errlog := by unfold State.hold; split <;> rfl
@[simp] theorem State.hold_nvm (c : Instr) : (s.hold c).nvm = s.nvm := by unfold State.hold; split <;> rfl
@[simp] theorem State.hold_mgt (c : Instr) : (s.hold c).mgt = s.mgt := by unfold State.hold; split <;> rfl
@[simp] theorem State.hold_tel (c : Instr) : (s.hold c).tel = s.tel := by unfold State.hold; split <;> rfl
@[simp] theorem State.hold_board (c : Instr) : (s.hold c).board = s.board := by unfold State.hold; split <;> rfl
@[simp] theorem State.hold_out (c : Instr) : (s.hold c).out = s.out := by unfold State.hold; split <;> rfl
@[simp] theorem State.hold_fresh (c : Instr) : (s.hold c).fresh = s.fresh := by unfold State.hold; split <;> rfl
@[simp] theorem State.hold_nextId (c : Instr) : (s.hold c).nextId = s.nextId := by unfold State.hold; split <;> rfl
@[simp] theorem State.hold_pending (c : Instr) : (s.hold c).pending = s.pending := by unfold State.hold; split <;> rfl
@[simp] theorem State.hold_struck (c : Instr) : (s.hold c).struck = s.struck := by unfold State.hold; split <;> rfl

@[simp] theorem State.zeroFill_strands (a k : Nat) : (s.zeroFill a k).strands = s.strands := rfl
@[simp] theorem State.zeroFill_blocks (a k : Nat) : (s.zeroFill a k).blocks = s.blocks := rfl
@[simp] theorem State.zeroFill_jobs (a k : Nat) : (s.zeroFill a k).jobs = s.jobs := rfl
@[simp] theorem State.zeroFill_engines (a k : Nat) : (s.zeroFill a k).engines = s.engines := rfl
@[simp] theorem State.zeroFill_vsus (a k : Nat) : (s.zeroFill a k).vsus = s.vsus := rfl
@[simp] theorem State.zeroFill_segs (a k : Nat) : (s.zeroFill a k).segs = s.segs := rfl
@[simp] theorem State.zeroFill_mcs (a k : Nat) : (s.zeroFill a k).mcs = s.mcs := rfl
@[simp] theorem State.zeroFill_qe (a k : Nat) : (s.zeroFill a k).qe = s.qe := rfl
@[simp] theorem State.zeroFill_se (a k : Nat) : (s.zeroFill a k).se = s.se := rfl
@[simp] theorem State.zeroFill_wdt (a k : Nat) : (s.zeroFill a k).wdt = s.wdt := rfl
@[simp] theorem State.zeroFill_mbx (a k : Nat) : (s.zeroFill a k).mbx = s.mbx := rfl
@[simp] theorem State.zeroFill_arbs (a k : Nat) : (s.zeroFill a k).arbs = s.arbs := rfl
@[simp] theorem State.zeroFill_col (a k : Nat) : (s.zeroFill a k).col = s.col := rfl
@[simp] theorem State.zeroFill_coh (a k : Nat) : (s.zeroFill a k).coh = s.coh := rfl
@[simp] theorem State.zeroFill_host (a k : Nat) : (s.zeroFill a k).host = s.host := rfl
@[simp] theorem State.zeroFill_power (a k : Nat) : (s.zeroFill a k).power = s.power := rfl
@[simp] theorem State.zeroFill_func (a k : Nat) : (s.zeroFill a k).func = s.func := rfl
@[simp] theorem State.zeroFill_errlog (a k : Nat) : (s.zeroFill a k).errlog = s.errlog := rfl
@[simp] theorem State.zeroFill_nvm (a k : Nat) : (s.zeroFill a k).nvm = s.nvm := rfl
@[simp] theorem State.zeroFill_mgt (a k : Nat) : (s.zeroFill a k).mgt = s.mgt := rfl
@[simp] theorem State.zeroFill_tel (a k : Nat) : (s.zeroFill a k).tel = s.tel := rfl
@[simp] theorem State.zeroFill_board (a k : Nat) : (s.zeroFill a k).board = s.board := rfl
@[simp] theorem State.zeroFill_out (a k : Nat) : (s.zeroFill a k).out = s.out := rfl
@[simp] theorem State.zeroFill_fresh (a k : Nat) : (s.zeroFill a k).fresh = s.fresh := rfl
@[simp] theorem State.zeroFill_nextId (a k : Nat) : (s.zeroFill a k).nextId = s.nextId := rfl
@[simp] theorem State.zeroFill_pending (a k : Nat) : (s.zeroFill a k).pending = s.pending := rfl

@[simp] theorem State.poisonLines_strands (a k : Nat) : (s.poisonLines a k).strands = s.strands := rfl
@[simp] theorem State.poisonLines_blocks (a k : Nat) : (s.poisonLines a k).blocks = s.blocks := rfl
@[simp] theorem State.poisonLines_jobs (a k : Nat) : (s.poisonLines a k).jobs = s.jobs := rfl
@[simp] theorem State.poisonLines_engines (a k : Nat) : (s.poisonLines a k).engines = s.engines := rfl
@[simp] theorem State.poisonLines_vsus (a k : Nat) : (s.poisonLines a k).vsus = s.vsus := rfl
@[simp] theorem State.poisonLines_mem (a k : Nat) : (s.poisonLines a k).mem = s.mem := rfl
@[simp] theorem State.poisonLines_segs (a k : Nat) : (s.poisonLines a k).segs = s.segs := rfl
@[simp] theorem State.poisonLines_mcs (a k : Nat) : (s.poisonLines a k).mcs = s.mcs := rfl
@[simp] theorem State.poisonLines_qe (a k : Nat) : (s.poisonLines a k).qe = s.qe := rfl
@[simp] theorem State.poisonLines_se (a k : Nat) : (s.poisonLines a k).se = s.se := rfl
@[simp] theorem State.poisonLines_wdt (a k : Nat) : (s.poisonLines a k).wdt = s.wdt := rfl
@[simp] theorem State.poisonLines_mbx (a k : Nat) : (s.poisonLines a k).mbx = s.mbx := rfl
@[simp] theorem State.poisonLines_arbs (a k : Nat) : (s.poisonLines a k).arbs = s.arbs := rfl
@[simp] theorem State.poisonLines_col (a k : Nat) : (s.poisonLines a k).col = s.col := rfl
@[simp] theorem State.poisonLines_coh (a k : Nat) : (s.poisonLines a k).coh = s.coh := rfl
@[simp] theorem State.poisonLines_host (a k : Nat) : (s.poisonLines a k).host = s.host := rfl
@[simp] theorem State.poisonLines_power (a k : Nat) : (s.poisonLines a k).power = s.power := rfl
@[simp] theorem State.poisonLines_func (a k : Nat) : (s.poisonLines a k).func = s.func := rfl
@[simp] theorem State.poisonLines_errlog (a k : Nat) : (s.poisonLines a k).errlog = s.errlog := rfl
@[simp] theorem State.poisonLines_nvm (a k : Nat) : (s.poisonLines a k).nvm = s.nvm := rfl
@[simp] theorem State.poisonLines_mgt (a k : Nat) : (s.poisonLines a k).mgt = s.mgt := rfl
@[simp] theorem State.poisonLines_tel (a k : Nat) : (s.poisonLines a k).tel = s.tel := rfl
@[simp] theorem State.poisonLines_board (a k : Nat) : (s.poisonLines a k).board = s.board := rfl
@[simp] theorem State.poisonLines_out (a k : Nat) : (s.poisonLines a k).out = s.out := rfl
@[simp] theorem State.poisonLines_fresh (a k : Nat) : (s.poisonLines a k).fresh = s.fresh := rfl
@[simp] theorem State.poisonLines_nextId (a k : Nat) : (s.poisonLines a k).nextId = s.nextId := rfl
@[simp] theorem State.poisonLines_pending (a k : Nat) : (s.poisonLines a k).pending = s.pending := rfl
@[simp] theorem State.poisonLines_struck (a k : Nat) : (s.poisonLines a k).struck = s.struck := rfl

@[simp] theorem State.setPart_strands (b : BlockId) (p : PartNo) (x : Part) : (s.setPart b p x).strands = s.strands := rfl
@[simp] theorem State.setPart_jobs (b : BlockId) (p : PartNo) (x : Part) : (s.setPart b p x).jobs = s.jobs := rfl
@[simp] theorem State.setPart_engines (b : BlockId) (p : PartNo) (x : Part) : (s.setPart b p x).engines = s.engines := rfl
@[simp] theorem State.setPart_vsus (b : BlockId) (p : PartNo) (x : Part) : (s.setPart b p x).vsus = s.vsus := rfl
@[simp] theorem State.setPart_mem (b : BlockId) (p : PartNo) (x : Part) : (s.setPart b p x).mem = s.mem := rfl
@[simp] theorem State.setPart_poison (b : BlockId) (p : PartNo) (x : Part) : (s.setPart b p x).poison = s.poison := rfl
@[simp] theorem State.setPart_segs (b : BlockId) (p : PartNo) (x : Part) : (s.setPart b p x).segs = s.segs := rfl
@[simp] theorem State.setPart_mcs (b : BlockId) (p : PartNo) (x : Part) : (s.setPart b p x).mcs = s.mcs := rfl
@[simp] theorem State.setPart_qe (b : BlockId) (p : PartNo) (x : Part) : (s.setPart b p x).qe = s.qe := rfl
@[simp] theorem State.setPart_se (b : BlockId) (p : PartNo) (x : Part) : (s.setPart b p x).se = s.se := rfl
@[simp] theorem State.setPart_wdt (b : BlockId) (p : PartNo) (x : Part) : (s.setPart b p x).wdt = s.wdt := rfl
@[simp] theorem State.setPart_mbx (b : BlockId) (p : PartNo) (x : Part) : (s.setPart b p x).mbx = s.mbx := rfl
@[simp] theorem State.setPart_arbs (b : BlockId) (p : PartNo) (x : Part) : (s.setPart b p x).arbs = s.arbs := rfl
@[simp] theorem State.setPart_col (b : BlockId) (p : PartNo) (x : Part) : (s.setPart b p x).col = s.col := rfl
@[simp] theorem State.setPart_coh (b : BlockId) (p : PartNo) (x : Part) : (s.setPart b p x).coh = s.coh := rfl
@[simp] theorem State.setPart_host (b : BlockId) (p : PartNo) (x : Part) : (s.setPart b p x).host = s.host := rfl
@[simp] theorem State.setPart_power (b : BlockId) (p : PartNo) (x : Part) : (s.setPart b p x).power = s.power := rfl
@[simp] theorem State.setPart_func (b : BlockId) (p : PartNo) (x : Part) : (s.setPart b p x).func = s.func := rfl
@[simp] theorem State.setPart_errlog (b : BlockId) (p : PartNo) (x : Part) : (s.setPart b p x).errlog = s.errlog := rfl
@[simp] theorem State.setPart_nvm (b : BlockId) (p : PartNo) (x : Part) : (s.setPart b p x).nvm = s.nvm := rfl
@[simp] theorem State.setPart_mgt (b : BlockId) (p : PartNo) (x : Part) : (s.setPart b p x).mgt = s.mgt := rfl
@[simp] theorem State.setPart_tel (b : BlockId) (p : PartNo) (x : Part) : (s.setPart b p x).tel = s.tel := rfl
@[simp] theorem State.setPart_board (b : BlockId) (p : PartNo) (x : Part) : (s.setPart b p x).board = s.board := rfl
@[simp] theorem State.setPart_out (b : BlockId) (p : PartNo) (x : Part) : (s.setPart b p x).out = s.out := rfl
@[simp] theorem State.setPart_fresh (b : BlockId) (p : PartNo) (x : Part) : (s.setPart b p x).fresh = s.fresh := rfl
@[simp] theorem State.setPart_nextId (b : BlockId) (p : PartNo) (x : Part) : (s.setPart b p x).nextId = s.nextId := rfl
@[simp] theorem State.setPart_pending (b : BlockId) (p : PartNo) (x : Part) : (s.setPart b p x).pending = s.pending := rfl
@[simp] theorem State.setPart_struck (b : BlockId) (p : PartNo) (x : Part) : (s.setPart b p x).struck = s.struck := rfl

@[simp] theorem State.setSf_strands (l : List SfEntry) : (s.setSf l).strands = s.strands := rfl
@[simp] theorem State.setSf_blocks (l : List SfEntry) : (s.setSf l).blocks = s.blocks := rfl
@[simp] theorem State.setSf_jobs (l : List SfEntry) : (s.setSf l).jobs = s.jobs := rfl
@[simp] theorem State.setSf_engines (l : List SfEntry) : (s.setSf l).engines = s.engines := rfl
@[simp] theorem State.setSf_vsus (l : List SfEntry) : (s.setSf l).vsus = s.vsus := rfl
@[simp] theorem State.setSf_mem (l : List SfEntry) : (s.setSf l).mem = s.mem := rfl
@[simp] theorem State.setSf_poison (l : List SfEntry) : (s.setSf l).poison = s.poison := rfl
@[simp] theorem State.setSf_segs (l : List SfEntry) : (s.setSf l).segs = s.segs := rfl
@[simp] theorem State.setSf_mcs (l : List SfEntry) : (s.setSf l).mcs = s.mcs := rfl
@[simp] theorem State.setSf_qe (l : List SfEntry) : (s.setSf l).qe = s.qe := rfl
@[simp] theorem State.setSf_se (l : List SfEntry) : (s.setSf l).se = s.se := rfl
@[simp] theorem State.setSf_wdt (l : List SfEntry) : (s.setSf l).wdt = s.wdt := rfl
@[simp] theorem State.setSf_mbx (l : List SfEntry) : (s.setSf l).mbx = s.mbx := rfl
@[simp] theorem State.setSf_arbs (l : List SfEntry) : (s.setSf l).arbs = s.arbs := rfl
@[simp] theorem State.setSf_col (l : List SfEntry) : (s.setSf l).col = s.col := rfl
@[simp] theorem State.setSf_host (l : List SfEntry) : (s.setSf l).host = s.host := rfl
@[simp] theorem State.setSf_power (l : List SfEntry) : (s.setSf l).power = s.power := rfl
@[simp] theorem State.setSf_func (l : List SfEntry) : (s.setSf l).func = s.func := rfl
@[simp] theorem State.setSf_errlog (l : List SfEntry) : (s.setSf l).errlog = s.errlog := rfl
@[simp] theorem State.setSf_nvm (l : List SfEntry) : (s.setSf l).nvm = s.nvm := rfl
@[simp] theorem State.setSf_mgt (l : List SfEntry) : (s.setSf l).mgt = s.mgt := rfl
@[simp] theorem State.setSf_tel (l : List SfEntry) : (s.setSf l).tel = s.tel := rfl
@[simp] theorem State.setSf_board (l : List SfEntry) : (s.setSf l).board = s.board := rfl
@[simp] theorem State.setSf_out (l : List SfEntry) : (s.setSf l).out = s.out := rfl
@[simp] theorem State.setSf_fresh (l : List SfEntry) : (s.setSf l).fresh = s.fresh := rfl
@[simp] theorem State.setSf_nextId (l : List SfEntry) : (s.setSf l).nextId = s.nextId := rfl
@[simp] theorem State.setSf_pending (l : List SfEntry) : (s.setSf l).pending = s.pending := rfl
@[simp] theorem State.setSf_struck (l : List SfEntry) : (s.setSf l).struck = s.struck := rfl

@[simp] theorem State.setFunc_strands (a b c : Nat) (r : Option Byte) (d : Bool) : (s.setFunc a b c r d).strands = s.strands := rfl
@[simp] theorem State.setFunc_blocks (a b c : Nat) (r : Option Byte) (d : Bool) : (s.setFunc a b c r d).blocks = s.blocks := rfl
@[simp] theorem State.setFunc_jobs (a b c : Nat) (r : Option Byte) (d : Bool) : (s.setFunc a b c r d).jobs = s.jobs := rfl
@[simp] theorem State.setFunc_engines (a b c : Nat) (r : Option Byte) (d : Bool) : (s.setFunc a b c r d).engines = s.engines := rfl
@[simp] theorem State.setFunc_vsus (a b c : Nat) (r : Option Byte) (d : Bool) : (s.setFunc a b c r d).vsus = s.vsus := rfl
@[simp] theorem State.setFunc_mem (a b c : Nat) (r : Option Byte) (d : Bool) : (s.setFunc a b c r d).mem = s.mem := rfl
@[simp] theorem State.setFunc_poison (a b c : Nat) (r : Option Byte) (d : Bool) : (s.setFunc a b c r d).poison = s.poison := rfl
@[simp] theorem State.setFunc_segs (a b c : Nat) (r : Option Byte) (d : Bool) : (s.setFunc a b c r d).segs = s.segs := rfl
@[simp] theorem State.setFunc_mcs (a b c : Nat) (r : Option Byte) (d : Bool) : (s.setFunc a b c r d).mcs = s.mcs := rfl
@[simp] theorem State.setFunc_qe (a b c : Nat) (r : Option Byte) (d : Bool) : (s.setFunc a b c r d).qe = s.qe := rfl
@[simp] theorem State.setFunc_se (a b c : Nat) (r : Option Byte) (d : Bool) : (s.setFunc a b c r d).se = s.se := rfl
@[simp] theorem State.setFunc_wdt (a b c : Nat) (r : Option Byte) (d : Bool) : (s.setFunc a b c r d).wdt = s.wdt := rfl
@[simp] theorem State.setFunc_mbx (a b c : Nat) (r : Option Byte) (d : Bool) : (s.setFunc a b c r d).mbx = s.mbx := rfl
@[simp] theorem State.setFunc_arbs (a b c : Nat) (r : Option Byte) (d : Bool) : (s.setFunc a b c r d).arbs = s.arbs := rfl
@[simp] theorem State.setFunc_col (a b c : Nat) (r : Option Byte) (d : Bool) : (s.setFunc a b c r d).col = s.col := rfl
@[simp] theorem State.setFunc_coh (a b c : Nat) (r : Option Byte) (d : Bool) : (s.setFunc a b c r d).coh = s.coh := rfl
@[simp] theorem State.setFunc_host (a b c : Nat) (r : Option Byte) (d : Bool) : (s.setFunc a b c r d).host = s.host := rfl
@[simp] theorem State.setFunc_power (a b c : Nat) (r : Option Byte) (d : Bool) : (s.setFunc a b c r d).power = s.power := rfl
@[simp] theorem State.setFunc_errlog (a b c : Nat) (r : Option Byte) (d : Bool) : (s.setFunc a b c r d).errlog = s.errlog := rfl
@[simp] theorem State.setFunc_nvm (a b c : Nat) (r : Option Byte) (d : Bool) : (s.setFunc a b c r d).nvm = s.nvm := rfl
@[simp] theorem State.setFunc_mgt (a b c : Nat) (r : Option Byte) (d : Bool) : (s.setFunc a b c r d).mgt = s.mgt := rfl
@[simp] theorem State.setFunc_tel (a b c : Nat) (r : Option Byte) (d : Bool) : (s.setFunc a b c r d).tel = s.tel := rfl
@[simp] theorem State.setFunc_board (a b c : Nat) (r : Option Byte) (d : Bool) : (s.setFunc a b c r d).board = s.board := rfl
@[simp] theorem State.setFunc_out (a b c : Nat) (r : Option Byte) (d : Bool) : (s.setFunc a b c r d).out = s.out := rfl
@[simp] theorem State.setFunc_fresh (a b c : Nat) (r : Option Byte) (d : Bool) : (s.setFunc a b c r d).fresh = s.fresh := rfl
@[simp] theorem State.setFunc_nextId (a b c : Nat) (r : Option Byte) (d : Bool) : (s.setFunc a b c r d).nextId = s.nextId := rfl
@[simp] theorem State.setFunc_pending (a b c : Nat) (r : Option Byte) (d : Bool) : (s.setFunc a b c r d).pending = s.pending := rfl
@[simp] theorem State.setFunc_struck (a b c : Nat) (r : Option Byte) (d : Bool) : (s.setFunc a b c r d).struck = s.struck := rfl

@[simp] theorem State.strand_setStrand (n : StrandId) (x : Strand) : (s.setStrand n x).strand n = x := by
  simp [State.strand, State.setStrand]
theorem State.strand_setStrand_ne (n m : StrandId) (x : Strand) (h : n ≠ m) : (s.setStrand n x).strand m = s.strand m := by
  have : n.val ≠ m.val := fun e => h (Fin.ext e)
  simp [State.strand, State.setStrand, this]
@[simp] theorem State.strand_modStrand (n : StrandId) (f : Strand → Strand) : (s.modStrand n f).strand n = f (s.strand n) := by
  simp [State.modStrand]
theorem State.strand_modStrand_ne (n m : StrandId) (f : Strand → Strand) (h : n ≠ m) :
    (s.modStrand n f).strand m = s.strand m := by
  simp [State.modStrand, State.strand_setStrand_ne s n m _ h]
@[simp] theorem State.engine_setEngine (e : EngineId) (x : Engine) : (s.setEngine e x).engine e = x := by
  simp [State.engine, State.setEngine]
theorem State.engine_setEngine_ne (n m : EngineId) (x : Engine) (h : n ≠ m) : (s.setEngine n x).engine m = s.engine m := by
  have : n.val ≠ m.val := fun e => h (Fin.ext e)
  simp [State.engine, State.setEngine, this]
@[simp] theorem State.engine_modEngine (e : EngineId) (f : Engine → Engine) : (s.modEngine e f).engine e = f (s.engine e) := by
  simp [State.modEngine]
@[simp] theorem State.port_setPort (p : PortId) (x : Port) : (s.setPort p x).port p = x := by
  simp [State.port, State.setPort]
@[simp] theorem State.setPort_setPort (p : PortId) (x y : Port) : (s.setPort p x).setPort p y = s.setPort p y := by
  simp [State.setPort]
@[simp] theorem State.mc_setMc (m : McId) (x : MemCtl) : (s.setMc m x).mc m = x := by
  simp [State.mc, State.setMc]
@[simp] theorem State.vsu_setVsu (r : RegionId) (x : Vsu) : (s.setVsu r x).vsu r = x := by
  simp [State.vsu, State.setVsu]
@[simp] theorem State.block_setBlock (b : BlockId) (x : Block) : (s.setBlock b x).block b = x := by
  simp [State.block, State.setBlock]
@[simp] theorem State.part_setPart (b : BlockId) (p : PartNo) (x : Part) : (s.setPart b p x).part b p = x := by
  simp [State.part, State.setPart]
theorem State.part_setPart_ne (b : BlockId) (p q : PartNo) (x : Part) (h : p ≠ q) : (s.setPart b p x).part b q = s.part b q := by
  have : p.val ≠ q.val := fun e => h (Fin.ext e)
  simp [State.part, State.setPart, this]
@[simp] theorem State.setSf_sf (l : List SfEntry) : (s.setSf l).coh.sf = l := rfl
@[simp] theorem State.setSf_snps (l : List SfEntry) : (s.setSf l).coh.snps = s.coh.snps := rfl
@[simp] theorem State.setSf_held (l : List SfEntry) : (s.setSf l).coh.held = s.coh.held := rfl
@[simp] theorem State.region_setPwr (r : RegionId) (x : Pwr) : (s.setPwr r x).region r.val = x := by
  have h : r.val < 8 := r.isLt
  simp [State.region, State.setPwr, h]
@[simp] theorem State.send_out (o : Out) : (s.send o).out = o :: s.out := rfl
@[simp] theorem State.setMbx_mbx (m : Mailboxes) : (s.setMbx m).mbx = m := rfl
@[simp] theorem State.setQe_qe (q : Qe) : (s.setQe q).qe = q := rfl
@[simp] theorem State.setSe_se (q : Se) : (s.setSe q).se = q := rfl
@[simp] theorem State.setNvm_nvm (q : Nvm) : (s.setNvm q).nvm = q := rfl
@[simp] theorem State.setMgt_mgt (q : Mgt) : (s.setMgt q).mgt = q := rfl
@[simp] theorem State.setBoard_board (q : Board) : (s.setBoard q).board = q := rfl

@[simp] theorem State.aer_strands (k : Nat) : (s.aer k).strands = s.strands := rfl
@[simp] theorem State.aer_blocks (k : Nat) : (s.aer k).blocks = s.blocks := rfl
@[simp] theorem State.aer_jobs (k : Nat) : (s.aer k).jobs = s.jobs := rfl
@[simp] theorem State.aer_engines (k : Nat) : (s.aer k).engines = s.engines := rfl
@[simp] theorem State.aer_vsus (k : Nat) : (s.aer k).vsus = s.vsus := rfl
@[simp] theorem State.aer_mem (k : Nat) : (s.aer k).mem = s.mem := rfl
@[simp] theorem State.aer_poison (k : Nat) : (s.aer k).poison = s.poison := rfl
@[simp] theorem State.aer_segs (k : Nat) : (s.aer k).segs = s.segs := rfl
@[simp] theorem State.aer_mcs (k : Nat) : (s.aer k).mcs = s.mcs := rfl
@[simp] theorem State.aer_qe (k : Nat) : (s.aer k).qe = s.qe := rfl
@[simp] theorem State.aer_se (k : Nat) : (s.aer k).se = s.se := rfl
@[simp] theorem State.aer_wdt (k : Nat) : (s.aer k).wdt = s.wdt := rfl
@[simp] theorem State.aer_mbx (k : Nat) : (s.aer k).mbx = s.mbx := rfl
@[simp] theorem State.aer_arbs (k : Nat) : (s.aer k).arbs = s.arbs := rfl
@[simp] theorem State.aer_col (k : Nat) : (s.aer k).col = s.col := rfl
@[simp] theorem State.aer_coh (k : Nat) : (s.aer k).coh = s.coh := rfl
@[simp] theorem State.aer_host (k : Nat) : (s.aer k).host = s.host := rfl
@[simp] theorem State.aer_power (k : Nat) : (s.aer k).power = s.power := rfl
@[simp] theorem State.aer_func (k : Nat) : (s.aer k).func = s.func := rfl
@[simp] theorem State.aer_nvm (k : Nat) : (s.aer k).nvm = s.nvm := rfl
@[simp] theorem State.aer_mgt (k : Nat) : (s.aer k).mgt = s.mgt := rfl
@[simp] theorem State.aer_tel (k : Nat) : (s.aer k).tel = s.tel := rfl
@[simp] theorem State.aer_board (k : Nat) : (s.aer k).board = s.board := rfl
@[simp] theorem State.aer_out (k : Nat) : (s.aer k).out = s.out := rfl
@[simp] theorem State.aer_fresh (k : Nat) : (s.aer k).fresh = s.fresh := rfl
@[simp] theorem State.aer_nextId (k : Nat) : (s.aer k).nextId = s.nextId := rfl
@[simp] theorem State.aer_pending (k : Nat) : (s.aer k).pending = s.pending := rfl
@[simp] theorem State.aer_struck (k : Nat) : (s.aer k).struck = s.struck := rfl

@[simp] theorem State.refuse_strands : (s.refuse).strands = s.strands := rfl
@[simp] theorem State.refuse_blocks : (s.refuse).blocks = s.blocks := rfl
@[simp] theorem State.refuse_jobs : (s.refuse).jobs = s.jobs := rfl
@[simp] theorem State.refuse_engines : (s.refuse).engines = s.engines := rfl
@[simp] theorem State.refuse_vsus : (s.refuse).vsus = s.vsus := rfl
@[simp] theorem State.refuse_mem : (s.refuse).mem = s.mem := rfl
@[simp] theorem State.refuse_poison : (s.refuse).poison = s.poison := rfl
@[simp] theorem State.refuse_segs : (s.refuse).segs = s.segs := rfl
@[simp] theorem State.refuse_mcs : (s.refuse).mcs = s.mcs := rfl
@[simp] theorem State.refuse_qe : (s.refuse).qe = s.qe := rfl
@[simp] theorem State.refuse_se : (s.refuse).se = s.se := rfl
@[simp] theorem State.refuse_wdt : (s.refuse).wdt = s.wdt := rfl
@[simp] theorem State.refuse_mbx : (s.refuse).mbx = s.mbx := rfl
@[simp] theorem State.refuse_arbs : (s.refuse).arbs = s.arbs := rfl
@[simp] theorem State.refuse_col : (s.refuse).col = s.col := rfl
@[simp] theorem State.refuse_coh : (s.refuse).coh = s.coh := rfl
@[simp] theorem State.refuse_host : (s.refuse).host = s.host := rfl
@[simp] theorem State.refuse_power : (s.refuse).power = s.power := rfl
@[simp] theorem State.refuse_func : (s.refuse).func = s.func := rfl
@[simp] theorem State.refuse_nvm : (s.refuse).nvm = s.nvm := rfl
@[simp] theorem State.refuse_mgt : (s.refuse).mgt = s.mgt := rfl
@[simp] theorem State.refuse_tel : (s.refuse).tel = s.tel := rfl
@[simp] theorem State.refuse_board : (s.refuse).board = s.board := rfl
@[simp] theorem State.refuse_fresh : (s.refuse).fresh = s.fresh := rfl
@[simp] theorem State.refuse_nextId : (s.refuse).nextId = s.nextId := rfl
@[simp] theorem State.refuse_pending : (s.refuse).pending = s.pending := rfl
@[simp] theorem State.refuse_struck : (s.refuse).struck = s.struck := rfl
@[simp] theorem State.refuse_out : s.refuse.out = .unsupported :: s.out := rfl
@[simp] theorem State.refuse_errlog : s.refuse.errlog = (s.aer 20).errlog := rfl

@[simp] theorem State.countHalves_strands (hs : List Nat) : (s.countHalves hs).strands = s.strands := rfl
@[simp] theorem State.countHalves_blocks (hs : List Nat) : (s.countHalves hs).blocks = s.blocks := rfl
@[simp] theorem State.countHalves_jobs (hs : List Nat) : (s.countHalves hs).jobs = s.jobs := rfl
@[simp] theorem State.countHalves_engines (hs : List Nat) : (s.countHalves hs).engines = s.engines := rfl
@[simp] theorem State.countHalves_vsus (hs : List Nat) : (s.countHalves hs).vsus = s.vsus := rfl
@[simp] theorem State.countHalves_mem (hs : List Nat) : (s.countHalves hs).mem = s.mem := rfl
@[simp] theorem State.countHalves_poison (hs : List Nat) : (s.countHalves hs).poison = s.poison := rfl
@[simp] theorem State.countHalves_segs (hs : List Nat) : (s.countHalves hs).segs = s.segs := rfl
@[simp] theorem State.countHalves_qe (hs : List Nat) : (s.countHalves hs).qe = s.qe := rfl
@[simp] theorem State.countHalves_se (hs : List Nat) : (s.countHalves hs).se = s.se := rfl
@[simp] theorem State.countHalves_wdt (hs : List Nat) : (s.countHalves hs).wdt = s.wdt := rfl
@[simp] theorem State.countHalves_mbx (hs : List Nat) : (s.countHalves hs).mbx = s.mbx := rfl
@[simp] theorem State.countHalves_arbs (hs : List Nat) : (s.countHalves hs).arbs = s.arbs := rfl
@[simp] theorem State.countHalves_col (hs : List Nat) : (s.countHalves hs).col = s.col := rfl
@[simp] theorem State.countHalves_coh (hs : List Nat) : (s.countHalves hs).coh = s.coh := rfl
@[simp] theorem State.countHalves_host (hs : List Nat) : (s.countHalves hs).host = s.host := rfl
@[simp] theorem State.countHalves_power (hs : List Nat) : (s.countHalves hs).power = s.power := rfl
@[simp] theorem State.countHalves_func (hs : List Nat) : (s.countHalves hs).func = s.func := rfl
@[simp] theorem State.countHalves_errlog (hs : List Nat) : (s.countHalves hs).errlog = s.errlog := rfl
@[simp] theorem State.countHalves_nvm (hs : List Nat) : (s.countHalves hs).nvm = s.nvm := rfl
@[simp] theorem State.countHalves_mgt (hs : List Nat) : (s.countHalves hs).mgt = s.mgt := rfl
@[simp] theorem State.countHalves_tel (hs : List Nat) : (s.countHalves hs).tel = s.tel := rfl
@[simp] theorem State.countHalves_board (hs : List Nat) : (s.countHalves hs).board = s.board := rfl
@[simp] theorem State.countHalves_out (hs : List Nat) : (s.countHalves hs).out = s.out := rfl
@[simp] theorem State.countHalves_fresh (hs : List Nat) : (s.countHalves hs).fresh = s.fresh := rfl
@[simp] theorem State.countHalves_nextId (hs : List Nat) : (s.countHalves hs).nextId = s.nextId := rfl
@[simp] theorem State.countHalves_pending (hs : List Nat) : (s.countHalves hs).pending = s.pending := rfl
@[simp] theorem State.countHalves_struck (hs : List Nat) : (s.countHalves hs).struck = s.struck := rfl

@[simp] theorem State.strike_strands (k : EccList) : (s.strike k).strands = s.strands := rfl
@[simp] theorem State.strike_blocks (k : EccList) : (s.strike k).blocks = s.blocks := rfl
@[simp] theorem State.strike_jobs (k : EccList) : (s.strike k).jobs = s.jobs := rfl
@[simp] theorem State.strike_engines (k : EccList) : (s.strike k).engines = s.engines := rfl
@[simp] theorem State.strike_vsus (k : EccList) : (s.strike k).vsus = s.vsus := rfl
@[simp] theorem State.strike_mem (k : EccList) : (s.strike k).mem = s.mem := rfl
@[simp] theorem State.strike_poison (k : EccList) : (s.strike k).poison = s.poison := rfl
@[simp] theorem State.strike_segs (k : EccList) : (s.strike k).segs = s.segs := rfl
@[simp] theorem State.strike_mcs (k : EccList) : (s.strike k).mcs = s.mcs := rfl
@[simp] theorem State.strike_qe (k : EccList) : (s.strike k).qe = s.qe := rfl
@[simp] theorem State.strike_se (k : EccList) : (s.strike k).se = s.se := rfl
@[simp] theorem State.strike_wdt (k : EccList) : (s.strike k).wdt = s.wdt := rfl
@[simp] theorem State.strike_mbx (k : EccList) : (s.strike k).mbx = s.mbx := rfl
@[simp] theorem State.strike_arbs (k : EccList) : (s.strike k).arbs = s.arbs := rfl
@[simp] theorem State.strike_col (k : EccList) : (s.strike k).col = s.col := rfl
@[simp] theorem State.strike_coh (k : EccList) : (s.strike k).coh = s.coh := rfl
@[simp] theorem State.strike_host (k : EccList) : (s.strike k).host = s.host := rfl
@[simp] theorem State.strike_power (k : EccList) : (s.strike k).power = s.power := rfl
@[simp] theorem State.strike_func (k : EccList) : (s.strike k).func = s.func := rfl
@[simp] theorem State.strike_errlog (k : EccList) : (s.strike k).errlog = s.errlog := rfl
@[simp] theorem State.strike_nvm (k : EccList) : (s.strike k).nvm = s.nvm := rfl
@[simp] theorem State.strike_mgt (k : EccList) : (s.strike k).mgt = s.mgt := rfl
@[simp] theorem State.strike_tel (k : EccList) : (s.strike k).tel = s.tel := rfl
@[simp] theorem State.strike_board (k : EccList) : (s.strike k).board = s.board := rfl
@[simp] theorem State.strike_out (k : EccList) : (s.strike k).out = s.out := rfl
@[simp] theorem State.strike_fresh (k : EccList) : (s.strike k).fresh = s.fresh := rfl
@[simp] theorem State.strike_nextId (k : EccList) : (s.strike k).nextId = s.nextId := rfl
@[simp] theorem State.strike_pending (k : EccList) : (s.strike k).pending = s.pending := rfl

end Sys2Proof.Machine
end

