-- ==== Sys2Proof/Laws/Log.lean ====
section
/-!
SUPPORT. What an interrupt and an event record can change: the pending bits, what the block sends, the log and its
counters, and nothing else.
-/
namespace Sys2Proof.Machine

open Sys2Proof

theorem State.sendMsix_frame (s : State) (v : Nat) :
    ∃ p o, s.sendMsix v = { s with host := { s.host with pba := p }, out := o } := by
  unfold State.sendMsix
  split
  · exact ⟨s.host.pba, s.out, rfl⟩
  · split
    · exact ⟨_, s.out, rfl⟩
    · exact ⟨s.host.pba, _, rfl⟩

theorem State.sendEv_frame (s : State) (cls : Nat) :
    ∃ p o, s.sendEv cls = { s with host := { s.host with pba := p }, out := o } := by
  unfold State.sendEv
  split
  · exact State.sendMsix_frame _ _
  · exact ⟨s.host.pba, s.out, rfl⟩

theorem ErrLog.counted_fatal (e : ErrLog) (cls : Nat) : (e.counted cls).fatal = e.fatal := by
  unfold ErrLog.counted; split <;> (try rfl); split <;> rfl

theorem ErrLog.reported_fatal (e : ErrLog) (cls code : Nat) : (e.reported cls code).fatal = e.fatal := by
  unfold ErrLog.reported; split <;> rfl

theorem State.logEv_frame (s : State) (cls level fid code addr info : Nat) :
    ∃ e p o k, s.logEv cls level fid code addr info
        = { s with errlog := e, host := { s.host with pba := p }, out := o, fresh := k } ∧ e.fatal = s.errlog.fatal := by
  have hf := (ErrLog.reported_fatal (s.errlog.counted cls) cls code).trans (ErrLog.counted_fatal s.errlog cls)
  unfold State.logEv
  generalize (s.errlog.counted cls).reported cls code = e at hf ⊢
  generalize s.fresh + b2n (cls == 0) = k
  dsimp only
  split
  · exact ⟨_, s.host.pba, s.out, k, rfl, hf⟩
  · split
    · exact ⟨_, s.host.pba, s.out, k, rfl, hf⟩
    · split
      · exact ⟨_, s.host.pba, s.out, k, rfl, hf⟩
      · split
        · exact ⟨_, s.host.pba, s.out, k, rfl, hf⟩
        · exact ⟨_, _, _, _, Exists.choose_spec (Exists.choose_spec (State.sendEv_frame _ _)), hf⟩

variable (s : State)

@[simp] theorem State.sendMsix_strands (v : Nat) : (s.sendMsix v).strands = s.strands := by
  obtain ⟨p, o, h⟩ := s.sendMsix_frame v; rw [h]
@[simp] theorem State.sendMsix_blocks (v : Nat) : (s.sendMsix v).blocks = s.blocks := by
  obtain ⟨p, o, h⟩ := s.sendMsix_frame v; rw [h]
@[simp] theorem State.sendMsix_jobs (v : Nat) : (s.sendMsix v).jobs = s.jobs := by
  obtain ⟨p, o, h⟩ := s.sendMsix_frame v; rw [h]
@[simp] theorem State.sendMsix_engines (v : Nat) : (s.sendMsix v).engines = s.engines := by
  obtain ⟨p, o, h⟩ := s.sendMsix_frame v; rw [h]
@[simp] theorem State.sendMsix_vsus (v : Nat) : (s.sendMsix v).vsus = s.vsus := by
  obtain ⟨p, o, h⟩ := s.sendMsix_frame v; rw [h]
@[simp] theorem State.sendMsix_mem (v : Nat) : (s.sendMsix v).mem = s.mem := by
  obtain ⟨p, o, h⟩ := s.sendMsix_frame v; rw [h]
@[simp] theorem State.sendMsix_poison (v : Nat) : (s.sendMsix v).poison = s.poison := by
  obtain ⟨p, o, h⟩ := s.sendMsix_frame v; rw [h]
@[simp] theorem State.sendMsix_segs (v : Nat) : (s.sendMsix v).segs = s.segs := by
  obtain ⟨p, o, h⟩ := s.sendMsix_frame v; rw [h]
@[simp] theorem State.sendMsix_mcs (v : Nat) : (s.sendMsix v).mcs = s.mcs := by
  obtain ⟨p, o, h⟩ := s.sendMsix_frame v; rw [h]
@[simp] theorem State.sendMsix_qe (v : Nat) : (s.sendMsix v).qe = s.qe := by
  obtain ⟨p, o, h⟩ := s.sendMsix_frame v; rw [h]
@[simp] theorem State.sendMsix_se (v : Nat) : (s.sendMsix v).se = s.se := by
  obtain ⟨p, o, h⟩ := s.sendMsix_frame v; rw [h]
@[simp] theorem State.sendMsix_wdt (v : Nat) : (s.sendMsix v).wdt = s.wdt := by
  obtain ⟨p, o, h⟩ := s.sendMsix_frame v; rw [h]
@[simp] theorem State.sendMsix_mbx (v : Nat) : (s.sendMsix v).mbx = s.mbx := by
  obtain ⟨p, o, h⟩ := s.sendMsix_frame v; rw [h]
@[simp] theorem State.sendMsix_arbs (v : Nat) : (s.sendMsix v).arbs = s.arbs := by
  obtain ⟨p, o, h⟩ := s.sendMsix_frame v; rw [h]
@[simp] theorem State.sendMsix_col (v : Nat) : (s.sendMsix v).col = s.col := by
  obtain ⟨p, o, h⟩ := s.sendMsix_frame v; rw [h]
@[simp] theorem State.sendMsix_coh (v : Nat) : (s.sendMsix v).coh = s.coh := by
  obtain ⟨p, o, h⟩ := s.sendMsix_frame v; rw [h]
@[simp] theorem State.sendMsix_power (v : Nat) : (s.sendMsix v).power = s.power := by
  obtain ⟨p, o, h⟩ := s.sendMsix_frame v; rw [h]
@[simp] theorem State.sendMsix_func (v : Nat) : (s.sendMsix v).func = s.func := by
  obtain ⟨p, o, h⟩ := s.sendMsix_frame v; rw [h]
@[simp] theorem State.sendMsix_errlog (v : Nat) : (s.sendMsix v).errlog = s.errlog := by
  obtain ⟨p, o, h⟩ := s.sendMsix_frame v; rw [h]
@[simp] theorem State.sendMsix_nvm (v : Nat) : (s.sendMsix v).nvm = s.nvm := by
  obtain ⟨p, o, h⟩ := s.sendMsix_frame v; rw [h]
@[simp] theorem State.sendMsix_mgt (v : Nat) : (s.sendMsix v).mgt = s.mgt := by
  obtain ⟨p, o, h⟩ := s.sendMsix_frame v; rw [h]
@[simp] theorem State.sendMsix_tel (v : Nat) : (s.sendMsix v).tel = s.tel := by
  obtain ⟨p, o, h⟩ := s.sendMsix_frame v; rw [h]
@[simp] theorem State.sendMsix_board (v : Nat) : (s.sendMsix v).board = s.board := by
  obtain ⟨p, o, h⟩ := s.sendMsix_frame v; rw [h]
@[simp] theorem State.sendMsix_fresh (v : Nat) : (s.sendMsix v).fresh = s.fresh := by
  obtain ⟨p, o, h⟩ := s.sendMsix_frame v; rw [h]
@[simp] theorem State.sendMsix_nextId (v : Nat) : (s.sendMsix v).nextId = s.nextId := by
  obtain ⟨p, o, h⟩ := s.sendMsix_frame v; rw [h]
@[simp] theorem State.sendMsix_pending (v : Nat) : (s.sendMsix v).pending = s.pending := by
  obtain ⟨p, o, h⟩ := s.sendMsix_frame v; rw [h]
@[simp] theorem State.sendMsix_struck (v : Nat) : (s.sendMsix v).struck = s.struck := by
  obtain ⟨p, o, h⟩ := s.sendMsix_frame v; rw [h]
@[simp] theorem State.logEv_strands (c l f k a i : Nat) : (s.logEv c l f k a i).strands = s.strands := by
  obtain ⟨e, p, o, n, h, -⟩ := s.logEv_frame c l f k a i; rw [h]
@[simp] theorem State.logEv_blocks (c l f k a i : Nat) : (s.logEv c l f k a i).blocks = s.blocks := by
  obtain ⟨e, p, o, n, h, -⟩ := s.logEv_frame c l f k a i; rw [h]
@[simp] theorem State.logEv_jobs (c l f k a i : Nat) : (s.logEv c l f k a i).jobs = s.jobs := by
  obtain ⟨e, p, o, n, h, -⟩ := s.logEv_frame c l f k a i; rw [h]
@[simp] theorem State.logEv_engines (c l f k a i : Nat) : (s.logEv c l f k a i).engines = s.engines := by
  obtain ⟨e, p, o, n, h, -⟩ := s.logEv_frame c l f k a i; rw [h]
@[simp] theorem State.logEv_vsus (c l f k a i : Nat) : (s.logEv c l f k a i).vsus = s.vsus := by
  obtain ⟨e, p, o, n, h, -⟩ := s.logEv_frame c l f k a i; rw [h]
@[simp] theorem State.logEv_mem (c l f k a i : Nat) : (s.logEv c l f k a i).mem = s.mem := by
  obtain ⟨e, p, o, n, h, -⟩ := s.logEv_frame c l f k a i; rw [h]
@[simp] theorem State.logEv_poison (c l f k a i : Nat) : (s.logEv c l f k a i).poison = s.poison := by
  obtain ⟨e, p, o, n, h, -⟩ := s.logEv_frame c l f k a i; rw [h]
@[simp] theorem State.logEv_segs (c l f k a i : Nat) : (s.logEv c l f k a i).segs = s.segs := by
  obtain ⟨e, p, o, n, h, -⟩ := s.logEv_frame c l f k a i; rw [h]
@[simp] theorem State.logEv_mcs (c l f k a i : Nat) : (s.logEv c l f k a i).mcs = s.mcs := by
  obtain ⟨e, p, o, n, h, -⟩ := s.logEv_frame c l f k a i; rw [h]
@[simp] theorem State.logEv_qe (c l f k a i : Nat) : (s.logEv c l f k a i).qe = s.qe := by
  obtain ⟨e, p, o, n, h, -⟩ := s.logEv_frame c l f k a i; rw [h]
@[simp] theorem State.logEv_se (c l f k a i : Nat) : (s.logEv c l f k a i).se = s.se := by
  obtain ⟨e, p, o, n, h, -⟩ := s.logEv_frame c l f k a i; rw [h]
@[simp] theorem State.logEv_wdt (c l f k a i : Nat) : (s.logEv c l f k a i).wdt = s.wdt := by
  obtain ⟨e, p, o, n, h, -⟩ := s.logEv_frame c l f k a i; rw [h]
@[simp] theorem State.logEv_mbx (c l f k a i : Nat) : (s.logEv c l f k a i).mbx = s.mbx := by
  obtain ⟨e, p, o, n, h, -⟩ := s.logEv_frame c l f k a i; rw [h]
@[simp] theorem State.logEv_arbs (c l f k a i : Nat) : (s.logEv c l f k a i).arbs = s.arbs := by
  obtain ⟨e, p, o, n, h, -⟩ := s.logEv_frame c l f k a i; rw [h]
@[simp] theorem State.logEv_col (c l f k a i : Nat) : (s.logEv c l f k a i).col = s.col := by
  obtain ⟨e, p, o, n, h, -⟩ := s.logEv_frame c l f k a i; rw [h]
@[simp] theorem State.logEv_coh (c l f k a i : Nat) : (s.logEv c l f k a i).coh = s.coh := by
  obtain ⟨e, p, o, n, h, -⟩ := s.logEv_frame c l f k a i; rw [h]
@[simp] theorem State.logEv_power (c l f k a i : Nat) : (s.logEv c l f k a i).power = s.power := by
  obtain ⟨e, p, o, n, h, -⟩ := s.logEv_frame c l f k a i; rw [h]
@[simp] theorem State.logEv_func (c l f k a i : Nat) : (s.logEv c l f k a i).func = s.func := by
  obtain ⟨e, p, o, n, h, -⟩ := s.logEv_frame c l f k a i; rw [h]
@[simp] theorem State.logEv_nvm (c l f k a i : Nat) : (s.logEv c l f k a i).nvm = s.nvm := by
  obtain ⟨e, p, o, n, h, -⟩ := s.logEv_frame c l f k a i; rw [h]
@[simp] theorem State.logEv_mgt (c l f k a i : Nat) : (s.logEv c l f k a i).mgt = s.mgt := by
  obtain ⟨e, p, o, n, h, -⟩ := s.logEv_frame c l f k a i; rw [h]
@[simp] theorem State.logEv_tel (c l f k a i : Nat) : (s.logEv c l f k a i).tel = s.tel := by
  obtain ⟨e, p, o, n, h, -⟩ := s.logEv_frame c l f k a i; rw [h]
@[simp] theorem State.logEv_board (c l f k a i : Nat) : (s.logEv c l f k a i).board = s.board := by
  obtain ⟨e, p, o, n, h, -⟩ := s.logEv_frame c l f k a i; rw [h]
@[simp] theorem State.logEv_nextId (c l f k a i : Nat) : (s.logEv c l f k a i).nextId = s.nextId := by
  obtain ⟨e, p, o, n, h, -⟩ := s.logEv_frame c l f k a i; rw [h]
@[simp] theorem State.logEv_pending (c l f k a i : Nat) : (s.logEv c l f k a i).pending = s.pending := by
  obtain ⟨e, p, o, n, h, -⟩ := s.logEv_frame c l f k a i; rw [h]
@[simp] theorem State.logEv_struck (c l f k a i : Nat) : (s.logEv c l f k a i).struck = s.struck := by
  obtain ⟨e, p, o, n, h, -⟩ := s.logEv_frame c l f k a i; rw [h]
@[simp] theorem State.logEv_fatal (c l f k a i : Nat) : (s.logEv c l f k a i).errlog.fatal = s.errlog.fatal := by
  obtain ⟨e, p, o, n, h, hf⟩ := s.logEv_frame c l f k a i; rw [h]; exact hf
@[simp] theorem State.logEv_strand (c l f k a i : Nat) (n : StrandId) : (s.logEv c l f k a i).strand n = s.strand n := by
  simp [State.strand]
@[simp] theorem State.sendMsix_strand (v : Nat) (n : StrandId) : (s.sendMsix v).strand n = s.strand n := by
  simp [State.strand]

/-- What an upset that a read meets can change: the count of its controller, the poison marks, and the log. -/
theorem State.eccAt_frame (s : State) (a n : Nat) (ecc : Ecc) :
    ∃ m q e p o k, s.eccAt a n ecc
        = { s with mcs := m, poison := q, errlog := e, host := { s.host with pba := p }, out := o, fresh := k }
      ∧ e.fatal = s.errlog.fatal := by
  unfold State.eccAt
  dsimp only
  split
  · exact ⟨s.mcs, s.poison, s.errlog, s.host.pba, s.out, s.fresh, rfl, rfl⟩
  · obtain ⟨e, p, o, k, h, hf⟩ := State.logEv_frame (s.setMc (mcOfChannel (s.channelOf a))
      { s.mc (mcOfChannel (s.channelOf a)) with ce := satAdd (s.mc (mcOfChannel (s.channelOf a))).ce 1 })
      0 2 (0x80 + (mcOfChannel (s.channelOf a)).val) 0x06 a (s.channelOf a)
    exact ⟨_, s.poison, e, p, o, k, h, hf⟩
  · obtain ⟨e, p, o, k, h, hf⟩ := State.logEv_frame s 0 2 0xFF 0x04 a (a / 64 % 64)
    exact ⟨s.mcs, s.poison, e, p, o, k, h, hf⟩
  · obtain ⟨e, p, o, k, h, hf⟩ := State.logEv_frame { s with poison := poisonAdd s.poison (halvesOf a n) } 1 2
      (0x80 + (mcOfChannel (s.channelOf a)).val) 0x07 a (s.channelOf a)
    exact ⟨s.mcs, _, e, p, o, k, h, hf⟩
  · obtain ⟨e, p, o, k, h, hf⟩ := State.logEv_frame { s with poison := poisonAdd s.poison (halvesOf a n) } 1 2 0xFF 0x05 a
      (a / 64 % 64)
    exact ⟨s.mcs, _, e, p, o, k, h, hf⟩

/-- What reading ranges that upsets have struck can change: the upsets, and what each of them changes. -/
theorem State.meet_frame (s : State) (rs : List (Nat × Nat)) :
    ∃ m q x e p o k, s.meet rs
        = { s with mcs := m, poison := q, struck := x, errlog := e, host := { s.host with pba := p }, out := o, fresh := k }
      ∧ e.fatal = s.errlog.fatal := by
  have key : ∀ (l : EccList) (t : State), (∃ m q x e p o k, t
        = { s with mcs := m, poison := q, struck := x, errlog := e, host := { s.host with pba := p }, out := o, fresh := k }
      ∧ e.fatal = s.errlog.fatal) → ∃ m q x e p o k,
        l.foldl (fun s f => s.eccAt (eccUnit f.1).1 (eccUnit f.1).2 f.2) t
        = { s with mcs := m, poison := q, struck := x, errlog := e, host := { s.host with pba := p }, out := o, fresh := k }
      ∧ e.fatal = s.errlog.fatal := by
    intro l
    induction l with
    | nil => intro t h; exact h
    | cons f l ih =>
      rintro t ⟨m, q, x, e, p, o, k, rfl, hf⟩
      refine ih _ ?_
      obtain ⟨m', q', e', p', o', k', h, hf'⟩ := State.eccAt_frame
        { s with mcs := m, poison := q, struck := x, errlog := e, host := { s.host with pba := p }, out := o, fresh := k }
        (eccUnit f.1).1 (eccUnit f.1).2 f.2
      exact ⟨m', q', x, e', p', o', k', h, hf'.trans hf⟩
  unfold State.meet
  split
  · exact ⟨s.mcs, s.poison, s.struck, s.errlog, s.host.pba, s.out, s.fresh, rfl, rfl⟩
  · exact key _ _ ⟨s.mcs, s.poison, _, s.errlog, s.host.pba, s.out, s.fresh, rfl, rfl⟩

/-- Where no word is struck, a read meets nothing. -/
theorem State.meet_none (s : State) (rs : List (Nat × Nat)) (h : s.struck = []) : s.meet rs = s := by
  unfold State.meet; rw [h]; rfl

@[simp] theorem State.meet_strands (rs : List (Nat × Nat)) : (s.meet rs).strands = s.strands := by
  obtain ⟨m, q, x, e, p, o, k, h, -⟩ := s.meet_frame rs; rw [h]
@[simp] theorem State.meet_blocks (rs : List (Nat × Nat)) : (s.meet rs).blocks = s.blocks := by
  obtain ⟨m, q, x, e, p, o, k, h, -⟩ := s.meet_frame rs; rw [h]
@[simp] theorem State.meet_jobs (rs : List (Nat × Nat)) : (s.meet rs).jobs = s.jobs := by
  obtain ⟨m, q, x, e, p, o, k, h, -⟩ := s.meet_frame rs; rw [h]
@[simp] theorem State.meet_engines (rs : List (Nat × Nat)) : (s.meet rs).engines = s.engines := by
  obtain ⟨m, q, x, e, p, o, k, h, -⟩ := s.meet_frame rs; rw [h]
@[simp] theorem State.meet_vsus (rs : List (Nat × Nat)) : (s.meet rs).vsus = s.vsus := by
  obtain ⟨m, q, x, e, p, o, k, h, -⟩ := s.meet_frame rs; rw [h]
@[simp] theorem State.meet_mem (rs : List (Nat × Nat)) : (s.meet rs).mem = s.mem := by
  obtain ⟨m, q, x, e, p, o, k, h, -⟩ := s.meet_frame rs; rw [h]
@[simp] theorem State.meet_segs (rs : List (Nat × Nat)) : (s.meet rs).segs = s.segs := by
  obtain ⟨m, q, x, e, p, o, k, h, -⟩ := s.meet_frame rs; rw [h]
@[simp] theorem State.meet_qe (rs : List (Nat × Nat)) : (s.meet rs).qe = s.qe := by
  obtain ⟨m, q, x, e, p, o, k, h, -⟩ := s.meet_frame rs; rw [h]
@[simp] theorem State.meet_se (rs : List (Nat × Nat)) : (s.meet rs).se = s.se := by
  obtain ⟨m, q, x, e, p, o, k, h, -⟩ := s.meet_frame rs; rw [h]
@[simp] theorem State.meet_wdt (rs : List (Nat × Nat)) : (s.meet rs).wdt = s.wdt := by
  obtain ⟨m, q, x, e, p, o, k, h, -⟩ := s.meet_frame rs; rw [h]
@[simp] theorem State.meet_mbx (rs : List (Nat × Nat)) : (s.meet rs).mbx = s.mbx := by
  obtain ⟨m, q, x, e, p, o, k, h, -⟩ := s.meet_frame rs; rw [h]
@[simp] theorem State.meet_arbs (rs : List (Nat × Nat)) : (s.meet rs).arbs = s.arbs := by
  obtain ⟨m, q, x, e, p, o, k, h, -⟩ := s.meet_frame rs; rw [h]
@[simp] theorem State.meet_col (rs : List (Nat × Nat)) : (s.meet rs).col = s.col := by
  obtain ⟨m, q, x, e, p, o, k, h, -⟩ := s.meet_frame rs; rw [h]
@[simp] theorem State.meet_coh (rs : List (Nat × Nat)) : (s.meet rs).coh = s.coh := by
  obtain ⟨m, q, x, e, p, o, k, h, -⟩ := s.meet_frame rs; rw [h]
@[simp] theorem State.meet_power (rs : List (Nat × Nat)) : (s.meet rs).power = s.power := by
  obtain ⟨m, q, x, e, p, o, k, h, -⟩ := s.meet_frame rs; rw [h]
@[simp] theorem State.meet_func (rs : List (Nat × Nat)) : (s.meet rs).func = s.func := by
  obtain ⟨m, q, x, e, p, o, k, h, -⟩ := s.meet_frame rs; rw [h]
@[simp] theorem State.meet_nvm (rs : List (Nat × Nat)) : (s.meet rs).nvm = s.nvm := by
  obtain ⟨m, q, x, e, p, o, k, h, -⟩ := s.meet_frame rs; rw [h]
@[simp] theorem State.meet_mgt (rs : List (Nat × Nat)) : (s.meet rs).mgt = s.mgt := by
  obtain ⟨m, q, x, e, p, o, k, h, -⟩ := s.meet_frame rs; rw [h]
@[simp] theorem State.meet_tel (rs : List (Nat × Nat)) : (s.meet rs).tel = s.tel := by
  obtain ⟨m, q, x, e, p, o, k, h, -⟩ := s.meet_frame rs; rw [h]
@[simp] theorem State.meet_board (rs : List (Nat × Nat)) : (s.meet rs).board = s.board := by
  obtain ⟨m, q, x, e, p, o, k, h, -⟩ := s.meet_frame rs; rw [h]
@[simp] theorem State.meet_nextId (rs : List (Nat × Nat)) : (s.meet rs).nextId = s.nextId := by
  obtain ⟨m, q, x, e, p, o, k, h, -⟩ := s.meet_frame rs; rw [h]
@[simp] theorem State.meet_pending (rs : List (Nat × Nat)) : (s.meet rs).pending = s.pending := by
  obtain ⟨m, q, x, e, p, o, k, h, -⟩ := s.meet_frame rs; rw [h]
@[simp] theorem State.meet_fatal (rs : List (Nat × Nat)) : (s.meet rs).errlog.fatal = s.errlog.fatal := by
  obtain ⟨m, q, x, e, p, o, k, h, hf⟩ := s.meet_frame rs; rw [h]; exact hf
@[simp] theorem State.meet_strand (rs : List (Nat × Nat)) (n : StrandId) : (s.meet rs).strand n = s.strand n := by
  simp [State.strand]
@[simp] theorem State.eccFound_mem (rs : List (Nat × Nat)) (k : EccList) : (s.eccFound rs k).mem = s.mem := by
  unfold State.eccFound; simp

end Sys2Proof.Machine
end

