-- ==== Sys2Proof/Laws/Memory.lean ====
section
/-!
SUPPORT. Memory as canonical cells: what a byte reads after a write, and that every operation keeps the form.
-/
namespace Sys2Proof.Machine

open Sys2Proof

/-- Every cell of the list lies above a. -/
def Memory.above (a : Nat) (m : List Host.Cell) : Prop := ∀ c ∈ m, a < c.1

/-- The canonical form, cell by cell. -/
theorem Memory.wf_cons (c : Host.Cell) (m : List Host.Cell) :
    Memory.wf (c :: m) = true ↔ c.2 ≠ blankByte ∧ Memory.above c.1 m ∧ Memory.wf m = true := by
  induction m generalizing c with
  | nil => simp [Memory.wf, Memory.above]
  | cons d t ih =>
    simp only [Memory.wf, Bool.and_eq_true, bne_iff_ne, decide_eq_true_eq]
    constructor
    · rintro ⟨⟨h, hl⟩, hw⟩
      refine ⟨h, ?_, hw⟩
      intro e he
      rcases List.mem_cons.1 he with rfl | he
      · exact hl
      · exact Nat.lt_trans hl (((ih d).1 hw).2.1 e he)
    · rintro ⟨h, ha, hw⟩
      exact ⟨⟨h, ha d (by simp)⟩, hw⟩

theorem Memory.wf_nil : Memory.wf [] = true := rfl

theorem memGet_above (a b : Nat) (m : List Host.Cell) (h : Memory.above a m) (hb : b ≤ a) : memGet m b = blankByte := by
  cases m with
  | nil => rfl
  | cons c t =>
    have := h c (by simp)
    simp only [memGet]
    rw [if_neg (by omega), if_pos (by omega)]

theorem memSet_above (m : List Host.Cell) (k a : Nat) (b : Byte) (h : Memory.above k m) (hk : k < a) :
    Memory.above k (memSet m a b) := by
  induction m with
  | nil => unfold memSet; split <;> simp [Memory.above, hk]
  | cons c t ih =>
    have hc := h c (by simp)
    have ht : Memory.above k t := fun e he => h e (by simp [he])
    have cons : ∀ (x : Host.Cell) (l : List Host.Cell), k < x.1 → Memory.above k l → Memory.above k (x :: l) := by
      intro x l hx hl e he
      rcases List.mem_cons.1 he with rfl | he
      · exact hx
      · exact hl e he
    unfold memSet
    split
    · split
      · exact h
      · exact cons _ _ hk h
    · split
      · split
        · exact ht
        · exact cons _ _ hk ht
      · exact cons _ _ hc (ih ht)

/-- A write keeps the canonical form. -/
theorem wf_memSet (m : List Host.Cell) (a : Nat) (b : Byte) (h : Memory.wf m = true) : Memory.wf (memSet m a b) = true := by
  induction m with
  | nil =>
    unfold memSet
    split
    · rfl
    · rename_i hb; simpa [Memory.wf] using hb
  | cons c t ih =>
    have hc := (Memory.wf_cons c t).1 h
    unfold memSet
    split
    · rename_i hlt
      split
      · exact h
      · rename_i hb
        refine (Memory.wf_cons _ _).2 ⟨hb, ?_, h⟩
        intro e he
        rcases List.mem_cons.1 he with rfl | he
        · exact hlt
        · exact Nat.lt_trans hlt (hc.2.1 e he)
    · split
      · rename_i heq
        split
        · exact hc.2.2
        · rename_i hb
          exact (Memory.wf_cons _ _).2 ⟨hb, by simpa [heq] using hc.2.1, hc.2.2⟩
      · rename_i hlt hne
        exact (Memory.wf_cons _ _).2 ⟨hc.1, memSet_above t c.1 a b hc.2.1 (by omega), ih hc.2.2⟩

theorem wf_memSetN (m : List Host.Cell) (a : Nat) (bs : List Byte) (h : Memory.wf m = true) :
    Memory.wf (memSetN m a bs) = true := by
  induction bs generalizing m a with
  | nil => exact h
  | cons b t ih => exact ih _ _ (wf_memSet m a b h)

theorem wf_filter (m : List Host.Cell) (f : Host.Cell → Bool) (h : Memory.wf m = true) : Memory.wf (m.filter f) = true := by
  induction m with
  | nil => rfl
  | cons c t ih =>
    have hc := (Memory.wf_cons c t).1 h
    simp only [List.filter]
    split
    · exact (Memory.wf_cons _ _).2 ⟨hc.1, fun e he => hc.2.1 e (List.mem_filter.1 he).1, ih hc.2.2⟩
    · exact ih hc.2.2

theorem wf_memClear (m : List Host.Cell) (a n : Nat) (h : Memory.wf m = true) : Memory.wf (memClear m a n) = true :=
  wf_filter m _ h

/-- A byte that has been written reads as it was written. -/
theorem memGet_memSet_same (m : List Host.Cell) (a : Nat) (b : Byte) (h : Memory.wf m = true) :
    memGet (memSet m a b) a = b := by
  induction m with
  | nil => unfold memSet; split <;> simp_all [memGet]
  | cons c t ih =>
    have hc := (Memory.wf_cons c t).1 h
    unfold memSet
    split
    · rename_i hlt
      split
      · rename_i hb; rw [hb]; simp only [memGet]; rw [if_neg (by omega), if_pos hlt]
      · simp [memGet]
    · split
      · rename_i heq
        split
        · rename_i hb; rw [hb]; exact memGet_above c.1 a t hc.2.1 (by omega)
        · simp [memGet]
      · rename_i hlt hne
        simp only [memGet]
        rw [if_neg hne, if_neg hlt]
        exact ih hc.2.2

/-- A write leaves every other byte. -/
theorem memGet_memSet_ne (m : List Host.Cell) (a d : Nat) (b : Byte) (h : Memory.wf m = true) (hd : d ≠ a) :
    memGet (memSet m a b) d = memGet m d := by
  induction m with
  | nil =>
    unfold memSet
    split
    · rfl
    · simp only [memGet]; rw [if_neg (fun e => hd e.symm)]; split <;> rfl
  | cons c t ih =>
    have hc := (Memory.wf_cons c t).1 h
    unfold memSet
    split
    · rename_i hlt
      split
      · rfl
      · simp only [memGet]
        by_cases h1 : d < a
        · rw [if_neg (by omega), if_pos h1, if_neg (by omega), if_pos (by omega)]
        · rw [if_neg (by omega), if_neg h1]
    · split
      · rename_i heq
        split
        · simp only [memGet]
          by_cases h1 : d < c.1
          · rw [if_neg (by omega), if_pos h1]; exact memGet_above c.1 d t hc.2.1 (by omega)
          · rw [if_neg (by omega), if_neg h1]
        · simp only [memGet]
          by_cases h1 : d < a
          · rw [if_neg (by omega), if_pos h1, if_neg (by omega), if_pos (by omega)]
          · rw [if_neg (by omega), if_neg h1, if_neg (by omega), if_neg (by omega)]
      · simp only [memGet]
        split
        · rfl
        · split
          · rfl
          · exact ih hc.2.2

/-- Bytes outside a stored range read as before. -/
theorem memGet_memSetN_outside (m : List Host.Cell) (a d : Nat) (bs : List Byte) (h : Memory.wf m = true)
    (hd : d < a ∨ a + bs.length ≤ d) : memGet (memSetN m a bs) d = memGet m d := by
  induction bs generalizing m a with
  | nil => rfl
  | cons b t ih =>
    simp only [List.length_cons] at hd
    simp only [memSetN]
    rw [ih _ _ (wf_memSet m a b h) (by omega), memGet_memSet_ne m a d b h (by omega)]

theorem memGetN_memSetN (m : List Host.Cell) (a : Nat) (bs : List Byte) (h : Memory.wf m = true) :
    memGetN (memSetN m a bs) a bs.length = bs := by
  induction bs generalizing m a with
  | nil => rfl
  | cons b t ih =>
    simp only [List.length_cons, memGetN, memSetN]
    rw [ih _ _ (wf_memSet m a b h), memGet_memSetN_outside _ _ _ _ (wf_memSet m a b h) (by omega),
      memGet_memSet_same m a b h]

theorem memGet_memClear (m : List Host.Cell) (a n d : Nat) (h : Memory.wf m = true) :
    memGet (memClear m a n) d = if a ≤ d ∧ d < a + n then blankByte else memGet m d := by
  induction m with
  | nil => simp [memClear, memGet]
  | cons c t ih =>
    have hc := (Memory.wf_cons c t).1 h
    have ht : memGet (List.filter (fun c => decide (c.1 < a) || decide (a + n ≤ c.1)) t) d
        = if a ≤ d ∧ d < a + n then blankByte else memGet t d := ih hc.2.2
    simp only [memClear, List.filter]
    split
    · rename_i hk
      simp only [Bool.or_eq_true, decide_eq_true_eq] at hk
      simp only [memGet]
      by_cases h1 : c.1 = d
      · rw [if_pos h1, if_neg (by omega), if_pos h1]
      · rw [if_neg h1, if_neg h1]
        by_cases h2 : d < c.1
        · rw [if_pos h2, if_pos h2]; split <;> rfl
        · rw [if_neg h2, if_neg h2]; exact ht
    · rename_i hk
      simp only [Bool.or_eq_false_iff, decide_eq_false_iff_not] at hk
      rw [ht]
      simp only [memGet]
      split
      · rfl
      · rename_i hn
        by_cases h1 : c.1 = d
        · exfalso; omega
        · rw [if_neg h1]
          by_cases h2 : d < c.1
          · rw [if_pos h2]; exact memGet_above c.1 d t hc.2.1 (by omega)
          · rw [if_neg h2]

/-- What State.write can do to memory: nothing, or the bytes at a. -/
theorem State.write_mem (s : State) (a : Nat) (bs : List Byte) (bad : Bool) :
    (s.write a bs bad).mem = if s.answers a bs.length then memSetN s.mem a bs else s.mem := by
  unfold State.write State.logOffline
  cases h : s.answers a bs.length <;> simp

@[simp] theorem State.write_strands (s : State) (a : Nat) (bs : List Byte) (bad : Bool) : (s.write a bs bad).strands = s.strands := by
  unfold State.write State.logOffline
  cases h : s.answers a bs.length <;> simp

theorem State.wf_write (s : State) (a : Nat) (bs : List Byte) (bad : Bool) (h : Memory.wf s.mem = true) :
    Memory.wf (s.write a bs bad).mem = true := by
  rw [State.write_mem]
  split
  · exact wf_memSetN _ _ _ h
  · exact h

theorem State.wf_zeroFill (s : State) (a n : Nat) (h : Memory.wf s.mem = true) : Memory.wf (s.zeroFill a n).mem = true :=
  wf_memClear _ _ _ h

@[simp] theorem leBytes_length (n v : Nat) : (leBytes n v).length = n := by
  induction n generalizing v with
  | zero => rfl
  | succ k ih => simp [leBytes, ih]

theorem reset_memory_wf : Memory.wf State.reset.mem = true := rfl

end Sys2Proof.Machine
end

