-- ==== Sys2Proof/Laws/Nvm.lean ====
section
/-!
SUPPORT. What the acts on the NVM and a new boot record write, and what they leave (16 R333, R336, R337).
-/
namespace Sys2Proof.Machine

open Sys2Proof

theorem bootCopy_valid (b : BootRec) (k : Nat) : (bootCopy b k).valid = true := by simp [bootCopy, BootCopy.valid]

theorem seqNewer_succ (k : Nat) (_ : k < 2 ^ 32) : seqNewer ((k + 1) % 2 ^ 32) k = true := by
  simp [seqNewer]; omega
theorem seqNewer_of_succ (k : Nat) (_ : k < 2 ^ 32) : seqNewer k ((k + 1) % 2 ^ 32) = false := by
  simp [seqNewer]; omega

/-- A boot record just written governs. -/
theorem Nvm.boot_putBoot (n : Nvm) (b : BootRec) (h0 : n.boot0.seq < 2 ^ 32) (h1 : n.boot1.seq < 2 ^ 32) :
    (n.putBoot b).boot = b := by
  cases h : n.bootOne
  · have e : n.putBoot b = { n with boot1 := bootCopy b ((n.boot0.seq + 1) % 2 ^ 32) } := by
      unfold Nvm.putBoot Nvm.nextCopy Nvm.putCopy; rw [h]; rfl
    have g : (n.putBoot b).bootOne = true := by
      rw [e]
      show ((bootCopy b ((n.boot0.seq + 1) % 2 ^ 32)).valid
        && (!n.boot0.valid || seqNewer ((n.boot0.seq + 1) % 2 ^ 32) n.boot0.seq)) = true
      rw [bootCopy_valid, seqNewer_succ _ h0, Bool.or_true, Bool.and_true]
    rw [Nvm.boot, g, e]; rfl
  · have e : n.putBoot b = { n with boot0 := bootCopy b ((n.boot1.seq + 1) % 2 ^ 32) } := by
      unfold Nvm.putBoot Nvm.nextCopy Nvm.putCopy; rw [h]; rfl
    have g : (n.putBoot b).bootOne = false := by
      rw [e]
      show (n.boot1.valid && (!(bootCopy b ((n.boot1.seq + 1) % 2 ^ 32)).valid
        || seqNewer n.boot1.seq ((n.boot1.seq + 1) % 2 ^ 32))) = false
      rw [bootCopy_valid, seqNewer_of_succ _ h1, Bool.not_true, Bool.or_false, Bool.and_false]
    rw [Nvm.boot, g, e]; rfl

variable (n : Nvm) (b : BootRec)

@[simp] theorem Nvm.putBoot_area0 : (n.putBoot b).area0 = n.area0 := by unfold Nvm.putBoot Nvm.putCopy; split <;> rfl
@[simp] theorem Nvm.putBoot_area1 : (n.putBoot b).area1 = n.area1 := by unfold Nvm.putBoot Nvm.putCopy; split <;> rfl
@[simp] theorem Nvm.putBoot_applied : (n.putBoot b).applied = n.applied := by unfold Nvm.putBoot Nvm.putCopy; split <;> rfl
@[simp] theorem Nvm.putBoot_copying : (n.putBoot b).copying = n.copying := by unfold Nvm.putBoot Nvm.putCopy; split <;> rfl
@[simp] theorem Nvm.putBoot_calibration : (n.putBoot b).calibration = n.calibration := by unfold Nvm.putBoot Nvm.putCopy; split <;> rfl
@[simp] theorem Nvm.putBoot_calCopy : (n.putBoot b).calCopy = n.calCopy := by unfold Nvm.putBoot Nvm.putCopy; split <;> rfl
@[simp] theorem Nvm.putBoot_bankA : (n.putBoot b).bankA = n.bankA := by unfold Nvm.putBoot Nvm.putCopy; split <;> rfl
@[simp] theorem Nvm.putBoot_bankB : (n.putBoot b).bankB = n.bankB := by unfold Nvm.putBoot Nvm.putCopy; split <;> rfl
@[simp] theorem Nvm.putBoot_library : (n.putBoot b).library = n.library := by unfold Nvm.putBoot Nvm.putCopy; split <;> rfl
@[simp] theorem Nvm.putBoot_rollback : (n.putBoot b).rollback = n.rollback := by unfold Nvm.putBoot Nvm.putCopy; split <;> rfl
@[simp] theorem Nvm.putBoot_op : (n.putBoot b).op = n.op := by unfold Nvm.putBoot Nvm.putCopy; split <;> rfl
@[simp] theorem Nvm.putBoot_state : (n.putBoot b).state = n.state := by unfold Nvm.putBoot Nvm.putCopy; split <;> rfl
@[simp] theorem Nvm.putBoot_err : (n.putBoot b).err = n.err := by unfold Nvm.putBoot Nvm.putCopy; split <;> rfl
@[simp] theorem Nvm.putBoot_updAddr : (n.putBoot b).updAddr = n.updAddr := by unfold Nvm.putBoot Nvm.putCopy; split <;> rfl
@[simp] theorem Nvm.putBoot_updLen : (n.putBoot b).updLen = n.updLen := by unfold Nvm.putBoot Nvm.putCopy; split <;> rfl
@[simp] theorem Nvm.putBoot_work : (n.putBoot b).work = n.work := by unfold Nvm.putBoot Nvm.putCopy; split <;> rfl
@[simp] theorem Nvm.putBoot_flash : (n.putBoot b).flash = n.flash := by unfold Nvm.putBoot Nvm.putCopy; split <;> rfl

/-- An act leaves what is no journal area and no bank. -/
@[simp] theorem Nvm.act_applied (o : JOp) : (n.act o).applied = n.applied := by
  cases o <;> simp only [Nvm.act, Nvm.setArea, Nvm.setBank] <;> split <;> rfl
@[simp] theorem Nvm.act_boot0 (o : JOp) : (n.act o).boot0 = n.boot0 := by
  cases o <;> simp only [Nvm.act, Nvm.setArea, Nvm.setBank] <;> split <;> rfl
@[simp] theorem Nvm.act_boot1 (o : JOp) : (n.act o).boot1 = n.boot1 := by
  cases o <;> simp only [Nvm.act, Nvm.setArea, Nvm.setBank] <;> split <;> rfl
@[simp] theorem Nvm.act_copying (o : JOp) : (n.act o).copying = n.copying := by
  cases o <;> simp only [Nvm.act, Nvm.setArea, Nvm.setBank] <;> split <;> rfl
@[simp] theorem Nvm.act_calibration (o : JOp) : (n.act o).calibration = n.calibration := by
  cases o <;> simp only [Nvm.act, Nvm.setArea, Nvm.setBank] <;> split <;> rfl
@[simp] theorem Nvm.act_calCopy (o : JOp) : (n.act o).calCopy = n.calCopy := by
  cases o <;> simp only [Nvm.act, Nvm.setArea, Nvm.setBank] <;> split <;> rfl
@[simp] theorem Nvm.act_library (o : JOp) : (n.act o).library = n.library := by
  cases o <;> simp only [Nvm.act, Nvm.setArea, Nvm.setBank] <;> split <;> rfl
@[simp] theorem Nvm.act_rollback (o : JOp) : (n.act o).rollback = n.rollback := by
  cases o <;> simp only [Nvm.act, Nvm.setArea, Nvm.setBank] <;> split <;> rfl
@[simp] theorem Nvm.act_op (o : JOp) : (n.act o).op = n.op := by
  cases o <;> simp only [Nvm.act, Nvm.setArea, Nvm.setBank] <;> split <;> rfl
@[simp] theorem Nvm.act_state (o : JOp) : (n.act o).state = n.state := by
  cases o <;> simp only [Nvm.act, Nvm.setArea, Nvm.setBank] <;> split <;> rfl
@[simp] theorem Nvm.act_err (o : JOp) : (n.act o).err = n.err := by
  cases o <;> simp only [Nvm.act, Nvm.setArea, Nvm.setBank] <;> split <;> rfl
@[simp] theorem Nvm.act_updAddr (o : JOp) : (n.act o).updAddr = n.updAddr := by
  cases o <;> simp only [Nvm.act, Nvm.setArea, Nvm.setBank] <;> split <;> rfl
@[simp] theorem Nvm.act_updLen (o : JOp) : (n.act o).updLen = n.updLen := by
  cases o <;> simp only [Nvm.act, Nvm.setArea, Nvm.setBank] <;> split <;> rfl
@[simp] theorem Nvm.act_work (o : JOp) : (n.act o).work = n.work := by
  cases o <;> simp only [Nvm.act, Nvm.setArea, Nvm.setBank] <;> split <;> rfl
@[simp] theorem Nvm.act_flash (o : JOp) : (n.act o).flash = n.flash := by
  cases o <;> simp only [Nvm.act, Nvm.setArea, Nvm.setBank] <;> split <;> rfl

end Sys2Proof.Machine
end

