-- ==== Sys2Proof/Laws/Session.lean ====
section
/-!
SUPPORT. When the session engine runs a command or a session instruction, and what it leaves when it does not (11 R229 to R233).
-/
namespace Sys2Proof.Machine

open Sys2Proof

/-- A command that finds the SE ready has its effect on the state with the command noted. -/
theorem seRun_ready (op sess : Nat) (c : Instr) (s : State) (f : State → State) (h : s.fabricOn = true) (hs : s.se.state ≠ 1)
    (hw : (s.seCmd op sess).seWaits c = false) : seRun op sess c s f = .next (f (s.seCmd op sess)) := by
  simp [seRun, h, hs, hw]

/-- A command that finds it busy or disabled is held with STATE 1. -/
theorem seRun_waits (op sess : Nat) (c : Instr) (s : State) (f : State → State) (h : s.fabricOn = true) (hs : s.se.state ≠ 1)
    (hw : (s.seCmd op sess).seWaits c = true) :
    seRun op sess c s f = .next (((s.seCmd op sess).hold c).setSe { (s.seCmd op sess).se with state := 1 }) := by
  simp [seRun, h, hs, hw]

/-- While an SE command is busy, a further one changes nothing. -/
theorem seRun_busy (op sess : Nat) (c : Instr) (s : State) (f : State → State) (h : s.fabricOn = true) (hs : s.se.state = 1) :
    seRun op sess c s f = .next s := by
  simp [seRun, h, hs]

theorem seGate_open (c : Instr) (s : State) (reads writes : List (Nat × Nat)) (f : State → State)
    (h : s.gate c reads writes = none) : seGate c s reads writes f = f s := by
  simp [seGate, h]

/-- A command whose accesses wait keeps STATE 1, with the snoops sent. -/
theorem seGate_held (c : Instr) (s t : State) (reads writes : List (Nat × Nat)) (f : State → State)
    (h : s.gate c reads writes = some t) : seGate c s reads writes f = t.setSe { t.se with state := 1 } := by
  simp [seGate, h]

end Sys2Proof.Machine
end

