-- ==== Sys2Proof/Laws/Strand.lean ====
section
/-!
SUPPORT. What the shared operations on strands can do: the issue of an instruction, and the frames of a fault and of going
on, which leave memory and the register files alone.
-/
namespace Sys2Proof.Machine

open Sys2Proof

/-- The instruction goes through: its body's effect is the step's effect. -/
theorem State.issue_ok (s t : State) (n : StrandId) (w : Word64) (op : Nat) (dec win : Bool) (body : Body)
    (hi : s.issues n w op = true) (hd : dec = true) (hw : win = true ∨ (s.strand n).inWindow = false)
    (hb : body (s.atIssue n w) = .ok t) : s.issue n w op dec win body = s.afterIssue n t := by
  simp only [State.issues, Bool.and_eq_true, beq_iff_eq] at hi
  obtain ⟨⟨h1, h2⟩, h3⟩ := hi
  have h3' : ({ s.strand n with wait := .none } : Strand).predOn w = true := h3
  simp only [State.issue, State.afterIssue, h1, h2, hd, bne_self_eq_false, Bool.not_true, Bool.or_self, h3']
  simp only [State.atIssue] at hb
  cases hin : (s.strand n).inWindow with
  | true =>
    rw [hin] at hw
    have : win = true := by simpa using hw
    simp only [hin, if_true] at hb
    simp [hb, this]
  | false =>
    simp only [hin] at hb
    simp at hb
    simp [hb]

/-- A strand that may not issue this word is left alone. -/
theorem State.issue_idle (s : State) (n : StrandId) (w : Word64) (op : Nat) (dec win : Bool) (body : Body)
    (h : s.mayIssue n w = false) : s.issue n w op dec win body = s := by
  simp [State.issue, h]

/-- A chip that does not run, or that has stopped, issues nothing. -/
theorem State.mayIssue_off (s : State) (n : StrandId) (w : Word64) (h : s.unitsOn = false) : s.mayIssue n w = false := by
  simp [State.mayIssue, State.going, h]

theorem State.mayStep_off (s : State) (e : EngineId) (st : Step512) (h : s.unitsOn = false) : s.mayStep e st = false := by
  simp [State.mayStep, State.engGo, h]

/-- Staging steps: the body's effect is the step's effect. -/
theorem State.stepRun_ok (s t : State) (e : EngineId) (st : Step512) (op : Nat) (dec : Bool) (body : SBody)
    (hi : s.stepsNow e st op = true) (hd : dec = true) (hb : body s = .ok t) : s.stepRun e st op dec body = t := by
  simp only [State.stepsNow, Bool.and_eq_true, beq_iff_eq] at hi
  simp [State.stepRun, hi.1, hi.2, hd, hb]

theorem State.stepRun_idle (s : State) (e : EngineId) (st : Step512) (op : Nat) (dec : Bool) (body : SBody)
    (h : s.mayStep e st = false) : s.stepRun e st op dec body = s := by
  simp [State.stepRun, h]

/-! ### The hard-wired registers (08 R147) -/

@[simp] theorem Strand.setReg_zero (x : Strand) (v : Word) : x.setReg 0 v = x := by simp [Strand.setReg]
@[simp] theorem Strand.setPred_zero (x : Strand) (v : Bool) : x.setPred 0 v = x := by simp [Strand.setPred]

theorem Strand.reg_setReg_same (x : Strand) (i : Nat) (v : Word) (h0 : i ≠ 0) (h : i < 32) : (x.setReg i v).reg i = v := by
  simp [Strand.setReg, Strand.reg, h, h0, List.getD]
theorem Strand.reg_setReg_ne (x : Strand) (i j : Nat) (v : Word) (h : i ≠ j) : (x.setReg i v).reg j = x.reg j := by
  unfold Strand.setReg
  split
  · split
    · rfl
    · simp [Strand.reg, List.getD, h]
  · rfl
theorem Strand.setReg_reg0 (x : Strand) (i : Nat) (v : Word) : (x.setReg i v).reg 0 = x.reg 0 := by
  by_cases h : i = 0
  · subst h; simp
  · exact Strand.reg_setReg_ne x i 0 v h
theorem Strand.pred_setPred_ne (x : Strand) (i j : Nat) (v : Bool) (h : i ≠ j) : (x.setPred i v).pred j = x.pred j := by
  unfold Strand.setPred
  split
  · split
    · rfl
    · simp [Strand.pred, List.getD, h]
  · rfl
theorem Strand.setPred_pred0 (x : Strand) (i : Nat) (v : Bool) : (x.setPred i v).pred 0 = x.pred 0 := by
  by_cases h : i = 0
  · subst h; simp
  · exact Strand.pred_setPred_ne x i 0 v h

/-! ### Frames of going on and of a fault -/

/-- Memory and every register file are those of s. -/
def State.sameFiles (s t : State) : Prop := t.mem = s.mem ∧ ∀ n, (t.strand n).files = (s.strand n).files

theorem State.sameFiles.refl (s : State) : s.sameFiles s := ⟨rfl, fun _ => rfl⟩
theorem State.sameFiles.trans {a b c : State} (h : a.sameFiles b) (k : b.sameFiles c) : a.sameFiles c :=
  ⟨k.1.trans h.1, fun n => (k.2 n).trans (h.2 n)⟩

theorem State.sameFiles_ite {s a b : State} {c : Prop} [Decidable c] (ha : s.sameFiles a) (hb : s.sameFiles b) :
    s.sameFiles (if c then a else b) := by
  split
  · exact ha
  · exact hb

/-- An update that touches neither memory nor strands. -/
theorem State.sameFiles_of {s t : State} (hm : t.mem = s.mem) (hs : t.strands = s.strands) : s.sameFiles t :=
  ⟨hm, fun n => by simp [State.strand, hs]⟩

theorem State.sameFiles_modStrand (s : State) (n : StrandId) (f : Strand → Strand) (h : ∀ x, (f x).files = x.files) :
    s.sameFiles (s.modStrand n f) := by
  refine ⟨rfl, fun m => ?_⟩
  by_cases e : n = m
  · subst e; simp [h]
  · rw [State.strand_modStrand_ne s n m f e]

theorem State.sameFiles_logEv (s : State) (c l f k a i : Nat) : s.sameFiles (s.logEv c l f k a i) :=
  State.sameFiles_of (by simp) (by simp)

theorem State.sameFiles_foldl {α : Type} (f : State → α → State) (hf : ∀ (s : State) (a : α), s.sameFiles (f s a))
    (l : List α) (s : State) :
    s.sameFiles (l.foldl f s) := by
  induction l generalizing s with
  | nil => exact .refl s
  | cons a t ih => exact (hf s a).trans (ih _)

theorem State.sameFiles_addRec (s : State) (r : CRec) : s.sameFiles (s.addRec r) := by
  unfold State.addRec
  split
  · exact State.sameFiles_of rfl rfl
  · exact s.sameFiles_logEv ..

theorem State.sameFiles_recordLaunch (s : State) (l : Launch) (a b c d e : Nat) : s.sameFiles (s.recordLaunch l a b c d e) := by
  unfold State.recordLaunch
  split
  · exact .refl s
  · have h : s.sameFiles (s.modLaunch l.id fun l => { l with recorded := true }) := State.sameFiles_of rfl rfl
    dsimp only
    split
    · exact h.trans (State.sameFiles_logEv ..)
    · exact h.trans (State.sameFiles_addRec ..)

theorem State.sameFiles_closeLaunch (s : State) (id : Nat) : s.sameFiles (s.closeLaunch id) := State.sameFiles_of rfl rfl

theorem State.sameFiles_endPart (s : State) (n : StrandId) (id : Nat) (h : Bool) : s.sameFiles (s.endPart n id h) := by
  unfold State.endPart
  have h0 : s.sameFiles (s.modLaunch id fun l =>
      { l with ended := setFld l.ended n.val 1 1, halted := if h then setFld l.halted n.val 1 1 else l.halted }) :=
    State.sameFiles_of rfl rfl
  dsimp only
  split
  · exact h0
  · split
    · exact h0.trans ((State.sameFiles_ite (State.sameFiles_recordLaunch ..) (.refl _)).trans
        (State.sameFiles_closeLaunch ..))
    · exact h0

theorem State.sameFiles_poisonLines (s : State) (a n : Nat) : s.sameFiles (s.poisonLines a n) := State.sameFiles_of rfl rfl

theorem State.sameFiles_poisonJobs (s : State) (n : StrandId) : s.sameFiles (s.poisonJobs n) := by
  unfold State.poisonJobs
  refine State.sameFiles_foldl _ (fun s j => ?_) _ s
  split
  · exact State.sameFiles_foldl _ (fun (s : State) (p : Nat × Nat) => s.sameFiles_poisonLines p.1 p.2) _ s
  · exact .refl s

theorem State.sameFiles_dropStore (s : State) (n : StrandId) : s.sameFiles (s.dropStore n) := by
  unfold State.dropStore
  split
  · exact (State.sameFiles_logEv ..).trans (State.sameFiles_of rfl rfl)
  · exact .refl s

theorem State.sameFiles_strandFaultAt (s : State) (n : StrandId) (k : Kind) (pc : Nat) :
    s.sameFiles (s.strandFaultAt n k pc) := by
  unfold State.strandFaultAt
  dsimp only
  split
  · exact .refl s
  · have h : s.sameFiles (((s.dropStore n).poisonJobs n).mapOwned n Part.cancel) :=
      (s.sameFiles_dropStore n).trans ((State.sameFiles_poisonJobs _ n).trans (State.sameFiles_of rfl rfl))
    have h1 := h.trans (State.sameFiles_modStrand _ n
      (fun (x : Strand) => { x with run := .faulted, faultKind := k.code, faultPc := pc, wait := .none }) fun _ => rfl)
    have h2 := h1.trans (State.sameFiles_logEv _ 2 2 n.val 0x08 0 (k.code + pc * 2 ^ 32))
    split
    · exact h2
    · refine h2.trans (State.sameFiles.trans ?_ (State.sameFiles_endPart ..))
      split
      · exact State.sameFiles_recordLaunch ..
      · exact .refl _

/-- Going on changes where a strand stands, and a fault at the end of the code its run state, but no register file. -/
theorem State.sameFiles_goto (s : State) (n : StrandId) (pc : Nat) : s.sameFiles (s.goto n pc) := by
  unfold State.goto
  dsimp only
  have h := State.sameFiles_modStrand s n
    (fun (x : Strand) => { x with pc := (nextPc pc (s.strand n).reps).1, reps := (nextPc pc (s.strand n).reps).2 }) fun _ => rfl
  split
  · exact h.trans (State.sameFiles_strandFaultAt ..)
  · exact h

theorem State.sameFiles_advance (s : State) (n : StrandId) : s.sameFiles (s.advance n) := State.sameFiles_goto ..

theorem State.sameFiles_atIssue (s : State) (n : StrandId) (w : Word64) : s.sameFiles (s.atIssue n w) := by
  unfold State.atIssue
  dsimp only
  split
  all_goals refine ⟨rfl, fun m => ?_⟩
  all_goals by_cases e : n = m
  all_goals first
    | (subst e; simp [Strand.files])
    | (simp [State.strand_setStrand_ne _ n m _ e])

theorem Strand.settlePath_files (x y : Strand) : (x.settlePath y).files = y.files := by
  unfold Strand.settlePath; split <;> rfl

theorem State.sameFiles_afterIssue (s t : State) (n : StrandId) : t.sameFiles (s.afterIssue n t) := by
  unfold State.afterIssue
  dsimp only
  split
  · exact State.sameFiles_modStrand t n _ fun y => Strand.settlePath_files _ y
  · exact .refl t

/-- An instruction that changes registers by f changes no byte of memory, and of the register files only its strand's. -/
theorem State.ran_frame (s : State) (n : StrandId) (w : Word64) (f : Strand → Strand) :
    (s.ran n w f).mem = s.mem ∧ (∀ m, m ≠ n → ((s.ran n w f).strand m).files = (s.strand m).files)
      ∧ ((s.ran n w f).strand n).files = (f ((s.atIssue n w).strand n)).files := by
  have h1 := s.sameFiles_atIssue n w
  have h2 : ((s.atIssue n w).modStrand n f).sameFiles (s.ran n w f) :=
    (State.sameFiles_advance ..).trans (s.sameFiles_afterIssue _ n)
  refine ⟨h2.1.trans h1.1, fun m hm => ?_, ?_⟩
  · rw [h2.2 m, State.strand_modStrand_ne _ n m f (Ne.symm hm), h1.2 m]
  · rw [h2.2 n]; simp

@[simp] theorem State.setStrand_setStrand (s : State) (n : StrandId) (x y : Strand) :
    (s.setStrand n x).setStrand n y = s.setStrand n y := by simp [State.setStrand]

/-! ### What an instruction acts on (State.atIssue) -/

theorem State.atIssue_tdw (s : State) (n : StrandId) (w : Word64) :
    ((s.atIssue n w).strand n).tdw = (s.strand n).tdw := by
  funext i; unfold State.atIssue; dsimp only; split <;> simp [Strand.tdw]
theorem State.atIssue_reg (s : State) (n : StrandId) (w : Word64) :
    ((s.atIssue n w).strand n).reg = (s.strand n).reg := by
  funext i; unfold State.atIssue; dsimp only; split <;> simp [Strand.reg]
theorem State.atIssue_mem (s : State) (n : StrandId) (w : Word64) : (s.atIssue n w).mem = s.mem := by
  unfold State.atIssue; dsimp only; split <;> simp
theorem State.atIssue_read (s : State) (n : StrandId) (w : Word64) (a k : Nat) :
    (s.atIssue n w).read a k = s.read a k := by
  unfold State.atIssue; dsimp only; split <;> rfl
theorem State.atIssue_hazard (s : State) (n : StrandId) (w : Word64) (r : List (Nat × Nat)) :
    (s.atIssue n w).hazard n r = s.hazard n r := by
  unfold State.atIssue; dsimp only; split <;> rfl
theorem State.atIssue_pc (s : State) (n : StrandId) (w : Word64) : ((s.atIssue n w).strand n).pc = (s.strand n).pc := by
  unfold State.atIssue; dsimp only; split <;> simp
theorem State.atIssue_inWindow (s : State) (n : StrandId) (w : Word64) :
    ((s.atIssue n w).strand n).inWindow = (s.strand n).inWindow := by
  unfold State.atIssue; dsimp only; split <;> simp

/-- An update of registers that looks at neither the wait nor the issue path and leaves alone where the strand stands. -/
def Strand.plain (f : Strand → Strand) : Prop :=
  ∀ (x : Strand) (k : Wait) (p : List Nat), f { x with wait := k, path := p } = { f x with wait := k, path := p }
    ∧ (f x).pc = x.pc ∧ (f x).reps = x.reps ∧ (f x).code = x.code

/-- An instruction that changes registers and does not leave the code changes its strand, and nothing else. -/
theorem State.ran_stays (s : State) (n : StrandId) (w : Word64) (f : Strand → Strand) (hf : Strand.plain f)
    (h : s.staysIn n = true) :
    ∃ p, s.ran n w f = s.setStrand n { f (s.strand n) with
      wait := .none, path := p, pc := (nextPc ((s.strand n).pc + 8) (s.strand n).reps).1,
      reps := (nextPc ((s.strand n).pc + 8) (s.strand n).reps).2 } := by
  have h1 : ∃ p0, (s.atIssue n w) = s.setStrand n { s.strand n with wait := .none, path := p0 } := by
    unfold State.atIssue
    dsimp only
    split
    · exact ⟨_, State.setStrand_setStrand ..⟩
    · exact ⟨(s.strand n).path, rfl⟩
  obtain ⟨p0, h1⟩ := h1
  obtain ⟨hw, hp, hr, hc⟩ := hf (s.strand n) .none p0
  have h2 : ((s.atIssue n w).modStrand n f).advance n = s.setStrand n { f (s.strand n) with
      wait := .none, path := p0, pc := (nextPc ((s.strand n).pc + 8) (s.strand n).reps).1,
      reps := (nextPc ((s.strand n).pc + 8) (s.strand n).reps).2 } := by
    simp only [State.staysIn, bne_iff_ne, ne_eq, Strand.codeSize] at h
    simp [h1, State.advance, State.goto, State.modStrand, hw, hp, hr, hc, Strand.codeSize, h]
  unfold State.ran
  rw [h2]
  unfold State.afterIssue
  dsimp only
  split
  · unfold Strand.settlePath
    simp only [State.modStrand, State.strand_setStrand, State.setStrand_setStrand]
    split
    · exact ⟨_, rfl⟩
    · exact ⟨p0, rfl⟩
  · exact ⟨p0, rfl⟩

/-! ### More of what an instruction and a fault do -/

theorem State.issue_skip (s : State) (n : StrandId) (w : Word64) (op : Nat) (dec win : Bool) (body : Body)
    (hi : s.skips n w op = true) (hd : dec = true) :
    s.issue n w op dec win body = (s.modStrand n fun x => { x with wait := .none }).advance n := by
  simp only [State.skips, Bool.and_eq_true, beq_iff_eq, Bool.not_eq_true'] at hi
  obtain ⟨⟨⟨h1, h2⟩, h3⟩, h4⟩ := hi
  have h3' : ({ s.strand n with wait := .none } : Strand).predOn w = false := h3
  unfold State.issue
  dsimp only
  rw [h1, h2, hd, h3', h4]
  simp [State.modStrand, h4]

theorem State.addRec_strands (s : State) (r : CRec) : (s.addRec r).strands = s.strands := by
  unfold State.addRec State.discardCompletion; split <;> simp
theorem State.recordLaunch_strands (s : State) (l : Launch) (a b c d e : Nat) :
    (s.recordLaunch l a b c d e).strands = s.strands := by
  unfold State.recordLaunch State.discardCompletion
  split
  · rfl
  · dsimp only; split
    · simp [State.modLaunch]
    · simp [State.addRec_strands, State.modLaunch]
theorem State.endPart_strands (s : State) (n : StrandId) (id : Nat) (h : Bool) : (s.endPart n id h).strands = s.strands := by
  unfold State.endPart
  dsimp only
  split
  · rfl
  · split
    · split <;> simp [State.closeLaunch, State.recordLaunch_strands, State.modLaunch]
    · rfl

theorem State.poisonJobs_strands (s : State) (n : StrandId) : (s.poisonJobs n).strands = s.strands := by
  unfold State.poisonJobs
  generalize s.jobs = js
  induction js generalizing s with
  | nil => rfl
  | cons j t ih =>
    rw [List.foldl_cons, ih]
    split
    · generalize j.marked = ws
      induction ws generalizing s with
      | nil => rfl
      | cons p t ih' => rw [List.foldl_cons, ih']; rfl
    · rfl

theorem State.dropStore_strands (s : State) (n : StrandId) : (s.dropStore n).strands = s.strands := by
  unfold State.dropStore; split <;> simp

/-- What a fault of a running strand writes: it stops, and its fault registers name the kind and the offset. -/
theorem State.strandFaultAt_strand (s : State) (n : StrandId) (k : Kind) (pc : Nat)
    (h : (s.strand n).run = .running ∨ (s.strand n).run = .loading) :
    (s.strandFaultAt n k pc).strand n = { s.strand n with run := .faulted, faultKind := k.code, faultPc := pc, wait := .none } := by
  have e : ((s.strand n).run != .running && (s.strand n).run != .loading) = false := by rcases h with h | h <;> rw [h] <;> rfl
  unfold State.strandFaultAt
  simp only [e]
  have hs : (((s.dropStore n).poisonJobs n).mapOwned n Part.cancel).strand n = s.strand n := by
    simp [State.strand, State.mapOwned, State.poisonJobs_strands, State.dropStore_strands]
  have key : ∀ t : State, t.strands = ((((s.dropStore n).poisonJobs n).mapOwned n Part.cancel).modStrand n
      fun (x : Strand) => { x with run := .faulted, faultKind := k.code, faultPc := pc, wait := .none }).strands →
      t.strand n = { s.strand n with run := .faulted, faultKind := k.code, faultPc := pc, wait := .none } := by
    intro t ht
    have : t.strand n = ((((s.dropStore n).poisonJobs n).mapOwned n Part.cancel).modStrand n
      fun (x : Strand) => { x with run := .faulted, faultKind := k.code, faultPc := pc, wait := .none }).strand n := by
      simp [State.strand, ht]
    rw [this]; simp [hs]
  apply key
  simp only [Bool.false_eq_true, if_false]
  split
  · simp
  · rw [State.endPart_strands]; split <;> simp [State.recordLaunch_strands]

/-- Memory and every register file are as they were, in the conclusion of a fault. -/
theorem State.strandFault_files (s : State) (n : StrandId) (k : Kind) :
    (s.strandFault n k).mem = s.mem ∧ ∀ m, ((s.strandFault n k).strand m).files = (s.strand m).files :=
  State.sameFiles_strandFaultAt s n k _

/-- Whether an access is held depends on neither the wait nor the issue path. -/
theorem State.atIssue_gate (s : State) (n : StrandId) (w : Word64) (c : Instr) (r q : List (Nat × Nat))
    (h : (s.gate c r q).isNone = true) : (s.atIssue n w).gate c r q = none := by
  unfold State.gate State.gateWith State.ask at h ⊢
  have e : ((s.atIssue n w).sfAny = s.sfAny ∧ (s.atIssue n w).sfHas = s.sfHas ∧ (s.atIssue n w).lineShut = s.lineShut) := by
    unfold State.atIssue; dsimp only; split <;> exact ⟨rfl, rfl, rfl⟩
  dsimp only at h ⊢
  rw [e.1, e.2.1, e.2.2]
  split at h
  · rename_i h'; rw [if_pos h']; rfl
  · cases h
/-- A strand outside a window: no issue path. -/
theorem State.atIssue_out (s : State) (n : StrandId) (w : Word64) (h : (s.strand n).inWindow = false) :
    s.atIssue n w = s.setStrand n { s.strand n with wait := .none } := by
  unfold State.atIssue; dsimp only; simp [h]
theorem State.afterIssue_out (s t : State) (n : StrandId) (h : (s.strand n).inWindow = false) : s.afterIssue n t = t := by
  unfold State.afterIssue; dsimp only; simp [h]
/-- Whether an address sleeps depends on neither the wait nor the issue path. -/
theorem State.atIssue_asleepAt (s : State) (n : StrandId) (w : Word64) (a : Nat) :
    (s.atIssue n w).asleepAt a = s.asleepAt a := by
  unfold State.atIssue; dsimp only; split <;> rfl
theorem State.countHalves_clean (s : State) (hs : List Nat) (h : ∀ x ∈ hs, s.poison.contains x = false) :
    s.countHalves hs = s := by
  have e : (hs.filter fun x => isDevice (32 * x) && s.poison.contains x) = [] := by
    rw [List.filter_eq_nil_iff]; intro x hx; rw [h x hx, Bool.and_false]; exact Bool.false_ne_true
  unfold State.countHalves
  rw [e]
  rfl
theorem State.readMark_clean (s : State) (a n : Nat) (h : (s.read a n).2 = false) : s.readMark a n = s := by
  simp only [State.read, Bool.or_eq_false_iff, Bool.not_eq_false'] at h
  unfold State.readMark
  rw [h.1]
  refine State.countHalves_clean s _ fun x hx => ?_
  have h2 := List.any_eq_false.1 h.2 x
  rw [Bool.eq_false_iff]
  refine h2 ?_
  unfold halvesOf at hx; unfold lineHalves
  split at hx
  · simp at hx
  · rename_i hn
    simp only [hn, if_false]
    simp only [span, List.mem_map, List.mem_range] at hx ⊢
    obtain ⟨k, hk, rfl⟩ := hx
    exact ⟨a / 32 + k - 2 * (a / 64), by omega, by omega⟩

theorem State.sameFiles_snoop (s : State) (l n : Nat) (d e : Bool) : s.sameFiles (s.snoop l n d e) := by
  unfold State.snoop; split
  · exact .refl s
  · exact State.sameFiles_of rfl rfl
theorem State.sameFiles_hold (s : State) (c : Instr) : s.sameFiles (s.hold c) := by
  unfold State.hold; split
  · exact .refl s
  · exact State.sameFiles_of rfl rfl
theorem State.sameFiles_holdAccess (s : State) (c : Instr) (rs : List (Nat × Nat)) : s.sameFiles (s.holdAccess c rs) :=
  (State.sameFiles_hold s c).trans (State.sameFiles_of rfl rfl)
/-- A held access has changed no memory and no register file. -/
theorem State.sameFiles_ask (s t : State) (b : Bool) (r w : List (Nat × Nat)) (h : s.ask b r w = some t) : s.sameFiles t := by
  unfold State.ask at h
  dsimp only at h
  split at h
  · cases h
  · cases h
    refine State.sameFiles.trans (State.sameFiles_foldl _ (fun s l => ?_) _ s) (State.sameFiles_foldl _ (fun (s : State) l => s.sameFiles_snoop ..) _ _)
    unfold State.snoopWrite; split <;> exact State.sameFiles_snoop ..
theorem State.sameFiles_gate (s t : State) (c : Instr) (r w : List (Nat × Nat)) (h : s.gate c r w = some t) : s.sameFiles t := by
  unfold State.gate State.gateWith at h
  cases e : s.ask false r w with
  | none => rw [e] at h; cases h
  | some u => rw [e] at h; cases h; exact (State.sameFiles_ask s u _ _ _ e).trans (State.sameFiles_holdAccess ..)
theorem State.sameFiles_eccAt (s : State) (a n : Nat) (e : Ecc) : s.sameFiles (s.eccAt a n e) := by
  unfold State.eccAt
  dsimp only
  split
  · exact .refl s
  all_goals first
    | exact State.sameFiles_logEv ..
theorem State.sameFiles_strike (s : State) (found : EccList) : s.sameFiles (s.strike found) := State.sameFiles_of rfl rfl
theorem State.sameFiles_meet (s : State) (rs : List (Nat × Nat)) : s.sameFiles (s.meet rs) := State.sameFiles_of (by simp) (by simp)
theorem State.sameFiles_eccFound (s : State) (rs : List (Nat × Nat)) (found : EccList) : s.sameFiles (s.eccFound rs found) :=
  (s.sameFiles_strike found).trans (State.sameFiles_meet ..)
theorem State.sameFiles_countHalves (s : State) (hs : List Nat) : s.sameFiles (s.countHalves hs) := State.sameFiles_of rfl rfl
theorem State.sameFiles_readMark (s : State) (a n : Nat) : s.sameFiles (s.readMark a n) := by
  unfold State.readMark State.logOffline
  split
  · exact State.sameFiles_logEv ..
  · exact State.sameFiles_countHalves ..

/-- What an instruction does, as a relation of its states: what its body does, or a fault, or going on. -/
theorem State.issue_rel (R : State → State → Prop) (htr : ∀ a b c, R a b → R b c → R a c)
    (hs : ∀ a b : State, a.sameFiles b → R a b) (s : State) (n : StrandId) (w : Word64) (op : Nat) (dec win : Bool) (body : Body)
    (hb : ∀ t, body (s.atIssue n w) = .ok t → R (s.atIssue n w) t) : R s (s.issue n w op dec win body) := by
  unfold State.issue
  have hf : ∀ (a : State) k, a.sameFiles (a.strandFault n k) := fun a k => State.sameFiles_strandFaultAt ..
  have h0 : ∀ x : Strand, x.files = (s.strand n).files → s.sameFiles (s.setStrand n x) := by
    intro x hx; refine ⟨rfl, fun m => ?_⟩
    by_cases e : n = m
    · subst e; simp [hx]
    · rw [State.strand_setStrand_ne s n m x e]
  split
  · exact hs _ _ (.refl s)
  · split
    · exact hs _ _ (hf ..)
    · dsimp only
      split
      · exact hs _ _ ((h0 { s.strand n with wait := .none } rfl).trans (hf ..))
      · rename_i hw
        have key : ∀ u, u = s.atIssue n w → R s (
          if Strand.predOn { s.strand n with wait := .none } w then
            match body u with
            | .ok t => if (s.strand n).inWindow then t.modStrand n (Strand.settlePath { s.strand n with wait := .none }) else t
            | .error k => u.strandFault n k
          else if (s.strand n).inWindow then
            match body u with
            | .error .decode => u.strandFault n .decode
            | .error .format => u.strandFault n .format
            | .error .sequence => u.strandFault n .sequence
            | .error _ => u.advance n
            | .ok t => if u.heldAt n t then u.modStrand n (Strand.settlePath { s.strand n with wait := .none }) else u.advance n
          else u.advance n) := by
          rintro u rfl
          have hu := s.sameFiles_atIssue n w
          split
          · split
            · rename_i t ht
              have := htr _ _ _ (hs _ _ hu) (hb t ht)
              split
              · exact htr _ _ _ this (hs _ _ (State.sameFiles_modStrand t n _ fun y => Strand.settlePath_files _ y))
              · exact this
            · exact hs _ _ (hu.trans (hf ..))
          · split
            · split
              all_goals first
                | exact hs _ _ (hu.trans (hf ..))
                | exact hs _ _ (hu.trans (State.sameFiles_advance ..))
                | (split
                   · exact hs _ _ (hu.trans (State.sameFiles_modStrand _ n _ fun y => Strand.settlePath_files _ y))
                   · exact hs _ _ (hu.trans (State.sameFiles_advance ..)))
            · exact hs _ _ (hu.trans (State.sameFiles_advance ..))
        refine key _ ?_
        rfl

/-- A vector instruction whose plan stands has its effect. -/
theorem vecBody_ok (s : State) (n : StrandId) (w : Word64) (c : Instr) (u : TbUse) (ok : State → VecOps → Bool)
    (writes : VecOps → List (Nat × Nat)) (f : State → VecOps → State) (o : VecOps)
    (h : s.vecPlan n w c u ok writes = some o) :
    vecBody n w c u ok writes f s = .ok ((f (s.vecMet n w u o) o).advance n) := by
  unfold State.vecPlan at h
  unfold vecBody State.vecMet
  unfold State.vecHead at h ⊢
  dsimp only at h ⊢
  split at h
  · cases h
  · rename_i hs
    simp only [Bool.or_eq_true, decide_eq_true_eq, not_or, Bool.not_eq_true, Option.isSome_eq_false_iff,
      Option.isNone_iff_eq_none] at hs
    simp only [hs.1, hs.2, if_false]
    split at h
    · cases h
    · rename_i o' ho
      try rw [ho]
      split at h
      · rename_i hc
        cases h
        simp only [Bool.and_eq_true, Bool.not_eq_true', Option.isNone_iff_eq_none] at hc
        obtain ⟨⟨⟨⟨⟨h1, h1'⟩, h2⟩, h3⟩, h4⟩, h5⟩ := hc
        simp only [h1, h1', h2, h3, h4, h5, Bool.not_true, Bool.or_self, Bool.false_eq_true, if_false]
      · cases h


@[simp] theorem State.setPart_jobOf (s : State) (b : BlockId) (p : PartNo) (x : Part) : (s.setPart b p x).jobOf = s.jobOf := rfl
@[simp] theorem State.setPart_strand (s : State) (b : BlockId) (p : PartNo) (x : Part) : (s.setPart b p x).strand = s.strand := rfl
@[simp] theorem State.dropDone_part (s : State) : s.dropDone.part = s.part := rfl
@[simp] theorem State.dropDone_mem (s : State) : s.dropDone.mem = s.mem := rfl
@[simp] theorem State.count_part (s : State) (n : StrandId) (e : Events) : (s.count n e).part = s.part := rfl
@[simp] theorem State.count_mem (s : State) (n : StrandId) (e : Events) : (s.count n e).mem = s.mem := rfl
theorem State.setPart_self (s : State) (b : BlockId) (p : PartNo) : s.setPart b p (s.part b p) = s := by
  have h1 : (s.block b).parts.set p (s.part b p) = (s.block b).parts := by
    ext i hi; simp only [Vector.getElem_set]; split
    · rename_i h; subst h; rfl
    · rfl
  have h2 : s.blocks.set b (s.block b) = s.blocks := by
    ext i hi; simp only [Vector.getElem_set]; split
    · rename_i h; subst h; rfl
    · rfl
  unfold State.setPart State.setBlock
  rw [h1]
  show { s with blocks := s.blocks.set b (s.block b) } = s
  rw [h2]

theorem State.modStrand_id (s : State) (n : StrandId) : s.modStrand n id = s := by
  unfold State.modStrand State.setStrand State.strand
  have : s.strands.set n (id s.strands[n]) = s.strands := by
    ext i hi; simp only [Vector.getElem_set]; split
    · rename_i h; subst h; rfl
    · rfl
  rw [this]

/-- A collective step that reaches its operands goes on with them. -/
theorem colBody_ready (s : State) (n : StrandId) (w : Word64) (c : Instr) (ds : List Nat) (b : Body)
    (h : s.colReady n w c ds = true) : colBody n w c ds b s = b (s.meet ((s.strand n).colHeaders ds)) := by
  simp only [State.colReady, Bool.and_eq_true, Option.isNone_iff_eq_none] at h
  simp [colBody, h.1, h.2]

/-- A collective step whose ranges pass their checks has its effect. -/
theorem colRun_ok (s : State) (n : StrandId) (reads writes sides : List (Nat × Nat)) (f : State → State)
    (h : collectiveOk s n reads writes sides = true) : colRun n reads writes sides f s = .ok ((f (s.meet reads)).advance n) := by
  simp only [collectiveOk, Bool.and_eq_true, Bool.not_eq_true'] at h
  unfold colRun
  dsimp only
  rw [if_neg (by rw [h.1.1]; simp), if_neg (by rw [h.1.2]; simp), if_neg (by simp [h.2])]

/-! ### Bytes and their values -/

theorem leValue_lt (l : List Byte) : leValue l < 256 ^ l.length := by
  induction l with
  | nil => simp [leValue]
  | cons b t ih =>
    have := b.isLt
    simp only [leValue, List.length_cons, Nat.pow_succ]
    omega
theorem leValue_split (l : List Byte) (k : Nat) (h : k ≤ l.length) :
    leValue l = leValue (l.take k) + 256 ^ k * leValue (l.drop k) := by
  induction k generalizing l with
  | zero => simp [leValue]
  | succ k ih =>
    cases l with
    | nil => simp at h
    | cons b t =>
      have := ih t (by simpa using h)
      simp only [List.take_succ_cons, List.drop_succ_cons, leValue]
      rw [this, Nat.pow_succ, Nat.mul_add, Nat.mul_comm (256 ^ k) 256, Nat.mul_assoc, Nat.add_assoc]
theorem memGetN_len (m : List Host.Cell) (a n : Nat) : (memGetN m a n).length = n := by
  induction n generalizing a with
  | zero => rfl
  | succ n ih => simp [memGetN, ih]
theorem piecesFuel_length {α : Type} (n k fuel : Nat) (xs : List α) (hn : 0 < n) (h : xs.length = n * k) (hf : k ≤ fuel) :
    (piecesFuel n fuel xs).length = k := by
  induction fuel generalizing k xs with
  | zero => have : k = 0 := by omega
            subst this; rfl
  | succ f ih =>
    unfold piecesFuel
    cases k with
    | zero => have : xs = [] := by simpa using h
              subst this; simp
    | succ k =>
      have : xs.isEmpty = false := by
        cases xs with
        | nil => rw [List.length_nil, Nat.mul_succ] at h; omega
        | cons => rfl
      rw [this]
      simp only [Bool.false_eq_true, if_false, List.length_cons]
      rw [ih k (xs.drop n) (by rw [List.length_drop, h, Nat.mul_succ]; omega) (by omega)]
theorem pieces_length {α : Type} (n k : Nat) (xs : List α) (hn : 0 < n) (h : xs.length = n * k) : (pieces n xs).length = k :=
  piecesFuel_length n k _ xs hn h (by rw [h]; exact Nat.le_mul_of_pos_left k hn)

/-! ### Engines and the strands' steps -/

theorem State.addRec_engines (s : State) (r : CRec) : (s.addRec r).engines = s.engines := by
  unfold State.addRec State.discardCompletion; split
  · rfl
  · exact State.logEv_engines ..
theorem State.recordLaunch_engines (s : State) (l : Launch) (a b c d e : Nat) :
    (s.recordLaunch l a b c d e).engines = s.engines := by
  unfold State.recordLaunch State.discardCompletion
  split
  · rfl
  · dsimp only; split
    · rw [State.logEv_engines]; rfl
    · rw [State.addRec_engines]; rfl
theorem State.endPart_engines (s : State) (n : StrandId) (id : Nat) (h : Bool) : (s.endPart n id h).engines = s.engines := by
  unfold State.endPart
  dsimp only
  split
  · rfl
  · split
    · split <;> simp [State.closeLaunch, State.recordLaunch_engines, State.modLaunch]
    · rfl
theorem State.poisonJobs_engines (s : State) (n : StrandId) : (s.poisonJobs n).engines = s.engines := by
  unfold State.poisonJobs
  generalize s.jobs = js
  induction js generalizing s with
  | nil => rfl
  | cons j t ih =>
    rw [List.foldl_cons, ih]
    split
    · generalize j.marked = ws
      induction ws generalizing s with
      | nil => rfl
      | cons p t ih' => rw [List.foldl_cons, ih']; rfl
    · rfl
theorem State.dropStore_engines (s : State) (n : StrandId) : (s.dropStore n).engines = s.engines := by
  unfold State.dropStore; split
  · exact State.logEv_engines ..
  · rfl
/-- A strand that goes on, or faults, changes no engine. -/
theorem State.strandFaultAt_engines (s : State) (n : StrandId) (k : Kind) (pc : Nat) :
    (s.strandFaultAt n k pc).engines = s.engines := by
  unfold State.strandFaultAt
  dsimp only
  split
  · rfl
  · split
    · rw [State.logEv_engines]; exact (State.poisonJobs_engines _ n).trans (State.dropStore_engines s n)
    · rw [State.endPart_engines]
      split
      · rw [State.recordLaunch_engines, State.logEv_engines]; exact (State.poisonJobs_engines _ n).trans (State.dropStore_engines s n)
      · rw [State.logEv_engines]; exact (State.poisonJobs_engines _ n).trans (State.dropStore_engines s n)
theorem State.advance_engines (s : State) (n : StrandId) : (s.advance n).engines = s.engines := by
  unfold State.advance State.goto
  dsimp only
  split
  · unfold State.strandFault; rw [State.strandFaultAt_engines]; rfl
  · rfl
/-- What going on leaves of the strand itself. -/
theorem State.advance_stg (s : State) (n : StrandId) (hw : (s.strand n).wait = .none) :
    ((s.advance n).strand n).wait = .none ∧ ((s.advance n).strand n).stg = (s.strand n).stg := by
  unfold State.advance State.goto
  dsimp only
  split
  · by_cases hr : (s.strand n).run = .running ∨ (s.strand n).run = .loading
    · unfold State.strandFault; rw [State.strandFaultAt_strand _ _ _ _ (by simpa using hr)]; simp
    · unfold State.strandFault State.strandFaultAt
      have : ((s.strand n).run != .running && (s.strand n).run != .loading) = true := by
        revert hr; cases (s.strand n).run <;> decide
      simp [this, hw]
  · simp [hw]

end Sys2Proof.Machine
end

