-- ==== Sys2Proof/Tests/Slice0.lean ====
section
/-!
SUPPORT. Tests: commands that are not well formed are refused, the spec's worked examples, and a state that meets the
hypotheses of each statement.
-/
set_option exponentiation.threshold 1024
set_option maxRecDepth 20000

namespace Sys2Proof.Tests

open Sys2Proof Sys2Proof.Machine

/-! ### Instruction words from their fields (08 Table 8.5) and small states -/

def wS (op d a b sub : Nat) : Word64 := BitVec.ofNat 64 (op * 2 ^ 56 + d * 2 ^ 47 + a * 2 ^ 42 + b * 2 ^ 37 + sub * 2 ^ 29)
def wI (op d a imm : Nat) : Word64 := BitVec.ofNat 64 (op * 2 ^ 56 + d * 2 ^ 47 + a * 2 ^ 42 + imm * 2 ^ 10)
def wT (op td ta tb rt sub ru : Nat) : Word64 :=
  BitVec.ofNat 64 (op * 2 ^ 56 + td * 2 ^ 46 + ta * 2 ^ 40 + tb * 2 ^ 34 + rt * 2 ^ 20 + sub * 2 ^ 12 + ru * 2 ^ 7)
def wM (tdw tda acm g chain accix init list pset : Nat) : Word64 :=
  BitVec.ofNat 64 (0x30 * 2 ^ 56 + tdw * 2 ^ 46 + tda * 2 ^ 40 + acm * 2 ^ 35 + g * 2 ^ 33 + chain * 2 ^ 29
    + accix * 2 ^ 17 + init * 2 ^ 14 + list * 2 ^ 13 + pset * 2 ^ 4)
def wB (op a cnt off : Nat) : Word64 := BitVec.ofNat 64 (op * 2 ^ 56 + a * 2 ^ 47 + cnt * 2 ^ 35 + off)
def wX (op f0 nf a b pd sub imm : Nat) : Word64 :=
  BitVec.ofNat 64 (op * 2 ^ 56 + f0 * 2 ^ 46 + nf * 2 ^ 40 + a * 2 ^ 35 + b * 2 ^ 30 + pd * 2 ^ 27 + sub * 2 ^ 19 + imm)
/-- The same word with predicate register k (bits 55:53). -/
def onPred (k : Nat) (w : Word64) : Word64 := w ||| BitVec.ofNat 64 (k * 2 ^ 53)

/-- A descriptor (Table 8.6) with no scale header and no sparsity. -/
def tdOf (addr fmt rows cols stride : Nat) : Nat :=
  (addr + fmt * 2 ^ 42 + (rows - 1) * 2 ^ 50 + (cols - 1) * 2 ^ 66 + stride * 2 ^ 82)

/-- A section: part 0 of block 0 whole, one part set, 64 lanes, slots 16 and 17, and areas in scratchpad and Basin. -/
def sect : List Byte :=
  [1, 1] ++ leBytes 2 64 ++ leBytes 4 0x30000 ++ leBytes 4 0x100000 ++ leBytes 4 0x100000 ++ leBytes 4 0 ++ leBytes 4 0x100000
    ++ List.replicate 16 0 ++ leBytes 2 1 ++ List.replicate 30 0 ++ leBytes 2 0 ++ List.replicate 54 0

def parts0 : Vector Part 4 := (Vector.replicate 4 {}).set 0 { owner := some 0 }

/-- The module in service: every region in PS0, segment 0 online, channels trained. -/
def lit : State :=
  { State.reset with
    power := { regions := Vector.replicate 8 { state := 0 } },
    board := { memActive := true, trained := true, bistLeft := [], chipBistLeft := false },
    mcs := Vector.replicate 64 { trained := 0xF },
    segs := [(0, { online := true, frames := List.range 4 })] }

/-- Strand 0 of the module in service, as given. -/
def at0 (x : Strand) : State := lit.setStrand 0 x

def strand0 : Strand :=
  { run := .running, launch := some { id := 0, lrec := List.replicate 64 0, sect := sect, scaleBase := 0 } }

/-- Strand 0 stands at word w, with another word after it. -/
def on (w : Word64) (x : Strand := strand0) : State := at0 { x with code := [w, 0] }

/-- No upset lies in these states, so State.meet leaves each as it is, and a clause about the state once a command has read is
witnessed by the state itself. -/
theorem test_no_upset (x : Strand) (w : Word64) (rs : List (Nat × Nat)) :
    lit.meet rs = lit ∧ (at0 x).meet rs = at0 x ∧ (on w x).meet rs = on w x := ⟨rfl, rfl, rfl⟩

/-- The state a command leaves; none when it stops. -/
def after (c : Instr) (s : State) : Option State := match exec c s with | .next t => some t | _ => none

/-! ### Commands that are not well formed -/

theorem test_ill_opcode : (Instr.add 0 (wS 0x02 1 2 3 0)).wellFormed = false := by decide
theorem test_ill_step : (Instr.setx 0 (0x11 : BitVec 512)).wellFormed = false := by decide
theorem test_ill_shapes :
    (Instr.flitReceive 0 [0] ⟨false, 0⟩).wellFormed = false ∧ (Instr.memwr 0 .any 0 [0] ⟨false, []⟩).wellFormed = false
    ∧ (Instr.thermalSample [0]).wellFormed = false ∧ (Instr.arbiterGrant 0 1 []).wellFormed = false
    ∧ (Instr.creditPeriodEnd 13 1).wellFormed = false ∧ (Instr.watchdogBite 0 11).wellFormed = false
    ∧ (Instr.telemetryLatch ⟨0, 0, 0, 0, [], 0, 0⟩).wellFormed = false
    ∧ (Instr.bar2Read 0 0 .clean).wellFormed = false ∧ (Instr.bar2Read 0x1FFFFFFF 2 .clean).wellFormed = false
    ∧ (Instr.bar2Write 0 [] false).wellFormed = false ∧ (Instr.registerWrite .bar0 0 2 0).wellFormed = false
    ∧ (Instr.regread ⟨0x4C, 4, none⟩).wellFormed = false ∧ (Instr.regread ⟨0x4C, 0x4000000, none⟩).wellFormed = false := by decide
theorem test_well_formed :
    (Instr.add 0 (wS 0x01 1 2 3 0)).wellFormed = true ∧ (Instr.setx 0 (0x10 : BitVec 512)).wellFormed = true
    ∧ (Instr.arbiterGrant 14 11 []).wellFormed = true ∧ (Instr.bar2Read 0x1FFFFFFF 1 .clean).wellFormed = true := by decide

/-! ### The queue -/

theorem test_empty_queue_idles : step State.reset = .next State.reset := rfl
theorem test_first_in_first_out : step { lit with pending := [.refresh 0 0, .dispatch] } = .next { lit with pending := [.dispatch] } := rfl
theorem test_no_table_word : decodeTableWord 64 0x0A00800000000000 = none := rfl

/-! ### Worked examples of the spec -/

/-- 08, Encodings: addi s1, s0, 0 and addi s3, s0, 64; waita af0:af0; end. -/
theorem test_words :
    wI 0x0A 1 0 0 = 0x0A00800000000000#64 ∧ wI 0x0A 3 0 64 = 0x0A01800000010000#64
    ∧ wX 0x73 0 0 0 0 0 0 0 = 0x7300000000000000#64 ∧ wX 0x71 0 0 0 0 0 0 0 = 0x7100000000000000#64 := by decide

/-! ### Worked numbers of the spec -/

/-- 18, address examples. -/
theorem test_address_examples :
    (lit.setEngine 22 { vanish := 7 }).readWord 0x02620040 = 7 ∧ (lit.setMc 17 { ce := 9 }).readWord 0x01B44010 = 9 := by decide +kernel

/-- 10 R208: byte 0x2A_0003_4567 of a chip-interleaved segment 168 is in channel 70. -/
theorem test_channel_example :
    ({ lit with segs := [(168, { online := true })] } : State).channelOf 0x2A00034567 = 70 := by decide +kernel

/-- 02, the example after R36: FP32 0x3F80_8000 to BF16 under SR. -/
theorem test_stochastic_example :
    (specB16.encode .sr 0x7FFF (fp32 0x3F808000)).code = 0x3F80 ∧ (specB16.encode .sr 0x8000 (fp32 0x3F808000)).code = 0x3F81 := by
  decide +kernel

/-- 03 R56, the zero-point example: s = 2.75, S = 1.75, zp = 128, T_acc = 0.0625 gives BF16 0xC15D. -/
theorem test_zero_point_example :
    (specB16.encode .rne 0 (readPair true 0x40300000 0 128 (fp32 0x3FE00000) (fp32 0x3D800000))).code = 0xC15D := by decide +kernel

/-- 07, the logarithmic example: 0.3 (FP32 0x3E99999A) has the L16 code 0x7E43. -/
theorem test_log_example : (lEncode 16 8 .rne 0 (fp32 0x3E99999A)).code = 0x7E43 := by decide +kernel

/-- 16, the journal example: the setting record of key 0x0001 and its commit, without their CRCs. -/
theorem test_journal_example :
    ((JRec.mk 1 0x142 1 [1, 1, 0, 0, 0, 0, 0, 0]).bytes.take 12) = [0x53, 0x4A, 1, 0, 0x42, 1, 0, 0, 1, 0, 8, 0]
    ∧ (JRec.mk 2 0x143 0 [0x42, 1, 0, 0]).bytes.length = 32 := by decide +kernel

/-! ### Strands -/

/-- Strand 0 with numbers in its registers. -/
def strandN : Strand :=
  { strand0 with s := (Vector.replicate 32 (0 : Word)).set 2 0x80000000 |>.set 3 33 |>.set 4 0x1000 |>.set 5 512 |>.set 6 4 |>.set 31 7 }

theorem test_add : ((after (.add 0 (wS 0x01 1 2 2 0)) (on (wS 0x01 1 2 2 0) strandN)).map fun t => (t.strand 0).reg 1) = some 0 := by decide
theorem test_sub_own_source :
    ((after (.sub 0 (wS 0x02 3 0 3 0)) (on (wS 0x02 3 0 3 0) strandN)).map fun t => (t.strand 0).reg 3) = some 0xFFFFFFDF := by decide
theorem test_mul_low : ((after (.mul 0 (wS 0x03 1 2 31 0)) (on (wS 0x03 1 2 31 0) strandN)).map fun t => (t.strand 0).reg 1)
    = some 0x80000000 := by decide
/-- A shift takes its amount modulo 32: 33 shifts by one. -/
theorem test_shifts :
    ((after (.shl 0 (wS 0x07 1 31 3 0)) (on (wS 0x07 1 31 3 0) strandN)).map fun t => (t.strand 0).reg 1) = some 14
    ∧ ((after (.shr 0 (wS 0x08 1 2 3 0)) (on (wS 0x08 1 2 3 0) strandN)).map fun t => (t.strand 0).reg 1) = some 0x40000000
    ∧ ((after (.sra 0 (wS 0x09 1 2 3 0)) (on (wS 0x09 1 2 3 0) strandN)).map fun t => (t.strand 0).reg 1) = some 0xC0000000 := by decide
theorem test_addi_wraps : ((after (.addi 0 (wI 0x0A 1 31 0xFFFFFFFF)) (on (wI 0x0A 1 31 0xFFFFFFFF) strandN)).map fun t =>
    (t.strand 0).reg 1) = some 6 := by decide
theorem test_s0_stays : ((after (.addi 0 (wI 0x0A 0 31 1)) (on (wI 0x0A 0 31 1) strandN)).map fun t =>
    ((t.strand 0).reg 0, (t.strand 0).pc)) = some (0, 8) := by decide
theorem test_cmp_signed : ((after (.cmp 0 (wS 0x0B 1 2 31 2)) (on (wS 0x0B 1 2 31 2) strandN)).map fun t =>
    (t.strand 0).pred 1) = some true := by decide
theorem test_plog_not : ((after (.plog 0 (wS 0x0C 2 0 0 3)) (on (wS 0x0C 2 0 0 3) strandN)).map fun t =>
    (t.strand 0).pred 2) = some false := by decide
theorem test_fop_add : ((after (.fop 0 (wS 0x0E 1 2 2 0)) (on (wS 0x0E 1 2 2 0)
    { strand0 with f := (Vector.replicate 16 (0 : Word)).set 2 0x3FC00000 })).map fun t => (t.strand 0).freg 1) = some 0x40400000 := by decide
theorem test_unknown_opcode : ((after (.nop 0 ⟨wS 0x15 0 0 0 0, .clean⟩) (on (wS 0x15 0 0 0 0))).map fun t =>
    ((t.strand 0).run, (t.strand 0).faultKind)) = some (.faulted, 1) := by decide
theorem test_lds : ((after (.lds 0 (wI 0x11 1 4 4) .clean)
    ((on (wI 0x11 1 4 4) strandN).write (scratchBase 0 + 0x1004) [0x78, 0x56, 0x34, 0x12] false)).map fun t => (t.strand 0).reg 1)
    = some 0x12345678 := by decide
theorem test_sts_misaligned : ((after (.sts 0 (wI 0x12 1 4 2)) (on (wI 0x12 1 4 2) strandN)).map fun t =>
    ((t.strand 0).run, (t.strand 0).faultKind)) = some (.faulted, 2) := by decide

theorem test_witness_EveryCommandCompletes :
    (Instr.wearManagement).wellFormed = true ∧ exec (.thermalSample [0]) lit = .fault .illFormed := ⟨by decide, rfl⟩

/-- ScalarResults, one word for each clause; the destination of the last is s31. -/
theorem test_witness_ScalarResults :
    ([0x00, 0x01, 0x02, 0x03, 0x04, 0x05, 0x06, 0x07, 0x08, 0x09, 0x10].all fun k =>
      (on (wS k 31 31 31 0)).issues 0 (wS k 31 31 31 0) k && decS0 (wS k 31 31 31 0)) = true
    ∧ ((on (wI 0x0A 31 31 0xFFFFFFFF)).issues 0 (wI 0x0A 31 31 0xFFFFFFFF) 0x0A && zeroI (wI 0x0A 31 31 0xFFFFFFFF)) = true := by decide

theorem test_witness_PredicateAndFloatResults :
    ([(0x0B, 0), (0x0B, 5), (0x0C, 0), (0x0C, 3), (0x0D, 0), (0x0D, 1), (0x0E, 4), (0x0F, 0), (0x0F, 6), (0x0F, 8),
      (0x0F, 15)].all fun k =>
      let w := wS k.1 15 15 15 k.2
      let f := fmtS w
      (on w).issues 0 w k.1 && zeroS w && f.sub == k.2 && f.d < 16 && f.a < 16 && f.b < 16
        && (k.1 != 0x0E || (rmOfCode (f.sub / 64)).isSome)) = true := by decide

/-- ScalarFrame, and ChecksWithoutEffect with p2 off. -/
theorem test_witness_ScalarFrame :
    ([0x01, 0x02, 0x03, 0x04, 0x05, 0x06, 0x07, 0x08, 0x09, 0x0A, 0x0F, 0x0B, 0x0C].all fun k =>
      let w := if k = 0x0A then wI k 31 31 1 else wS k 31 31 31 0
      (on w).issues 0 w k && scalarDec k w && (on w).staysIn 0) = true := by decide

theorem reset_reg (n : StrandId) : ((State.reset.strand n).reg 0 = 0 ∧ (State.reset.strand n).pred 0 = true) := by
  revert n; decide

theorem test_witness_ZeroDestinations :
    (∀ n : StrandId, ((on (wS 0x01 0 1 2 0)).strand n).reg 0 = 0 ∧ ((on (wS 0x01 0 1 2 0)).strand n).pred 0 = true)
    ∧ ([0x01, 0x02, 0x03, 0x04, 0x05, 0x06, 0x07, 0x08, 0x09, 0x0A, 0x0F, 0x0B, 0x0C].all fun k =>
      let w := if k = 0x0A then wI k 0 31 1 else wS k 0 31 31 0
      (fmtS w).d == 0 && (on w).staysIn 0 && (on w).issues 0 w k && scalarDec k w) = true := by decide

theorem test_witness_ChecksWithoutEffect :
    ([0x00, 0x01, 0x02, 0x03, 0x04, 0x05, 0x06, 0x07, 0x08, 0x09, 0x10, 0x13, 0x14].all fun k =>
      let w := onPred 2 (wS k 1 2 3 0); (on w).skips 0 w k && decS0 w) = true
    ∧ ([0x0A, 0x11, 0x12].all fun k => let w := onPred 7 (wI k 1 2 3); (on w).skips 0 w k && zeroI w) = true
    ∧ ([0x20, 0x21, 0x22, 0x25].all fun k =>
        let w := onPred 2 (wT k 1 2 3 4 0 5); (on w).skips 0 w k && zeroT w && (fmtT w).sub == 0) = true
    ∧ (let w := onPred 2 (wB 0x18 0 0 8); (on w).skips 0 w 0x18 && zeroB w) = true
    ∧ (let w := wS 0xFF 0 0 0 0; (on w).mayIssue 0 w && !knownOp (opOf w)) = true
    ∧ ([0x20, 0x21, 0x22, 0x25].all fun k => let w := wT k 1 2 3 4 0 5 ||| 0x30000000#64
         (on w).issues 0 w k && zeroT w && (fmtT w).sub == 0 && (fmtT w).rm == 3) = true := by decide
/-- Table 15.8: an uncorrectable word of the instruction store is a poison fault. -/
theorem test_bad_word : ((after (.nop 0 ⟨wS 0x01 1 2 2 0, .uncorrected⟩) (on (wS 0x01 1 2 2 0) strandN)).map fun t =>
    ((t.strand 0).run, (t.strand 0).faultKind, (t.strand 0).reg 1)) = some (.faulted, 4, 0) := by decide

/-- LoadsAndStores: the last word of the scratchpad, and an LDM in device memory that waits for its data. -/
theorem test_witness_LoadsAndStores :
    (let w := wI 0x11 1 4 0x2FFEFFC
     let s := on w strandN
     let a := scratchBase 0 + ((s.strand 0).reg 4 + BitVec.ofNat 32 0x2FFEFFC).toNat
     s.issues 0 w 0x11 && !s.hazard 0 [(a, 4)] && !(s.read a 4).2 && zeroI w && a - scratchBase 0 + 4 == scratchSize) = true
    ∧ (let w := wI 0x12 1 4 0
       (on w strandN).issues 0 w 0x12 && zeroI w) = true
    ∧ (let w := wS 0x13 1 4 5 0
       let s := on w strandN
       let a := 512 * 2 ^ 32 + 0x1000
       a % 4 == 0 && inOneRange a 4 && decS0 w && s.issues 0 w 0x13 && !s.hazard 0 [(a, 4)]
         && (s.gate (.ldm 0 w) [(a, 4)] []).isNone) = true
    ∧ (let w := wS 0x14 1 4 0 0
       let s := on w strandN
       let a := 0x1000
       a % 4 == 0 && inOneRange a 4 && decS0 w && s.issues 0 w 0x14 && (s.gate (.stm 0 ⟨w, .clean⟩) [] [(a, 4)]).isNone && !s.asleepAt a) = true
    ∧ (let x := { strand0 with wait := .ldm 31 0x1000 }
       let s := at0 x
       x.wait == .ldm 31 0x1000 && s.unitsOn && x.run == .running && s.awake (regionOf 0) && !s.asleepAt 0x1000
         && (s.gate (.ldmDataReturn 0 .clean) [(0x1000, 4)] []).isNone && !(s.read 0x1000 4).2) = true := by decide

theorem test_witness_StrandMemoryFrames :
    Memory.wf (on (wI 0x12 1 4 0) strandN).mem = true
    ∧ (after (.sts 0 (wI 0x12 31 4 0)) (on (wI 0x12 31 4 0) strandN)).isSome = true
    ∧ (after (.stm 0 ⟨wS 0x14 31 4 0 0, .clean⟩) (on (wS 0x14 31 4 0 0) strandN)).isSome = true
    ∧ (after (.tdst 0 (wT 0x21 0 1 0 4 0 0)) (on (wT 0x21 0 1 0 4 0 0) strandN)).isSome = true
    ∧ (after (.br 0 (wB 0x18 0 0 8)) (on (wB 0x18 0 0 8))).isSome = true := by decide

/-- BranchesAndDescriptors: a branch to the first word, a REP over the last one, and each descriptor form. -/
theorem test_witness_BranchesAndDescriptors :
    (let w := wB 0x18 0 0 0
     let s := on w
     s.issues 0 w 0x18 && zeroB w && !(s.strand 0).inWindow
       && decide ((0 : Int) ≤ (s.strand 0).pc + 8 * (fmtB w).off ∧ ((s.strand 0).pc + 8 * (fmtB w).off : Int) < 8 * (s.strand 0).code.length)) = true
    ∧ (let w := wB 0x19 0 4095 1
       let x := (on w).strand 0
       (on w).issues 0 w 0x19 && repDec x w && repOk x (x.pc + 8 + 8 * (fmtB w).off.toNat)) = true
    ∧ (let w := wT 0x20 63 0 0 4 0 0
       let s := on w strandN
       let a := scratchBase 0 + 0x1000
       s.issues 0 w 0x20 && zeroT w && !s.hazard 0 [(a, 16)] && !(s.read a 16).2) = true
    ∧ ([0x21, 0x22, 0x24, 0x25].all fun k => let w := wT k 1 2 0 4 0 5; (on w strandN).issues 0 w k && zeroT w && (fmtT w).sub == 0) = true
    ∧ (let w := wT 0x23 1 0 0 4 6 5
       (on w strandN).issues 0 w 0x23 && zeroT w && (tdSetField 6 0x1000 512 0).isSome) = true
    ∧ (let w := wT 0x24 0 2 0 4 6 5; (on w strandN).issues 0 w 0x24 && zeroT w) = true := by decide

/-! ### The matrix array -/

/-- A 2 × 4 weight tile and a 1 × 2 activation tile of INT8 in the region's scratchpad; s1 and s2 address vectors. -/
def strandM : Strand :=
  strand0.setTd 1 (tdOf (scratchBase 0) 0x20 2 4 64) |>.setTd 2 (tdOf (scratchBase 0 + 0x1000) 0x20 1 2 64)

/-- INTW, G = 32, no chain, INIT. -/
def wordM : Word64 := wM 1 2 3 0 0 0 1 0 0

def tileOf (a rows cols : Nat) (f : Fmt) : Tile :=
  { addr := scratchBase 0 + a, fmt := f, sparse := 0, rows := rows, cols := cols, stride := 64, hdr := none, hdrAddr := 0, hdrBad := false }

/-- The job that this MMA makes. -/
def job1 : Job :=
  { id := 1, strand := 0, pc := 0, parts := [(0, 0)], width := 64, shape := 0, acm := .intw, g := 32, chain := 0,
    base := scratchBase 0 + 0x100000, size := 0x4000, rm := .rne, init := true, list := false, w := tileOf 0 2 4 .int8,
    a := tileOf 0x1000 1 2 .int8, m := 1, n := 4, k := 2, tacc := 0x3F800000, seed := 0, chunkLen := 4, gxList := 0,
    crec := none, started := [] }

def item1 : Item := { job := 1, tile := 0, acc := scratchBase 0 + 0x100000, kLo := 0, kHi := 2, pass := 0, promo := 0, last := true }
def cells1 : List (List Cell) := List.replicate 2 (List.replicate 64 ⟨3, 0, 0, false⟩)
def tile1 : AccTile :=
  { job := 1, tile := 0, acc := scratchBase 0 + 0x100000, rows := List.replicate 64 (List.replicate 64 (0, 0)), badAll := false,
    badEls := [], badCols := [], final := false, drained := true, int := true }
def closed1 : Closed :=
  { item := item1, row := 0, promo := 0, cols := List.replicate 64 ({ a := 5, framed := true }, Ex.ofInt 1), badEls := [],
    badCols := [], badAll := false, final := true }

/-- Part 0 of block 0, owned by strand 0, with job j. -/
def withPart (x : Part) (j : Job := job1) : State :=
  ({ at0 strandM with jobs := [j] }).setPart 0 0 { x with owner := some 0 }

/-- 02 R14: TDSET of a count on a descriptor whose format code is reserved is a format fault. -/
theorem test_tdset_reserved :
    (let w := wT 0x23 1 0 0 6 3 0
     ((after (.tdset 0 w) (on w (strandN.setTd 1 (tdOf 0 0x3F 1 1 64)))).map fun t => ((t.strand 0).run, (t.strand 0).faultKind))
       = some (.faulted, 2)) := by decide

theorem test_mma_job : ((on wordM strandM).mmaJob 0 wordM).map (fun j => { j with gxList := 0 }) = some job1 := by decide

theorem test_witness_MatrixPasses :
    (let s := on wordM strandM
     let u := s.atIssue 0 wordM
     (u.mmaJob 0 wordM).any fun j =>
       s.issues 0 wordM 0x30 && zeroM wordM && winRanges (u.strand 0) 0 (j.operands ++ j.inputs ++ j.outRanges)
         && j.overlapOk [sectArea 0 sect false, sectArea 0 sect true] && !u.accHazard j && !u.hazard 0 (j.operands ++ j.inputs)
         && (u.preReads 0 (.mma 0 wordM) (u.mmaHeaders 0 wordM)).isNone
         && (u.gate (.mma 0 wordM) (j.operands ++ j.inputs ++ j.chainReads) []).isNone) = true
    ∧ (let s := withPart { queue := [item1] }
       s.worker 0 0 = some 0 ∧ ((s.loadTarget (s.part 0 0)).any fun y =>
         (s.gate (.stationaryRowLoad 0 0 .clean) (y.1.statReads y.2.1 y.2.2.1.length) []).isNone
           && (s.loadRow 0 0 0 y.1 y.2.1 y.2.2.1 .clean).toOption.isSome && !y.2.2.2) = true)
    ∧ (let s := withPart { live := { rows := [], item := some item1 } } { job1 with g := 128 }
       s.worker 0 0 = some 0 ∧ ((s.loadTarget (s.part 0 0)).any fun y => y.2.2.2) = true)
    ∧ (let s := withPart { shadow := { rows := cells1, item := some item1 } }
       s.worker 0 0 = some 0 ∧ (s.part 0 0).live.item = none ∧ (s.part 0 0).shadow.item = some item1
         ∧ item1.rows ≤ (s.part 0 0).shadow.rows.length)
    ∧ (let s := withPart { live := { rows := cells1, item := some item1 } }
       s.worker 0 0 = some 0 ∧ s.jobOf 1 = some job1 ∧ item1.rows ≤ (s.part 0 0).live.rows.length
         ∧ (∀ tok ∈ job1.rowTokens 0 1, (s.gatherRow job1 (job1.rowBase item1 + tok)).1.isSome = true)
         ∧ s.gate (.passRowIssue 0 0 [] .clean) (s.passReads job1 item1 0) [] = none) := by decide

/-- Two products 3 · 2 and 3 · 4: the register of a column holds 18. -/
theorem test_pass_row : ((after (.passRowIssue 0 0 [] .clean)
    ((withPart { live := { rows := cells1, item := some item1 } }).write (scratchBase 0 + 0x1000) [2, 4] false)).map fun t =>
      (t.part 0 0).closed.map fun c => (c.final, (c.cols.map fun y => y.1.a).take 4)) = some [(true, [18, 18, 18, 18])] := by decide

theorem test_promotion_intw : ((after (.promotion 0 ⟨0, .clean⟩) (withPart { closed := [closed1], acc := some tile1 })).map fun t =>
    (t.part 0 0).acc.map fun y => ((y.rows.getD 0 []).getD 63 (9, 9), y.final)) = some (some ((5, 0), true)) := by decide

theorem test_witness_PromotionsAndTiles :
    (let s := withPart { closed := [closed1], acc := some tile1 }
     (s.part 0 0).owner = some 0 ∧ (s.part 0 0).closed = closed1 :: [] ∧ s.jobOf 1 = some job1
       ∧ (s.unitsOn && s.awake (blockRegion 0)) = true ∧ job1.acm ≠ .basin ∧ job1.list = false
       ∧ (s.part 0 0).acc = some tile1 ∧ s.sameTile tile1 item1 = true ∧ s.sameTile { tile1 with acc := 0 } item1 = false)
    ∧ (let s := withPart { closed := [closed1] } { job1 with acm := .basin }
       (s.jobOf 1).map (·.acm) = some .basin
         ∧ (closed1.final && ({ job1 with acm := .basin } : Job).chain != 0 && (s.strand 0).run == .running) = false
         ∧ s.quireUnread 0 closed1.item.acc job1.size = false
         ∧ (withPart { closed := [closed1], epi := [newEpi 1 0 closed1.item.acc] } { job1 with acm := .basin }).quireUnread 0 closed1.item.acc job1.size = true)
    ∧ (let s := withPart { closed := [closed1] } { job1 with list := true }
       (s.jobOf 1).map (·.list) = some true ∧ (s.strand 0).run = .running)
    ∧ (let s := withPart { queue := [item1] }
       (s.part 0 0).saddle = none ∧ s.nextTile (s.part 0 0) = some item1 ∧ s.jobOf item1.job = some job1
         ∧ (!(s.part 0 0).liveAt item1.acc && !s.heldElsewhere 0 0 0 item1.acc) = true ∧ job1.startsTile item1.acc = true)
    ∧ (let s := withPart { queue := [item1], saddle := some tile1 }
       s.liveBusy (s.part 0 0) = false ∧ tile1.drained = true ∧ s.nextTile (s.part 0 0) = some item1 ∧ s.sameTile tile1 item1 = true) := by
  decide

def chain1 : ChainRec :=
  { tensor := 0, outfmt := 0x00, scmode := 0, bimode := 0, acfn := 0, scval := 0, rdk := 0, rdop := 0, dsmode := 0, keepacc := false,
    tr := false, scaddr := 0, biaddr := 0, out := tileOf 0x2000 1 4 .fp32, aux := 0, stat := 0, residual := none }
def epi1 : Epi := { newEpi 1 0 (scratchBase 0 + 0x100000) with rows := List.replicate 64 (List.replicate 64 (7, 0)) }
def jobE : Job := { job1 with chain := 1, crec := some chain1 }

/-- The epilogue clause of PromotionsAndTiles, and what it writes: 7 as FP32. -/
theorem test_witness_epilogue :
    (let s := withPart { epi := [epi1] } jobE
     s.worker 0 0 = some 0 ∧ s.jobOf 1 = some jobE ∧ jobE.crec = some chain1
       ∧ s.gate (.epilogueRowWrite 0 ⟨0, [63]⟩) (jobE.rowReads chain1 chain1.out none 0 0 (jobE.epiCols chain1 0))
         (jobE.rowWrites chain1 chain1.out 0 0 0) = none) := by decide
theorem test_epilogue_row : ((after (.epilogueRowWrite 0 ⟨0, []⟩) (withPart { epi := [epi1] } jobE)).map fun t =>
    (memGetN t.mem (scratchBase 0 + 0x2000) 8, (t.part 0 0).epi.length)) = some ([0, 0, 0xE0, 0x40, 0, 0, 0xE0, 0x40], 0) := by decide

/-- R94: a term below half an ulp of the sum stays in the tail of the pair. -/
theorem test_pair_promote : pairPromote (0x3F800000, 0) 0x33000000 0 = (0x3F800000, 0x33000000) := by decide

/-! ### Vector instructions -/

/-- TD FP32 1 × 4 at 0x3000; TA and TB FP32 1 × 4; td4 INT8, td5 INT32 1 × 4, td6 L16 1 × 4, td7 one row of INT32, td8 INT32 1 × 1. -/
def strandV : Strand :=
  strand0
    |>.setTd 1 (tdOf (scratchBase 0 + 0x3000) 0x00 1 4 64) |>.setTd 2 (tdOf (scratchBase 0 + 0x1000) 0x00 1 4 64)
    |>.setTd 3 (tdOf (scratchBase 0 + 0x2000) 0x00 1 4 64) |>.setTd 4 (tdOf (scratchBase 0 + 0x3000) 0x20 1 4 64)
    |>.setTd 5 (tdOf (scratchBase 0 + 0x1000) 0x24 1 4 64) |>.setTd 6 (tdOf (scratchBase 0 + 0x3000) 0x19 1 4 64)
    |>.setTd 7 (tdOf (scratchBase 0 + 0x2000) 0x24 1 1 64) |>.setTd 8 (tdOf (scratchBase 0 + 0x1000) 0x30 1 4 64)
    |>.setTd 9 (tdOf (scratchBase 0 + 0x2000) 0x00 1 4 64) |>.setTd 10 (tdOf (scratchBase 0 + 0x1000) 0x19 1 4 64)
    |>.setTd 11 (tdOf (scratchBase 0 + 0x2000) 0x00 1 1 64)

def memV : State := (((at0 strandV).write (scratchBase 0 + 0x1000) (leBytes 4 0x3FC00000) false).write (scratchBase 0 + 0x2000) (leBytes 4 0xBF800000) false)
def onV (w : Word64) : State := memV.modStrand 0 fun x => { x with code := [w, 0] }

/-- Whether an element-wise plan exists at word w. -/
def planned (w : Word64) (c : Instr) (b : TbUse) (ok : State → VecOps → Bool) (writes : VecOps → List (Nat × Nat) := tileWrites) : Bool :=
  (((onV w).atIssue 0 w).vecPlan 0 w c b ok writes).isSome && (onV w).issues 0 w (opOf w) && zeroT w

theorem test_vadd : ((after (.vadd 0 (wT 0x40 1 2 3 0 0 0)) (onV (wT 0x40 1 2 3 0 0 0))).map fun t =>
    memGetN t.mem (scratchBase 0 + 0x3000) 4) = some (leBytes 4 0x3F000000) := by decide
/-- Table 2.10: ACCP to ACCP is a copy of both planes. -/
theorem test_vcvt_accp : (let w := wT 0x46 12 8 0 0 0 0
    let s := (onV w).write (scratchBase 0 + 0x1000) (leBytes 4 0x3FC00000) false |>.write (scratchBase 0 + 0x1040) (leBytes 4 0x33000000) false
    let s := s.modStrand 0 fun x => x.setTd 12 (tdOf (scratchBase 0 + 0x3000) 0x30 1 4 64)
    (after (.vcvt 0 w) s).map fun t => (memGetN t.mem (scratchBase 0 + 0x3000) 4, memGetN t.mem (scratchBase 0 + 0x3040) 4))
      = some (leBytes 4 0x3FC00000, leBytes 4 0x33000000) := by decide
theorem test_vcmp : ((after (.vcmp 0 (wT 0x45 4 2 3 0 2 0)) (onV (wT 0x45 4 2 3 0 2 0))).map fun t =>
    memGetN t.mem (scratchBase 0 + 0x3000) 2) = some [0, 0] := by decide

theorem test_witness_VectorElementwise :
    (let ew (_ : State) (o : VecOps) : Bool := dstOk false o.ta.fmt o.td.fmt && bFits o
     planned (wT 0x40 1 2 3 0 0 0) (.vadd 0 (wT 0x40 1 2 3 0 0 0)) .tile ew
       && planned (wT 0x41 1 2 3 0 0 0) (.vmul 0 (wT 0x41 1 2 3 0 0 0)) .tile ew
       && planned (wT 0x42 1 2 3 0 0 0) (.vfma 0 (wT 0x42 1 2 3 0 0 0)) .tile ew
       && planned (wT 0x43 1 2 11 0 0 0) (.vmax 0 (wT 0x43 1 2 11 0 0 0)) .tile ew
       && planned (wT 0x44 1 2 3 0 0 0) (.vmin 0 (wT 0x44 1 2 3 0 0 0)) .tile ew) = true
    ∧ planned (wT 0x45 4 2 3 0 3 0) (.vcmp 0 (wT 0x45 4 2 3 0 3 0)) .tile (fun _ o => o.td.fmt == .int8 && bFits o) = true
    ∧ planned (wT 0x46 4 2 0 0 0 0) (.vcvt 0 (wT 0x46 4 2 0 0 0 0)) .no (fun _ o => dstOk true o.ta.fmt o.td.fmt) = true
    ∧ planned (wT 0x48 1 8 0 0 1 0) (.vread 0 (wT 0x48 1 8 0 0 1 0)) .no (fun _ o => dstOk false o.ta.fmt o.td.fmt && o.ta.fmt.roleAcc
        ) = true := by decide

theorem test_witness_VectorStages :
    planned (wT 0x47 1 2 0 0 0 0) (.vfn 0 (wT 0x47 1 2 0 0 0 0) []) .no
        (fun s o => dstOk false o.ta.fmt o.td.fmt && (s.vsu (regionFin 0)).callable 0) = true
    ∧ planned (wT 0x49 1 2 0 0 1 0) (.vsc 0 (wT 0x49 1 2 0 0 1 0)) .no (fun _ o => dstOk false o.ta.fmt o.td.fmt) = true
    ∧ planned (wT 0x49 1 2 11 0 2 0) (.vsc 0 (wT 0x49 1 2 11 0 2 0)) .tile (fun _ o => dstOk false o.ta.fmt o.td.fmt && rowVec o) = true
    ∧ planned (wT 0x49 1 2 3 0 3 0) (.vsc 0 (wT 0x49 1 2 3 0 3 0)) .tile (fun _ o => dstOk false o.ta.fmt o.td.fmt && colVec o) = true
    ∧ planned (wT 0x4A 1 2 3 0 1 0) (.vbi 0 (wT 0x4A 1 2 3 0 1 0)) .tile (fun _ o => dstOk false o.ta.fmt o.td.fmt && colVec o) = true
    ∧ planned (wT 0x4A 1 2 3 0 2 0) (.vbi 0 (wT 0x4A 1 2 3 0 2 0)) .tile (fun _ o => dstOk false o.ta.fmt o.td.fmt && sameTb o) = true
    ∧ (let ds (o : VecOps) : Bool := o.ta.fmt.isLong && dstOk false o.ta.fmt o.td.fmt || (o.ta.fmt.isL && o.td.fmt == o.ta.fmt)
       planned (wT 0x4B 1 2 3 0 0 0) (.vds 0 (wT 0x4B 1 2 3 0 0 0)) (.entries 0) (fun _ => ds)
         && planned (wT 0x4B 6 10 7 0 1 0) (.vds 0 (wT 0x4B 6 10 7 0 1 0)) (.entries 1) (fun _ => ds)) = true
    ∧ planned (wT 0x4C 6 5 7 0 0 0) (.vlc 0 (wT 0x4C 6 5 7 0 0 0)) .tile (fun _ o => o.ta.fmt == .int32 && o.td.fmt == .l16 && rowVec o
        && (match o.tb with | some b => b.fmt == .int32 | none => false)) = true
    ∧ planned (wT 0x4D 1 2 0 0 1 0) (.vrd 0 (wT 0x4D 1 2 0 0 1 0)) .no (fun _ o => fld 1 5 2 != 3 && rdFmtOk (rdForm 1) o.ta.fmt o.td.fmt)
        (fun o => [(o.td.addr, (rdForm 1).bytes * o.ta.rows * ceilDiv o.ta.cols (rdForm 1).width)]) = true := by decide

/-! ### Function slots -/

/-- Strand 0 lists slot 16; its shadow bank holds an image. -/
def vsuS (t : Slot) : Vsu := ({} : Vsu).modSlot 16 fun _ => { t with owner := some 0 }
def onSlot (w : Word64) (t : Slot) : State := (on w (strandM.setTd 3 (tdOf (scratchBase 0 + 0x4000) 0 1 1 64))).setVsu 0 (vsuS t)

/-- An image of one segment and degree 1 (07 Table 7.5), with its checksum. -/
def image : List Byte :=
  let head := leBytes 4 0x31465356 ++ [5, 0] ++ leBytes 2 1 ++ List.replicate 0x2C 0
  let tail := List.replicate 8 0 ++ [0x00000000, 0x10000000, 0x20000000, 0x30000000, 0x40000000].flatMap (leBytes 4)
    ++ List.replicate 44 0
  head ++ leBytes 4 (crc crc32c (head ++ tail)) ++ tail

theorem test_image : (parseImg image).isSome = true := by decide +kernel

theorem test_witness_FunctionLoading :
    (let w := wT 0x4E 0 3 0 0 16 0
     let s := onSlot w {}
     let u := s.atIssue 0 w
     let a := scratchBase 0 + 0x4000
     s.issues 0 w 0x4E && zeroT w && tdAddr ((u.strand 0).tdw 3) == a && u.lists 0 16 && a % 64 == 0 && inScratch 0 a 1
       && rmOk w && (tileFields ((u.strand 0).tdw 3)).any Tile.shapeOk && !u.hazard 0 [(a, 64)] && !u.hazard 0 [(a, u.imageLen a)]) = true
    ∧ (let w := wT 0x4F 0 0 0 0 16 0
       (onSlot w {}).issues 0 w 0x4F && zeroT w && ((onSlot w {}).atIssue 0 w).lists 0 16 && rmOk w
         && (((onSlot w { load := some ⟨0, 0, 0⟩ }).vsu 0).slot 16).load.isSome
         && (((onSlot w { shadow := some image }).vsu 0).slot 16).load.isNone
         && (((onSlot w { shadow := some image }).vsu 0).slot 16).shadow.isSome) = true
    ∧ (let s := (onSlot 0 { load := some ⟨0, scratchBase 0 + 0x4000, 0⟩ }).write (scratchBase 0 + 0x4000) image false
       let a := scratchBase 0 + 0x4000
       let len := imgLen (fieldLE (memGetN s.mem a 8) 6 2)
       s.loadingSlots 0 = [16] ∧ (s.unitsOn && s.awake (regionOf 0)) = true
         ∧ (inScratch 0 a len && !(s.read a len).2 && memGetN s.mem a len == image) = true)
    ∧ (let s := onSlot 0 { waiting := [.swap 0 8], shadow := some image }
       s.dueSwap 0 = some (16, 8) ∧ ((s.vsu 0).slot 16).waiting = .swap 0 8 :: [] ∧ ((s.vsu 0).slot 16).shadow.isSome = true
         ∧ (s.unitsOn && s.awake (regionOf 0)) = true) := by decide +kernel

/-- R135: a second TLOAD behind a load and its TSWAP waits, and begins once the swap has taken effect. -/
theorem test_tload_behind_swap :
    ((after (.tswapTakesEffect 0) (onSlot 0 { waiting := [.swap 0 8, .load ⟨0, 0x40, 16⟩], shadow := some [1], live := some [2] })).map
      fun t => let x := (t.vsu 0).slot 16; (x.live, x.shadow, x.load, x.waiting)) = some (some [1], some [2], some ⟨0, 0x40, 16⟩, []) := by
  decide +kernel

/-! ### Hand-offs, windows, fences and mailboxes -/

def launch0 : Launch :=
  { id := 0, lrec := leBytes 4 1 ++ List.replicate 60 0, sqid := 0, sqhead := 0, wroot := [], codehash := [], profile := 1,
    accepted := true, halted := 0, ended := 0, digests := [], digestLost := false, recorded := false, orphan := false,
    barriers := [] }
def withLaunch (s : State) (l : Launch := launch0) : State := { s with qe := { s.qe with launches := [l] } }
def inWin : Strand := { strand0 with inWindow := true }
/-- Strand 0 waits. -/
def wait0 (k : Wait) (w : Word64 := 0) : State := at0 { strand0 with code := [w, 0], wait := k }

/-- Strand 0 whose program on engine 3 ended so. -/
def stgS (o : StgOutcome) : Strand := { strand0 with stg := (Vector.replicate 4 StgOutcome.never).set 3 o, wait := .stgwait 3 1 }

theorem test_witness_HandOffs :
    (let w := wX 0x60 0 0 4 5 0 3 0
     let s := on w strandN
     s.issues 0 w 0x60 && (fmtX w).sub == 3 && ((s.strand 0).reg 4).toNat % 64 == 0 && ((s.strand 0).reg 4).toNat < scratchSize
       && !(s.strand 0).inWindow) = true
    ∧ (let w := wX 0x61 0 0 0 0 1 3 0; (on w).issues 0 w 0x61 && (fmtX w).sub < 4) = true
    ∧ (let w := wX 0x62 0 0 4 5 1 0 0
       let s := on w strandN
       let t := s.write (scratchBase 0 + 0x1000 + 64) [1] false
       s.issues 0 w 0x62 && (fmtX w).sub == 0 && !s.hazard 0 [(scratchBase 0 + 0x1000, 68)]
         && leValue ((memGetN s.mem (scratchBase 0 + 0x1000) 68).drop 64) == 0
         && t.issues 0 w 0x62 && leValue ((memGetN t.mem (scratchBase 0 + 0x1000) 68).drop 64) == 1) = true
    ∧ ((at0 (stgS .ok)).strand 0).wait = .stgwait 3 1 ∧ (at0 (stgS .ok)).going 0 = true ∧ (stgS .ok).stg[(3 : Fin 4)] = .ok
    ∧ (stgS .failed).stg[(3 : Fin 4)] = .failed := by decide

/-- 09 Table 9.2: COUNT enters argument word 0 of the record. -/
theorem test_launchif_count :
    (let w := wX 0x62 0 0 4 5 1 0 0
     ((after (.launchif 0 w) ((on w strandN).write (scratchBase 0 + 0x1000 + 64) [9] false)).map fun t =>
       memGetN t.mem (scratchBase 0 + 0x1000 + 0x20) 4) = some [9, 0, 0, 0]) := by decide

def af63 (f : Flag) : Vector Flag 64 := strand0.af.set 63 f

theorem test_witness_WindowsAndArrivals :
    (let w := wX 0x70 0 0 0 0 0 0 0
     (on w).issues 0 w 0x70 && (fmtX w).sub == 0 && !((on w).strand 0).inWindow && (on w).settled 0) = true
    ∧ (let w := wX 0x71 0 0 0 0 0 0 0; (on w inWin).issues 0 w 0x71 && (fmtX w).sub == 0 && ((on w inWin).strand 0).inWindow) = true
    ∧ (let s := at0 { inWin with wait := .endW }; s.going 0 && (s.strand 0).wait == .endW && s.settled 0) = true
    ∧ (let w := wX 0x72 62 1 0 0 0 0 0
       (on w).issues 0 w 0x72 && (fmtX w).sub == 0 && (fmtX w).f0 + (fmtX w).nf == 63
         && (span 62 2).all fun i => ((on w).strand 0).flag i == .idle || ((on w).strand 0).flag i == .closed) = true
    ∧ (let w := wX 0x73 63 0 0 0 0 0 0
       let s := on w { strand0 with af := af63 .armed }
       s.issues 0 w 0x73 && (fmtX w).f0 + (fmtX w).nf == 63 && (s.strand 0).flag 63 == .armed) = true
    ∧ (let s := at0 { strand0 with wait := .waita 63 0, af := af63 .set }
       (s.strand 0).wait = .waita 63 0 ∧ (s.going 0 && (span 63 1).all fun i => (s.strand 0).flag i == .set) = true)
    ∧ (((at0 strand0).region 0).state ≠ 4 ∧ ((at0 strand0).strand 0).flag 63 = .closed ∧ ((at0 {}).strand 0).run = .idle
        ∧ ((at0 { strand0 with af := af63 .armed }).strand 0).flag 63 = .armed
        ∧ ((at0 { strand0 with af := (Vector.replicate 64 Flag.idle) }).strand 0).flag 0 = .idle) := by decide

theorem test_arrival_idle_faults :
    (((at0 { strand0 with af := Vector.replicate 64 Flag.idle }).arrival 0 5).strand 0).faultKind = 3 := by decide
theorem test_arrival_closed_dropped :
    (((at0 strand0).arrival 0 5).strand 0).arriveDrop = 1 := by decide

theorem test_witness_FencesAndHalt :
    (let w := wX 0x74 0 0 0 0 0 2 0; (on w).issues 0 w 0x74 && (fmtX w).sub < 3 && !((on w).strand 0).inWindow) = true
    ∧ (let w := wX 0x75 0 0 0 0 0 2 0; (on w).issues 0 w 0x75 && (fmtX w).sub < 3) = true
    ∧ (let w := wX 0x76 0 0 0 0 0 15 0; (on w).issues 0 w 0x76 && (fmtX w).sub < 16 && ((on w).strand 0).launch.isSome) = true
    ∧ (let w := wX 0x77 0 0 0 0 0 0 0; (on w).issues 0 w 0x77 && ((on w).atIssue 0 w).released 0 2 && ((on w).strand 0).launch.isSome) = true
    ∧ (let w := wX 0x74 0 0 0 0 0 2 0
       let s := wait0 .rel w
       (s.strand 0).codeWord = some w ∧ (s.going 0 && (s.strand 0).wait == .rel && s.released 0 (fmtX w).sub) = true)
    ∧ (let l := { launch0 with barriers := [(15, 1)] }
       let s := withLaunch (wait0 (.bar 15)) l
       s.barReady 0 = some (l, 15) ∧ s.unitsOn = true) := by decide

theorem test_witness_StrandMailboxes :
    ([(0x80, 0), (0x81, 0), (0x82, 0), (0x82, 1)].all fun k =>
      let w := wX k.1 0 0 31 30 7 k.2 0
      (on w).issues 0 w k.1 && (fmtX w).sub == k.2 && !((on w).strand 0).inWindow) = true
    ∧ (let w := wX 0x80 0 0 31 30 7 0 0
       let s := on w
       (s.s2h 0).full = false ∧ ((s.setS2h 0 { word := 0, full := true, latch := 0 }).s2h 0).full = true
         ∧ (s.h2s 0).full = false ∧ ((s.setH2s 0 { word := 0, full := true, latch := 0 }).h2s 0).full = true)
    ∧ (let s := wait0 (.mbxw 5)
       (s.strand 0).wait = .mbxw 5 ∧ (s.going 0 && !(s.s2h 0).full) = true)
    ∧ (let s := (wait0 (.mbxr 0 31)).setH2s 0 { word := 7, full := true, latch := 0 }
       (s.strand 0).wait = .mbxr 0 31 ∧ (s.going 0 && (s.h2s 0).full) = true) := by decide

theorem test_mbxr_halves : ((after (.mbxr 0 (wX 0x81 0 0 1 2 0 0 0)) ((on (wX 0x81 0 0 1 2 0 0 0)).setH2s 0
    { word := 0x0000000700000005, full := true, latch := 0 })).map fun t =>
      ((t.strand 0).reg 1, (t.strand 0).reg 2, (t.h2s 0).full)) = some (5, 7, false) := by decide

theorem test_witness_HostAndMcMailboxes :
    lit.fabricOn = true ∧ (lit.h2s 0).full = false ∧ ((lit.setH2s 31 { word := 0, full := true, latch := 0 }).h2s 31).full = true
    ∧ lit.mbx.h2mc.full = false ∧ (lit.unitsOn && lit.mcOn) = true ∧ lit.mbx.region[(0 : RegionId)].full = false ∧ lit.mbx.mc2h.full = false
    ∧ ({ lit.mbx with h2mc := { word := 1, full := true, latch := 0 } } : Mailboxes).h2mc.full = true := by decide
theorem test_mailbox_halves :
    (((after (.mbxH2sWrite 0 .lower 0x11) lit).bind (after (.mbxH2sWrite 0 .upper 0x22))).map fun t => (t.h2s 0).word)
      = some 0x0000002200000011 := by decide

/-! ### Collectives, sessions and digests -/

/-- ACCP tiles of 2 × 2 at 0x1000, 0x2000 and 0x3000; FP32 rows of pairs at 0x4000; INT32 at 0x5000; td6 names base 0x6000. -/
def strandC : Strand :=
  { strand0 with s := strand0.s.set 4 1 } |>.setTd 1 (tdOf (scratchBase 0 + 0x1000) 0x30 2 2 64)
    |>.setTd 2 (tdOf (scratchBase 0 + 0x2000) 0x30 2 2 64) |>.setTd 3 (tdOf (scratchBase 0 + 0x3000) 0x30 2 2 64)
    |>.setTd 4 (tdOf (scratchBase 0 + 0x4000) 0x00 1 2 64) |>.setTd 5 (tdOf (scratchBase 0 + 0x5000) 0x24 1 1 64)
    |>.setTd 6 (tdOf (scratchBase 0 + 0x6000) 0x24 1 1 64) |>.setTd 7 (tdOf (scratchBase 0 + 0x7000) 0x00 1 1 64)
    |>.setTd 8 (tdOf (scratchBase 0 + 0x8000) 0x00 1 1 64) |>.setTd 9 (tdOf (scratchBase 0 + 0x9000) 0x00 1 1 64)

theorem test_witness_ChainTreeAndTopk :
    (let w := wT 0x90 1 2 0 4 0 0
     let u := (on w strandC).atIssue 0 w
     match u.colTile 0 1, u.colTile 0 2 with
     | some d, some a => (on w strandC).issues 0 w 0x90 && zeroT w && acmFmtOk (acmOf 0) d.fmt && sameShape d a
         && u.colReady 0 w (.chstep 0 w) [1, 2] && collectiveOk u 0 [d.body, (a.addr, a.extent)] [d.body] (d.sideRanges ++ a.sideRanges)
     | _, _ => false) = true
    ∧ (let w := wT 0x91 1 2 3 0 0 0
       let u := (on w strandC).atIssue 0 w
       match u.colTile 0 1, u.colTile 0 2, u.colTile 0 3 with
       | some d, some a, some b => (on w strandC).issues 0 w 0x91 && zeroT w && acmFmtOk (acmOf 0) d.fmt && sameShape d a && sameShape d b
           && u.colReady 0 w (.trstep 0 w) [1, 2, 3]
           && collectiveOk u 0 [a.body, b.body] [d.body] (d.sideRanges ++ a.sideRanges ++ b.sideRanges)
       | _, _, _ => false) = true
    ∧ (let w := wT 0x92 7 8 9 0 0 0
       let u := (on w strandC).atIssue 0 w
       let ok (t : Tile) : Bool := t.fmt.isLong && t.cols == 1 && 8 ≤ t.stride
       let rng (t : Tile) : Nat × Nat := (t.addr, (t.rows - 1) * t.stride + 8)
       match u.colTile 0 7, u.colTile 0 8, u.colTile 0 9 with
       | some d, some a, some b => (on w strandC).issues 0 w 0x92 && zeroT w && ok d && ok a && ok b && sameShape d a && sameShape d b
           && u.colReady 0 w (.tkmerge 0 w) [7, 8, 9]
           && collectiveOk u 0 [rng a, rng b] [rng d] (d.sideRanges ++ a.sideRanges ++ b.sideRanges)
       | _, _, _ => false) = true := by decide

theorem test_witness_SoftmaxAndNorm :
    (let w := wT 0x93 6 5 4 4 0 0
     let u := (on w strandC).atIssue 0 w
     match u.colTile 0 5, u.tdBase 0 6, u.colTile 0 4 with
     | some a, some o, some b => (on w strandC).issues 0 w 0x93 && zeroT w && a.fmt == .int32 && b.fmt == .fp32 && a.rows == 1 && b.rows == 1
         && b.cols == 2 * a.cols && a.sparse == 0 && b.sparse == 0 && u.colReady 0 w (.smxc 0 w) [6, 5, 4]
         && collectiveOk u 0 [a.body, b.body] [(o, 12 * a.cols)] (a.sideRanges ++ b.sideRanges)
     | _, _, _ => false) = true
    ∧ (let w := wT 0x94 5 5 6 0 0 0
       let u := (on w strandC).atIssue 0 w
       match u.colTile 0 5, u.tdBase 0 6 with
       | some a, some m => (on w strandC).issues 0 w 0x94 && zeroT w && a.fmt == .int32 && sameShape a a
           && u.colReady 0 w (.smxd 0 w) [5, 5, 6]
           && collectiveOk u 0 [a.body, (m, 4 * a.cols)] [a.body] (a.sideRanges ++ a.sideRanges)
       | _, _ => false) = true
    ∧ (let w := wT 0x95 6 4 0 4 1 0
       let u := (on w strandC).atIssue 0 w
       match u.colTile 0 4, u.tdBase 0 6 with
       | some a, some o => (on w strandC).issues 0 w 0x95 && zeroT w && a.fmt == .fp32 && a.rows == 1 && a.cols % 2 == 0 && a.sparse == 0
           && u.colReady 0 w (.prcomb 0 w) [6, 4] && collectiveOk u 0 [a.body, (o, 8)] [(o, 8)] a.sideRanges
       | _, _ => false) = true := by decide

/-- A pool of 4 pages at 0x200000; session 0 is open with 2 indices, directory at 0x1000 and the given entries. -/
def pool (s : State) (d0 : List Byte) : State :=
  let e : Se := { poolbase := 0x200000, poolpages := 4, sumbase := 0x10000, limit := 4, next := 1, openCount := 1, spillbase := 0x800000, spillslots := 4, spillsumbase := 0x20000, slotNext := 1 }
  (({ s with se := e } : State).write 0 ([1, 0, 0, 0] ++ leBytes 4 2 ++ leBytes 8 0x1000) false).write 0x1000 d0 false

theorem test_witness_Sessions :
    ([(0xA0, dirBytes 0 false false), (0xA0, dirBytes 32 false true), (0xA1, dirBytes 32 false true), (0xA2, dirBytes 32 false true)].all fun k =>
      let w := wX k.1 0 0 1 0 1 0 0
      let s := pool (on w) k.2
      let u := s.atIssue 0 w
      let c : Instr := if k.1 = 0xA0 then .salloc 0 w else if k.1 = 0xA1 then .slook 0 w else .sfree 0 w
      match u.find 0 0 with
      | .at e d => s.issues 0 w k.1 && (fmtX w).sub == 0 && !(s.strand 0).inWindow && !u.seWaits c && (u.findGate c 0 0).isNone
          && (u.gate c [] (entWrites e d)).isNone && !d.spilled && (k.1 == 0xA0 || d.valid)
          && !u.se.pinsFull (u.strand 0).launchId d.loc && u.se.takePage.isSome
      | _ => false) = true
    ∧ (let w := wX 0xA1 0 0 1 0 1 0 0
       let u := (pool (on w) (dirBytes 2 true true)).atIssue 0 w
       (match u.find 0 0 with | .at _ d => d.valid && d.spilled | _ => false) = true
         ∧ (match u.se.takePage with | some (k, _) => !u.se.pinsFull (u.strand 0).launchId (u.se.firstPage + k) | none => false) = true)
    ∧ (let w := wX 0xA2 0 0 1 0 1 0 9
       let s := pool (on w) (dirBytes 2 true true)
       (match (s.atIssue 0 w).find 0 9 with | .none => true | _ => false) = true ∧ s.issues 0 w 0xA2 = true
         ∧ ((s.atIssue 0 w).findGate (.sfree 0 w) 0 9).isNone = true)
    ∧ (let w := wX 0xA3 0 0 4 5 1 0 0
       let s := pool (on w (strandN.setReg 5 32)) (dirBytes 32 false true)
       let u := s.atIssue 0 w
       let k := 32 - u.se.firstPage
       s.issues 0 w 0xA3 && u.se.firstPage ≤ 32 && k < u.se.poolpages.toNat && u.se.allocated k && !u.seWaits (.ssum 0 w)
         && !u.se.allocated 1
         && !u.hazard 0 [(scratchBase 0 + 0x1000, 64)] && (u.gate (.ssum 0 w) [] [(u.se.sumAddr k, 64)]).isNone) = true
    := by decide

/-- RecallsAndSpills: a strand waits for slot 0; session 0 with a resident page, and one without indices. -/
theorem test_witness_RecallsAndSpills :
    (let s := pool (wait0 (.slook 1 0 0 1)) (dirBytes 0 true true)
     (s.strand 0).wait = .slook 1 0 0 1 ∧ (s.unitsOn && !s.se.faulted) = true
       ∧ (s.findGate (.recall 0 [] false) 0 0).isNone = true
       ∧ (match s.find 0 0, s.se.takePage with
         | .at e d, some (k, se) => d.spilled && (s.gate (.recall 0 [] false) [(se.slotSum d.loc, 64)]
             (entWrites e d ++ [(se.pageAddr k, 0x10000), (se.sumAddr k, 64)])).isNone
         | _, _ => false) = true)
    ∧ (let s := pool lit (dirBytes 32 false true)
       let u := s.seCmd 4 0
       let e := s.sessEnt 0
       let v := u.setSe { u.se with skipped := 0, err := 0 }
       let d := v.dirEnt e 0
       (s.fabricOn && s.se.state != 1 && !u.seWaits (.spill 0) && (s.se.spillWaits 0).isNone && !e.bad && e.state == 1
          && (u.gate (.spill 0) [(e.addr, 64)] []).isNone && e.nidx != 0 && !v.seStopped
          && (v.gate (.spill 0) [(e.addr, 64), (e.dir, 4)] []).isNone && d.valid && !d.spilled && !d.bad && !v.se.isPinned d.loc
          && v.se.takeSlot.isSome && (v.gate (.spill 0) [(v.se.pageAddr (d.loc - v.se.firstPage), 0x10000)] []).isNone) = true)
    ∧ (let s := (pool lit []).write 4 (leBytes 4 0) false
       (s.sessEnt 0).nidx = 0 ∧ (s.sessEnt 0).state = 1 ∧ ((s.seCmd 4 0).gate (.spill 0) [((s.sessEnt 0).addr, 64)] []).isNone = true) := by
  decide

/-- SALLOC takes page 33: the first page of the pool is number 32 and the page in use is the first. -/
theorem test_salloc : ((after (.salloc 0 (wX 0xA0 0 0 1 0 1 0 0)) (pool (on (wX 0xA0 0 0 1 0 1 0 0)) (dirBytes 0 false false))).map fun t =>
    ((t.strand 0).reg 1, (t.strand 0).pred 1, memGetN t.mem 0x1000 4)) = some (33, true, [33, 0, 0, 0x80]) := by decide

/-- Strand 0 of a launch that asks for a digest. -/
def digestN : Strand := { strandN with launch := some ⟨0, [1, 0, 0, 0, 1] ++ List.replicate 59 0, sect, 0⟩ }

theorem test_witness_DigestStream :
    (let w := wX 0xB0 0 0 4 31 0 1 0
     let s := on w digestN
     let u := s.atIssue 0 w
     s.issues 0 w 0xB0 && (fmtX w).sub < 2 && !(s.strand 0).inWindow && (u.strand 0).wantsDigest && !u.hazard 0 [(scratchBase 0 + 0x1000, 7)]) = true
    ∧ (let w := wX 0xB0 0 0 4 31 0 0 0
       let u := (on w).atIssue 0 w
       (on w).issues 0 w 0xB0 && !(u.strand 0).wantsDigest) = true
    ∧ (let w := wX 0xB1 0 0 0 0 0 0 0
       let s := on w digestN
       s.issues 0 w 0xB1 && (fmtX w).sub == 0 && ((s.atIssue 0 w).strand 0).wantsDigest && (on w).issues 0 w 0xB1
         && !(((on w).atIssue 0 w).strand 0).wantsDigest) = true := by decide

/-! ### Staging engines -/

/-- A step from its fields, each (offset, value) in bytes. -/
def stOf (fs : List (Nat × Nat)) : BitVec 512 := BitVec.ofNat 512 (fs.foldl (fun n f => n + f.2 * 2 ^ (8 * f.1)) 0)

def engine0 : Engine := { run := .running, step := 1, x := (Vector.replicate 8 (0 : Word)).set 0 0x1000 |>.set 7 2 }
/-- Engine 0 stands at step st. -/
def onE (st : BitVec 512) (x : Engine := engine0) : State := lit.setEngine 0 { x with store := [0, st, 0] }

theorem test_witness_StagingControl :
    (let s := (at0 { strand0 with wait := .stgrun 0 0 7 }).write (scratchBase 0 + 4) [2] false
     let a := scratchBase 0
     let hdr := memGetN s.mem a 64
     (s.strand 0).wait == .stgrun 0 0 7 && engineId 0 0 == 0 && s.going 0 && (s.engine 0).run == .idle && !(s.engine 0).disabled
       && fieldLE hdr 0 4 == 0 && fieldLE hdr 6 58 == 0 && fieldLE hdr 4 2 == 2 && !(s.read a 64).2 && !(s.read a 128).2
       && !s.hazard 0 [(a, 128)] && !s.engClosing 0) = true
    ∧ (let st := stOf [(0, 0x10), (4, 7), (5, 7), (8, 0xFFFFFFFF)]
       (onE st).stepsNow 0 st 0x10 && onlyFields st [(0, 1), (4, 2), (8, 4)] && stD st < 8 && stA st < 8) = true
    ∧ (let st := stOf [(0, 0x11), (4, 7), (5, 0), (0x10, 0x1000)]
       let s := onE st
       s.stepsNow 0 st 0x11 && onlyFields st [(0, 1), (4, 2), (0x10, 8)] && s.engReach 0x2000 4 && (s.gate (.ldx 0 ⟨st, []⟩) [(0x2000, 4)] []).isNone
         && !s.loopWrites 0 [(0x2000, 4)] && !(s.read 0x2000 4).2 && stAddr st + ((s.engine 0).xr 0).toNat == 0x2000) = true
    ∧ (let st := stOf [(0, 0x12), (5, 0), (6, 7), (0x10, 0x1000)]
       (onE st).stepsNow 0 st 0x12 && onlyFields st [(0, 1), (5, 2), (0x10, 8)] && (onE st).engWrites 0 (.stx 0 ⟨st, []⟩) 0x2000 4) = true
    ∧ (let st := stOf [(0, 0x13), (5, 0), (6, 7), (7, 4), (0xC, 2)]
       (onE st).stepsNow 0 st 0x13 && onlyFields st [(0, 1), (5, 3), (0xC, 2)] && stF st 7 1 < 5 && stTarget st < 3) = true
    ∧ (let st := stOf [(0, 0x14), (4, 7), (0xC, 2)]
       (onE st).stepsNow 0 st 0x14 && onlyFields st [(0, 1), (4, 1), (0xC, 2)] && stTarget st < 3) = true := by decide

theorem test_loop_goes_back : ((after (.loop 0 (stOf [(0, 0x14), (4, 7), (0xC, 0)])) (onE (stOf [(0, 0x14), (4, 7), (0xC, 0)]))).map fun t =>
    ((t.engine 0).xr 7, (t.engine 0).step)) = some (1, 0) := by decide
theorem test_setx : ((after (.setx 0 (stOf [(0, 0x10), (4, 1), (5, 0), (8, 0xFFFFFFFF)])) (onE (stOf [(0, 0x10), (4, 1), (5, 0), (8, 0xFFFFFFFF)]))).map
    fun t => ((t.engine 0).xr 1, (t.engine 0).step)) = some (0xFFF, 2) := by decide

/-- An INT8 tile of 1 × 4 copied from the scratchpad to device memory. -/
def copyStep : BitVec 512 :=
  stOf [(0, 1), (8, tdOf (scratchBase 0) 0x20 1 4 64), (0x18, tdOf 0x1000 0x20 1 4 64)]
/-- The same from host memory. -/
def copyHost : BitVec 512 :=
  stOf [(0, 1), (8, tdOf 0x2000 0x20 1 4 64), (0x18, tdOf 0x1000 0x20 1 4 64), (0x38, 1)]

/-- The same bits to device memory, the row in two pieces of the destination. -/
def copyRaw : BitVec 512 :=
  stOf [(0, 1), (1, 8), (8, tdOf (scratchBase 0) 0x20 1 4 64), (0x18, tdOf 0x1000 0x20 1 4 64)]

theorem test_witness_CopySteps :
    (let s := onE copyStep
     let c := copyOf copyStep
     match s.copySides 0 c with
     | .ok (a, b) => s.stepsNow 0 copyStep 0x01 && c.decOk copyStep && s.sideReach a && s.sideReach b && a.space == 0
         && (s.engReads 0 (.copy 0 ⟨copyStep, []⟩) c.headers).isNone && (copyArrays a b).all (fun p => p.2 == 0 || s.engReach p.1 p.2)
         && !s.loopWrites 0 (copyReads a b) && (s.engine 0).fetch.isNone && (s.gate (.copy 0 ⟨copyStep, []⟩) (copyReads a b) []).isNone
     | .error _ => false) = true
    ∧ (let s := onE copyHost
       let c := copyOf copyHost
       match s.copySides 0 c with
       | .ok (a, b) => s.stepsNow 0 copyHost 0x01 && c.decOk copyHost && s.sideReach a && s.sideReach b && a.space == 1
           && (s.engReads 0 (.copy 0 ⟨copyHost, []⟩) c.headers).isNone && (copyArrays a b).all (fun p => p.2 == 0 || s.engReach p.1 p.2)
           && (s.engine 0).fetch.isNone && !s.ownWrites 0 a
       | .error _ => false) = true
    ∧ (let s := onE copyRaw
       let c := copyOf copyRaw
       match s.copySides 0 c with
       | .ok (a, b) => s.stepsNow 0 copyRaw 0x01 && c.decOk copyRaw && c.bitcopy && !c.arrive && s.sideReach a && s.sideReach b
           && a.space == 0 && b.space == 0 && !(List.zip a.tile.spans b.tile.spans).isEmpty
           && !s.loopWrites 0 (copyReads a b) && (s.gate (.copy 0 ⟨copyRaw, []⟩) (copyReads a b) []).isNone
       | .error _ => false) = true
    ∧ ({ space := 1, dst := 0, todo := [], got := [1, 2, 3, 4], poison := [false, false, false, false], waiting := none } : Fetch).complete = true := by
  decide

theorem test_copy_bytes : (((after (.copy 0 ⟨copyStep, []⟩) ((onE copyStep).write (scratchBase 0) [1, 2, 3, 4] false)).bind (after (.burstWrite ⟨0, []⟩))).map fun t =>
    memGetN t.mem 0x1000 5) = some [1, 2, 3, 4, 0] := by decide

def burst0 (space : Nat) : Burst :=
  { space := space, dst := 3, addr := 0x1000, bytes := [1, 2, 3, 4], poison := false, vanish := 0, atom := false, tc := 0 }

theorem test_witness_BurstsArriveAndEnd :
    ([0, 1, 2].all fun k =>
      let s := onE 0 { engine0 with bursts := [burst0 k] }
      s.engGo 0 && s.engReach 0x1000 4 && (s.gateWith true (.burstWrite ⟨0, []⟩) [] [(0x1000, 4)]).isNone && s.cxlOn && (s.engine 0).freeTag.isSome) = true
    ∧ (let st := stOf [(0, 0x30), (0x38, 0x7DF * 2 ^ 36)]
       let ext := stF st 0x38 8
       (onE st).stepsNow 0 st 0x30 && onlyFields st [(0, 1), (0x38, 8)]
         && setFld (setFld (setFld (setFld ext 14 2 0) 16 12 0) 36 6 0) 42 5 0 == 0 && fld ext 14 2 == 0 && fld ext 16 12 == 0) = true
    ∧ (let s := onE 0 { engine0 with arrival := some ⟨2, 3, 31, 63, true⟩ }
       s.engGo 0 && (s.engine 0).bursts.isEmpty && !(s.engine 0).unanswered) = true
    ∧ (let st := stOf [(0, 0x3F)]
       (onE st).stepsNow 0 st 0x3F && onlyFields st [(0, 1)] && !((onE st).engine 0).unanswered && !((onE st).engine 0).faulting
         && !((onE st).engine 0).storing) = true := by decide

def cvu0 : Cvu := ⟨0, 0, 0, 0, crc32c.init, 0, [], 0⟩

theorem test_crc32c_check : crcFinish crc32c (crcUpdate crc32c crc32c.init [0x31, 0x32, 0x33, 0x34, 0x35, 0x36, 0x37, 0x38, 0x39]) = 0xE3069283 := by
  decide +kernel

theorem test_witness_StagingCompute :
    (let st := stOf [(0, 0x20), (4, 1), (5, 1), (6, 1), (8, 9)]
     (onE st).stepsNow 0 st 0x20 && onlyFields st [(0, 1), (4, 3), (8, 8)] && stF st 4 1 < 2 && stF st 5 1 < 2 && stF st 6 1 < 2) = true
    ∧ (let st := stOf [(0, 0x21), (0x10, 0x1000)]
       let s := onE st { engine0 with cvu := some cvu0 }
       s.stepsNow 0 st 0x21 && onlyFields st [(0, 1), (0x10, 8)] && s.engWrites 0 (.cvuout 0 ⟨st, []⟩) 0x1000 8) = true
    ∧ (let st := stOf [(0, 0x28)]; (onE st).stepsNow 0 st 0x28 && onlyFields st [(0, 1)]) = true
    ∧ (let st := stOf [(0, 0x29), (4, 1), (6, 4095), (0x10, 0x1000)]
       (onE st).stepsNow 0 st 0x29 && onlyFields st [(0, 1), (4, 1), (6, 2), (0x10, 8)] && stF st 6 2 < 4096
         && (onE st).engWrites 0 (.shafin 0 st) 0x1000 32) = true
    ∧ (let st := stOf [(0, 2), (8, tdOf (scratchBase 0) 0x20 2 4 64), (0x18, tdOf (scratchBase 0 + 0x1000) 0x00 1 4 64)]
       let s := onE st
       match s.side (s.engine 0) (stF st 8 16) (stF st 0x28 8) 0 0 0, bareSide (s.engine 0) (stF st 0x18 16) 0 0 0 with
       | .ok a, .ok b => s.stepsNow 0 st 0x02 && onlyFields st [(0, 1), (8, 16), (0x18, 16), (0x28, 8)] && tdSptr (stF st 8 16) == 0
           && a.tile.fmt.roleW && b.tile.rows == 1 && b.tile.cols == a.tile.cols && b.tile.fmt == .fp32 && !isBasin b.tile.addr
           && s.sideReach a && s.sideReach b && (s.engReads 0 (.colsum 0 ⟨st, []⟩) (headersOf [stF st 0x28 8])).isNone
           && (s.engReads 0 (.colsum 0 ⟨st, []⟩) a.tile.ranges).isNone
       | _, _ => false) = true
    ∧ (let st := stOf [(0, 3), (2, 1), (4, 1), (6, 1), (8, scratchBase 0), (0x10, scratchBase 0 + 0x1000),
         (0x18, tdOf (scratchBase 0 + 0x2000) 0x20 1 4 64), (0x28, 0x3000), (0x2C, 64), (0x30, scratchBase 0 + 0x4000), (0x38, 64)]
       let s := (onE st).write (scratchBase 0 + 0x3044) (leBytes 4 4 ++ leBytes 8 0 ++ leBytes 8 (scratchBase 0 + 0x5000)) false
       (bucketOf 0 st).any fun b =>
         let out := (s.bkRun b).out.reverse
         let rs := (s.bkRun b).reads
         s.stepsNow 0 st 0x03 && onlyFields st [(0, 3), (4, 2), (6, 2), (8, 8), (0x10, 8), (0x18, 16), (0x28, 4), (0x2C, 4), (0x30, 8), (0x38, 4)]
           && tdSptr (stF st 0x18 16) == 0 && out.all (fun w => s.engReach w.1 w.2.1.length)
           && (s.engReads 0 (.bucket 0 ⟨st, []⟩) rs).isNone && rs.all (fun p => s.engReach p.1 p.2) && rs.length == 4 && (s.gateWith true (.bucket 0 ⟨st, []⟩) [] (out.map fun w => (w.1, w.2.1.length))).isNone
           && (s.bkRun b).fault.isNone) = true := by decide

/-! ### Queues and sessions -/

/-- The entry of a queue: type, flags, log2 of its size, class, vector, base, HEAD, TAIL, PHASE (11 Table 11.1). -/
def entry (type flags log cls vec base head tail phase : Nat) : List Byte :=
  leBytes 1 type ++ leBytes 1 flags ++ leBytes 1 log ++ leBytes 1 cls ++ leBytes 2 vec ++ leBytes 2 0 ++ leBytes 8 base ++ leBytes 4 head
    ++ leBytes 4 tail ++ leBytes 1 phase

/-- A launch record for strand mask m and completion queue 5, with its binary at 0x10000. -/
def lrec (m : Nat) : List Byte :=
  leBytes 4 m ++ [0, 0] ++ leBytes 2 7 ++ leBytes 8 0x10000 ++ leBytes 4 0 ++ leBytes 4 5 ++ List.replicate 40 0

/-- Queue 3 is a submission queue of 16 records at 0x4000 that holds tail records; queue 5 a completion queue at 0x8000. -/
def queues (flags tail : Nat) (m : Nat := 1) (s : State := lit) : State :=
  let a := entry 1 flags 4 2 0 0x4000 0 tail 1
  let b := entry 2 0 4 0 0 0x8000 0 0 1
  let s := (((s.write (qeEntry 0 3) a false).write (qeEntry 0 5) b false).write 0x4000 (lrec m) false)
  { s with qe := { s.qe with enabled := [(3, a.take 16), (5, b.take 16)], ready := if tail = 0 then [] else [3] } }

def bell (q t : Nat) : Word64 := BitVec.ofNat 64 (q + t * 2 ^ 32)

/-- 11: doorbell 0x0000_0104_0000_2A31 names queue 0x2A31 and count 0x104. -/
theorem test_doorbell_fields : fld 0x0000010400002A31 0 20 = 0x2A31 ∧ fld 0x0000010400002A31 32 32 = 0x104 := by decide

theorem test_witness_Doorbells :
    lit.fabricOn = true ∧ (!lit.queueOn 0xFFFFF) = true ∧ lit.doorbellHeld = false ∧ (queues 0 4).doorbellHeld = false
    ∧ (lit.hold (.doorbell 0 8 0)).doorbellHeld = true
    ∧ (let s := queues 0 4
       let x := s.ent 3
       let d (t : Nat) : Nat := (t + 2 ^ 32 - x.head) % 2 ^ 32
       (s.queueOn 3 && !s.entBad 3) = true ∧ fld (bell 3 17).toNat 0 20 = 3 ∧ fld (bell 3 17).toNat 32 32 = 17 ∧ x.type = 1 ∧ x.feed = false
         ∧ x.size < d 17 ∧ d 16 ≤ x.size ∧ x.held ≤ d 16 ∧ 0 < d 16 ∧ x.held ≤ d 4 ∧ d 3 < x.held
         ∧ (s.gate (.doorbell 63 8 (bell 3 16)) [(s.entAddr 3, 64)] [(s.entAddr 3, 64)]).isNone = true)
    ∧ ((queues 2 0).ent 3).feed = true
    ∧ (let s := queues 0 4
       let x := s.ent 5
       (s.queueOn 5 && !s.entBad 5) = true ∧ x.type = 2 ∧ x.held < 1 ∧ (0 + 2 ^ 32 - x.head) % 2 ^ 32 ≤ x.held
         ∧ (s.gate (.doorbell 0 8 (bell 5 0)) [(s.entAddr 5, 64)] [(s.entAddr 5, 64)]).isNone = true) := by decide
theorem test_doorbell : ((after (.doorbell 0 8 (bell 3 16)) (queues 0 4)).map fun t => ((t.ent 3).tail, t.qe.ready)) = some (16, [3]) := by decide
theorem test_doorbell_narrow : ((after (.doorbell 0 4 (bell 3 16)) (queues 0 4)).map fun t => ((t.ent 3).tail, t.qe.dbErr)) = some (4, 1) := by decide

theorem test_witness_QtbaseWrites :
    lit.fabricOn = true ∧ lit.qe.enabled = [] ∧ (0x4000000#64).toNat % 2 ^ 26 = 0 ∧ (0x2000000#64).toNat % 2 ^ 26 ≠ 0
    ∧ (queues 0 0).qe.enabled ≠ [] ∧ (pool lit []).fabricOn = true ∧ (pool lit []).se.openCount ≠ 0 := by decide

/-- 11 R217: a misaligned value never enters the register. -/
theorem test_qtbase_misaligned : ((after (.qtbaseWrite 0x2000000) lit).map fun t => (t.qe.qtbase, t.qe.state, t.qe.err)) = some (0, 3, 3) := by decide

theorem test_witness_QueueCommands :
    (let s := lit.write (qeEntry 0 3) (entry 1 0 4 2 0 0x4000 9 9 0) false
     s.fabricOn && s.qe.state != 1 && !s.queueOn 3 && !s.entBad 3 && entryOk (s.qEntry 3)
       && ((s.qeCmd 1 3).gate (.queueEnable 3) [(s.entAddr 3, 64)] []).isNone
       && ((s.qeCmd 1 3).gate (.queueEnable 3) [] [(s.entAddr 3, 64)]).isNone) = true
    ∧ (queues 0 0).queueOn 3 = true ∧ lit.queueOn 3 = false := by decide

theorem test_witness_Dispatching :
    (let s := queues 0 1
     let d := (s.arb 0).pick 0 ((List.range 16).filter fun k => !(s.readyOf k).isEmpty)
     let x := s.ent 3
     let a := x.slot x.head
     (s.unitsOn && !s.qeStopped && s.qe.host.isNone && !s.entBad 3) = true ∧ d.2 = some 2 ∧ s.pickQueue 2 = some 3 ∧ x.host = false
       ∧ (s.gate .dispatch [(s.entAddr 3, 64)] [(s.entAddr 3, 64)]).isNone = true ∧ (s.gate .dispatch [(a, 64)] []).isNone = true)
    ∧ (let s := queues 1 1
       s.cxlOn = true ∧ ((s.arb 0).pick 0 ((List.range 16).filter fun k => !(s.readyOf k).isEmpty)).2 = some 2 ∧ s.pickQueue 2 = some 3 ∧ (s.ent 3).host = true)
    ∧ (let s := queues 0 1
       s.cqOn (lrCq (lrec 1)) = true ∧ recordOk (lrec 1) = true ∧ recordOk (lrec 0) = false ∧ lit.cqOn (lrCq (lrec 1)) = false
         ∧ (∀ i ∈ maskList (lrMask (lrec 0x80000001)), s.strandIdle (fin32 i) = true)
         ∧ (s.setStrand 31 { run := .running }).strandIdle (fin32 31) = false) := by decide
theorem test_dispatch : ((after .dispatch (queues 0 1)).map fun t => ((t.strand 0).run, (t.ent 3).head, t.qe.ready, t.qe.launches.length))
    = some (.loading, 1, [], 1) := by decide

/-- A binary of one NOP word for strand 0 alone: 64 lanes, no parts and no slots, with the digest of its code. -/
def header : List Byte :=
  leBytes 4 0x3154434F ++ leBytes 2 1 ++ leBytes 2 0 ++ leBytes 4 8 ++ leBytes 4 0 ++ leBytes 8 1 ++ leBytes 8 0 ++ sha256 (List.replicate 8 0)
    ++ ([0, 0] ++ leBytes 2 64 ++ List.replicate 124 0) ++ List.replicate 384 0

/-- Strand 0 is loading the record's binary. -/
def loading (bin : List Byte) : State :=
  let s := (queues 0 0).write 0x10000 bin false
  let l : Launch := { launch0 with id := 1, lrec := lrec 1, accepted := false }
  { (s.setStrand 0 { run := .loading, launch := some ⟨1, lrec 1, [], 0⟩ }) with qe := { s.qe with launches := [l] }, nextId := 2 }

def loadingOk (s : State) : Bool :=
  let a := 0x10000
  let h := s.read a binHeader
  s.unitsOn && (s.strand 0).run == .loading && !(s.strand 0).disabled && s.awake 0 && (s.launchOf 1).any (fun l => !l.accepted && lrBin l.lrec == a)
    && a + binHeader + fieldLE h.1 8 4 ≤ 0xF000000000 && fieldLE h.1 8 4 ≤ 65536
    && (s.gate (.binaryLoad 0) [(a, binHeader)] []).isNone && (s.gate (.binaryLoad 0) [(a, binHeader + fieldLE h.1 8 4)] []).isNone

def refusalOf (s : State) : Nat :=
  let a := 0x10000
  let h := s.read a binHeader
  let c := s.read (a + binHeader) (fieldLE h.1 8 4)
  (s.launchOf 1).elim 99 fun l => (s.readMark a (binHeader + fieldLE h.1 8 4)).refusal (s.waitingIn l) h.1 c.1 (h.2 || c.2)

theorem test_witness_BinaryLoading :
    loadingOk (loading header) = true ∧ refusalOf (loading header) = 0 ∧ loadingOk (loading []) = true ∧ refusalOf (loading []) = 2 := by
  decide +kernel

theorem test_witness_RecordsWritten :
    (let r : CRec := { cq := 5, tag := 7, status := 0, sqid := 3, sqhead := 1, reason := 0, faultFn := 0xFF, faultKind := 0, faultPc := 0,
                       digest := none, digestFailed := false, sign := none }
     let s := { queues 0 0 with qe := { (queues 0 0).qe with records := [r] } }
     let x := s.ent 5
     s.qe.records.find? (fun r => r.cq == 5) = some r ∧ (s.unitsOn && !s.qeStopped && s.qe.host.isNone && s.cqOn 5 && !s.entBad 5 && x.held < x.size && !x.host
       && (s.gate (.completionRecordWrite 5) [(s.entAddr 5, 64)] [(s.entAddr 5, 64)]).isNone
       && (s.gate (.completionRecordWrite 5) [] [(x.slot x.tail, x.recSize)]).isNone) = true)
    ∧ (let k := Wait.launchif 3 (lrec 2) false 1
       let s := queues 2 15 1 (wait0 k)
       let x := s.ent 3
       (s.strand 0).wait = k ∧ (s.going 0 && !s.qeStopped && s.qe.host.isNone && !s.entBad 3) = true
         ∧ (s.queueOn 3 && x.type == 1 && x.feed && x.held < x.size && !x.host
            && (s.gate (.launchifSubmit 0) [(s.entAddr 3, 64)] [(s.entAddr 3, 64)]).isNone
            && (s.gate (.launchifSubmit 0) [] [(x.slot x.tail, 64)]).isNone) = true
         ∧ (!(wait0 k).queueOn 3 || ((wait0 k).ent 3).type != 1 || !((wait0 k).ent 3).feed) = true) := by decide

def closedPool (st : Nat) : State :=
  let s := pool lit (dirBytes 32 false true)
  s.write 0 [BitVec.ofNat 8 st] false

theorem test_witness_SessionEngine :
    (lit.fabricOn = true ∧ lit.se.openCount = 0 ∧ lit.se.poolpages.toNat ≤ lit.se.free ∧ (pool lit []).se.openCount ≠ 0)
    ∧ (let e := { lit.se with poolpages := 2 }; e.openCount = 0 ∧ e.free < e.poolpages.toNat)
    ∧ (lit.fabricOn && lit.se.state != 1) = true ∧ (lit.seCmd 1 lit.se.session.toNat).seWaits .initpool = false ∧ lit.se.limit ≤ lit.se.free
    ∧ (let s := closedPool 0
       let e := s.sessEnt 0
       !e.bad && e.state == 0 && 1 ≤ e.nidx && e.nidx ≤ 65536 && e.dir % 64 == 0 && e.dir + 4 * e.nidx ≤ 0xF000000000
         && !(s.seCmd 2 0).seWaits (.openS 0) && ((s.seCmd 2 0).gate (.openS 0) [(e.addr, 64)] []).isNone
         && ((s.seCmd 2 0).gate (.openS 0) [] [(e.addr, 64), (e.dir, 4 * e.nidx)]).isNone) = true
    ∧ (let s := closedPool 1
       let e := s.sessEnt 0
       !e.bad && e.state == 1 && !(s.heldPages e).isEmpty && !(s.heldPages e).any (fun d => !d.spilled && s.se.pins.any fun p => p.page == d.loc)
         && !(s.seCmd 3 0).seWaits (.closeS 0) && ((s.seCmd 3 0).gate (.closeS 0) [(e.addr, 64)] []).isNone
         && ((s.seCmd 3 0).gate (.closeS 0) [(e.dir, 4 * e.nidx)] []).isNone
         && ((s.seCmd 3 0).gate (.closeS 0) [] [(e.addr, 64)]).isNone) = true := by decide

/-! ### Power, functions and arbiters -/

def withPwr (p : Pwr) (s : State := lit) : State := s.setPwr 0 p

theorem test_witness_RegionPower :
    lit.fabricOn = true
    ∧ ((withPwr { busy := true }).region 0).busy = true
    ∧ (let p := lit.region 0; p.busy = false ∧ p.selfref = p.selfrefStat ∧ p.defect = false ∧ lit.regionIdle 0 = true ∧ p.state = 0)
    ∧ ((withPwr { state := 4, defect := true }).region 0).defect = true ∧ (at0 strand0).regionIdle 0 = false
    ∧ (lit.unitsOn = true ∧ ((withPwr { state := 4, busy := true, goal := 0 }).region 0).goal = 0)
    ∧ (lit.power.bistState ≠ 1 ∧ (lit.regionIdle 7 && !lit.sleeping 7) = true ∧ lit.channelUsed 255 = true ∧ State.reset.channelUsed 255 = false)
    ∧ (let s := withPwr { state := 0, bist := true } { lit with power := { lit.power with bistState := 1, bistChannel := some 255 } }
       s.unitsOn = true ∧ (s.region 0).bist = true ∧ s.power.bistState = 1 ∧ s.power.bistChannel = some 255)
    ∧ (let h := hottest (List.replicate 16 0x5E)
       lit.chipOn = true ∧ h.1 < lit.power.tjWarn.toNat ∧ h.1 < lit.power.tjCrit.toNat ∧ lit.power.warnHeld = false)
    ∧ (let h := hottest (List.replicate 15 0 ++ [0x6E]); lit.power.tjCrit.toNat ≤ h.1 ∧ lit.power.emergency = false ∧ h.2 = 15) := by decide
theorem test_ps1_starts : ((after (.setPs1 0) lit).map fun t => ((t.region 0).busy, (t.region 0).goal, (t.region 0).state)) = some (true, 1, 0) := by decide
theorem test_ps3_needs_idle : ((after (.setPs3 0) (at0 strand0)).map fun t => ((t.region 0).busy, (t.region 0).err)) = some (false, 1) := by decide
theorem test_sleep_ends : ((after (.powerTransitionComplete 0) (withPwr { state := 4, busy := true, goal := 2 })).map fun t =>
    ((t.region 0).busy, (t.region 0).state)) = some (false, 2) := by decide

theorem test_witness_FunctionCommands :
    (lit.hostOn && lit.func.state != 1) = true ∧ fnOf 0x1F = some (.strand 31) ∧ fnOf 0x20 = some (.engine 0)
    ∧ lit.fnRefusal .reset 0x1F = 0 ∧ lit.fnRefusal .disable 0xBF = 0 ∧ lit.fnRefusal .enable 0 = 3
    ∧ (lit.setStrand 0 { disabled := true }).fnRefusal .enable 0 = 0 ∧ State.reset.fnRefusal .reset 0 = 4
    ∧ fnOf 0x4C = none ∧ fnOf 0xFF = none ∧ lit.fnRefusal .reset 0x68 = 2 ∧ lit.resetAsk (.engine 31) = none
    ∧ (withPart { queue := [item1] }).atBoundary (.strand 0) = false
    ∧ (let s := lit.setFunc 1 0 5 none false
       (s.unitsOn && s.func.state == 1) = true ∧ fnOf s.func.fid.toNat = some (.strand 5) ∧ s.func.resetting = none)
    ∧ (let s := lit.setFunc 1 0 0x20 (some 0x20) false
       s.func.resetting = some 0x20 ∧ s.func.due = false ∧ s.writesSettled (.engine 0) = true) := by decide

theorem test_witness_StrandReset :
    (let s := at0 { strand0 with run := .faulted }
     (s.hostOn && s.func.state != 1) = true ∧ s.fnRefusal .reset 0 = 0 ∧ s.atBoundary (.strand 0) = true)
    ∧ ((withPart { closed := [closed1] }).part 0 0).owner = some 0 ∧ (lit.hostOn && lit.func.state != 1) = true
    ∧ lit.fnRefusal .reset 31 = 0 ∧ lit.atBoundary (.strand 31) = true := by decide
/-- R85: the group sums and sets of a part go with its strand's reset. -/
theorem test_reset_clears_part : ((after (.funcReset 0) ((withPart { closed := [closed1], live := { rows := cells1, item := some item1 } }).modStrand 0
    fun x => { x with run := .faulted })).map fun t => t.part 0 0) = some {} := by decide +kernel
theorem test_strand_reset : ((after (.funcReset 0) (at0 { strandN with run := .faulted })).map fun t => t.strand 0) = some {} := by decide

/-- A library of one entry (16 Table 16.9). -/
def library : List Byte :=
  leBytes 4 0x42494C56 ++ leBytes 2 1 ++ List.replicate 58 0 ++ leBytes 4 0x80 ++ List.replicate 60 0 ++ image

theorem test_library : (match ({ library := library } : Nvm).libImage 0 with | .ok img => img == image | .error _ => false) = true := by decide +kernel

theorem test_witness_VsuAndDigestRegisters :
    (lit.fabricOn = true ∧ lit.sleeping 0 = false ∧ (lit.vsu 0).libState ≠ 1 ∧ lit.libRefusal 0 16 false = 0 ∧ lit.libRefusal 0 16 true = 0)
    ∧ (let s := (onSlot 0 {}).setVsu 0 { (({} : Vsu)) with libState := 1, libJob := some (16, 0, true) }
       (s.vsu 0).libJob = some (16, 0, true) ∧ (s.unitsOn && s.mcOn && (s.vsu 0).libState == 1) = true)
    ∧ lit.hostOn = true := by decide

/-- 12 Table 12.3: counters of engines 0 and 1 and of scrub, and who wins. -/
theorem test_credit_period :
    ([(96, 32, 8, 0), (32, 32, 8, 0), (28, 32, 8, 1), (8, 8, 8, 0), (4, 8, 8, 1), (4, 4, 8, 8), (4, 4, 0, 0), (0, 4, 0, 1)].all
      fun (c : Nat × Nat × Nat × Nat) => bestOf [c.1, c.2.1, 0, 0, 0, 0, 0, 0, c.2.2.1, 0] [0, 1, 8] == some c.2.2.2) = true := by decide

def reqA (i : Fin 32) (lock : Bool) : ArbReq := { index := i, cost := 1, lock := lock, owner := 0, addr := 0x1000, len := 64 }
def owned (a : ArbId) (r : ArbReq) : State :=
  let x := lit.arb a.val
  lit.setArb a.val (x.setPoint 11 { x.point 11 with owner := some r })

/-- 12 Table 12.3, the gap hints of its second decision: a requester at 8 behind two at 32 has E = 48 and h = 6. -/
theorem test_gap_hints : gapHints [32, 32, 0, 0, 0, 0, 0, 0, 8, 0] [0, 1, 8] = [(0, 0), (1, 0), (8, 6)] := by decide

theorem test_witness_Arbiters :
    (let x := lit.arb 14
     let live := [reqA 9 false, reqA 10 false].filter fun r => r.index.val < requesters 14
     lit.chipOn = true ∧ (11 : Fin 12).val < points 14 ∧ (x.point 11).owner = none
       ∧ (x.decide 11 (live.map fun r => r.index.val).eraseDups).2 = some 9 ∧ live.find? (fun r => r.index.val == 9) = some (reqA 9 false))
    ∧ (let s := owned 14 (reqA 0 true)
       (((s.arb 14).point 11).owner = some (reqA 0 true)) ∧ [reqA 0 true].find? (fun r => r.index == 0) = some (reqA 0 true)
         ∧ s.unitsOn = true ∧ ownerOf 14 (reqA 0 true) = .fn (.engine 0))
    ∧ ((lit.arb 14).point 11).owner.filter (·.lock) = none ∧ ownerOf 14 (reqA 8 false) = .scrub ∧ ownerOf 14 (reqA 9 false) = .coherence
    ∧ ownerOf 14 (reqA 5 false) = .fn (.strand 0) ∧ ownerOf 14 { reqA 5 false with owner := 0xFF } = .inbound
    ∧ ownerOf 2 (reqA 19 false) = .forwarded 11 ∧ ownerOf 1 (reqA 11 false) = .mc
    ∧ (((owned 21 (reqA 6 false)).arb 21).point 11).owner = some (reqA 6 false) ∧ ownerOf 21 (reqA 6 false) = .host
    ∧ lit.hostOn = true ∧ ({ lit.arb 0 with pending := true } : Arb).pending = true := by decide

/-! ### Col -/

def onPort (x : Port) : State := lit.setPort 0 x
def up0 : Port := { state := .up }
def flit0 : Flit := { ctrl := false, tc := 0, vc := 0, ttl := 1, dst := 0, src := 1, sport := 0, esc := false, payload := [] }

theorem test_witness_ColPorts :
    (lit.hostOn = true ∧ (lit.port 0).state = .disabled ∧ lit.errlog.fatal = false ∧ lit.board.chipBistLeft = false)
    ∧ ((onPort up0).port 0).state = .up ∧ ((onPort up0).port 0).lpi = false ∧ ((onPort up0).port 0).usable = true
    ∧ ((onPort { up0 with lpi := true }).port 0).lpi = true ∧ ((onPort { up0 with lpi := true }).port 0).retry = []
    ∧ ((onPort { up0 with state := .lpi }).port 0).state = .lpi ∧ lit.chipOn = true ∧ lit.unitsOn = true
    ∧ ((onPort { up0 with state := .down }).port 0).state = .down
    ∧ (let x := (onPort { up0 with state := .training }).port 0; x.state = .training ∧ x.retraining = false)
    ∧ (let x := (onPort { up0 with state := .training, retraining := true, failed := 1 }).port 0
       x.state = .training ∧ x.retraining = true ∧ x.failed < 2)
    ∧ (let x := (onPort { up0 with state := .training, retraining := true, failed := 2 }).port 0; 2 ≤ x.failed) ∧ up0.waiting = [] ∧ up0.discarding = false := by decide

/-- A data flit of 256 bytes that this module's sender makes, as its partner would see it. -/
def bytes0 (seq : Nat) : List Byte := flitBytes flit0 seq 1023

theorem test_witness_ColFlits :
    (let s := onPort up0
     let a := arriving 0 (bytes0 0) false
     let b := arriving 0 (bytes0 5) false
     let y := ((s.onAck 0 a).port 0)
     (bytes0 0).length = 256 ∧ s.unitsOn = true ∧ a.bad = false ∧ (a.kind = 1 ∨ a.kind = 2) ∧ a.seq = y.expSeq ∧ b.bad = false ∧ b.seq ≠ y.expSeq
       ∧ (arriving 0 (bytes0 0) true).bad = true
       ∧ ((arriving 0 (bytes0 0) true).kind = 1 ∨ (arriving 0 (bytes0 0) true).kind = 2))
    ∧ (let a := arriving 0 (idleBytes false 1023) false
       let b := arriving 0 (idleBytes true 0) true
       (idleBytes false 1023).length = 256 ∧ a.bad = false ∧ ¬(a.kind = 1 ∨ a.kind = 2) ∧ b.bad = true ∧ ¬(b.kind = 1 ∨ b.kind = 2))
    ∧ up0.discarding = false ∧ lit.chipOn = true ∧ ({ up0 with discarding := true } : Port).discarding = true
    ∧ 16 ≤ ({ up0 with nakCount := 16 } : Port).nakCount := by decide +kernel

/-- R282: on a disabled port a flit for another module waits, and is discarded or sent on at FUNC_ENABLE. -/
theorem test_parked : ((lit.modPort 0 fun _ => { up0 with disabledFn := true }).takeFlit 0 { flit0 with dst := 9 } |>.port 0).parked.length = 1
    ∧ (((lit.modPort 0 fun _ => { up0 with disabledFn := true }).takeFlit 0 { flit0 with dst := 9 }).enableFn (.port 0) |>.port 0).parked = [] := by
  decide +kernel

def msg (tag addr : Nat) (data : List Byte) (off blen : Nat) : ColMsg :=
  { mtype := mtWrite, poison := 0, lenm1 := data.length - 1, tag := tag, addr := addr, offset := off, blenm1 := blen - 1, cause := 0, data := data }

theorem test_witness_ColMessages :
    lit.unitsOn = true ∧ lit.colHeld 3 = false
    ∧ (let m := msg 1 0x1000 [1, 2, 3, 4] 0 4
       let b (atom : Bool) : Assembly := (newBurst 3 m atom).add m
       (b false).complete = true ∧ lit.engReach (b false).addr (b false).len = true
         ∧ (lit.gateWith true (.write 3 m) [] [((b false).addr, (b false).len)]).isNone = true ∧ (b true).atom = true
         ∧ (lit.gateWith true (.atomadd 3 m) [((b true).addr, (b true).len)] [((b true).addr, (b true).len)]).isNone = true)
    ∧ ((newBurst 3 (msg 1 0x1000 [1] 0 4) false).add (msg 1 0x1000 [1] 0 4)).complete = false
    ∧ lit.engReach 0x40000000 4 = false
    ∧ (let x := lit.setEngine 0 { peers := [⟨3, 5, 0x1000, 4, true⟩] }
       (x.engine 0).peers.any (fun p => p.tag == 5 && p.dst == 3) = true ∧ tagEngine 5 = 0)
    ∧ (let s := { lit with col := { lit.col with bursts := [newBurst 3 (msg 1 0x1000 [1] 0 4) false] } }
       (s.burstSoFar 3 1).any (fun b => !b.complete) = true)
    ∧ ((lit.hold (.write 3 (msg 1 0x1000 [1] 0 4))).burstSoFar 3 1).any (fun b => !b.complete) = true := by decide
/-- R271: the fragments that wait at the gate go with the burst. -/
theorem test_burst_timeout : ((after (.burstAssemblyTimeout 3 1) (lit.hold (.write 3 (msg 1 0x1000 [1] 0 4)))).map fun t =>
    (t.coh.held, t.errlog.ring.length)) = some ([], 1) := by decide +kernel
theorem test_write_message : ((after (.write 3 (msg 1 0x1000 [1, 2, 3, 4] 0 4)) lit).map fun t => memGetN t.mem 0x1000 4) = some [1, 2, 3, 4] := by
  decide +kernel

theorem test_witness_Commits :
    lit.hostOn = true ∧ ((at0 strand0).strands.toList.any fun x => x.run == .loading || x.run == .running) = true
    ∧ ((lit.strands.toList.any fun x => x.run == .loading || x.run == .running) || !profileOk lit.mgt.profileShadow) = false
    ∧ ∀ p : PortId, (lit.port p).state ≠ .up := by decide

/-! ### The host interface -/

/-- The decoder holds the device's 960 GiB at 0x2000000000; line 64 of the device is cached as given. -/
def hostS (sf : List SfEntry) (snps : List Snp := []) : State :=
  let h : Hdm := { committed := true, base := 0x2000000000, size := 0xF000000000, ways := 1, bi := true }
  { lit with host := { lit.host with hdm := h }, coh := { lit.coh with sf := sf, snps := snps } }

theorem test_witness_HostMemory :
    (let s := hostS []
     let o := 0x1010
     s.memOn = true ∧ s.hdmOffset (0x2000000000 + o) = some o ∧ s.errlog.fatal = false ∧ s.offline (64 * (o / 64)) = false
       ∧ (s.hostGate (.memrd (0x2000000000 + o) .any .clean) (o / 64) .any false).isNone = true
       ∧ (s.hostGate (.memrddata (0x2000000000 + o) .shared .clean) (o / 64) .shared false).isNone = true
       ∧ (s.hostGate (.memwr (0x2000000000 + o) .inv 0 [] ⟨false, []⟩) (o / 64) .inv (s.writeBack (o / 64) .inv)).isNone = true
       ∧ s.snooped (o / 64) = false ∧ (List.replicate 64 (0 : Byte)).length = 64)
    ∧ (let s := hostS ((List.range 16).map fun i => ⟨524288 * i, true⟩)
       let l := 524288 * 16
       s.sfHas l = false ∧ s.snooped l = false ∧ s.lineDown l = false ∧ s.evicting l = false ∧ s.sfFull l = true
         ∧ (s.evictFor l).evicting l = true ∧ (s.evictFor l).sfHas l = false ∧ (s.evictFor l).snooped l = false)
    ∧ (hostS []).hdmOffset 0x1FFFFFFFFF = none ∧ (hostS []).hdmOffset (0x2000000000 + 0xF000000000) = none := by decide
/-- R300: poison in a write is set in the CXL RAS status. -/
theorem test_poisoned_write : ((after (.memwr 0x2000001000 .inv 0xFFFFFFFFFFFFFFFF (List.replicate 64 1) ⟨true, []⟩) (hostS [])).map fun t =>
    (t.errlog.rasCe, (t.read 0x1000 4).2)) = some (0x20, true) := by decide
/-- R207: a store brings an upset into a word; the host's read finds it, poisoned and counted once. -/
theorem test_upset_found : (((after (.memrd 0x2000001000 .any .clean) ((hostS []).strike [(0x1000, .uncorrected)])).bind
    (after (.memrd 0x2000001000 .any .clean))).map fun t => (t.struck, t.out.map (fun o => match o with | .hostData _ bad => bad | _ => false)))
    = some ([], [true, true]) := by decide
theorem test_memwr_enables : ((after (.memwr 0x2000001000 .any 0x5 (List.replicate 64 0xAA) ⟨false, []⟩) (hostS [])).map fun t =>
    (memGetN t.mem 0x1000 4, t.coh.sf)) = some ([0xAA, 0, 0xAA, 0], [⟨64, true⟩]) := by decide

theorem test_witness_CoherenceAnswers :
    (let s := hostS [⟨64, true⟩] [⟨64, 4, true, false⟩]
     s.chipOn = true ∧ s.memOn = true ∧ s.cxlOn = true ∧ s.coh.snps.find? (fun q => q.line == 64) = some ⟨64, 4, true, false⟩ ∧ s.snooped 67 = true ∧ s.coh.snps.any (fun q => q.line == 64) = true
       ∧ s.errlog.fatal = false) := by decide
theorem test_witness_CoherenceAnswers_d2h :
    (let s := { lit with host := { lit.host with d2h := [(.engine 0, true, 0x100, 4), (.engine 0, false, 0x200, 4)] } }
     (s.d2hOldest (.engine 0) true = some (.engine 0, true, 0x100, 4)) ∧ s.d2hOldest (.engine 0) false = some (.engine 0, false, 0x200, 4)
       ∧ s.host.d2h.find? (fun x => x.1 == D2HAgent.engine 0) = some (.engine 0, true, 0x100, 4) ∧ (s.engine 0).faulting = false)
    ∧ (let s := { queues 1 1 with host := { lit.host with d2h := [(.qe, true, 0x4000, 64)] } }
       let s := { s with qe := { s.qe with host := some (.readRec 3) } }
       s.d2hOldest .qe true = some (.qe, true, 0x4000, 64) ∧ s.qe.host = some (.readRec 3) ∧ (lrec 1).length = 64
         ∧ (s.gate (.d2hCompletion .qe true (lrec 1) false) [(s.entAddr 3, 64)] [(s.entAddr 3, 64)]).isNone = true) := by decide

theorem test_witness_seNext :
    (QeHost.readRec 3).queue = some 3 ∧ QeHost.dropped.queue = none ∧ lit.seBusy = false
    ∧ ({ lit with se := { lit.se with spilling := some ⟨0, 0, none⟩ } } : State).seBusy = true := by decide

theorem test_witness_HostWindows :
    lit.chipOn = true ∧ ({ lit.host with d3hot := true } : HostIf).d3hot = true ∧ lit.host.d3hot = false
    ∧ State.reset.bar2Asleep 0x33FFFFF = true ∧ (State.reset.region 0).state ≠ 3 ∧ lit.bar2Asleep 0x33FFFFF = false ∧ State.reset.bar2Asleep 0x3400000 = false
    ∧ bar2Addr 0x33FFFFF = some (basinBase 0 + 0x3FFFFF) ∧ (lit.host.hdm.committed && lit.host.hdm.lock) = false
    ∧ (let h : Hdm := { committed := true, lock := true }; (h.committed && h.lock) = true) := by decide

theorem test_witness_ManagementAnswers :
    lit.chipOn = true ∧ lit.mcOn = true ∧ (0x3FFFFF8 % 8 = 0) ∧ (busAlways 0x30000 || (lit.board.mainPg && busMain 0x30000)) = true
    ∧ (busAlways 0x3FFFFF8 || (lit.board.mainPg && busMain 0x3FFFFF8)) = false ∧ lit.board.aux = true ∧ lit.board.busAddr = none
    ∧ lit.host.doe = none ∧ ({ lit.host with doe := some (.cdat 5) } : HostIf).doe ≠ none ∧ lit.pending = [] ∧ lit.host.flr = false
    ∧ lit.seIdle = false ∧ lit.board.ownAddr = 0x4C ∧ (0x4D : BitVec 7) ≠ lit.board.ownAddr ∧ (0 : Byte) ≠ pecOf [0x98, 0x11]
    ∧ lit.col.filling = [] ∧ lit.col.loop = [] ∧ lit.nvm.copying = false
    ∧ fieldLE [0x13, 0x84, 0, 0] 1 1 = 0x84 ∧ fieldLE [0x13, 0xE0, 0, 0] 1 1 = 0xE0 ∧ fieldLE [0x13, 0x82, 7, 0] 1 1 = 0x82
    ∧ lit.board.mainPg = true ∧ lit.board.perst = false ∧ ({ lit.board with perst := true } : Board).perst = true := by decide
/-- A discovery of entry 0 is answered by itself, with entry 1 to follow; a request behind it gets DOE Busy. -/
theorem test_doe_discovery : ((after (.doeDiscovery 0) lit).bind (after (.cdatRead 0))).map (fun t => ((t.doeServe).out, t.host.doe.isSome))
    = some ([.doe (.protocol (some .discovery) (some 1)), .doe .busy], true) := by decide

/-! ### Resets, start-up, management -/

/-- PERST# is asserted. -/
def inReset : State := lit.setBoard { lit.board with perst := true }

theorem test_witness_Resets :
    lit.board.perst = false ∧ inReset.board.perst = true ∧ inReset.board.stopped = false
    ∧ (inReset.board.aux && inReset.board.mcRdy && inReset.board.mainPg) = true ∧ lit.nvm.work = .none
    ∧ (let b := { inReset.board with mcRdy := false }; (b.aux && b.mcRdy && b.mainPg) = false)
    ∧ lit.unitsOn = true ∧ lit.host.cxlReset = none ∧ ({ lit.host with cxlReset := some true } : HostIf).cxlReset = some true
    ∧ (∃ p ∈ lit.segs, p.2.online = true) ∧ (∀ n ∈ lit.onlineSegs, lit.segChannelsUp n = true ∧ lit.segFree n = true) ∧ lit.nvm.copying = false ∧ lit.allAtBoundary = true
    ∧ (withPart { queue := [item1] }).allAtBoundary = false ∧ ({ lit.host with flr := true } : HostIf).flr = true ∧ lit.pending = [] := by
  decide +kernel
/-- R305: an FLR waits for what a strand has issued. -/
theorem test_flr_waits : ((after .flr (withPart { queue := [item1] })).map fun t => (t.host.flr, t.jobs.length)) = some (true, 1) := by decide
theorem test_perst : ((after .perstAssert (at0 strandN)).map fun t => ((t.strand 0).run, t.board.perst, t.chipOn)) = some (.idle, true, false) := by decide
theorem test_flr_keeps_decoder : ((after .flr (hostS [⟨64, true⟩])).map fun t => (t.host.hdm.committed, t.coh.sf.length)) = some (true, 1) := by decide

theorem test_witness_StartUp :
    lit.board.mainPower = true ∧ lit.board.aux = true ∧ ({ lit.board with aux := false } : Board).aux = false
    ∧ ({ lit.board with mcRdy := false } : Board).mcRdy = false ∧ (lit.nvm.putBoot { trial := true }).boot.trial = true
    ∧ lit.nvm.boot0.seq < 2 ^ 32 ∧ lit.nvm.boot1.seq < 2 ^ 32 ∧ ({ lit.nvm with copying := true } : Nvm).copying = true
    ∧ lit.pending = [] ∧ lit.host.flr = false ∧ lit.col.filling = [] ∧ lit.col.loop = [] ∧ lit.host.doe = none ∧ lit.mcOn = true
    ∧ lit.seIdle = false ∧ lit.nvm.confirm.beginCopy.copying = false
    ∧ ({ lit.nvm with bankA := List.replicate 0x14 0 ++ [1, 0, 0, 0] ++ List.replicate 72 7 } : Nvm).confirm.beginCopy.copying = true
    ∧ lit.unitsOn = true ∧ ({ lit.board with trained := false } : Board).trained = false ∧ lit.board.chipBistLeft = false ∧ lit.board.bistLeft = []
    ∧ (let s := { lit with board := { lit.board with toOnline := [959] } }
       s.unitsOn = true ∧ s.board.toOnline = 959 :: [] ∧ s.board.trained = true ∧ (s.framesFor (s.seg 959)).isSome = true ∧ s.segFree 959 = true
         ∧ (s.framesFor (s.seg 959)).any (fun fs => (s.setSeg 959 ((s.seg 959).commit fs)).segChannelsUp 959) = true
         ∧ (let s := s.setMc 0 { s.mc 0 with disabled := true }
            (s.framesFor (s.seg 959)).any (fun fs => !(s.setSeg 959 ((s.seg 959).commit fs)).segChannelsUp 959) = true)) := by decide +kernel

theorem test_witness_Segments :
    (lit.fabricOn && lit.board.memActive) = true ∧ lit.mgt.segState ≠ 1 ∧ (959 : Nat) < 960 ∧ (lit.seg 959).online = false
    ∧ (lit.framesFor (lit.seg 959)).isSome = true ∧ (lit.seg 0).online = true
    ∧ (let s := lit.segStat 1 0 (some (0, false))
       s.mgt.segState = 1 ∧ s.mgt.segWork = some (0, false) ∧ s.segQuiet 0 = true)
    ∧ (let s := (lit.setSeg 959 { frames := [1] }).segStat 1 0 (some (959, true))
       s.mgt.segWork = some (959, true)
         ∧ (s.segChannelsUp 959 && s.segFree 959) = true) := by decide +kernel
theorem test_witness_NvmCommands :
    (lit.hostOn && lit.mcOn && lit.nvm.state != 1) = true ∧ lit.mcOn = true
    ∧ (let n := { lit.nvm with state := 1, work := NvsWork.store [] }; n.state = 1 ∧ n.work = .store [] ∧ n.flash = .good)
    ∧ (let n := { lit.nvm with state := 1, work := NvsWork.compact, flash := .worn }; n.work = .compact ∧ n.flash = .worn)
    ∧ (let s := lit.setNvm { lit.nvm with state := 1, work := .update 0x1000 0x100, flash := .mismatch }
       s.nvm.flash = .mismatch ∧ s.nvm.work = .update 0x1000 0x100 ∧ 0x1000 % 64 = 0 ∧ s.unitsOn = true ∧ (s.gate .nvsCommandComplete [(0x1000, 0x100)] []).isNone = true
         ∧ (s.read 0x1000 0x100).2 = false ∧ s.nvm.boot0.seq < 2 ^ 32 ∧ s.nvm.boot1.seq < 2 ^ 32) := by decide

theorem test_witness_BackgroundWork :
    lit.channelRuns 255 = true ∧ lit.scrubStruck 255 1 = [] ∧ lit.unitsOn = true ∧ lit.asleep 7 = false ∧ lit.mcOn = true ∧ lit.board.mainPg = true
    ∧ ({ lit.board with mainPg := false } : Board).mainPg = false := by decide
theorem test_scrub_poisons_once : ((after (.patrolScrub 0 [(31, .uncorrected)] []) lit).map fun t => (t.mc 0).ue) = some 1 := by decide

theorem test_witness_RegisterWrites :
    lit.chipOn = true ∧ lit.host.d3hot = false ∧ lit.errlog.fatal = false ∧ (0x3FFFFFC + 4 ≤ 0x4000000) ∧ 4 % 8 ≠ 0 ∧ (0x3FFFFF8 % 8 = 0 ∧ 0x3FFFFF8 + 8 ≤ 0x4000000)
    ∧ (0x50000 : Nat) = 0x50000 + 8 * (0 : StrandId).val ∧ (0x601F8 : Nat) = 0x60000 + 8 * (63 : Fin 64).val ∧ 6 % 4 ≠ 0
    ∧ thermLimOk 0 0 = false ∧ ({ lit.errlog with fatal := true } : ErrLog).fatal = true := by decide

/-- 18 R353: a read of 4 bytes completes, and one that is not aligned is an Unsupported Request. -/
theorem test_bar0_read :
    ((after (.registerWrite .bar0Read 0x10090 4 0) lit).map (·.out)) = some [.hostData [0x5F, 0x6E, 0, 0] false]
    ∧ ((after (.registerWrite .bar0Read 0x10092 4 0) lit).map fun t => (t.out, t.errlog.aerUe)) = some ([.unsupported], 0x100000) := by decide

/-- The check value of CRC-8 with polynomial 0x07. -/
theorem test_pec : pecOf [0x31, 0x32, 0x33, 0x34, 0x35, 0x36, 0x37, 0x38, 0x39] = 0xF4 := by decide
theorem test_setdasa_other_target : ((after (.setdasa ⟨0x4D, 0x10⟩) lit).map (·.board.busAddr)) = some none := by decide

/-- 15 Table 15.11: the limits at reset. -/
theorem test_reset_limits : State.reset.readWord 0x10090 = 0x6E5F := by decide

theorem test_witness_FatalStopsUnits :
    ({ lit.errlog with fatal := true } : ErrLog).fatal = true ∧ (Instr.add 0 0).opcode.isSome = true ∧ (Instr.setx 0 0).stagingStep.isSome = true := by decide

theorem test_witness_StepKeepsMemoryCanonical :
    Memory.wf State.reset.mem = true ∧ step { lit with pending := [.refresh 0 0] } = .next lit ∧ resets (.refresh 0 0) = false :=
  ⟨by decide, rfl, rfl⟩
theorem test_witness_StepKeepsHardwired :
    State.reset.hardwired ∧ step { State.reset with pending := [.refresh 0 0] } = .next State.reset := ⟨reset_reg, rfl⟩

def fatalS : State := { lit with errlog := { lit.errlog with fatal := true }, pending := [.refresh 0 0] }

theorem test_witness_FatalIsFinal :
    fatalS.errlog.fatal = true ∧ (∀ c rest, fatalS.pending = c :: rest → resets c = false)
    ∧ step fatalS = .next { fatalS with pending := [] } :=
  ⟨rfl, fun c rest h => by cases h; rfl, rfl⟩
end Sys2Proof.Tests
end

section
/-!
PROOFS. Accesses of the host to BAR0 (00 R5 to R7; 18 R353, R354): which are served, and what a write of a word does.
-/
namespace Sys2Proof.Machine

open Sys2Proof

@[simp] theorem fin32_val (n : Fin 32) : fin32 n.val = n := Fin.ext (Nat.mod_eq_of_lt n.isLt)
@[simp] theorem fin64_val (n : Fin 64) : fin64 n.val = n := Fin.ext (Nat.mod_eq_of_lt n.isLt)

/-! ### The rows that take eight bytes whole always complete -/

/-- What a row leaves is its next state when it completes. -/
theorem State.next_run (s : State) (f : State → Out1) (h : ∃ t, f s = .next t) : .next (s.run f) = f s := by
  obtain ⟨t, h⟩ := h
  rw [State.run, h]; rfl

theorem State.noBar0_completes (s : State) : ∃ t, s.noBar0 = .next t := ⟨_, rfl⟩

theorem execMbxH2sWrite_completes (n : StrandId) (h : Half) (v : Word64) (s : State) :
    ∃ t, execMbxH2sWrite n h v s = .next t := by
  unfold execMbxH2sWrite
  split
  · exact s.noBar0_completes
  · cases h with
    | lower => exact ⟨_, rfl⟩
    | whole | upper => dsimp only; split <;> exact ⟨_, rfl⟩

theorem execMbxH2mcWrite_completes (h : Half) (v : Word64) (s : State) : ∃ t, execMbxH2mcWrite h v s = .next t := by
  unfold execMbxH2mcWrite
  split
  · exact s.noBar0_completes
  · cases h <;> exact ⟨_, rfl⟩

theorem execQtbaseWrite_completes (v : Word64) (s : State) : ∃ t, execQtbaseWrite v s = .next t := by
  unfold execQtbaseWrite
  split
  · exact s.noBar0_completes
  · split
    · exact ⟨_, rfl⟩
    · split <;> exact ⟨_, rfl⟩

theorem execDoorbell_completes (i : Fin 64) (bytes : Nat) (v : Word64) (s : State) :
    ∃ t, execDoorbell i bytes v s = .next t := by
  unfold execDoorbell
  split
  · exact s.noBar0_completes
  · split
    · exact ⟨_, rfl⟩
    · split
      · exact ⟨_, rfl⟩
      · dsimp only
        split
        · exact ⟨_, rfl⟩
        · split <;> exact ⟨_, rfl⟩

/-! ### Which accesses are served (R353, R286) -/

theorem State.bar0Ok_iff (s : State) (off bytes : Nat) : s.bar0Ok off bytes = true ↔
    s.host.d3hot = false ∧ (bytes = 4 ∨ bytes = 8) ∧ off % bytes = 0 ∧ off + bytes ≤ 0x4000000 := by
  simp [State.bar0Ok, and_assoc]

theorem exec_registerWrite (sp : RegSpace) (off bytes : Nat) (v : Word64) (s : State) :
    exec (.registerWrite sp off bytes v) s = execRegisterWrite sp off bytes v s := rfl

theorem exec_bar0_write4 (s : State) (off : Nat) (v : Word64) (hc : s.chipOn = true) (hk : s.bar0Ok off 4 = true) :
    exec (.registerWrite .bar0 off 4 v) s = .next (s.writeWord off (v.toNat % 2 ^ 32)) := by
  simp [exec_registerWrite, execRegisterWrite, hc, hk]

theorem exec_bar0_write8 (s : State) (off : Nat) (v : Word64) (hc : s.chipOn = true) (hk : s.bar0Ok off 8 = true) :
    exec (.registerWrite .bar0 off 8 v) s = .next (s.writeWord64 off v) := by
  simp [exec_registerWrite, execRegisterWrite, hc, hk]

theorem exec_bar0_read (s : State) (off bytes : Nat) (v : Word64) (hc : s.chipOn = true)
    (hk : s.bar0Ok off bytes = true) : exec (.registerWrite .bar0Read off bytes v) s = .next (s.readBar0 off bytes) := by
  simp [exec_registerWrite, execRegisterWrite, hc, hk]

/-- Every other access of BAR0 is an Unsupported Request. -/
theorem exec_bar0_refused (s : State) (sp : RegSpace) (off bytes : Nat) (v : Word64)
    (hsp : sp ∈ [RegSpace.bar0, .bar0Read]) (hc : s.chipOn = true) (hk : s.bar0Ok off bytes = false) :
    exec (.registerWrite sp off bytes v) s = .next s.refuse := by
  cases sp with
  | bar0 | bar0Read => simp [exec_registerWrite, execRegisterWrite, hc, hk]
  | msixControl => simp at hsp

/-! ### An 8-byte write, and a read -/

theorem State.writeWord64_words (s : State) (off : Nat) (v : Word64) (hf : s.errlog.fatal = false)
    (h2s : ¬(0x50000 ≤ off ∧ off < 0x50100)) (h2mc : off ≠ 0x50200) (hdb : ¬(0x60000 ≤ off ∧ off < 0x60200))
    (hqt : off ≠ 0x60400) :
    s.writeWord64 off v = (s.writeWord off (v.toNat % 2 ^ 32)).writeWord (off + 4) (v.toNat / 2 ^ 32) := by
  rw [State.writeWord64, hf, if_neg (by simp), if_neg h2s, if_neg h2mc, if_neg hdb, if_neg hqt]

theorem State.writeWord64_h2s (s : State) (n : StrandId) (v : Word64) (hf : s.errlog.fatal = false) :
    s.writeWord64 (0x50000 + 8 * n.val) v = s.run (execMbxH2sWrite n .whole v) := by
  have hn : (0x50000 + 8 * n.val - 0x50000) / 8 = n.val := by omega
  rw [State.writeWord64, hf, if_neg (by simp), if_pos (by omega), hn, fin32_val]

theorem State.writeWord64_h2mc (s : State) (v : Word64) (hf : s.errlog.fatal = false) :
    s.writeWord64 0x50200 v = s.run (execMbxH2mcWrite .whole v) := by
  simp [State.writeWord64, hf]

theorem State.writeWord64_doorbell (s : State) (i : Fin 64) (v : Word64) (hf : s.errlog.fatal = false) :
    s.writeWord64 (0x60000 + 8 * i.val) v = s.run (execDoorbell i 8 v) := by
  have hi : (0x60000 + 8 * i.val - 0x60000) / 8 = i.val := by omega
  rw [State.writeWord64, hf, if_neg (by simp), if_neg (by omega), if_neg (by omega), if_pos (by omega), hi, fin64_val]

theorem State.writeWord64_qtbase (s : State) (v : Word64) (hf : s.errlog.fatal = false) :
    s.writeWord64 0x60400 v = s.run (execQtbaseWrite v) := by
  simp [State.writeWord64, hf]

/-- An 8-byte write that a rule takes whole is the row of that rule. -/
theorem exec_bar0_write8_row (s : State) (off : Nat) (v : Word64) (f : State → Out1) (hc : s.chipOn = true)
    (hk : s.bar0Ok off 8 = true) (hrow : s.writeWord64 off v = s.run f) (hf : ∃ t, f s = .next t) :
    exec (.registerWrite .bar0 off 8 v) s = f s := by
  rw [exec_bar0_write8 s off v hc hk, hrow, s.next_run f hf]

/-- A read that touches no mailbox returns the register. -/
theorem State.readBar0_register (s : State) (off bytes : Nat) (h : ¬(0x50100 ≤ off ∧ off < 0x50210)) :
    s.readBar0 off bytes
      = s.send (.hostData (if bytes = 8 then s.readLine off else leBytes 4 (s.readWord off)) false) := by
  rw [State.readBar0, if_neg (by omega), if_neg (by omega)]

/-! ### The write of a word, by block (Table 18.1) -/

theorem State.writeWord_fatal (s : State) (off w : Nat) (hf : s.errlog.fatal = true)
    (hb : fatalOpen (off / 0x10000) = false) : s.writeWord off w = s := by
  simp [State.writeWord, hf, hb]

/-- After a fatal error only the blocks of functions, errors, and NVS and MGT take a write. -/
theorem State.writeWord_fatal_or_open (s : State) (off w : Nat) (hf : s.errlog.fatal = true) :
    s.writeWord off w = s ∨ off / 0x10000 = 2 ∨ off / 0x10000 = 3 ∨ off / 0x10000 = 8 := by
  cases hb : fatalOpen (off / 0x10000) with
  | false => exact .inl (s.writeWord_fatal off w hf hb)
  | true => exact .inr (by simpa [fatalOpen, or_assoc] using hb)

theorem State.writeWord_chip (s : State) (off w : Nat) (hb : off / 0x10000 = 0) : s.writeWord off w = s := by
  simp [State.writeWord, hb]

section
variable (s : State) (off w : Nat) (hf : s.errlog.fatal = false)
include hf

theorem State.writeWord_pwr (hb : off / 0x10000 = 1) : s.writeWord off w = s.writePwr (off % 0x10000) w := by
  simp [State.writeWord, hf, hb]

theorem State.writeWord_func (hb : off / 0x10000 = 2) : s.writeWord off w = s.writeFunc (off % 0x10000) w := by
  simp [State.writeWord, hf, hb]

theorem State.writeWord_err (hb : off / 0x10000 = 3) : s.writeWord off w = s.writeErr (off % 0x10000) w := by
  simp [State.writeWord, hf, hb]

theorem State.writeWord_mgt (hb : off / 0x10000 = 8) : s.writeWord off w = s.writeMgt (off % 0x10000) w := by
  simp [State.writeWord, hf, hb]
end

/-! ### Some words -/

theorem State.writePwr_wakeArm (s : State) (w : Nat) :
    s.writePwr 0x80 w = { s with power := { s.power with wakeArm := BitVec.ofNat 32 w } } := rfl

theorem State.writePwr_wakePend (s : State) (w : Nat) :
    s.writePwr 0x84 w = { s with power := { s.power with wakePend := w1c s.power.wakePend w } } := rfl

/-- Limits that are not legal leave the two fields (R7, R314). -/
theorem State.writePwr_limits_illegal (s : State) (w : Nat) (h : thermLimOk (w % 256) (w / 256 % 256) = false) :
    s.writePwr 0x90 w = s := by
  simp [State.writePwr, fld, h]

theorem State.writeErr_ce (s : State) (w : Nat) :
    s.writeErr 0x14 w = { s with errlog := { s.errlog with ce := w1c s.errlog.ce w } } := rfl

theorem State.writeErr_tail (s : State) (w : Nat) :
    s.writeErr 0xC w = { s with errlog := { s.errlog with tail := BitVec.ofNat 10 w } } := rfl

/-- ERR_LOG_HEAD is read-only (Table 15.13). -/
theorem State.writeErr_head (s : State) (w : Nat) : s.writeErr 8 w = s := rfl

/-- FUNC_CMDSTAT.STATE is read-only (Table 15.12). -/
theorem State.writeFunc_cmdstat (s : State) (w : Nat) : s.writeFunc 0x10 w = s := rfl

theorem State.writeMgt_e2e (s : State) (w : Nat) :
    s.writeMgt 0x5010 w = { s with col := { s.col with e2e := BitVec.ofNat 24 w } } := rfl

end Sys2Proof.Machine

open Sys2Proof Sys2Proof.Machine

/-- Settles O54: each access is served or refused by State.bar0Ok, and what is served is the write of a word, the row of
a rule that takes the eight bytes whole, or the read of a register. -/
theorem registerWrites : Obligations.RegisterWrites := by
  intro s off v hc
  have ok {bytes : Nat} (hd : s.host.d3hot = false) (hb : bytes = 4 ∨ bytes = 8) (ha : off % bytes = 0)
      (hl : off + bytes ≤ 0x4000000) : s.bar0Ok off bytes = true := (s.bar0Ok_iff off bytes).2 ⟨hd, hb, ha, hl⟩
  refine ⟨fun hd ha hl => exec_bar0_write4 s off v hc (ok hd (.inl rfl) ha hl), fun hd ha hl hf => ?_,
    fun hd ha hl hm => ?_, fun sp hsp => ?_, fun hf w => ?_, fun hf w => s.writeWord_fatal_or_open off w hf⟩
  · have hk := ok hd (.inr rfl) ha hl
    refine ⟨fun h2s h2mc hdb hqt => ?_, ?_, ?_, fun n => ?_, fun i => ?_⟩
    · rw [exec_bar0_write8 s off v hc hk, s.writeWord64_words off v hf h2s h2mc hdb hqt]
    · rintro rfl
      exact exec_bar0_write8_row s _ v _ hc hk (s.writeWord64_h2mc v hf) (execMbxH2mcWrite_completes .whole v s)
    · rintro rfl
      exact exec_bar0_write8_row s _ v _ hc hk (s.writeWord64_qtbase v hf) (execQtbaseWrite_completes v s)
    · rintro rfl
      exact exec_bar0_write8_row s _ v _ hc hk (s.writeWord64_h2s n v hf) (execMbxH2sWrite_completes n .whole v s)
    · rintro rfl
      exact exec_bar0_write8_row s _ v _ hc hk (s.writeWord64_doorbell i v hf) (execDoorbell_completes i 8 v s)
  · refine ⟨?_, fun ha8 => ?_⟩
    · rw [exec_bar0_read s off 4 v hc (ok hd (.inl rfl) ha hl), s.readBar0_register off 4 hm, if_neg (by decide)]
    · rw [exec_bar0_read s off 8 v hc (ok hd (.inr rfl) ha8 (by omega)), s.readBar0_register off 8 hm, if_pos rfl]
  · have refused {bytes : Nat} (h : ¬s.bar0Ok off bytes = true) :=
      exec_bar0_refused s sp off bytes v hsp hc (eq_false_of_ne_true h)
    simp only [s.bar0Ok_iff] at refused
    refine ⟨fun h => refused ?_, fun h => refused ?_, fun bytes h4 h8 => refused ?_⟩
    · rintro ⟨hd, -, ha, -⟩
      simp [hd, ha] at h
    · rintro ⟨hd, -, ha, -⟩
      simp [hd, ha] at h
    · rintro ⟨-, hb, -⟩
      exact hb.elim h4 h8
  · refine ⟨?_, ?_, fun hlim => ?_, ?_, ?_, ?_, s.writeWord_chip 0 w rfl, ?_, ?_⟩
    · exact (s.writeWord_pwr _ w hf rfl).trans (s.writePwr_wakeArm w)
    · exact (s.writeWord_pwr _ w hf rfl).trans (s.writePwr_wakePend w)
    · exact (s.writeWord_pwr _ w hf rfl).trans (s.writePwr_limits_illegal w hlim)
    · exact (s.writeWord_err _ w hf rfl).trans (s.writeErr_ce w)
    · exact (s.writeWord_err _ w hf rfl).trans (s.writeErr_tail w)
    · exact (s.writeWord_err _ w hf rfl).trans (s.writeErr_head w)
    · exact (s.writeWord_func _ w hf rfl).trans (s.writeFunc_cmdstat w)
    · exact (s.writeWord_mgt _ w hf rfl).trans (s.writeMgt_e2e w)
end

section
/-!
PROOFS. What an issued instruction that only changes registers leaves, and the results of CMP, PLOG, FMOV, FOP and SPEC
(08 Table 8.7).
-/
namespace Sys2Proof.Machine

open Sys2Proof

/-! ### An issued instruction on registers ends in State.ran -/

section
variable (s : State) (n : StrandId) (w : Word64)

/-- The rule for instructions on registers: the body need only act as regBody in the state that it meets, so its own
checks may already be used up there. -/
theorem State.issue_ran (op : Nat) (dec : Bool) (body : Body) (f : Strand → Strand) (hi : s.issues n w op = true)
    (hd : dec = true) (hb : body (s.atIssue n w) = regBody n f (s.atIssue n w)) :
    s.issue n w op dec true body = s.ran n w f :=
  s.issue_ok _ n w op dec true body hi hd (.inl rfl) hb

/-! ### The five instructions, their checks apart from their issue -/

theorem exec_cmp_ran (hi : s.issues n w 0x0B = true) (hz : zeroS w = true) (hs : (fmtS w).sub < 6) :
    exec (.cmp n w) s = .next (s.ran n w fun x =>
      x.setPred ((fmtS w).d % 8) ((cmpCond (fmtS w).sub (x.reg (fmtS w).a) (x.reg (fmtS w).b)).getD false)) :=
  congrArg _ (s.issue_ran n w _ _ _ _ hi (by simp [hz, hs]) rfl)

theorem exec_plog_ran (hi : s.issues n w 0x0C = true) (hz : zeroS w = true) (hs : (fmtS w).sub < 4) :
    exec (.plog n w) s = .next (s.ran n w fun x =>
      x.setPred ((fmtS w).d % 8)
        ((plog (fmtS w).sub (x.pred ((fmtS w).a % 8)) (x.pred ((fmtS w).b % 8))).getD false)) :=
  congrArg _ (s.issue_ran n w _ _ _ _ hi (by simp [hz, hs]) rfl)

/-- SUB 0 names a float register as the destination. -/
theorem exec_fmov_toFreg (hi : s.issues n w 0x0D = true) (hz : zeroS w = true) (hs : (fmtS w).sub = 0)
    (hr : (fmtS w).d < 16) :
    exec (.fmov n w) s = .next (s.ran n w fun x => x.setFreg (fmtS w).d (x.reg (fmtS w).a)) :=
  congrArg _ (s.issue_ran n w _ _ _ _ hi (by simp [hz, hs, hr]) (by simp [hs]))

/-- SUB 1 names a float register as the source. -/
theorem exec_fmov_toReg (hi : s.issues n w 0x0D = true) (hz : zeroS w = true) (hs : (fmtS w).sub = 1)
    (hr : (fmtS w).a < 16) :
    exec (.fmov n w) s = .next (s.ran n w fun x => x.setReg (fmtS w).d (x.freg (fmtS w).a)) :=
  congrArg _ (s.issue_ran n w _ _ _ _ hi (by simp [hz, hs, hr]) (by simp [hs]))

/-- A listed rounding mode is the one check that FOP makes after decode; what it counts is log entry 66 (fopStrand). -/
theorem exec_fop_ran (rm : RM) (hi : s.issues n w 0x0E = true)
    (hd : (zeroS w && fld (fmtS w).sub 3 3 == 0 && (fmtS w).sub % 8 < 5 && (fmtS w).d < 16 && (fmtS w).a < 16
      && (fmtS w).b < 16) = true)
    (hrm : rmOfCode ((fmtS w).sub / 64) = some rm) : exec (.fop n w) s = .next (s.ran n w (fopStrand w rm)) :=
  congrArg _ (s.issue_ran n w _ _ _ _ hi hd (by simp [hrm]))

theorem exec_spec_ran (hi : s.issues n w 0x0F = true)
    (hd : (zeroS w && ((fmtS w).sub < 7 || (8 ≤ (fmtS w).sub && (fmtS w).sub < 16))) = true) :
    exec (.spec n w) s = .next (s.ran n w fun x => x.setReg (fmtS w).d (specValue n x (fmtS w).sub)) :=
  congrArg _ (s.issue_ran n w _ _ _ _ hi hd rfl)

end

/-! ### The tables of CMP and PLOG, in the order of SUB -/

theorem cmpCond_getD (sub : Nat) (a b : Word) :
    (cmpCond sub a b).getD false = [a == b, a != b, a.slt b, a.ult b, !a.slt b, !a.ult b].getD sub false :=
  match sub with
  | 0 | 1 | 2 | 3 | 4 | 5 | _ + 6 => rfl

theorem plog_getD (sub : Nat) (a b : Bool) :
    (plog sub a b).getD false = [a && b, a || b, a != b, !a].getD sub false :=
  match sub with
  | 0 | 1 | 2 | 3 | _ + 4 => rfl

end Sys2Proof.Machine

open Sys2Proof Sys2Proof.Machine

/-- Settles O4: each of the five issues, passes its checks and ends in State.ran; CMP and PLOG select by SUB from their
tables, and FOP has the rounding mode that its SUB names. -/
theorem predicateAndFloatResults : Obligations.PredicateAndFloatResults := by
  intro s n w
  dsimp only
  refine ⟨fun h => ?cmp, fun h => ?plog, fun h => ?toFreg, fun h => ?toReg, fun h rm hrm => ?fop, fun h => ?spec⟩
  case cmp =>
    simp only [Bool.and_eq_true, decide_eq_true_eq] at h
    obtain ⟨⟨hi, hz⟩, hs⟩ := h
    exact ⟨fun a b => (cmpCond (fmtS w).sub a b).getD false, exec_cmp_ran s n w hi hz hs, cmpCond_getD _⟩
  case plog =>
    simp only [Bool.and_eq_true, decide_eq_true_eq] at h
    obtain ⟨⟨hi, hz⟩, hs⟩ := h
    exact ⟨fun a b => (plog (fmtS w).sub a b).getD false, exec_plog_ran s n w hi hz hs, plog_getD _⟩
  case toFreg =>
    simp only [Bool.and_eq_true, decide_eq_true_eq, beq_iff_eq] at h
    obtain ⟨⟨⟨hi, hz⟩, hs⟩, hr⟩ := h
    exact exec_fmov_toFreg s n w hi hz hs hr
  case toReg =>
    simp only [Bool.and_eq_true, decide_eq_true_eq, beq_iff_eq] at h
    obtain ⟨⟨⟨hi, hz⟩, hs⟩, hr⟩ := h
    exact exec_fmov_toReg s n w hi hz hs hr
  case fop =>
    simp only [Bool.and_assoc] at h
    rw [Bool.and_eq_true] at h
    obtain ⟨hi, hd⟩ := h
    exact exec_fop_ran s n w rm hi (by simpa only [Bool.and_assoc] using hd) hrm
  case spec =>
    rw [Bool.and_assoc, Bool.and_eq_true] at h
    obtain ⟨hi, hd⟩ := h
    exact exec_spec_ran s n w hi hd
end

section
/-!
PROOFS. FUNC_RESET of a strand at its boundary (15 Table 15.5; 04 R85): the command as a reset that takes place, and what
State.resetStrand leaves of the strands, the parts and the mailboxes.
-/
namespace Sys2Proof.Machine

open Sys2Proof

/-! ### The end of a launch changes no part -/

theorem State.addRec_blocks (s : State) (r : CRec) : (s.addRec r).blocks = s.blocks := by
  unfold State.addRec State.discardCompletion
  split
  · rfl
  · exact State.logEv_blocks ..

theorem State.recordLaunch_blocks (s : State) (l : Launch) (a b c d e : Nat) :
    (s.recordLaunch l a b c d e).blocks = s.blocks := by
  unfold State.recordLaunch State.discardCompletion
  split
  · rfl
  · dsimp only
    split
    · exact State.logEv_blocks ..
    · exact State.addRec_blocks ..

theorem State.endPart_blocks (s : State) (n : StrandId) (id : Nat) (h : Bool) : (s.endPart n id h).blocks = s.blocks := by
  unfold State.endPart
  dsimp only
  split
  · rfl
  · split
    · split
      · exact State.recordLaunch_blocks ..
      · rfl
    · rfl

/-- A reset strand's launch ends in the QE: neither a strand nor a part changes. -/
theorem State.resetLaunch_frame (s : State) (n : StrandId) :
    (s.resetLaunch n).strands = s.strands ∧ (s.resetLaunch n).blocks = s.blocks := by
  unfold State.resetLaunch
  split
  · exact ⟨rfl, rfl⟩
  · dsimp only
    rw [State.endPart_strands, State.endPart_blocks]
    split
    · exact ⟨State.recordLaunch_strands .., State.recordLaunch_blocks ..⟩
    · exact ⟨rfl, rfl⟩

/-! ### What the reset leaves -/

theorem State.block_mapOwned (s : State) (n : StrandId) (f : Part → Part) (b : BlockId) :
    (s.mapOwned n f).block b = (s.block b).mapParts fun p => if p.owner == some n then f p else p :=
  Vector.getElem_map ..

theorem State.part_mapOwned (s : State) (n : StrandId) (f : Part → Part) (b : BlockId) (p : PartNo) :
    (s.mapOwned n f).part b p = if (s.part b p).owner == some n then f (s.part b p) else s.part b p := by
  rw [State.part, State.block_mapOwned]
  exact Vector.getElem_map ..

theorem State.part_of_blocks {s t : State} (h : t.blocks = s.blocks) : t.part = s.part := by
  funext b p
  rw [State.part, State.part, State.block, State.block, h]

theorem State.strand_of_strands {s t : State} (h : t.strands = s.strands) : t.strand = s.strand := by
  funext n
  rw [State.strand, State.strand, h]

section
variable (s : State) (n : StrandId)

theorem State.clearStrand_strands : (s.clearStrand n).strands = (s.setStrand n {}).strands := rfl
theorem State.clearStrand_blocks : (s.clearStrand n).blocks = (s.mapOwned n fun _ => {}).blocks := rfl
theorem State.emptyMailboxes_h2s : ((s.emptyMailboxes n).h2s n).full = false := by
  simp [State.emptyMailboxes, State.h2s, State.setMbx, Mbx.empty]
theorem State.emptyMailboxes_s2h : ((s.emptyMailboxes n).s2h n).full = false := by
  simp [State.emptyMailboxes, State.s2h, State.setMbx, Mbx.empty]

theorem State.resetStrand_strand : (s.resetStrand n).strand = (s.setStrand n {}).strand := by
  refine State.strand_of_strands ?_
  calc (s.resetStrand n).strands
      = (((s.logEv 4 2 n.val 0x19 0 n.val).resetLaunch n).clearStrand n).strands := rfl
    _ = (s.setStrand n {}).strands := by
        rw [State.clearStrand_strands, State.setStrand, (State.resetLaunch_frame _ n).1, State.logEv_strands]; rfl

theorem State.resetStrand_part : (s.resetStrand n).part = (s.mapOwned n fun _ => {}).part := by
  refine State.part_of_blocks ?_
  calc (s.resetStrand n).blocks
      = (((s.logEv 4 2 n.val 0x19 0 n.val).resetLaunch n).clearStrand n).blocks := rfl
    _ = (s.mapOwned n fun _ => {}).blocks := by
        rw [State.clearStrand_blocks, State.mapOwned, (State.resetLaunch_frame _ n).2, State.logEv_blocks]; rfl

theorem State.resetStrand_h2s : ((s.resetStrand n).h2s n).full = false :=
  State.emptyMailboxes_h2s (((s.logEv 4 2 n.val 0x19 0 n.val).resetLaunch n).clearStrand n) n
theorem State.resetStrand_s2h : ((s.resetStrand n).s2h n).full = false :=
  State.emptyMailboxes_s2h (((s.logEv 4 2 n.val 0x19 0 n.val).resetLaunch n).clearStrand n) n

theorem State.resetStrand_part_owned (b : BlockId) (p : PartNo) (h : (s.part b p).owner = some n) :
    (s.resetStrand n).part b p = {} := by
  rw [s.resetStrand_part, State.part_mapOwned, if_pos (beq_iff_eq.2 h)]

theorem State.resetStrand_part_owner (b : BlockId) (p : PartNo) : ((s.resetStrand n).part b p).owner ≠ some n := by
  rw [s.resetStrand_part, State.part_mapOwned]
  split
  next => exact (Option.some_ne_none n).symm
  next h => simpa using h

/-! ### The command -/

theorem fnOf_strand : fnOf n.val = some (.strand n) := by
  rw [fnOf, if_pos n.isLt, fin32_val]

theorem State.setFunc_setFunc (st err f st' err' f' : Nat) (r r' : Option Byte) (d d' : Bool) :
    (s.setFunc st err f r d).setFunc st' err' f' r' d' = s.setFunc st' err' f' r' d' := rfl

/-- A strand's reset reads nothing, so its boundary is all that it waits for. -/
theorem State.tryReset_setFunc_strand (st err f : Nat) (r : Option Byte) (hb : s.atBoundary (.strand n) = true) :
    (s.setFunc st err f r false).tryReset (.strand n) = (s.setFunc st err f r false).resetStrand n := by
  have hb' : (s.setFunc st err f r false).atBoundary (.strand n) = true := hb
  rw [State.tryReset, hb']
  rfl

theorem exec_funcReset (f : Byte) (s : State) : exec (.funcReset f) s = execFuncReset f s := rfl

/-- An accepted reset of a strand that stands at its boundary takes place at once. -/
theorem exec_funcReset_strand (hg : (s.hostOn && s.func.state != 1) = true) (hr : s.fnRefusal .reset n.val = 0)
    (hb : s.atBoundary (.strand n) = true) :
    exec (.funcReset (BitVec.ofNat 8 n.val)) s
      = .next ((s.setFunc 1 0 n.val (some (BitVec.ofNat 8 n.val)) false).resetStrand n) := by
  have hid : (BitVec.ofNat 8 n.val).toNat = n.val := by
    rw [BitVec.toNat_ofNat]; omega
  simp only [Bool.and_eq_true, bne_iff_ne] at hg
  obtain ⟨hon, hidle⟩ := hg
  simp only [exec_funcReset, execFuncReset, fnCmd, hid, hon, hidle, hr, fnOf_strand, State.setFunc_setFunc,
    s.tryReset_setFunc_strand n _ _ _ _ hb, Bool.not_true, Bool.false_eq_true, if_false, ne_eq, not_true_eq_false]

end

end Sys2Proof.Machine

open Sys2Proof Sys2Proof.Machine

/-- Settles O38: the reset takes place at once, and State.resetStrand clears the strand, the parts that it owns and its
mailboxes. -/
theorem strandReset : Obligations.StrandReset := by
  intro s n hg hr hb
  refine ⟨_, exec_funcReset_strand s n hg hr hb, ?strand, ?owner, ?parts, ?h2s, ?s2h, ?others⟩
  case strand => rw [State.resetStrand_strand, State.strand_setStrand]
  case owner => exact State.resetStrand_part_owner _ n
  case parts => exact fun b p hp => State.resetStrand_part_owned _ n b p hp
  case h2s => exact State.resetStrand_h2s _ n
  case s2h => exact State.resetStrand_s2h _ n
  case others =>
    intro m hm
    rw [State.resetStrand_strand, State.strand_setStrand_ne _ n m _ hm.symm, State.strand, State.setFunc_strands]
    rfl
end

section
/-!
PROOFS. The collective steps CHSTEP, TRSTEP and TKMERGE (05 R103, R104, R106; 08 R171): the checks of a collective step,
passed once for all three, and the effect that each then has on the tile that it writes.
-/
namespace Sys2Proof.Machine

open Sys2Proof

/-! ### A collective step that passes its checks -/

section
variable (s : State) (n : StrandId) (w : Word64)

theorem State.meet_chunkLen (rs : List (Nat × Nat)) : (s.meet rs).chunkLen = s.chunkLen := by
  rw [State.chunkLen, State.meet_mgt, State.chunkLen]

theorem State.atIssue_chunkLen : (s.atIssue n w).chunkLen = s.chunkLen := by
  unfold State.atIssue; dsimp only; split <;> rfl

/-- The state in which a collective step looks for its operands: it is at issue and has read its headers. -/
def State.colHead (ds : List Nat) : State := (s.atIssue n w).meet (((s.atIssue n w).strand n).colHeaders ds)

theorem State.colHead_mem (ds : List Nat) : (s.colHead n w ds).mem = s.mem := by
  rw [State.colHead, State.meet_mem, State.atIssue_mem]

theorem State.colHead_chunkLen (ds : List Nat) : (s.colHead n w ds).chunkLen = s.chunkLen := by
  rw [State.colHead, State.meet_chunkLen, State.atIssue_chunkLen]

/-- A step whose body finds its operands there, and whose ranges pass their checks, has its effect f on what it meets. -/
theorem State.issue_collective (op : Nat) (dec : Bool) (c : Instr) (ds : List Nat) (body : Body)
    (reads writes sides : List (Nat × Nat)) (f : State → State) (hi : s.issues n w op = true) (hd : dec = true)
    (hr : (s.atIssue n w).colReady n w c ds = true)
    (hb : body (s.colHead n w ds) = colRun n reads writes sides f (s.colHead n w ds))
    (hc : collectiveOk (s.colHead n w ds) n reads writes sides = true) :
    s.issue n w op dec true (colBody n w c ds body)
      = s.afterIssue n ((f ((s.colHead n w ds).meet reads)).advance n) := by
  refine s.issue_ok _ n w op dec true _ hi hd (.inl rfl) ?_
  calc colBody n w c ds body (s.atIssue n w)
      = body (s.colHead n w ds) := colBody_ready _ n w c ds body hr
    _ = colRun n reads writes sides f (s.colHead n w ds) := hb
    _ = .ok ((f ((s.colHead n w ds).meet reads)).advance n) := colRun_ok _ n reads writes sides f hc

end

/-! ### What each step does to its tile -/

theorem exec_chstep (n : StrandId) (w : Word64) (s : State) : exec (.chstep n w) s = execChstep n w s := rfl
theorem exec_trstep (n : StrandId) (w : Word64) (s : State) : exec (.trstep n w) s = execTrstep n w s := rfl
theorem exec_tkmerge (n : StrandId) (w : Word64) (s : State) : exec (.tkmerge n w) s = execTkmerge n w s := rfl

/-- The memory that CHSTEP reads as its list: the one tile of a quire, else as many planes as RT says (R104). -/
def chainList (acm : Acm) (a : Tile) (planes : Nat) : Nat × Nat :=
  if acm = .basin then a.body else (a.addr, if planes = 0 then 0 else (planes - 1) * planeSize acm a + a.extent)

/-- Puts the elements that g gives into tile d. -/
def State.putGrid (v : State) (d : Tile) (g : Nat → Nat → Nat × Nat × Bool) : State :=
  v.putPairs d ((List.range d.rows).map fun r => (List.range d.cols).map fun c => g r c)

/-- CHSTEP's effect; poison anywhere in the tile or in the list reaches every element. -/
def State.chainStep (v : State) (acm : Acm) (d a : Tile) (planes : Nat) : State :=
  let list := chainList acm a planes
  v.putGrid d fun r c =>
    let e := chainElem v.mem acm v.chunkLen d a planes r c
    (e.1, e.2, (v.read d.addr d.extent).2 || (lineHalves list.1 list.2).any v.poison.contains)

/-- TRSTEP's effect. -/
def State.treeStep (v : State) (acm : Acm) (d a b : Tile) : State :=
  v.putGrid d fun r c =>
    let e := treeElem v.mem acm a b r c
    (e.1, e.2, v.elemBad a r c || v.elemBad b r c)

/-- A top-k result that TKMERGE takes: long elements, k columns, and room in a row for k codes and k positions. -/
def topkOk (k : Nat) (t : Tile) : Bool := t.fmt.isLong && t.cols == k && 8 * k ≤ t.stride

theorem topkOk_iff (k : Nat) (t : Tile) :
    topkOk k t = true ↔ (t.fmt.isLong = true ∧ (t.cols == k) = true) ∧ 8 * k ≤ t.stride := by
  simp only [topkOk, Bool.and_eq_true, decide_eq_true_eq]

/-- TKMERGE's effect: the merged rows, each read from v before any is written. -/
def State.mergeRows (v : State) (d a b : Tile) (k : Nat) : State :=
  (List.range d.rows).foldl (fun t r => t.write (d.rowAddr r) (mergeRow v.mem a b k r)
    ((v.read (a.rowAddr r) (8 * k)).2 || (v.read (b.rowAddr r) (8 * k)).2)) v

end Sys2Proof.Machine

open Sys2Proof Sys2Proof.Machine

/-- Settles O21: each step passes the checks of a collective step and has its effect; what it meets on the way changes
neither memory nor the profile, so that elements and rows are those of the state before. -/
theorem chainTreeAndTopk : Obligations.ChainTreeAndTopk := by
  refine ⟨fun s n w d a => ⟨fun hd ha h => ?chain, fun b hd ha hb h => ?tree⟩, fun s n w d a b hd ha hb h => ?topk⟩
  case chain =>
    simp only [Bool.and_eq_true, decide_eq_true_eq] at h
    obtain ⟨⟨⟨⟨⟨⟨hi, hz⟩, hs⟩, hr⟩, hf⟩, hda⟩, hc⟩ := h
    let planes := (((s.atIssue n w).strand n).reg (fmtT w).rt).toNat
    rw [exec_chstep, execChstep, s.issue_collective n w _ _ _ _ _ _ _ _
      (State.chainStep · (acmOf (fmtT w).sub) d a planes) hi (by simp [hz, hs]) hr ?operands hc]
    · simp only [State.chainStep, State.putGrid, State.meet_mem, State.meet_chunkLen, State.colHead_mem,
        State.colHead_chunkLen]
      rfl
    case operands =>
      unfold State.colHead
      simp only [hd, ha, hf, hda, State.meet_strand, Bool.not_true, Bool.or_self, Bool.false_eq_true, if_false]
      rfl
  case tree =>
    simp only [Bool.and_eq_true, decide_eq_true_eq] at h
    obtain ⟨⟨⟨⟨⟨⟨⟨hi, hz⟩, hs⟩, hr⟩, hf⟩, hda⟩, hdb⟩, hc⟩ := h
    rw [exec_trstep, execTrstep, s.issue_collective n w _ _ _ _ _ _ _ _ (State.treeStep · (acmOf (fmtT w).sub) d a b)
      hi (by simp [hz, hs]) hr ?operands hc]
    · simp only [State.treeStep, State.putGrid, State.meet_mem, State.colHead_mem]
      rfl
    case operands =>
      unfold State.colHead
      simp only [hd, ha, hb, hf, hda, hdb, Bool.not_true, Bool.or_self, Bool.false_eq_true, if_false]
      rfl
  case topk =>
    simp only [Bool.and_eq_true, decide_eq_true_eq, ← topkOk_iff] at h
    obtain ⟨⟨⟨⟨⟨⟨⟨⟨⟨hi, hz⟩, hs⟩, hr⟩, hkd⟩, hka⟩, hkb⟩, hda⟩, hdb⟩, hc⟩ := h
    rw [exec_tkmerge, execTkmerge, s.issue_collective n w _ _ _ _ _ _ _ _ (State.mergeRows · d a b (2 ^ (fmtT w).sub))
      hi (by simp [hz, hs]) hr ?operands hc]
    · simp only [State.mergeRows, mergeRow, State.meet_mem, State.colHead_mem]
      rfl
    case operands =>
      unfold State.colHead
      unfold topkOk at hkd hka hkb
      simp only [hd, ha, hb, hkd, hka, hkb, hda, hdb, Bool.not_true, Bool.or_self, Bool.false_eq_true, if_false,
        List.foldl_map]
      rfl
end

section
/-!
PROOFS. Promotions, the exchange and swap of accumulator tiles, and the rows of an epilogue (05 R93 to R100, R104;
06 R113).
-/
namespace Sys2Proof.Machine

open Sys2Proof

theorem exec_promotion (b : BlockId) (q : PartRead) (s : State) : exec (.promotion b q) s = execPromotion b q s := rfl
theorem exec_accumulatorExchange (b : BlockId) (p : PartNo) (ecc : Ecc) (s : State) :
    exec (.accumulatorExchange b p ecc) s = execAccumulatorExchange b p ecc s := rfl
theorem exec_accumulatorSwap (b : BlockId) (p : PartNo) (s : State) :
    exec (.accumulatorSwap b p) s = execAccumulatorSwap b p s := rfl
theorem exec_epilogueRowWrite (b : BlockId) (q : PartWords) (s : State) :
    exec (.epilogueRowWrite b q) s = execEpilogueRowWrite b q s := rfl

/-! ### Promotion -/

/-- An error code may poison the group that a promotion adds, and leaves its item and whether it is the last. -/
theorem State.promotionEcc_group (s : State) (b : BlockId) (n : StrandId) (j : Job) (c : Closed) (ecc : Ecc) :
    (s.promotionEcc b n j c ecc).2.item = c.item ∧ (s.promotionEcc b n j c ecc).2.final = c.final := by
  unfold State.promotionEcc
  split
  · exact ⟨rfl, rfl⟩
  · dsimp only
    split <;> exact ⟨rfl, rfl⟩

/-- A promotion list is written without a read of the accumulator, so no error code is met. -/
theorem State.promotionEcc_list (s : State) (b : BlockId) (n : StrandId) (j : Job) (c : Closed) (ecc : Ecc)
    (hl : j.list = true) : s.promotionEcc b n j c ecc = (s, c) := by
  rw [State.promotionEcc, if_pos hl]

theorem State.canPromote_basin (s : State) (x : Part) (j : Job) (c : Closed) (ha : j.acm = .basin) :
    s.canPromote x j c = !s.quireUnread j.strand c.item.acc j.size := by
  rw [State.canPromote, if_pos ha]

theorem State.canPromote_list (s : State) (x : Part) (j : Job) (c : Closed) (ha : j.acm ≠ .basin) (hl : j.list = true) :
    s.canPromote x j c = true := by
  rw [State.canPromote, if_neg ha, hl, Bool.true_or]

theorem State.canPromote_tile (s : State) (x : Part) (j : Job) (c : Closed) (t : AccTile) (ha : j.acm ≠ .basin)
    (hl : j.list = false) (ht : x.acc = some t) : s.canPromote x j c = s.sameTile t c.item := by
  rw [State.canPromote, if_neg ha, hl, Bool.false_or, State.tileLive, ht]

section
variable (s : State) (b : BlockId) (p : PartNo) (n : StrandId) (c : Closed) (rest : List Closed) (j : Job) (ecc : Ecc)
  (ho : (s.part b p).owner = some n) (hc : (s.part b p).closed = c :: rest) (hj : s.jobOf c.item.job = some j)
  (hon : (s.unitsOn && s.awake (blockRegion b)) = true)
include ho hc hj hon

/-- A group that has nowhere to go yet waits. -/
theorem exec_promotion_waits (hcan : s.canPromote (s.part b p) j c = false) : exec (.promotion b ⟨p, ecc⟩) s = .next s := by
  obtain ⟨hu, hw⟩ := Bool.and_eq_true_iff.1 hon
  simp [exec_promotion, execPromotion, ho, hc, hj, State.asleep, hu, hw, hcan]

/-- R96: the group goes into its quire tile; here it is not one that an epilogue follows. -/
theorem exec_promotion_quire (hcan : s.canPromote (s.part b p) j c = true) (ha : j.acm = .basin)
    (hlast : (c.final && j.chain != 0 && (s.strand n).run == .running) = false) :
    exec (.promotion b ⟨p, ecc⟩) s
      = .next ((((s.promotionEcc b n j c ecc).1.setPart b p { s.part b p with closed := rest }).promoteQuire j
          (s.promotionEcc b n j c ecc).2).dropDone) := by
  obtain ⟨hu, hw⟩ := Bool.and_eq_true_iff.1 hon
  obtain ⟨-, hfin⟩ := s.promotionEcc_group b n j c ecc
  simp [exec_promotion, execPromotion, ho, hc, hj, State.asleep, hu, hw, hcan, ha, hfin, hlast]

/-- R104: the group goes into its plane of the promotion list. -/
theorem exec_promotion_list (hcan : s.canPromote (s.part b p) j c = true) (ha : j.acm ≠ .basin) (hl : j.list = true)
    (hrun : (s.strand n).run = .running) :
    exec (.promotion b ⟨p, ecc⟩) s = .next ((s.setPart b p { s.part b p with closed := rest }).promoteList j c).dropDone := by
  obtain ⟨hu, hw⟩ := Bool.and_eq_true_iff.1 hon
  simp [exec_promotion, execPromotion, ho, hc, hj, State.asleep, hu, hw, hcan, ha, hl, hrun,
    s.promotionEcc_list b n j c ecc hl]

/-- R93 to R95: the group updates the live tile, which an MMA with INIT starts at its first use. -/
theorem exec_promotion_tile (hcan : s.canPromote (s.part b p) j c = true) (ha : j.acm ≠ .basin) (hl : j.list = false)
    (t : AccTile) (ht : (s.part b p).acc = some t) :
    let y := s.promotionEcc b n j c ecc
    let v := y.1.setPart b p { s.part b p with closed := rest, acc := some (t.update j y.2) }
    exec (.promotion b ⟨p, ecc⟩) s
      = .next (if j.startsTile c.item.acc then v.markStarted j.id c.item.acc else v).dropDone := by
  obtain ⟨hu, hw⟩ := Bool.and_eq_true_iff.1 hon
  obtain ⟨hitem, -⟩ := s.promotionEcc_group b n j c ecc
  simp [exec_promotion, execPromotion, ho, hc, hj, State.asleep, hu, hw, hcan, ha, hl, ht, hitem]

end

/-! ### Exchange and swap of accumulator tiles -/

/-- A tile is loaded at the address of its item, and is zero at its first use under INIT (R99, R100). -/
theorem State.loadTile_acc (s : State) (j : Job) (it : Item) (saddle : Option AccTile) :
    (s.loadTile j it saddle).acc = it.acc := by
  unfold State.loadTile
  dsimp only
  split
  · rfl
  · split <;> rfl

theorem State.loadTile_rows_of_startsTile (s : State) (j : Job) (it : Item) (saddle : Option AccTile)
    (h : j.startsTile it.acc = true) :
    (s.loadTile j it saddle).rows = List.replicate 64 (List.replicate j.width (0, 0)) := by
  rw [State.loadTile, if_pos h]; rfl

/-- An empty Saddle set has nothing to drain. -/
theorem State.drainSaddle_empty (s : State) (b : BlockId) (p : PartNo) (h : (s.part b p).saddle = none) :
    s.drainSaddle b p = s := by
  simp [State.drainSaddle, h]

section
variable (s : State) (b : BlockId) (p : PartNo) (n : StrandId) (it : Item) (hw : s.worker b p = some n)
  (hn : s.nextTile (s.part b p) = some it)
include hw hn

/-- R99, R100: an exchange into an empty Saddle set leaves the part as it was, with the next tile loaded there. -/
theorem exec_accumulatorExchange_loads (j : Job) (hs : (s.part b p).saddle = none) (hj : s.jobOf it.job = some j)
    (hfree : (!(s.part b p).liveAt it.acc && !s.heldElsewhere n b p it.acc) = true) :
    let u := s.meet (j.tileReads it none)
    exec (.accumulatorExchange b p .clean) s
      = .next ((if j.startsTile it.acc then u.markStarted j.id it.acc else u).setPart b p
          { s.part b p with saddle := some (u.loadTile j it none) }).dropDone := by
  simp only [Bool.and_eq_true, Bool.not_eq_true'] at hfree
  obtain ⟨hlive, helse⟩ := hfree
  simp [exec_accumulatorExchange, execAccumulatorExchange, hw, hs, hn, hlive, helse, hj, Option.filter, blockLog,
    State.setPart_self, s.drainSaddle_empty b p hs]

/-- R100: a swap takes the tile of the Saddle set as the live one, and the live one as that to be drained. -/
theorem exec_accumulatorSwap_exchanges (tile : AccTile) (hbusy : s.liveBusy (s.part b p) = false)
    (hs : (s.part b p).saddle = some tile) (hd : tile.drained = true) (hsame : s.sameTile tile it = true) :
    exec (.accumulatorSwap b p) s
      = .next (s.setPart b p { s.part b p with acc := some tile, saddle := (s.part b p).acc }) := by
  simp [exec_accumulatorSwap, execAccumulatorSwap, hw, hbusy, hs, hd, hn, hsame]

end

end Sys2Proof.Machine

open Sys2Proof Sys2Proof.Machine

/-- Settles O12: a promotion by where State.canPromote lets its group go, the exchange and the swap by the part that they
leave, and an epilogue row by the gate that it passes. -/
theorem promotionsAndTiles : Obligations.PromotionsAndTiles := by
  refine ⟨fun s b p n c rest j ecc ho hc hj hon => ⟨fun ha hlast hun => ?quire, fun ha hun => ?quireWaits,
      fun ha hl hrun => ?list, fun t ha hl ht hsame => ?tile, fun t ha hl ht hsame => ?tileWaits⟩,
    fun s b p n hw => ⟨fun it j hs hn hj hfree => ?exchange, fun it tile hbusy hs hd hn hsame => ?swap,
      fun e rest j c wrong he hj hc hg => ?epilogue⟩⟩
  case quire =>
    have hcan := s.canPromote_basin (s.part b p) j c ha
    rw [hun] at hcan
    exact exec_promotion_quire s b p n c rest j ecc ho hc hj hon hcan ha hlast
  case quireWaits =>
    have hcan := s.canPromote_basin (s.part b p) j c ha
    rw [hun] at hcan
    exact exec_promotion_waits s b p n c rest j ecc ho hc hj hon hcan
  case list =>
    have hcan := s.canPromote_list (s.part b p) j c ha hl
    rw [s.promotionEcc_list b n j c ecc hl]
    exact exec_promotion_list s b p n c rest j ecc ho hc hj hon hcan ha hl hrun
  case tile =>
    have hcan := (s.canPromote_tile (s.part b p) j c t ha hl ht).trans hsame
    exact exec_promotion_tile s b p n c rest j ecc ho hc hj hon hcan ha hl t ht
  case tileWaits =>
    have hcan := (s.canPromote_tile (s.part b p) j c t ha hl ht).trans hsame
    exact exec_promotion_waits s b p n c rest j ecc ho hc hj hon hcan
  case exchange =>
    refine ⟨_, (s.meet (j.tileReads it none)).loadTile j it none,
      exec_accumulatorExchange_loads s b p n it hw hn j hs hj hfree, ?_, State.loadTile_acc ..,
      State.loadTile_rows_of_startsTile _ j it none⟩
    rw [State.dropDone_part, State.part_setPart]
  case swap =>
    refine ⟨_, exec_accumulatorSwap_exchanges s b p n it hw hn tile hbusy hs hd hsame, ?_, ?_⟩ <;> rw [State.part_setPart]
  case epilogue =>
    simp only [exec_epilogueRowWrite, execEpilogueRowWrite, hw, he, hj, hc, hg, Option.bind_some, Option.map_some]
end

section
/-!
PROOFS. The collective steps SMXC, SMXD and PRCOMB (06 R121, R122; 08 R171): the effect that each has on what it meets,
once its checks have passed (State.issue_collective).
-/
namespace Sys2Proof.Machine

open Sys2Proof

/-! ### Softmax statistics (R121) -/

/-- Row r over its t tiles; with SUB 1, what stands at o precedes tile 0. -/
def softmaxRow (m : List Host.Cell) (sub t o : Nat) (a b : Tile) (r : Nat) : SoftAcc :=
  softFold (if sub = 1 then some ⟨memInt m (o + 4 * r), memPair m (o + 4 * a.cols + 8 * r)⟩ else none)
    ((List.range t).map fun i => (memInt m (a.rowAddr i + 4 * r), memPair m (b.rowAddr i + 8 * r)))

/-- Poison in anything that row r is combined from. -/
def State.softmaxBad (v : State) (sub t o : Nat) (a b : Tile) (r : Nat) : Bool :=
  ((List.range t).any fun i => v.elemBad a i r || v.elemBad b i (2 * r) || v.elemBad b i (2 * r + 1))
    || (sub == 1 && ((v.read (o + 4 * r) 4).2 || (v.read (o + 4 * a.cols + 8 * r) 8).2))

/-- SMXC's effect: a maximum for each row at o, and the pairs after them. -/
def State.softmaxStep (v : State) (sub t o : Nat) (a b : Tile) : State :=
  (List.range a.cols).foldl (fun u r =>
    let x := softmaxRow v.mem sub t o a b r
    let bad := v.softmaxBad sub t o a b r
    (u.write (o + 4 * r) (leBytes 4 (wrap 32 x.m)) bad).write (o + 4 * a.cols + 8 * r) (pairBytes x.acc) bad) v

/-- SMXD's effect: every element less the maximum of its row at m. -/
def State.softmaxDiff (v : State) (d a : Tile) (m : Nat) : State :=
  v.putGrid d fun t r => (smxdCode (memInt v.mem (a.rowAddr t + 4 * r)) (memInt v.mem (m + 4 * r)), 0,
    v.elemBad a t r || (v.read (m + 4 * r) 4).2)

/-! ### Norm statistics (R122) -/

/-- The PAIR update over a list of pairs, from the first on. -/
def combinePairs : List (Word × Word) → Word × Word
  | [] => (0, 0)
  | p :: qs => qs.foldl (fun p q => pairPromote p q.1 q.2) p

/-- Pair i of the t entries of tile a; with carry, the pair at o is the first. -/
def normPair (m : List Host.Cell) (carry : Bool) (t o : Nat) (a : Tile) (i : Nat) : Word × Word :=
  combinePairs ((if carry then [memPair m (o + 8 * i)] else [])
    ++ (List.range t).map fun j => memPair m (a.rowAddr j + 8 * i))

theorem normPair_eq_cons (m : List Host.Cell) (carry : Bool) (t o : Nat) (a : Tile) (i : Nat) :
    normPair m carry t o a i =
      let ps := (List.range t).map fun j => memPair m (a.rowAddr j + 8 * i)
      combinePairs (if carry then memPair m (o + 8 * i) :: ps else ps) := by
  cases carry <;> rfl

/-- Poison in the entries that pair i belongs to, each of np pairs. -/
def State.normBad (v : State) (carry : Bool) (np t o : Nat) (a : Tile) (i : Nat) : Bool :=
  ((List.range t).any fun j => (List.range (2 * np)).any fun c => v.elemBad a j (2 * (i / np * np) + c))
    || (carry && (v.read (o + 8 * (i / np * np)) (8 * np)).2)

/-- PRCOMB's effect: the pairs that the entries of tile a combine to, at o. -/
def State.normStep (v : State) (carry : Bool) (np t o : Nat) (a : Tile) : State :=
  (List.range (a.cols / 2)).foldl (fun u i =>
    u.write (o + 8 * i) (pairBytes (normPair v.mem carry t o a i)) (v.normBad carry np t o a i)) v

end Sys2Proof.Machine

open Sys2Proof Sys2Proof.Machine

/-- Settles O22: each step passes the checks of a collective step and has its effect on the state that it meets; for
SMXC and PRCOMB the poison of what they write is that of softmaxBad and normBad. -/
theorem softmaxAndNorm : Obligations.SoftmaxAndNorm := by
  refine fun s n w a => ⟨fun o b ho ha hb h => ?maxima, fun d m hd ha hm h => ?differences, fun o ho ha h => ?norms⟩
  case maxima =>
    simp only [Bool.and_eq_true, decide_eq_true_eq] at h
    obtain ⟨⟨⟨⟨⟨⟨⟨⟨⟨⟨⟨hi, hz⟩, hs⟩, hr⟩, hfa⟩, hfb⟩, hta⟩, htb⟩, hcols⟩, hsa⟩, hsb⟩, hc⟩ := h
    let t := (((s.atIssue n w).strand n).reg (fmtT w).rt).toNat
    refine ⟨_, congrArg _ (s.issue_collective n w _ _ _ _ _ _ _ _
      (State.softmaxStep · (fmtT w).sub t o a b) hi (by simp [hz, hs]) hr ?operands hc)⟩
    case operands =>
      unfold State.colHead
      simp only [ho, ha, hb, State.meet_strand, bne, hfa, hfb, hta, htb, hcols, hsa, hsb, Bool.not_true, Bool.or_self,
        Bool.false_eq_true, if_false, List.foldl_map]
      rfl
  case differences =>
    simp only [Bool.and_eq_true] at h
    obtain ⟨⟨⟨⟨⟨⟨hi, hz⟩, hs⟩, hr⟩, hf⟩, hda⟩, hc⟩ := h
    refine congrArg _ (s.issue_collective n w _ _ _ _ _ _ _ _ (State.softmaxDiff · d a m) hi
      (by simp [hz, hs]) hr ?operands hc)
    case operands =>
      unfold State.colHead
      simp only [hd, ha, hm, hda, bne, hf, Bool.not_true, Bool.or_self, Bool.false_eq_true, if_false]
      rfl
  case norms =>
    simp only [Bool.and_eq_true, decide_eq_true_eq] at h
    obtain ⟨⟨⟨⟨⟨⟨⟨⟨hi, hz⟩, hs⟩, hr⟩, hf⟩, hrows⟩, hcols⟩, hsa⟩, hc⟩ := h
    let t := (((s.atIssue n w).strand n).reg (fmtT w).rt).toNat
    let carry := bitAt (fmtT w).sub 0
    let np := if bitAt (fmtT w).sub 1 then 2 else 1
    refine ⟨_, congrArg _ (s.issue_collective n w _ _ _ _ _ _ _ _ (State.normStep · carry np t o a) hi
      (by simp [hz, hs]) hr ?operands hc)⟩
    case operands =>
      unfold State.colHead
      simp only [ho, ha, State.meet_strand, bne, hf, hrows, hcols, hsa, Bool.not_true, Bool.or_self, Bool.false_eq_true,
        if_false, List.foldl_map, State.normStep, normPair_eq_cons]
      rfl
end

section
/-!
PROOFS. Loading functions into a slot: TLOAD, TSWAP and what takes effect later (07 R133 to R135; 08 R174).
-/
namespace Sys2Proof.Machine

open Sys2Proof

theorem exec_tload (n : StrandId) (w : Word64) (s : State) : exec (.tload n w) s = execTload n w s := rfl
theorem exec_tswap (n : StrandId) (w : Word64) (s : State) : exec (.tswap n w) s = execTswap n w s := rfl
theorem exec_tloadComplete (n : StrandId) (s : State) : exec (.tloadComplete n) s = execTloadComplete n s := rfl
theorem exec_tswapTakesEffect (n : StrandId) (s : State) :
    exec (.tswapTakesEffect n) s = execTswapTakesEffect n s := rfl

/-! ### TLOAD and TSWAP at issue -/

/-- What TLOAD asks of its slot and of the descriptor of its image; anything else is a format fault. -/
def State.loadable (u : State) (n : StrandId) (w : Word64) : Bool :=
  let a := tdAddr ((u.strand n).tdw (fmtT w).ta)
  u.lists n (fmtT w).sub && a % 64 == 0 && inScratch (regionOf n) a 1 && rmOk w
    && (tileFields ((u.strand n).tdw (fmtT w).ta)).any Tile.shapeOk

section
variable (s : State) (n : StrandId) (w : Word64)

/-- R134: the load of an image that no job in flight writes (R162) begins, or goes behind what the slot has still to
do. -/
theorem exec_tload_begins (hi : s.issues n w 0x4E = true) (hd : (zeroT w && (fmtT w).sub < 32) = true) :
    let u := s.atIssue n w
    let a := tdAddr ((u.strand n).tdw (fmtT w).ta)
    (!(u.strand n).inWindow || inRegion (regionOf n) a 1) = true → u.loadable n w = true →
      u.hazard n [(a, 64)] = false → u.hazard n [(a, u.imageLen a)] = false →
      exec (.tload n w) s = .next (s.afterIssue n
        ((u.modSlot n (fmtT w).sub fun t => t.begin_ ⟨n, a, (u.strand n).pc⟩).advance n)) := by
  intro u a hwin hok hhead himage
  refine congrArg _ (s.issue_ok _ n w _ _ _ _ hi hd (.inl rfl) ?_)
  have hsequence : ((u.strand n).inWindow && !inRegion (regionOf n) a 1) = false := by
    rw [← Bool.not_eq_true', Bool.not_and, Bool.not_not, hwin]
  have hformat : (!u.lists n (fmtT w).sub || a % 64 != 0 || !inScratch (regionOf n) a 1 || !rmOk w
      || !(tileFields ((u.strand n).tdw (fmtT w).ta)).any Tile.shapeOk) = false := by
    rw [← Bool.not_eq_true']
    simpa only [Bool.not_or, Bool.not_not, bne, State.loadable] using hok
  dsimp only
  rw [if_neg (ne_true_of_eq_false hsequence), if_neg (ne_true_of_eq_false hformat), hhead, himage,
    if_neg (by decide)]

/-- R135: behind a load, or what waits for one, the swap waits too. -/
theorem exec_tswap_waits (hi : s.issues n w 0x4F = true) (hd : (zeroT w && (fmtT w).sub < 32) = true) :
    let u := s.atIssue n w
    let t := (u.vsu (regionFin n)).slot (fmtT w).sub
    u.lists n (fmtT w).sub = true → rmOk w = true → (t.load.isSome || !t.waiting.isEmpty) = true →
      exec (.tswap n w) s = .next (s.afterIssue n ((u.modSlot n (fmtT w).sub fun t =>
        { t with waiting := t.waiting ++ [.swap n (u.strand n).pc] }).advance n)) := by
  intro u t hlists hrm hbehind
  refine congrArg _ (s.issue_ok _ n w _ _ _ _ hi hd (.inl rfl) ?_)
  dsimp only
  rw [if_neg (by rw [hlists, hrm]; decide), if_pos hbehind]

/-- R135: with nothing before it and a valid shadow image, the swap exchanges the banks at once. -/
theorem exec_tswap_exchanges (hi : s.issues n w 0x4F = true) (hd : (zeroT w && (fmtT w).sub < 32) = true) :
    let u := s.atIssue n w
    let t := (u.vsu (regionFin n)).slot (fmtT w).sub
    u.lists n (fmtT w).sub = true → rmOk w = true → t.load = none → t.waiting = [] → t.shadow.isSome = true →
      exec (.tswap n w) s = .next (s.afterIssue n ((u.modSlot n (fmtT w).sub swapSlot).advance n)) := by
  intro u t hlists hrm hload hwaiting hshadow
  refine congrArg _ (s.issue_ok _ n w _ _ _ _ hi hd (.inl rfl) ?_)
  have hbefore : (t.load.isSome || !t.waiting.isEmpty) = false := by rw [hload, hwaiting]; rfl
  have himage : t.shadow.isNone = false := Option.isNone_eq_false_iff.2 hshadow
  dsimp only
  rw [if_neg (by rw [hlists, hrm]; decide), if_neg (ne_true_of_eq_false hbefore),
    if_neg (ne_true_of_eq_false himage)]

end

/-! ### What takes effect later -/

/-- Where the units run and region r is awake, neither guard of what takes effect later holds. -/
theorem State.not_off_or_asleep (s : State) (r : Nat) (hon : (s.unitsOn && s.awake r) = true) :
    (!s.unitsOn || s.asleep r) = false := by
  rw [State.asleep, ← Bool.not_and, hon, Bool.not_true]

section
variable (s : State) (n : StrandId) (i : Nat) (hon : (s.unitsOn && s.awake (regionOf n)) = true)
include hon

/-- R134: the first load in progress ends with a valid image, which enters the shadow bank. -/
theorem exec_tloadComplete_valid (rest : List Nat) (l : TLoad) (hs : s.loadingSlots n = i :: rest)
    (hl : ((s.vsu (regionFin n)).slot i).load = some l) :
    let len := s.imageLen l.addr
    let u := s.meet [(l.addr, len)]
    (inScratch (regionOf n) l.addr len && !(u.read l.addr len).2 && (parseImg (u.read l.addr len).1).isSome) = true →
      exec (.tloadComplete n) s
        = .next (u.modSlot n i fun t => { t with load := none, shadow := some (u.read l.addr len).1 }.goOn) := by
  intro len u hgood
  simp only [exec_tloadComplete, execTloadComplete, hs, hl, s.not_off_or_asleep _ hon, Bool.false_eq_true, if_false]
  rw [if_pos hgood, if_pos hgood]

/-- R135: a swap that is due and finds an image exchanges the banks, and what waits behind it goes on. -/
theorem exec_tswapTakesEffect_exchanges (pc : Nat) (hd : s.dueSwap n = some (i, pc))
    (himage : ((s.vsu (regionFin n)).slot i).shadow.isSome = true) :
    exec (.tswapTakesEffect n) s = .next (s.modSlot n i fun t =>
      { swapSlot t with waiting := t.waiting.tail }.goOn) := by
  have hsome : ((s.vsu (regionFin n)).slot i).shadow.isNone = false := Option.isNone_eq_false_iff.2 himage
  simp only [exec_tswapTakesEffect, execTswapTakesEffect, hd, s.not_off_or_asleep _ hon, hsome, Bool.false_eq_true, if_false]
  rfl

end

end Sys2Proof.Machine

open Sys2Proof Sys2Proof.Machine

/-- Settles O15: at issue by what the slot has still to do, and later by the first load in progress and the swap that is
due; what a load meets on its way leaves the bytes of its image as they were. -/
theorem functionLoading : Obligations.FunctionLoading := by
  refine fun s n w => ⟨fun h => ?load, fun h => ⟨fun hbehind => ?swapWaits, fun hl hw hs => ?swap⟩,
    fun i rest l hs hl hon hgood => ?loadEnds, fun i pc _ hd _ hon himage => ?swapTakesEffect⟩
  case load =>
    simp only [Bool.and_eq_true, decide_eq_true_eq, Bool.not_eq_true'] at h
    obtain ⟨⟨⟨⟨⟨⟨⟨⟨⟨⟨hi, hz⟩, hsub⟩, hwin⟩, hlists⟩, halign⟩, hscratch⟩, hrm⟩, hshape⟩, hhead⟩, himage⟩ := h
    refine exec_tload_begins s n w hi (by simp [hz, hsub]) ?_ ?_ hhead himage
    · rw [State.atIssue_inWindow, hwin]
    · simp only [State.loadable, hlists, halign, hscratch, hrm, hshape, Bool.and_self]
  case swapWaits =>
    simp only [Bool.and_eq_true, decide_eq_true_eq] at h
    obtain ⟨⟨⟨⟨hi, hz⟩, hsub⟩, hlists⟩, hrm⟩ := h
    exact exec_tswap_waits s n w hi (by simp [hz, hsub]) hlists hrm hbehind
  case swap =>
    simp only [Bool.and_eq_true, decide_eq_true_eq] at h
    obtain ⟨⟨⟨⟨hi, hz⟩, hsub⟩, hlists⟩, hrm⟩ := h
    exact exec_tswap_exchanges s n w hi (by simp [hz, hsub]) hlists hrm hl hw hs
  case loadEnds =>
    have hbytes (len : Nat) : ((s.meet [(l.addr, len)]).read l.addr len).1 = memGetN s.mem l.addr len := by
      rw [State.read, State.meet_mem]
    rw [exec_tloadComplete_valid s n i hon rest l hs hl (by rw [hbytes]; exact hgood), hbytes]
    rfl
  case swapTakesEffect =>
    exact exec_tswapTakesEffect_exchanges s n i hon pc hd himage
end

section
/-!
PROOFS. The commit of the seam clamps, the loads from the NVM library and the invalidations of the weight-digest table
(07 R131, R137, R138; 10 R204).
-/
namespace Sys2Proof.Machine

open Sys2Proof

theorem exec_vsuCommit (r : RegionId) (s : State) : exec (.vsuCommit r) s = execVsuCommit r s := rfl
theorem exec_vsuLibLoad (r : RegionId) (i : Fin 32) (idx : Byte) (s : State) :
    exec (.vsuLibLoad r i idx) s = execVsuLibLoad r i idx s := rfl
theorem exec_vsuLibLoadSwap (r : RegionId) (i : Fin 32) (idx : Byte) (s : State) :
    exec (.vsuLibLoadSwap r i idx) s = execVsuLibLoadSwap r i idx s := rfl
theorem exec_vsuLibLoadComplete (r : RegionId) (s : State) :
    exec (.vsuLibLoadComplete r) s = execVsuLibLoadComplete r s := rfl
theorem exec_wdtInvalidateEntry (i : Fin 4096) (s : State) :
    exec (.wdtInvalidateEntry i) s = execWdtInvalidateEntry i s := rfl
theorem exec_wdtInvalidateAll (s : State) : exec .wdtInvalidateAll s = execWdtInvalidateAll s := rfl

/-- A write to the blocks of a region that does not sleep takes effect (18 R355). -/
theorem regionWrite_awake (r : RegionId) (s : State) (f : State → State) (hon : s.fabricOn = true)
    (hwake : s.sleeping r.val = false) : regionWrite r s f = .next (f s) := by
  rw [regionWrite, hon, hwake]; rfl

/-- Table 7.11: a legal request turns the load busy, and its parameters stand in the status. -/
theorem State.libLoad_accepted (s : State) (r : RegionId) (i : Fin 32) (idx : Byte) (swap : Bool)
    (hidle : (s.vsu r).libState ≠ 1) (hlegal : s.libRefusal r i swap = 0) :
    s.libLoad r i idx swap = s.setVsu r { s.vsu r with
      libSlot := BitVec.ofNat 5 i.val, libIdx := idx, libSwap := swap, libState := 1, libErr := 0,
      libJob := some (i.val, idx.toNat, swap) } := by
  simp [State.libLoad, State.modVsu, hidle, hlegal]

/-- A region's VSU after image img has entered slot k, and the live bank of it with a swap. -/
def Vsu.libEnter (v : Vsu) (k : Nat) (swap : Bool) (img : List Byte) : Vsu :=
  let v := v.modSlot k fun t => { t with shadow := some img }
  if swap then v.modSlot k swapSlot else v

/-- R138: the end of a load whose entry is good. -/
theorem exec_vsuLibLoadComplete_good (s : State) (r : RegionId) (k j : Nat) (swap : Bool) (img : List Byte)
    (hjob : (s.vsu r).libJob = some (k, j, swap)) (hon : (s.unitsOn && s.mcOn && (s.vsu r).libState == 1) = true)
    (himg : s.nvm.libImage j = .ok img) :
    exec (.vsuLibLoadComplete r) s
      = .next (s.setVsu r { (s.vsu r).libEnter k swap img with libState := 2, libErr := 0, libJob := none }) := by
  simp only [Bool.and_eq_true, beq_iff_eq] at hon
  obtain ⟨⟨hunits, hmc⟩, hbusy⟩ := hon
  simp [exec_vsuLibLoadComplete, execVsuLibLoadComplete, Vsu.libEnter, hjob, hunits, hmc, hbusy, himg]

/-- R204: one entry goes, by its index. -/
theorem exec_wdtInvalidateEntry_on (s : State) (i : Fin 4096) (hon : s.hostOn = true) :
    exec (.wdtInvalidateEntry i) s = .next { s with wdt := { s.wdt with
      index := BitVec.ofNat 12 i.val, all := false, entries := s.wdt.entries.filter fun p => p.1 != i.val } } := by
  rw [exec_wdtInvalidateEntry, execWdtInvalidateEntry, hon]; rfl

theorem exec_wdtInvalidateAll_on (s : State) (hon : s.hostOn = true) :
    exec .wdtInvalidateAll s = .next { s with wdt := { s.wdt with all := true, entries := [] } } := by
  rw [exec_wdtInvalidateAll, execWdtInvalidateAll, hon]; rfl

end Sys2Proof.Machine

open Sys2Proof Sys2Proof.Machine

/-- Settles O39: a commit and a library load are writes to a region that does not sleep, the end of a load is that of a
good entry, and an invalidation filters the entries of the table. -/
theorem vsuAndDigestRegisters : Obligations.VsuAndDigestRegisters := by
  refine ⟨fun s r i idx => ⟨fun hon hwake => ⟨?commit, fun hidle => ⟨fun hlegal => ?load, fun hlegal => ?loadSwap⟩⟩,
    fun k j swap img hjob hon himg => ?loadEnds⟩, fun s i hon => ⟨?entry, ?all⟩⟩
  case commit =>
    exact (exec_vsuCommit r s).trans (regionWrite_awake r s _ hon hwake)
  case load =>
    rw [exec_vsuLibLoad, execVsuLibLoad, regionWrite_awake r s _ hon hwake,
      s.libLoad_accepted r i idx false hidle hlegal]
  case loadSwap =>
    rw [exec_vsuLibLoadSwap, execVsuLibLoadSwap, regionWrite_awake r s _ hon hwake,
      s.libLoad_accepted r i idx true hidle hlegal]
  case loadEnds =>
    exact exec_vsuLibLoadComplete_good s r k j swap img hjob hon himg
  case entry =>
    refine ⟨_, exec_wdtInvalidateEntry_on s i hon, fun p hp => ?_, fun p hp hne => ?_, rfl⟩
    · exact bne_iff_ne.1 (List.mem_filter.1 hp).2
    · exact List.mem_filter.2 ⟨hp, bne_iff_ne.2 hne⟩
  case all =>
    exact ⟨_, exec_wdtInvalidateAll_on s hon, rfl, rfl⟩
end

section
/-!
PROOFS. What the scalar instructions on registers write (08 Table 8.7, R153).
-/
namespace Sys2Proof.Machine

open Sys2Proof

section
variable (s : State) (n : StrandId) (w : Word64)

/-- An instruction of one of the formats without SUB that only changes registers, its decode checks beside its issue. -/
theorem State.issue_ran_and (op : Nat) (dec : Bool) (f : Strand → Strand) (h : (s.issues n w op && dec) = true) :
    s.issue n w op dec true (regBody n f) = s.ran n w f := by
  rw [Bool.and_eq_true] at h
  obtain ⟨hi, hd⟩ := h
  exact s.issue_ran n w op dec _ f hi hd rfl

/-- NOP, on a word that the error code finds no uncorrectable error in. -/
theorem exec_nop_ran (e : Ecc) (he : e ≠ .uncorrected) (h : (s.issues n w 0x00 && decS0 w) = true) :
    exec (.nop n ⟨w, e⟩) s = .next (s.ran n w id) := by
  have hop : knownOp (opOf w) = true := by
    simp only [State.issues, Bool.and_eq_true, beq_iff_eq] at h
    obtain ⟨⟨⟨-, hop⟩, -⟩, -⟩ := h
    rw [hop]
    rfl
  calc exec (.nop n ⟨w, e⟩) s
      = .next (s.issue n w 0x00 (decS0 w) true (regBody n id)) := by
        change execNop n ⟨w, e⟩ s = _
        simp [execNop, he, hop]
    _ = .next (s.ran n w id) := congrArg _ (s.issue_ran_and n w _ _ _ h)

end

end Sys2Proof.Machine

open Sys2Proof Sys2Proof.Machine

/-- Settles O3: each of the twelve issues, passes its decode checks and ends in State.ran. -/
theorem scalarResults : Obligations.ScalarResults := by
  intro s n w
  exact ⟨fun e he h => exec_nop_ran s n w e he h,
    fun h => congrArg _ (s.issue_ran_and n w _ _ _ h), fun h => congrArg _ (s.issue_ran_and n w _ _ _ h),
    fun h => congrArg _ (s.issue_ran_and n w _ _ _ h), fun h => congrArg _ (s.issue_ran_and n w _ _ _ h),
    fun h => congrArg _ (s.issue_ran_and n w _ _ _ h), fun h => congrArg _ (s.issue_ran_and n w _ _ _ h),
    fun h => congrArg _ (s.issue_ran_and n w _ _ _ h), fun h => congrArg _ (s.issue_ran_and n w _ _ _ h),
    fun h => congrArg _ (s.issue_ran_and n w _ _ _ h), fun h => congrArg _ (s.issue_ran_and n w _ _ _ h),
    fun h => congrArg _ (s.issue_ran_and n w _ _ _ h)⟩
end

section
/-!
PROOFS. The frame of the scalar instructions on registers (08 Table 8.7, R153, R156): each runs as the update of one
register or of one predicate.
-/
namespace Sys2Proof.Machine

open Sys2Proof

/-! ### The update of one register or predicate -/

/-- f writes at most the register or the predicate that word w of opcode k names as its destination. -/
structure ScalarUpdate (w : Word64) (k : Nat) (f : Strand → Strand) : Prop where
  plain : Strand.plain f
  rest : ∀ x, ∃ r q, f x = { x with s := r, p := q }
  reg : ∀ x i, i ≠ (fmtS w).d → (f x).reg i = x.reg i
  pred : ∀ x i, i ≠ (fmtS w).d % 8 → (f x).pred i = x.pred i
  condition : k = 0x0B ∨ k = 0x0C → ∀ x, (f x).s = x.s
  value : k ≠ 0x0B → k ≠ 0x0C → ∀ x, (f x).p = x.p

/-- A value that depends on neither the wait nor the issue path of a strand. -/
def Strand.steady {α : Type} (v : Strand → α) : Prop :=
  ∀ (x : Strand) (k : Wait) (p : List Nat), v { x with wait := k, path := p } = v x

theorem Strand.setReg_eq (x : Strand) (i : Nat) (v : Word) : ∃ r, x.setReg i v = { x with s := r } := by
  unfold Strand.setReg
  split
  · split <;> exact ⟨_, rfl⟩
  · exact ⟨x.s, rfl⟩

theorem Strand.setPred_eq (x : Strand) (i : Nat) (v : Bool) : ∃ q, x.setPred i v = { x with p := q } := by
  unfold Strand.setPred
  split
  · split <;> exact ⟨_, rfl⟩
  · exact ⟨x.p, rfl⟩

theorem Strand.setReg_wait_path (x : Strand) (i : Nat) (v : Word) (k : Wait) (p : List Nat) :
    { x with wait := k, path := p }.setReg i v = { x.setReg i v with wait := k, path := p } := by
  unfold Strand.setReg
  split
  · split <;> rfl
  · rfl

theorem Strand.setPred_wait_path (x : Strand) (i : Nat) (v : Bool) (k : Wait) (p : List Nat) :
    { x with wait := k, path := p }.setPred i v = { x.setPred i v with wait := k, path := p } := by
  unfold Strand.setPred
  split
  · split <;> rfl
  · rfl

theorem ScalarUpdate.setReg (w : Word64) (k : Nat) (v : Strand → Word) (hv : Strand.steady v)
    (hk : k ≠ 0x0B ∧ k ≠ 0x0C) : ScalarUpdate w k fun x => x.setReg (fmtS w).d (v x) := by
  have heq (x : Strand) := x.setReg_eq (fmtS w).d (v x)
  refine ⟨fun x k p => ?plain, fun x => ?rest, fun x i hi => x.reg_setReg_ne _ _ _ hi.symm, fun x i _ => ?pred,
    fun h => (h.elim hk.1 hk.2).elim, fun _ _ x => ?value⟩ <;> obtain ⟨r, hr⟩ := heq x
  case plain =>
    refine ⟨by rw [hv x k p, Strand.setReg_wait_path], ?_, ?_, ?_⟩ <;> rw [hr]
  case rest => exact ⟨r, x.p, hr⟩
  case pred => rw [hr]; rfl
  case value => rw [hr]

theorem ScalarUpdate.setPred (w : Word64) (k : Nat) (v : Strand → Bool) (hv : Strand.steady v)
    (hk : k = 0x0B ∨ k = 0x0C) : ScalarUpdate w k fun x => x.setPred ((fmtS w).d % 8) (v x) := by
  have heq (x : Strand) := x.setPred_eq ((fmtS w).d % 8) (v x)
  refine ⟨fun x k p => ?plain, fun x => ?rest, fun x i _ => ?reg, fun x i hi => x.pred_setPred_ne _ _ _ hi.symm,
    fun _ x => ?condition, fun h h' => (hk.elim h h').elim⟩ <;> obtain ⟨q, hq⟩ := heq x
  case plain =>
    refine ⟨by rw [hv x k p, Strand.setPred_wait_path], ?_, ?_, ?_⟩ <;> rw [hq]
  case rest => exact ⟨x.s, q, hq⟩
  case reg => rw [hq]; rfl
  case condition => rw [hq]

/-! ### Each scalar instruction runs as such an update -/

section
variable (s : State) (n : StrandId) (w : Word64)

theorem State.issue_update (c : Instr) (k : Nat) (dec : Bool) (f : Strand → Strand) (hf : ScalarUpdate w k f)
    (hc : exec c s = .next (s.issue n w k dec true (regBody n f))) (h : (s.issues n w k && dec) = true) :
    ∃ f, exec c s = .next (s.ran n w f) ∧ ScalarUpdate w k f :=
  ⟨f, hc.trans (congrArg _ (s.issue_ran_and n w k dec f h)), hf⟩

/-- The nine instructions sD := g (sA, sB). -/
theorem State.issue_alu (c : Instr) (k : Nat) (g : Word → Word → Word) (hk : k ≠ 0x0B ∧ k ≠ 0x0C)
    (hc : exec c s = .next (s.issue n w k (decS0 w) true (aluBody n w g))) (h : (s.issues n w k && decS0 w) = true) :
    ∃ f, exec c s = .next (s.ran n w f) ∧ ScalarUpdate w k f :=
  s.issue_update n w c k _ _ (.setReg w k (fun x => g (x.reg (fmtS w).a) (x.reg (fmtS w).b)) (fun _ _ _ => rfl) hk) hc h

theorem exec_scalar_update : ∀ c ∈ [Instr.add n w, .sub n w, .mul n w, .and n w, .or n w, .xor n w, .shl n w, .shr n w,
      .sra n w, .addi n w, .spec n w, .cmp n w, .plog n w],
    ∀ k, c.opcode = some k → (s.issues n w k && scalarDec k w) = true →
      ∃ f, exec c s = .next (s.ran n w f) ∧ ScalarUpdate w k f := by
  simp only [List.forall_mem_cons, List.not_mem_nil, false_implies, implies_true, and_true]
  refine ⟨?add, ?sub, ?mul, ?and, ?or, ?xor, ?shl, ?shr, ?sra, ?addi, ?spec, ?cmp, ?plog⟩ <;> rintro k ⟨⟩ h
  case addi =>
    exact s.issue_update n w _ _ _ _ (.setReg w _ (fun x => x.reg (fmtI w).a + BitVec.ofNat 32 (fmtI w).imm)
      (fun _ _ _ => rfl) (by decide)) rfl h
  case spec =>
    exact s.issue_update n w _ _ _ _ (.setReg w _ (fun x => specValue n x (fmtS w).sub) (fun _ _ _ => rfl) (by decide)) rfl h
  case cmp =>
    exact s.issue_update n w _ _ _ _ (.setPred w _
      (fun x => (cmpCond (fmtS w).sub (x.reg (fmtS w).a) (x.reg (fmtS w).b)).getD false) (fun _ _ _ => rfl) (.inl rfl)) rfl h
  case plog =>
    exact s.issue_update n w _ _ _ _ (.setPred w _
      (fun x => (plog (fmtS w).sub (x.pred ((fmtS w).a % 8)) (x.pred ((fmtS w).b % 8))).getD false) (fun _ _ _ => rfl)
      (.inr rfl)) rfl h
  all_goals exact s.issue_alu n w _ _ _ (by decide) rfl h

end

end Sys2Proof.Machine

open Sys2Proof Sys2Proof.Machine

/-- Settles O5: a scalar instruction runs as the update of its one destination, and what State.ran leaves of it while the
strand stays in its code is State.ran_stays. -/
theorem scalarFrame : Obligations.ScalarFrame := by
  intro s n w c hc k hk h
  rw [Bool.and_eq_true] at h
  obtain ⟨h, hstays⟩ := h
  obtain ⟨f, hexec, hf⟩ := exec_scalar_update s n w c hc k hk h
  obtain ⟨p, hran⟩ := s.ran_stays n w f hf.plain hstays
  refine ⟨_, hexec, ?outside, ?others, ?rest, fun i hi => ?reg, fun i hi => ?pred, fun hcond => ?condition,
    fun h1 h2 => ?value, ?pc⟩ <;> rw [hran]
  case outside => rfl
  case others => exact fun m hm => State.strand_setStrand_ne s n m _ hm.symm
  case rest =>
    obtain ⟨r, q, hrest⟩ := hf.rest (s.strand n)
    rw [State.strand_setStrand, hrest]
  case reg => rw [State.strand_setStrand]; exact hf.reg _ i hi
  case pred => rw [State.strand_setStrand]; exact hf.pred _ i hi
  case condition => rw [State.strand_setStrand]; exact hf.condition hcond _
  case value => rw [State.strand_setStrand]; exact hf.value h1 h2 _
  case pc => rw [State.strand_setStrand]
end

section
/-!
PROOFS. Instructions without an effect: those that are predicated off, and the words that decode, poison and format
faults stop at (02 R14; 08 R149, R150, R174; 15 Table 15.8).
-/
namespace Sys2Proof.Machine

open Sys2Proof

section
variable (s : State) (n : StrandId) (w : Word64)

/-! ### Faults of an instruction that issues -/

/-- An instruction whose body fails faults where it stands, and has done nothing else. -/
theorem State.issue_error (op : Nat) (dec win : Bool) (body : Body) (k : Kind) (hi : s.issues n w op = true)
    (hd : dec = true) (hw : win = true ∨ (s.strand n).inWindow = false) (hb : body (s.atIssue n w) = .error k) :
    s.issue n w op dec win body = (s.atIssue n w).strandFault n k := by
  simp only [State.issues, Bool.and_eq_true, beq_iff_eq] at hi
  obtain ⟨⟨hmay, hop⟩, hpred⟩ := hi
  have hpred : ({ s.strand n with wait := .none } : Strand).predOn w = true := hpred
  have hseq : ((s.strand n).inWindow && !win) = false := by rcases hw with rfl | hw <;> simp [*]
  unfold State.issue
  dsimp only
  rw [if_neg (by simp [hmay, hop]), if_neg (by simp [hd]), if_neg (by rw [hseq]; decide), if_pos hpred]
  unfold State.atIssue at hb ⊢
  dsimp only at hb ⊢
  rw [hb]

theorem State.mayIssue_running (h : s.mayIssue n w = true) : (s.strand n).run = .running := by
  simp only [State.mayIssue, State.going, Bool.and_eq_true, beq_iff_eq] at h
  obtain ⟨⟨⟨⟨⟨-, hrun⟩, -⟩, -⟩, -⟩, -⟩ := h
  exact hrun

theorem State.issues_mayIssue {op : Nat} (h : s.issues n w op = true) : s.mayIssue n w = true := by
  simp only [State.issues, Bool.and_eq_true] at h
  exact h.1.1

theorem State.atIssue_run : ((s.atIssue n w).strand n).run = (s.strand n).run := by
  unfold State.atIssue; dsimp only; split <;> simp

/-- The registers in which the fault of a running strand leaves its kind and its offset, with memory as it was. -/
theorem State.strandFault_registers (k : Kind) (h : (s.strand n).run = .running) :
    ((s.strandFault n k).strand n).run = .faulted ∧ ((s.strandFault n k).strand n).faultKind = k.code
      ∧ ((s.strandFault n k).strand n).faultPc = (s.strand n).pc ∧ (s.strandFault n k).mem = s.mem := by
  rw [State.strandFault, s.strandFaultAt_strand n k _ (.inl h)]
  exact ⟨rfl, rfl, rfl, (s.strandFault_files n k).1⟩

/-! ### Predicated off -/

/-- A word that names an opcode of the table, whose predicate is off, is NOP's own only as opcode 0. -/
theorem exec_nop_clean (hop : opOf w = 0) :
    exec (.nop n ⟨w, .clean⟩) s = .next (s.issue n w 0x00 (decS0 w) true (regBody n id)) := by
  change execNop n ⟨w, .clean⟩ s = _
  have hknown : knownOp (opOf w) = true := by rw [hop]; rfl
  simp [execNop, hknown]

theorem State.skips_opcode {op : Nat} (h : s.skips n w op = true) : opOf w = op := by
  simp only [State.skips, Bool.and_eq_true, beq_iff_eq] at h
  exact h.1.1.2

/-- An instruction that State.issue runs, with its predicate off: outside a window it only goes on. -/
theorem State.issue_skips (c : Instr) (k : Nat) (dec win : Bool) (body : Body)
    (hc : exec c s = .next (s.issue n w k dec win body)) (h : (s.skips n w k && dec) = true) :
    exec c s = .next ((s.modStrand n fun x => { x with wait := .none }).advance n) := by
  rw [Bool.and_eq_true] at h
  exact hc.trans (congrArg _ (s.issue_skip n w k dec win body h.1 h.2))

theorem exec_skips_S : ∀ c ∈ [Instr.nop n ⟨w, .clean⟩, .add n w, .sub n w, .mul n w, .and n w, .or n w, .xor n w,
      .shl n w, .shr n w, .sra n w, .clrc n w, .ldm n w, .stm n ⟨w, .clean⟩],
    ∀ k, c.opcode = some k → (s.skips n w k && decS0 w) = true →
      exec c s = .next ((s.modStrand n fun x => { x with wait := .none }).advance n) := by
  simp only [List.forall_mem_cons, List.not_mem_nil, false_implies, implies_true, and_true]
  refine ⟨?nop, ?add, ?sub, ?mul, ?and, ?or, ?xor, ?shl, ?shr, ?sra, ?clrc, ?ldm, ?stm⟩ <;> rintro k ⟨⟩ h
  case nop =>
    rw [Bool.and_eq_true] at h
    have hop := s.skips_opcode n w h.1
    exact s.issue_skips n w _ _ _ _ _ (exec_nop_clean s n w hop) (by simpa using h)
  all_goals exact s.issue_skips n w _ _ _ _ _ rfl h

theorem exec_skips_I (ecc : Ecc) : ∀ c ∈ [Instr.addi n w, .lds n w ecc, .sts n w],
    ∀ k, c.opcode = some k → (s.skips n w k && zeroI w) = true →
      exec c s = .next ((s.modStrand n fun x => { x with wait := .none }).advance n) := by
  simp only [List.forall_mem_cons, List.not_mem_nil, false_implies, implies_true, and_true]
  refine ⟨?addi, ?lds, ?sts⟩ <;> rintro k ⟨⟩ h <;> exact s.issue_skips n w _ _ _ _ _ rfl h

theorem exec_skips_T : ∀ c ∈ [Instr.tdld n w, .tdst n w, .tdmov n w, .tdadd n w],
    ∀ k, c.opcode = some k → (s.skips n w k && (zeroT w && (fmtT w).sub == 0)) = true →
      exec c s = .next ((s.modStrand n fun x => { x with wait := .none }).advance n) := by
  simp only [List.forall_mem_cons, List.not_mem_nil, false_implies, implies_true, and_true]
  refine ⟨?tdld, ?tdst, ?tdmov, ?tdadd⟩ <;> rintro k ⟨⟩ h <;> exact s.issue_skips n w _ _ _ _ _ rfl h

/-! ### Words that no row lists, or that the error code gives up -/

/-- The fault of a word of the instruction store: poison before decode. -/
theorem exec_nop_faults (e : Ecc) (hmay : s.mayIssue n w = true)
    (h : (!knownOp (opOf w) || e == .uncorrected) = true) :
    exec (.nop n ⟨w, e⟩) s = .next (s.strandFault n (if e = .uncorrected then .poison else .decode)) := by
  change execNop n ⟨w, e⟩ s = _
  by_cases he : e = .uncorrected
  · simp [execNop, hmay, he]
  · have hop : knownOp (opOf w) = false := by simpa [he] using h
    simp [execNop, hmay, he, hop]

/-! ### A reserved rounding mode -/

theorem rmOk_reserved (h : (fmtT w).rm = 3) : rmOk w = false := by
  rw [rmOk, h]
  rfl

/-- R14: the format check stands before whatever a descriptor instruction does. -/
theorem tdChecked_reserved (h : (fmtT w).rm = 3) (reads : Strand → Bool) (body : Body) (t : State) :
    tdChecked w reads n body t = .error .format := by
  simp [tdChecked, rmOk_reserved w h]

/-- An issued instruction that finds a reserved RM faults. -/
theorem State.issue_reserved (c : Instr) (k : Nat) (dec : Bool) (reads : Strand → Bool) (body : Body)
    (hc : exec c s = .next (s.issue n w k dec true (tdChecked w reads n body))) (hi : s.issues n w k = true)
    (hd : dec = true) (hrm : (fmtT w).rm = 3) :
    ∃ t, exec c s = .next t ∧ (t.strand n).run = .faulted ∧ (t.strand n).faultKind = 2
      ∧ (t.strand n).faultPc = (s.strand n).pc ∧ t.mem = s.mem := by
  refine ⟨_, hc.trans (congrArg _ (s.issue_error n w k dec true _ .format hi hd (.inl rfl)
    (tdChecked_reserved n w hrm reads body _))), ?_⟩
  have hrun := (s.atIssue_run n w).trans (s.mayIssue_running n w (s.issues_mayIssue n w hi))
  have h := (s.atIssue n w).strandFault_registers n .format hrun
  rw [State.atIssue_pc, State.atIssue_mem] at h
  exact h

end

end Sys2Proof.Machine

open Sys2Proof Sys2Proof.Machine

/-- Settles O7: predicated off, State.issue only advances; NOP faults at a word that is not known or not readable; and the
format check of a descriptor instruction fails before its body on a reserved RM. -/
theorem checksWithoutEffect : Obligations.ChecksWithoutEffect := by
  refine ⟨fun s n w => ⟨exec_skips_S s n w, exec_skips_I s n w, fun c hc k hk h => ?skipsT, fun h => ?br⟩,
    fun s n w e hmay h => ?unreadable, fun s n w => ?reserved⟩
  case skipsT => exact exec_skips_T s n w c hc k hk (by rwa [← Bool.and_assoc])
  case br => exact s.issue_skips n w _ _ _ _ _ rfl h
  case unreadable =>
    have hrun := s.mayIssue_running n w hmay
    obtain ⟨hfault, hkind, hpc, hmem⟩ := s.strandFault_registers n (if e = .uncorrected then .poison else .decode) hrun
    refine ⟨_, exec_nop_faults s n w e hmay h, hfault, ?_, hpc, hmem, (s.strandFault_files n _).2⟩
    rw [hkind]
    split <;> rfl
  case reserved =>
    simp only [Bool.and_eq_true, beq_iff_eq, List.forall_mem_cons, List.not_mem_nil, false_implies, implies_true, and_true]
    refine ⟨?tdld, ?tdst, ?tdmov, ?tdadd, ?tdset, ?tdget⟩ <;> rintro k ⟨⟩ ⟨⟨⟨hi, hz⟩, hsub⟩, hrm⟩
    all_goals exact s.issue_reserved n w _ _ _ _ _ rfl hi (by simp [hz, hsub]) hrm
end

section
/-!
PROOFS. Loads and stores that complete (08 R148, R155): LDS and STS on the scratchpad, LDM and STM on a strand address.
-/
namespace Sys2Proof.Machine

open Sys2Proof

/-! ### Addresses and reads -/

/-- An offset in the scratchpad has an address. -/
theorem scratchAddr_inside (n : StrandId) {o k : Nat} (h : o + k ≤ scratchSize) :
    scratchAddr n o k = some (scratchBase (regionOf n) + o) := if_pos h

/-- A strand address that LDM and STM take. -/
theorem longAddr_eq (x : Strand) (w : Word64) {a : Nat}
    (ha : a = (x.reg (fmtS w).b).toNat % 1024 * 2 ^ 32 + (x.reg (fmtS w).a).toNat)
    (h : a % 4 = 0 ∧ inOneRange a 4 = true) : longAddr x w = some a := by
  subst ha
  exact if_pos h

theorem State.eccAt_clean (s : State) (a k : Nat) : s.eccAt a k .clean = s := by
  unfold State.eccAt; rfl

theorem State.meet_read_bytes (s : State) (rs : List (Nat × Nat)) (a k : Nat) :
    ((s.meet rs).read a k).1 = memGetN s.mem a k := by
  rw [State.read, State.meet_mem]

theorem State.atIssue_longAddr (s : State) (n : StrandId) (w v : Word64) :
    longAddr ((s.atIssue n w).strand n) v = longAddr (s.strand n) v := by
  rw [longAddr, longAddr, State.atIssue_reg]

section
variable (s : State) (n : StrandId) (w : Word64)

/-! ### The scratchpad (R155) -/

/-- LDS where no job in flight writes and no poison is met. -/
theorem exec_lds_reads (hi : s.issues n w 0x11 = true) (hz : zeroI w = true) (o : Nat)
    (ho : o = ((s.strand n).reg (fmtI w).a + BitVec.ofNat 32 (fmtI w).imm).toNat) (halign : o % 4 = 0)
    (hin : o + 4 ≤ scratchSize) :
    let a := scratchBase (regionOf n) + o
    s.hazard n [(a, 4)] = false → (((s.atIssue n w).meet [(a, 4)]).read a 4).2 = false →
      exec (.lds n w .clean) s = .next (s.afterIssue n ((((s.atIssue n w).meet [(a, 4)]).modStrand n fun x =>
        x.setReg (fmtI w).d (BitVec.ofNat 32 (leValue (memGetN s.mem a 4)))).advance n)) := by
  intro a hfree hclean
  refine congrArg _ (s.issue_ok _ n w _ _ _ _ hi hz (.inl rfl) ?_)
  unfold ldsBody
  simp only [State.atIssue_reg, ← ho, scratchAddr_inside n hin, halign, State.atIssue_hazard, State.eccAt_clean,
    hfree, hclean, State.meet_read_bytes, State.atIssue_mem, a, ne_eq, not_true_eq_false, if_false, Bool.false_eq_true]
  rfl

theorem exec_sts_writes (hi : s.issues n w 0x12 = true) (hz : zeroI w = true) (o : Nat)
    (ho : o = ((s.strand n).reg (fmtI w).a + BitVec.ofNat 32 (fmtI w).imm).toNat) (halign : o % 4 = 0)
    (hin : o + 4 ≤ scratchSize) :
    exec (.sts n w) s = .next (s.afterIssue n (((s.atIssue n w).write (scratchBase (regionOf n) + o)
      (leBytes 4 ((s.strand n).reg (fmtI w).d).toNat) false).advance n)) := by
  refine congrArg _ (s.issue_ok _ n w _ _ _ _ hi hz (.inl rfl) ?_)
  simp only [State.atIssue_reg, ← ho, scratchAddr_inside n hin, halign, ne_eq, not_true_eq_false, if_false]

/-! ### Strand addresses (R148, R155) -/

/-- LDM leaves the strand waiting for its data. -/
theorem exec_ldm_waits (hi : s.issues n w 0x13 = true) (hd : decS0 w = true) (hout : (s.strand n).inWindow = false)
    (a : Nat) (ha : longAddr (s.strand n) w = some a) (hfree : s.hazard n [(a, 4)] = false)
    (hgate : (s.gate (.ldm n w) [(a, 4)] []).isNone = true) :
    exec (.ldm n w) s = .next (s.waits n w (.ldm (fin32 (fmtS w).d) a)) := by
  refine congrArg _ (s.issue_ok _ n w _ _ _ _ hi hd (.inr hout) ?_)
  simp only [State.atIssue_longAddr, ha, State.atIssue_hazard, hfree, s.atIssue_gate n w _ _ _ hgate, Bool.false_eq_true,
    if_false]

/-- STM of a line that the host does not cache. -/
theorem exec_stm_writes (ecc : Ecc) (hi : s.issues n w 0x14 = true) (hd : decS0 w = true)
    (hout : (s.strand n).inWindow = false) (a : Nat) (ha : longAddr (s.strand n) w = some a)
    (hgate : (s.gate (.stm n ⟨w, ecc⟩) [] [(a, 4)]).isNone = true) (hawake : s.asleepAt a = false) :
    exec (.stm n ⟨w, ecc⟩) s = .next ((((s.atIssue n w).strike [(a, ecc)]).write a
      (leBytes 4 ((s.strand n).reg (fmtS w).d).toNat) false).advance n) := by
  refine congrArg _ ((s.issue_ok _ n w _ _ _ _ hi hd (.inr hout) ?_).trans (s.afterIssue_out _ n hout))
  simp only [State.atIssue_longAddr, ha, s.atIssue_gate n w _ _ _ hgate, State.atIssue_asleepAt, hawake,
    State.atIssue_reg, Bool.false_and, Bool.false_eq_true, if_false]

/-- The data of an LDM arrive clean. -/
theorem exec_ldmDataReturn_reads (d : Fin 32) (b : Nat) (hwait : (s.strand n).wait = .ldm d b)
    (hon : (s.unitsOn && (s.strand n).run == .running && s.awake (regionOf n)) = true) (hawake : s.asleepAt b = false)
    (hgate : s.gate (.ldmDataReturn n .clean) [(b, 4)] [] = none) (hclean : ((s.meet [(b, 4)]).read b 4).2 = false) :
    exec (.ldmDataReturn n .clean) s = .next (((s.meet [(b, 4)]).modStrand n fun x =>
      { x with wait := .none }.setReg d.val (BitVec.ofNat 32 (leValue (memGetN s.mem b 4)))).advance n) := by
  simp only [Bool.and_eq_true, beq_iff_eq] at hon
  obtain ⟨⟨hunits, hrun⟩, hregion⟩ := hon
  have hgo : (!s.unitsOn || (s.strand n).run != .running || s.asleep (regionOf n)) = false := by
    simp [State.asleep, hunits, hrun, hregion]
  change execLdmDataReturn n .clean s = _
  unfold execLdmDataReturn
  simp only [hwait, hgo, hgate, hawake, State.eccAt_clean, hclean, State.readMark_clean _ _ _ hclean,
    State.meet_read_bytes, Bool.false_eq_true, if_false]

end

end Sys2Proof.Machine

open Sys2Proof Sys2Proof.Machine

/-- Settles O8: each of LDS, STS, LDM, STM and the return of data passes the checks of its body. -/
theorem loadsAndStores : Obligations.LoadsAndStores := by
  refine ⟨fun s n w h => ⟨fun hl => ?lds, fun hi => ?sts⟩, fun s n w => ⟨fun h => ⟨fun hl => ?ldm, fun ecc hs => ?stm⟩,
    fun d b h => ?data⟩⟩
  case lds =>
    simp only [Bool.and_eq_true, beq_iff_eq, decide_eq_true_eq, Bool.not_eq_true'] at h hl
    obtain ⟨⟨halign, hin⟩, hz⟩ := h
    obtain ⟨⟨hi, hfree⟩, hclean⟩ := hl
    exact exec_lds_reads s n w hi hz _ rfl halign hin hfree hclean
  case sts =>
    simp only [Bool.and_eq_true, beq_iff_eq, decide_eq_true_eq] at h
    obtain ⟨⟨halign, hin⟩, hz⟩ := h
    exact exec_sts_writes s n w hi hz _ rfl halign hin
  case ldm =>
    simp only [Bool.and_eq_true, beq_iff_eq, Bool.not_eq_true'] at h hl
    obtain ⟨⟨⟨halign, hin⟩, hd⟩, hout⟩ := h
    obtain ⟨⟨hi, hfree⟩, hgate⟩ := hl
    exact exec_ldm_waits s n w hi hd hout _ (longAddr_eq _ w rfl ⟨halign, hin⟩) hfree hgate
  case stm =>
    simp only [Bool.and_eq_true, beq_iff_eq, Bool.not_eq_true'] at h hs
    obtain ⟨⟨⟨halign, hin⟩, hd⟩, hout⟩ := h
    obtain ⟨⟨hi, hgate⟩, hawake⟩ := hs
    exact exec_stm_writes s n w ecc hi hd hout _ (longAddr_eq _ w rfl ⟨halign, hin⟩) hgate hawake
  case data =>
    simp only [Bool.and_eq_true, beq_iff_eq, Bool.not_eq_true', Option.isNone_iff_eq_none] at h
    obtain ⟨⟨⟨⟨⟨⟨hwait, hunits⟩, hrun⟩, hregion⟩, hawake⟩, hgate⟩, hclean⟩ := h
    exact exec_ldmDataReturn_reads s n d b hwait (by simp [hunits, hrun, hregion]) hawake hgate hclean
end

section
/-!
PROOFS. BR, REP and the descriptor instructions (08 R155, R156, R166; 02 R14).
-/
namespace Sys2Proof.Machine

open Sys2Proof

/-- The strand that an instruction acts on differs from the one that issues it in its wait and its issue path. -/
theorem State.atIssue_strand (s : State) (n : StrandId) (w : Word64) :
    ∃ p, (s.atIssue n w).strand n = { s.strand n with wait := .none, path := p } := by
  unfold State.atIssue
  dsimp only
  split
  · exact ⟨_, State.strand_setStrand ..⟩
  · exact ⟨(s.strand n).path, State.strand_setStrand ..⟩

section
variable (s : State) (n : StrandId) (w : Word64)

/-! ### Branches (R156) -/

/-- A taken BR. -/
theorem exec_br_taken (hi : s.issues n w 0x18 = true) (hz : zeroB w = true) (hout : (s.strand n).inWindow = false) :
    let t : Int := (s.strand n).pc + 8 * (fmtB w).off
    0 ≤ t ∧ t < 8 * (s.strand n).code.length → exec (.br n w) s = .next ((s.atIssue n w).goto n t.toNat) := by
  intro t hin
  refine congrArg _ ((s.issue_ok _ n w _ _ _ _ hi hz (.inr hout) ?_).trans (s.afterIssue_out _ n hout))
  obtain ⟨p, hp⟩ := s.atIssue_strand n w
  rw [hp]
  exact if_pos (by simpa [Strand.codeSize] using hin)

/-- A REP whose body passes its checks opens a frame. -/
theorem exec_rep_opens (hi : s.issues n w 0x19 = true) (hd : repDec (s.strand n) w = true)
    (hok : repOk (s.strand n) (repStop (s.strand n) w) = true) :
    exec (.rep n w) s = .next (s.afterIssue n ((s.atIssue n w).modStrand n fun x =>
      { x with pc := x.pc + 8, reps := ⟨x.pc + 8, x.pc + 8 + 8 * (fmtB w).off.toNat, (fmtB w).cnt⟩ :: x.reps })) := by
  have hpred : (s.strand n).predOn w = true := by
    simp only [State.issues, Bool.and_eq_true] at hi
    exact hi.2
  obtain ⟨p, hp⟩ := s.atIssue_strand n w
  have hok' : repOk ((s.atIssue n w).strand n) (repStop (s.strand n) w) = true := by rw [hp]; exact hok
  change execRep n w s = _
  unfold execRep
  simp only [hpred, Bool.not_true, Bool.and_false, Bool.false_eq_true, if_false]
  refine congrArg _ (s.issue_ok _ n w _ _ _ _ hi hd (.inl rfl) ?_)
  rw [if_pos hok']
  simp only [State.modStrand, hp]
  rfl

/-! ### Descriptors (R14, R155, R166) -/

theorem tdChecked_ok (reads : Strand → Bool) (body : Body) (t : State) (hrm : rmOk w = true)
    (hr : reads (t.strand n) = true) : tdChecked w reads n body t = body t := if_pos (by rw [hrm, hr]; rfl)

/-- A descriptor that keeps its shape, or is written outside a window. -/
theorem tdBody_fits (i v : Nat) (t : State)
    (h : (!(t.strand n).inWindow || tdShape v == tdShape ((t.strand n).tdw i)) = true) :
    tdBody n i v t = regBody n (fun x => x.setTd i v) t := by
  refine if_neg ?_
  revert h
  cases (t.strand n).inWindow <;> simp

/-- An issued instruction that writes v to its descriptor ends in State.ran. -/
theorem State.issue_setTd (op : Nat) (dec : Bool) (body : Body) (v : Nat) (hi : s.issues n w op = true)
    (hd : dec = true) (hb : body (s.atIssue n w) = tdBody n (fmtT w).td v (s.atIssue n w))
    (hf : (!(s.strand n).inWindow || tdShape v == tdShape ((s.strand n).tdw (fmtT w).td)) = true) :
    s.issue n w op dec true body = s.ran n w fun x => x.setTd (fmtT w).td v := by
  refine s.issue_ran n w op dec body _ hi hd (hb.trans (tdBody_fits n _ v _ ?_))
  rw [State.atIssue_inWindow, State.atIssue_tdw]
  exact hf

theorem State.atIssue_tdOk (i : Nat) : ((s.atIssue n w).strand n).tdOk i = (s.strand n).tdOk i := by
  rw [Strand.tdOk, State.atIssue_tdw]; rfl

variable (hrm : rmOk w = true)
include hrm

/-- TDLD of sixteen bytes that are clean and that no job in flight writes. -/
theorem exec_tdld_reads (hi : s.issues n w 0x20 = true) (hd : (zeroT w && (fmtT w).sub == 0) = true)
    (hin : ((s.strand n).reg (fmtT w).rt).toNat + 16 ≤ scratchSize) :
    let a := scratchBase (regionOf n) + ((s.strand n).reg (fmtT w).rt).toNat
    let v := leValue (memGetN s.mem a 16)
    s.hazard n [(a, 16)] = false → (((s.atIssue n w).meet [(a, 16)]).read a 16).2 = false →
      (!(s.strand n).inWindow || tdShape v == tdShape ((s.strand n).tdw (fmtT w).td)) = true →
      exec (.tdld n w) s = .next (s.afterIssue n ((((s.atIssue n w).meet [(a, 16)]).modStrand n fun x =>
        x.setTd (fmtT w).td v).advance n)) := by
  intro a v hfree hclean hf
  refine congrArg _ (s.issue_ok _ n w _ _ _ _ hi hd (.inl rfl) ?_)
  rw [tdChecked_ok n w _ _ _ hrm rfl]
  simp only [State.atIssue_reg, scratchAddr_inside n hin, State.atIssue_hazard, hfree, hclean, State.meet_read_bytes,
    State.atIssue_mem, a, Bool.false_eq_true, if_false]
  rw [tdBody_fits]
  · rfl
  · rw [State.meet_strand, State.atIssue_inWindow, State.atIssue_tdw]
    exact hf

theorem exec_tdst_writes (hi : s.issues n w 0x21 = true) (hd : (zeroT w && (fmtT w).sub == 0) = true)
    (hok : (s.strand n).tdOk (fmtT w).ta = true) (hin : ((s.strand n).reg (fmtT w).rt).toNat + 16 ≤ scratchSize) :
    exec (.tdst n w) s = .next (s.afterIssue n
      (((s.atIssue n w).write (scratchBase (regionOf n) + ((s.strand n).reg (fmtT w).rt).toNat)
        (leBytes 16 ((s.strand n).tdw (fmtT w).ta)) false).advance n)) := by
  refine congrArg _ (s.issue_ok _ n w _ _ _ _ hi hd (.inl rfl) ?_)
  rw [tdChecked_ok n w _ _ _ hrm (by rw [State.atIssue_tdOk]; exact hok)]
  simp only [State.atIssue_reg, scratchAddr_inside n hin, State.atIssue_tdw]

theorem exec_tdmov_ran (hi : s.issues n w 0x22 = true) (hd : (zeroT w && (fmtT w).sub == 0) = true)
    (hok : (s.strand n).tdOk (fmtT w).ta = true)
    (hf : (!(s.strand n).inWindow
      || tdShape ((s.strand n).tdw (fmtT w).ta) == tdShape ((s.strand n).tdw (fmtT w).td)) = true) :
    exec (.tdmov n w) s = .next (s.ran n w fun x => x.setTd (fmtT w).td ((s.strand n).tdw (fmtT w).ta)) := by
  refine congrArg _ (s.issue_setTd n w _ _ _ _ hi hd ?_ hf)
  rw [tdChecked_ok n w _ _ _ hrm (by rw [State.atIssue_tdOk]; exact hok), State.atIssue_tdw]

theorem exec_tdset_ran (v : Nat) (hv : tdSetField (fmtT w).sub ((s.strand n).reg (fmtT w).rt).toNat
      ((s.strand n).reg (fmtT w).ru).toNat ((s.strand n).tdw (fmtT w).td) = some v)
    (hi : s.issues n w 0x23 = true) (hd : (zeroT w && (fmtT w).sub < 7) = true)
    (hok : ((fmtT w).sub == 1 || (s.strand n).tdOk (fmtT w).td) = true)
    (hf : (!(s.strand n).inWindow || tdShape v == tdShape ((s.strand n).tdw (fmtT w).td)) = true) :
    exec (.tdset n w) s = .next (s.ran n w fun x => x.setTd (fmtT w).td v) := by
  refine congrArg _ (s.issue_setTd n w _ _ _ _ hi hd ?_ hf)
  rw [tdChecked_ok n w _ _ _ hrm (by rw [State.atIssue_tdOk]; exact hok)]
  simp only [State.atIssue_reg, State.atIssue_tdw, hv]

/-- TDGET writes a second register for ADDR alone. -/
theorem exec_tdget_ran (hi : s.issues n w 0x24 = true) (hd : (zeroT w && (fmtT w).sub < 7) = true)
    (hok : (s.strand n).tdOk (fmtT w).ta = true) :
    exec (.tdget n w) s = .next (s.ran n w fun x =>
      let y := x.setReg (fmtT w).rt (BitVec.ofNat 32 (tdGetField (fmtT w).sub (x.tdw (fmtT w).ta)))
      if (fmtT w).sub = 0 then y.setReg (fmtT w).ru (BitVec.ofNat 32 (fld (x.tdw (fmtT w).ta) 32 10)) else y) := by
  refine congrArg _ (s.issue_ran n w _ _ _ _ hi hd ?_)
  rw [tdChecked_ok n w _ _ _ hrm (by rw [State.atIssue_tdOk]; exact hok)]

theorem exec_tdadd_ran (hi : s.issues n w 0x25 = true) (hd : (zeroT w && (fmtT w).sub == 0) = true)
    (hok : (s.strand n).tdOk (fmtT w).td = true) :
    exec (.tdadd n w) s = .next (s.ran n w fun x => x.setTd (fmtT w).td (setFld (x.tdw (fmtT w).td) 0 42
      (wrap 42 (tdAddr (x.tdw (fmtT w).td) + sext 32 (x.reg (fmtT w).rt).toNat)))) := by
  refine congrArg _ (s.issue_ran n w _ _ _ _ hi hd ?_)
  rw [tdChecked_ok n w _ _ _ hrm (by rw [State.atIssue_tdOk]; exact hok)]

end

end Sys2Proof.Machine

open Sys2Proof Sys2Proof.Machine

/-- Settles O10: the branches by their target and their body's checks, the descriptor instructions by the checks of R14
and by whether the descriptor that they write fits the window. -/
theorem branchesAndDescriptors : Obligations.BranchesAndDescriptors := by
  refine ⟨fun s n w => ⟨fun h => ?br, fun h => ?rep⟩, fun s n w h => ?descriptors⟩
  case br =>
    simp only [Bool.and_eq_true, Bool.not_eq_true', decide_eq_true_eq] at h
    obtain ⟨⟨⟨hi, hz⟩, hout⟩, hin⟩ := h
    exact exec_br_taken s n w hi hz hout hin
  case rep =>
    simp only [Bool.and_eq_true] at h
    obtain ⟨⟨hi, hd⟩, hok⟩ := h
    exact exec_rep_opens s n w hi hd hok
  case descriptors =>
    simp only [Bool.and_eq_true, beq_iff_eq, decide_eq_true_eq, Bool.not_eq_true'] at h ⊢
    obtain ⟨hz, hrm⟩ := h
    refine ⟨?tdld, ?tdst, ?tdmov, fun v hv => ?tdset, ?tdget, ?tdgetAddr, ?tdadd⟩
    case tdld =>
      rintro ⟨⟨⟨⟨⟨hi, hsub⟩, hin⟩, hfree⟩, hclean⟩, hf⟩
      exact exec_tdld_reads s n w hrm hi (by simp [hz, hsub]) hin hfree hclean hf
    case tdst =>
      rintro ⟨⟨⟨hi, hsub⟩, hok⟩, hin⟩
      exact exec_tdst_writes s n w hrm hi (by simp [hz, hsub]) hok hin
    case tdmov =>
      rintro ⟨⟨⟨hi, hsub⟩, hok⟩, hf⟩
      exact exec_tdmov_ran s n w hrm hi (by simp [hz, hsub]) hok hf
    case tdset =>
      rintro ⟨⟨⟨hi, hsub⟩, hok⟩, hf⟩
      exact exec_tdset_ran s n w hrm v hv hi (by simp [hz, hsub]) hok hf
    case tdget =>
      rintro ⟨⟨⟨hi, hlow⟩, hsub⟩, hok⟩
      rw [exec_tdget_ran s n w hrm hi (by simp [hz, hsub]) hok]
      simp only [if_neg (Nat.one_le_iff_ne_zero.1 hlow)]
    case tdgetAddr =>
      rintro ⟨⟨hi, hsub⟩, hok⟩
      rw [exec_tdget_ran s n w hrm hi (by simp [hz, hsub]) hok]
      simp only [hsub, tdGetField, if_true]
    case tdadd =>
      rintro ⟨⟨hi, hsub⟩, hok⟩
      exact exec_tdadd_ran s n w hrm hi (by simp [hz, hsub]) hok
end

section
/-!
PROOFS. What strand instructions leave of memory and of the register files, whatever their outcome (08 R155, R156, Table
8.7): State.issue_rel for the two relations StoreFrame and State.sameBut.
-/
namespace Sys2Proof.Machine

open Sys2Proof

/-! ### A store -/

/-- Byte b is none of the k bytes at address o, where there is one. -/
def outside (o : Option Nat) (k b : Nat) : Prop := ∀ a, o = some a → b < a ∨ a + k ≤ b

/-- From s to t memory changes at most in the k bytes at o, and no register file does. -/
structure StoreFrame (o : Option Nat) (k : Nat) (s t : State) : Prop where
  wf : Memory.wf s.mem = true → Memory.wf t.mem = true
  bytes : Memory.wf s.mem = true → ∀ b, outside o k b → memGet t.mem b = memGet s.mem b
  files : ∀ m, (t.strand m).files = (s.strand m).files

section
variable {o : Option Nat} {k : Nat}

theorem StoreFrame.trans (a b c : State) (h : StoreFrame o k a b) (h' : StoreFrame o k b c) : StoreFrame o k a c where
  wf hw := h'.wf (h.wf hw)
  bytes hw i hi := (h'.bytes (h.wf hw) i hi).trans (h.bytes hw i hi)
  files m := (h'.files m).trans (h.files m)

theorem State.sameFiles.storeFrame {s t : State} (h : s.sameFiles t) : StoreFrame o k s t where
  wf hw := by rw [h.1]; exact hw
  bytes _ _ _ := by rw [h.1]
  files := h.2

/-- The write of k bytes at the address. -/
theorem State.storeFrame_write (s : State) (a : Nat) (bs : List Byte) (bad : Bool) (ho : o = some a)
    (hk : bs.length = k) : StoreFrame o k s (s.write a bs bad) where
  wf := s.wf_write a bs bad
  bytes hw b hb := by
    rw [State.write_mem]
    split
    · exact memGet_memSetN_outside _ _ _ _ hw (hk ▸ hb a ho)
    · rfl
  files m := by rw [State.strand, State.write_strands]; rfl

/-- A store that issues, by what its body leaves when it goes through. -/
theorem State.storeFrame_issue (s : State) (n : StrandId) (w : Word64) (op : Nat) (dec win : Bool) (body : Body)
    (hb : ∀ t, body (s.atIssue n w) = .ok t → StoreFrame o k (s.atIssue n w) t) :
    StoreFrame o k s (s.issue n w op dec win body) :=
  State.issue_rel (StoreFrame o k) StoreFrame.trans (fun _ _ h => h.storeFrame) s n w op dec win body hb

end

/-- A strand that is held keeps its registers. -/
theorem State.sameFiles_holdStrand (s : State) (n : StrandId) : s.sameFiles (s.holdStrand n) :=
  s.sameFiles_modStrand n (fun x => { x with wait := .retry }) fun _ => rfl

section
variable (s : State) (n : StrandId) (w : Word64)

theorem exec_sts_frame (t : State) (h : exec (.sts n w) s = .next t) :
    StoreFrame (scratchAddr n ((s.strand n).reg (fmtI w).a + BitVec.ofNat 32 (fmtI w).imm).toNat 4) 4 s t := by
  cases h
  refine s.storeFrame_issue n w _ _ _ _ fun t ht => ?_
  simp only [State.atIssue_reg] at ht
  split at ht
  next => cases ht
  next a ha =>
    split at ht
    next => cases ht
    next =>
      cases ht
      exact (State.storeFrame_write _ a _ _ ha (leBytes_length ..)).trans _ _ _ (State.sameFiles_advance ..).storeFrame

theorem exec_tdst_frame (t : State) (h : exec (.tdst n w) s = .next t) :
    StoreFrame (scratchAddr n ((s.strand n).reg (fmtT w).rt).toNat 16) 16 s t := by
  cases h
  refine s.storeFrame_issue n w _ _ _ _ fun t ht => ?_
  unfold tdChecked at ht
  simp only [State.atIssue_reg] at ht
  split at ht
  next =>
    split at ht
    next => cases ht
    next a ha =>
      cases ht
      exact (State.storeFrame_write _ a _ _ ha (leBytes_length ..)).trans _ _ _ (State.sameFiles_advance ..).storeFrame
  next => cases ht

/-- An STM is held for the host, lost on a region that sleeps, or written. -/
theorem exec_stm_frame (ecc : Ecc) (t : State) (h : exec (.stm n ⟨w, ecc⟩) s = .next t) :
    StoreFrame (longAddr (s.strand n) w) 4 s t := by
  cases h
  refine s.storeFrame_issue n w _ _ _ _ fun t ht => ?_
  simp only [State.atIssue_longAddr] at ht
  split at ht
  next => cases ht
  next a ha =>
    split at ht
    next u hgate =>
      cases ht
      exact ((State.sameFiles_gate _ _ _ _ _ hgate).trans (u.sameFiles_holdStrand n)).storeFrame
    next =>
      split at ht <;> cases ht
      next =>
        have hfresh : (s.atIssue n w).sameFiles { s.atIssue n w with fresh := (s.atIssue n w).fresh + 1 } :=
          State.sameFiles_of rfl rfl
        exact (hfresh.trans (State.sameFiles_advance ..)).storeFrame
      next =>
        exact (State.sameFiles_strike ..).storeFrame.trans _ _ _
          ((State.storeFrame_write _ a _ _ ha (leBytes_length ..)).trans _ _ _ (State.sameFiles_advance ..).storeFrame)

end

/-! ### An instruction that stores nothing -/

/-- Memory, and every register file but strand n's, are those of s. -/
def State.sameBut (n : StrandId) (s t : State) : Prop :=
  t.mem = s.mem ∧ ∀ m, m ≠ n → (t.strand m).files = (s.strand m).files

section
variable {n : StrandId}

theorem State.sameBut.trans (a b c : State) (h : a.sameBut n b) (h' : b.sameBut n c) : a.sameBut n c :=
  ⟨h'.1.trans h.1, fun m hm => (h'.2 m hm).trans (h.2 m hm)⟩

theorem State.sameFiles.sameBut {s t : State} (h : s.sameFiles t) : s.sameBut n t := ⟨h.1, fun m _ => h.2 m⟩

theorem State.sameBut_modStrand (s : State) (f : Strand → Strand) : s.sameBut n (s.modStrand n f) :=
  ⟨rfl, fun m hm => by rw [State.strand_modStrand_ne s n m f hm.symm]⟩

theorem State.sameBut_modStrand_advance (s : State) (f : Strand → Strand) :
    s.sameBut n ((s.modStrand n f).advance n) :=
  (s.sameBut_modStrand f).trans _ _ _ (State.sameFiles_advance ..).sameBut

/-- A body, once it goes through, leaves all but its strand's registers. -/
def Body.sameBut (n : StrandId) (body : Body) : Prop := ∀ s t, body s = .ok t → s.sameBut n t

theorem regBody_sameBut (f : Strand → Strand) : Body.sameBut n (regBody n f) := by
  intro s t h
  cases h
  exact s.sameBut_modStrand_advance f

theorem tdBody_sameBut (i v : Nat) : Body.sameBut n (tdBody n i v) := by
  intro s t h
  unfold tdBody at h
  dsimp only at h
  split at h
  next => cases h
  next => exact regBody_sameBut _ s t h

theorem tdChecked_sameBut {w : Word64} {reads : Strand → Bool} {body : Body} (hb : Body.sameBut n body) :
    Body.sameBut n (tdChecked w reads n body) := by
  intro s t h
  unfold tdChecked at h
  split at h
  next => exact hb s t h
  next => cases h

theorem ldsBody_sameBut (w : Word64) (ecc : Ecc) : Body.sameBut n (ldsBody n w ecc) := by
  intro s t h
  unfold ldsBody at h
  dsimp only at h
  split at h
  next => cases h
  next a _ =>
    have hmet : s.sameFiles ((s.eccAt a 4 ecc).meet [(a, 4)]) := (State.sameFiles_eccAt ..).trans (State.sameFiles_meet ..)
    split at h
    next => cases h
    next =>
      split at h
      next => cases h; exact (State.sameFiles.refl _).sameBut
      next =>
        split at h
        next => cases h; exact (hmet.trans (State.sameFiles_strandFaultAt ..)).sameBut
        next => exact hmet.sameBut.trans _ _ _ (regBody_sameBut _ _ _ h)

end

section
variable (s : State) (n : StrandId) (w : Word64)

theorem State.issue_sameBut (op : Nat) (dec win : Bool) (body : Body) (hb : Body.sameBut n body) :
    s.sameBut n (s.issue n w op dec win body) :=
  State.issue_rel (State.sameBut n) State.sameBut.trans (fun _ _ h => h.sameBut) s n w op dec win body fun t => hb _ t

theorem exec_ldm_sameBut (t : State) (h : exec (.ldm n w) s = .next t) : s.sameBut n t := by
  cases h
  refine s.issue_sameBut n w _ _ _ _ fun s t h => ?_
  split at h
  next => cases h
  next a _ =>
    split at h
    next => cases h; exact (State.sameFiles.refl _).sameBut
    next =>
      split at h <;> cases h
      next u hgate =>
        exact (State.sameFiles_gate _ _ _ _ _ hgate).sameBut.trans _ _ _ (u.sameBut_modStrand _)
      next => exact s.sameBut_modStrand _

theorem exec_br_sameBut (t : State) (h : exec (.br n w) s = .next t) : s.sameBut n t := by
  cases h
  refine s.issue_sameBut n w _ _ _ _ fun s t h => ?_
  dsimp only at h
  split at h <;> cases h
  exact (State.sameFiles_goto ..).sameBut

theorem exec_rep_sameBut (t : State) (h : exec (.rep n w) s = .next t) : s.sameBut n t := by
  change execRep n w s = _ at h
  unfold execRep at h
  dsimp only at h
  split at h
  next =>
    split at h <;> cases h
    next => exact (State.sameFiles_strandFaultAt ..).sameBut
    next =>
      split
      next => exact (s.sameBut_modStrand fun _ => _).trans _ _ _ (State.sameFiles_goto ..).sameBut
      next => exact (State.sameFiles_goto ..).sameBut
  next =>
    cases h
    refine s.issue_sameBut n w _ _ _ _ fun s t h => ?_
    split at h <;> cases h
    exact s.sameBut_modStrand _

theorem exec_nop_sameBut (e : Ecc) (t : State) (h : exec (.nop n ⟨w, e⟩) s = .next t) : s.sameBut n t := by
  change execNop n ⟨w, e⟩ s = _ at h
  unfold execNop at h
  dsimp only at h
  split at h
  next => cases h; exact (State.sameFiles_strandFaultAt ..).sameBut
  next =>
    split at h <;> cases h
    next => exact (State.sameFiles_strandFaultAt ..).sameBut
    next => exact s.issue_sameBut n w _ _ _ _ (regBody_sameBut _)

theorem exec_tdld_sameBut (t : State) (h : exec (.tdld n w) s = .next t) : s.sameBut n t := by
  cases h
  refine s.issue_sameBut n w _ _ _ _ (tdChecked_sameBut fun s t h => ?_)
  split at h
  next => cases h
  next a _ =>
    split at h
    next => cases h; exact (State.sameFiles.refl _).sameBut
    next =>
      have hmet := s.sameFiles_meet [(a, 16)]
      dsimp only at h
      split at h
      next => cases h; exact (hmet.trans (State.sameFiles_strandFaultAt ..)).sameBut
      next => exact hmet.sameBut.trans _ _ _ (tdBody_sameBut _ _ _ _ h)

theorem exec_tdset_sameBut (t : State) (h : exec (.tdset n w) s = .next t) : s.sameBut n t := by
  cases h
  refine s.issue_sameBut n w _ _ _ _ (tdChecked_sameBut fun s t h => ?_)
  dsimp only at h
  split at h
  next => split at h <;> cases h
  next => exact tdBody_sameBut _ _ _ _ h

theorem exec_fop_sameBut (t : State) (h : exec (.fop n w) s = .next t) : s.sameBut n t := by
  cases h
  refine s.issue_sameBut n w _ _ _ _ fun s t h => ?_
  split at h
  next => cases h
  next => exact regBody_sameBut _ s t h

/-- The data of an LDM write a register, are held for the host, or stop the strand. -/
theorem exec_ldmDataReturn_sameBut (ecc : Ecc) (t : State) (h : exec (.ldmDataReturn n ecc) s = .next t) :
    s.sameBut n t := by
  change execLdmDataReturn n ecc s = _ at h
  unfold execLdmDataReturn at h
  dsimp only at h
  split at h
  next d a _ =>
    have hmet : s.sameFiles (((s.eccAt a 4 ecc).meet [(a, 4)]).readMark a 4) :=
      (State.sameFiles_eccAt ..).trans ((State.sameFiles_meet ..).trans (State.sameFiles_readMark ..))
    split at h
    next => cases h; exact (State.sameFiles.refl _).sameBut
    next =>
      split at h
      next u hgate => cases h; exact (State.sameFiles_gate _ _ _ _ _ hgate).sameBut
      next =>
        split at h
        next =>
          cases h
          have hfresh : s.sameFiles { s with fresh := s.fresh + 1 } := State.sameFiles_of rfl rfl
          exact hfresh.sameBut.trans _ _ _ (State.sameBut_modStrand_advance _ _)
        next =>
          split at h <;> cases h
          next => exact (hmet.trans (State.sameFiles_strandFaultAt ..)).sameBut
          next => exact hmet.sameBut.trans _ _ _ (State.sameBut_modStrand_advance _ _)
  next => cases h; exact (State.sameFiles.refl _).sameBut

end

end Sys2Proof.Machine

open Sys2Proof Sys2Proof.Machine

/-- Settles O9: a store, done, held or faulted, is in StoreFrame of its address, and each of the others in State.sameBut
of its strand. -/
theorem strandMemoryFrames : Obligations.StrandMemoryFrames := by
  refine ⟨fun s n w hw => ⟨fun t h => ?sts, fun ecc t h => ?stm, fun t h => ?tdst⟩, fun s n w ecc => ?others⟩
  case sts => have hf := exec_sts_frame s n w t h; exact ⟨hf.bytes hw, hf.files⟩
  case stm => have hf := exec_stm_frame s n w ecc t h; exact ⟨hf.bytes hw, hf.files⟩
  case tdst => have hf := exec_tdst_frame s n w t h; exact ⟨hf.bytes hw, hf.files⟩
  case others =>
    simp only [List.forall_mem_cons, List.not_mem_nil, false_implies, implies_true, and_true]
    refine ⟨fun t h => ?lds, exec_ldm_sameBut s n w, exec_ldmDataReturn_sameBut s n ecc, exec_br_sameBut s n w,
      exec_rep_sameBut s n w, exec_tdld_sameBut s n w, fun t h => ?tdmov, exec_tdset_sameBut s n w, fun t h => ?tdget,
      fun t h => ?tdadd, fun t h => ?fmov, exec_fop_sameBut s n w, fun t h => ?clrc, exec_nop_sameBut s n w ecc⟩
    case lds => cases h; exact s.issue_sameBut n w _ _ _ _ (ldsBody_sameBut w ecc)
    case tdmov => cases h; exact s.issue_sameBut n w _ _ _ _ (tdChecked_sameBut fun s => tdBody_sameBut _ _ s)
    case tdget => cases h; exact s.issue_sameBut n w _ _ _ _ (tdChecked_sameBut (regBody_sameBut _))
    case tdadd => cases h; exact s.issue_sameBut n w _ _ _ _ (tdChecked_sameBut (regBody_sameBut _))
    case fmov => cases h; exact s.issue_sameBut n w _ _ _ _ (regBody_sameBut _)
    case clrc => cases h; exact s.issue_sameBut n w _ _ _ _ (regBody_sameBut _)
end

section
/-!
PROOFS. Hand-offs to engines and queues (08 R163, R164): STGRUN, STGWAIT and LAUNCHIF wait, and STGWAIT's predicate.
-/
namespace Sys2Proof.Machine

open Sys2Proof

/-! ### Outside a window -/

/-- What an instruction acts on is the state with its strand's wait over and another issue path. -/
theorem State.atIssue_eq (s : State) (n : StrandId) (w : Word64) :
    ∃ p, s.atIssue n w = s.setStrand n { s.strand n with wait := .none, path := p } := by
  unfold State.atIssue
  dsimp only
  split
  · exact ⟨_, State.setStrand_setStrand ..⟩
  · exact ⟨(s.strand n).path, rfl⟩

/-- Outside a window nothing comes after what the body does. -/
theorem State.issue_out (s t : State) (n : StrandId) (w : Word64) (op : Nat) (dec win : Bool) (body : Body)
    (hi : s.issues n w op = true) (hd : dec = true) (hout : (s.strand n).inWindow = false)
    (hb : body (s.atIssue n w) = .ok t) : s.issue n w op dec win body = t :=
  (s.issue_ok t n w op dec win body hi hd (.inr hout) hb).trans (s.afterIssue_out t n hout)

theorem State.issue_ran_out (s : State) (n : StrandId) (w : Word64) (op : Nat) (dec win : Bool) (body : Body)
    (f : Strand → Strand) (hi : s.issues n w op = true) (hd : dec = true) (hout : (s.strand n).inWindow = false)
    (hb : body (s.atIssue n w) = regBody n f (s.atIssue n w)) : s.issue n w op dec win body = s.ran n w f :=
  s.issue_ok _ n w op dec win body hi hd (.inr hout) hb

/-! ### Bytes of a longer read -/

theorem memGetN_drop (m : List Host.Cell) (a k j : Nat) : (memGetN m a (k + j)).drop k = memGetN m (a + k) j := by
  induction k generalizing a with
  | zero => rw [Nat.zero_add]; rfl
  | succ k ih => rw [Nat.add_right_comm, memGetN, List.drop_succ_cons, ih, Nat.add_assoc, Nat.add_comm 1 k]

/-- The count after the 64 bytes of a LAUNCHIF's record (R164). -/
theorem launchCount_eq (m : List Host.Cell) (a : Nat) :
    ((memGetN m a 68).drop 64).take 4 = memGetN m (a + 64) 4 := by
  rw [memGetN_drop m a 64 4]
  exact List.take_of_length_le (Nat.le_of_eq (memGetN_len ..))

section
variable (s : State) (n : StrandId) (w : Word64)

/-! ### Staging engines (R163) -/

theorem exec_stgrun_waits (hi : s.issues n w 0x60 = true) (hsub : (fmtX w).sub < 4)
    (hout : (s.strand n).inWindow = false) :
    let off := ((s.strand n).reg (fmtX w).a).toNat
    off % 64 = 0 → off < scratchSize →
      exec (.stgrun n w) s
        = .next (s.waits n w (.stgrun (fin4 (fmtX w).sub) off ((s.strand n).reg (fmtX w).b))) := by
  intro off halign hin
  refine congrArg _ (s.issue_ok _ n w _ _ _ _ hi (decide_eq_true hsub) (.inr hout) ?_)
  have hformat : (off % 64 != 0 || decide (scratchSize ≤ off)) = false := by simp [halign, hin]
  dsimp only
  rw [State.atIssue_reg]
  exact if_neg (ne_true_of_eq_false hformat)

theorem exec_stgwait_waits (hi : s.issues n w 0x61 = true) (hsub : (fmtX w).sub < 4)
    (hout : (s.strand n).inWindow = false) :
    exec (.stgwait n w) s = .next (s.waits n w (.stgwait (fin4 (fmtX w).sub) (fmtX w).pd)) := by
  refine congrArg _ (s.issue_ok _ n w _ _ _ _ hi (decide_eq_true hsub) (.inr hout) ?_)
  rfl

/-- A program that has ended sets the predicate by whether it ended without a fault. -/
theorem exec_stgwaitProceed_ended (e : Fin 4) (pd : Nat) (hwait : (s.strand n).wait = .stgwait e pd)
    (hgo : s.going n = true) :
    ((s.strand n).stg[e] = .ok → exec (.stgwaitProceed n) s = .next (s.proceed n fun x => x.setPred pd true))
      ∧ ((s.strand n).stg[e] = .failed → exec (.stgwaitProceed n) s = .next (s.proceed n fun x => x.setPred pd false)) := by
  change (_ → execStgwaitProceed n s = _) ∧ (_ → execStgwaitProceed n s = _)
  unfold execStgwaitProceed
  constructor <;> intro hend <;> simp only [hwait, hgo, hend, Bool.not_true, Bool.false_eq_true, if_false]

/-! ### LAUNCHIF (R164) -/

/-- The count and its poison, as they enter argument word 0. -/
theorem State.countIn_eq (a : Nat) :
    s.countIn a = s.write (a + 0x20) (((memGetN s.mem a 68).drop 64).take 4) (s.read (a + 64) 4).2 := by
  rw [launchCount_eq]
  rfl

theorem State.countIn_strand (a : Nat) : (s.countIn a).strand n = s.strand n :=
  congrFun (State.strand_of_strands (State.write_strands ..)) n

/-- LAUNCHIF of a record that no job in flight writes: by its count it goes on or waits with its record. -/
theorem exec_launchif_reads (hi : s.issues n w 0x62 = true) (hsub : (fmtX w).sub = 0)
    (hout : (s.strand n).inWindow = false) (hin : ((s.strand n).reg (fmtX w).a).toNat + 68 ≤ scratchSize) :
    let a := scratchBase (regionOf n) + ((s.strand n).reg (fmtX w).a).toNat
    let bs := memGetN s.mem a 68
    let u := (s.atIssue n w).meet [(a, 68)]
    s.hazard n [(a, 68)] = false →
      exec (.launchif n w) s = .next (if leValue (bs.drop 64) = 0 then u.proceed n fun x => x.setPred (fmtX w).pd false
        else (u.countIn a).modStrand n fun x => { x with
          wait := .launchif (((s.strand n).reg (fmtX w).b).toNat % 2 ^ 20) (launchRecOf bs) (u.read a 68).2 (fmtX w).pd }) := by
  intro a bs u hfree
  have hpred : (s.strand n).predOn w = true := by
    simp only [State.issues, Bool.and_eq_true] at hi
    exact hi.2
  change execLaunchif n w s = _
  unfold execLaunchif
  simp only [hpred, Bool.not_true, Bool.and_false, Bool.false_eq_true, if_false]
  refine congrArg _ (s.issue_out _ n w _ _ _ _ hi (by simp [hsub]) hout ?_)
  simp only [State.atIssue_reg, scratchAddr_inside n hin, State.atIssue_hazard, hfree, State.meet_read_bytes,
    State.atIssue_mem, a, u, State.modStrand, State.countIn_strand, State.meet_strand, Bool.false_eq_true, if_false]
  split <;> rfl

end

end Sys2Proof.Machine

open Sys2Proof Sys2Proof.Machine

/-- Settles O16: STGRUN and STGWAIT leave the strand waiting, LAUNCHIF goes by its count, and STGWAIT's predicate is how
the awaited program ended. -/
theorem handOffs : Obligations.HandOffs := by
  refine fun s n w => ⟨fun hout => ⟨fun h => ?stgrun, fun h => ?stgwait, fun h => ?launchif⟩,
    fun e pd hwait hgo => exec_stgwaitProceed_ended s n e pd hwait hgo⟩
  case stgrun =>
    simp only [Bool.and_eq_true, beq_iff_eq, decide_eq_true_eq] at h
    obtain ⟨⟨⟨hi, hsub⟩, halign⟩, hin⟩ := h
    exact exec_stgrun_waits s n w hi hsub hout halign hin
  case stgwait =>
    simp only [Bool.and_eq_true, decide_eq_true_eq] at h
    obtain ⟨hi, hsub⟩ := h
    exact exec_stgwait_waits s n w hi hsub hout
  case launchif =>
    simp only [Bool.and_eq_true, beq_iff_eq, decide_eq_true_eq, Bool.not_eq_true'] at h
    obtain ⟨⟨⟨hi, hsub⟩, hin⟩, hfree⟩ := h
    have hexec := exec_launchif_reads s n w hi hsub hout hin hfree
    refine ⟨fun hzero => ?zero, fun hcount => ?count⟩
    case zero => rw [hexec, if_pos hzero, s.afterIssue_out _ n hout]
    case count =>
      rw [hexec, if_neg hcount, State.countIn_eq, State.meet_mem, State.atIssue_mem]
      rfl
end

section
/-!
PROOFS. The strand's side of the mailboxes (08 R170).
-/
namespace Sys2Proof.Machine

open Sys2Proof

section
variable (s : State) (n : StrandId) (w : Word64)

theorem State.atIssue_s2h : (s.atIssue n w).s2h = s.s2h := by
  obtain ⟨p, hp⟩ := s.atIssue_eq n w
  rw [hp]; rfl

theorem State.atIssue_h2s : (s.atIssue n w).h2s = s.h2s := by
  obtain ⟨p, hp⟩ := s.atIssue_eq n w
  rw [hp]; rfl

/-! ### Mailboxes (R170) -/

section
variable (hsub : (fmtX w).sub = 0) (hout : (s.strand n).inWindow = false)
include hsub hout

theorem exec_mbxw_empty (hi : s.issues n w 0x80 = true) (hempty : (s.s2h n).full = false) :
    exec (.mbxw n w) s = .next (((s.atIssue n w).mbxPut n
      (pairWord ((s.strand n).reg (fmtX w).b) ((s.strand n).reg (fmtX w).a))).advance n) := by
  refine congrArg _ (s.issue_out _ n w _ _ _ _ hi (by simp [hsub]) hout ?_)
  dsimp only
  rw [State.atIssue_s2h, hempty, State.atIssue_reg, if_neg (by decide)]

theorem exec_mbxw_full (hi : s.issues n w 0x80 = true) (hfull : (s.s2h n).full = true) :
    exec (.mbxw n w) s
      = .next (s.waits n w (.mbxw (pairWord ((s.strand n).reg (fmtX w).b) ((s.strand n).reg (fmtX w).a)))) := by
  refine congrArg _ (s.issue_ok _ n w _ _ _ _ hi (by simp [hsub]) (.inr hout) ?_)
  dsimp only
  rw [State.atIssue_s2h, hfull, State.atIssue_reg, if_pos rfl]
  rfl

theorem exec_mbxr_full (hi : s.issues n w 0x81 = true) (hfull : (s.h2s n).full = true) :
    exec (.mbxr n w) s = .next (((s.atIssue n w).mbxTake n).proceed n fun x =>
      x.takeWord (fmtX w).a (fmtX w).b (s.h2s n).word) := by
  refine congrArg _ (s.issue_out _ n w _ _ _ _ hi (by simp [hsub]) hout ?_)
  rw [State.atIssue_h2s, hfull, if_pos rfl]

theorem exec_mbxr_empty (hi : s.issues n w 0x81 = true) (hempty : (s.h2s n).full = false) :
    exec (.mbxr n w) s = .next (s.waits n w (.mbxr (fin32 (fmtX w).a) (fin32 (fmtX w).b))) := by
  refine congrArg _ (s.issue_ok _ n w _ _ _ _ hi (by simp [hsub]) (.inr hout) ?_)
  rw [State.atIssue_h2s, hempty, if_neg (by decide)]

end

theorem exec_mbxt_ran (hi : s.issues n w 0x82 = true) (hsub : (fmtX w).sub < 2) (hout : (s.strand n).inWindow = false) :
    exec (.mbxt n w) s = .next (s.ran n w fun x =>
      x.setPred (fmtX w).pd (if (fmtX w).sub = 0 then (s.h2s n).full else (s.s2h n).full)) := by
  refine congrArg _ (s.issue_ran_out n w _ _ _ _ _ hi (decide_eq_true hsub) hout ?_)
  rw [State.atIssue_h2s, State.atIssue_s2h]

theorem exec_mbxwProceed_empty (v : Word64) (hwait : (s.strand n).wait = .mbxw v)
    (hgo : (s.going n && !(s.s2h n).full) = true) :
    exec (.mbxwProceed n) s = .next ((s.mbxPut n v).proceed n id) := by
  change execMbxwProceed n s = _
  simp only [execMbxwProceed, hwait, hgo, if_true]

theorem exec_mbxrProceed_full (a b : Fin 32) (hwait : (s.strand n).wait = .mbxr a b)
    (hgo : (s.going n && (s.h2s n).full) = true) :
    exec (.mbxrProceed n) s
      = .next ((s.mbxTake n).proceed n fun x => x.takeWord a.val b.val (s.h2s n).word) := by
  change execMbxrProceed n s = _
  simp only [execMbxrProceed, hwait, hgo, if_true]

end

end Sys2Proof.Machine

open Sys2Proof Sys2Proof.Machine

/-- Settles O19: MBXW and MBXR by whether their mailbox is full, at issue and when they wait, and MBXT by the flag. -/
theorem strandMailboxes : Obligations.StrandMailboxes := by
  refine fun s n w => ⟨fun hout => ⟨fun h => ?put, fun h => ?putWaits, fun h => ?take, fun h => ?takeWaits, fun h => ?test⟩,
    exec_mbxwProceed_empty s n, exec_mbxrProceed_full s n⟩
  case put =>
    simp only [Bool.and_eq_true, beq_iff_eq, Bool.not_eq_true'] at h
    obtain ⟨⟨hi, hsub⟩, hempty⟩ := h
    exact exec_mbxw_empty s n w hsub hout hi hempty
  case putWaits =>
    simp only [Bool.and_eq_true, beq_iff_eq] at h
    obtain ⟨⟨hi, hsub⟩, hfull⟩ := h
    exact exec_mbxw_full s n w hsub hout hi hfull
  case take =>
    simp only [Bool.and_eq_true, beq_iff_eq] at h
    obtain ⟨⟨hi, hsub⟩, hfull⟩ := h
    exact exec_mbxr_full s n w hsub hout hi hfull
  case takeWaits =>
    simp only [Bool.and_eq_true, beq_iff_eq, Bool.not_eq_true'] at h
    obtain ⟨⟨hi, hsub⟩, hempty⟩ := h
    exact exec_mbxr_empty s n w hsub hout hi hempty
  case test =>
    simp only [Bool.and_eq_true, decide_eq_true_eq] at h
    obtain ⟨hi, hsub⟩ := h
    exact exec_mbxt_ran s n w hi hsub hout
end

section
/-!
PROOFS. The digest of a launch (08 R173; 12 R259): DGADD and DGFIN with and without a request.
-/
namespace Sys2Proof.Machine

open Sys2Proof

section
variable (s : State) (n : StrandId) (w : Word64)

/-- A strand's stream is kept in the engine of its number. -/
theorem exec_dgadd_appends (hi : s.issues n w 0xB0 = true) (hsub : (fmtX w).sub < 2)
    (hout : (s.strand n).inWindow = false) :
    let u := s.atIssue n w
    let len := ((u.strand n).reg (fmtX w).b).toNat
    let a := scratchBase (regionOf n) + ((u.strand n).reg (fmtX w).a).toNat
    (u.strand n).wantsDigest = true → ((u.strand n).reg (fmtX w).a).toNat + len ≤ scratchSize →
      u.hazard n [(a, len)] = false →
      exec (.dgadd n w) s = .next (((u.meet [(a, len)]).modEngine n fun e =>
        { e with shaD := e.shaD ++ digestRecord (fmtX w).sub (memGetN u.mem a len) }).advance n) := by
  intro u len a hwants hin hfree
  refine congrArg _ (s.issue_out _ n w _ _ _ _ hi (decide_eq_true hsub) hout ?_)
  simp only [hwants, scratchAddr_inside n hin, u, len, a, hfree, State.meet_mem, Bool.not_true, Bool.false_eq_true,
    if_false]

theorem exec_dgadd_idle (hi : s.issues n w 0xB0 = true) (hsub : (fmtX w).sub < 2)
    (hout : (s.strand n).inWindow = false) (hno : ((s.atIssue n w).strand n).wantsDigest = false) :
    exec (.dgadd n w) s = .next ((s.atIssue n w).advance n) := by
  refine congrArg _ (s.issue_out _ n w _ _ _ _ hi (decide_eq_true hsub) hout ?_)
  dsimp only
  rw [hno]
  rfl

theorem exec_dgfin_takes (hi : s.issues n w 0xB1 = true) (hsub : (fmtX w).sub = 0)
    (hout : (s.strand n).inWindow = false) (hwants : ((s.atIssue n w).strand n).wantsDigest = true) :
    exec (.dgfin n w) s = .next (s.ran n w fun x =>
      { x with digest := some (sha256 ((s.atIssue n w).engine n).shaD) }) := by
  refine congrArg _ (s.issue_ran_out n w _ _ _ _ _ hi (by simp [hsub]) hout ?_)
  exact if_pos hwants

theorem exec_dgfin_idle (hi : s.issues n w 0xB1 = true) (hsub : (fmtX w).sub = 0)
    (hout : (s.strand n).inWindow = false) (hno : ((s.atIssue n w).strand n).wantsDigest = false) :
    exec (.dgfin n w) s = .next ((s.atIssue n w).advance n) := by
  refine congrArg _ (s.issue_out _ n w _ _ _ _ hi (by simp [hsub]) hout ?_)
  exact if_neg (by rw [hno]; decide)

end

end Sys2Proof.Machine

open Sys2Proof Sys2Proof.Machine

/-- Settles O24: by whether the launch asks for a digest that is not yet finished. -/
theorem digestStream : Obligations.DigestStream := by
  refine fun s n w => ⟨fun h => ?add, fun h => ?addIdle, fun h => ?finish, fun h => ?finishIdle⟩
  case add =>
    simp only [Bool.and_eq_true, decide_eq_true_eq, Bool.not_eq_true'] at h
    obtain ⟨⟨⟨⟨⟨hi, hsub⟩, hout⟩, hwants⟩, hin⟩, hfree⟩ := h
    exact exec_dgadd_appends s n w hi hsub hout hwants hin hfree
  case addIdle =>
    simp only [Bool.and_eq_true, decide_eq_true_eq, Bool.not_eq_true'] at h
    obtain ⟨⟨⟨hi, hsub⟩, hout⟩, hno⟩ := h
    exact exec_dgadd_idle s n w hi hsub hout hno
  case finish =>
    simp only [Bool.and_eq_true, beq_iff_eq, Bool.not_eq_true'] at h
    obtain ⟨⟨⟨hi, hsub⟩, hout⟩, hwants⟩ := h
    exact exec_dgfin_takes s n w hi hsub hout hwants
  case finishIdle =>
    simp only [Bool.and_eq_true, beq_iff_eq, Bool.not_eq_true'] at h
    obtain ⟨⟨⟨hi, hsub⟩, hout⟩, hno⟩ := h
    exact exec_dgfin_idle s n w hi hsub hout hno
end

section
/-!
PROOFS. Windows and arrival flags (06 R123 to R125; 08 R165, R167).
-/
namespace Sys2Proof.Machine

open Sys2Proof

/-! ### Flags -/

theorem Strand.flag_setFlag_same (x : Strand) (i : Nat) (v : Flag) (h : i < 64) : (x.setFlag i v).flag i = v := by
  simp [Strand.setFlag, Strand.flag, h, List.getD]

theorem Strand.setFlag_run (x : Strand) (i : Nat) (v : Flag) : (x.setFlag i v).run = x.run := by
  unfold Strand.setFlag; split <;> rfl

/-- ARM takes an IDLE or a CLOSED flag (R123). -/
theorem armAt_isSome (a : Flag) : (armAt a).isSome = (a == .idle || a == .closed) := by cases a <;> rfl

/-- WAITA takes the other two (R165). -/
theorem Flag.idle_or_closed (a : Flag) : (a == .idle || a == .closed) = !(a == .armed || a == .set) := by cases a <;> rfl

section
variable (s : State) (n : StrandId) (w : Word64)

theorem State.atIssue_settled : (s.atIssue n w).settled n = s.settled n := by
  obtain ⟨p, hp⟩ := s.atIssue_eq n w
  rw [hp]; rfl

theorem State.atIssue_flag : ((s.atIssue n w).strand n).flag = (s.strand n).flag := by
  obtain ⟨p, hp⟩ := s.atIssue_strand n w
  rw [hp]; rfl

/-! ### Windows (R165, R167) -/

theorem exec_start_opens (hi : s.issues n w 0x70 = true) (hsub : (fmtX w).sub = 0)
    (hout : (s.strand n).inWindow = false) (hs : s.settled n = true) :
    exec (.start n w) s = .next ((s.ran n w id).modStrand n Strand.openWindow) := by
  refine congrArg _ (s.issue_out _ n w _ _ _ _ hi (by simp [hsub]) hout ?_)
  rw [State.atIssue_settled, hs, State.ran, State.modStrand_id, s.afterIssue_out _ n hout, if_neg (by decide)]

theorem exec_endW_waits (hi : s.issues n w 0x71 = true) (hsub : (fmtX w).sub = 0)
    (hin : (s.strand n).inWindow = true) : exec (.endW n w) s = .next (s.waits n w .endW) := by
  refine congrArg _ (s.issue_ok _ n w _ _ _ _ hi (by simp [hsub]) (.inl rfl) ?_)
  exact if_neg (by rw [State.atIssue_inWindow, hin]; decide)

theorem exec_endComplete_closes (h : (s.going n && (s.strand n).wait == .endW && s.settled n) = true) :
    exec (.endComplete n) s = .next (s.proceed n Strand.closeWindow) := by
  change execEndComplete n s = _
  exact if_pos h

/-! ### ARM and WAITA (R123, R165) -/

theorem exec_arm_ran (hi : s.issues n w 0x72 = true) (hd : ((fmtX w).sub == 0 && (fmtX w).f0 + (fmtX w).nf < 64) = true)
    (hfl : ((flagSpan (fmtX w).f0 (fmtX w).nf).all fun i =>
      (s.strand n).flag i == .idle || (s.strand n).flag i == .closed) = true) :
    exec (.arm n w) s = .next (s.ran n w fun x =>
      (flagSpan (fmtX w).f0 (fmtX w).nf).foldl (fun x i => x.setFlag i .armed) x) := by
  refine congrArg _ (s.issue_ran n w _ _ _ _ hi hd ?_)
  simp only [State.atIssue_flag, armAt_isSome, hfl, if_true]

theorem exec_waita_waits (hi : s.issues n w 0x73 = true)
    (hd : ((fmtX w).sub == 0 && (fmtX w).f0 + (fmtX w).nf < 64) = true) (hout : (s.strand n).inWindow = false)
    (hfl : ((flagSpan (fmtX w).f0 (fmtX w).nf).all fun i =>
      (s.strand n).flag i == .armed || (s.strand n).flag i == .set) = true) :
    exec (.waita n w) s = .next (s.waits n w (.waita (fmtX w).f0 (fmtX w).nf)) := by
  refine congrArg _ (s.issue_ok _ n w _ _ _ _ hi hd (.inl rfl) ?_)
  have hnone : ((flagSpan (fmtX w).f0 (fmtX w).nf).any fun i =>
      (s.strand n).flag i == .idle || (s.strand n).flag i == .closed) = false := by
    simp only [Flag.idle_or_closed, ← List.not_all_eq_any_not, hfl, Bool.not_true]
  dsimp only
  rw [State.atIssue_flag, State.atIssue_inWindow, hnone, hout]
  rfl

/-- The window that a completed WAITA opens. -/
theorem exec_waitaProceed_opens (f0 nf : Nat) (hwait : (s.strand n).wait = .waita f0 nf)
    (hgo : (s.going n && (flagSpan f0 nf).all fun i => (s.strand n).flag i == .set) = true) :
    let t := s.proceed n fun x => (flagSpan f0 nf).foldl (fun x i => x.setFlag i .idle) x
    exec (.waitaProceed n) s = .next (if (t.strand n).run == .running then t.modStrand n Strand.openWindow else t) := by
  intro t
  change execWaitaProceed n s = _
  simp only [execWaitaProceed, hwait, hgo, if_true, t]

/-! ### Arrivals (R123, R124) -/

/-- An arrival while the strand runs a launch, in a region with power. -/
theorem State.arrival_running (i : Nat) (hp : (s.region (regionOf n)).state ≠ 4) (hr : (s.strand n).run = .running) :
    let r := arriveAt ((s.strand n).flag i)
    let t := s.setStrand n
      ({ s.strand n with arriveDrop := if r.2.1 then satAdd (s.strand n).arriveDrop 1 else (s.strand n).arriveDrop }.setFlag
        i r.1)
    s.arrival n i = if r.2.2 then t.strandFault n .sequence else t := by
  intro r t
  have hrun : ((s.strand n).run == .running || (s.strand n).run == .loading) = true := by rw [hr]; rfl
  unfold State.arrival
  dsimp only
  rw [if_neg hp, if_pos hrun]

theorem State.arrival_idle (i : Nat) (hp : (s.region (regionOf n)).state ≠ 4) (hr : (s.strand n).run = .idle) :
    s.arrival n i = s.setStrand n { s.strand n with arriveDrop := satAdd (s.strand n).arriveDrop 1 } := by
  have hrun : ((s.strand n).run == .running || (s.strand n).run == .loading) = false := by rw [hr]; rfl
  unfold State.arrival
  dsimp only
  rw [if_neg hp, if_neg (by rw [hrun]; decide)]

/-- An arrival that is too early or comes twice. -/
theorem State.arrival_sequence (i : Nat) (hp : (s.region (regionOf n)).state ≠ 4) (hr : (s.strand n).run = .running)
    (hfl : (arriveAt ((s.strand n).flag i)).2.2 = true) :
    ((s.arrival n i).strand n).run = .faulted ∧ ((s.arrival n i).strand n).faultKind = 3 := by
  rw [s.arrival_running n i hp hr, if_pos hfl]
  refine (State.strandFault_registers _ n .sequence ?running).imp_right And.left
  case running =>
    rw [State.strand_setStrand, Strand.setFlag_run]
    exact hr

end

end Sys2Proof.Machine

open Sys2Proof Sys2Proof.Machine

/-- Settles O17: the instructions by what is in flight and by their flags, and an arrival by arriveAt of its flag. -/
theorem windowsAndArrivals : Obligations.WindowsAndArrivals := by
  refine ⟨fun s n w => ⟨fun h => ?start, fun h => ?endW, exec_endComplete_closes s n⟩,
    fun s n w => ⟨fun h => ?arm, fun h => ?waita, exec_waitaProceed_opens s n⟩,
    fun s n i hi hp => ⟨fun hr hf => ?armed, fun hr hf => ?early, fun hr hf => ?closed, s.arrival_idle n i hp⟩⟩
  case start =>
    simp only [Bool.and_eq_true, beq_iff_eq, Bool.not_eq_true'] at h
    obtain ⟨⟨⟨hi, hsub⟩, hout⟩, hs⟩ := h
    exact exec_start_opens s n w hi hsub hout hs
  case endW =>
    simp only [Bool.and_eq_true, beq_iff_eq] at h
    obtain ⟨⟨hi, hsub⟩, hin⟩ := h
    exact exec_endW_waits s n w hi hsub hin
  case arm =>
    rw [Bool.and_assoc (s.issues n w 0x72), Bool.and_assoc, Bool.and_eq_true, Bool.and_eq_true] at h
    obtain ⟨hi, hd, hfl⟩ := h
    exact exec_arm_ran s n w hi hd hfl
  case waita =>
    simp only [Bool.and_eq_true, beq_iff_eq, decide_eq_true_eq, Bool.not_eq_true'] at h
    obtain ⟨⟨⟨⟨hi, hsub⟩, hspan⟩, hout⟩, hfl⟩ := h
    exact exec_waita_waits s n w hi (by simp [hsub, hspan]) hout hfl
  case armed =>
    rw [s.arrival_running n i hp hr, hf]
    refine ⟨?_, ?_⟩
    · exact (congrArg (·.flag i) (State.strand_setStrand ..)).trans (Strand.flag_setFlag_same _ i _ hi)
    · exact (congrArg (·.run) (State.strand_setStrand ..)).trans ((Strand.setFlag_run ..).trans hr)
  case early =>
    refine s.arrival_sequence n i hp hr ?_
    rcases hf with hf | hf <;> rw [hf] <;> rfl
  case closed =>
    rw [s.arrival_running n i hp hr, hf]
    rfl
end

section
/-!
PROOFS. Fences, barriers and the end of a program (08 R169, R175).
-/
namespace Sys2Proof.Machine

open Sys2Proof

section
variable (s : State) (n : StrandId) (w : Word64)

theorem State.atIssue_launch : ((s.atIssue n w).strand n).launch = (s.strand n).launch := by
  obtain ⟨p, hp⟩ := s.atIssue_strand n w
  rw [hp]

section
variable (hout : (s.strand n).inWindow = false)
include hout

theorem exec_rel_waits (hi : s.issues n w 0x74 = true) (hsub : (fmtX w).sub < 3) :
    exec (.rel n w) s = .next (s.waits n w .rel) := by
  refine congrArg _ (s.issue_ok _ n w _ _ _ _ hi (decide_eq_true hsub) (.inr hout) ?_)
  rfl

theorem exec_acq_ran (hi : s.issues n w 0x75 = true) (hsub : (fmtX w).sub < 3) :
    exec (.acq n w) s = .next (s.ran n w id) := by
  refine congrArg _ (s.issue_ran_out n w _ _ _ _ _ hi (decide_eq_true hsub) hout ?_)
  rfl

/-- BAR leaves the strand waiting and noted in its launch's barrier. -/
theorem exec_bar_waits (l : Launched) (hl : (s.strand n).launch = some l) (hi : s.issues n w 0x76 = true)
    (hsub : (fmtX w).sub < 16) :
    exec (.bar n w) s = .next ((s.waits n w (.bar (fmtX w).sub)).modLaunch l.id fun y =>
      { y with barriers := assocSet (fmtX w).sub (setFld (assoc (fmtX w).sub 0 y.barriers) n.val 1 1) y.barriers }) := by
  refine congrArg _ (s.issue_out _ n w _ _ _ _ hi (decide_eq_true hsub) hout ?_)
  have hl : ((s.atIssue n w).strand n).launch = some l := (s.atIssue_launch n w).trans hl
  rw [State.waits, s.afterIssue_out _ n hout]
  simp only [State.modStrand, hl]

/-- HALT, once the strand's writes are visible. -/
theorem exec_halt_ends (l : Launched) (hl : (s.strand n).launch = some l) (hi : s.issues n w 0x77 = true)
    (hsub : (fmtX w).sub = 0) (hr : (s.atIssue n w).released n 2 = true) :
    exec (.halt n w) s = .next ((((((s.atIssue n w).noteDigest n l.id).disown n).setStrand n
      ((s.atIssue n w).strand n).atHalt).endPart n l.id true).unblock n) := by
  refine congrArg _ (s.issue_out _ n w _ _ _ _ hi (by simp [hsub]) hout ?_)
  have hl : ((s.atIssue n w).strand n).launch = some l := (s.atIssue_launch n w).trans hl
  simp only [hr, hl, Bool.not_true, Bool.false_eq_true, if_false]

end

/-- The scope of a waiting REL is that of its word. -/
theorem exec_relComplete_proceeds (v : Word64) (hv : (s.strand n).codeWord = some v)
    (h : (s.going n && (s.strand n).wait == .rel && s.released n (fmtX v).sub) = true) :
    exec (.relComplete n) s = .next (s.proceed n id) := by
  change execRelComplete n s = _
  simp only [execRelComplete, hv, h, if_true]

theorem exec_barComplete_proceeds (y : Launch) (k : Nat) (hready : s.barReady n = some (y, k))
    (hon : s.unitsOn = true) :
    exec (.barComplete n) s = .next ((maskList (lrMask y.lrec)).foldl
      (fun s i => if (s.strand (fin32 i)).wait == .bar k then s.proceed (fin32 i) id else s)
      (s.modLaunch y.id fun y => { y with barriers := assocSet k 0 y.barriers })) := by
  change execBarComplete n s = _
  simp only [execBarComplete, hready, hon, Bool.not_true, Bool.false_eq_true, if_false]

end

end Sys2Proof.Machine

open Sys2Proof Sys2Proof.Machine

/-- Settles O18: REL, ACQ, BAR and HALT at issue, and the rows by which a REL and a barrier end. -/
theorem fencesAndHalt : Obligations.FencesAndHalt := by
  refine fun s n w => ⟨fun hout => ⟨fun h => ?rel, fun h => ?acq, fun l hl h => ?bar, fun l hl h => ?halt⟩,
    exec_relComplete_proceeds s n, exec_barComplete_proceeds s n⟩
  case rel =>
    simp only [Bool.and_eq_true, decide_eq_true_eq] at h
    obtain ⟨hi, hsub⟩ := h
    exact exec_rel_waits s n w hout hi hsub
  case acq =>
    simp only [Bool.and_eq_true, decide_eq_true_eq] at h
    obtain ⟨hi, hsub⟩ := h
    exact exec_acq_ran s n w hout hi hsub
  case bar =>
    simp only [Bool.and_eq_true, decide_eq_true_eq] at h
    obtain ⟨hi, hsub⟩ := h
    exact exec_bar_waits s n w hout l hl hi hsub
  case halt =>
    simp only [Bool.and_eq_true, beq_iff_eq] at h
    obtain ⟨⟨hi, hsub⟩, hr⟩ := h
    exact exec_halt_ends s n w hout l hl hi hsub hr
end

section
/-!
PROOFS. The element-wise vector instructions (08 R161, R162; 02 R43).
-/
namespace Sys2Proof.Machine

open Sys2Proof

section
variable (s : State) (n : StrandId) (w : Word64)

/-- An issued vector instruction whose plan stands has its effect f on what it meets, and goes on. -/
theorem State.issue_vec (op : Nat) (dec : Bool) (c : Instr) (u : TbUse) (ok : State → VecOps → Bool)
    (writes : VecOps → List (Nat × Nat)) (f : State → VecOps → State) (o : VecOps) (hi : s.issues n w op = true)
    (hd : dec = true) (hp : (s.atIssue n w).vecPlan n w c u ok writes = some o) :
    s.issue n w op dec true (vecBody n w c u ok writes f)
      = s.afterIssue n ((f ((s.atIssue n w).vecMet n w u o) o).advance n) :=
  s.issue_ok _ n w op dec true _ hi hd (.inl rfl) (vecBody_ok _ n w c u ok writes f o hp)

/-- VADD, VMUL, VMAX and VMIN. -/
theorem vec2_writes (c : Instr) (op : Nat) (f : VecOps → Val → Val → Val) (o : VecOps)
    (hp : (s.atIssue n w).vecPlan n w c .tile (fun _ o => dstOk false o.ta.fmt o.td.fmt && bFits o) tileWrites = some o)
    (h : (s.issues n w op && zeroT w && (fmtT w).sub == 0) = true) :
    let u := (s.atIssue n w).vecMet n w .tile o
    vec2 n w c s op f = .next (s.afterIssue n ((u.mapTile n o fun r k =>
      (comb2 (f o) (u.src o.ta r k) (u.srcB o r k), keepEvents)).advance n)) := by
  rw [Bool.and_assoc, Bool.and_eq_true] at h
  exact congrArg _ (s.issue_vec n w op _ c .tile _ tileWrites _ o h.1 h.2 hp)

end

end Sys2Proof.Machine

open Sys2Proof Sys2Proof.Machine

/-- Settles O13: each instruction's plan stands, so that its effect is what State.issue_vec says; VCVT's is State.vcvt. -/
theorem vectorElementwise : Obligations.VectorElementwise := by
  intro s n w o
  dsimp only
  refine ⟨vec2_writes s n w _ _ (fun _ => Val.add) o, vec2_writes s n w _ _ vmulVal o,
    vec2_writes s n w _ _ (fun _ => Val.max) o, vec2_writes s n w _ _ (fun _ => Val.min) o, fun hp h => ?vfma,
    fun hp h => ?vcmp, fun hp h => ?vcvt, fun hp h => ?vread⟩ <;>
    rw [Bool.and_assoc, Bool.and_eq_true] at h <;> obtain ⟨hi, hd⟩ := h
  case vfma => exact congrArg _ (s.issue_vec n w _ _ _ _ _ _ _ o hi hd hp)
  case vcmp => exact congrArg _ (s.issue_vec n w _ _ _ _ _ _ _ o hi hd hp)
  case vcvt =>
    refine congrArg _ ((s.issue_vec n w _ _ _ _ _ _ _ o hi hd hp).trans ?_)
    unfold State.vcvt
    split <;> rfl
  case vread => exact congrArg _ (s.issue_vec n w _ _ _ _ _ _ _ o hi hd hp)
end

section
/-!
PROOFS. The vector instructions that stand for single stages of a chain (08 R161, R162).
-/
namespace Sys2Proof.Machine

open Sys2Proof

/-! ### An issue check in front of the decode checks -/

theorem and_head_tail {a b c : Bool} (h : (a && b && c) = true) : a = true ∧ (b && c) = true := by
  rwa [Bool.and_assoc, Bool.and_eq_true] at h

theorem and_head_tail₂ {a b c d : Bool} (h : (a && b && c && d) = true) : a = true ∧ (b && c && d) = true := by
  rwa [Bool.and_assoc, Bool.and_assoc, ← Bool.and_assoc b, Bool.and_eq_true] at h

/-! ### Grids as lists -/

/-- A grid of m rows of k entries, row after row. -/
theorem length_flatMap_range {α : Type} (f : Nat → Nat → α) (m k : Nat) :
    ((List.range m).flatMap fun t => (List.range k).map (f t)).length = m * k := by
  induction m with
  | zero => exact (Nat.zero_mul k).symm
  | succ m ih =>
    rw [List.range_succ, List.flatMap_append, List.length_append, ih, List.flatMap_singleton, List.length_map,
      List.length_range, Nat.succ_mul]

theorem getElem?_flatMap_range {α : Type} (f : Nat → Nat → α) {m k t r : Nat} (ht : t < m) (hr : r < k) :
    ((List.range m).flatMap fun t => (List.range k).map (f t))[t * k + r]? = some (f t r) := by
  induction m with
  | zero => omega
  | succ m ih =>
    have hlen := length_flatMap_range f m k
    rw [List.range_succ, List.flatMap_append, List.flatMap_singleton]
    rcases Nat.lt_succ_iff_lt_or_eq.1 ht with hlt | rfl
    · have hin : t * k + r < m * k :=
        calc t * k + r < (t + 1) * k := by rw [Nat.succ_mul]; omega
          _ ≤ m * k := Nat.mul_le_mul_right k hlt
      rw [List.getElem?_append_left (by rw [hlen]; exact hin), ih hlt]
    · rw [List.getElem?_append_right (by rw [hlen]; omega), hlen, Nat.add_sub_cancel_left]
      simp [hr]

theorem State.vecMet_strand (s : State) (n m : StrandId) (w : Word64) (u : TbUse) (o : VecOps) :
    (s.vecMet n w u o).strand m = s.strand m := by
  rw [State.vecMet, State.vecHead, State.meet_strand, State.meet_strand]

/-- What the instruction meets leaves the VSUs alone. -/
theorem State.vecMet_vsu (s : State) (n : StrandId) (w : Word64) (u : TbUse) (o : VecOps) :
    (s.vecMet n w u o).vsu = s.vsu := by
  funext r
  rw [State.vsu, State.vsu, State.vecMet, State.vecHead, State.meet_vsus, State.meet_vsus]

/-! ### VLC: its code and its events (R161, Table 6.4) -/

/-- The difference of the codes that VLC writes as an L16 code. -/
def vlcDiff (u : State) (o : VecOps) (r c : Nat) : Int :=
  sext 32 (o.ta.code u.mem r c) - sext 32 ((o.tb.getD o.ta).code u.mem r 0)

/-- VLC's element: its code, its events and its poison. -/
def vlcElem (u : State) (o : VecOps) (r c : Nat) : Nat × Events × Bool :=
  let bad := u.elemBad o.ta r c || u.elemBad (o.tb.getD o.ta) r 0
  if vlcDiff u o r c < -16383 then (0x4000, { un := 1 }, bad)
  else if 16383 < vlcDiff u o r c then (Config.lcAbove (BitVec.ofInt 32 (vlcDiff u o r c)) % 65536, {}, bad)
  else (wrap 15 (vlcDiff u o r c), {}, bad)

theorem vlcElem_below (u : State) (o : VecOps) (r c : Nat) (h : vlcDiff u o r c < -16383) :
    (vlcElem u o r c).1 = 0x4000 ∧ (vlcElem u o r c).2.1 = { un := 1 } := by
  simp only [vlcElem, if_pos h, and_self]

theorem vlcElem_inside (u : State) (o : VecOps) (r c : Nat) (hlo : -16383 ≤ vlcDiff u o r c)
    (hhi : vlcDiff u o r c ≤ 16383) :
    (vlcElem u o r c).1 = wrap 15 (vlcDiff u o r c) ∧ (vlcElem u o r c).2.1 = {} := by
  simp only [vlcElem, if_neg (Int.not_lt.2 hlo), if_neg (Int.not_lt.2 hhi), and_self]

/-! ### The instructions -/

section
variable (s : State) (n : StrandId) (w : Word64) (o : VecOps)

/-- VFN through the slot that SUB names. -/
theorem exec_vfn_writes (bad : List Nat) (hi : s.issues n w 0x47 = true) (hd : (zeroT w && (fmtT w).sub < 32) = true)
    (hp : (s.atIssue n w).vecPlan n w (.vfn n w bad) .no
      (fun s o => dstOk false o.ta.fmt o.td.fmt && (s.vsu (regionFin n)).callable (fmtT w).sub) tileWrites = some o) :
    exec (.vfn n w bad) s
      = .next (s.afterIssue n ((((s.atIssue n w).vecMet n w .no o).applyFn n (fmtT w).sub bad o).advance n)) :=
  congrArg _ (s.issue_vec n w _ _ _ _ _ _ _ o hi hd hp)

/-- VSC by a scalar register or by a vector. -/
theorem exec_vsc_writes (hi : s.issues n w 0x49 = true)
    (hd : (zeroT w && 1 ≤ (fmtT w).sub && (fmtT w).sub < 4) = true) (u : TbUse)
    (hu : u = if (fmtT w).sub = 1 then .no else .tile)
    (hp : (s.atIssue n w).vecPlan n w (.vsc n w) u (fun _ o => dstOk false o.ta.fmt o.td.fmt
      && ((fmtT w).sub == 1 || ((fmtT w).sub == 2 && rowVec o) || ((fmtT w).sub == 3 && colVec o))) tileWrites = some o) :
    let k := fp32 (((s.atIssue n w).strand n).freg (fmtT w).f)
    let y := (s.atIssue n w).vecMet n w u o
    exec (.vsc n w) s = .next (s.afterIssue n ((y.mapTile n o fun r c =>
      (comb2 (vmulVal o) (y.src o.ta r c) (if (fmtT w).sub = 1 then ⟨k, k.isNan, false⟩ else y.srcB o r c),
        keepEvents)).advance n)) := by
  subst hu
  refine congrArg _ ((s.issue_vec n w _ _ _ _ _ _ _ o hi hd hp).trans ?_)
  dsimp only
  rw [State.vecMet_strand]

end

end Sys2Proof.Machine

open Sys2Proof Sys2Proof.Machine

/-- Settles O14: each instruction's plan stands, so that its effect is what State.issue_vec says; VLC's elements are those
of vlcElem and VRD's entries a grid. -/
theorem vectorStages : Obligations.VectorStages := by
  intro s n w o
  dsimp only
  refine ⟨fun bad hp h => ?vfn, fun hp h => ?vsc, fun hp h => ?vbi, fun hp h => ?vds, fun hp h => ?vlc, fun hp h => ?vrd⟩
  case vfn =>
    obtain ⟨hi, hd⟩ := and_head_tail h
    refine (exec_vfn_writes s n w o bad hi hd hp).trans ?_
    unfold State.applyFn State.fnInput
    dsimp only
    rw [State.vecMet_vsu]
  case vsc =>
    obtain ⟨hi, hd⟩ := and_head_tail₂ h
    refine (exec_vsc_writes s n w o hi hd _ rfl hp).trans ?_
    split <;> rfl
  case vbi =>
    obtain ⟨hi, hd⟩ := and_head_tail₂ h
    exact congrArg _ (s.issue_vec n w _ _ _ _ _ _ _ o hi hd hp)
  case vds =>
    obtain ⟨hi, hd⟩ := and_head_tail h
    refine ⟨fun hl => ?scaled, fun hl => ?offset⟩ <;>
      refine congrArg _ ((s.issue_vec n w _ _ _ _ _ _ _ o hi hd hp).trans ?_)
    case scaled => rw [if_neg (by rw [hl]; decide)]
    case offset => rw [if_pos hl]
  case vlc =>
    obtain ⟨hi, hd⟩ := and_head_tail h
    exact ⟨vlcElem ((s.atIssue n w).vecMet n w .tile o) o, congrArg _ (s.issue_vec n w _ _ _ _ _ _ _ o hi hd hp),
      fun r c => ⟨vlcElem_below _ o r c, vlcElem_inside _ o r c⟩⟩
  case vrd =>
    obtain ⟨hi, hd⟩ := and_head_tail₂ h
    exact ⟨_, congrArg _ (s.issue_vec n w _ _ _ _ _ _ _ o hi hd hp), length_flatMap_range _ _ _,
      fun t ht r hr => getElem?_flatMap_range _ ht hr⟩
end

section
/-!
PROOFS. The session instructions (08 R172; 11 R228 to R231): sessRun finds its entries, and what each instruction then does.
-/
namespace Sys2Proof.Machine

open Sys2Proof

/-! ### What a look-up leaves -/

theorem State.meetFind_strand (s : State) (q i : Nat) (n : StrandId) : (s.meetFind q i).strand n = s.strand n := by
  unfold State.meetFind State.meetSess
  split
  · rfl
  · dsimp only
    split <;> simp only [State.meet_strand]

theorem State.meet_cxlOn (s : State) (rs : List (Nat × Nat)) : (s.meet rs).cxlOn = s.cxlOn := by
  obtain ⟨m, q, x, e, p, o, k, h, -⟩ := s.meet_frame rs
  rw [h]; rfl

theorem State.meetFind_cxlOn (s : State) (q i : Nat) : (s.meetFind q i).cxlOn = s.cxlOn := by
  unfold State.meetFind State.meetSess
  split
  · rfl
  · dsimp only
    split <;> simp only [State.meet_cxlOn]

theorem State.atIssue_cxlOn (s : State) (n : StrandId) (w : Word64) : (s.atIssue n w).cxlOn = s.cxlOn := by
  obtain ⟨p, hp⟩ := s.atIssue_eq n w
  rw [hp]; rfl

/-- What the SE takes at once is not held. -/
theorem State.seHold_none (s : State) (n : StrandId) (c : Instr) (h : s.seWaits c = false) : s.seHold n c = none :=
  if_neg (by rw [h]; decide)

section
variable (s : State) (n : StrandId) (w : Word64)

/-! ### An instruction on the entries of a session -/

/-- The session that the instruction names. -/
def State.sessOf : Nat := (((s.atIssue n w).strand n).reg (fmtX w).b).toNat

/-- The state once the look-up has read its entries. -/
def State.sessMet : State := (s.atIssue n w).meetFind (s.sessOf n w) (fmtX w).imm

/-- The SE takes instruction c, of opcode k, now, and its entries may be read. -/
def State.sessReady (c : Instr) (k : Nat) : Bool :=
  s.issues n w k && (fmtX w).sub == 0 && !(s.strand n).inWindow && !(s.atIssue n w).seWaits c
    && ((s.atIssue n w).findGate c (s.sessOf n w) (fmtX w).imm).isNone

theorem State.sessMet_strand : (s.sessMet n w).strand n = (s.atIssue n w).strand n := State.meetFind_strand ..

theorem State.sessMet_session : (((s.sessMet n w).strand n).reg (fmtX w).b).toNat = s.sessOf n w := by
  rw [State.sessMet_strand]; rfl

theorem State.sessMet_cxlOn : (s.sessMet n w).cxlOn = s.cxlOn := by
  rw [State.sessMet, State.meetFind_cxlOn, State.atIssue_cxlOn]

variable {c : Instr} {k : Nat} {writes : SessEnt → DirEnt → List (Nat × Nat)} {f : State → Found → State}
  (hr : s.sessReady n w c k = true)
include hr

/-- The entries are there, and the ones that the instruction writes may be written now. -/
theorem sessRun_at {e : SessEnt} {d : DirEnt} (hfind : (s.sessMet n w).find (s.sessOf n w) (fmtX w).imm = .at e d)
    (hgate : ((s.sessMet n w).gate c [] (writes e d)).isNone = true) :
    sessRun n w k c s writes f = f (s.sessMet n w) (.at e d) := by
  simp only [State.sessReady, Bool.and_eq_true, beq_iff_eq, Bool.not_eq_true', Option.isNone_iff_eq_none] at hr hgate
  obtain ⟨⟨⟨⟨hi, hsub⟩, hout⟩, hse⟩, hentries⟩ := hr
  refine s.issue_out _ n w k _ _ _ hi (by simp [hsub]) hout ?_
  unfold State.sessMet State.sessOf at *
  simp only [State.seHold_none _ n c hse, hentries, hfind, hgate]

/-- There is nothing to act on. -/
theorem sessRun_none (hfind : (s.sessMet n w).find (s.sessOf n w) (fmtX w).imm = .none) :
    sessRun n w k c s writes f = f (s.sessMet n w) .none := by
  simp only [State.sessReady, Bool.and_eq_true, beq_iff_eq, Bool.not_eq_true', Option.isNone_iff_eq_none] at hr
  obtain ⟨⟨⟨⟨hi, hsub⟩, hout⟩, hse⟩, hentries⟩ := hr
  refine s.issue_out _ n w k _ _ _ hi (by simp [hsub]) hout ?_
  unfold State.sessMet State.sessOf at *
  simp only [State.seHold_none _ n c hse, hentries, hfind]

end

/-! ### SALLOC, SLOOK and SFREE (R172, R230, R231) -/

theorem exec_salloc (n : StrandId) (w : Word64) (s : State) : exec (.salloc n w) s = execSalloc n w s := rfl
theorem exec_slook (n : StrandId) (w : Word64) (s : State) : exec (.slook n w) s = execSlook n w s := rfl
theorem exec_sfree (n : StrandId) (w : Word64) (s : State) : exec (.sfree n w) s = execSfree n w s := rfl

section
variable (s : State) (n : StrandId) (w : Word64) (e : SessEnt) (d : DirEnt)
  (hfind : (s.sessMet n w).find (s.sessOf n w) (fmtX w).imm = .at e d)
include hfind

/-- An empty entry takes a free page. -/
theorem exec_salloc_takes (k : Nat) (se : Se) (hpage : (s.sessMet n w).se.takePage = some (k, se))
    (hr : s.sessReady n w (.salloc n w) 0xA0 = true) (hv : d.valid = false)
    (hgate : ((s.sessMet n w).gate (.salloc n w) [] (entWrites e d)).isNone = true) :
    exec (.salloc n w) s = .next (((((s.sessMet n w).setSe se).write d.addr
      (dirBytes (se.firstPage + k) false true) false).setCounts e (e.resident + 1) e.spilled).proceed n fun x =>
        (x.setReg (fmtX w).a (BitVec.ofNat 32 (se.firstPage + k))).setPred (fmtX w).pd true) := by
  rw [exec_salloc, execSalloc, sessRun_at s n w hr hfind (by simpa only [hv, Bool.false_eq_true, if_false, if_true] using hgate)]
  simp only [hv, hpage, Bool.false_eq_true, if_false]

/-- An entry that is taken makes p[PD] false. -/
theorem exec_salloc_taken (hr : s.sessReady n w (.salloc n w) 0xA0 = true) (hv : d.valid = true)
    (hgate : ((s.sessMet n w).gate (.salloc n w) [] []).isNone = true) :
    exec (.salloc n w) s = .next ((s.sessMet n w).sessFail n (fmtX w).pd) := by
  rw [exec_salloc, execSalloc, sessRun_at s n w hr hfind (by simpa only [hv, Bool.false_eq_true, if_false, if_true] using hgate)]
  simp only [hv, if_true]

theorem exec_sfree_frees (hr : s.sessReady n w (.sfree n w) 0xA2 = true) (hv : d.valid = true)
    (hgate : ((s.sessMet n w).gate (.sfree n w) [] (entWrites e d)).isNone = true) :
    let u := s.sessMet n w
    let se := if d.spilled then u.se.freeSlot d.loc else u.se.freePage (d.loc - u.se.firstPage)
    exec (.sfree n w) s = .next ((((u.setSe se).write d.addr (dirBytes d.loc d.spilled false) false).setCounts e
      (if d.spilled then e.resident else e.resident - 1) (if d.spilled then e.spilled - 1 else e.spilled)).advance n) := by
  rw [exec_sfree, execSfree, sessRun_at s n w hr hfind (by simpa only [hv, Bool.false_eq_true, if_false, if_true] using hgate)]
  cases hs : d.spilled <;> simp only [hv, hs, Bool.not_true, Bool.false_eq_true, if_true, if_false]

variable (hr : s.sessReady n w (.slook n w) 0xA1 = true)
  (hgate : ((s.sessMet n w).gate (.slook n w) [] []).isNone = true)
include hr hgate

theorem exec_slook_empty (hv : d.valid = false) :
    exec (.slook n w) s = .next ((s.sessMet n w).sessFail n (fmtX w).pd) := by
  rw [exec_slook, execSlook, sessRun_at s n w hr hfind hgate]
  simp only [hv, Bool.not_false, if_true]

/-- A resident page is returned and pinned for the launch. -/
theorem exec_slook_resident (hv : d.valid = true) (hs : d.spilled = false)
    (hpin : (s.sessMet n w).se.pinsFull ((s.atIssue n w).strand n).launchId d.loc = false) :
    exec (.slook n w) s = .next ((s.sessMet n w).lookDone n (fmtX w).a (fmtX w).pd d.loc) := by
  rw [exec_slook, execSlook, sessRun_at s n w hr hfind hgate]
  simp only [hv, hs, State.sessMet_strand, hpin, Bool.not_true, Bool.not_false, Bool.false_eq_true, if_false, if_true]

/-- A spilled page is asked of the host, and the strand waits for it. -/
theorem exec_slook_spilled (k : Nat) (se : Se) (hv : d.valid = true) (hs : d.spilled = true)
    (hpage : (s.sessMet n w).se.takePage = some (k, se))
    (hpin : (s.sessMet n w).se.pinsFull ((s.atIssue n w).strand n).launchId ((s.sessMet n w).se.firstPage + k) = false)
    (hon : s.cxlOn = true) :
    let u := s.sessMet n w
    let a := u.se.slotAddr d.loc
    let v : State := { u with host := { u.host with d2h := u.host.d2h ++ [(D2HAgent.se, true, a, 0x10000)] } }
    exec (.slook n w) s = .next ((v.send (.d2hRead .se a 0x10000)).modStrand n fun x =>
      { x with wait := .slook (fin32 (fmtX w).a) (s.sessOf n w) (fmtX w).imm (fmtX w).pd }) := by
  rw [exec_slook, execSlook, sessRun_at s n w hr hfind hgate]
  have hpin' : (s.sessMet n w).se.pinsFull ((s.sessMet n w).strand n).launchId ((s.sessMet n w).se.firstPage + k) = false := by
    rw [State.sessMet_strand]; exact hpin
  simp only [hv, hs, hpage, hpin', State.sessMet_cxlOn, hon, State.sessMet_session, Bool.not_true, Bool.or_self,
    Bool.false_eq_true, if_false]

end

section
variable (s : State) (n : StrandId) (w : Word64)
  (hnone : (s.sessMet n w).find (s.sessOf n w) (fmtX w).imm = .none)
include hnone

theorem exec_salloc_none (hr : s.sessReady n w (.salloc n w) 0xA0 = true) :
    exec (.salloc n w) s = .next ((s.sessMet n w).sessFail n (fmtX w).pd) := by
  rw [exec_salloc, execSalloc, sessRun_none s n w hr hnone]

theorem exec_slook_none (hr : s.sessReady n w (.slook n w) 0xA1 = true) :
    exec (.slook n w) s = .next ((s.sessMet n w).sessFail n (fmtX w).pd) := by
  rw [exec_slook, execSlook, sessRun_none s n w hr hnone]

theorem exec_sfree_none (hr : s.sessReady n w (.sfree n w) 0xA2 = true) :
    exec (.sfree n w) s = .next ((s.sessMet n w).advance n) := by
  rw [exec_sfree, execSfree, sessRun_none s n w hr hnone]

end

/-! ### SSUM (R172) -/

section
variable (s : State) (n : StrandId) (w : Word64)

/-- What SSUM asks before it looks at its page: the 64 bytes in the scratchpad, none of them in flight, and an SE that
takes it. -/
structure SsumReady (a : Nat) : Prop where
  issues : s.issues n w 0xA3 = true
  sub : (fmtX w).sub = 0
  out : (s.strand n).inWindow = false
  addr : scratchAddr n (((s.atIssue n w).strand n).reg (fmtX w).a).toNat 64 = some a
  free : (s.atIssue n w).hazard n [(a, 64)] = false
  taken : (s.atIssue n w).seWaits (.ssum n w) = false

variable {s n w} {a : Nat} (h : SsumReady s n w a)
include h

/-- The summary of an allocated page is stored, with the poison of what it was read from. -/
theorem exec_ssum_stores :
    let u := s.atIssue n w
    let page := ((u.strand n).reg (fmtX w).b).toNat
    let k := page - u.se.firstPage
    u.se.firstPage ≤ page → k < u.se.poolpages.toNat → u.se.allocated k = true →
      (u.gate (.ssum n w) [] [(u.se.sumAddr k, 64)]).isNone = true →
      exec (.ssum n w) s = .next (((u.meet [(a, 64)]).write (u.se.sumAddr k) ((u.meet [(a, 64)]).read a 64).1
        ((u.meet [(a, 64)]).read a 64).2).advance n) := by
  intro u page k hlo hhi hall hgate
  refine congrArg _ (s.issue_out _ n w _ _ _ _ h.issues (by simp [h.sub]) h.out ?_)
  have hpage : (decide (page < u.se.firstPage) || decide (u.se.poolpages.toNat ≤ k) || !u.se.allocated k) = false := by
    simp [hlo, hhi, hall]
  rw [Option.isNone_iff_eq_none] at hgate
  simp only [u, page, k] at hpage hgate
  simp only [h.addr, h.free, State.seHold_none _ n _ h.taken, hpage, hgate, u, page, k, State.meet_se, Bool.false_eq_true,
    if_false]

/-- A page that is not in the pool, or free, takes none. -/
theorem exec_ssum_elsewhere :
    let u := s.atIssue n w
    let page := ((u.strand n).reg (fmtX w).b).toNat
    let k := page - u.se.firstPage
    (page < u.se.firstPage || u.se.poolpages.toNat ≤ k || !u.se.allocated k) = true →
      exec (.ssum n w) s = .next (u.advance n) := by
  intro u page k hpage
  refine congrArg _ (s.issue_out _ n w _ _ _ _ h.issues (by simp [h.sub]) h.out ?_)
  simp only [u, page, k] at hpage
  simp only [h.addr, h.free, State.seHold_none _ n _ h.taken, hpage, Bool.false_eq_true, if_false, if_true, u]

end

end Sys2Proof.Machine

open Sys2Proof Sys2Proof.Machine

/-- Settles O23: an instruction that the SE takes goes by what its look-up finds (sessRun_at, sessRun_none), and SSUM by
its page. -/
theorem sessions : Obligations.Sessions := by
  refine ⟨fun s n w => ?entries, fun s n w h => ?summary⟩
  case entries =>
    intro f v x q u ready can fails
    refine ⟨fun e d hfind => ⟨fun k se hpage h => ?alloc, fun h => ?allocTaken, fun h => ?look⟩, fun e d hfind h => ?free,
      fun hnone => ⟨fun h => ?allocNone, fun h => ?lookNone, fun h => ?freeNone⟩⟩
    case alloc =>
      obtain ⟨hr, hwrites⟩ := and_head_tail h
      obtain ⟨hv, hgate⟩ := Bool.and_eq_true_iff.1 hwrites
      exact exec_salloc_takes s n w e d hfind k se hpage hr (by simpa using hv) hgate
    case allocTaken =>
      obtain ⟨hr, hwrites⟩ := and_head_tail h
      obtain ⟨hv, hgate⟩ := Bool.and_eq_true_iff.1 hwrites
      exact exec_salloc_taken s n w e d hfind hr hv hgate
    case look =>
      rw [Bool.and_eq_true] at h
      obtain ⟨hr, hgate⟩ := h
      refine ⟨exec_slook_empty s n w e d hfind hr hgate, fun hv hs hpin => ?_, fun k se hv hs hpage hpin hon => ?_⟩
      · refine (exec_slook_resident s n w e d hfind hr hgate hv hs hpin).trans ?_
        rw [State.lookDone, State.sessMet_strand]
        rfl
      · exact exec_slook_spilled s n w e d hfind hr hgate k se hv hs hpage hpin hon
    case free =>
      obtain ⟨hr, hwrites⟩ := and_head_tail h
      obtain ⟨hv, hgate⟩ := Bool.and_eq_true_iff.1 hwrites
      exact exec_sfree_frees s n w e d hfind hr hv hgate
    case allocNone => exact exec_salloc_none s n w hnone h
    case lookNone => exact exec_slook_none s n w hnone h
    case freeNone => exact exec_sfree_none s n w hnone h
  case summary =>
    simp only [Bool.and_eq_true, beq_iff_eq, decide_eq_true_eq, Bool.not_eq_true'] at h
    obtain ⟨⟨⟨⟨⟨hi, hsub⟩, hout⟩, hin⟩, hfree⟩, htaken⟩ := h
    have hready : SsumReady s n w _ := ⟨hi, hsub, hout, scratchAddr_inside n hin, hfree, htaken⟩
    refine ⟨fun h => ?stores, exec_ssum_elsewhere hready⟩
    simp only [Bool.and_eq_true, decide_eq_true_eq] at h
    obtain ⟨⟨⟨hlo, hhi⟩, hall⟩, hgate⟩ := h
    exact exec_ssum_stores hready hlo hhi hall hgate
end

section
/-!
PROOFS. The matrix array (04, R158 to R160): an MMA that is queued, the rows of a stationary set, the swap, and pass
rows.
-/
namespace Sys2Proof.Machine

open Sys2Proof

section MatrixArray

variable {s t : State} {b : BlockId} {p : PartNo} {n : StrandId}

/-! ### Queueing an MMA -/

theorem exec_mma (w : Word64) : exec (.mma n w) s = .next (s.issue n w 0x30 (zeroM w) true (mmaBody n w)) := rfl

/-- What the residual of a chain covers, which an MMA waits for. -/
def Job.residReads (j : Job) : List (Nat × Nat) :=
  match j.crec with
  | some c => (match c.residual with | some t => t.written j.cplx | none => [])
  | none => []

/-- The accumulator areas of the strand's launch. -/
def Strand.accAreas (x : Strand) (n : StrandId) : List (Nat × Nat) :=
  match x.launch with
  | some l => [sectArea n l.sect false, sectArea n l.sect true]
  | none => []

/-- What an MMA does with the job that its operands describe. -/
theorem mmaBody_job {w : Word64} {j : Job} (hpre : s.preReads n (.mma n w) (s.mmaHeaders n w) = none)
    (ht : s.meet (s.mmaHeaders n w).flatten = t) (hjob : t.mmaJob n w = some j) :
    mmaBody n w s =
      if !winRanges (t.strand n) (regionOf n) (j.operands ++ j.inputs ++ j.outRanges) then .error .sequence
      else if !j.overlapOk ((t.strand n).accAreas n) then .error .format
      else if t.accHazard j || t.hazard n (j.operands ++ j.inputs ++ j.residReads) then .ok t
      else match t.gate (.mma n w) (j.operands ++ j.inputs ++ j.chainReads) [] with
        | some v => .ok (v.holdStrand n)
        | none => .ok ((t.enqueue j).dropDone.advance n) := by
  have hx : s.strand n = t.strand n := by rw [← ht, State.meet_strand]
  simp only [mmaBody, hpre, ht, hjob, hx] <;> rfl

/-- An MMA whose checks all pass is queued as its job, and the strand goes on (R158 to R160). -/
theorem mmaBody_queues {w : Word64} {j : Job} (hpre : s.preReads n (.mma n w) (s.mmaHeaders n w) = none)
    (ht : s.meet (s.mmaHeaders n w).flatten = t) (hjob : t.mmaJob n w = some j)
    (hwin : winRanges (t.strand n) (regionOf n) (j.operands ++ j.inputs ++ j.outRanges) = true)
    (hover : j.overlapOk ((t.strand n).accAreas n) = true) (hacc : t.accHazard j = false)
    (hhaz : t.hazard n (j.operands ++ j.inputs ++ j.residReads) = false)
    (hgate : t.gate (.mma n w) (j.operands ++ j.inputs ++ j.chainReads) [] = none) :
    mmaBody n w s = .ok ((t.enqueue j).dropDone.advance n) := by
  simp only [mmaBody_job hpre ht hjob, hwin, hover, hacc, hhaz, hgate, Bool.not_true, Bool.or_self, Bool.false_eq_true,
    if_false]

/-! ### Stationary sets -/

theorem State.loadRow_rows {j : Job} {it : Item} {rows rows' : List (List Cell)} {ecc : Ecc}
    (h : s.loadRow b p n j it rows ecc = .ok (t, rows')) : rows'.length = rows.length + 1 := by
  dsimp only [State.loadRow] at h
  split at h
  · cases h
  · split at h
    · cases h
    · injection h with h
      injection h with _ hrows
      rw [← hrows]
      exact List.length_append ..

theorem State.part_t4live (c : Prop) [Decidable c] :
    (if c then s.setBlock b { s.block b with t4live := (s.block b).t4shadow } else s).part b p = s.part b p := by
  split
  · simp only [State.part, State.block_setBlock]
  · rfl

/-- A row load adds its row to the shadow set or, in a paired-bank part, to the live one (R71, R72). -/
theorem exec_stationaryRowLoad_loads {ecc : Ecc} {j : Job} {it : Item} {rows rows' : List (List Cell)} {direct : Bool}
    (hw : s.worker b p = some n) (htgt : s.loadTarget (s.part b p) = some (j, it, rows, direct))
    (hgate : s.gate (.stationaryRowLoad b p ecc) (j.statReads it rows.length) [] = none)
    (hload : (s.meet (j.statReads it rows.length)).loadRow b p n j it rows ecc = .ok (t, rows')) :
    ∃ v, exec (.stationaryRowLoad b p ecc) s = .next v
      ∧ (if direct then (v.part b p).live else (v.part b p).shadow) =
        { rows := rows', fresh := true, item := some it,
          bad := (!rows.isEmpty && (if direct then (t.part b p).live else (t.part b p).shadow).bad)
            || ecc == .uncorrected } := by
  have hexec : exec (.stationaryRowLoad b p ecc) s = execStationaryRowLoad b p ecc s := rfl
  rw [hexec, execStationaryRowLoad]
  simp only [hw, htgt, hgate, hload]
  cases direct with
  | true => exact ⟨_, rfl, by simp only [if_true, State.part_setPart]⟩
  | false => exact ⟨_, rfl, by simp only [Bool.false_eq_true, if_false, State.part_setPart]⟩

/-- A swap makes a whole shadow set the live one (R72). -/
theorem exec_stationarySwap_swaps {it : Item} (hw : s.worker b p = some n) (hlive : (s.part b p).live.item = none)
    (hshadow : (s.part b p).shadow.item = some it) (hrows : it.rows ≤ (s.part b p).shadow.rows.length) :
    ∃ v, exec (.stationarySwap b p) s = .next v ∧ (v.part b p).live = { (s.part b p).shadow with fresh := false }
      ∧ (v.part b p).shadow = {} ∧ (v.part b p).row = 0 := by
  have hexec : exec (.stationarySwap b p) s = execStationarySwap b p s := rfl
  rw [hexec, execStationarySwap]
  simp only [hw, hlive, hshadow, if_neg (Nat.not_lt.mpr hrows)]
  exact ⟨_, rfl, by simp only [State.part_t4live, State.part_setPart, and_self]⟩

/-! ### Pass rows -/

/-- What the index list names depends on the bytes of memory alone. -/
theorem State.gatherRow_meet (rs : List (Nat × Nat)) (j : Job) (k : Nat) :
    ((s.meet rs).gatherRow j k).1 = (s.gatherRow j k).1 := by
  simp only [State.gatherRow, State.meet_read_bytes]
  split <;> rfl

/-- The groups that a pass row closes carry the item of the live set. -/
theorem State.tokenRow_item (s : State) (j : Job) (it : Item) (x : Part) (tab : List Nat) (q tok : Nat)
    (src : Option Nat) (srcBad : Bool) : ∀ c ∈ (s.tokenRow j it x tab q tok src srcBad).1, c.item = it := by
  intro c hc
  dsimp only [State.tokenRow] at hc
  split at hc
  · split at hc
    · split at hc
      · cases hc
      · split at hc <;> (rw [List.mem_singleton] at hc; rw [hc])
    · cases hc
  · obtain ⟨g, -, rfl⟩ := List.mem_map.mp hc
    rfl

theorem State.t4Error_clean (s : State) (b : BlockId) (n : StrandId) : s.t4Error b n .clean = s := rfl

theorem State.parityErrors_nil (s : State) (b : BlockId) (p : PartNo) (n : StrandId) : s.parityErrors b p n [] = s := rfl

/-- A pass row without an error closes groups of the live set's item and goes on to the next row, or ends the set. -/
theorem exec_passRowIssue_streams {it : Item} {j : Job} (hw : s.worker b p = some n)
    (hlive : (s.part b p).live.item = some it) (hj : s.jobOf it.job = some j)
    (hrows : it.rows ≤ (s.part b p).live.rows.length)
    (htok : ∀ tok ∈ j.rowTokens (s.part b p).row (j.tileRows (j.outTile it.tile)),
      (s.gatherRow j (j.rowBase it + tok)).1.isSome = true)
    (hgate : s.gate (.passRowIssue b p [] .clean) (s.passReads j it (s.part b p).row) [] = none) :
    let x := s.part b p
    let rows := j.tileRows (j.outTile it.tile)
    let total := if j.paired then 2 * rows else j.passRows (j.outTile it.tile)
    ∃ v, exec (.passRowIssue b p [] .clean) s = .next v ∧ v.mem = s.mem
      ∧ (v.part b p).live.item = (if x.row + 1 = total then none else some it)
      ∧ (v.part b p).row = (if x.row + 1 = total then 0 else x.row + 1)
      ∧ ∃ new, (v.part b p).closed = x.closed ++ new ∧ ∀ c ∈ new, c.item = it := by
  intro x rows total
  have hexec : exec (.passRowIssue b p [] .clean) s = execPassRowIssue b p [] .clean s := rfl
  have hmeet : ∀ rs, (s.meet rs).part = s.part := fun rs => State.part_of_blocks (s.meet_blocks rs)
  have hsrc : ∀ rs, (((j.rowTokens (s.part b p).row (j.tileRows (j.outTile it.tile))).map
      fun t => (t, (s.meet rs).gatherRow j (j.rowBase it + t))).any fun y => y.2.1.isNone) = false := by
    intro rs
    rw [List.any_map, List.any_eq_false]
    intro tok h
    simp [State.gatherRow_meet, Option.isNone_iff_eq_none, Option.isSome_iff_ne_none.mp (htok tok h)]
  rw [hexec, execPassRowIssue]
  simp only [hw, hlive, hj, if_neg (Nat.not_lt.mpr hrows), hgate, State.t4Error_clean, ite_self, List.filter_nil,
    State.parityErrors_nil, hmeet, hsrc, Bool.false_eq_true, if_false]
  refine ⟨_, rfl, ?_, ?_, ?_, ?_⟩
  · rw [State.count_mem, State.setPart_mem, State.meet_mem]
  · rw [State.count_part, State.part_setPart]
    simp only [beq_iff_eq, apply_ite StatSet.item, hlive, x, total, rows]
  · rw [State.count_part, State.part_setPart]
    simp only [beq_iff_eq, x, total, rows]
  · rw [State.count_part, State.part_setPart]
    refine ⟨_, rfl, fun c hc => ?_⟩
    obtain ⟨out, hout, hc⟩ := List.mem_flatMap.mp hc
    obtain ⟨y, -, rfl⟩ := List.mem_map.mp hout
    exact State.tokenRow_item _ j it _ _ _ _ _ _ c hc

end MatrixArray

end Sys2Proof.Machine

open Sys2Proof Sys2Proof.Machine

/-- Settles O11: an MMA whose checks pass runs into the last branch of its body; a row load appends its row to the
set being loaded, a swap replaces the live set by the shadow set, and a pass row closes groups of the live set's item. -/
theorem matrixPasses : Obligations.MatrixPasses := by
  refine ⟨?mma, fun s b p n hw => ⟨?load, ?swap⟩, ?pass⟩
  case mma =>
    intro s n w j v u x reads resid areas hjob hpre h
    simp only [Bool.and_eq_true, Bool.not_eq_true', Option.isNone_iff_eq_none] at h
    obtain ⟨⟨⟨⟨⟨⟨hi, hz⟩, hwin⟩, hover⟩, hacc⟩, hhaz⟩, hgate⟩ := h
    rw [exec_mma]
    refine congrArg _ (s.issue_ok _ n w _ _ _ _ hi hz (.inl rfl) ?_)
    exact mmaBody_queues hpre rfl hjob hwin hover hacc hhaz hgate
  case load =>
    intro ecc j it rows rows' direct u htgt hgate hload
    obtain ⟨v, hv, hset⟩ := exec_stationaryRowLoad_loads hw htgt hgate hload
    exact ⟨v, hv, State.loadRow_rows hload, hset⟩
  case swap => exact fun it hlive hshadow hrows => exec_stationarySwap_swaps hw hlive hshadow hrows
  case pass => exact fun s b p n it j hw hlive hj hrows htok hgate =>
    exec_passRowIssue_streams hw hlive hj hrows htok hgate

end

section
/-!
PROOFS. The load of a binary (08 R143 to R147, 11 R223): each check as a proposition, the REASON that a refusal
reports (Table 11.4), and the start of the launch's strands.
-/
namespace Sys2Proof.Machine

open Sys2Proof

section BinaryLoad

variable {s : State} {n : StrandId} {h code sect : List Byte}

theorem not_or_iff_imp (p q : Prop) : ¬p ∨ q ↔ (p → q) :=
  ⟨fun hpq hp => hpq.resolve_left (not_not_intro hp), fun hpq => (Classical.em p).elim (fun hp => .inr (hpq hp)) .inl⟩

/-! ### The checks of the binary (Tables 8.1 and 8.2) -/

theorem nodup_iff (xs : List Nat) : nodup xs = true ↔ xs.Pairwise (· ≠ ·) := by
  induction xs with
  | nil => simp only [nodup, List.Pairwise.nil]
  | cons x t ih =>
    simp only [nodup, Bool.and_eq_true, ih, Bool.not_eq_true', List.contains_eq_mem, decide_eq_false_iff_not,
      List.pairwise_cons, ← List.forall_mem_ne]

theorem partValid_iff (p : Nat) : partValid p = true ↔
    fld p 4 2 = 2 ∨ (fld p 4 2 = 1 ∧ fld p 6 2 < 2) ∨ (fld p 4 2 = 0 ∧ fld p 6 2 = 0) := by
  dsimp only [partValid]
  split <;> simp_all

theorem psetOk_iff (i : Nat) : psetOk sect i = true ↔
    fieldLE sect (0x28 + 2 * i) 2 < 2 ^ fieldLE sect 0 1 ∧ sectPset sect i ≠ []
      ∧ ∀ p ∈ sectPset sect i, fld p 4 2 = fld ((sectPset sect i).headD 0) 4 2 := by
  simp only [psetOk, Bool.and_eq_true, decide_eq_true_eq, Bool.not_eq_true', List.isEmpty_eq_false_iff, List.all_eq_true,
    beq_iff_eq, and_assoc]

/-- The fields of a strand section are as Table 8.2 and R146 ask. -/
def SectFits (x : List Byte) : Prop :=
  fieldLE x 0 1 ≤ 16 ∧ fieldLE x 1 1 ≤ 16 ∧ fieldLE x 2 2 ≤ 256
    ∧ fieldLE x 4 4 % 2 ^ 16 = 0 ∧ fieldLE x 8 4 % 64 = 0 ∧ fieldLE x 0x10 4 % 64 = 0
    ∧ (∀ p ∈ sectParts x, fld p 4 2 = 2 ∨ (fld p 4 2 = 1 ∧ fld p 6 2 < 2) ∨ (fld p 4 2 = 0 ∧ fld p 6 2 = 0))
    ∧ ((sectParts x).map fun p => fld p 0 8).Pairwise (· ≠ ·)
    ∧ (∀ i < fieldLE x 1 1, fieldLE x (0x28 + 2 * i) 2 < 2 ^ fieldLE x 0 1 ∧ sectPset x i ≠ []
        ∧ ∀ p ∈ sectPset x i, fld p 4 2 = fld ((sectPset x i).headD 0) 4 2)
    ∧ fieldLE x 0x48 2 < 2 ^ fieldLE x 1 1 ∧ allZero ((x.drop 0x4A).take 54) = true

theorem sectOk_iff : sectOk sect = true ↔ SectFits sect := by
  simp only [sectOk, SectFits, Bool.and_eq_true, decide_eq_true_eq, beq_iff_eq, List.all_eq_true, List.mem_range,
    partValid_iff, psetOk_iff, nodup_iff, and_assoc]

theorem headerOk_iff (profile : Nat) : headerOk h code profile = true ↔
    fieldLE h 0 4 = 0x3154434F ∧ fieldLE h 4 2 = 1 ∧ fieldLE h 6 2 = 0
      ∧ fieldLE h 8 4 % 8 = 0 ∧ 8 ≤ fieldLE h 8 4 ∧ fieldLE h 8 4 ≤ 65536 ∧ fieldLE h 0xC 4 % 8 = 0
      ∧ fieldLE h 0xC 4 < fieldLE h 8 4 ∧ fieldLE h 0x10 8 = profile ∧ fieldLE h 0x18 8 % 32 = 0
      ∧ fieldLE h 0x18 8 < 2 ^ 42 ∧ place (fieldLE h 0x18 8) ≠ .reserved ∧ sha256 code = (h.drop 0x20).take 32 := by
  simp only [headerOk, Bool.and_eq_true, decide_eq_true_eq, beq_iff_eq, bne_iff_ne, and_assoc]

/-! ### The checks against what the chip holds -/

/-- A claim of a part, packed into a number as the map check compares it, is the claim. -/
theorem claim_pack_inj {c d : Nat × Nat × Nat} (hc : c.2.1 < 4 ∧ c.2.2 < 4) (hd : d.2.1 < 4 ∧ d.2.2 < 4) :
    c.1 * 16 + c.2.1 * 4 + c.2.2 = d.1 * 16 + d.2.1 * 4 + d.2.2 ↔ c = d := by
  constructor
  · intro he
    refine Prod.ext ?_ (Prod.ext ?_ ?_) <;> omega
  · rintro rfl
    rfl

theorem claimsOf_lt (n : StrandId) (sect : List Byte) : ∀ c ∈ claimsOf n sect, c.2.1 < 4 ∧ c.2.2 < 4 := by
  intro c hc
  obtain ⟨p, -, rfl⟩ := List.mem_map.mp hc
  exact ⟨Nat.mod_lt _ (by decide), Nat.mod_lt _ (by decide)⟩

theorem mapOk_iff {claims : List (Nat × Nat × Nat)} (hlt : ∀ c ∈ claims, c.2.1 < 4 ∧ c.2.2 < 4) :
    s.mapOk claims = true ↔
      (∀ c ∈ claims, let b := s.block (fin128 c.1)
          (b.parts.toList.getD c.2.2 {}).owner = none
            ∧ ((∃ p ∈ b.parts.toList, p.owner ≠ none) → modeBits b.mode = c.2.1)
            ∧ ∀ d ∈ claims, c.1 = d.1 → c.2.1 = d.2.1)
        ∧ claims.Pairwise (· ≠ ·) := by
  have hpairs : nodup (claims.map fun c => c.1 * 16 + c.2.1 * 4 + c.2.2) = true ↔ claims.Pairwise (· ≠ ·) := by
    rw [nodup_iff, List.pairwise_map]
    exact List.Pairwise.iff_of_mem fun hc hd => not_congr (claim_pack_inj (hlt _ hc) (hlt _ hd))
  rw [State.mapOk, Bool.and_eq_true, hpairs]
  refine and_congr_left fun _ => ?_
  simp only [List.all_eq_true, Bool.and_eq_true, Option.isNone_iff_eq_none, Bool.or_eq_true, Bool.not_eq_true',
    ← Bool.not_eq_true, not_or_iff_imp, List.any_eq_true, Option.isSome_iff_ne_none, beq_iff_eq, bne_iff_ne, ne_eq,
    and_assoc]

theorem areasOk_iff (others : Sects) (n : StrandId) (sect : List Byte) : areasOk others n sect = true ↔
    fieldLE sect 8 4 + fieldLE sect 0xC 4 ≤ scratchSize ∧ fieldLE sect 0x10 4 + fieldLE sect 0x14 4 ≤ basinSize
      ∧ ∀ p ∈ others, ∀ a ∈ [sectArea p.1 p.2 false, sectArea p.1 p.2 true],
          ∀ c ∈ [sectArea n sect false, sectArea n sect true], overlap a c = false := by
  simp only [areasOk, areasOf, Bool.and_eq_true, decide_eq_true_eq, List.all_eq_true, Bool.not_eq_true', and_assoc]

theorem shareOk_iff (all : Sects) (n : StrandId) (sect : List Byte) : shareOk all n sect = true ↔
    ((all.filter fun p => regionOf p.1 == regionOf n).map fun p => fieldLE p.2 2 2).sum ≤ 256
      ∧ ∀ i < fieldLE sect 1 1, bitAt (fieldLE sect 0x48 2) i = true →
          ∀ p ∈ sectPset sect i, 64 / 2 ^ fld p 4 2 ≤ fieldLE sect 2 2 := by
  simp only [shareOk, Bool.and_eq_true, decide_eq_true_eq, List.all_eq_true, List.mem_range, Bool.or_eq_true,
    Bool.not_eq_true', ← Bool.not_eq_true, not_or_iff_imp, List.sum_eq_foldl, List.foldl_map]

theorem slotsOk_iff (others : Sects) (n : StrandId) (sect : List Byte) : slotsOk others n sect = true ↔
    ∀ i < 32, bitAt (fieldLE sect 4 4) i = true →
      ∀ p ∈ others, regionOf p.1 = regionOf n → bitAt (fieldLE p.2 4 4) i = false := by
  simp only [slotsOk, List.all_eq_true, List.mem_range, Bool.or_eq_true, Bool.not_eq_true', bne_iff_ne, ne_eq,
    ← Bool.not_eq_true, not_or_iff_imp]

theorem State.mem_heldSects (s : State) (m : StrandId) (x : List Byte) :
    (m, x) ∈ s.heldSects ↔ s.holding m = true ∧ s.sectHeld m = x := by
  simp only [State.heldSects, List.mem_filterMap, List.mem_map, List.mem_range]
  constructor
  · rintro ⟨k, -, hk⟩
    split at hk
    · cases hk
      exact ⟨‹_›, rfl⟩
    · cases hk
  · rintro ⟨hhold, rfl⟩
    exact ⟨m, ⟨m.val, m.isLt, fin32_val m⟩, by rw [if_pos hhold]⟩

theorem State.holding_sectHeld (s : State) (m : StrandId) (x : List Byte) :
    s.holding m = true ∧ s.sectHeld m = x ↔ x ≠ [] ∧ ∃ y, (s.strand m).launch = some y ∧ y.sect = x := by
  cases hl : (s.strand m).launch with
  | none => simp only [State.holding, hl, Bool.false_eq_true, false_and, reduceCtorEq, exists_false, and_false]
  | some y =>
    simp only [State.holding, State.sectHeld, hl, Bool.not_eq_true', List.isEmpty_eq_false_iff, Option.some.injEq,
      exists_eq_left']
    exact and_congr_left fun hx => by rw [hx]

theorem State.mem_runningSects (s : State) (m : StrandId) (x : List Byte) : (m, x) ∈ s.runningSects ↔
    (s.strand m).run ≠ .faulted ∧ x ≠ [] ∧ ∃ y, (s.strand m).launch = some y ∧ y.sect = x := by
  rw [State.runningSects, List.mem_filter, State.mem_heldSects, State.holding_sectHeld, bne_iff_ne, and_comm]

/-! ### The REASON of a refusal -/

/-- The first of six checks that fails is the one reported, as 2 to 7; 0 when none fails. -/
theorem lowestReason {p₂ p₃ p₄ p₅ p₆ p₇ : Prop} [Decidable p₂] [Decidable p₃] [Decidable p₄] [Decidable p₅] [Decidable p₆]
    [Decidable p₇] {why : Nat} (h : why = if ¬p₂ then 2 else if ¬p₃ then 3 else if ¬p₄ then 4 else if ¬p₅ then 5
      else if ¬p₆ then 6 else if ¬p₇ then 7 else 0) :
    (why = 2 ↔ ¬p₂) ∧ (p₂ → (why = 3 ↔ ¬p₃)) ∧ (p₂ → p₃ → (why = 4 ↔ ¬p₄)) ∧ (p₂ → p₃ → p₄ → (why = 5 ↔ ¬p₅))
      ∧ (p₂ → p₃ → p₄ → p₅ → (why = 6 ↔ ¬p₆))
      ∧ (p₂ → p₃ → p₄ → p₅ → p₆ → (why = 7 ↔ ¬p₇) ∧ (why = 0 ↔ p₇)) := by
  subst h
  by_cases h₂ : p₂
  case neg => simp [h₂]
  by_cases h₃ : p₃
  case neg => simp [h₂, h₃]
  by_cases h₄ : p₄
  case neg => simp [h₂, h₃, h₄]
  by_cases h₅ : p₅
  case neg => simp [h₂, h₃, h₄, h₅]
  by_cases h₆ : p₆
  case neg => simp [h₂, h₃, h₄, h₅, h₆]
  by_cases h₇ : p₇ <;> simp [h₂, h₃, h₄, h₅, h₆, h₇]

theorem ite_congr_of_iff {p q : Prop} [Decidable p] [Decidable q] {x y z : Nat} (hpq : p ↔ q) (hyz : y = z) :
    (if p then x else y) = if q then x else z :=
  ite_congr (propext hpq) (fun _ => rfl) fun _ => hyz

/-- The sections of a launch's strands. -/
def sectsOf (ns : List StrandId) (h : List Byte) : Sects := ns.map fun m => (m, sectOf h m)

/-- The reason of a refusal, through what each check says. -/
theorem State.refusal_eq (s : State) (ns : List StrandId) (h code : List Byte) (bad : Bool)
    {binary map areas shares slots vsus : Prop} [Decidable binary] [Decidable map] [Decidable areas] [Decidable shares]
    [Decidable slots] [Decidable vsus]
    (hbinary : binary ↔ (bad = false ∧ headerOk h code s.mgt.profile.toNat = true)
      ∧ ∀ o ∈ sectsOf ns h, sectOk o.2 = true)
    (hmap : map ↔ s.mapOk ((sectsOf ns h).flatMap fun o => claimsOf o.1 o.2) = true)
    (hareas : areas ↔ ∀ o ∈ sectsOf ns h, areasOk s.runningSects o.1 o.2 = true)
    (hshares : shares ↔ ∀ o ∈ sectsOf ns h, shareOk (s.runningSects ++ sectsOf ns h) o.1 o.2 = true)
    (hslots : slots ↔ ∀ o ∈ sectsOf ns h,
      slotsOk (s.runningSects ++ (sectsOf ns h).filter fun p => p.1 != o.1) o.1 o.2 = true)
    (hvsus : vsus ↔ ∀ o ∈ sectsOf ns h, (s.vsu (regionFin o.1)).disabled = false) :
    s.refusal ns h code bad = if ¬binary then 2 else if ¬map then 3 else if ¬areas then 4 else if ¬shares then 5
      else if ¬slots then 6 else if ¬vsus then 7 else 0 := by
  have hall (f : StrandId × List Byte → Bool) :
      (!(sectsOf ns h).all f) = true ↔ ¬∀ o ∈ sectsOf ns h, f o = true := by
    rw [Bool.not_eq_true', ← Bool.not_eq_true, List.all_eq_true]
  refine ite_congr_of_iff ?_ (ite_congr_of_iff ?_ (ite_congr_of_iff ?_ (ite_congr_of_iff ?_
    (ite_congr_of_iff ?_ (ite_congr_of_iff ?_ rfl)))))
  · rw [hbinary, Classical.not_and_iff_not_or_not, Classical.not_and_iff_not_or_not, Bool.or_eq_true, Bool.or_eq_true,
      Bool.not_eq_false, Bool.not_eq_true', Bool.not_eq_true]
    exact or_congr_right (hall _)
  · rw [hmap, Bool.not_eq_true', Bool.not_eq_true]
    rfl
  · exact (hall _).trans (not_congr hareas.symm)
  · exact (hall _).trans (not_congr hshares.symm)
  · exact (hall _).trans (not_congr hslots.symm)
  · rw [hvsus, List.any_eq_true]
    simp only [Classical.not_forall, Bool.not_eq_false, exists_prop]
    rfl

/-! ### The load -/

theorem State.waitingIn_meet (rs : List (Nat × Nat)) (l : Launch) : (s.meet rs).waitingIn l = s.waitingIn l := by
  simp only [State.waitingIn, State.meet_strand]

/-- A strand of an accepted launch runs; of another launch it reads the header and goes on to the checks. -/
theorem exec_binaryLoad_loading {y : Launched} {l : Launch} (hx : (s.strand n).launch = some y)
    (hl : s.launchOf y.id = some l)
    (hrun : (s.unitsOn && (s.strand n).run == .loading && !(s.strand n).disabled && s.awake (regionOf n)) = true) :
    exec (.binaryLoad n) s = if l.accepted then .next (s.setStrand n { s.strand n with run := .running })
      else match s.gate (.binaryLoad n) [(lrBin l.lrec, binHeader)] [] with
        | some t => .next t
        | none =>
          let a := lrBin l.lrec
          let v := s.meet [(a, binHeader)]
          let h := v.read a binHeader
          let size := fieldLE h.1 8 4
          if ¬(a % 64 = 0 ∧ a + binHeader + size ≤ 0xF000000000 ∧ size ≤ 65536) then .next (v.refuseLaunch l 2)
          else match v.gate (.binaryLoad n) [(a, binHeader + size)] [] with
            | some t => .next t
            | none =>
              let z := v.meet [(a + binHeader, size)]
              let c := z.read (a + binHeader) size
              let u := z.readMark a (binHeader + size)
              let why := u.refusal (s.waitingIn l) h.1 c.1 (h.2 || c.2)
              if why ≠ 0 then .next (u.refuseLaunch l why)
              else .next (((s.waitingIn l).foldl (fun s m => s.setUp m y h.1 c.1) (u.modLaunch l.id fun l =>
                  { l with accepted := true, codehash := (h.1.drop 0x20).take 32, profile := fieldLE h.1 0x10 8 })).modStrand n
                    fun x => { x with run := .running }) := by
  simp only [Bool.and_eq_true, beq_iff_eq, Bool.not_eq_true'] at hrun
  obtain ⟨⟨⟨hon, hload⟩, hdis⟩, hawake⟩ := hrun
  have hexec : exec (.binaryLoad n) s = execBinaryLoad n s := rfl
  rw [hexec, execBinaryLoad]
  simp only [hx, hl, hon, hload, hdis, hawake, Bool.not_true, bne_self_eq_false, Bool.or_self, Bool.false_eq_true, if_false,
    State.waitingIn_meet, Bool.not_eq_true', decide_eq_false_iff_not] <;> rfl

end BinaryLoad

end Sys2Proof.Machine

open Sys2Proof Sys2Proof.Machine

/-- Settles O33: the load's equation gives the first clauses; each check of a refusal is rewritten as what it says, and the
chain of checks reports the first one that fails. -/
theorem binaryLoading : Obligations.BinaryLoading := by
  intro s n y l x a v h size z c ns u hx hl hrun
  refine ⟨fun hacc => ?accepted, fun hacc hal hin hsize hgates => ?checked, fun h code ns bad => ?reasons⟩
  case accepted => rw [exec_binaryLoad_loading hx hl hrun, if_pos hacc]
  case checked =>
    simp only [Bool.and_eq_true, Option.isNone_iff_eq_none] at hgates
    obtain ⟨hgate, hgate'⟩ := hgates
    have hexec := exec_binaryLoad_loading hx hl hrun
    rw [hacc, if_neg Bool.false_ne_true, hgate] at hexec
    dsimp only at hexec
    rw [if_neg (not_not_intro ⟨hal, hin, hsize⟩), hgate'] at hexec
    exact ⟨fun hwhy => hexec.trans (if_neg (not_not_intro hwhy)), fun hwhy => hexec.trans (if_pos hwhy)⟩
  case reasons =>
    intro sects claims held why fine binary map areas shares slots vsus
    classical
    have hwhy := s.refusal_eq ns h code bad (binary := binary) (map := map) (areas := areas) (shares := shares)
      (slots := slots) (vsus := vsus) ?binary ?map ?areas ?shares ?slots .rfl
    case binary =>
      have hsects : (∀ o ∈ sectsOf ns h, sectOk o.2 = true) ↔ ∀ o ∈ sects, fine o.1 o.2 := by
        refine forall₂_congr fun o ho => ?_
        obtain ⟨m, -, rfl⟩ := List.mem_map.mp ho
        simp only [sectOk_iff, SectFits, fine, and_true]
      rw [headerOk_iff, hsects]
      simp only [binary, and_assoc]
    case map =>
      refine (mapOk_iff fun c hc => ?_).symm
      obtain ⟨o, -, hc⟩ := List.mem_flatMap.mp hc
      exact claimsOf_lt _ _ c hc
    case areas => exact forall₂_congr fun o _ => (areasOk_iff _ _ _).symm
    case shares => exact forall₂_congr fun o _ => (shareOk_iff _ _ _).symm
    case slots => exact forall₂_congr fun o _ => (slotsOk_iff _ _ _).symm
    obtain ⟨r₂, r₃, r₄, r₅, r₆, r₇⟩ := lowestReason hwhy
    exact ⟨r₂, r₃, r₄, r₅, r₆, r₇, s.mem_runningSects⟩

end

section
/-!
PROOFS. The host's side of the mailboxes and the MC's (11 R234 to R237).
-/
namespace Sys2Proof.Machine

open Sys2Proof

/-! ### The word that a host write leaves, and the bits that an event sets -/

section
variable (m : Mbx) (h : Half) (v : Word64)

theorem Mbx.hostWrite_empty (hempty : m.full = false) :
    m.hostWrite h v = ({ word := m.wordFor h v, full := true, latch := 0 }, true) := by
  rw [Mbx.hostWrite, hempty, if_neg Bool.false_ne_true]

theorem Mbx.hostWrite_full (hfull : m.full = true) : m.hostWrite h v = ({ m with latch := 0 }, false) :=
  if_pos hfull

end

section
variable (s : State) (n : StrandId)

@[simp] theorem State.setH2s_h2s (m : Mbx) : (s.setH2s n m).h2s n = m := by
  simp [State.h2s, State.setH2s]

@[simp] theorem State.overrun_h2s : s.overrun.h2s n = s.h2s n := rfl

/-- An event sets its bits, whether or not its vector goes out. -/
theorem State.mbxEvent_mbx (pend : Word64) (mc : BitVec 2) : (s.mbxEvent pend mc).mbx
    = { s.mbx with pend := s.mbx.pend ||| pend, mcpend := s.mbx.mcpend ||| mc } := by
  unfold State.mbxEvent
  dsimp only
  split
  · rw [State.sendMsix_mbx, State.setMbx_mbx]
  · rw [State.setMbx_mbx]

/-! ### The host's side (R234, R235) -/

section
variable (h : Half) (v : Word64) (hon : s.fabricOn = true)
include hon

theorem exec_mbxH2sWrite_stores (hhalf : h ≠ .lower) (hempty : (s.h2s n).full = false) :
    exec (.mbxH2sWrite n h v) s = .next ((s.setH2s n
      { word := (s.h2s n).wordFor h v, full := true, latch := 0 }).wakeIfAsleep (regionFin n)) := by
  change execMbxH2sWrite n h v s = _
  cases h with
  | lower => exact absurd rfl hhalf
  | upper | whole =>
    unfold execMbxH2sWrite
    rw [hon, Mbx.hostWrite_empty _ _ _ hempty]
    rfl

theorem exec_mbxH2sWrite_overruns (hhalf : h ≠ .lower) (hfull : (s.h2s n).full = true) :
    exec (.mbxH2sWrite n h v) s = .next (s.setH2s n { s.h2s n with latch := 0 }).overrun := by
  change execMbxH2sWrite n h v s = _
  cases h with
  | lower => exact absurd rfl hhalf
  | upper | whole =>
    unfold execMbxH2sWrite
    rw [hon, Mbx.hostWrite_full _ _ _ hfull]
    rfl

theorem exec_mbxH2sWrite_latches :
    exec (.mbxH2sWrite n .lower v) s = .next (s.setH2s n { s.h2s n with latch := lowWord v }) := by
  change execMbxH2sWrite n .lower v s = _
  rw [execMbxH2sWrite, hon]
  rfl

theorem exec_mbxH2mcWrite_stores (hhalf : h ≠ .lower) (hempty : s.mbx.h2mc.full = false) :
    exec (.mbxH2mcWrite h v) s = .next (s.setMbx
      { s.mbx with h2mc := { word := s.mbx.h2mc.wordFor h v, full := true, latch := 0 } }) := by
  change execMbxH2mcWrite h v s = _
  cases h with
  | lower => exact absurd rfl hhalf
  | upper | whole =>
    unfold execMbxH2mcWrite
    rw [hon, Mbx.hostWrite_empty _ _ _ hempty]
    rfl

theorem exec_mbxH2mcWrite_latches : exec (.mbxH2mcWrite .lower v) s
    = .next (s.setMbx { s.mbx with h2mc := { s.mbx.h2mc with latch := lowWord v } }) := by
  change execMbxH2mcWrite .lower v s = _
  rw [execMbxH2mcWrite, hon]
  rfl

/-- A strand's latch has its number, the MC's is the last. -/
theorem exec_mailboxLatchWrite (i : Fin 33) (x : Word) : exec (.mailboxLatchWrite i x) s = .next
    (if i.val < 32 then s.setH2s (fin32 i.val) { s.h2s (fin32 i.val) with latch := x }
     else s.setMbx { s.mbx with h2mc := { s.mbx.h2mc with latch := x } }) := by
  change execMailboxLatchWrite i x s = _
  rw [execMailboxLatchWrite, hon, if_neg (by decide)]
  split <;> rfl

theorem exec_mbxS2hRead : exec (.mbxS2hRead n h) s = .next
    (if h == .lower then s.send (.hostData (halfBytes h (s.s2h n).word) false)
     else (s.send (.hostData (halfBytes h (s.s2h n).word) false)).setS2h n (s.s2h n).empty) := by
  change execMbxS2hRead n h s = _
  rw [execMbxS2hRead, hon, if_neg (by decide)]

theorem exec_mbxMc2hRead : exec (.mbxMc2hRead h) s = .next
    (if h == .lower then s.send (.hostData (halfBytes h s.mbx.mc2h.word) false)
     else (s.send (.hostData (halfBytes h s.mbx.mc2h.word) false)).setMbx { s.mbx with mc2h := s.mbx.mc2h.empty }) := by
  change execMbxMc2hRead h s = _
  rw [execMbxMc2hRead, hon, if_neg (by decide)]
  rfl

end

/-! ### The MC's side (R236, R237) -/

section
variable (hon : (s.unitsOn && s.mcOn) = true)
include hon

theorem exec_mcRegionMailboxWrite_stores (r : RegionId) (v : Word64) (hempty : s.mbx.region[r].full = false) :
    exec (.mcRegionMailboxWrite r v) s = .next (((s.setMbx { s.mbx with
      region := s.mbx.region.set r (s.mbx.region[r].store v) }).wakeIfAsleep r).sequencerReads r) := by
  obtain ⟨hunits, hmc⟩ := Bool.and_eq_true_iff.1 hon
  change execMcRegionMailboxWrite r v s = _
  rw [execMcRegionMailboxWrite, hunits, hmc, hempty]
  rfl

theorem exec_mbxMc2hWrite_stores (v : Word64) (hempty : s.mbx.mc2h.full = false) : exec (.mbxMc2hWrite v) s
    = .next ((s.setMbx { s.mbx with mc2h := s.mbx.mc2h.store v }).mbxEvent 0 2) := by
  obtain ⟨hunits, hmc⟩ := Bool.and_eq_true_iff.1 hon
  change execMbxMc2hWrite v s = _
  rw [execMbxMc2hWrite, hunits, hmc, hempty]
  rfl

theorem exec_mbxH2mcRead_empties (hfull : s.mbx.h2mc.full = true) : exec .mbxH2mcRead s
    = .next ((s.setMbx { s.mbx with h2mc := s.mbx.h2mc.empty }).mbxEvent 0 1) := by
  obtain ⟨hunits, hmc⟩ := Bool.and_eq_true_iff.1 hon
  change execMbxH2mcRead s = _
  rw [execMbxH2mcRead, hunits, hmc, hfull]
  rfl

end

end

end Sys2Proof.Machine

open Sys2Proof Sys2Proof.Machine

/-- Settles O20: a host write by the half and by whether the mailbox is full, a host read by the half, and the MC's
accesses with the bits that their events set. -/
theorem hostAndMcMailboxes : Obligations.HostAndMcMailboxes := by
  refine ⟨fun s n v hon => ?host, fun s v hon => ⟨fun r => ?region, fun hempty => ?mcWrites, fun hfull => ?mcReads⟩⟩
  case host =>
    intro m r c d full
    refine ⟨fun hempty => ⟨?_, ?_⟩, fun h hhalf hfull => ?_, exec_mbxH2sWrite_latches s n v hon,
      fun hempty => ⟨?_, ?_⟩, exec_mbxH2mcWrite_latches s v hon, exec_mailboxLatchWrite s hon,
      exec_mbxS2hRead s n .whole hon, exec_mbxS2hRead s n .upper hon, exec_mbxS2hRead s n .lower hon,
      exec_mbxMc2hRead s .whole hon, exec_mbxMc2hRead s .upper hon, exec_mbxMc2hRead s .lower hon⟩
    · exact exec_mbxH2sWrite_stores s n .whole v hon (by decide) hempty
    · exact exec_mbxH2sWrite_stores s n .upper v hon (by decide) hempty
    · refine ⟨_, exec_mbxH2sWrite_overruns s n h v hon hhalf hfull, ?_⟩
      rw [State.overrun_h2s, State.setH2s_h2s]
      exact ⟨rfl, hfull, rfl⟩
    · exact exec_mbxH2mcWrite_stores s .whole v hon (by decide) hempty
    · exact exec_mbxH2mcWrite_stores s .upper v hon (by decide) hempty
  case region => exact exec_mcRegionMailboxWrite_stores s hon r v
  case mcWrites =>
    refine ⟨_, exec_mbxMc2hWrite_stores s hon v hempty, ?_⟩
    rw [State.mbxEvent_mbx]
    exact ⟨rfl, rfl, BitVec.or_zero⟩
  case mcReads =>
    refine ⟨_, exec_mbxH2mcRead_empties s hon hfull, ?_⟩
    rw [State.mbxEvent_mbx]
    exact ⟨rfl, rfl, BitVec.or_zero⟩

end

section
/-!
PROOFS. The queue engine's registers, commands and doorbells (11 R215 to R219), and the base registers of the session
engine (R217).
-/
namespace Sys2Proof.Machine

open Sys2Proof

/-! ### What the read of an entry, and the note of a command, leave of the queues -/

section
variable (s : State) (rs : List (Nat × Nat)) (q : Nat)

@[simp] theorem State.meet_entLine : (s.meet rs).entLine q = s.entLine q := by
  simp only [State.entLine, State.meet_qe, State.meet_mem]

@[simp] theorem State.meet_qEntry : (s.meet rs).qEntry q = s.qEntry q := by
  simp only [State.qEntry, State.meet_qe, State.meet_entLine]

@[simp] theorem State.meet_ent : (s.meet rs).ent q = s.ent q := by
  simp only [State.ent, State.meet_qEntry]

@[simp] theorem State.meet_entAddr : (s.meet rs).entAddr q = s.entAddr q := by
  simp only [State.entAddr, State.meet_qe]

@[simp] theorem State.meetEnt_qEntry (p : Nat) : (s.meetEnt p).qEntry q = s.qEntry q := s.meet_qEntry _ q
@[simp] theorem State.meetEnt_ent (p : Nat) : (s.meetEnt p).ent q = s.ent q := s.meet_ent _ q

@[simp] theorem State.qeCmd_entAddr (op p : Nat) : (s.qeCmd op p).entAddr q = s.entAddr q := rfl
@[simp] theorem State.qeCmd_queueOn (op p : Nat) : (s.qeCmd op p).queueOn q = s.queueOn q := rfl
@[simp] theorem State.qeCmd_qEntry (op p : Nat) : (s.qeCmd op p).qEntry q = s.qEntry q := rfl
@[simp] theorem State.qeCmd_ent (op p : Nat) : (s.qeCmd op p).ent q = s.ent q := rfl

@[simp] theorem State.discardCompletion_qe : (s.discardCompletion q).qe = s.qe := State.logEv_qe ..
@[simp] theorem State.discardCompletion_mem : (s.discardCompletion q).mem = s.mem := State.logEv_mem ..

end

/-! ### What ringing a doorbell does (R219) -/

/-- The records that a doorbell with count t would leave in queue q. -/
def State.rungCount (s : State) (q t : Nat) : Nat := (t + 2 ^ 32 - (s.ent q).head) % 2 ^ 32

section
variable (s : State) (q t : Nat)

/-- A FEED queue takes no doorbell, and no ring takes more than its size. -/
theorem State.ringDoorbell_rejects (htype : (s.ent q).type = 1)
    (h : (s.ent q).feed = true ∨ (s.ent q).size < s.rungCount q t) :
    s.ringDoorbell q t = (s.putEnt q (s.ent q)).rejectDb q := by
  by_cases hfeed : (s.ent q).feed = true
  · exact if_pos ⟨htype, hfeed⟩
  · refine (if_neg fun hf => hfeed hf.2).trans ((if_pos htype).trans (if_pos (h.resolve_left hfeed)))

theorem State.ringDoorbell_fits (htype : (s.ent q).type = 1) (hfeed : (s.ent q).feed = false)
    (hfits : s.rungCount q t ≤ (s.ent q).size) : s.ringDoorbell q t
      = if s.rungCount q t < (s.ent q).held then s.putEnt q (s.ent q)
        else if s.rungCount q t = 0 then s.putEnt q { s.ent q with tail := t }
        else (s.putEnt q { s.ent q with tail := t }).setReady q :=
  (if_neg fun hf => Bool.false_ne_true (hfeed.symm.trans hf.2)).trans
    ((if_pos htype).trans (if_neg (Nat.not_lt.2 hfits)))

theorem State.ringDoorbell_completion (htype : (s.ent q).type = 2) : s.ringDoorbell q t
    = if (s.ent q).held < s.rungCount q t then (s.putEnt q (s.ent q)).rejectDb q
      else s.putEnt q { s.ent q with head := t } := by
  have htype' : (s.ent q).type ≠ 1 := by rw [htype]; decide
  exact (if_neg fun hf => htype' hf.1).trans (if_neg htype')

end

section
variable (s : State) (i : Fin 64) (v : Word64) (hon : s.fabricOn = true)
include hon

theorem exec_doorbell_narrow (bytes : Nat) (hbytes : bytes ≠ 8) :
    exec (.doorbell i bytes v) s = .next (s.setQe { s.qe with dbErr := satAdd s.qe.dbErr 1 }) := by
  change execDoorbell i bytes v s = _
  rw [execDoorbell, hon, if_neg (by decide), if_pos hbytes]

theorem exec_doorbell_waits (hheld : s.doorbellHeld = true) :
    exec (.doorbell i 8 v) s = .next (s.holdReq (.doorbell i 8 v)) := by
  change execDoorbell i 8 v s = _
  rw [execDoorbell, hon, hheld, if_neg (by decide), if_neg (by decide), if_pos rfl]

variable (hfirst : s.doorbellHeld = false)
include hfirst

theorem exec_doorbell_off (hoff : s.queueOn (fld v.toNat 0 20) = false) :
    exec (.doorbell i 8 v) s = .next (s.rejectDb (fld v.toNat 0 20)) := by
  change execDoorbell i 8 v s = _
  rw [execDoorbell, hon, hfirst, if_neg (by decide), if_neg (by decide), if_neg (by decide)]
  dsimp only
  rw [hoff, if_pos (by decide)]

/-- A doorbell whose entry may be read and written back rings its queue. -/
theorem exec_doorbell_rings (hqueue : s.queueOn (fld v.toNat 0 20) = true)
    (hgate : s.gate (.doorbell i 8 v) [(s.entAddr (fld v.toNat 0 20), 64)] [(s.entAddr (fld v.toNat 0 20), 64)] = none)
    (hgood : (s.meetEnt (fld v.toNat 0 20)).entBad (fld v.toNat 0 20) = false) :
    exec (.doorbell i 8 v) s
      = .next ((s.meetEnt (fld v.toNat 0 20)).ringDoorbell (fld v.toNat 0 20) (fld v.toNat 32 32)) := by
  change execDoorbell i 8 v s = _
  rw [execDoorbell, hon, hfirst, if_neg (by decide), if_neg (by decide), if_neg (by decide)]
  dsimp only
  rw [hqueue, if_neg (by decide), hgate]
  dsimp only
  rw [hgood, if_neg (by decide)]

end

/-! ### QE_QTBASE and the base registers of the SE (R217) -/

section
variable (s : State) (v : Word64) (hon : s.fabricOn = true)
include hon

theorem exec_qtbaseWrite_misaligned (hv : v.toNat % 2 ^ 26 ≠ 0) : exec (.qtbaseWrite v) s = .next (s.qeStat 3 3) := by
  change execQtbaseWrite v s = _
  rw [execQtbaseWrite, hon, if_neg (by decide), if_pos hv]

theorem exec_qtbaseWrite_aligned (hv : v.toNat % 2 ^ 26 = 0) : exec (.qtbaseWrite v) s
    = if s.qe.enabled = [] then .next (s.setQe { s.qe with qtbase := v }) else .next (s.qeStat 3 4) := by
  change execQtbaseWrite v s = _
  rw [execQtbaseWrite, hon, if_neg (by decide), if_neg (not_not_intro hv)]
  cases s.qe.enabled <;> rfl

theorem exec_seBaseWrite_refused (r : SeReg) (h : s.se.openCount ≠ 0 ∨ s.se.free < s.se.poolpages.toNat) :
    exec (.seBaseWrite r v) s = .next (s.seRefuse 6) := by
  change execSeBaseWrite r v s = _
  rw [execSeBaseWrite, hon, if_neg (by decide)]
  exact if_pos h

end

/-! ### Enabling and disabling a queue (R215, R216) -/

section
variable (s : State) (q : QueueId) (hon : s.fabricOn = true) (hidle : s.qe.state ≠ 1)
include hon hidle

/-- An entry that passes Table 11.1 starts with an empty ring, and its first 16 bytes are kept. -/
theorem exec_queueEnable_enables (hoff : s.queueOn q.val = false)
    (hread : (s.qeCmd 1 q.val).gate (.queueEnable q) [(s.entAddr q.val, 64)] [] = none)
    (hgood : ((s.qeCmd 1 q.val).meetEnt q.val).entBad q.val = false) (hok : entryOk (s.qEntry q.val) = true)
    (hwrite : ((s.qeCmd 1 q.val).meetEnt q.val).gate (.queueEnable q) [] [(s.entAddr q.val, 64)] = none) :
    let t := ((s.qeCmd 1 q.val).meetEnt q.val).putEnt q.val { s.ent q.val with head := 0, tail := 0, phase := 1 }
    exec (.queueEnable q) s = .next ((t.setQe { t.qe with
      enabled := assocSet q.val ((s.qEntry q.val).take 0x10 ++ [1]) t.qe.enabled }).qeStat 2 0) := by
  change execQueueEnable q s = _
  rw [execQueueEnable, hon, if_neg (by decide), if_neg hidle]
  simp only [State.qeCmd_queueOn, State.qeCmd_entAddr, State.meetEnt_qEntry, State.meetEnt_ent, State.qeCmd_qEntry,
    State.qeCmd_ent, hoff, hread, hgood, hok, hwrite, Bool.not_true, Bool.false_eq_true, if_false]

theorem exec_queueDisable_on (hqueue : s.queueOn q.val = true) :
    exec (.queueDisable q) s = .next (((s.qeCmd 2 q.val).disableQueue q.val).qeStat 2 0) := by
  change execQueueDisable q s = _
  rw [execQueueDisable, hon, if_neg (by decide), if_neg hidle]
  dsimp only
  rw [State.qeCmd_queueOn, hqueue, if_neg (by decide)]

theorem exec_queueDisable_off (hqueue : s.queueOn q.val = false) :
    exec (.queueDisable q) s = .next ((s.qeCmd 2 q.val).qeStat 3 2) := by
  change execQueueDisable q s = _
  rw [execQueueDisable, hon, if_neg (by decide), if_neg hidle]
  dsimp only
  rw [State.qeCmd_queueOn, hqueue, if_pos (by decide)]

end

section
variable (s : State) (q : Nat)

theorem State.discardAll_frame {α : Type} (l : List α) (s : State) :
    (l.foldl (fun s _ => s.discardCompletion q) s).qe = s.qe
      ∧ (l.foldl (fun s _ => s.discardCompletion q) s).mem = s.mem := by
  induction l generalizing s with
  | nil => exact ⟨rfl, rfl⟩
  | cons r l ih =>
    obtain ⟨hqe, hmem⟩ := ih (s.discardCompletion q)
    exact ⟨hqe.trans (s.discardCompletion_qe q), hmem.trans (s.discardCompletion_mem q)⟩

theorem State.disableQueue_mem : (s.disableQueue q).mem = s.mem := (State.discardAll_frame q _ _).2

theorem State.disableQueue_queueOn : (s.disableQueue q).queueOn q = false := by
  rw [State.queueOn, State.disableQueue, (State.discardAll_frame q _ _).1]
  simp [State.setQe]

theorem State.disableQueue_ready : q ∉ (s.disableQueue q).qe.ready := by
  rw [State.disableQueue, (State.discardAll_frame q _ _).1]
  simp [State.setQe]

/-- No transaction on the ring of the queue is left to move anything. -/
theorem State.disableQueue_host (y : QeHost) (h : (s.disableQueue q).qe.host = some y) : y.queue ≠ some q := by
  rw [State.disableQueue, (State.discardAll_frame q _ _).1, State.setQe_qe] at h
  obtain ⟨x, -, hx⟩ := Option.map_eq_some_iff.1 h
  split at hx
  case isTrue => subst hx; exact (Option.some_ne_none q).symm
  case isFalse hother => subst hx; simpa using hother

end

end Sys2Proof.Machine

open Sys2Proof Sys2Proof.Machine

/-- Settles O29: a doorbell of eight bytes that waits for none rings its queue (State.ringDoorbell), by the queue's type and
the records that the count would leave. -/
theorem doorbells : Obligations.Doorbells := by
  refine ⟨fun s i bytes v hon hbytes => exec_doorbell_narrow s i v hon bytes hbytes, fun s i v => ?wide⟩
  intro q t x u d open_
  refine ⟨fun hon hheld => exec_doorbell_waits s i v hon hheld, fun hon hfirst => ⟨fun hoff => ?off, fun h => ?on⟩⟩
  case off => exact exec_doorbell_off s i v hon hfirst (by simpa using hoff)
  case on =>
    simp only [Bool.and_eq_true, Bool.not_eq_true', open_, Option.isNone_iff_eq_none] at h
    obtain ⟨⟨hqueue, hgood⟩, hgate⟩ := h
    have hring := exec_doorbell_rings s i v hon hfirst hqueue hgate hgood
    have hx : u.ent q = x := s.meetEnt_ent q q
    have hd : u.rungCount q t = d := by rw [State.rungCount, hx]
    refine ⟨fun htype hmany => ?_, fun htype hfeed hfits hstale => ?_, fun htype hfeed hfits hmore => ?_,
      fun htype hmany => ?_, fun htype hfew => ?_⟩ <;> refine hring.trans (congrArg _ ?_)
    · rw [u.ringDoorbell_rejects q t (hx ▸ htype) (hx ▸ hd ▸ hmany), hx]
    · rw [u.ringDoorbell_fits q t (hx ▸ htype) (hx ▸ hfeed) (hx ▸ hd ▸ hfits), hx, hd, if_pos hstale]
    · rw [u.ringDoorbell_fits q t (hx ▸ htype) (hx ▸ hfeed) (hx ▸ hd ▸ hfits), hx, hd, if_neg (Nat.not_lt.2 hmore)]
    · rw [u.ringDoorbell_completion q t (hx ▸ htype), hx, hd, if_pos hmany]
    · rw [u.ringDoorbell_completion q t (hx ▸ htype), hx, hd, if_neg (Nat.not_lt.2 hfew)]

/-- Settles O30: a write of QE_QTBASE by its alignment and by whether a queue is enabled; one of an SE register that is
refused. -/
theorem qtbaseWrites : Obligations.QtbaseWrites := by
  refine fun s v hon => ⟨fun hnone hv => ?_, fun _ hv => exec_qtbaseWrite_misaligned s v hon hv, fun hsome hv => ?_,
    fun hv => ⟨_, exec_qtbaseWrite_misaligned s v hon hv, rfl, rfl⟩, fun r h => exec_seBaseWrite_refused s v hon r h⟩
  · rw [exec_qtbaseWrite_aligned s v hon hv, if_pos hnone]
  · rw [exec_qtbaseWrite_aligned s v hon hv, if_neg hsome]
    rfl

/-- Settles O31: what enabling writes, and what State.disableQueue takes out. -/
theorem queueCommands : Obligations.QueueCommands := by
  intro s q hon a u v hidle
  refine ⟨fun h => ?enable, fun hqueue => ?disable, exec_queueDisable_off s q hon hidle⟩
  case enable =>
    simp only [Bool.and_eq_true, Bool.not_eq_true', Option.isNone_iff_eq_none] at h
    obtain ⟨⟨⟨⟨hoff, hgood⟩, hok⟩, hread⟩, hwrite⟩ := h
    exact exec_queueEnable_enables s q hon hidle hoff hread hgood hok hwrite
  case disable =>
    refine ⟨_, exec_queueDisable_on s q hon hidle hqueue, ?_, ?_, ?_, ?_, rfl, rfl⟩
    · exact (u 2).disableQueue_mem q.val
    · exact (u 2).disableQueue_queueOn q.val
    · exact (u 2).disableQueue_ready q.val
    · exact (u 2).disableQueue_host q.val

end

section
/-!
PROOFS. The session engine: its registers and commands (11 R217, R229, R232), the end of a recall and the start of a
spill (R232, R233).
-/
namespace Sys2Proof.Machine

open Sys2Proof

/-! ### What the note of a command and a read leave of the sessions -/

section
variable (s : State) (rs : List (Nat × Nat)) (q : Nat)

@[simp] theorem State.seCmd_sessAddr (op sess : Nat) : (s.seCmd op sess).sessAddr q = s.sessAddr q := rfl

@[simp] theorem State.meet_sessAddr : (s.meet rs).sessAddr q = s.sessAddr q := by
  simp only [State.sessAddr, State.meet_se]

/-- A session's entry stands where the table has it. -/
theorem State.sessEnt_addr : (s.sessEnt q).addr = s.sessAddr q := rfl

@[simp] theorem State.meetSess_sessAddr (p : Nat) : (s.meetSess p).sessAddr q = s.sessAddr q := s.meet_sessAddr _ q

@[simp] theorem State.meetFind_se (i : Nat) : (s.meetFind q i).se = s.se := by
  unfold State.meetFind State.meetSess
  split
  · rfl
  · dsimp only
    split <;> simp only [State.meet_se]

theorem State.meet_d2h : (s.meet rs).host.d2h = s.host.d2h := by
  obtain ⟨m, p, x, e, b, o, k, h, -⟩ := s.meet_frame rs
  rw [h]

end

/-- Taking a slot moves no page. -/
theorem Se.takeSlot_pages {e f : Se} {j : Nat} (h : e.takeSlot = some (j, f)) :
    f.pageAddr = e.pageAddr ∧ f.firstPage = e.firstPage ∧ f.slotAddr = e.slotAddr := by
  unfold Se.takeSlot at h
  split at h
  · cases h; exact ⟨rfl, rfl, rfl⟩
  · split at h
    · cases h; exact ⟨rfl, rfl, rfl⟩
    · cases h

/-! ### Registers, INITPOOL, OPEN and CLOSE (R217, R229, R232) -/

section
variable (s : State) (hon : s.fabricOn = true)
include hon

theorem exec_seBaseWrite_taken (r : SeReg) (v : Word64) (hclosed : s.se.openCount = 0)
    (hfree : s.se.poolpages.toNat ≤ s.se.free) :
    exec (.seBaseWrite r v) s = .next (s.setSe (match r with
      | .stbase => { s.se with stbase := BitVec.ofNat 64 (alignDown v.toNat 0x4000000) }
      | .poolbase => { s.se with poolbase := BitVec.ofNat 64 (alignDown v.toNat 0x10000) }
      | .poolpages => { s.se with poolpages := BitVec.ofNat 24 v.toNat }
      | .sumbase => { s.se with sumbase := BitVec.ofNat 64 (alignDown v.toNat 64) }
      | .spillbase => { s.se with spillbase := BitVec.ofNat 64 (alignDown v.toNat 0x10000) }
      | .spillslots => { s.se with spillslots := BitVec.ofNat 24 v.toNat, slotFreed := [], slotNext := 0 }
      | .spillsumbase => { s.se with spillsumbase := BitVec.ofNat 64 (alignDown v.toNat 64) })) := by
  change execSeBaseWrite r v s = _
  unfold execSeBaseWrite
  rw [hon, if_neg (by decide)]
  exact if_neg fun h => h.elim (absurd hclosed) (Nat.not_lt.2 hfree)

variable (hidle : s.se.state ≠ 1)
include hidle

theorem exec_initpool_fills (hse : (s.seCmd 1 s.se.session.toNat).seWaits .initpool = false)
    (hfree : s.se.limit ≤ s.se.free) :
    exec .initpool s = .next (((s.seCmd 1 s.se.session.toNat).setSe { (s.seCmd 1 s.se.session.toNat).se with
      freed := [], next := 0, limit := s.se.poolpages.toNat }).seDone) := by
  change execInitpool s = _
  unfold execInitpool
  refine (seRun_ready 1 _ .initpool s _ hon hidle hse).trans (congrArg _ ?_)
  exact if_neg (Nat.not_lt.2 hfree)

variable (q : SessionId)

/-- A closed session that is valid opens with an empty directory. -/
theorem exec_openS_opens (hse : (s.seCmd 2 q.val).seWaits (.openS q) = false)
    (hread : (s.seCmd 2 q.val).gate (.openS q) [(s.sessAddr q.val, 64)] [] = none) :
    let v := (s.seCmd 2 q.val).meetSess q.val
    let e := v.sessEnt q.val
    e.bad = false → e.state = 0 → 1 ≤ e.nidx → e.nidx ≤ 65536 → e.dir % 64 = 0 → e.dir + 4 * e.nidx ≤ 0xF000000000 →
      v.gate (.openS q) [] [(e.addr, 64), (e.dir, 4 * e.nidx)] = none →
      let t := ((v.write e.dir (List.replicate (4 * e.nidx) 0) false).write e.addr [1] false).setCounts e 0 0
      exec (.openS q) s = .next (t.setSe { t.se with openCount := t.se.openCount + 1 }).seDone := by
  intro v e hgood hclosed hlo hhi halign hin hwrite t
  have hvalid : ¬(e.nidx = 0 ∨ 65536 < e.nidx ∨ e.dir % 64 ≠ 0 ∨ 0xF000000000 < e.dir + 4 * e.nidx) := by omega
  change execOpenS q s = _
  unfold execOpenS
  refine (seRun_ready 2 _ (.openS q) s _ hon hidle hse).trans (congrArg _ ?_)
  refine (seGate_open _ _ _ _ _ hread).trans ?_
  refine (if_neg (Bool.eq_false_iff.1 hgood)).trans ((if_neg (not_not_intro hclosed)).trans ((if_neg hvalid).trans ?_))
  exact seGate_open _ _ _ _ _ hwrite

/-- An open session of which no page is pinned closes, and its pages and slots are free. -/
theorem exec_closeS_closes (hse : (s.seCmd 3 q.val).seWaits (.closeS q) = false)
    (hread : (s.seCmd 3 q.val).gate (.closeS q) [(s.sessAddr q.val, 64)] [] = none) :
    let v := (s.seCmd 3 q.val).meetSess q.val
    let e := v.sessEnt q.val
    let w := v.meet [(e.dir, 4 * e.nidx)]
    e.bad = false → e.state = 1 → v.gate (.closeS q) [(e.dir, 4 * e.nidx)] [] = none →
      (w.heldPages e).any (fun d => !d.spilled && w.se.pins.any fun p => p.page == d.loc) = false →
      w.gate (.closeS q) [] [(e.addr, 64)] = none →
      let z := w.logBadEntries q.val e
      let se := (w.heldPages e).foldl
        (fun se d => if d.spilled then se.freeSlot d.loc else se.freePage (d.loc - se.firstPage)) z.se
      exec (.closeS q) s = .next
        (((z.setSe { se with openCount := se.openCount - 1 }).write e.addr [0] false).setCounts e 0 0).seDone := by
  intro v e w hgood hopen hdir hpins hwrite z se
  change execCloseS q s = _
  unfold execCloseS
  refine (seRun_ready 3 _ (.closeS q) s _ hon hidle hse).trans (congrArg _ ?_)
  refine (seGate_open _ _ _ _ _ hread).trans ?_
  refine (if_neg (Bool.eq_false_iff.1 hgood)).trans ((if_neg (not_not_intro hopen)).trans ?_)
  refine (seGate_open _ _ _ _ _ hdir).trans ((if_neg (Bool.eq_false_iff.1 hpins)).trans ?_)
  exact seGate_open _ _ _ _ _ hwrite

/-! ### SPILL (R232) -/

/-- A spill of an open session begins at its first directory entry. -/
theorem exec_spill_begins (hse : (s.seCmd 4 q.val).seWaits (.spill q) = false) (hnew : s.se.spillWaits q = none)
    (hread : (s.seCmd 4 q.val).gate (.spill q) [(s.sessAddr q.val, 64)] [] = none) :
    let u := (s.seCmd 4 q.val).meetSess q.val
    let e := u.sessEnt q.val
    e.bad = false → e.state = 1 →
      exec (.spill q) s = .next (spillGo q e e.nidx 0 (u.setSe { u.se with skipped := 0, err := 0 })) := by
  intro u e hgood hopen
  change execSpill q s = _
  unfold execSpill
  rw [hnew]
  refine (seRun_ready 4 _ (.spill q) s _ hon hidle hse).trans (congrArg _ ?_)
  refine (seGate_open _ _ _ _ _ hread).trans ?_
  exact (if_neg (Bool.eq_false_iff.1 hgood)).trans (if_neg (not_not_intro hopen))

end

/-- At a resident page that is not pinned, a spill copies the page to the slot that the SE takes. -/
theorem spillGo_copies (s : State) (q : SessionId) (e : SessEnt) (fuel i : Nat) {j : Nat} {se : Se}
    (hgo : s.seStopped = false) (hcxl : s.cxlOn = true)
    (hread : s.gate (.spill q) [(e.addr, 64), (e.dir + 4 * i, 4)] [] = none) :
    let v := s.meet [(e.dir + 4 * i, 4)]
    let d := v.dirEnt e i
    let page := s.se.pageAddr (d.loc - s.se.firstPage)
    (d.valid && !d.spilled && !d.bad && !s.se.isPinned d.loc) = true → s.se.takeSlot = some (j, se) →
      v.gate (.spill q) [(page, 0x10000)] [] = none →
      let w := v.meet [(page, 0x10000)]
      let t := w.setSe { se with spilling := some ⟨q.val, i, some j⟩, state := 1 }
      spillGo q e (fuel + 1) i s = State.send
        { t with host := { t.host with d2h := t.host.d2h ++ [(D2HAgent.se, false, s.se.slotAddr j, 0x10000)] } }
        (.d2hWrite .se (s.se.slotAddr j) (w.read page 0x10000).1 (w.read page 0x10000).2) := by
  intro v d page hd hslot hpage w t
  obtain ⟨haddr, hfirst, hslotAddr⟩ := Se.takeSlot_pages hslot
  simp only [Bool.and_eq_true, Bool.not_eq_true'] at hd
  obtain ⟨⟨⟨hvalid, hspilled⟩, hgood⟩, hpin⟩ := hd
  simp only [page, d, v] at hvalid hspilled hgood hpin hpage
  simp only [spillGo, hgo, hcxl, hread, hvalid, hspilled, hgood, hpin, hslot, haddr, hfirst, hslotAddr, hpage, State.meet_se,
    Bool.not_true, Bool.or_self, Bool.false_eq_true, if_false] <;> rfl

/-! ### The end of a recall (R233) -/

/-- The slot's content enters a pool page, and SLOOK returns the page. -/
theorem exec_recall_ends (s : State) (n : StrandId) (r : Fin 32) (q i pd k : Nat) (e : SessEnt) (d : DirEnt) (se : Se)
    (data : List Byte) (bad : Bool) (hwait : (s.strand n).wait = .slook r q i pd)
    (hfind : (s.meetFind q i).find q i = .at e d) (hpage : s.se.takePage = some (k, se)) (hlen : data.length = 0x10000)
    (hon : (s.unitsOn && !s.se.faulted) = true) (hread : s.findGate (.recall n data bad) q i = none)
    (hgate : (s.meetFind q i).gate (.recall n data bad) [(se.slotSum d.loc, 64)]
      (entWrites e d ++ [(se.pageAddr k, 0x10000), (se.sumAddr k, 64)]) = none) :
    let v := (s.meetFind q i).meet [(se.slotSum d.loc, 64)]
    let sum := v.read (se.slotSum d.loc) 64
    let v := if bad then v.rasCorrected 4 else v
    let t := (((v.dropD2h .se true).setSe (se.freeSlot d.loc)).write (se.pageAddr k) data bad).write (se.sumAddr k)
      sum.1 sum.2
    let t := (t.write d.addr (dirBytes (se.firstPage + k) false true) false).setCounts e (e.resident + 1) (e.spilled - 1)
    exec (.recall n data bad) s = .next (s.seNext (t.lookDone n r.val pd (se.firstPage + k))) := by
  refine congrArg (fun t => Host.Outcome.next (s.seNext t)) ?_
  simp only [Bool.and_eq_true, Bool.not_eq_true'] at hon
  simp only [State.recallDone, hwait, hon.1, hon.2, hlen, hread, hfind, State.meetFind_se, hpage, hgate, Bool.not_true,
    bne_self_eq_false, Bool.or_self, Bool.false_eq_true, if_false]

end Sys2Proof.Machine

open Sys2Proof Sys2Proof.Machine

/-- Settles O35: each command that the SE takes at once, through the gates of the entries that it reads and writes. -/
theorem sessionEngine : Obligations.SessionEngine := by
  refine ⟨fun s r v hon => ⟨?taken, exec_seBaseWrite_refused s v hon r⟩, fun s q hon => ?commands⟩
  case taken => exact fun hclosed hfree => exec_seBaseWrite_taken s hon r v hclosed hfree
  case commands =>
    rw [Bool.and_eq_true, bne_iff_ne] at hon
    obtain ⟨hon, hidle⟩ := hon
    intro u v e ent dir ready
    have haddr (op : Nat) : ((v op).sessEnt q.val).addr = s.sessAddr q.val :=
      ((u op).meetSess_sessAddr q.val q.val).trans (s.seCmd_sessAddr q.val op q.val)
    refine ⟨fun hse hfree => ?init, fun h => ?opens, fun h => ?closes⟩
    case init => exact ⟨_, exec_initpool_fills s hon hidle hse hfree, rfl, rfl, rfl, rfl, rfl⟩
    case opens =>
      simp only [ready, Bool.and_eq_true, Bool.not_eq_true', Option.isNone_iff_eq_none, beq_iff_eq, decide_eq_true_eq] at h
      obtain ⟨⟨⟨⟨⟨⟨⟨⟨hse, hread⟩, hgood⟩, hclosed⟩, hlo⟩, hhi⟩, halign⟩, hin⟩, hwrite⟩ := h
      exact exec_openS_opens s hon hidle q hse (haddr 2 ▸ hread) hgood hclosed hlo hhi halign hin hwrite
    case closes =>
      simp only [ready, Bool.and_eq_true, Bool.not_eq_true', Option.isNone_iff_eq_none, beq_iff_eq] at h
      obtain ⟨⟨⟨⟨⟨⟨hse, hread⟩, hgood⟩, hopen⟩, hdir⟩, hpins⟩, hwrite⟩ := h
      refine exec_closeS_closes s hon hidle q hse (haddr 2 ▸ hread) hgood hopen hdir ?_ ?_
      · rw [State.meet_se, State.meetSess, State.meet_se]
        exact hpins
      · exact (haddr 2).trans (haddr 3).symm ▸ hwrite

/-- Settles O60: the end of a recall, and a spill of no page or up to the copy of its first. -/
theorem recallsAndSpills : Obligations.RecallsAndSpills := by
  refine ⟨fun s n r q i pd k e d se data bad => ?ends, fun s q => ?spill⟩
  case ends =>
    intro u hwait hfind hpage hlen hon hread hgate
    exact exec_recall_ends s n r q i pd k e d se data bad hwait hfind hpage hlen hon hread hgate
  case spill =>
    intro y u e v h
    simp only [Bool.and_eq_true, Bool.not_eq_true', Option.isNone_iff_eq_none, beq_iff_eq, bne_iff_ne] at h
    obtain ⟨⟨⟨⟨⟨⟨hon, hidle⟩, hse⟩, hnew⟩, hgood⟩, hopen⟩, hread⟩ := h
    have haddr : e.addr = s.sessAddr q.val := (y.meetSess_sessAddr q.val q.val).trans (s.seCmd_sessAddr q.val 4 q.val)
    have hspill := exec_spill_begins s hon hidle q hse hnew (haddr ▸ hread) hgood hopen
    have hmem : v.mem = s.mem := y.meet_mem _
    refine ⟨fun hnone => ?none, fun j se hsome hgo hgate => ?copy⟩
    case none =>
      rw [hnone] at hspill
      exact ⟨_, hspill, rfl, rfl, rfl, hmem⟩
    case copy =>
      intro d page hd hslot hcxl hpage
      rw [Option.isNone_iff_eq_none] at hgate hpage
      obtain ⟨fuel, hfuel⟩ := Nat.exists_eq_succ_of_ne_zero hsome
      rw [hfuel] at hspill
      have hcxl' : v.cxlOn = true := (y.meet_cxlOn _).trans hcxl
      have hcopy := spillGo_copies (j := j) (se := se) v q e fuel 0 hgo hcxl'
      rw [Nat.mul_zero, Nat.add_zero] at hcopy
      obtain ⟨-, -, hslotAddr⟩ := Se.takeSlot_pages hslot
      refine ⟨_, hspill.trans (congrArg _ (hcopy hgate hd hslot hpage)), rfl, rfl, ?_, ?_⟩
      · rw [hslotAddr]
        exact congrArg (· ++ _) ((State.meet_d2h ..).trans ((State.meet_d2h ..).trans (y.meet_d2h _)))
      · exact (State.meet_mem ..).trans ((State.meet_mem ..).trans hmem)
end

section
/-!
PROOFS. A corrected error in a queue entry (10 R207): the QE reads the entry and goes on, but the error is logged, and its
record takes a free value and may send an interrupt. The record at the head of a ring in host memory (11 R222) and a
completion record (R225, R226), by the state once the QE has read the entry.
-/
namespace Sys2Proof.Machine

open Sys2Proof

/-! ### What an event record takes and sends (15 R322, R323) -/

/-- A record of CLASS 0 takes one free value, another none. -/
theorem State.logEv_fresh (s : State) (c l f k a i : Nat) : (s.logEv c l f k a i).fresh = s.fresh + b2n (c == 0) := by
  unfold State.logEv
  dsimp only
  split
  · rfl
  · split
    · rfl
    · split
      · rfl
      · split
        · rfl
        · obtain ⟨p, o, h⟩ := State.sendEv_frame _ c
          rw [h]

theorem State.sendMsix_unmasked (s : State) (v : Nat) (hon : s.host.msixEnable = true)
    (hmask : (s.host.funcMask || (s.msixEntry v).control.getLsbD 0) = false) : s.sendMsix v = s.send (.msix v) := by
  rw [State.sendMsix, hon, if_neg (by decide), hmask, if_neg (by decide)]

theorem State.sendEv_corrected_out (s : State) (hien : s.errlog.ien.getLsbD 0 = true) (hon : s.host.msixEnable = true)
    (hmask : (s.host.funcMask || (s.msixEntry s.errlog.vecCe.toNat).control.getLsbD 0) = false) :
    (s.sendEv 0).out = .msix s.errlog.vecCe.toNat :: s.out := by
  rw [State.sendEv, if_pos hien, if_pos (.inl rfl), s.sendMsix_unmasked _ hon hmask, State.send_out]

/-- Into an empty log, the record of a corrected error goes with its vector, when that is enabled and not masked. -/
theorem State.logEv_corrected_out (s : State) (l f k a i : Nat) (hcode : k ≠ 0x0B) (hring : s.errlog.ring = [])
    (hused : s.errlog.used = 0) (hien : s.errlog.ien.getLsbD 0 = true) (hon : s.host.msixEnable = true)
    (hmask : (s.host.funcMask || (s.msixEntry s.errlog.vecCe.toNat).control.getLsbD 0) = false) :
    (s.logEv 0 l f k a i).out = .msix s.errlog.vecCe.toNat :: s.out := by
  have hcounted : (s.errlog.counted 0).reported 0 k = { s.errlog with ce := satAdd s.errlog.ce 1 } := rfl
  have hlatest : ({ s.errlog with ce := satAdd s.errlog.ce 1 } : ErrLog).latest k f = none := by
    simp only [ErrLog.latest, hring, List.filter_nil, List.foldl_nil]
  have hminor : ({ s.errlog with ce := satAdd s.errlog.ce 1 } : ErrLog).minor = 0 := by
    simp only [ErrLog.minor, hring, List.filter_nil, List.length_nil]
  have hused' : ({ s.errlog with ce := satAdd s.errlog.ce 1 } : ErrLog).used = 0 := hused
  rw [State.logEv, hcounted]
  dsimp only
  rw [if_neg fun h => hcode h.1, hlatest, ite_self]
  dsimp only
  rw [hminor, hused', if_neg (by decide), if_neg (by decide)]
  exact State.sendEv_corrected_out _ hien hon hmask

/-! ### What a read leaves of the gate (R207, R251) -/

@[simp] theorem State.logEv_channelUp (s : State) (c l f k a i : Nat) :
    (s.logEv c l f k a i).channelUp = s.channelUp := by
  funext x
  simp only [State.channelUp, State.mc, State.logEv_mcs]

theorem State.mc_setMc_ne (s : State) {m n : McId} (x : MemCtl) (h : m ≠ n) : (s.setMc m x).mc n = s.mc n := by
  have hv : m.val ≠ n.val := fun e => h (Fin.ext e)
  simp [State.mc, State.setMc, hv]

/-- The count of corrected errors of a controller has no part in its service. -/
theorem State.countCorrected_channelUp (s : State) (m : McId) (k : Word) :
    (s.setMc m { s.mc m with ce := k }).channelUp = s.channelUp := by
  funext c
  by_cases h : m = mcOfChannel c
  · subst h
    simp only [State.channelUp, State.mc_setMc]
  · simp only [State.channelUp, State.mc_setMc_ne s _ h]

theorem State.eccAt_channelUp (s : State) (a n : Nat) (ecc : Ecc) : (s.eccAt a n ecc).channelUp = s.channelUp := by
  unfold State.eccAt
  dsimp only
  split
  · rfl
  · exact (State.logEv_channelUp ..).trans (State.countCorrected_channelUp ..)
  · exact State.logEv_channelUp ..
  · exact State.logEv_channelUp ..
  · exact State.logEv_channelUp ..

theorem State.meet_channelUp (s : State) (rs : List (Nat × Nat)) : (s.meet rs).channelUp = s.channelUp := by
  have key (l : EccList) (t : State) :
      (l.foldl (fun s f => s.eccAt (eccUnit f.1).1 (eccUnit f.1).2 f.2) t).channelUp = t.channelUp := by
    induction l generalizing t with
    | nil => rfl
    | cons f l ih => exact (ih _).trans (t.eccAt_channelUp ..)
  unfold State.meet
  split
  · rfl
  · exact key _ _

/-- What may be accessed now may be accessed once other words are read. -/
theorem State.meet_gate (s : State) (rs : List (Nat × Nat)) (c : Instr) (r w : List (Nat × Nat))
    (h : s.gate c r w = none) : (s.meet rs).gate c r w = none := by
  have hseg : (s.meet rs).seg = s.seg := by
    funext k
    rw [State.seg, State.seg, State.meet_segs]
  have hchannel : (s.meet rs).channelOf = s.channelOf := by
    unfold State.channelOf
    rw [hseg]
  have hshut : (s.meet rs).lineShut = s.lineShut := by
    funext l
    simp only [State.lineShut, State.lineDown, State.offline, State.snooped, hseg, hchannel, State.meet_channelUp,
      State.meet_coh]
  have hsf : (s.meet rs).sfAny = s.sfAny ∧ (s.meet rs).sfHas = s.sfHas := by
    constructor <;> funext l <;> simp only [State.sfAny, State.sfHas, State.meet_coh]
  unfold State.gate State.gateWith State.ask at h ⊢
  dsimp only at h ⊢
  rw [hshut, hsf.1, hsf.2]
  split at h
  case isTrue hopen => rw [if_pos hopen]; rfl
  case isFalse => cases h

/-! ### A corrected error in a word of device memory -/

theorem State.eccAt_corrected (s : State) (a n : Nat) (hdev : place a = .device) :
    let m := mcOfChannel (s.channelOf a)
    s.eccAt a n .corrected = (s.setMc m { s.mc m with ce := satAdd (s.mc m).ce 1 }).logEv 0 2 (0x80 + m.val) 0x06 a
      (s.channelOf a) := by
  unfold State.eccAt
  rw [hdev]

section
variable {s : State} {rs : List (Nat × Nat)} {a : Nat} (hstruck : s.struck = [(a, .corrected)])
  (hin : struckIn rs (a, .corrected) = true) (hdev : place (eccUnit a).1 = .device)
include hstruck hin hdev

/-- The read that meets the one error counts it at its controller and logs it. -/
theorem State.meet_corrected : s.meet rs
    = let b := (eccUnit a).1
      let m := mcOfChannel (s.channelOf b)
      (({ s with struck := [] } : State).setMc m { s.mc m with ce := satAdd (s.mc m).ce 1 }).logEv 0 2 (0x80 + m.val) 0x06 b
        (s.channelOf b) := by
  refine Eq.trans ?_ (State.eccAt_corrected { s with struck := [] } (eccUnit a).1 (eccUnit a).2 hdev)
  simp only [State.meet, hstruck, hin, List.isEmpty_cons, List.filter_cons, List.filter_nil, List.foldl_cons,
    List.foldl_nil, Bool.not_true, Bool.false_eq_true, if_false, if_true]

theorem State.meet_corrected_fresh : (s.meet rs).fresh = s.fresh + 1 := by
  rw [State.meet_corrected hstruck hin hdev]
  exact State.logEv_fresh ..

theorem State.meet_corrected_out (hring : s.errlog.ring = []) (hused : s.errlog.used = 0)
    (hien : s.errlog.ien.getLsbD 0 = true) (hon : s.host.msixEnable = true)
    (hmask : (s.host.funcMask || (s.msixEntry s.errlog.vecCe.toNat).control.getLsbD 0) = false) :
    (s.meet rs).out = .msix s.errlog.vecCe.toNat :: s.out := by
  rw [State.meet_corrected hstruck hin hdev]
  exact State.logEv_corrected_out _ _ _ _ _ _ (by decide) hring hused hien hon hmask

theorem State.meet_corrected_struck : (s.meet rs).struck = [] := by
  rw [State.meet_corrected hstruck hin hdev]
  exact State.logEv_struck ..

theorem State.meet_corrected_poison : (s.meet rs).poison = s.poison := by
  rw [State.meet_corrected hstruck hin hdev]
  exact State.logEv_poison ..

/-- The entry reads as good as before. -/
theorem State.meet_corrected_entBad (q : Nat) : (s.meet rs).entBad q = s.entBad q := by
  simp only [State.entBad, State.read, State.answers, State.offline, State.seg, State.meet_entAddr, State.meet_segs,
    State.meet_corrected_poison hstruck hin hdev]

end

/-! ### A write changes no free value where no error lies -/

section
variable {s : State} (hclean : s.struck = [])
include hclean

theorem State.write_fresh (a : Nat) (bs : List Byte) (bad : Bool) :
    (s.write a bs bad).fresh = s.fresh ∧ (s.write a bs bad).struck = [] := by
  unfold State.write
  split
  · exact ⟨State.logEv_fresh .., (State.logEv_struck ..).trans hclean⟩
  · dsimp only
    rw [s.meet_none _ hclean, hclean]
    exact ⟨rfl, rfl⟩

theorem State.putEnt_fresh (q : Nat) (x : QEnt) : (s.putEnt q x).fresh = s.fresh := by
  unfold State.putEnt
  exact (State.write_fresh ((s.setQe_struck _).trans hclean) _ _ _).1

theorem State.recordWritten_fresh (q : Nat) : (s.recordWritten q).fresh = s.fresh := by
  unfold State.recordWritten
  dsimp only
  split
  · rw [State.sendMsix_fresh, State.setQe_fresh, State.putEnt_fresh hclean]
  · rw [State.setQe_fresh, State.putEnt_fresh hclean]

/-- The write of a completion record takes no free value beyond the record's own. -/
theorem State.write_recordWritten_fresh (k a : Nat) (bs : List Byte) (q : Nat) :
    (({ s with fresh := k }.write a bs false).recordWritten q).fresh = k := by
  obtain ⟨hfresh, hstruck⟩ := State.write_fresh (s := { s with fresh := k }) hclean a bs false
  exact (State.recordWritten_fresh hstruck q).trans hfresh

end

/-! ### The two commands, by the state once the entry is read -/

/-- The QE asks the host for the record at the head of a ring in host memory. -/
theorem exec_dispatch_asks (s : State) (k q : Nat) (hon : s.unitsOn = true) (hgo : s.qeStops .dispatch = false)
    (hhost : s.qe.host = none) (hcxl : s.cxlOn = true) :
    let d := (s.arb 0).pick 0 ((List.range 16).filter fun k => !(s.readyOf k).isEmpty)
    let u := s.meetEnt q
    let a := (s.ent q).slot (s.ent q).head
    let g := (u.setArb 0 d.1).setQe { u.qe with cursors := u.qe.cursors.set (fin16 k) ((q + 1) % 2 ^ 20) }
    d.2 = some k → s.pickQueue k = some q → s.gate .dispatch [(s.entAddr q, 64)] [(s.entAddr q, 64)] = none →
      u.entBad q = false → (s.ent q).host = true →
      exec .dispatch s = .next ((State.qeBegin
        { g with host := { g.host with d2h := g.host.d2h ++ [(D2HAgent.qe, true, a, 64)] } } (.readRec q) q).send
          (.d2hRead .qe a 64)) := by
  intro d u a g hclass hqueue hgate hgood hring
  have hcxl' : u.cxlOn = true := (s.meet_cxlOn _).trans hcxl
  simp only [d, u] at hclass hcxl' hgood
  change execDispatch s = _
  simp only [execDispatch, hon, hgo, hhost, hclass, hqueue, hgate, hgood, hring, hcxl', State.meetEnt_ent, Bool.not_true,
    Option.isSome_none, Bool.or_self, Bool.false_eq_true, if_false, if_true] <;> rfl

/-- A record for a ring in device memory is made, under the free value next after what the read of the entry took. -/
theorem exec_completionRecordWrite_writes (s : State) (cq : QueueId) (r : CRec)
    (hrec : s.qe.records.find? (fun r => r.cq == cq.val) = some r) (hon : s.unitsOn = true)
    (hgo : s.qeStops (.completionRecordWrite cq) = false) (hhost : s.qe.host = none) (hcq : s.cqOn cq.val = true)
    (hread : s.gate (.completionRecordWrite cq) [(s.entAddr cq.val, 64)] [(s.entAddr cq.val, 64)] = none) :
    let u := s.meetEnt cq.val
    let x := s.ent cq.val
    u.entBad cq.val = false → x.held < x.size → x.host = false →
      u.gate (.completionRecordWrite cq) [] [(x.slot x.tail, x.recSize)] = none →
      exec (.completionRecordWrite cq) s = .next (({ u with fresh := u.fresh + 1 }.write (x.slot x.tail)
        (recBytes u.nvm.aliasKey r x.phase x.recSize u.fresh) false).recordWritten cq.val) := by
  intro u x hgood hroom hring hwrite
  change execCompletionRecordWrite cq s = _
  simp only [execCompletionRecordWrite, hrec, hon, hgo, hhost, hcq, hread, hgood, State.meetEnt_ent, Nat.not_le.2 hroom,
    hring, hwrite, u, x, Bool.not_true, Option.isSome_none, Bool.or_self, Bool.false_eq_true, if_false]

/-! ### The counterexamples -/

/-- Bytes 0 to 15 of the entry of a queue of 16 records at 0x4000, of priority class 0 (Table 11.1). -/
def ringFields (type flags : Nat) : List Byte :=
  [BitVec.ofNat 8 type, BitVec.ofNat 8 flags, 4, 0, 0, 0, 0, 0] ++ leBytes 8 0x4000

/-- Segment 0 is online, and a corrected error lies in the entry of queue 0, the one queue that is enabled. -/
def struckEntry (type flags : Nat) : State :=
  { State.reset with segs := [(0, { online := true })], struck := [(0, .corrected)],
                     qe := { enabled := [(0, ringFields type flags ++ [1])] } }

/-- A completion record of status DONE for queue 0. -/
def doneRecord : CRec :=
  { cq := 0, tag := 7, status := 0, sqid := 3, sqhead := 1, reason := 0, faultFn := 0xFF, faultKind := 0, faultPc := 0,
    digest := none, digestFailed := false, sign := none }

/-- Queue 0 is a completion queue, and a record waits for it. -/
def struckCompletion : State :=
  let s := struckEntry 2 0
  s.setQe { s.qe with records := [doneRecord] }

/-- Queue 0 is a submission queue in host memory that holds one record, and a corrected error sends vector 0. -/
def struckSubmission : State :=
  let s := struckEntry 1 1
  { s with mem := [(0x14, 1)], qe := { s.qe with ready := [0] }, errlog := { s.errlog with ien := 1 },
           host := { s.host with msixEnable := true, msix := [(0, { control := 0 })] } }

end Sys2Proof.Machine

open Sys2Proof Sys2Proof.Machine

/-- Refutes O34: a corrected error in the entry of the completion queue is logged as the QE reads the entry, and its record
takes a free value (log entries 7, 112). The completion record is then made under the next one, u.fresh, where the statement
has s.fresh: the two next states differ in that counter. -/
theorem not_recordsWritten : ¬ Obligations.RecordsWritten := by
  intro h
  obtain ⟨hwritten, -⟩ := h struckCompletion
  have hin : struckIn [(0, 64)] (0, .corrected) = true := by decide
  have hread : struckCompletion.gate (.completionRecordWrite 0) [(0, 64)] [(0, 64)] = none := rfl
  have hwrite : (struckCompletion.meetEnt 0).gate (.completionRecordWrite 0) [] [(0x4000, 64)] = none :=
    State.meet_gate _ _ _ _ _ rfl
  have hgood : (struckCompletion.meetEnt 0).entBad 0 = false :=
    (State.meet_corrected_entBad rfl hin rfl 0).trans (by decide)
  have hclaim := hwritten 0 doneRecord rfl (by
    simp only [Bool.and_eq_true, Bool.not_eq_true', Option.isNone_iff_eq_none, decide_eq_true_eq]
    exact ⟨⟨⟨⟨⟨⟨⟨⟨by decide, by decide⟩, rfl⟩, by decide⟩, hgood⟩, by decide⟩, by decide⟩, hread⟩, hwrite⟩)
  have hexec := exec_completionRecordWrite_writes struckCompletion 0 doneRecord rfl (by decide) (by decide) rfl (by decide)
    hread hgood (by decide) (by decide) hwrite
  have hclean : (struckCompletion.meetEnt 0).struck = [] := State.meet_corrected_struck rfl hin rfl
  have hfresh : (struckCompletion.meetEnt 0).fresh = struckCompletion.fresh + 1 := State.meet_corrected_fresh rfl hin rfl
  have hsame := congrArg State.fresh (Host.Outcome.next.inj (hclaim.symm.trans hexec))
  have hcounts : struckCompletion.fresh + 1 = (struckCompletion.meetEnt 0).fresh + 1 :=
    (State.write_recordWritten_fresh hclean _ _ _ _).symm.trans
      (hsame.trans (State.write_recordWritten_fresh hclean _ _ _ _))
  omega

/-- Refutes O32: a corrected error in the entry of a ring in host memory sends an interrupt as the QE reads the entry, before
the read of the record goes to the host. The statement has the state send no more than that read. -/
theorem not_dispatching : ¬ Obligations.Dispatching := by
  intro h
  obtain ⟨hgrants, -⟩ := h
  have hin : struckIn [(0, 64)] (0, .corrected) = true := by decide
  have hread : struckSubmission.gate .dispatch [(0, 64)] [(0, 64)] = none := rfl
  have hgood : (struckSubmission.meetEnt 0).entBad 0 = false :=
    (State.meet_corrected_entBad rfl hin rfl 0).trans (by decide)
  obtain ⟨-, hasks⟩ := hgrants struckSubmission 0 0 (by
    simp only [Bool.and_eq_true, Bool.not_eq_true', Option.isNone_iff_eq_none]
    exact ⟨⟨⟨⟨by decide, by decide⟩, rfl⟩, hgood⟩, hread⟩) (by decide) (by decide)
  obtain ⟨t, ht, -, -, hout, -⟩ := hasks (by decide) (by decide)
  have hexec := exec_dispatch_asks struckSubmission 0 0 (by decide) (by decide) rfl (by decide) (by decide) (by decide) hread
    hgood (by decide)
  have hsent : (struckSubmission.meetEnt 0).out = .msix 0 :: struckSubmission.out :=
    State.meet_corrected_out rfl hin rfl rfl (by decide) (by decide) rfl (by decide)
  have hsame : t.out = .d2hRead .qe 0x4000 64 :: (struckSubmission.meetEnt 0).out :=
    congrArg State.out (Host.Outcome.next.inj (ht.symm.trans hexec))
  rw [hsent] at hsame
  exact List.cons_ne_self _ _ (List.cons.inj (hsame.symm.trans hout)).2

end

section
/-!
PROOFS. The arbiters: decisions, grants, credit periods, gap hints and watchdogs (12 R241 to R247).
-/
namespace Sys2Proof.Machine

open Sys2Proof

/-! ### The winner of a decision (R242) -/

theorem bestOf_eq_none {credits l : List Nat} (h : bestOf credits l = none) : l = [] := by
  cases l with
  | nil => rfl
  | cons i t =>
    rw [bestOf] at h
    split at h
    · cases h
    · dsimp only at h
      split at h <;> cases h

/-- The winner is one of those pending; none of them has more credit, and its index is the lowest of equals. -/
theorem bestOf_eq_some {credits l : List Nat} {i : Nat} (h : bestOf credits l = some i) :
    i ∈ l ∧ ∀ j ∈ l, credits.getD j 0 ≤ credits.getD i 0 ∧ (credits.getD j 0 = credits.getD i 0 → i ≤ j) := by
  induction l generalizing i with
  | nil => cases h
  | cons k t ih =>
    rw [bestOf] at h
    split at h
    case h_1 hnone =>
      cases h
      rw [bestOf_eq_none hnone]
      simp
    case h_2 b hbest =>
      obtain ⟨hmem, hmost⟩ := ih hbest
      dsimp only at h
      split at h
      case isTrue hwins =>
        cases h
        refine ⟨List.mem_cons_self, List.forall_mem_cons.2 ⟨⟨Nat.le_refl _, fun _ => Nat.le_refl _⟩, fun j hj => ?_⟩⟩
        obtain ⟨hle, hfirst⟩ := hmost j hj
        omega
      case isFalse hloses =>
        cases h
        exact ⟨List.mem_cons_of_mem k hmem, List.forall_mem_cons.2 ⟨by omega, hmost⟩⟩

/-! ### Decisions and credit periods (R242, R243) -/

section
variable (x : Arb) (pt : Nat) (pend : List Nat)

theorem Arb.decide_winner : (x.decide pt pend).2 = bestOf ((x.decide pt pend).1.point pt).credits pend := rfl

theorem Arb.decide_period (hsome : pend ≠ []) (hspent : ∀ i ∈ pend, (x.point pt).credits.getD i 0 = 0) :
    (x.decide pt pend).1 = x.startPeriod pt :=
  if_pos (by simpa [hsome] using hspent)

theorem Arb.decide_same (hcredit : ∃ i ∈ pend, (x.point pt).credits.getD i 0 ≠ 0) : (x.decide pt pend).1 = x := by
  obtain ⟨i, hi, hleft⟩ := hcredit
  refine if_neg fun h => hleft ?_
  rw [Bool.and_eq_true, List.all_eq_true] at h
  exact eq_of_beq (h.2 i hi)

/-- A commit that waits is live from the start of the period. -/
theorem Arb.startPeriod_commits (h : x.pending = true) :
    (x.startPeriod pt).live = x.shadow ∧ (x.startPeriod pt).pending = false := by
  simp [Arb.startPeriod, Arb.setPoint, h]

end

/-! ### The requester that a point serves (R244, R247) -/

section
variable (x : Arb) (pt : Nat) (reqs : List Nat)

/-- Without a lock the winner of the decision is served, and the others get the hints of that decision. -/
theorem Arb.pick_decides {i : Nat} (hfree : (x.point pt).owner.filter (·.lock) = none)
    (hwins : (x.decide pt reqs.eraseDups).2 = some i) :
    let y := (x.decide pt reqs.eraseDups).1
    x.pick pt reqs
      = (y.setHints pt ((gapHints (y.point pt).credits reqs.eraseDups).filter fun h => h.1 != i), some i) := by
  simp only [Arb.pick, hfree, hwins]

/-- The owner of a lock is served before any decision. -/
theorem Arb.pick_locked {o : ArbReq} (howner : (x.point pt).owner = some o) (hlock : o.lock = true)
    (hasks : o.index.val ∈ reqs) :
    x.pick pt reqs = (x.setHints pt (lockedHints o.index.val reqs.eraseDups), some o.index.val) := by
  simp [Arb.pick, howner, Option.filter, hlock, hasks]

end

/-! ### Gap hints (R247) -/

theorem hintOf_le_iff {e h : Nat} (he : e < 2 ^ 32) : hintOf e ≤ h ↔ e + 1 ≤ 2 ^ h := by
  by_cases hzero : e = 0
  · subst hzero
    simp [hintOf, Nat.one_le_two_pow]
  · have hlog : e.log2 < 32 := (Nat.log2_lt hzero).2 he
    have hhint : hintOf e = e.log2 + 1 := by rw [hintOf, if_neg hzero, Nat.min_eq_right hlog]
    rw [hhint, Nat.succ_le_iff, Nat.succ_le_iff, Nat.log2_lt hzero]

theorem mem_lockedHints {owner : Nat} {pend : List Nat} {h : Nat × Nat} (hmem : h ∈ lockedHints owner pend) :
    h.2 = 0xFF ∧ h.1 ≠ owner := by
  obtain ⟨i, hi, rfl⟩ := List.mem_map.1 hmem
  exact ⟨rfl, by simpa using (List.mem_filter.1 hi).2⟩

/-! ### Grants (R241, Table 15.8) -/

/-- The requests of those that an arbiter has (Table 12.2). -/
def liveReqs (a : ArbId) (reqs : List ArbReq) : List ArbReq := reqs.filter fun r => r.index.val < requesters a.val

section
variable (s : State) (a : ArbId) (pt : Fin 12) (reqs : List ArbReq)

/-- The requester that the point serves gets the grant, with what its transfer meets in SRAM. -/
theorem State.arbGrant_serves (hpt : pt.val < points a.val) {y : Arb} {i : Nat} {r : ArbReq}
    (hpick : (s.arb a.val).pick pt.val ((liveReqs a reqs).map fun r => r.index.val) = (y, some i))
    (hreq : (liveReqs a reqs).find? (fun r => r.index.val == i) = some r) :
    s.arbGrant a pt reqs = (s.setArb a.val (y.grant a.val pt.val r), r.sram) := by
  simp only [liveReqs] at hpick hreq
  simp only [State.arbGrant, Nat.not_le.2 hpt, if_false, hpick, hreq]

variable (hon : s.chipOn = true)
include hon

theorem exec_arbiterGrant_clean {t : State} (hgrant : s.arbGrant a pt reqs = (t, .clean)) :
    exec (.arbiterGrant a pt reqs) s = .next (t.egressGo a) := by
  change execArbiterGrant a pt reqs s = _
  rw [execArbiterGrant, hon, hgrant, if_neg (by decide)]

theorem exec_arbiterGrant_corrected {t : State} (hgrant : s.arbGrant a pt reqs = (t, .corrected)) :
    exec (.arbiterGrant a pt reqs) s = .next (State.egressGo { t with errlog := t.errlog.counted 0 } a) := by
  change execArbiterGrant a pt reqs s = _
  rw [execArbiterGrant, hon, hgrant, if_neg (by decide)]

theorem exec_arbiterGrant_uncorrected {t : State} (hgrant : s.arbGrant a pt reqs = (t, .uncorrected)) :
    exec (.arbiterGrant a pt reqs) s = .next (t.fatalNow 3 0xFF 0x16 0 (Config.sramStructure a.val).toNat) := by
  change execArbiterGrant a pt reqs s = _
  rw [execArbiterGrant, hon, hgrant, if_neg (by decide)]

theorem exec_creditPeriodEnd (hpt : pt.val < points a.val) :
    exec (.creditPeriodEnd a pt) s = .next (s.setArb a.val ((s.arb a.val).startPeriod pt.val)) := by
  change execCreditPeriodEnd a pt s = _
  rw [execCreditPeriodEnd, hon, if_neg (by simpa using hpt)]

end

theorem exec_arbCommit (s : State) (a : ArbId) (hon : s.hostOn = true) :
    exec (.arbCommit a) s = .next (s.setArb a.val { s.arb a.val with pending := true }) := by
  change execArbCommit a s = _
  rw [execArbCommit, hon, if_neg (by decide)]

/-! ### Watchdogs (R245, R246) -/

/-- The state once the watchdog has released the grant of owner o: a bite more, the lines partly written poisoned. -/
def State.bitten (s : State) (a : ArbId) (pt : Fin 12) (o : ArbReq) : State :=
  let x := s.arb a.val
  let u := s.setArb a.val
    { x.setPoint pt.val { x.point pt.val with owner := none } with bites := satAdd x.bites 1 }
  if o.len = 0 then u else u.poisonLines o.addr o.len

/-- What the bite does to the owner w of the grant o, whose level and INFO are those of record 0x0A. -/
def State.afterBite (u : State) (a : ArbId) (o : ArbReq) (w : Owner) : State :=
  let level := if a.val < 14 then 3 else 2
  let info := a.val + o.index.val * 256
  let logged := u.logEv 1 level 0xFF 0x0A 0 info
  match w with
  | .fn f => (((u.logEv 2 level f.code 0x0A 0 info).abandonEgress a f).watchdogFault f).egressGo a
  | .coherence => u.fatalNow level 0xFF 0x0A 0 info
  | .mc => u.fatalNow level 0xFF 0x0A 0 info
  | .host => logged.abandonHost (o.addr / 64) o.len
  | .scrub => logged.abandonScrub o.addr
  | .inbound => logged.abandonInbound o.addr
  | .forwarded p => (logged.abandonFlow (fin12 (a.val - 2)) p).egressGo a

/-- A bite releases the grant first; what follows is by its owner. -/
theorem exec_watchdogBite (s : State) (a : ArbId) (pt : Fin 12) (o : ArbReq) (hon : s.unitsOn = true)
    (hpt : pt.val < points a.val) (howner : ((s.arb a.val).point pt.val).owner = some o) {w : Owner}
    (hw : ownerOf a o = w) : exec (.watchdogBite a pt) s = .next ((s.bitten a pt o).afterBite a o w) := by
  have hgo : (!s.unitsOn || decide (points a.val ≤ pt.val)) = false := by simpa [hon] using hpt
  change execWatchdogBite a pt s = _
  simp only [execWatchdogBite, howner, hgo, Bool.false_eq_true, if_false, hw]
  cases w <;> rfl

end Sys2Proof.Machine

open Sys2Proof Sys2Proof.Machine

/-- Settles O40: what a point serves (Arb.pick), the winner of a decision (bestOf), the bounds of a hint, and the release by
the watchdog (State.bitten) with what follows for the grant's owner (State.afterBite). -/
theorem arbiters : Obligations.Arbiters := by
  refine ⟨fun s a pt reqs hon hpt => ?grant, fun e he => ⟨?covers, fun h => (hintOf_le_iff he).2⟩,
    fun owner pend h => mem_lockedHints, fun s a pt o hon hpt howner => ?bite⟩
  case grant =>
    intro x live pend d
    refine ⟨fun i r hfree hwins hreq => ?free, fun o r howner hlock hreq hclean => ?locked,
      fun t => exec_arbiterGrant_corrected s a pt reqs hon, fun t => exec_arbiterGrant_uncorrected s a pt reqs hon,
      fun i hwins => ?winner, x.decide_period pt.val pend, x.decide_same pt.val pend,
      exec_creditPeriodEnd s a pt hon hpt, exec_arbCommit s a, x.startPeriod_commits pt.val⟩
    case free =>
      intro hints hclean
      have hgrant := s.arbGrant_serves a pt reqs hpt (x.pick_decides pt.val _ hfree hwins) hreq
      exact exec_arbiterGrant_clean s a pt reqs hon (hclean ▸ hgrant)
    case locked =>
      have hasks : o.index.val ∈ live.map fun r => r.index.val :=
        List.mem_map.2 ⟨r, List.mem_of_find?_eq_some hreq, eq_of_beq (List.find?_some hreq :)⟩
      have hgrant := s.arbGrant_serves a pt reqs hpt (x.pick_locked pt.val _ howner hlock hasks) hreq
      exact exec_arbiterGrant_clean s a pt reqs hon (hclean ▸ hgrant)
    case winner =>
      obtain ⟨hmem, hmost⟩ := bestOf_eq_some ((x.decide_winner pt.val pend).symm.trans hwins)
      exact ⟨List.mem_eraseDups.1 hmem, fun j hj => hmost j (List.mem_eraseDups.2 hj)⟩
  case covers => exact (hintOf_le_iff he).1 (Nat.le_refl _)
  case bite =>
    intro x y released u level
    have hbite {w} := exec_watchdogBite s a pt o hon hpt howner (w := w)
    exact ⟨fun f => hbite, hbite, hbite, hbite, fun p => hbite, fun hw => hw.elim hbite hbite⟩

end

section
/-!
PROOFS. The Col ports: the states of a port (13 R280, R281).
-/
namespace Sys2Proof.Machine

open Sys2Proof

/-! ### Ports beside the one that is written -/

theorem State.port_setPort_ne (s : State) (p q : PortId) (x : Port) (h : p ≠ q) : (s.setPort p x).port q = s.port q := by
  have hval : p.val ≠ q.val := fun e => h (Fin.ext e)
  simp [State.port, State.setPort, hval]

theorem State.modPort_eq (s : State) (p : PortId) (f : Port → Port) : s.modPort p f = s.setPort p (f (s.port p)) := rfl

@[simp] theorem State.logEv_port (s : State) (c l f k a i : Nat) : (s.logEv c l f k a i).port = s.port := by
  funext q
  rw [State.port, State.logEv_col, State.port]

/-! ### Leaving the link (R280) -/

/-- Port q once the flits that it received from port p have left its queue. -/
def Port.without (q : Port) (p : PortId) : Port := { q with waiting := q.waiting.filter fun f => !f.receivedBy p }

/-- The state once no port holds a flit that port p received. -/
def State.withoutReceived (s : State) (p : PortId) : State :=
  { s with col := { s.col with ports := s.col.ports.map fun q => q.without p } }

theorem State.withoutReceived_port (s : State) (p q : PortId) : (s.withoutReceived p).port q = (s.port q).without p := by
  simp [State.withoutReceived, State.port]

/-- Port p as it leaves the link, with what its buffers lose counted and logged. -/
def State.endLink (s : State) (p : PortId) (st : PortState) (lost : Nat) : State :=
  let x := s.port p
  let t := s.setPort p { x.afresh with state := st, drop := if x.linked then satAdd x.drop lost else x.drop }
  if x.linked then t.logEv 1 3 (0x40 + p.val) 0x0C 0 (p.val + lost % 2 ^ 32 * 2 ^ 16) else t

theorem State.leaveLink_eq (s : State) (p : PortId) (st : PortState) :
    ∃ lost, s.leaveLink p st = ((s.withoutReceived p).port p).waiting.foldl (fun s f => s.dropFlit f 1)
      ((s.withoutReceived p).endLink p st lost) := ⟨_, rfl⟩

theorem State.endLink_mem (s : State) (p : PortId) (st : PortState) (lost : Nat) : (s.endLink p st lost).mem = s.mem := by
  unfold State.endLink
  dsimp only
  split
  · exact State.logEv_mem ..
  · rfl

theorem State.endLink_port (s : State) (p : PortId) (st : PortState) (lost : Nat) :
    ∃ d : Word, (s.endLink p st lost).port = (s.setPort p { (s.port p).afresh with state := st, drop := d }).port := by
  refine ⟨if (s.port p).linked then satAdd (s.port p).drop lost else (s.port p).drop, ?_⟩
  unfold State.endLink
  dsimp only
  split
  · exact State.logEv_port ..
  · rfl

/-- A port with nothing that waits leaves the link as it begins afresh, whatever it counts and logs. -/
theorem State.leaveLink_afresh (s : State) (p : PortId) (st : PortState) (hnone : (s.port p).waiting = []) :
    (s.leaveLink p st).mem = s.mem ∧ ∃ d : Word, (s.leaveLink p st).port
      = ((s.withoutReceived p).setPort p { ((s.port p).without p).afresh with state := st, drop := d }).port := by
  have hwait : ((s.port p).without p).waiting = [] := by rw [Port.without, hnone]; rfl
  obtain ⟨lost, hleave⟩ := s.leaveLink_eq p st
  rw [hleave, s.withoutReceived_port, hwait, List.foldl_nil, ← s.withoutReceived_port]
  exact ⟨State.endLink_mem .., State.endLink_port ..⟩

/-- The queue of a port once port p has left the link with nothing that waits for p itself. -/
theorem State.leaveLink_waiting (s : State) (p : PortId) (st : PortState) (hnone : (s.port p).waiting = []) (q : PortId) :
    ((s.leaveLink p st).port q).waiting = (s.port q).waiting.filter fun f => !f.receivedBy p := by
  obtain ⟨-, d, hport⟩ := s.leaveLink_afresh p st hnone
  rw [hport]
  by_cases heq : p = q
  · subst heq
    rw [State.port_setPort, hnone]; rfl
  · rw [State.port_setPort_ne _ _ _ _ heq, State.withoutReceived_port]; rfl

/-! ### Commands of the host -/

section
variable (s : State) (p : PortId)

theorem exec_colPortEnable_enables (hon : s.hostOn = true) (hdis : (s.port p).state = .disabled)
    (hfatal : s.errlog.fatal = false) (hbist : s.board.chipBistLeft = false) :
    exec (.colPortEnable p) s = .next (s.setPort p { s.port p with enable := true, state := .down }) := by
  change execColPortEnable p s = _
  simp [execColPortEnable, hon, hdis, hfatal, hbist]

theorem exec_colPortDisable_leaves (hon : s.hostOn = true) (hen : (s.port p).state ≠ .disabled) :
    exec (.colPortDisable p) s = .next ((s.setPort p { s.port p with enable := false }).leaveLink p .disabled) := by
  change execColPortDisable p s = _
  simp [execColPortDisable, hon, hen, State.modPort_eq]

theorem exec_lpiRequest_asks (hon : s.hostOn = true) (hup : (s.port p).state = .up) (hnew : (s.port p).lpi = false) :
    exec (.lpiRequest p) s = .next ((s.setPort p { s.port p with lpi := true }).sendCtrl p [2]) := by
  change execLpiRequest p s = _
  simp [execLpiRequest, hon, hup, hnew, State.modPort_eq]

theorem exec_retrain_trains (hon : s.hostOn = true) (huse : (s.port p).usable = true) :
    exec (.retrain p) s = .next (s.setPort p { s.port p with
      state := .training, retraining := true, failed := 0, nakCount := 0,
      retrains := BitVec.ofNat 8 (satAddN 8 (s.port p).retrains.toNat 1) }) := by
  change execRetrain p s = _
  simp [execRetrain, State.retrain, hon, huse]

/-! ### Low-power idle (R281) -/

/-- A port in LPI leaves it with what the update has written; its flits go out. -/
theorem State.leaveLpi_up (x : Port) (hlpi : x.state = .lpi) :
    (s.setPort p x).leaveLpi p = (s.setPort p { x with state := .up }).pump p := by
  simp [State.leaveLpi, hlpi]

theorem exec_lpiRelease_leaves (hon : s.hostOn = true) (hlpi : (s.port p).state = .lpi) :
    exec (.lpiRelease p) s = .next ((s.setPort p { s.port p with lpi := false, state := .up }).pump p) := by
  change execLpiRelease p s = _
  rw [execLpiRelease, hon, State.modPort_eq, s.leaveLpi_up p { s.port p with lpi := false } hlpi]
  rfl

theorem exec_partnerLpiExit_leaves (hon : s.chipOn = true) (hlpi : (s.port p).state = .lpi) :
    exec (.partnerLpiExit p) s = .next ((s.setPort p { s.port p with partnerLpi := false, state := .up }).pump p) := by
  change execPartnerLpiExit p s = _
  rw [execPartnerLpiExit, hon, State.modPort_eq, s.leaveLpi_up p { s.port p with partnerLpi := false } hlpi]
  rfl

/-- A port that does not ask for LPI stays out of it. -/
theorem State.tryLpi_stays (x : Port) (hno : x.lpi = false) : (s.setPort p x).tryLpi p = s.setPort p x := by
  simp [State.tryLpi, hno]

theorem State.tryLpi_enters (x : Port) (hup : x.state = .up) (hask : x.lpi = true) (hpartner : x.partnerLpi = true)
    (hretry : x.retry = []) (hwait : x.waiting = []) (hdisc : x.discarding = false) :
    (s.setPort p x).tryLpi p = s.setPort p { x with state := .lpi } := by
  simp [State.tryLpi, hup, hask, hpartner, hretry, hwait, hdisc]

theorem exec_lpiReq (hon : s.chipOn = true) (hup : (s.port p).state = .up) :
    let u := s.setPort p { s.port p with partnerLpi := true }
    exec (.lpiReq p) s = .next (State.tryLpi (if (s.port p).lpi = true then u.sendCtrl p [3] else u) p) := by
  intro u
  change execLpiReq p s = _
  rw [execLpiReq, if_neg (by simp [hon, hup])]
  dsimp only
  rw [State.modPort_eq, State.port_setPort]

theorem exec_lpiReq_alone (hon : s.chipOn = true) (hup : (s.port p).state = .up) (hno : (s.port p).lpi = false) :
    exec (.lpiReq p) s = .next (s.setPort p { s.port p with partnerLpi := true }) := by
  rw [exec_lpiReq s p hon hup, if_neg (by simp [hno]), s.tryLpi_stays p { s.port p with partnerLpi := true } hno]

theorem exec_lpiReq_answers (hon : s.chipOn = true) (hup : (s.port p).state = .up) (hask : (s.port p).lpi = true) :
    exec (.lpiReq p) s = .next (((s.setPort p { s.port p with partnerLpi := true }).sendCtrl p [3]).tryLpi p) := by
  rw [exec_lpiReq s p hon hup, if_pos hask]

theorem exec_lpiAck_enters (hon : s.chipOn = true) (hup : (s.port p).state = .up) (hask : (s.port p).lpi = true)
    (hretry : (s.port p).retry = []) (hwait : (s.port p).waiting = []) (hdisc : (s.port p).discarding = false) :
    exec (.lpiAck p) s = .next (s.setPort p { s.port p with partnerLpi := true, state := .lpi }) := by
  change execLpiAck p s = _
  rw [execLpiAck, if_neg (by simp [hon, hup]), State.modPort_eq,
    s.tryLpi_enters p { s.port p with partnerLpi := true } hup hask rfl hretry hwait hdisc]

/-! ### Training (R280) -/

theorem exec_trainingAttempt_begins (hon : s.unitsOn = true) (hdown : (s.port p).state = .down) :
    exec (.trainingAttempt p) s = .next (s.setPort p { s.port p with state := .training, retraining := false }) := by
  change execTrainingAttempt p s = _
  simp [execTrainingAttempt, hon, hdown]

/-- Port x once a training has ended: it is UP, and knows its partner and whether the profiles differ. -/
def Port.trained (x : Port) (modid : BitVec 12) (port : BitVec 4) (profile own : Word64) : Port :=
  { x with state := .up, retrains := 0, failed := 0, retraining := false, partnerId := modid, partnerPort := port,
           partnerValid := true, partnerProfile := profile, mismatch := profile != own }

theorem exec_trainingComplete_up (modid : BitVec 12) (port : BitVec 4) (profile : Word64) (hon : s.unitsOn = true)
    (htrain : (s.port p).state = .training) (hfresh : (s.port p).retraining = false) :
    let u := (s.setPort p ((s.port p).trained modid port profile s.mgt.profile)).sendInfo p
    exec (.trainingComplete p modid port profile) s
      = .next (State.pump (if (u.port p).lpi = true then u.sendCtrl p [2] else u) p) := by
  intro u
  change execTrainingComplete p modid port profile s = _
  simp only [execTrainingComplete, hon, htrain, hfresh, Bool.not_true, bne_self_eq_false, Bool.or_self,
    Bool.false_eq_true, if_false]
  rfl

theorem exec_trainingTimeout_fresh (hon : s.unitsOn = true) (htrain : (s.port p).state = .training)
    (hfresh : (s.port p).retraining = false) :
    exec (.trainingTimeout p) s = .next (s.setPort p { s.port p with state := .down }) := by
  change execTrainingTimeout p s = _
  simp [execTrainingTimeout, hon, htrain, hfresh]

theorem exec_trainingTimeout_again (hon : s.unitsOn = true) (htrain : (s.port p).state = .training)
    (hre : (s.port p).retraining = true) (hfew : (s.port p).failed < 2) :
    exec (.trainingTimeout p) s = .next (s.setPort p { s.port p with
      failed := (s.port p).failed + 1, retrains := BitVec.ofNat 8 (satAddN 8 (s.port p).retrains.toNat 1) }) := by
  change execTrainingTimeout p s = _
  simp [execTrainingTimeout, hon, htrain, hre, Nat.not_le.2 hfew]

theorem exec_trainingTimeout_third (hon : s.unitsOn = true) (htrain : (s.port p).state = .training)
    (hre : (s.port p).retraining = true) (hmany : 2 ≤ (s.port p).failed) :
    exec (.trainingTimeout p) s = .next (s.leaveLink p .down) := by
  change execTrainingTimeout p s = _
  simp [execTrainingTimeout, hon, htrain, hre, hmany]

theorem exec_lossOfSignal_leaves (hon : s.unitsOn = true) (huse : (s.port p).usable = true) :
    exec (.lossOfSignal p) s = .next (s.leaveLink p .down) := by
  change execLossOfSignal p s = _
  simp [execLossOfSignal, hon, huse]
end

end Sys2Proof.Machine

open Sys2Proof Sys2Proof.Machine

/-- Settles O41: each change of state by the rule of its command; what leaving the link empties by State.leaveLink_afresh. -/
theorem colPorts : Obligations.ColPorts := by
  refine fun s p => ⟨fun hon => ?host, fun hon => ?partner, fun hon => ?training, fun st hnone => ?emptied⟩
  case host =>
    exact ⟨exec_colPortEnable_enables s p hon, exec_colPortDisable_leaves s p hon, exec_lpiRequest_asks s p hon,
      exec_lpiRelease_leaves s p hon, exec_retrain_trains s p hon⟩
  case partner =>
    exact ⟨exec_lpiReq_alone s p hon, exec_lpiReq_answers s p hon, exec_lpiAck_enters s p hon,
      exec_partnerLpiExit_leaves s p hon⟩
  case training =>
    refine ⟨exec_trainingAttempt_begins s p hon, fun modid port profile => exec_trainingComplete_up s p modid port profile hon,
      exec_trainingTimeout_fresh s p hon, fun htrain hre hfew => ?again, exec_trainingTimeout_third s p hon,
      exec_lossOfSignal_leaves s p hon⟩
    case again =>
      refine ⟨_, exec_trainingTimeout_again s p hon htrain hre hfew, ?_⟩
      rw [State.port_setPort]
      exact ⟨htrain, rfl, rfl⟩
  case emptied =>
    obtain ⟨hmem, d, hport⟩ := s.leaveLink_afresh p st hnone
    have hself := (congrFun hport p).trans (State.port_setPort ..)
    exact ⟨congrArg Port.state hself, congrArg Port.retry hself, congrArg Port.sendSeq hself, congrArg Port.expSeq hself,
      (congrArg Port.rtLive hself :), hmem, s.leaveLink_waiting p st hnone⟩
end

section
/-!
PROOFS. The flits of a Col port that is UP: acceptance, retry, credits and INFO (13 R265 to R268, R273, R274, R283).
-/
namespace Sys2Proof.Machine

open Sys2Proof

/-! ### A flit arrives (R266, R267) -/

/-- A flit with data: DATA or CTRL, and no IDLE flit. -/
def Arriving.isData (a : Arriving) : Bool := a.kind == 1 || a.kind == 2

theorem Arriving.isData_iff (a : Arriving) : a.isData = true ↔ a.kind = 1 ∨ a.kind = 2 := by
  simp [Arriving.isData]

/-- The state as flit a comes: port p has counted the codewords that the FEC corrected. -/
def State.fecCounted (s : State) (p : PortId) (fixed : Nat) : State :=
  s.setPort p { s.port p with fecCorr := satAdd (s.port p).fecCorr fixed }

/-- The state once port p has accepted flit a, which moves the SEQ expected, and answered it by an ACK. -/
def State.acceptFlit (u : State) (p : PortId) (a : Arriving) : State :=
  let y := u.port p
  let v := ((u.setPort p { y with expSeq := (y.expSeq + 1) % 1024, discarding := false }).takeFlit p a.flit).loopIn
  v.send (.flit p (idleBytes false (v.port p).ack))

section
variable (s : State) (p : PortId) (bs : List Byte) (fecBad : Bool) (fixed : Nat)
variable (hlen : bs.length = 256) (hon : s.unitsOn = true) (hup : (s.port p).state = .up)
include hlen hon hup

theorem exec_flitReceive_bad (hbad : (arriving p bs fecBad).bad = true) :
    exec (.flitReceive p bs ⟨fecBad, fixed⟩) s = .next (if (arriving p bs fecBad).isData = true
      then (s.fecCounted p fixed).rejectFlit p fecBad else s.fecCounted p fixed) := by
  change execFlitReceive p bs ⟨fecBad, fixed⟩ s = _
  rw [execFlitReceive, if_neg (by simp [hlen]), if_neg (by simp [hon, hup])]
  exact if_pos hbad

theorem exec_flitReceive_good (hgood : (arriving p bs fecBad).bad = false) :
    let a := arriving p bs fecBad
    let u := (s.fecCounted p fixed).onAck p a
    exec (.flitReceive p bs ⟨fecBad, fixed⟩) s = if (!a.isData) = true then .next (u.tryLpi p)
      else if a.seq ≠ (u.port p).expSeq then .next (u.rejectFlit p false) else .next (u.acceptFlit p a) := by
  intro a u
  change execFlitReceive p bs ⟨fecBad, fixed⟩ s = _
  rw [execFlitReceive, if_neg (by simp [hlen]), if_neg (by simp [hon, hup])]
  exact if_neg (by simp [hgood])
end

/-- The first flit that is not accepted is counted, by what has found it bad, and answered by a NAK. -/
theorem State.rejectFlit_first (s : State) (p : PortId) (fec : Bool) (hfirst : (s.port p).discarding = false) :
    s.rejectFlit p fec = (s.setPort p (if fec = true
      then { s.port p with discarding := true, fecUncorr := satAdd (s.port p).fecUncorr 1 }
      else { s.port p with discarding := true, crcErr := satAdd (s.port p).crcErr 1 })).send
        (.flit p (idleBytes true (s.port p).expSeq)) := by
  rw [State.rejectFlit, if_neg (by simp [hfirst])]

/-! ### The sender, credits and INFO (R265, R267, R268) -/

section
variable (s : State) (p : PortId) (hon : s.chipOn = true) (hup : (s.port p).state = .up)
include hon

theorem exec_nakLimitRetrain_trains (hmany : 16 ≤ (s.port p).nakCount) :
    exec (.nakLimitRetrain p) s = .next (s.retrain p) := by
  change execNakLimitRetrain p s = _
  simp [execNakLimitRetrain, hon, hmany]

include hup

theorem exec_nak_onNak (q : BitVec 10) : exec (.nak p q) s = .next (s.onNak p q.toNat) := by
  change execNak p q s = _
  simp [execNak, hon, hup]

theorem exec_nakRepeat_sends (hdisc : (s.port p).discarding = true) :
    exec (.nakRepeat p) s = .next (s.send (.flit p (idleBytes true (s.port p).expSeq))) := by
  change execNakRepeat p s = _
  simp [execNakRepeat, hon, hup, hdisc]

theorem exec_creditReturn_sends (howes : (!(s.port p).disabledFn && decide ((s.port p).retry.length < 512)
      && (s.port p).owed.toList.any (fun k => k != 0)) = true) :
    exec (.creditReturn p) s = .next ((s.setPort p { s.port p with owed := Vector.replicate 8 0 }).sendCtrl p
      (1 :: (s.port p).owed.toList)) := by
  change execCreditReturn p s = _
  rw [Bool.and_eq_true, Bool.and_eq_true] at howes
  obtain ⟨⟨hen, hroom⟩, hsome⟩ := howes
  rw [execCreditReturn]
  exact if_pos (by simp only [hon, hup, hen, hroom, hsome, beq_self_eq_true, Bool.and_self])

theorem exec_credit_adds (vc : Fin 8) (k : Nat) : exec (.credit p vc k) s = .next ((s.setPort p { s.port p with
    credits := (s.port p).credits.set vc (min 32 ((s.port p).credits[vc] + k)) }).pump p) := by
  change execCredit p vc k s = _
  rw [execCredit, if_neg (by simp [hon, hup]), State.modPort_eq]

theorem exec_info_learns (modid : BitVec 12) (port : BitVec 4) (profile : Word64) :
    exec (.info p modid port profile) s = .next (s.setPort p { s.port p with
      partnerId := modid, partnerPort := port, partnerValid := true, partnerProfile := profile,
      mismatch := profile != s.mgt.profile }) := by
  change execInfo p modid port profile s = _
  rw [execInfo, if_neg (by simp [hon, hup]), State.modPort_eq]
end

end Sys2Proof.Machine

open Sys2Proof Sys2Proof.Machine

/-- Settles O42: a flit that arrives is bad or good, with data or without, in order or not; each command of the sender by its
rule. -/
theorem colFlits : Obligations.ColFlits := by
  intro s p x hup
  refine ⟨fun bs fecBad fixed hlen hon => ?receives, fun fec => s.rejectFlit_first p fec, fun hon => ?sends⟩
  case receives =>
    intro a w u y data
    have hbad := exec_flitReceive_bad s p bs fecBad fixed hlen hon hup
    have hgood := exec_flitReceive_good s p bs fecBad fixed hlen hon hup
    have hdata : a.isData = true ↔ data := a.isData_iff
    have hskip : (!a.isData) = true ↔ ¬data := by rw [Bool.not_eq_true', ← Bool.not_eq_true, a.isData_iff]
    refine ⟨fun hok hd hseq => ?taken, fun hok hd hseq => ?outOfOrder, fun hno hd => ?rejected, fun hno hd => ?ignored,
      fun hok hd => ?idle⟩
    case taken => exact (hgood hok).trans ((if_neg (mt hskip.1 (Classical.not_not.2 hd))).trans
      (if_neg (Classical.not_not.2 hseq)))
    case outOfOrder => exact (hgood hok).trans ((if_neg (mt hskip.1 (Classical.not_not.2 hd))).trans (if_pos hseq))
    case rejected => exact (hbad hno).trans (congrArg _ (if_pos (hdata.2 hd)))
    case ignored => exact (hbad hno).trans (congrArg _ (if_neg (mt hdata.1 hd)))
    case idle => exact (hgood hok).trans (if_pos (hskip.2 hd))
  case sends =>
    exact ⟨exec_nak_onNak s p hon hup, exec_nakRepeat_sends s p hon hup, exec_nakLimitRetrain_trains s p hon,
      exec_creditReturn_sends s p hon hup, exec_credit_adds s p hon hup, exec_info_learns s p hon hup⟩
end

section
/-!
PROOFS. Messages that a Col port delivers to this module: bursts, reads, the answers of peers and arrivals (12 R248; 13 R271,
R272, R276).
-/
namespace Sys2Proof.Machine

open Sys2Proof

/-! ### The region that answers (12 Table 12.2) -/

/-- The region of an address follows from the segments. -/
theorem State.regionAt_of_segs {t u : State} (h : t.segs = u.segs) : t.regionAt = u.regionAt := by
  have hseg : t.seg = u.seg := by
    funext k
    rw [State.seg, State.seg, h]
  funext a
  rw [State.regionAt, State.regionAt, State.channelOf, State.channelOf, hseg]

theorem State.write_segs (s : State) (a : Nat) (bs : List Byte) (bad : Bool) : (s.write a bs bad).segs = s.segs := by
  unfold State.write
  split
  · exact State.logEv_segs ..
  · exact State.meet_segs ..

theorem State.poisonWritten_segs (s : State) (a : Nat) : (s.poisonWritten a).segs = s.segs := by
  unfold State.poisonWritten
  split
  · exact State.logEv_segs ..
  · rfl

theorem State.poisonMarked_segs (s : State) (a n v : Nat) : (s.poisonMarked a n v).segs = s.segs := by
  unfold State.poisonMarked
  induction markedLines a n v generalizing s with
  | nil => rfl
  | cons l ls ih => exact (ih _).trans ((State.poisonWritten_segs _ _).trans (s.poisonLines_segs _ _))

theorem State.atomApply_segs (s : State) (a : Nat) (bs : List Byte) (v : Nat) : (s.atomApply a bs v).segs = s.segs :=
  (State.poisonMarked_segs ..).trans ((State.write_segs ..).trans (State.meet_segs ..))

/-! ### Bursts (R248, R271) -/

/-- Burst (src, m.tag) once fragment m has come. -/
def State.burstWith (s : State) (src : BitVec 12) (m : ColMsg) (atom : Bool) : Assembly :=
  ((s.col.bursts.find? (sameBurst src.toNat m.tag)).getD (newBurst src m atom)).add m

def State.setBursts (s : State) (bs : List Assembly) : State := { s with col := { s.col with bursts := bs } }

/-- The bursts beside (src, m.tag). -/
def State.otherBursts (s : State) (src : BitVec 12) (m : ColMsg) : List Assembly :=
  s.col.bursts.filter fun x => !sameBurst src.toNat m.tag x

/-- Memory once the whole burst b is written or added. -/
def State.applyBurst (s : State) (b : Assembly) : State :=
  if b.atom = true then s.atomApply b.addr b.bytes b.poison
  else (s.write b.addr b.bytes false).poisonMarked b.addr b.len b.poison

theorem State.applyBurst_segs (s : State) (b : Assembly) : (s.applyBurst b).segs = s.segs := by
  unfold State.applyBurst
  split
  · exact State.atomApply_segs ..
  · exact (State.poisonMarked_segs ..).trans (State.write_segs ..)

theorem State.applyBurst_regionAt (s : State) (bs : List Assembly) (b : Assembly) :
    ((s.setBursts bs).applyBurst b).regionAt = s.regionAt := State.regionAt_of_segs (State.applyBurst_segs _ b)

section
variable (s : State) (c : Instr) (src : BitVec 12) (m : ColMsg) (atom : Bool) (hfree : s.colHeld src = false)
variable {b : Assembly} (hb : s.burstWith src m atom = b)
include hfree hb

theorem State.onBurst_waits (hpart : b.complete = false) :
    s.onBurst c src m atom = s.setBursts (s.otherBursts src m ++ [b]) := by
  subst hb
  rw [State.onBurst, if_neg (ne_true_of_eq_false hfree)]
  exact if_pos (Bool.not_eq_true' _ ▸ hpart)

theorem State.onBurst_refused (hall : b.complete = true) (hout : s.engReach b.addr b.len = false) :
    s.onBurst c src m atom = (s.setBursts (s.otherBursts src m)).refuseMsg src b.tag b.addr := by
  rw [State.burstWith] at hb
  simp only [State.onBurst, hfree, hb, hall, hout, Bool.not_true, Bool.not_false, Bool.true_or, Bool.false_eq_true, if_false,
    if_true]
  rfl

theorem State.onBurst_applied (hall : b.complete = true) (hin : s.engReach b.addr b.len = true)
    (hplain : (b.atom && isBasin b.addr) = false)
    (hgate : s.gateWith true c (if b.atom then [(b.addr, b.len)] else []) [(b.addr, b.len)] = none) :
    s.onBurst c src m atom = ((s.setBursts (s.otherBursts src m)).applyBurst b).respond src.toNat
      (s.regionAt b.addr) (simpleMsg mtWrack b.tag 0 0) := by
  rw [← s.applyBurst_regionAt (s.otherBursts src m) b]
  rw [State.burstWith] at hb
  simp only [State.onBurst, hfree, hb, hall, hin, hplain, hgate, Bool.not_true, Bool.or_self, Bool.false_eq_true, if_false]
  rfl
end

/-! ### Reads (R271, R272) -/

/-- The answer to read request m in the state that has met the upsets of its range. -/
def State.readAnswer (s : State) (m : ColMsg) : ColMsg :=
  { mtype := mtReadRsp, poison := poisonBits m.addr fun l => l * 64 < m.addr + (m.lenm1 + 1) && (s.read (64 * l) 64).2,
    lenm1 := m.lenm1, tag := m.tag, addr := m.addr, offset := 0, blenm1 := m.lenm1, cause := 0,
    data := (s.read m.addr (m.lenm1 + 1)).1 }

section
variable (s : State) (src : BitVec 12) (m : ColMsg)

theorem State.onReadreq_refused (hout : s.engReach m.addr (m.lenm1 + 1) = false) :
    s.onReadreq src m = s.refuseMsg src m.tag m.addr := by
  rw [State.onReadreq]
  exact if_pos (Bool.not_eq_true' _ ▸ hout)

theorem State.onReadreq_answers (hin : s.engReach m.addr (m.lenm1 + 1) = true)
    (hgate : s.gate (.readreq src m) [(m.addr, m.lenm1 + 1)] [] = none) :
    let u := s.meet [(m.addr, m.lenm1 + 1)]
    s.onReadreq src m = (u.readMark m.addr (m.lenm1 + 1)).respond src.toNat (s.regionAt m.addr) (u.readAnswer m) := by
  intro u
  rw [← State.regionAt_of_segs (s.meet_segs _ : u.segs = s.segs)]
  simp only [State.onReadreq, hin, hgate, Bool.not_true, Bool.false_eq_true, if_false]
  rfl

/-- A response goes to the read that its tag and its source name; the marks of its bytes are those of its lines. -/
theorem State.onReadrsp_fetches {q : PeerOut} (hfind : (s.engine (tagEngine m.tag)).peers.find?
      (fun p => p.tag == m.tag % 2048 && p.isRead && p.dst == src.toNat) = some q) :
    ∃ bad : List Bool, s.onReadrsp src m = State.fetchData (if m.blenm1 < m.offset + m.data.length
        then s.modEngine (tagEngine m.tag) fun x => { x with peers := x.peers.filter fun q => q.tag != m.tag % 2048 } else s)
      (tagEngine m.tag) m.data bad (m.blenm1 < m.offset + m.data.length) := by
  refine ⟨(List.range m.data.length).map fun i => bitAt m.poison ((q.addr + m.offset + i) / 64 - q.addr / 64), ?_⟩
  simp only [State.onReadrsp, hfind]
end

/-! ### The commands -/

section
variable (s : State) (src : BitVec 12) (m : ColMsg) (hon : s.unitsOn = true)
include hon

theorem exec_write_delivered : exec (.write src m) s = .next (s.onBurst (.write src m) src m false).loopIn := by
  change execWrite src m s = _
  simp [execWrite, hon, State.onWrite]

theorem exec_atomadd_delivered : exec (.atomadd src m) s = .next (s.onBurst (.atomadd src m) src m true).loopIn := by
  change execAtomadd src m s = _
  simp [execAtomadd, hon, State.onAtomadd]

theorem exec_readreq_delivered : exec (.readreq src m) s = .next (s.onReadreq src m).loopIn := by
  change execReadreq src m s = _
  simp [execReadreq, hon]

theorem exec_readrsp_delivered : exec (.readrsp src m) s = .next (s.onReadrsp src m).loopIn := by
  change execReadrsp src m s = _
  simp [execReadrsp, hon]

/-- An arrival acts on its flag where no command of its flow waits. -/
theorem exec_colArrive_acts (hfree : s.colHeld src = false) :
    exec (.colArrive src m) s = .next (s.arrival (fin32 (fld m.addr 6 5)) (fld m.addr 0 6)).loopIn := by
  change execColArrive src m s = _
  simp [execColArrive, State.onArrive, hon, hfree]

theorem exec_wrack_done
    (hpeer : (s.engine (tagEngine m.tag)).peers.any (fun p => p.tag == m.tag % 2048 && p.dst == src.toNat) = true) :
    exec (.wrack src m) s = .next (s.peerDone (tagEngine m.tag) (m.tag % 2048)).loopIn := by
  change execWrack src m s = _
  rw [execWrack, if_neg (by simp [hon]), State.onWrack]
  exact congrArg (fun t => Host.Outcome.next (State.loopIn t)) (if_pos hpeer)

theorem exec_unreach_lost : exec (.unreach src m) s = .next (State.loopIn
    (if (s.engine (tagEngine m.tag)).peers.any (fun p => p.tag == m.tag % 2048) = true
      then s.peerLost (tagEngine m.tag) (m.tag % 2048) else s.engineFault (tagEngine m.tag) .address)) := by
  change execUnreach src m s = _
  rw [execUnreach, if_neg (by simp [hon]), State.onUnreach]

theorem exec_e2eTimeout_lost (f : EngineId) (tag : BitVec 16) :
    exec (.e2eTimeout f tag) s = .next (s.peerLost f (tag.toNat % 2048)) := by
  change execE2eTimeout f tag s = _
  simp [execE2eTimeout, hon]

/-! ### Bursts that stay incomplete (R271) -/

theorem exec_burstAssemblyTimeout_drops (tag : BitVec 16) {b : Assembly} (hsome : s.burstSoFar src tag.toNat = some b)
    (hpart : b.complete = false) : exec (.burstAssemblyTimeout src tag) s
      = .next ((s.dropBurst src.toNat tag.toNat).logEv 1 3 0xFF 0x0D (stagWord 0 0 b.addr) b.src) := by
  change execBurstAssemblyTimeout src tag s = _
  simp only [execBurstAssemblyTimeout, hsome, hon, hpart, Bool.not_true, Bool.or_self, Bool.false_eq_true, if_false]
end

theorem State.mem_dropBurst_bursts {s : State} {src tag : Nat} {x : Assembly} (hx : x ∈ (s.dropBurst src tag).col.bursts) :
    x ∈ s.col.bursts ∧ ¬(x.src = src ∧ x.tag = tag) := by
  obtain ⟨hmem, hother⟩ := List.mem_filter.1 hx
  refine ⟨hmem, fun ⟨hsrc, htag⟩ => ?_⟩
  rw [sameBurst, hsrc, htag, beq_self_eq_true, beq_self_eq_true] at hother
  exact Bool.false_ne_true hother

/-- No command that brings a fragment of the burst waits any more. -/
theorem State.fragmentOf_dropBurst {s : State} {src tag : Nat} {c : Instr} (hc : c ∈ (s.dropBurst src tag).coh.held) :
    fragmentOf src tag c = none := by
  obtain ⟨-, hnone⟩ := List.mem_filter.1 hc
  exact Option.isNone_iff_eq_none.1 hnone

end Sys2Proof.Machine

open Sys2Proof Sys2Proof.Machine

/-- Settles O43: writes and atomic adds by the rules of a burst, at its last fragment and before; each other message by the
rule of its command. -/
theorem colMessages : Obligations.ColMessages := by
  intro s src m hon e k rest keep burst
  refine ⟨fun hfree => ⟨fun c hc => ?bursts, exec_colArrive_acts s src m hon hfree⟩, fun hin hgate => ?answers,
    fun hout => ?refuses, fun q hfind => ?fetches, exec_wrack_done s src m hon, exec_unreach_lost s src m hon,
    exec_e2eTimeout_lost s hon, fun tag b hsome hpart => ?discards⟩
  case bursts =>
    intro b
    have hexec : exec c.1 s = .next (s.onBurst c.1 src m c.2).loopIn := by
      obtain rfl | rfl : c = (.write src m, false) ∨ c = (.atomadd src m, true) := by simpa using hc
      · exact exec_write_delivered s src m hon
      · exact exec_atomadd_delivered s src m hon
    have hb : s.burstWith src m c.2 = b := rfl
    rw [hexec]
    refine ⟨fun hpart => ?_, fun hall hout => ?_, fun hall _ hin hplain hgate => ?_⟩
    · rw [s.onBurst_waits c.1 src m c.2 hfree hb hpart]; rfl
    · rw [s.onBurst_refused c.1 src m c.2 hfree hb hall hout]; rfl
    · rw [s.onBurst_applied c.1 src m c.2 hfree hb hall hin hplain (Option.isNone_iff_eq_none.1 hgate)]; rfl
  case answers =>
    refine ⟨(s.meet [(m.addr, m.lenm1 + 1)]).readAnswer m, ?_, rfl, rfl, s.meet_read_bytes _ _ _⟩
    rw [exec_readreq_delivered s src m hon, s.onReadreq_answers src m hin (Option.isNone_iff_eq_none.1 hgate)]
  case refuses => rw [exec_readreq_delivered s src m hon, s.onReadreq_refused src m hout]
  case fetches =>
    obtain ⟨bad, hfetch⟩ := s.onReadrsp_fetches src m hfind
    exact ⟨bad, by rw [exec_readrsp_delivered s src m hon, hfetch]⟩
  case discards =>
    refine ⟨_, exec_burstAssemblyTimeout_drops s src hon tag hsome hpart, rfl,
      fun x hx => State.mem_dropBurst_bursts hx, fun f hf => ⟨fun hw => ?_, fun ha => ?_⟩⟩
    · exact absurd (State.fragmentOf_dropBurst hw) (by simp [fragmentOf, hf])
    · exact absurd (State.fragmentOf_dropBurst ha) (by simp [fragmentOf, hf])
end

section
/-!
PROOFS. The commits of the route tables, the Col settings and the arithmetic profile (13 R277, R284; 16 R330).
-/
namespace Sys2Proof.Machine

open Sys2Proof

@[simp] theorem fin12_val (n : Fin 12) : fin12 n.val = n := Fin.ext (Nat.mod_eq_of_lt n.isLt)

/-! ### The profile reaches the ports (R330) -/

/-- Port x once it compares its partner's profile with v. -/
def Port.compared (x : Port) (v : Word64) : Port := { x with mismatch := x.partnerValid && x.partnerProfile != v }

/-- Port i compares its partner's profile with the live one, and tells a partner on the link its own. -/
def State.compareProfile (i : Nat) (s : State) : State :=
  let p := fin12 i
  let u := s.setPort p ((s.port p).compared s.mgt.profile)
  if (s.port p).state == .up then u.sendInfo p else u

theorem State.compareProfile_quiet (i : Nat) (s : State) (hdown : (s.port (fin12 i)).state ≠ .up) :
    s.compareProfile i = s.setPort (fin12 i) ((s.port (fin12 i)).compared s.mgt.profile) := by
  rw [State.compareProfile]
  exact if_neg (by simpa using hdown)

/-- The first k ports have compared, and no other: with no port UP nothing else changes. -/
theorem State.forN_compareProfile (s : State) (hdown : ∀ p : PortId, (s.port p).state ≠ .up) (k : Nat) (hk : k ≤ 12) :
    (s.forN k State.compareProfile).mgt = s.mgt ∧ ∀ q : PortId, (s.forN k State.compareProfile).port q
      = if q.val < k then (s.port q).compared s.mgt.profile else s.port q := by
  induction k with
  | zero => exact ⟨rfl, fun q => rfl⟩
  | succ k ih =>
    obtain ⟨hmgt, hport⟩ := ih (by omega)
    have hsucc : s.forN (k + 1) State.compareProfile = (s.forN k State.compareProfile).compareProfile k := by
      simp [State.forN, List.range_succ]
    have hself : (s.forN k State.compareProfile).port (fin12 k) = s.port (fin12 k) := by
      rw [hport]
      exact if_neg (by simp [fin12, Nat.mod_eq_of_lt (show k < 12 by omega)])
    rw [hsucc, State.compareProfile_quiet _ _ (hself ▸ hdown _), hself, hmgt]
    refine ⟨hmgt, fun q => ?_⟩
    by_cases heq : fin12 k = q
    · subst heq
      rw [State.port_setPort, if_pos (by simp [fin12, Nat.mod_eq_of_lt (show k < 12 by omega)])]
    · have hval : q.val ≠ k := by
        rintro rfl
        exact heq (fin12_val q)
      rw [State.port_setPort_ne _ _ _ _ heq, hport]
      exact ite_congr (propext (by omega)) (fun _ => rfl) fun _ => rfl

/-! ### The commits -/

/-- A strand runs, or its program loads. -/
def State.anyRunning (s : State) : Bool := s.strands.toList.any fun x => x.run == .loading || x.run == .running

section
variable (s : State) (hon : s.hostOn = true)
include hon

theorem exec_colRtCommit_live (p : PortId) :
    exec (.colRtCommit p) s = .next (s.setPort p { s.port p with rtLive := (s.port p).rtShadow }) := by
  change execColRtCommit p s = _
  rw [execColRtCommit, if_neg (by simp [hon]), State.modPort_eq]

theorem exec_mgtColCommit_settles :
    exec .mgtColCommit s = .next (State.colSettle { s with col := { s.col with pending := true } }) := by
  change execMgtColCommit s = _
  rw [execMgtColCommit, if_neg (by simp [hon])]

theorem exec_mgtProfileCommit_refused (hno : (s.anyRunning || !profileOk s.mgt.profileShadow) = true) :
    exec .mgtProfileCommit s = .next { s with mgt := { s.mgt with refused := true } } := by
  change execMgtProfileCommit s = _
  rw [execMgtProfileCommit, if_neg (by simp [hon])]
  exact if_pos hno

theorem exec_mgtProfileCommit_live (hyes : (s.anyRunning || !profileOk s.mgt.profileShadow) = false) :
    exec .mgtProfileCommit s = .next (State.forN
      { s with mgt := { s.mgt with profile := s.mgt.profileShadow, refused := false } } 12 State.compareProfile) := by
  change execMgtProfileCommit s = _
  rw [execMgtProfileCommit, if_neg (by simp [hon])]
  exact if_neg (ne_true_of_eq_false hyes)
end

end Sys2Proof.Machine

open Sys2Proof Sys2Proof.Machine

/-- Settles O44: the rules of the commits; the ports compare the new profile one after the other. -/
theorem commits : Obligations.Commits := by
  intro s hon running
  refine ⟨exec_colRtCommit_live s hon, exec_mgtColCommit_settles s hon, exec_mgtProfileCommit_refused s hon,
    fun hyes hdown => ?_⟩
  obtain ⟨hmgt, hport⟩ := State.forN_compareProfile
    { s with mgt := { s.mgt with profile := s.mgt.profileShadow, refused := false } } hdown 12 (Nat.le_refl 12)
  exact ⟨_, exec_mgtProfileCommit_live s hon hyes, hmgt, fun p => (hport p).trans (if_pos p.isLt)⟩
end

section
/-!
SUPPORT. What no command but a conventional reset changes: the hard-wired registers of every strand (08 R147) and the
device-fatal state (15 R320). An operation keeps it as an equation (`vital`); one that sets strands up anew, or turns the
state fatal, keeps it in one direction (`VitalLe`).
-/
namespace Sys2Proof.Machine

open Sys2Proof

/-- What the hard-wired registers of a strand hold (08 R147). -/
def hardZeros (s : Vector Word 32) (p : Vector Bool 8) : Word × Bool := (s.toList.getD 0 0, p.toList.getD 0 false)

def Strand.zeros (x : Strand) : Word × Bool := hardZeros x.s x.p

/-- What no command but a reset changes: the hard-wired registers of every strand, and the device-fatal state. -/
def State.vital (s : State) : Vector (Word × Bool) 32 × Bool := (s.strands.map Strand.zeros, s.errlog.fatal)

theorem State.vital_of {s t : State} (hs : t.strands = s.strands) (hf : t.errlog.fatal = s.errlog.fatal) :
    t.vital = s.vital := by unfold State.vital; rw [hs, hf]

theorem Strand.zeros_of {x y : Strand} (hs : x.s = y.s) (hp : x.p = y.p) : x.zeros = y.zeros := by
  rw [Strand.zeros, hs, hp]; rfl

theorem Strand.zeros_eq (x : Strand) : x.zeros = (x.reg 0, x.pred 0) := rfl

@[simp] theorem Strand.zeros_mk (a1 a2 a3 a4 a5 a6 a7 a8 a9 b1 b2 b3 b4 b5 b6 b7 b8 b9 c1 c2 c3 c4 c5 c6 c7 c8) :
  (Strand.mk a1 a2 a3 a4 a5 a6 a7 a8 a9 b1 b2 b3 b4 b5 b6 b7 b8 b9 c1 c2 c3 c4 c5 c6 c7 c8).zeros = hardZeros a1 a4 := by
  unfold Strand.zeros; rfl

@[simp] theorem Strand.zeros_fold (x : Strand) : hardZeros x.s x.p = x.zeros := by
  unfold Strand.zeros; rfl

@[simp] theorem Strand.zeros_ite (c : Prop) [Decidable c] (s t : Strand) :
    (if c then s else t).zeros = if c then s.zeros else t.zeros := by
  split <;> rfl

@[simp] theorem Strand.setReg_zeros (x : Strand) (i : Nat) (v : Word) : (x.setReg i v).zeros = x.zeros := by
  obtain ⟨r, h⟩ := x.setReg_eq i v
  rw [Strand.zeros_eq, Strand.zeros_eq, Strand.setReg_reg0, h]; rfl

@[simp] theorem Strand.setPred_zeros (x : Strand) (i : Nat) (v : Bool) : (x.setPred i v).zeros = x.zeros := by
  obtain ⟨r, h⟩ := x.setPred_eq i v
  rw [Strand.zeros_eq, Strand.zeros_eq, Strand.setPred_pred0, h]; rfl

@[simp] theorem State.setStrand_vital (s : State) (n : StrandId) (x : Strand) (h : x.zeros = (s.strand n).zeros) :
    (s.setStrand n x).vital = s.vital := by
  refine Prod.ext (Vector.ext fun i hi => ?_) rfl
  simp only [State.vital, State.setStrand, Vector.getElem_map, Vector.getElem_set]
  split
  next e => subst e; exact h
  next => rfl

@[simp] theorem State.modStrand_vital (s : State) (n : StrandId) (f : Strand → Strand)
    (h : (f (s.strand n)).zeros = (s.strand n).zeros) : (s.modStrand n f).vital = s.vital := s.setStrand_vital n _ h

theorem State.strand_zeros {s t : State} (h : t.vital = s.vital) (n : StrandId) :
    (t.strand n).zeros = (s.strand n).zeros := by
  have := congrArg (fun v => (v.1)[n.val]) h
  simpa [State.vital, State.strand] using this

/-- A strand put back into a later state, its hard-wired registers as they were. -/
theorem State.setStrand_vital_of {s t : State} (n : StrandId) {x : Strand} (h : t.vital = s.vital)
    (hx : x.zeros = (s.strand n).zeros) : (t.setStrand n x).vital = s.vital :=
  (t.setStrand_vital n x (hx.trans (State.strand_zeros h n).symm)).trans h

@[simp] theorem State.vital_mk (a1 a2 a3 a4 a5 a6 a7 a8 a9 b1 b2 b3 b4 b5 b6 b7 b8 b9 c1 c2 c3 c4 c5 c6 c7 c8 c9 d1 d2) :
  (State.mk a1 a2 a3 a4 a5 a6 a7 a8 a9 b1 b2 b3 b4 b5 b6 b7 b8 b9 c1 c2 c3 c4 c5 c6 c7 c8 c9 d1 d2).vital = (a1.map Strand.zeros, c3.fatal) := by
  unfold State.vital; rfl

@[simp] theorem State.vital_fold (s : State) : (s.strands.map Strand.zeros, s.errlog.fatal) = s.vital := by
  unfold State.vital; rfl

@[simp] theorem State.vital_ite (c : Prop) [Decidable c] (s t : State) :
    (if c then s else t).vital = if c then s.vital else t.vital := by
  split <;> rfl

/-- A meaning that answers a next state and changes nothing vital. -/
def Keeps (s : State) (o : Out1) : Prop := ∃ t, o = .next t ∧ t.vital = s.vital

@[simp] theorem Keeps_next (s t : State) : Keeps s (.next t) ↔ t.vital = s.vital := by
  simp [Keeps]

/-- A body's answer changes nothing vital where it is a state. -/
def KeepsOk {κ : Type} (s : State) (r : Except κ State) : Prop := ∀ t, r = .ok t → t.vital = s.vital

@[simp] theorem KeepsOk_ok {κ : Type} (s t : State) : KeepsOk s (.ok t : Except κ State) ↔ t.vital = s.vital := by
  simp [KeepsOk]

@[simp] theorem KeepsOk_error {κ : Type} (s : State) (k : κ) : KeepsOk s (.error k) := by
  simp [KeepsOk]

def Body.keeps (b : Body) : Prop := ∀ s, KeepsOk s (b s)

def SBody.keeps (b : SBody) : Prop := ∀ s, KeepsOk s (b s)

@[simp] theorem State.foldl_vital {α : Type} (f : State → α → State) (hf : ∀ s a, (f s a).vital = s.vital) (l : List α) (s : State) :
    (l.foldl f s).vital = s.vital := by
  induction l generalizing s with
  | nil => rfl
  | cons a l ih => exact (ih _).trans (hf s a)

@[simp] theorem State.forN_vital (s : State) (k : Nat) (f : Nat → State → State) (hf : ∀ i s, (f i s).vital = s.vital) :
    (s.forN k f).vital = s.vital := State.foldl_vital _ (fun s a => hf a s) _ s

/-- The two ways in which a conditional has a value. -/
theorem ite_eq_cases {α : Type} {c : Prop} [Decidable c] {a b d : α} (h : (if c then a else b) = d) :
    c ∧ a = d ∨ ¬c ∧ b = d := by
  split at h
  next hc => exact .inl ⟨hc, h⟩
  next hc => exact .inr ⟨hc, h⟩

/-- What a command that is no conventional reset may change: the hard-wired registers stay as they are read, and the
device-fatal state stays where it holds. -/
def VitalLe (v w : Vector (Word × Bool) 32 × Bool) : Prop :=
  ((∀ n : StrandId, v.1[n.val] = (0, true)) → ∀ n : StrandId, w.1[n.val] = (0, true)) ∧ (v.2 = true → w.2 = true)

@[simp] theorem VitalLe.refl (v : Vector (Word × Bool) 32 × Bool) : VitalLe v v := ⟨id, id⟩

theorem VitalLe.trans {u v w : Vector (Word × Bool) 32 × Bool} (h : VitalLe u v) (k : VitalLe v w) : VitalLe u w :=
  ⟨fun x => k.1 (h.1 x), fun x => k.2 (h.2 x)⟩

theorem VitalLe.of_eq {v w : Vector (Word × Bool) 32 × Bool} (h : w = v) : VitalLe v w := h ▸ VitalLe.refl w

@[simp] theorem VitalLe_ite (v w x : Vector (Word × Bool) 32 × Bool) (c : Prop) [Decidable c] :
    VitalLe v (if c then w else x) ↔ (c → VitalLe v w) ∧ (¬c → VitalLe v x) := by
  split <;> simp [*]

def KeepsLe (s : State) (o : Out1) : Prop := ∃ t, o = .next t ∧ VitalLe s.vital t.vital

@[simp] theorem KeepsLe_next (s t : State) : KeepsLe s (.next t) ↔ VitalLe s.vital t.vital := by
  simp [KeepsLe]

@[simp] theorem Keeps.le {s : State} {o : Out1} (h : Keeps s o) : KeepsLe s o := by
  obtain ⟨t, rfl, ht⟩ := h
  exact (KeepsLe_next ..).2 (.of_eq ht)

theorem State.foldl_le {α : Type} {v : Vector (Word × Bool) 32 × Bool} (f : State → α → State)
    (hf : ∀ s a, VitalLe v s.vital → VitalLe v (f s a).vital) (l : List α) {s : State} (h : VitalLe v s.vital) :
    VitalLe v (l.foldl f s).vital := by
  induction l generalizing s with
  | nil => exact h
  | cons a l ih => exact ih (hf s a h)

theorem State.forN_le {v : Vector (Word × Bool) 32 × Bool} (k : Nat) (f : Nat → State → State)
    (hf : ∀ i s, VitalLe v s.vital → VitalLe v (f i s).vital) {s : State} (h : VitalLe v s.vital) :
    VitalLe v (s.forN k f).vital := State.foldl_le _ (fun s i hs => hf i s hs) _ h

/-- A strand set up anew: its hard-wired registers are as at reset. -/
theorem State.modStrand_le {v : Vector (Word × Bool) 32 × Bool} {s : State} (n : StrandId) (f : Strand → Strand)
    (hf : (f (s.strand n)).zeros = (0, true)) (h : VitalLe v s.vital) : VitalLe v (s.modStrand n f).vital := by
  refine h.trans ⟨fun z m => ?_, id⟩
  have hm := z m
  simp only [State.vital, State.modStrand, State.setStrand, Vector.getElem_map, Vector.getElem_set] at hm ⊢
  split
  · exact hf
  · exact hm

end Sys2Proof.Machine
end

section
/-!
SUPPORT. The operations of the state, of its memory and of its logs keep what is vital.
-/
namespace Sys2Proof.Machine

open Sys2Proof

@[simp] theorem State.setEngine_vital (s : State) (e : EngineId) (x : Engine) :
    (State.setEngine s e x).vital = s.vital := (rfl)

@[simp] theorem State.setBlock_vital (s : State) (b : BlockId) (x : Block) :
    (State.setBlock s b x).vital = s.vital := (rfl)

@[simp] theorem State.setVsu_vital (s : State) (r : RegionId) (x : Vsu) : (State.setVsu s r x).vital = s.vital := (rfl)

@[simp] theorem State.setPort_vital (s : State) (p : PortId) (x : Port) : (State.setPort s p x).vital = s.vital := (rfl)

@[simp] theorem State.setMc_vital (s : State) (m : McId) (x : MemCtl) : (State.setMc s m x).vital = s.vital := (rfl)

@[simp] theorem State.setPwr_vital (s : State) (r : RegionId) (x : Pwr) : (State.setPwr s r x).vital = s.vital := (rfl)

@[simp] theorem State.modEngine_vital (s : State) (e : EngineId) (f : Engine → Engine) :
    (State.modEngine s e f).vital = s.vital := (rfl)

@[simp] theorem State.modPort_vital (s : State) (p : PortId) (f : Port → Port) :
    (State.modPort s p f).vital = s.vital := (rfl)

@[simp] theorem State.send_vital (s : State) (o : Out) : (State.send s o).vital = s.vital := (rfl)

@[simp] theorem State.aer_vital (s : State) (bit : Nat) : (State.aer s bit).vital = s.vital := (rfl)

@[simp] theorem State.rasCorrected_vital (s : State) (bit : Nat) : (State.rasCorrected s bit).vital = s.vital := (rfl)

@[simp] theorem State.refuse_vital (s : State) : (State.refuse s).vital = s.vital := (rfl)

@[simp] theorem State.sendMsix_vital (s : State) (v : Nat) :
    (State.sendMsix s v).vital = s.vital := by simp [State.sendMsix]

@[simp] theorem State.sendEv_vital (s : State) (cls : Nat) :
    (State.sendEv s cls).vital = s.vital := by simp [State.sendEv]

@[simp] theorem State.logEv_vital (s : State) (c l f k a i : Nat) : (s.logEv c l f k a i).vital = s.vital :=
  State.vital_of (by simp) (by simp)

@[simp] theorem State.logOffline_vital (s : State) (a : Nat) (isWrite : Bool) :
    (State.logOffline s a isWrite).vital = s.vital := by simp [State.logOffline]

@[simp] theorem State.eccAt_vital (s : State) (a n : Nat) (ecc : Ecc) : (State.eccAt s a n ecc).vital = s.vital := by
  unfold State.eccAt
  split <;> simp

@[simp] theorem State.strike_vital (s : State) (found : EccList) : (State.strike s found).vital = s.vital := (rfl)

@[simp] theorem State.meet_vital (s : State) (rs : List (Nat × Nat)) :
    (State.meet s rs).vital = s.vital := by simp [State.meet]

@[simp] theorem State.eccFound_vital (s : State) (rs : List (Nat × Nat)) (found : EccList) :
    (State.eccFound s rs found).vital = s.vital := by simp [State.eccFound]

@[simp] theorem State.countHalves_vital (s : State) (hs : List Nat) : (State.countHalves s hs).vital = s.vital := (rfl)

@[simp] theorem State.readMark_vital (s : State) (a n : Nat) :
    (State.readMark s a n).vital = s.vital := by simp [State.readMark]

@[simp] theorem State.write_vital (s : State) (a : Nat) (bs : List Byte) (bad : Bool) :
    (State.write s a bs bad).vital = s.vital := by simp [State.write]

@[simp] theorem State.poisonLines_vital (s : State) (a n : Nat) : (State.poisonLines s a n).vital = s.vital := (rfl)

@[simp] theorem State.poisonWritten_vital (s : State) (a : Nat) :
    (State.poisonWritten s a).vital = s.vital := by simp [State.poisonWritten]

@[simp] theorem State.zeroFill_vital (s : State) (a n : Nat) : (State.zeroFill s a n).vital = s.vital := (rfl)

@[simp] theorem State.wake_vital (s : State) (r : RegionId) : (State.wake s r).vital = s.vital := by simp [State.wake]

@[simp] theorem State.markRow_vital (s : State) (base bits : Nat) (ws : List Wr) :
    (State.markRow s base bits ws).vital = s.vital := by simp [State.markRow]

@[simp] theorem State.writeRow_vital (s : State) (base bits : Nat) (ws : List Wr) :
    (State.writeRow s base bits ws).vital = s.vital := by simp [State.writeRow]

@[simp] theorem State.writeRows_vital (s : State) (rows : List (Nat × Nat × List Wr)) :
    (State.writeRows s rows).vital = s.vital := by simp [State.writeRows]

@[simp] theorem State.storeTile_vital (s : State) (t : Tile) (x : Stored) :
    (State.storeTile s t x).vital = s.vital := by simp [State.storeTile]

@[simp] theorem State.count_vital (s : State) (n : StrandId) (e : Events) : (s.count n e).vital = s.vital :=
  s.modStrand_vital n _ rfl

@[simp] theorem State.snoop_vital (s : State) (l n : Nat) (data : Bool) (evict : Bool) :
    (State.snoop s l n data evict).vital = s.vital := by
  unfold State.snoop
  split <;> rfl

@[simp] theorem State.snoopWrite_vital (s : State) (blk : Bool) (ls : List Nat) (l : Nat) :
    (State.snoopWrite s blk ls l).vital = s.vital := by simp [State.snoopWrite]

@[simp] theorem State.holdReq_vital (s : State) (c : Instr) : (State.holdReq s c).vital = s.vital := (rfl)

@[simp] theorem State.hold_vital (s : State) (c : Instr) : (State.hold s c).vital = s.vital := by
  unfold State.hold
  split <;> rfl

theorem State.ask_vital {s t : State} {blk : Bool} {reads writes : List (Nat × Nat)} (h : s.ask blk reads writes = some t) :
    t.vital = s.vital := by
  unfold State.ask at h
  dsimp only at h
  split at h
  · cases h
  · cases h; simp

@[simp] theorem State.holdAccess_vital (s : State) (c : Instr) (rs : List (Nat × Nat)) :
    (State.holdAccess s c rs).vital = s.vital := by simp [State.holdAccess]

theorem State.gateWith_vital {s t : State} {b : Bool} {c : Instr} {r w : List (Nat × Nat)} (h : s.gateWith b c r w = some t) :
    t.vital = s.vital := by
  unfold State.gateWith at h
  obtain ⟨u, hu, rfl⟩ := Option.map_eq_some_iff.1 h
  simp [State.ask_vital hu]

theorem State.gate_vital {s t : State} {c : Instr} {r w : List (Nat × Nat)} (h : s.gate c r w = some t) :
    t.vital = s.vital := State.gateWith_vital h

@[simp] theorem State.modLaunch_vital (s : State) (id : Nat) (f : Launch → Launch) :
    (State.modLaunch s id f).vital = s.vital := (rfl)

@[simp] theorem State.discardCompletion_vital (s : State) (cq : Nat) :
    (State.discardCompletion s cq).vital = s.vital := by simp [State.discardCompletion]

@[simp] theorem State.addRec_vital (s : State) (r : CRec) : (State.addRec s r).vital = s.vital := by simp [State.addRec]

@[simp] theorem State.recordLaunch_vital (s : State) (l : Launch) (status reason fn kind pc : Nat) :
    (State.recordLaunch s l status reason fn kind pc).vital = s.vital := by simp [State.recordLaunch]

@[simp] theorem State.unblock_vital (s : State) (n : Nat) : (State.unblock s n).vital = s.vital := (rfl)

@[simp] theorem State.closeLaunch_vital (s : State) (id : Nat) : (State.closeLaunch s id).vital = s.vital := (rfl)

@[simp] theorem State.endPart_vital (s : State) (n : StrandId) (id : Nat) (halted : Bool) :
    (State.endPart s n id halted).vital = s.vital := by
  unfold State.endPart
  dsimp only
  split <;> simp

@[simp] theorem State.poisonJobs_vital (s : State) (n : StrandId) :
    (State.poisonJobs s n).vital = s.vital := by simp [State.poisonJobs]

@[simp] theorem State.mapOwned_vital (s : State) (n : StrandId) (f : Part → Part) :
    (State.mapOwned s n f).vital = s.vital := (rfl)

@[simp] theorem State.dropStore_vital (s : State) (n : StrandId) : (State.dropStore s n).vital = s.vital := by
  unfold State.dropStore
  split <;> simp

@[simp] theorem State.strandFaultAt_vital (s : State) (n : StrandId) (k : Kind) (pc : Nat) :
    (s.strandFaultAt n k pc).vital = s.vital := by
  unfold State.strandFaultAt
  dsimp only
  split
  · rfl
  · split
    · simp
    · split <;> simp

@[simp] theorem State.strandFault_vital (s : State) (n : StrandId) (k : Kind) :
    (State.strandFault s n k).vital = s.vital := by simp [State.strandFault]

theorem Strand.setFlag_zeros (x : Strand) (i : Nat) (f : Flag) : (x.setFlag i f).zeros = x.zeros := by
  unfold Strand.setFlag; split <;> rfl

@[simp] theorem State.arrival_vital (s : State) (n : StrandId) (i : Nat) : (s.arrival n i).vital = s.vital := by
  unfold State.arrival
  dsimp only
  (repeat' split) <;> simp [Strand.setFlag_zeros]

@[simp] theorem State.goto_vital (s : State) (n : StrandId) (pc : Nat) : (s.goto n pc).vital = s.vital := by
  unfold State.goto
  dsimp only
  split <;> simp

@[simp] theorem State.advance_vital (s : State) (n : StrandId) :
    (State.advance s n).vital = s.vital := by simp [State.advance]

@[simp] theorem Strand.settlePath_zeros (x y : Strand) : (x.settlePath y).zeros = y.zeros := by
  unfold Strand.settlePath; split <;> rfl

@[simp] theorem State.atIssue_vital (s : State) (n : StrandId) (w : Word64) : (s.atIssue n w).vital = s.vital := by
  unfold State.atIssue
  dsimp only
  split <;> simp

theorem State.issue_vital (s : State) (n : StrandId) (w : Word64) (op : Nat) (dec win : Bool) (body : Body)
    (hb : Body.keeps body) : (s.issue n w op dec win body).vital = s.vital := by
  have hu := s.atIssue_vital n w
  unfold State.issue
  split
  · rfl
  · split
    · simp
    · dsimp only
      split
      · simp
      · change State.vital (if _ then
            match body (s.atIssue n w) with
            | .ok t => if _ then t.modStrand n _ else t
            | .error k => (s.atIssue n w).strandFault n k
          else if _ then
            match body (s.atIssue n w) with
            | .error .decode => (s.atIssue n w).strandFault n .decode
            | .error .format => (s.atIssue n w).strandFault n .format
            | .error .sequence => (s.atIssue n w).strandFault n .sequence
            | .error _ => (s.atIssue n w).advance n
            | .ok t => if (s.atIssue n w).heldAt n t then (s.atIssue n w).modStrand n _ else (s.atIssue n w).advance n
          else (s.atIssue n w).advance n) = s.vital
        have ht : ∀ t, body (s.atIssue n w) = .ok t → t.vital = s.vital := fun t h => (hb _ t h).trans hu
        (repeat' split) <;> simp [*]

theorem State.keeps_issue {s : State} {n : StrandId} {w : Word64} {op : Nat} {dec win : Bool} {body : Body}
    (hb : Body.keeps body) : Keeps s (.next (s.issue n w op dec win body)) :=
  (Keeps_next ..).2 (s.issue_vital n w op dec win body hb)

@[simp] theorem State.holdStrand_vital (s : State) (n : StrandId) : (s.holdStrand n).vital = s.vital :=
  s.modStrand_vital n _ rfl

theorem State.preRead_vital {s t : State} {n : StrandId} {c : Instr} {rs : List (Nat × Nat)}
    (h : s.preRead n c rs = some (.ok t)) : t.vital = s.vital := by
  unfold State.preRead at h
  split at h
  · cases h
  · split at h
    · cases h; rfl
    · obtain ⟨u, hu, hut⟩ := Option.map_eq_some_iff.1 h
      cases hut
      simp [State.gate_vital hu]

theorem State.preReads_vital {s t : State} {n : StrandId} {c : Instr} {st : List (List (Nat × Nat))}
    (h : s.preReads n c st = some (.ok t)) : t.vital = s.vital := by
  obtain ⟨rs, -, hrs⟩ := List.exists_of_findSome?_eq_some h
  exact State.preRead_vital hrs

end Sys2Proof.Machine
end

section
/-!
SUPPORT. The issue of an instruction, the scalar and the memory instructions keep what is vital.
-/
namespace Sys2Proof.Machine

open Sys2Proof

theorem regBody_keeps (n : StrandId) (f : Strand → Strand) (h : ∀ x, (f x).zeros = x.zeros) :
    Body.keeps (regBody n f) := by
  intro s t ht
  cases ht
  simp [h]

theorem aluBody_keeps (n : StrandId) (w : Word64) (g : Word → Word → Word) : Body.keeps (aluBody n w g) :=
  regBody_keeps n _ fun _ => by simp

@[simp] theorem execNop_keeps (n : StrandId) (f : Fetched) (s : State) : Keeps s (execNop n f s) := by
  unfold execNop
  dsimp only
  split
  · simp
  · split
    · simp
    · exact State.keeps_issue (regBody_keeps n _ fun _ => rfl)

@[simp] theorem execAdd_keeps (n : StrandId) (w : Word64) (s : State) : Keeps s (execAdd n w s) :=
  State.keeps_issue (aluBody_keeps n w _)

@[simp] theorem execSub_keeps (n : StrandId) (w : Word64) (s : State) : Keeps s (execSub n w s) :=
  State.keeps_issue (aluBody_keeps n w _)

@[simp] theorem execMul_keeps (n : StrandId) (w : Word64) (s : State) : Keeps s (execMul n w s) :=
  State.keeps_issue (aluBody_keeps n w _)

@[simp] theorem execAnd_keeps (n : StrandId) (w : Word64) (s : State) : Keeps s (execAnd n w s) :=
  State.keeps_issue (aluBody_keeps n w _)

@[simp] theorem execOr_keeps (n : StrandId) (w : Word64) (s : State) : Keeps s (execOr n w s) :=
  State.keeps_issue (aluBody_keeps n w _)

@[simp] theorem execXor_keeps (n : StrandId) (w : Word64) (s : State) : Keeps s (execXor n w s) :=
  State.keeps_issue (aluBody_keeps n w _)

@[simp] theorem execShl_keeps (n : StrandId) (w : Word64) (s : State) : Keeps s (execShl n w s) :=
  State.keeps_issue (aluBody_keeps n w _)

@[simp] theorem execShr_keeps (n : StrandId) (w : Word64) (s : State) : Keeps s (execShr n w s) :=
  State.keeps_issue (aluBody_keeps n w _)

@[simp] theorem execSra_keeps (n : StrandId) (w : Word64) (s : State) : Keeps s (execSra n w s) :=
  State.keeps_issue (aluBody_keeps n w _)

@[simp] theorem execAddi_keeps (n : StrandId) (w : Word64) (s : State) : Keeps s (execAddi n w s) :=
  State.keeps_issue (regBody_keeps n _ fun _ => by simp)

@[simp] theorem execCmp_keeps (n : StrandId) (w : Word64) (s : State) : Keeps s (execCmp n w s) :=
  State.keeps_issue (regBody_keeps n _ fun _ => by simp)

@[simp] theorem execPlog_keeps (n : StrandId) (w : Word64) (s : State) : Keeps s (execPlog n w s) :=
  State.keeps_issue (regBody_keeps n _ fun _ => by simp)

@[simp] theorem Strand.setFreg_zeros (x : Strand) (i : Nat) (v : Word) : (x.setFreg i v).zeros = x.zeros := by
  unfold Strand.setFreg; split <;> rfl

@[simp] theorem execFmov_keeps (n : StrandId) (w : Word64) (s : State) : Keeps s (execFmov n w s) :=
  State.keeps_issue (regBody_keeps n _ fun _ => by split <;> simp)

theorem fopStrand_zeros (w : Word64) (rm : RM) (x : Strand) : (fopStrand w rm x).zeros = x.zeros := by
  unfold fopStrand
  exact Strand.setFreg_zeros (x.count _) ..

@[simp] theorem execFop_keeps (n : StrandId) (w : Word64) (s : State) : Keeps s (execFop n w s) := by
  refine State.keeps_issue fun s t h => ?_
  split at h
  · cases h
  · exact regBody_keeps n _ (fopStrand_zeros w _) s t h

@[simp] theorem execSpec_keeps (n : StrandId) (w : Word64) (s : State) : Keeps s (execSpec n w s) :=
  State.keeps_issue (regBody_keeps n _ fun _ => by simp)

@[simp] theorem execClrc_keeps (n : StrandId) (w : Word64) (s : State) : Keeps s (execClrc n w s) :=
  State.keeps_issue (regBody_keeps n _ fun _ => rfl)

theorem ldsBody_keeps (n : StrandId) (w : Word64) (ecc : Ecc) : Body.keeps (ldsBody n w ecc) := by
  intro s t h
  unfold ldsBody at h
  dsimp only at h
  (repeat' split at h) <;> cases h <;> simp

@[simp] theorem execLds_keeps (n : StrandId) (w : Word64) (ecc : Ecc) (s : State) : Keeps s (execLds n w ecc s) :=
  State.keeps_issue (ldsBody_keeps n w ecc)

@[simp] theorem execSts_keeps (n : StrandId) (w : Word64) (s : State) : Keeps s (execSts n w s) := by
  unfold execSts
  refine State.keeps_issue fun s t h => ?_
  dsimp only at h
  (repeat' split at h) <;> cases h <;> simp

@[simp] theorem execLdm_keeps (n : StrandId) (w : Word64) (s : State) : Keeps s (execLdm n w s) := by
  refine State.keeps_issue fun s t h => ?_
  split at h
  · cases h
  · split at h
    · cases h; rfl
    · split at h <;> cases h
      next u hu => simp [State.gate_vital hu]
      next => simp

@[simp] theorem execLdmDataReturn_keeps (n : StrandId) (ecc : Ecc) (s : State) :
    Keeps s (execLdmDataReturn n ecc s) := by
  unfold execLdmDataReturn
  dsimp only
  split
  · split
    · simp
    · split
      next u hu => simp [State.gate_vital hu]
      next => (repeat' split) <;> simp
  · simp

@[simp] theorem execStm_keeps (n : StrandId) (q : StoreWord) (s : State) : Keeps s (execStm n q s) := by
  refine State.keeps_issue fun s t h => ?_
  split at h
  · cases h
  · split at h
    next u hu => cases h; simp [State.gate_vital hu]
    next => split at h <;> cases h <;> simp

@[simp] theorem execBr_keeps (n : StrandId) (w : Word64) (s : State) : Keeps s (execBr n w s) := by
  unfold execBr
  refine State.keeps_issue fun s t h => ?_
  dsimp only at h
  (repeat' split at h) <;> cases h <;> simp

@[simp] theorem execRep_keeps (n : StrandId) (w : Word64) (s : State) : Keeps s (execRep n w s) := by
  unfold execRep
  dsimp only
  split
  · split <;> simp
  · refine State.keeps_issue fun s t h => ?_
    split at h <;> cases h
    simp

theorem tdChecked_keeps {w : Word64} {reads : Strand → Bool} {n : StrandId} {body : Body} (hb : Body.keeps body) :
    Body.keeps (tdChecked w reads n body) := by
  intro s t h
  unfold tdChecked at h
  split at h
  · exact hb s t h
  · cases h

@[simp] theorem Strand.setTd_zeros (x : Strand) (i v : Nat) : (x.setTd i v).zeros = x.zeros := by
  unfold Strand.setTd; split <;> rfl

theorem tdBody_keeps (n : StrandId) (i v : Nat) : Body.keeps (tdBody n i v) := by
  intro s t h
  unfold tdBody at h
  dsimp only at h
  split at h
  · cases h
  · exact regBody_keeps n _ (by simp) s t h

@[simp] theorem execTdld_keeps (n : StrandId) (w : Word64) (s : State) : Keeps s (execTdld n w s) := by
  refine State.keeps_issue (tdChecked_keeps fun s t h => ?_)
  split at h
  · cases h
  · split at h
    · cases h; rfl
    · dsimp only at h
      split at h
      · cases h; simp
      · exact (tdBody_keeps _ _ _ _ _ h).trans (by simp)

@[simp] theorem execTdst_keeps (n : StrandId) (w : Word64) (s : State) : Keeps s (execTdst n w s) := by
  refine State.keeps_issue (tdChecked_keeps fun s t h => ?_)
  split at h <;> cases h
  simp

@[simp] theorem execTdmov_keeps (n : StrandId) (w : Word64) (s : State) : Keeps s (execTdmov n w s) :=
  State.keeps_issue (tdChecked_keeps fun s t h => tdBody_keeps _ _ _ s t h)

@[simp] theorem execTdset_keeps (n : StrandId) (w : Word64) (s : State) : Keeps s (execTdset n w s) := by
  refine State.keeps_issue (tdChecked_keeps fun s t h => ?_)
  dsimp only at h
  split at h
  · split at h <;> cases h
  · exact tdBody_keeps _ _ _ s t h

@[simp] theorem execTdget_keeps (n : StrandId) (w : Word64) (s : State) : Keeps s (execTdget n w s) :=
  State.keeps_issue (tdChecked_keeps (regBody_keeps n _ fun _ => by dsimp only; split <;> simp))

@[simp] theorem execTdadd_keeps (n : StrandId) (w : Word64) (s : State) : Keeps s (execTdadd n w s) :=
  State.keeps_issue (tdChecked_keeps (regBody_keeps n _ fun _ => by simp))

end Sys2Proof.Machine
end

section
/-!
SUPPORT. The tile and vector instructions keep what is vital.
-/
namespace Sys2Proof.Machine

open Sys2Proof

@[simp] theorem State.setPart_vital (s : State) (b : BlockId) (p : PartNo) (x : Part) :
    (State.setPart s b p x).vital = s.vital := (rfl)

@[simp] theorem State.dropDone_vital (s : State) : (State.dropDone s).vital = s.vital := (rfl)

@[simp] theorem blockLog_vital (s : State) (b : BlockId) (n : StrandId) (ecc : Ecc) (structure_ : Nat) :
    (blockLog s b n ecc structure_).vital = s.vital := by
  unfold blockLog
  split <;> simp

theorem State.loadRow_vital {s t : State} {b : BlockId} {p : PartNo} {n : StrandId} {j : Job} {it : Item}
    {rows rows' : List (List Cell)} {ecc : Ecc} (h : s.loadRow b p n j it rows ecc = .ok (t, rows')) : t.vital = s.vital := by
  unfold State.loadRow at h
  dsimp only at h
  split at h
  · cases h
  · split at h <;> cases h
    simp

@[simp] theorem execStationaryRowLoad_keeps (b : BlockId) (p : PartNo) (ecc : Ecc) (s : State) :
    Keeps s (execStationaryRowLoad b p ecc s) := by
  unfold execStationaryRowLoad
  split
  · simp
  · split
    · simp
    · split
      next u hu => simp [State.gate_vital hu]
      next =>
        dsimp only
        split
        · simp
        next t _ ht =>
          have := State.loadRow_vital ht
          (repeat' split) <;> simp_all

@[simp] theorem execStationarySwap_keeps (b : BlockId) (p : PartNo) (s : State) :
    Keeps s (execStationarySwap b p s) := by
  unfold execStationarySwap
  dsimp only
  (repeat' split) <;> simp

@[simp] theorem State.t4Error_vital (s : State) (b : BlockId) (n : StrandId) (ecc : Ecc) :
    (State.t4Error s b n ecc).vital = s.vital := by simp [State.t4Error]

@[simp] theorem State.parityErrors_vital (s : State) (b : BlockId) (p : PartNo) (n : StrandId) (cells : List
    (Nat × Nat)) :
    (State.parityErrors s b p n cells).vital = s.vital := by simp [State.parityErrors]

@[simp] theorem execPassRowIssue_keeps (b : BlockId) (p : PartNo) (badCells : List (Nat × Nat)) (t4 : Ecc) (s : State) :
    Keeps s (execPassRowIssue b p badCells t4 s) := by
  unfold execPassRowIssue
  split
  · simp
  · split
    · simp
    · split
      · simp
      · split
        · simp
        · split
          next u hu => simp [State.gate_vital hu]
          next => dsimp only; (repeat' split) <;> simp

@[simp] theorem State.markStarted_vital (s : State) (id acc : Nat) :
    (State.markStarted s id acc).vital = s.vital := (rfl)

@[simp] theorem State.initTile_vital (s : State) (j : Job) (acc : Nat) : (State.initTile s j acc).vital = s.vital := by
  unfold State.initTile
  split <;> rfl

@[simp] theorem State.poisonCols_vital (s : State) (a n width : Nat) (cols : List Nat) :
    (State.poisonCols s a n width cols).vital = s.vital := by simp [State.poisonCols]

@[simp] theorem State.promoteQuire_vital (s : State) (j : Job) (c : Closed) :
    (State.promoteQuire s j c).vital = s.vital := by simp [State.promoteQuire]

@[simp] theorem State.promoteList_vital (s : State) (j : Job) (c : Closed) :
    (State.promoteList s j c).vital = s.vital := by simp [State.promoteList]

@[simp] theorem State.promotionEcc_vital (s : State) (b : BlockId) (n : StrandId) (j : Job) (c : Closed) (ecc : Ecc) :
    (s.promotionEcc b n j c ecc).1.vital = s.vital := by
  unfold State.promotionEcc
  split <;> simp

@[simp] theorem execPromotion_keeps (b : BlockId) (q : PartRead) (s : State) : Keeps s (execPromotion b q s) := by
  unfold execPromotion
  dsimp only
  (repeat' split) <;> simp

@[simp] theorem State.drainTile_vital (s : State) (j : Job) (t : AccTile) :
    (State.drainTile s j t).vital = s.vital := by simp [State.drainTile]

@[simp] theorem State.drainSaddle_vital (s : State) (b : BlockId) (p : PartNo) :
    (State.drainSaddle s b p).vital = s.vital := by
  unfold State.drainSaddle
  dsimp only
  (repeat' split) <;> simp

@[simp] theorem execAccumulatorExchange_keeps (b : BlockId) (p : PartNo) (ecc : Ecc) (s : State) :
    Keeps s (execAccumulatorExchange b p ecc s) := by
  unfold execAccumulatorExchange
  dsimp only
  (repeat' split) <;> simp

@[simp] theorem execAccumulatorSwap_keeps (b : BlockId) (p : PartNo) (s : State) :
    Keeps s (execAccumulatorSwap b p s) := by
  unfold execAccumulatorSwap
  dsimp only
  (repeat' split) <;> simp

@[simp] theorem State.enqueue_vital (s : State) (j : Job) :
    (State.enqueue s j).vital = s.vital := by simp [State.enqueue]

theorem mmaBody_keeps (n : StrandId) (w : Word64) : Body.keeps (mmaBody n w) := by
  intro s t h
  unfold mmaBody at h
  dsimp only at h
  split at h
  next hr => subst h; exact State.preReads_vital hr
  next =>
    split at h
    · cases h
    · obtain ⟨-, h⟩ | ⟨-, h⟩ := ite_eq_cases h
      · cases h
      · obtain ⟨-, h⟩ | ⟨-, h⟩ := ite_eq_cases h
        · cases h
        · obtain ⟨-, h⟩ | ⟨-, h⟩ := ite_eq_cases h
          · cases h; simp
          · split at h <;> cases h
            · simp [State.gate_vital ‹State.gate _ _ _ _ = some _›]
            · simp

@[simp] theorem execMma_keeps (n : StrandId) (w : Word64) (s : State) : Keeps s (execMma n w s) :=
  State.keeps_issue (mmaBody_keeps n w)

@[simp] theorem vsuEcc_vital (s : State) (n : StrandId) (slot : Nat) (bad : List Nat) (xs : List Word) :
    (vsuEcc s n slot bad xs).vital = s.vital := by simp [vsuEcc]

@[simp] theorem State.writeOutputs_vital (s : State) (j : Job) (c : ChainRec) (out : Tile) (r n0 nt : Nat) (xs : List Stg) :
    (s.writeOutputs j c out r n0 nt xs).1.vital = s.vital := by
  unfold State.writeOutputs
  dsimp only
  (repeat' split) <;> simp

@[simp] theorem State.writeRead_vital (s : State) (j : Job) (c : ChainRec) (out : Tile) (r n0 : Nat) (vs : List Src) :
    (s.writeRead j c out r n0 vs).1.vital = s.vital := by
  simp [State.writeRead]

@[simp] theorem State.epilogueRow_vital (s : State) (n : StrandId) (j : Job) (c : ChainRec) (t : Epi) (wrong : List Nat) :
    (s.epilogueRow n j c t wrong).vital = s.vital := by
  unfold State.epilogueRow
  dsimp only
  (repeat' split) <;> simp

@[simp] theorem execEpilogueRowWrite_keeps (b : BlockId) (q : PartWords) (s : State) :
    Keeps s (execEpilogueRowWrite b q s) := by
  unfold execEpilogueRowWrite
  dsimp only
  split
  · split
    · simp
    · split
      next u hu => simp [State.gate_vital hu]
      next => simp
  · simp

theorem vecBody_keeps {n : StrandId} {w : Word64} {c : Instr} {u : TbUse} {ok : State → VecOps → Bool}
    {writes : VecOps → List (Nat × Nat)} {f : State → VecOps → State} (hf : ∀ s o, (f s o).vital = s.vital) :
    Body.keeps (vecBody n w c u ok writes f) := by
  intro s t h
  unfold vecBody at h
  dsimp only at h
  split at h
  · cases h
  · split at h
    next hr => subst h; exact State.preRead_vital hr
    next =>
      split at h
      · cases h
      · (repeat' split at h) <;> cases h
        · simp
        next u hu => simp [State.gate_vital hu]
        · simp [hf]

@[simp] theorem State.mapTile_vital (s : State) (n : StrandId) (o : VecOps) (f : Nat → Nat → Src ×
    (Stored → Events → Events)) :
    (State.mapTile s n o f).vital = s.vital := by simp [State.mapTile]

theorem vec2_keeps (n : StrandId) (w : Word64) (c : Instr) (s : State) (op : Nat) (f : VecOps → Val → Val → Val) :
    Keeps s (vec2 n w c s op f) := State.keeps_issue (vecBody_keeps fun _ _ => by simp)

@[simp] theorem execVadd_keeps (n : StrandId) (w : Word64) (s : State) : Keeps s (execVadd n w s) := vec2_keeps ..

@[simp] theorem execVmul_keeps (n : StrandId) (w : Word64) (s : State) : Keeps s (execVmul n w s) := vec2_keeps ..

@[simp] theorem execVmax_keeps (n : StrandId) (w : Word64) (s : State) : Keeps s (execVmax n w s) := vec2_keeps ..

@[simp] theorem execVmin_keeps (n : StrandId) (w : Word64) (s : State) : Keeps s (execVmin n w s) := vec2_keeps ..

@[simp] theorem execVfma_keeps (n : StrandId) (w : Word64) (s : State) : Keeps s (execVfma n w s) :=
  State.keeps_issue (vecBody_keeps fun _ _ => by simp)

@[simp] theorem execVcmp_keeps (n : StrandId) (w : Word64) (s : State) : Keeps s (execVcmp n w s) :=
  State.keeps_issue (vecBody_keeps fun _ _ => by simp)

@[simp] theorem State.copyPlanes_vital (s : State) (o : VecOps) :
    (State.copyPlanes s o).vital = s.vital := by simp [State.copyPlanes]

@[simp] theorem State.vcvt_vital (s : State) (n : StrandId) (o : VecOps) :
    (State.vcvt s n o).vital = s.vital := by simp [State.vcvt]

@[simp] theorem execVcvt_keeps (n : StrandId) (w : Word64) (s : State) : Keeps s (execVcvt n w s) :=
  State.keeps_issue (vecBody_keeps fun _ _ => by simp)

@[simp] theorem State.applyFn_vital (s : State) (n : StrandId) (slot : Nat) (bad : List Nat) (o : VecOps) :
    (State.applyFn s n slot bad o).vital = s.vital := by simp [State.applyFn]

@[simp] theorem execVfn_keeps (n : StrandId) (w : Word64) (bad : List Nat) (s : State) : Keeps s (execVfn n w bad s) :=
  State.keeps_issue (vecBody_keeps fun _ _ => by simp)

@[simp] theorem execVread_keeps (n : StrandId) (w : Word64) (s : State) : Keeps s (execVread n w s) :=
  State.keeps_issue (vecBody_keeps fun _ _ => by simp)

@[simp] theorem execVsc_keeps (n : StrandId) (w : Word64) (s : State) : Keeps s (execVsc n w s) :=
  State.keeps_issue (vecBody_keeps fun _ _ => by simp)

@[simp] theorem execVbi_keeps (n : StrandId) (w : Word64) (s : State) : Keeps s (execVbi n w s) :=
  State.keeps_issue (vecBody_keeps fun _ _ => by simp)

@[simp] theorem State.storeCodes_vital (s : State) (n : StrandId) (t : Tile) (f : Nat → Nat → Nat × Events × Bool) :
    (State.storeCodes s n t f).vital = s.vital := by simp [State.storeCodes]

@[simp] theorem execVds_keeps (n : StrandId) (w : Word64) (s : State) : Keeps s (execVds n w s) :=
  State.keeps_issue (vecBody_keeps fun _ _ => by split <;> simp)

@[simp] theorem execVlc_keeps (n : StrandId) (w : Word64) (s : State) : Keeps s (execVlc n w s) :=
  State.keeps_issue (vecBody_keeps fun _ _ => by simp)

@[simp] theorem execVrd_keeps (n : StrandId) (w : Word64) (s : State) : Keeps s (execVrd n w s) :=
  State.keeps_issue (vecBody_keeps fun _ _ => by simp)

@[simp] theorem State.modSlot_vital (s : State) (n : StrandId) (i : Nat) (f : Slot → Slot) :
    (State.modSlot s n i f).vital = s.vital := (rfl)

@[simp] theorem execTload_keeps (n : StrandId) (w : Word64) (s : State) : Keeps s (execTload n w s) := by
  unfold execTload
  refine State.keeps_issue fun s t h => ?_
  dsimp only at h
  (repeat' split at h) <;> cases h <;> simp

@[simp] theorem execTloadComplete_keeps (n : StrandId) (s : State) : Keeps s (execTloadComplete n s) := by
  unfold execTloadComplete
  dsimp only
  (repeat' split) <;> simp

@[simp] theorem execTswap_keeps (n : StrandId) (w : Word64) (s : State) : Keeps s (execTswap n w s) := by
  unfold execTswap
  refine State.keeps_issue fun s t h => ?_
  dsimp only at h
  (repeat' split at h) <;> cases h <;> simp

@[simp] theorem execTswapTakesEffect_keeps (n : StrandId) (s : State) : Keeps s (execTswapTakesEffect n s) := by
  unfold execTswapTakesEffect
  (repeat' split) <;> simp

end Sys2Proof.Machine
end

section
/-!
SUPPORT. The windows, the arrivals and the mailboxes keep what is vital.
-/
namespace Sys2Proof.Machine

open Sys2Proof

@[simp] theorem execStgrun_keeps (n : StrandId) (w : Word64) (s : State) : Keeps s (execStgrun n w s) := by
  unfold execStgrun
  refine State.keeps_issue fun s t h => ?_
  dsimp only at h
  (repeat' split at h) <;> cases h <;> simp

@[simp] theorem execStgwait_keeps (n : StrandId) (w : Word64) (s : State) : Keeps s (execStgwait n w s) := by
  unfold execStgwait
  refine State.keeps_issue fun s t h => ?_
  cases h
  simp

@[simp] theorem Strand.closeWindow_zeros (x : Strand) : x.closeWindow.zeros = x.zeros := (rfl)

@[simp] theorem Strand.takeWord_zeros (x : Strand) (a b : Nat) (v : Word64) : (x.takeWord a b v).zeros = x.zeros := by
  simp [Strand.takeWord]

@[simp] theorem State.proceed_vital (s : State) (n : StrandId) (f : Strand → Strand) (h : ∀ x, (f x).zeros = x.zeros) :
    (s.proceed n f).vital = s.vital := by
  simp [State.proceed, h]

@[simp] theorem execStgwaitProceed_keeps (n : StrandId) (s : State) : Keeps s (execStgwaitProceed n s) := by
  unfold execStgwaitProceed
  dsimp only
  (repeat' split) <;> simp

@[simp] theorem State.countIn_vital (s : State) (a : Nat) :
    (State.countIn s a).vital = s.vital := by simp [State.countIn]

@[simp] theorem execLaunchif_keeps (n : StrandId) (w : Word64) (s : State) : Keeps s (execLaunchif n w s) := by
  unfold execLaunchif
  dsimp only
  split
  · simp
  · refine State.keeps_issue fun s t h => ?_
    split at h
    · cases h
    · split at h
      · cases h; rfl
      · split at h <;> cases h
        · simp
        · exact State.setStrand_vital_of n (by simp) rfl

@[simp] theorem execStart_keeps (n : StrandId) (w : Word64) (s : State) : Keeps s (execStart n w s) := by
  refine State.keeps_issue fun s t h => ?_
  split at h <;> cases h <;> simp [Strand.openWindow]

@[simp] theorem execEndW_keeps (n : StrandId) (w : Word64) (s : State) : Keeps s (execEndW n w s) := by
  unfold execEndW
  refine State.keeps_issue fun s t h => ?_
  dsimp only at h
  (repeat' split at h) <;> cases h <;> simp

@[simp] theorem execEndComplete_keeps (n : StrandId) (s : State) : Keeps s (execEndComplete n s) := by
  unfold execEndComplete
  split <;> simp

theorem flagFold_zeros (l : List Nat) (v : Flag) (x : Strand) :
    (l.foldl (fun (x : Strand) i => x.setFlag i v) x).zeros = x.zeros := by
  induction l generalizing x with
  | nil => rfl
  | cons i l ih => exact (ih _).trans (x.setFlag_zeros i v)

@[simp] theorem execArm_keeps (n : StrandId) (w : Word64) (s : State) : Keeps s (execArm n w s) := by
  refine State.keeps_issue fun s t h => ?_
  dsimp only at h
  split at h
  · exact regBody_keeps n _ (flagFold_zeros _ _) s t h
  · cases h

@[simp] theorem execWaita_keeps (n : StrandId) (w : Word64) (s : State) : Keeps s (execWaita n w s) := by
  refine State.keeps_issue fun s t h => ?_
  obtain ⟨-, h⟩ | ⟨-, h⟩ := ite_eq_cases h
  · cases h
  · obtain ⟨-, h⟩ | ⟨-, h⟩ := ite_eq_cases h
    · cases h; rfl
    · cases h
      split <;> simp

@[simp] theorem execWaitaProceed_keeps (n : StrandId) (s : State) : Keeps s (execWaitaProceed n s) := by
  unfold execWaitaProceed
  dsimp only
  split
  · split
    · split <;> simp [flagFold_zeros, Strand.openWindow]
    · simp
  · simp

@[simp] theorem execRel_keeps (n : StrandId) (w : Word64) (s : State) : Keeps s (execRel n w s) := by
  unfold execRel
  refine State.keeps_issue fun s t h => ?_
  cases h
  simp

@[simp] theorem execRelComplete_keeps (n : StrandId) (s : State) : Keeps s (execRelComplete n s) := by
  unfold execRelComplete
  dsimp only
  (repeat' split) <;> simp

@[simp] theorem execAcq_keeps (n : StrandId) (w : Word64) (s : State) : Keeps s (execAcq n w s) := by
  unfold execAcq
  refine State.keeps_issue fun s t h => ?_
  cases h
  simp

@[simp] theorem execBar_keeps (n : StrandId) (w : Word64) (s : State) : Keeps s (execBar n w s) := by
  unfold execBar
  refine State.keeps_issue fun s t h => ?_
  dsimp only at h
  (repeat' split at h) <;> cases h <;> simp

@[simp] theorem execBarComplete_keeps (n : StrandId) (s : State) : Keeps s (execBarComplete n s) := by
  unfold execBarComplete
  (repeat' split) <;> simp

@[simp] theorem State.noteDigest_vital (s : State) (n : StrandId) (id : Nat) :
    (State.noteDigest s n id).vital = s.vital := (rfl)

@[simp] theorem State.unlist_vital (s : State) (n : StrandId) : (State.unlist s n).vital = s.vital := (rfl)

@[simp] theorem State.disown_vital (s : State) (n : StrandId) : (State.disown s n).vital = s.vital := (rfl)

@[simp] theorem execHalt_keeps (n : StrandId) (w : Word64) (s : State) : Keeps s (execHalt n w s) := by
  refine State.keeps_issue fun s t h => ?_
  obtain ⟨-, h⟩ | ⟨-, h⟩ := ite_eq_cases h
  · cases h; rfl
  · split at h
    · cases h; exact s.setStrand_vital n _ rfl
    next l _ =>
      cases h
      have : (((s.noteDigest n l.id).disown n).setStrand n (s.strand n).atHalt).vital = s.vital :=
        State.setStrand_vital_of n (by simp) rfl
      simp [this]

@[simp] theorem State.noBar0_keeps (s : State) : Keeps s (State.noBar0 s) := by simp [State.noBar0]

@[simp] theorem State.setMbx_vital (s : State) (m : Mailboxes) : (State.setMbx s m).vital = s.vital := (rfl)

@[simp] theorem State.mbxEvent_vital (s : State) (pend : Word64) (mc : BitVec 2) :
    (State.mbxEvent s pend mc).vital = s.vital := by simp [State.mbxEvent]

@[simp] theorem State.setS2h_vital (s : State) (n : StrandId) (m : Mbx) : (State.setS2h s n m).vital = s.vital := (rfl)

@[simp] theorem State.setH2s_vital (s : State) (n : StrandId) (m : Mbx) : (State.setH2s s n m).vital = s.vital := (rfl)

@[simp] theorem State.mbxPut_vital (s : State) (n : StrandId) (v : Word64) :
    (State.mbxPut s n v).vital = s.vital := by simp [State.mbxPut]

@[simp] theorem State.mbxTake_vital (s : State) (n : StrandId) :
    (State.mbxTake s n).vital = s.vital := by simp [State.mbxTake]

@[simp] theorem execMbxw_keeps (n : StrandId) (w : Word64) (s : State) : Keeps s (execMbxw n w s) := by
  unfold execMbxw
  refine State.keeps_issue fun s t h => ?_
  (repeat' split at h) <;> cases h <;> simp

@[simp] theorem execMbxwProceed_keeps (n : StrandId) (s : State) : Keeps s (execMbxwProceed n s) := by
  unfold execMbxwProceed
  (repeat' split) <;> simp

@[simp] theorem execMbxr_keeps (n : StrandId) (w : Word64) (s : State) : Keeps s (execMbxr n w s) := by
  unfold execMbxr
  refine State.keeps_issue fun s t h => ?_
  (repeat' split at h) <;> cases h <;> simp

@[simp] theorem execMbxrProceed_keeps (n : StrandId) (s : State) : Keeps s (execMbxrProceed n s) := by
  unfold execMbxrProceed
  (repeat' split) <;> simp

@[simp] theorem execMbxt_keeps (n : StrandId) (w : Word64) (s : State) : Keeps s (execMbxt n w s) := by
  unfold execMbxt
  refine State.keeps_issue fun s t h => ?_
  (repeat' split at h) <;> cases h <;> simp

@[simp] theorem State.overrun_vital (s : State) : (State.overrun s).vital = s.vital := (rfl)

@[simp] theorem State.wakeIfAsleep_vital (s : State) (r : RegionId) :
    (State.wakeIfAsleep s r).vital = s.vital := by simp [State.wakeIfAsleep]

@[simp] theorem execMbxH2sWrite_keeps (n : StrandId) (h : Half) (v : Word64) (s : State) :
    Keeps s (execMbxH2sWrite n h v s) := by
  unfold execMbxH2sWrite
  dsimp only
  (repeat' split) <;> simp

@[simp] theorem execMbxS2hRead_keeps (n : StrandId) (h : Half) (s : State) : Keeps s (execMbxS2hRead n h s) := by
  unfold execMbxS2hRead
  split <;> simp

@[simp] theorem execMbxH2mcWrite_keeps (h : Half) (v : Word64) (s : State) : Keeps s (execMbxH2mcWrite h v s) := by
  unfold execMbxH2mcWrite
  (repeat' split) <;> simp

@[simp] theorem execMbxMc2hRead_keeps (h : Half) (s : State) : Keeps s (execMbxMc2hRead h s) := by
  unfold execMbxMc2hRead
  split <;> simp

@[simp] theorem execMailboxLatchWrite_keeps (i : Fin 33) (v : Word) (s : State) :
    Keeps s (execMailboxLatchWrite i v s) := by
  unfold execMailboxLatchWrite
  (repeat' split) <;> simp

@[simp] theorem State.sequencerReads_vital (s : State) (r : RegionId) : (State.sequencerReads s r).vital = s.vital := by
  unfold State.sequencerReads
  split <;> rfl

@[simp] theorem execMcRegionMailboxWrite_keeps (r : RegionId) (v : Word64) (s : State) :
    Keeps s (execMcRegionMailboxWrite r v s) := by
  unfold execMcRegionMailboxWrite
  dsimp only
  split <;> simp

@[simp] theorem execMbxMc2hWrite_keeps (v : Word64) (s : State) : Keeps s (execMbxMc2hWrite v s) := by
  unfold execMbxMc2hWrite
  split <;> simp

@[simp] theorem execMbxH2mcRead_keeps (s : State) : Keeps s (execMbxH2mcRead s) := by
  unfold execMbxH2mcRead
  split <;> simp

theorem colBody_keeps {n : StrandId} {w : Word64} {c : Instr} {ds : List Nat} {b : Body} (hb : Body.keeps b) :
    Body.keeps (colBody n w c ds b) := by
  intro s t h
  unfold colBody at h
  split at h
  · cases h
  · split at h
    next hr => subst h; exact State.preRead_vital hr
    next => exact (hb _ t h).trans (by simp)

theorem colRun_keeps {n : StrandId} {reads writes sides : List (Nat × Nat)} {f : State → State}
    (hf : ∀ s, (f s).vital = s.vital) : Body.keeps (colRun n reads writes sides f) := by
  intro s t h
  unfold colRun at h
  dsimp only at h
  (repeat' split at h) <;> cases h <;> simp [hf]

@[simp] theorem State.putPairs_vital (s : State) (t : Tile) (rows : List (List (Nat × Nat × Bool))) :
    (State.putPairs s t rows).vital = s.vital := by simp [State.putPairs]

@[simp] theorem execChstep_keeps (n : StrandId) (w : Word64) (s : State) : Keeps s (execChstep n w s) := by
  refine State.keeps_issue (colBody_keeps fun s t h => ?_)
  dsimp only at h
  split at h
  · obtain ⟨-, h⟩ | ⟨-, h⟩ := ite_eq_cases h
    · cases h
    · exact colRun_keeps (fun _ => by simp) s t h
  · cases h

@[simp] theorem execTrstep_keeps (n : StrandId) (w : Word64) (s : State) : Keeps s (execTrstep n w s) := by
  refine State.keeps_issue (colBody_keeps fun s t h => ?_)
  dsimp only at h
  split at h
  · obtain ⟨-, h⟩ | ⟨-, h⟩ := ite_eq_cases h
    · cases h
    · exact colRun_keeps (fun _ => by simp) s t h
  · cases h

@[simp] theorem execTkmerge_keeps (n : StrandId) (w : Word64) (s : State) : Keeps s (execTkmerge n w s) := by
  refine State.keeps_issue (colBody_keeps fun s t h => ?_)
  dsimp only at h
  split at h
  · obtain ⟨-, h⟩ | ⟨-, h⟩ := ite_eq_cases h
    · cases h
    · exact colRun_keeps (fun _ => by simp) s t h
  · cases h

@[simp] theorem execSmxc_keeps (n : StrandId) (w : Word64) (s : State) : Keeps s (execSmxc n w s) := by
  refine State.keeps_issue (colBody_keeps fun s t h => ?_)
  dsimp only at h
  split at h
  · obtain ⟨-, h⟩ | ⟨-, h⟩ := ite_eq_cases h
    · cases h
    · exact colRun_keeps (fun _ => by simp) s t h
  · cases h

@[simp] theorem execSmxd_keeps (n : StrandId) (w : Word64) (s : State) : Keeps s (execSmxd n w s) := by
  refine State.keeps_issue (colBody_keeps fun s t h => ?_)
  split at h
  · obtain ⟨-, h⟩ | ⟨-, h⟩ := ite_eq_cases h
    · cases h
    · exact colRun_keeps (fun _ => by simp) s t h
  · cases h

@[simp] theorem execPrcomb_keeps (n : StrandId) (w : Word64) (s : State) : Keeps s (execPrcomb n w s) := by
  refine State.keeps_issue (colBody_keeps fun s t h => ?_)
  dsimp only at h
  split at h
  · obtain ⟨-, h⟩ | ⟨-, h⟩ := ite_eq_cases h
    · cases h
    · exact colRun_keeps (fun _ => by simp) s t h
  · cases h

end Sys2Proof.Machine
end

section
/-!
SUPPORT. Collectives, sessions and the staging engines' issue keep what is vital.
-/
namespace Sys2Proof.Machine

open Sys2Proof

@[simp] theorem State.setSe_vital (s : State) (e : Se) : (State.setSe s e).vital = s.vital := (rfl)

@[simp] theorem State.setCounts_vital (s : State) (e : SessEnt) (resident spilled : Nat) :
    (State.setCounts s e resident spilled).vital = s.vital := by simp [State.setCounts]

@[simp] theorem State.logEntry_vital (s : State) (a sess : Nat) :
    (State.logEntry s a sess).vital = s.vital := by simp [State.logEntry]

theorem State.seHold_vital {s t : State} {n : StrandId} {c : Instr} (h : s.seHold n c = some t) :
    t.vital = s.vital := by
  unfold State.seHold at h
  split at h <;> cases h
  simp

theorem State.findGate_vital {s t : State} {c : Instr} {q i : Nat} (h : s.findGate c q i = some t) :
    t.vital = s.vital := by
  unfold State.findGate at h
  split at h
  · cases h
  · split at h
    next hg => cases h; exact State.gate_vital hg
    next =>
      dsimp only at h
      split at h
      · cases h
      · exact State.gate_vital h

@[simp] theorem State.meetSess_vital (s : State) (q : Nat) :
    (State.meetSess s q).vital = s.vital := by simp [State.meetSess]

@[simp] theorem State.meetFind_vital (s : State) (q i : Nat) :
    (State.meetFind s q i).vital = s.vital := by simp [State.meetFind]

theorem sessRun_vital (n : StrandId) (w : Word64) (op : Nat) (c : Instr) (s : State)
    (writes : SessEnt → DirEnt → List (Nat × Nat)) (f : State → Found → State) (hf : ∀ s r, (f s r).vital = s.vital) :
    (sessRun n w op c s writes f).vital = s.vital := by
  refine State.issue_vital _ _ _ _ _ _ _ fun s t h => ?_
  split at h
  next hh => cases h; exact State.seHold_vital hh
  next =>
    dsimp only at h
    split at h
    next hg => cases h; simp [State.findGate_vital hg]
    next =>
      split at h
      · split at h
        next hg => cases h; simp [State.gate_vital hg]
        next => cases h; simp [hf]
      · cases h; simp [hf]

@[simp] theorem State.sessFail_vital (s : State) (n : StrandId) (pd : Nat) :
    (State.sessFail s n pd).vital = s.vital := by simp [State.sessFail]

@[simp] theorem execSalloc_keeps (n : StrandId) (w : Word64) (s : State) : Keeps s (execSalloc n w s) := by
  refine (Keeps_next ..).2 (sessRun_vital _ _ _ _ _ _ _ fun s r => ?_)
  dsimp only
  (repeat' split) <;> simp

@[simp] theorem State.lookDone_vital (s : State) (n : StrandId) (a pd page : Nat) :
    (State.lookDone s n a pd page).vital = s.vital := by simp [State.lookDone]

@[simp] theorem execSlook_keeps (n : StrandId) (w : Word64) (s : State) : Keeps s (execSlook n w s) := by
  refine (Keeps_next ..).2 (sessRun_vital _ _ _ _ _ _ _ fun s r => ?_)
  dsimp only
  (repeat' split) <;> simp

@[simp] theorem State.dropD2h_vital (s : State) (a : D2HAgent) (isRead : Bool) :
    (State.dropD2h s a isRead).vital = s.vital := (rfl)

@[simp] theorem State.recallDone_vital (s : State) (n : StrandId) (data : List Byte) (poisoned : Bool) :
    (s.recallDone n data poisoned).vital = s.vital := by
  unfold State.recallDone
  split
  · split
    · rfl
    · dsimp only
      split
      next hg => exact State.findGate_vital hg
      next =>
        split
        · split
          next hg => simp [State.gate_vital hg]
          next => simp
        · simp
        · simp
  · rfl

@[simp] theorem execSfree_keeps (n : StrandId) (w : Word64) (s : State) : Keeps s (execSfree n w s) := by
  refine (Keeps_next ..).2 (sessRun_vital _ _ _ _ _ _ _ fun s r => ?_)
  dsimp only
  (repeat' split) <;> simp

@[simp] theorem execSsum_keeps (n : StrandId) (w : Word64) (s : State) : Keeps s (execSsum n w s) := by
  refine State.keeps_issue fun s t h => ?_
  dsimp only at h
  split at h
  · cases h
  · split at h
    · cases h; rfl
    · split at h
      next hh => cases h; exact State.seHold_vital hh
      next =>
        split at h
        · cases h; simp
        · split at h
          next hg => cases h; simp [State.gate_vital hg]
          next => cases h; simp

@[simp] theorem execDgadd_keeps (n : StrandId) (w : Word64) (s : State) : Keeps s (execDgadd n w s) := by
  unfold execDgadd
  refine State.keeps_issue fun s t h => ?_
  dsimp only at h
  (repeat' split at h) <;> cases h <;> simp

@[simp] theorem execDgfin_keeps (n : StrandId) (w : Word64) (s : State) : Keeps s (execDgfin n w s) := by
  unfold execDgfin
  refine State.keeps_issue fun s t h => ?_
  (repeat' split at h) <;> cases h <;> simp

@[simp] theorem State.seDone_vital (s : State) : (State.seDone s).vital = s.vital := (rfl)

@[simp] theorem State.seRefuse_vital (s : State) (err : Nat) : (State.seRefuse s err).vital = s.vital := (rfl)

@[simp] theorem State.seCmd_vital (s : State) (op sess : Nat) : (State.seCmd s op sess).vital = s.vital := (rfl)

theorem seRun_keeps (op sess : Nat) (c : Instr) (s : State) (f : State → State) (hf : ∀ s, (f s).vital = s.vital) :
    Keeps s (seRun op sess c s f) := by
  unfold seRun
  split
  · simp
  · split
    · simp
    · dsimp only
      split <;> simp [hf]

theorem seGate_vital (c : Instr) (s : State) (r w : List (Nat × Nat)) (f : State → State) (hf : ∀ s, (f s).vital = s.vital) :
    (seGate c s r w f).vital = s.vital := by
  unfold seGate
  split
  next hg => simp [State.gate_vital hg]
  next => exact hf s

@[simp] theorem execSeBaseWrite_keeps (r : SeReg) (v : Word64) (s : State) : Keeps s (execSeBaseWrite r v s) := by
  unfold execSeBaseWrite
  dsimp only
  (repeat' split) <;> simp

@[simp] theorem execInitpool_keeps (s : State) : Keeps s (execInitpool s) :=
  seRun_keeps _ _ _ _ _ fun s => by dsimp only; split <;> simp

@[simp] theorem execOpenS_keeps (i : SessionId) (s : State) : Keeps s (execOpenS i s) := by
  refine seRun_keeps _ _ _ _ _ fun s => seGate_vital _ _ _ _ _ fun s => ?_
  dsimp only
  split
  · simp
  · split
    · simp
    · split
      · simp
      · exact (seGate_vital _ _ _ _ _ fun s => by simp).trans (by simp)

@[simp] theorem State.logBadEntries_vital (s : State) (q : Nat) (e : SessEnt) :
    (State.logBadEntries s q e).vital = s.vital := by simp [State.logBadEntries]

@[simp] theorem execCloseS_keeps (i : SessionId) (s : State) : Keeps s (execCloseS i s) := by
  refine seRun_keeps _ _ _ _ _ fun s => seGate_vital _ _ _ _ _ fun s => ?_
  dsimp only
  split
  · simp
  · split
    · simp
    · refine (seGate_vital _ _ _ _ _ fun s => ?_).trans (by simp)
      split
      · simp
      · exact (seGate_vital _ _ _ _ _ fun s => by simp).trans (by simp)

theorem spillGo_vital (q : SessionId) (e : SessEnt) (fuel i : Nat) (s : State) :
    (spillGo q e fuel i s).vital = s.vital := by
  induction fuel generalizing i s with
  | zero => simp [spillGo]
  | succ fuel ih =>
    unfold spillGo
    dsimp only
    split
    · simp
    · split
      next hg => simp [State.gate_vital hg]
      next =>
        split
        · simp [ih]
        · split
          · simp [ih]
          · split
            · simp [ih]
            · split
              · simp
              · split
                next hg => simp [State.gate_vital hg]
                next => simp

@[simp] theorem execSpill_keeps (i : SessionId) (s : State) : Keeps s (execSpill i s) := by
  unfold execSpill
  split
  · split
    · simp
    · exact (Keeps_next ..).2 (spillGo_vital ..)
  · refine seRun_keeps _ _ _ _ _ fun s => seGate_vital _ _ _ _ _ fun s => ?_
    dsimp only
    split
    · simp
    · split
      · simp
      · simp [spillGo_vital]

@[simp] theorem State.spillStep_vital (s : State) : s.spillStep.vital = s.vital := by
  unfold State.spillStep
  split
  · rfl
  · split
    · rfl
    · dsimp only
      split <;> simp [spillGo_vital]

@[simp] theorem State.stgOutcome_vital (s : State) (e : EngineId) (ok : Bool) :
    (State.stgOutcome s e ok).vital = s.vital := by simp [State.stgOutcome]

@[simp] theorem State.colSettle_vital (s : State) : (State.colSettle s).vital = s.vital := by
  unfold State.colSettle
  split <;> rfl

@[simp] theorem State.settleEngine_vital (s : State) (e : EngineId) :
    (State.settleEngine s e).vital = s.vital := by simp [State.settleEngine]

@[simp] theorem State.engineFault_vital (s : State) (e : EngineId) (k : SKind) :
    (State.engineFault s e k).vital = s.vital := by simp [State.engineFault]

@[simp] theorem State.engClosed_vital (s : State) (e : EngineId) (f : State → State) (hf : ∀ s, (f s).vital = s.vital) :
    (s.engClosed e f).vital = s.vital := by
  unfold State.engClosed
  dsimp only
  split <;> simp [hf]

@[simp] theorem State.stepFault_vital (s : State) (e : EngineId) (k : SKind) :
    (State.stepFault s e k).vital = s.vital := by simp [State.stepFault]

@[simp] theorem State.peerDone_vital (s : State) (e : EngineId) (tag : Nat) :
    (State.peerDone s e tag).vital = s.vital := by simp [State.peerDone]

@[simp] theorem State.peerLost_vital (s : State) (e : EngineId) (tag : Nat) :
    (State.peerLost s e tag).vital = s.vital := by
  unfold State.peerLost
  split <;> simp

@[simp] theorem State.hostWriteDone_vital (s : State) (e : EngineId) :
    (State.hostWriteDone s e).vital = s.vital := by simp [State.hostWriteDone]

@[simp] theorem State.engGoto_vital (s : State) (e : EngineId) (i : Nat) :
    (State.engGoto s e i).vital = s.vital := by simp [State.engGoto]

@[simp] theorem State.engNext_vital (s : State) (e : EngineId) :
    (State.engNext s e).vital = s.vital := by simp [State.engNext]

@[simp] theorem State.engStored_vital (s : State) (e : EngineId) :
    (State.engStored s e).vital = s.vital := by simp [State.engStored]

theorem State.stepRun_vital (s : State) (e : EngineId) (st : Step512) (op : Nat) (dec : Bool) (body : SBody)
    (hb : SBody.keeps body) : (s.stepRun e st op dec body).vital = s.vital := by
  unfold State.stepRun
  split
  · rfl
  · split
    · simp
    · split
      next t ht => exact hb s t ht
      next => simp

theorem State.keeps_stepRun {s : State} {e : EngineId} {st : Step512} {op : Nat} {dec : Bool} {body : SBody}
    (hb : SBody.keeps body) : Keeps s (.next (s.stepRun e st op dec body)) :=
  (Keeps_next ..).2 (s.stepRun_vital e st op dec body hb)

@[simp] theorem State.addressFault_vital (s : State) (e : EngineId) (a n : Nat) (isWrite : Bool) :
    (State.addressFault s e a n isWrite).vital = s.vital := by simp [State.addressFault]

@[simp] theorem State.setArb_vital (s : State) (a : Nat) (x : Arb) : (State.setArb s a x).vital = s.vital := (rfl)

@[simp] theorem State.arbGrant_vital (s : State) (a : ArbId) (pt : Fin 12) (reqs : List ArbReq) :
    (s.arbGrant a pt reqs).1.vital = s.vital := by
  unfold State.arbGrant
  dsimp only
  (repeat' split) <;> simp

@[simp] theorem State.egressPick_vital (s : State) (p : PortId) (pend : List Nat) :
    (s.egressPick p pend).1.vital = s.vital := by
  unfold State.egressPick
  dsimp only
  split <;> simp

@[simp] theorem execCreditPeriodEnd_keeps (a : ArbId) (pt : Fin 12) (s : State) :
    Keeps s (execCreditPeriodEnd a pt s) := by
  unfold execCreditPeriodEnd
  split <;> simp

@[simp] theorem execArbCommit_keeps (a : ArbId) (s : State) : Keeps s (execArbCommit a s) := by
  unfold execArbCommit
  split <;> simp

@[simp] theorem State.owe_vital (s : State) (via : Nat) : (State.owe s via).vital = s.vital := by
  unfold State.owe
  split <;> rfl

@[simp] theorem State.sendFlit_vital (s : State) (p : PortId) (f : Flit) :
    (State.sendFlit s p f).vital = s.vital := by simp [State.sendFlit]

@[simp] theorem pumpGo_vital (p : PortId) (fuel : Nat) (s : State) : (pumpGo p fuel s).vital = s.vital := by
  induction fuel generalizing s with
  | zero => rfl
  | succ fuel ih =>
    unfold pumpGo
    dsimp only
    (repeat' split) <;> simp [ih]

@[simp] theorem State.pump_vital (s : State) (p : PortId) : (State.pump s p).vital = s.vital := by simp [State.pump]

@[simp] theorem State.resend_vital (s : State) (p : PortId) :
    (State.resend s p).vital = s.vital := by simp [State.resend]

@[simp] theorem State.enqueueFlit_vital (s : State) (p : PortId) (f : Flit) :
    (State.enqueueFlit s p f).vital = s.vital := by simp [State.enqueueFlit]

@[simp] theorem State.ownLost_vital (s : State) (m : ColMsg) :
    (State.ownLost s m).vital = s.vital := by simp [State.ownLost]

@[simp] theorem State.launchFlit_vital (s : State) (f : Flit) : (State.launchFlit s f).vital = s.vital := by
  unfold State.launchFlit
  split <;> simp

@[simp] theorem State.flushFlits_vital (s : State) : (State.flushFlits s).vital = s.vital := by simp [State.flushFlits]

@[simp] theorem State.injectMsg_vital (s : State) (tc dst req : Nat) (m : ColMsg) :
    (State.injectMsg s tc dst req m).vital = s.vital := by simp [State.injectMsg]

@[simp] theorem State.respond_vital (s : State) (dst req : Nat) (m : ColMsg) :
    (State.respond s dst req m).vital = s.vital := by simp [State.respond]

@[simp] theorem State.request_vital (s : State) (e : EngineId) (tc dst : Nat) (m : ColMsg) :
    (State.request s e tc dst m).vital = s.vital := by simp [State.request]

end Sys2Proof.Machine
end

section
/-!
SUPPORT. The steps of the staging engines keep what is vital.
-/
namespace Sys2Proof.Machine

open Sys2Proof

@[simp] theorem State.startProgram_vital (s : State) (e : EngineId) (n : StrandId) (off : Nat) (arg : Word) :
    (s.startProgram e n off arg).vital = s.vital := by
  have h : ∀ (s : State) (x : Engine) (g : Strand → Strand), (∀ y, (g y).zeros = y.zeros) →
      (((s.setEngine e x).modStrand n g).proceed n id).vital = s.vital := by
    intro s x g hg
    simp [hg]
  unfold State.startProgram
  extract_lets a s1 hdr nstep st0 good fits s2 all y seed x s3 s4 s5 s6
  have h2 : s2.vital = s.vital := by
    unfold s2
    split <;> simp [s1]
  have h6 : s6.vital = s.vital := (h { s2 with nextId := s2.nextId + 1 } _ _ fun _ => by simp).trans h2
  (repeat' split) <;> simp [h6]

@[simp] theorem execStagingProgramStart_keeps (e : EngineId) (n : StrandId) (s : State) :
    Keeps s (execStagingProgramStart e n s) := by
  unfold execStagingProgramStart
  dsimp only
  (repeat' split) <;> simp

@[simp] theorem execSetx_keeps (e : EngineId) (st : Step512) (s : State) : Keeps s (execSetx e st s) := by
  refine State.keeps_stepRun fun s => (KeepsOk_ok ..).2 ?_
  simp

@[simp] theorem execLdx_keeps (e : EngineId) (q : StepRead) (s : State) : Keeps s (execLdx e q s) := by
  refine State.keeps_stepRun fun s => ?_
  extract_lets a
  split
  · simp
  · split
    · simp
    · split
      · simp
      · split
        next hg => simp [State.gate_vital hg]
        next =>
          split <;> simp +zetaDelta

@[simp] theorem State.engStoring_vital (s : State) (e : EngineId) : (State.engStoring s e).vital = s.vital := (rfl)

theorem engStore_vital (e : EngineId) (c : Instr) (found : EccList) (s : State) (a : Nat) (bs : List Byte) (f : State → State)
    (hf : ∀ s, (f s).vital = s.vital) : (engStore e c found s a bs f).vital = s.vital := by
  unfold engStore
  split
  · simp
  · split
    next hg => simp [State.gate_vital hg]
    next => simp [hf]

@[simp] theorem execStx_keeps (e : EngineId) (q : StepRead) (s : State) : Keeps s (execStx e q s) := by
  refine State.keeps_stepRun fun s => ?_
  extract_lets x a
  split
  · simp
  · exact (KeepsOk_ok ..).2 (engStore_vital _ _ _ _ _ _ _ fun _ => rfl)

@[simp] theorem execStgBr_keeps (e : EngineId) (st : Step512) (s : State) : Keeps s (execStgBr e st s) := by
  refine State.keeps_stepRun fun s => ?_
  extract_lets x
  split <;> simp

@[simp] theorem execLoop_keeps (e : EngineId) (st : Step512) (s : State) : Keeps s (execLoop e st s) := by
  refine State.keeps_stepRun fun s => ?_
  extract_lets x v s1
  split <;> simp [s1]

@[simp] theorem execCvuset_keeps (e : EngineId) (st : Step512) (s : State) : Keeps s (execCvuset e st s) := by
  refine State.keeps_stepRun fun s => ?_
  extract_lets c
  simp

@[simp] theorem execCvuout_keeps (e : EngineId) (q : StepRead) (s : State) : Keeps s (execCvuout e q s) := by
  refine State.keeps_stepRun fun s => ?_
  split
  · simp
  · split
    · simp
    · exact (KeepsOk_ok ..).2 (engStore_vital _ _ _ _ _ _ _ fun _ => by simp)

@[simp] theorem execShainit_keeps (e : EngineId) (st : Step512) (s : State) : Keeps s (execShainit e st s) := by
  refine State.keeps_stepRun fun s => ?_
  simp

@[simp] theorem execShafin_keeps (e : EngineId) (st : Step512) (s : State) : Keeps s (execShafin e st s) := by
  refine State.keeps_stepRun fun s => ?_
  split
  · simp
  · refine (KeepsOk_ok ..).2 (engStore_vital _ _ _ _ _ _ _ fun s => ?_)
    extract_lets s1
    split <;> simp [s1]

@[simp] theorem execArrive_keeps (e : EngineId) (st : Step512) (s : State) : Keeps s (execArrive e st s) := by
  refine State.keeps_stepRun fun s => ?_
  split <;> simp

@[simp] theorem State.arrivalStep_vital (s : State) (e : EngineId) : (State.arrivalStep s e).vital = s.vital := by
  unfold State.arrivalStep
  dsimp only
  (repeat' split) <;> simp

theorem State.engReads_vital {s t : State} {e : EngineId} {c : Instr} {rs : List (Nat × Nat)}
    (h : s.engReads e c rs = some t) : t.vital = s.vital := by
  unfold State.engReads at h
  split at h
  · cases h; simp
  · split at h
    · cases h; rfl
    · exact State.gate_vital h

@[simp] theorem State.engMark_vital (s : State) (rs : List (Nat × Nat)) (found : EccList) :
    (State.engMark s rs found).vital = s.vital := by simp [State.engMark]

@[simp] theorem State.overlay_vital (s : State) (x : Side) (f : Fetch) : (State.overlay s x f).vital = s.vital := (rfl)

@[simp] theorem State.copyGo_vital (s : State) (e : EngineId) (c : CopyStep) (a b : Side) :
    (State.copyGo s e c a b).vital = s.vital := by simp [State.copyGo]

@[simp] theorem State.fetchNext_vital (s : State) (e : EngineId) : (State.fetchNext s e).vital = s.vital := by
  unfold State.fetchNext
  dsimp only
  (repeat' split) <;> simp

/-- The end of a COPY's step, once its sides are known. -/
theorem copyEnd_vital (i : Instr) (s : State) (e : EngineId) (r : StepRead) (a b : Side) :
    (if s.loopWrites e (copyReads a b) then s
     else match s.gate i (copyReads a b) [] with
     | some t => t
     | none =>
       let t := s.engMark ((copyOf r.step).headers ++ copyReads a b) r.found
       match t.copySides e (copyOf r.step) with
       | .ok (a, b) => t.copyGo e (copyOf r.step) a b
       | .error _ => t.copyGo e (copyOf r.step) a b).vital = s.vital := by
  split
  · rfl
  · split
    next hg => exact State.gate_vital hg
    next => dsimp only; split <;> simp

@[simp] theorem State.copyStep_vital (s : State) (e : EngineId) (r : StepRead) : (s.copyStep e r).vital = s.vital := by
  unfold State.copyStep
  extract_lets st c i go
  have hgo : ∀ s a b, (go s a b).vital = s.vital := fun s a b => copyEnd_vital i s e r a b
  clear_value go
  split
  · simp
  · refine State.stepRun_vital _ _ _ _ _ _ fun s => ?_
    dsimp only
    split
    next hr => exact (KeepsOk_ok ..).2 (State.engReads_vital hr)
    next =>
      split
      · simp
      · split
        · simp
        · split
          · simp
          · split
            · simp
            · split
              · split
                · simp [hgo]
                · split <;> simp
              · split
                · simp [hgo]
                · split <;> simp

@[simp] theorem State.copyResume_vital (s : State) (e : EngineId) : (State.copyResume s e).vital = s.vital := by
  unfold State.copyResume
  split <;> simp

@[simp] theorem State.fetchData_vital (s : State) (e : EngineId) (bs : List Byte) (bad : List Bool) (last : Bool) :
    (State.fetchData s e bs bad last).vital = s.vital := by
  unfold State.fetchData
  dsimp only
  split <;> simp

@[simp] theorem State.burstDone_vital (s : State) (e : EngineId) :
    (State.burstDone s e).vital = s.vital := by simp [State.burstDone]

@[simp] theorem State.burstWrite_vital (s : State) (e : EngineId) (found : EccList) :
    (s.burstWrite e found).vital = s.vital := by
  unfold State.burstWrite
  extract_lets x
  split
  · rfl
  next b l hb =>
    extract_lets n
    split
    · rfl
    · split
      · split
        · simp
        · split
          next hg => simp [State.gateWith_vital hg]
          next => simp +zetaDelta
      · split
        · split
          · rfl
          · simp +zetaDelta
        · split
          · rfl
          · simp +zetaDelta

@[simp] theorem execColsum_keeps (e : EngineId) (r : StepRead) (s : State) : Keeps s (execColsum e r s) := by
  refine State.keeps_stepRun fun s => ?_
  extract_lets x i
  split
  next hr => exact (KeepsOk_ok ..).2 (State.engReads_vital hr)
  next =>
    split
    · extract_lets w d ok
      split
      · simp
      · split
        · simp
        · split
          · simp
          · split
            next hr => exact (KeepsOk_ok ..).2 (State.engReads_vital hr)
            next => simp +zetaDelta
    · simp
    · simp

@[simp] theorem execBucket_keeps (e : EngineId) (q : StepRead) (s : State) : Keeps s (execBucket e q s) := by
  refine State.keeps_stepRun fun s => ?_
  split
  · simp
  · extract_lets head r0
    split
    next hr => exact (KeepsOk_ok ..).2 (State.engReads_vital hr)
    next =>
      split
      next hg => simp [State.gateWith_vital hg]
      next =>
        split
        · simp +zetaDelta
        · split
          · simp +zetaDelta
          · split <;> simp +zetaDelta

@[simp] theorem execStgEnd_keeps (e : EngineId) (st : Step512) (s : State) : Keeps s (execStgEnd e st s) := by
  refine State.keeps_stepRun fun s => ?_
  simp

end Sys2Proof.Machine
end

section
/-!
SUPPORT. The queue engine, launches and the COL links keep what is vital; a launched strand has its hard-wired
registers.
-/
namespace Sys2Proof.Machine

open Sys2Proof

@[simp] theorem State.setQe_vital (s : State) (e : Qe) : (State.setQe s e).vital = s.vital := (rfl)

@[simp] theorem State.meetEnt_vital (s : State) (q : Nat) :
    (State.meetEnt s q).vital = s.vital := by simp [State.meetEnt]

@[simp] theorem State.putEnt_vital (s : State) (q : Nat) (x : QEnt) :
    (State.putEnt s q x).vital = s.vital := by simp [State.putEnt]

@[simp] theorem State.qeBegin_vital (s : State) (t : QeHost) (q : Nat) : (State.qeBegin s t q).vital = s.vital := (rfl)

@[simp] theorem State.disableQueue_vital (s : State) (q : Nat) :
    (State.disableQueue s q).vital = s.vital := by simp [State.disableQueue]

@[simp] theorem State.poisonedQueue_vital (s : State) (q : Nat) :
    (State.poisonedQueue s q).vital = s.vital := by simp [State.poisonedQueue]

@[simp] theorem State.qeStat_vital (s : State) (st err : Nat) : (State.qeStat s st err).vital = s.vital := (rfl)

@[simp] theorem State.qeCmd_vital (s : State) (op q : Nat) : (State.qeCmd s op q).vital = s.vital := (rfl)

@[simp] theorem execQueueEnable_keeps (q : QueueId) (s : State) : Keeps s (execQueueEnable q s) := by
  unfold execQueueEnable
  split
  · simp
  · split
    · simp
    · extract_lets s1 a
      have h1 : s1.vital = s.vital := by simp [s1]
      split
      · simp [h1]
      · split
        next hg => simp [State.gate_vital hg, h1]
        next =>
          split
          · simp +zetaDelta
          · split
            · simp +zetaDelta
            · split
              next hg => simp +zetaDelta [State.gate_vital hg]
              next => simp +zetaDelta

@[simp] theorem execQueueDisable_keeps (q : QueueId) (s : State) : Keeps s (execQueueDisable q s) := by
  unfold execQueueDisable
  dsimp only
  (repeat' split) <;> simp

@[simp] theorem execQtbaseWrite_keeps (v : Word64) (s : State) : Keeps s (execQtbaseWrite v s) := by
  unfold execQtbaseWrite
  (repeat' split) <;> simp

@[simp] theorem State.rejectDb_vital (s : State) (q : Nat) : (State.rejectDb s q).vital = s.vital := (rfl)

@[simp] theorem State.setReady_vital (s : State) (q : Nat) : (State.setReady s q).vital = s.vital := by
  unfold State.setReady
  split <;> rfl

@[simp] theorem State.ringDoorbell_vital (s : State) (q t : Nat) :
    (State.ringDoorbell s q t).vital = s.vital := by simp [State.ringDoorbell]

@[simp] theorem execDoorbell_keeps (i : Fin 64) (bytes : Nat) (v : Word64) (s : State) :
    Keeps s (execDoorbell i bytes v s) := by
  unfold execDoorbell
  dsimp only
  split
  · simp
  · split
    · simp
    · split
      · simp
      · split
        · simp
        · split
          next hg => simp [State.gate_vital hg]
          next => split <;> simp

@[simp] theorem State.consumed_vital (s : State) (q : Nat) : (s.consumed q).vital = s.vital := by
  simp [State.consumed]

theorem State.nextId_vital (s : State) (k : Nat) : { s with nextId := k }.vital = s.vital := State.vital_of rfl rfl

@[simp] theorem State.takeRecord_vital (s : State) (q : Nat) (bs : List Byte) (bad : Bool) :
    (s.takeRecord q bs bad).vital = s.vital := by
  unfold State.takeRecord
  extract_lets x head cq refuse
  have hr : ∀ s, (refuse s).vital = s.vital := fun s => State.addRec_vital ..
  clear_value refuse
  split
  · simp
  · split
    · simp [hr]
    · split
      · exact State.setQe_vital ..
      · refine (State.foldl_vital _ (fun s i => s.modStrand_vital _ _ (by simp)) _ _).trans ?_
        refine (State.setQe_vital ..).trans ?_
        exact (State.nextId_vital (s.consumed q) (s.nextId + 1)).trans (State.consumed_vital s q)

@[simp] theorem execDispatch_keeps (s : State) : Keeps s (execDispatch s) := by
  unfold execDispatch
  split
  · simp
  · extract_lets d
    split
    · simp
    · split
      · simp
      · split
        next hg => simp [State.gate_vital hg]
        next =>
          dsimp only
          split
          · simp
          · split
            · split <;> simp
            · split
              next hg => simp [State.gate_vital hg]
              next => simp

@[simp] theorem State.claimPart_vital (s : State) (n : StrandId) (c : Nat × Nat × Nat) :
    (s.claimPart n c).vital = s.vital :=
  State.setBlock_vital ..

@[simp] theorem Strand.atLaunch_zeros (x : Strand) (l : Launched) (code : List Word64) (entry : Nat) :
    (x.atLaunch l code entry).zeros = (0, true) := rfl

theorem State.setUp_le {v : Vector (Word × Bool) 32 × Bool} {s : State} (n : StrandId) (l : Launched) (h code : List Byte)
    (hs : VitalLe v s.vital) : VitalLe v (s.setUp n l h code).vital := by
  refine State.modStrand_le _ _ (Strand.atLaunch_zeros ..) ?_
  simpa using hs

@[simp] theorem State.refuseLaunch_vital (s : State) (l : Launch) (reason : Nat) :
    (State.refuseLaunch s l reason).vital = s.vital := by simp [State.refuseLaunch]

@[simp] theorem execBinaryLoad_keepsLe (n : StrandId) (s : State) : KeepsLe s (execBinaryLoad n s) := by
  unfold execBinaryLoad
  extract_lets x
  split
  · simp
  · split
    · simp
    · split
      · simp
      · split
        · simp +zetaDelta
        · split
          next hg => simp [State.gate_vital hg]
          next =>
            dsimp only
            split
            · simp
            · split
              next hg => simp [State.gate_vital hg]
              next =>
                split
                · simp
                · refine (KeepsLe_next ..).2 (.trans ?_ (.of_eq (State.modStrand_vital _ _ _ (by simp))))
                  refine State.foldl_le _ (fun s m h => State.setUp_le _ _ _ _ h) _ (.of_eq ?_)
                  simp

@[simp] theorem State.recordWritten_vital (s : State) (cq : Nat) :
    (State.recordWritten s cq).vital = s.vital := by simp [State.recordWritten]

@[simp] theorem execCompletionRecordWrite_keeps (cq : QueueId) (s : State) :
    Keeps s (execCompletionRecordWrite cq s) := by
  unfold execCompletionRecordWrite
  extract_lets q
  split
  · simp
  · split
    · simp
    · split
      next hg => simp [State.gate_vital hg]
      next =>
        split
        · simp +zetaDelta
        · split
          · simp +zetaDelta
          · split
            · split <;> simp +zetaDelta
            · split
              next hg => simp +zetaDelta [State.gate_vital hg]
              next => simp +zetaDelta

@[simp] theorem State.launchPut_vital (s : State) (q : Nat) (n : StrandId) (pd : Nat) :
    (s.launchPut q n pd).vital = s.vital := by
  simp [State.launchPut]

@[simp] theorem State.badQueue_vital (s : State) (q : Nat) (bs : List Byte) :
    (State.badQueue s q bs).vital = s.vital := by simp [State.badQueue]

theorem launchifGate_vital {s t : State} {c : Instr} {q : Nat} {r w : List (Nat × Nat)}
    (h : (if s.queueOn q then s.gate c r w else none) = some t) : t.vital = s.vital := by
  split at h
  · exact State.gate_vital h
  · cases h

@[simp] theorem execLaunchifSubmit_keeps (n : StrandId) (s : State) : Keeps s (execLaunchifSubmit n s) := by
  unfold execLaunchifSubmit
  split
  · split
    · simp
    · split
      next hg => simp [launchifGate_vital hg]
      next q bs bad pd _ _ _ _ =>
        extract_lets s1 poisoned s2 x a s3
        have h1 : s1.vital = s.vital := by simp [s1]
        have h2 : s2.vital = s.vital := by simp [s2, h1]
        split
        · simp [h2]
        · split
          · simp [h2]
          · split
            · split <;> simp +zetaDelta
            · split
              next hg => simp [State.gate_vital hg, h2]
              next => simp [h2]
  · simp

@[simp] theorem State.qeHostDone_vital (s : State) (isRead : Bool) (data : List Byte) (bad : Bool) :
    (State.qeHostDone s isRead data bad).vital = s.vital := by
  unfold State.qeHostDone
  dsimp only
  (repeat' split) <;> simp

@[simp] theorem State.sendCtrl_vital (s : State) (p : PortId) (args : List Nat) :
    (State.sendCtrl s p args).vital = s.vital := by simp [State.sendCtrl]

@[simp] theorem State.sendInfo_vital (s : State) (p : PortId) :
    (State.sendInfo s p).vital = s.vital := by simp [State.sendInfo]

@[simp] theorem State.unreachAll_vital (s : State) (f : Flit) (cause : Nat) :
    (State.unreachAll s f cause).vital = s.vital := by simp [State.unreachAll]

@[simp] theorem State.countDrop_vital (s : State) (p : PortId) (k : Nat) :
    (State.countDrop s p k).vital = s.vital := (rfl)

@[simp] theorem State.dropFlit_vital (s : State) (f : Flit) (cause : Nat) :
    (State.dropFlit s f cause).vital = s.vital := by simp [State.dropFlit]

@[simp] theorem State.leaveLink_vital (s : State) (p : PortId) (st : PortState) :
    (State.leaveLink s p st).vital = s.vital := by simp [State.leaveLink]

@[simp] theorem execColPortEnable_keeps (p : PortId) (s : State) : Keeps s (execColPortEnable p s) := by
  unfold execColPortEnable
  split <;> simp

@[simp] theorem execColPortDisable_keeps (p : PortId) (s : State) : Keeps s (execColPortDisable p s) := by
  unfold execColPortDisable
  split <;> simp

@[simp] theorem State.tryLpi_vital (s : State) (p : PortId) : (State.tryLpi s p).vital = s.vital := by
  unfold State.tryLpi
  dsimp only
  split <;> rfl

@[simp] theorem State.leaveLpi_vital (s : State) (p : PortId) :
    (State.leaveLpi s p).vital = s.vital := by simp [State.leaveLpi]

@[simp] theorem execLpiRequest_keeps (p : PortId) (s : State) : Keeps s (execLpiRequest p s) := by
  unfold execLpiRequest
  split <;> simp

@[simp] theorem execLpiRelease_keeps (p : PortId) (s : State) : Keeps s (execLpiRelease p s) := by
  unfold execLpiRelease
  split <;> simp

@[simp] theorem execLpiReq_keeps (p : PortId) (s : State) : Keeps s (execLpiReq p s) := by
  unfold execLpiReq
  split <;> simp

@[simp] theorem execLpiAck_keeps (p : PortId) (s : State) : Keeps s (execLpiAck p s) := by
  unfold execLpiAck
  split <;> simp

@[simp] theorem execPartnerLpiExit_keeps (p : PortId) (s : State) : Keeps s (execPartnerLpiExit p s) := by
  unfold execPartnerLpiExit
  split <;> simp

@[simp] theorem State.retrain_vital (s : State) (p : PortId) : (State.retrain s p).vital = s.vital := by
  unfold State.retrain
  dsimp only
  split <;> rfl

@[simp] theorem execRetrain_keeps (p : PortId) (s : State) : Keeps s (execRetrain p s) := by
  unfold execRetrain
  split <;> simp

@[simp] theorem execTrainingAttempt_keeps (p : PortId) (s : State) : Keeps s (execTrainingAttempt p s) := by
  unfold execTrainingAttempt
  dsimp only
  split <;> simp

@[simp] theorem execTrainingComplete_keeps (p : PortId) (modid : BitVec 12) (port : BitVec 4) (profile : Word64)
    (s : State) :
    Keeps s (execTrainingComplete p modid port profile s) := by
  unfold execTrainingComplete
  dsimp only
  split <;> simp

@[simp] theorem execTrainingTimeout_keeps (p : PortId) (s : State) : Keeps s (execTrainingTimeout p s) := by
  unfold execTrainingTimeout
  dsimp only
  (repeat' split) <;> simp

@[simp] theorem execLossOfSignal_keeps (p : PortId) (s : State) : Keeps s (execLossOfSignal p s) := by
  unfold execLossOfSignal
  dsimp only
  split <;> simp

@[simp] theorem State.onNak_vital (s : State) (p : PortId) (q : Nat) :
    (State.onNak s p q).vital = s.vital := by simp [State.onNak]

@[simp] theorem execNak_keeps (p : PortId) (seq : BitVec 10) (s : State) : Keeps s (execNak p seq s) := by
  unfold execNak
  split <;> simp

@[simp] theorem execNakRepeat_keeps (p : PortId) (s : State) : Keeps s (execNakRepeat p s) := by
  unfold execNakRepeat
  dsimp only
  split <;> simp

@[simp] theorem execNakLimitRetrain_keeps (p : PortId) (s : State) : Keeps s (execNakLimitRetrain p s) := by
  unfold execNakLimitRetrain
  split <;> simp

@[simp] theorem execCreditReturn_keeps (p : PortId) (s : State) : Keeps s (execCreditReturn p s) := by
  unfold execCreditReturn
  dsimp only
  split <;> simp

@[simp] theorem execCredit_keeps (p : PortId) (vc : Fin 8) (k : Nat) (s : State) : Keeps s (execCredit p vc k s) := by
  unfold execCredit
  split <;> simp

@[simp] theorem execInfo_keeps (p : PortId) (modid : BitVec 12) (port : BitVec 4) (profile : Word64) (s : State) :
    Keeps s (execInfo p modid port profile s) := by
  unfold execInfo
  split <;> simp

@[simp] theorem State.refuseMsg_vital (s : State) (src : BitVec 12) (tag addr : Nat) :
    (State.refuseMsg s src tag addr).vital = s.vital := by simp [State.refuseMsg]

@[simp] theorem State.poisonMarked_vital (s : State) (a n poison : Nat) :
    (State.poisonMarked s a n poison).vital = s.vital := by simp [State.poisonMarked]

@[simp] theorem State.atomApply_vital (s : State) (a : Nat) (bs : List Byte) (poison : Nat) :
    (State.atomApply s a bs poison).vital = s.vital := by simp [State.atomApply]

@[simp] theorem State.onBurst_vital (s : State) (c : Instr) (src : BitVec 12) (m : ColMsg) (atom : Bool) :
    (s.onBurst c src m atom).vital = s.vital := by
  unfold State.onBurst
  split
  · simp
  · extract_lets b rest setB
    split
    · simp [setB]
    · split
      · simp [setB]
      · split
        next hg => exact State.gateWith_vital hg
        next => simp +zetaDelta

@[simp] theorem State.onWrite_vital (s : State) (src : BitVec 12) (m : ColMsg) :
    (State.onWrite s src m).vital = s.vital := by simp [State.onWrite]

@[simp] theorem State.onAtomadd_vital (s : State) (src : BitVec 12) (m : ColMsg) :
    (State.onAtomadd s src m).vital = s.vital := by simp [State.onAtomadd]

@[simp] theorem State.onReadreq_vital (s : State) (src : BitVec 12) (m : ColMsg) :
    (s.onReadreq src m).vital = s.vital := by
  unfold State.onReadreq
  extract_lets n
  split
  · simp
  · split
    next hg => exact State.gate_vital hg
    next => simp +zetaDelta

@[simp] theorem State.onReadrsp_vital (s : State) (src : BitVec 12) (m : ColMsg) :
    (State.onReadrsp s src m).vital = s.vital := by
  unfold State.onReadrsp
  dsimp only
  split <;> simp

@[simp] theorem State.onWrack_vital (s : State) (src : BitVec 12) (m : ColMsg) :
    (State.onWrack s src m).vital = s.vital := by simp [State.onWrack]

@[simp] theorem State.onArrive_vital (s : State) (src : BitVec 12) (m : ColMsg) :
    (State.onArrive s src m).vital = s.vital := by simp [State.onArrive]

@[simp] theorem State.onUnreach_vital (s : State) (m : ColMsg) :
    (State.onUnreach s m).vital = s.vital := by simp [State.onUnreach]

@[simp] theorem State.deliver_vital (s : State) (src : BitVec 12) (m : ColMsg) :
    (State.deliver s src m).vital = s.vital := by simp [State.deliver]

@[simp] theorem State.loopRound_vital (s : State) : (State.loopRound s).vital = s.vital := by simp [State.loopRound]

@[simp] theorem loopGo_vital (k : Nat) (s : State) : (loopGo k s).vital = s.vital := by
  induction k generalizing s with
  | zero => rfl
  | succ k ih =>
    unfold loopGo
    split <;> simp [ih]

@[simp] theorem State.loopIn_vital (s : State) : s.loopIn.vital = s.vital := by
  unfold State.loopIn
  split <;> simp

@[simp] theorem execWrite_keeps (src : BitVec 12) (m : ColMsg) (s : State) : Keeps s (execWrite src m s) := by
  unfold execWrite
  split <;> simp

@[simp] theorem execReadreq_keeps (src : BitVec 12) (m : ColMsg) (s : State) : Keeps s (execReadreq src m s) := by
  unfold execReadreq
  split <;> simp

@[simp] theorem execReadrsp_keeps (src : BitVec 12) (m : ColMsg) (s : State) : Keeps s (execReadrsp src m s) := by
  unfold execReadrsp
  split <;> simp

@[simp] theorem execWrack_keeps (src : BitVec 12) (m : ColMsg) (s : State) : Keeps s (execWrack src m s) := by
  unfold execWrack
  split <;> simp

@[simp] theorem execColArrive_keeps (src : BitVec 12) (m : ColMsg) (s : State) : Keeps s (execColArrive src m s) := by
  unfold execColArrive
  split <;> simp

@[simp] theorem execAtomadd_keeps (src : BitVec 12) (m : ColMsg) (s : State) : Keeps s (execAtomadd src m s) := by
  unfold execAtomadd
  split <;> simp

@[simp] theorem execUnreach_keeps (src : BitVec 12) (m : ColMsg) (s : State) : Keeps s (execUnreach src m s) := by
  unfold execUnreach
  split <;> simp

@[simp] theorem execBurstWrite_keeps (e : BurstEnd) (s : State) :
    Keeps s (execBurstWrite e s) := by simp [execBurstWrite]

@[simp] theorem execArrival_keeps (e : EngineId) (s : State) : Keeps s (execArrival e s) := by simp [execArrival]

@[simp] theorem execCopy_keeps (e : EngineId) (r : StepRead) (s : State) :
    Keeps s (execCopy e r s) := by simp [execCopy]

@[simp] theorem State.dropBurst_vital (s : State) (src tag : Nat) : (State.dropBurst s src tag).vital = s.vital := (rfl)

@[simp] theorem execBurstAssemblyTimeout_keeps (src : BitVec 12) (tag : BitVec 16) (s : State) :
    Keeps s (execBurstAssemblyTimeout src tag s) := by
  unfold execBurstAssemblyTimeout
  (repeat' split) <;> simp

@[simp] theorem execE2eTimeout_keeps (e : EngineId) (tag : BitVec 16) (s : State) :
    Keeps s (execE2eTimeout e tag s) := by
  unfold execE2eTimeout
  split <;> simp

@[simp] theorem State.rejectFlit_vital (s : State) (p : PortId) (fecBad : Bool) :
    (State.rejectFlit s p fecBad).vital = s.vital := by
  unfold State.rejectFlit
  dsimp only
  split <;> rfl

@[simp] theorem State.forward_vital (s : State) (p : PortId) (f : Flit) : (State.forward s p f).vital = s.vital := by
  unfold State.forward
  (repeat' split) <;> simp

@[simp] theorem State.takeFlit_vital (s : State) (p : PortId) (f : Flit) :
    (State.takeFlit s p f).vital = s.vital := by simp [State.takeFlit]

@[simp] theorem State.onAck_vital (s : State) (p : PortId) (a : Arriving) :
    (State.onAck s p a).vital = s.vital := by simp [State.onAck]

theorem execFlitReceive_keeps (p : PortId) (bytes : List Byte) (fec : Fec) (s : State) (hn : bytes.length = 256) :
    Keeps s (execFlitReceive p bytes fec s) := by
  unfold execFlitReceive
  rw [if_neg (Classical.not_not.2 hn)]
  split
  · simp
  · extract_lets s1 a data s2 x s3 s4
    have h1 : s1.vital = s.vital := by simp [s1]
    have h2 : s2.vital = s.vital := by simp [s2, h1]
    have h3 : s3.vital = s.vital := by simp [s3, h2]
    have h4 : s4.vital = s.vital := by simp [s4, h3]
    split
    · simp [h1]
    · split
      · simp [h2]
      · split <;> simp [h2, h4]

@[simp] theorem execColRtCommit_keeps (p : PortId) (s : State) : Keeps s (execColRtCommit p s) := by
  unfold execColRtCommit
  split <;> simp

@[simp] theorem execMgtColCommit_keeps (s : State) : Keeps s (execMgtColCommit s) := by
  unfold execMgtColCommit
  split <;> simp

@[simp] theorem execMgtProfileCommit_keeps (s : State) : Keeps s (execMgtProfileCommit s) := by
  unfold execMgtProfileCommit
  dsimp only
  (repeat' split) <;> simp

end Sys2Proof.Machine
end

section
/-!
SUPPORT. The device-fatal state, the host interface and the non-volatile memory keep what is vital.
-/
namespace Sys2Proof.Machine

open Sys2Proof

@[simp] theorem State.logEv_errlog_fatal (s : State) (cls level fid code addr info : Nat) :
    (s.logEv cls level fid code addr info).errlog.fatal = s.errlog.fatal :=
  congrArg (·.2) (State.logEv_vital s cls level fid code addr info)

/-- A state turned device-fatal keeps its strands. -/
theorem VitalLe.fatal {v : Vector (Word × Bool) 32 × Bool} {s : State} (h : VitalLe v s.vital) :
    VitalLe v (s.strands.map Strand.zeros, true) :=
  ⟨h.1, fun _ => rfl⟩

@[simp] theorem State.deviceFatal_le {v : Vector (Word × Bool) 32 × Bool} (s : State) (level fid code addr info : Nat)
    (h : VitalLe v s.vital) : VitalLe v (s.deviceFatal level fid code addr info).vital := by
  unfold State.deviceFatal
  extract_lets t sent t1 c d cfg hs el t2
  have ht : t.vital = s.vital := State.logEv_vital ..
  split
  · rwa [ht]
  · have h1 : t1.vital = s.vital := by
      unfold t1
      split <;> simp [ht]
    have h2 : t2.vital = (t1.strands.map Strand.zeros, true) := by simp [t2, el]
    have h3 : VitalLe v t2.vital := h2 ▸ VitalLe.fatal (h1 ▸ h)
    refine h3.trans (.of_eq (State.forN_vital _ _ _ fun i s => ?_))
    split <;> simp

@[simp] theorem State.setSf_vital (s : State) (sf : List SfEntry) :
    (State.setSf s sf).vital = s.vital := by simp [State.setSf]

@[simp] theorem State.sfPut_vital (s : State) (l : Nat) (any : Bool) : (State.sfPut s l any).vital = s.vital := by
  unfold State.sfPut
  split <;> rfl

@[simp] theorem State.sfDrop_vital (s : State) (l : Nat) : (State.sfDrop s l).vital = s.vital := by simp [State.sfDrop]

@[simp] theorem State.sfRead_vital (s : State) (l : Nat) (mv : Meta) : (State.sfRead s l mv).vital = s.vital := by
  unfold State.sfRead
  split <;> simp

@[simp] theorem State.sfWrite_vital (s : State) (l : Nat) (mv : Meta) : (State.sfWrite s l mv).vital = s.vital := by
  unfold State.sfWrite
  split <;> simp

@[simp] theorem State.evictFor_vital (s : State) (l : Nat) : (State.evictFor s l).vital = s.vital := by
  unfold State.evictFor
  split <;> simp

theorem State.hostGate_vital {s t : State} {c : Instr} {l : Nat} {mv : Meta} {wb : Bool}
    (h : s.hostGate c l mv wb = some t) : t.vital = s.vital := by
  unfold State.hostGate at h
  dsimp only at h
  split at h
  · cases h; simp
  · split at h
    · cases h; simp
    · cases h

@[simp] theorem State.decoderMiss_vital (s : State) :
    (State.decoderMiss s).vital = s.vital := by simp [State.decoderMiss]

@[simp] theorem State.hostRead_vital (s : State) (c : Instr) (hpa : Nat) (mv : Meta) (ecc : Ecc) :
    (s.hostRead c hpa mv ecc).vital = s.vital := by
  unfold State.hostRead
  split
  · simp
  · extract_lets l
    split
    · simp
    · split
      next hg => exact State.hostGate_vital hg
      next => split <;> simp +zetaDelta

@[simp] theorem execMemrd_keeps (hpa : Nat) (mv : Meta) (ecc : Ecc) (s : State) : Keeps s (execMemrd hpa mv ecc s) := by
  unfold execMemrd
  split <;> simp

@[simp] theorem execMemrddata_keeps (hpa : Nat) (mv : Meta) (ecc : Ecc) (s : State) :
    Keeps s (execMemrddata hpa mv ecc s) := by
  unfold execMemrddata
  split <;> simp

@[simp] theorem State.writeEnabled_vital (s : State) (a : Nat) (enable : BitVec 64) (data : List Byte) (bad : Bool) :
    (State.writeEnabled s a enable data bad).vital = s.vital := by simp [State.writeEnabled]

theorem execMemwr_keeps (hpa : Nat) (mv : Meta) (enable : BitVec 64) (data : List Byte) (q : WriteMark) (s : State)
    (hn : data.length = 64) : Keeps s (execMemwr hpa mv enable data q s) := by
  unfold execMemwr
  rw [if_neg (Classical.not_not.2 hn)]
  split
  · simp
  · split
    · simp
    · extract_lets l
      split
      · simp
      · split
        next hg => simp [State.hostGate_vital hg]
        next => split <;> simp +zetaDelta

@[simp] theorem execMeminv_keeps (hpa : Nat) (s : State) : Keeps s (execMeminv hpa s) := by
  unfold execMeminv
  (repeat' split) <;> simp

@[simp] theorem execH2dSnoop_keeps (hpa : Nat) (s : State) : Keeps s (execH2dSnoop hpa s) := by
  unfold execH2dSnoop
  split <;> simp

@[simp] theorem State.d2hDone_vital (s : State) (a : D2HAgent) (isRead : Bool) (data : List Byte) (poisoned : Bool) :
    (s.d2hDone a isRead data poisoned).vital = s.vital := by
  unfold State.d2hDone
  split
  · rfl
  · extract_lets c
    split
    · rfl
    · split
      · split <;> simp +zetaDelta
      · split
        · split <;> simp
        · split
          · simp
          · split
            next hg => exact State.gate_vital hg
            next =>
              split
              next hg => exact State.gate_vital hg
              next => simp
      · split
        · simp
        · extract_lets q
          split
          next hg => exact State.gate_vital hg
          next => simp

theorem sessFailWaiting_vital (s : State) (i : Nat) :
    (match (s.strand (fin32 i)).wait with
     | .slook _ _ _ pd => s.sessFail (fin32 i) pd
     | _ => s).vital = s.vital := by
  split <;> simp

@[simp] theorem State.d2hLate_vital (s : State) (a : D2HAgent) : (s.d2hLate a).vital = s.vital := by
  unfold State.d2hLate
  split
  · rfl
  · split
    · rfl
    · extract_lets s1 addr
      have h1 : s1.vital = s.vital := by simp [s1]
      split
      · extract_lets s2
        have h2 : s2.vital = s.vital := by
          unfold s2
          split <;> simp [h1]
        split <;> simp [h2]
      · split
        · refine (State.foldl_vital _ sessFailWaiting_vital _ _).trans ?_
          simp +zetaDelta
        · simp +zetaDelta
      · simp [h1]

@[simp] theorem State.bar2Refuse_vital (s : State) (off : Nat) (isWrite : Bool) :
    (State.bar2Refuse s off isWrite).vital = s.vital := by simp [State.bar2Refuse]

@[simp] theorem execBar2Read_keeps (off : Nat) (len : Nat) (ecc : Ecc) (s : State) :
    Keeps s (execBar2Read off len ecc s) := by
  unfold execBar2Read
  (repeat' split) <;> simp

@[simp] theorem State.bar2Put_vital (s : State) (off : Nat) (data : List Byte) (bad : Bool) :
    (s.bar2Put off data bad).vital = s.vital := by
  unfold State.bar2Put
  refine State.foldl_vital _ (fun s p => ?_) _ _
  split <;> simp

@[simp] theorem execBar2Write_keeps (off : Nat) (data : List Byte) (poisoned : Bool) (s : State) :
    Keeps s (execBar2Write off data poisoned s) := by
  unfold execBar2Write
  dsimp only
  (repeat' split) <;> simp

@[simp] theorem execHdmDecoderCommit_keeps (base size : Nat) (ways : Nat) (bi : Bool) (lock : Bool) (s : State) :
    Keeps s (execHdmDecoderCommit base size ways bi lock s) := by
  unfold execHdmDecoderCommit
  dsimp only
  (repeat' split) <;> simp

@[simp] theorem execD3hotEntry_keeps (s : State) : Keeps s (execD3hotEntry s) := by
  unfold execD3hotEntry
  split <;> simp

@[simp] theorem execD3hotExit_keeps (s : State) : Keeps s (execD3hotExit s) := by
  unfold execD3hotExit
  split <;> simp

@[simp] theorem State.doeRequest_vital (s : State) (r : DoeReq) :
    (State.doeRequest s r).vital = s.vital := by simp [State.doeRequest]

@[simp] theorem execDoeDiscovery_keeps (idx : Byte) (s : State) :
    Keeps s (execDoeDiscovery idx s) := by simp [execDoeDiscovery]

@[simp] theorem execSpdmRequest_keeps (req : List Byte) (s : State) :
    Keeps s (execSpdmRequest req s) := by simp [execSpdmRequest]

@[simp] theorem execCdatRead_keeps (entry : BitVec 16) (s : State) :
    Keeps s (execCdatRead entry s) := by simp [execCdatRead]

@[simp] theorem execDoeAbort_keeps (s : State) : Keeps s (execDoeAbort s) := by simp [execDoeAbort]

@[simp] theorem State.doeServe_vital (s : State) : (State.doeServe s).vital = s.vital := by
  unfold State.doeServe
  split <;> simp

@[simp] theorem State.setNvm_vital (s : State) (n : Nvm) : (State.setNvm s n).vital = s.vital := by simp [State.setNvm]

@[simp] theorem nvsStart_keeps (op : Nat) (w : NvsWork) (s : State) : Keeps s (nvsStart op w s) := by
  unfold nvsStart
  (repeat' split) <;> simp

@[simp] theorem execStore_keeps (s : State) : Keeps s (execStore s) := by simp [execStore]

@[simp] theorem execUpdate_keeps (s : State) : Keeps s (execUpdate s) := by simp [execUpdate]

@[simp] theorem execCompact_keeps (s : State) : Keeps s (execCompact s) := by simp [execCompact]

@[simp] theorem State.nvsDone_vital (s : State) (n : Nvm) (st err : Nat) :
    (State.nvsDone s n st err).vital = s.vital := by simp [State.nvsDone]

@[simp] theorem State.finishUpdate_vital (s : State) (a len : Nat) : (s.finishUpdate a len).vital = s.vital := by
  unfold State.finishUpdate
  split
  · simp
  · split
    next hg => exact State.gate_vital hg
    next =>
      dsimp only
      split
      · simp
      · split <;> simp

@[simp] theorem execNvsCommandComplete_keeps (s : State) : Keeps s (execNvsCommandComplete s) := by
  unfold execNvsCommandComplete
  dsimp only
  (repeat' split) <;> simp

end Sys2Proof.Machine
end

section
/-!
SUPPORT. The commands that waited and run again keep what is vital.
-/
namespace Sys2Proof.Machine

open Sys2Proof

@[simp] theorem Out1.or_le {s : State} (o : Out1) (h : KeepsLe s o) : VitalLe s.vital (Out1.or o s).vital := by
  obtain ⟨t, rfl, ht⟩ := h
  exact ht

theorem execMemwr_or_vital (hpa : Nat) (mv : Meta) (enable : BitVec 64) (data : List Byte) (q : WriteMark) (s : State) :
    (Out1.or (execMemwr hpa mv enable data q s) s).vital = s.vital := by
  by_cases hn : data.length = 64
  · obtain ⟨t, ht, hv⟩ := execMemwr_keeps hpa mv enable data q s hn
    rw [ht]
    exact hv
  · unfold execMemwr
    rw [if_pos hn]
    rfl

theorem State.runHeld_le (s : State) (c : Instr) : VitalLe s.vital (s.runHeld c).vital := by
  unfold State.runHeld
  cases c
  all_goals simp [execMemwr_or_vital]

@[simp] theorem State.rerunOnce_le {v : Vector (Word × Bool) 32 × Bool} (s : State) (h : VitalLe v s.vital) :
    VitalLe v s.rerunOnce.vital := by
  have hf : ∀ (l : List Instr) (t : State), VitalLe v t.vital → VitalLe v (l.foldl State.runHeld t).vital :=
    fun l t ht => State.foldl_le _ (fun s c hs => hs.trans (s.runHeld_le c)) l ht
  exact hf s.coh.held _ h

@[simp] theorem State.rerun_le {v : Vector (Word × Bool) 32 × Bool} (s : State) (h : VitalLe v s.vital) :
    VitalLe v (State.rerun s).vital := by
  unfold State.rerun
  dsimp only
  split <;> simp [h]

@[simp] theorem State.fatalNow_le {v : Vector (Word × Bool) 32 × Bool} (s : State) (level fid code addr info : Nat)
    (h : VitalLe v s.vital) : VitalLe v (s.fatalNow level fid code addr info).vital := by
  simp [State.fatalNow, h]

theorem State.seNext_le {s t : State} (h : VitalLe s.vital t.vital) : VitalLe s.vital (s.seNext t).vital := by
  unfold State.seNext
  split <;> simp [h]

@[simp] theorem execRecall_keepsLe (n : StrandId) (data : List Byte) (poisoned : Bool) (s : State) :
    KeepsLe s (execRecall n data poisoned s) :=
  (KeepsLe_next ..).2 (State.seNext_le (by simp))

@[simp] theorem execD2hCompletion_keepsLe (a : D2HAgent) (isRead : Bool) (data : List Byte) (poisoned : Bool) (s : State) :
    KeepsLe s (execD2hCompletion a isRead data poisoned s) :=
  (KeepsLe_next ..).2 (State.seNext_le (by simp))

@[simp] theorem execD2hTimeout_keepsLe (a : D2HAgent) (s : State) : KeepsLe s (execD2hTimeout a s) :=
  (KeepsLe_next ..).2 (State.seNext_le (by simp))

@[simp] theorem execBirsp_keepsLe (line : Nat) (s : State) : KeepsLe s (execBirsp line s) := by
  unfold execBirsp
  (repeat' split) <;> simp

@[simp] theorem execBiconflict_keeps (line : Nat) (s : State) : Keeps s (execBiconflict line s) := by
  unfold execBiconflict
  split <;> simp

@[simp] theorem execBisnpTimeout_keepsLe (line : Nat) (s : State) : KeepsLe s (execBisnpTimeout line s) := by
  unfold execBisnpTimeout
  split <;> simp

end Sys2Proof.Machine
end

section
/-!
SUPPORT. Power states, self-tests, function commands and the arbiters keep what is vital.
-/
namespace Sys2Proof.Machine

open Sys2Proof

@[simp] theorem State.dropAsleep_vital (s : State) : (State.dropAsleep s).vital = s.vital := by simp [State.dropAsleep]

@[simp] theorem State.modVsu_vital (s : State) (r : RegionId) (f : Vsu → Vsu) :
    (State.modVsu s r f).vital = s.vital := by simp [State.modVsu]

theorem regionWrite_keeps (r : RegionId) (s : State) (f : State → State) (hf : ∀ s, (f s).vital = s.vital) :
    Keeps s (regionWrite r s f) := by
  unfold regionWrite
  split
  · simp
  · split <;> simp [hf]

@[simp] theorem execVsuCommit_keeps (r : RegionId) (s : State) : Keeps s (execVsuCommit r s) :=
  regionWrite_keeps _ _ _ fun s => s.modVsu_vital _ _

@[simp] theorem State.libLoad_vital (s : State) (r : RegionId) (slot : Fin 32) (idx : Byte) (swap : Bool) :
    (State.libLoad s r slot idx swap).vital = s.vital := by
  unfold State.libLoad
  split <;> rfl

@[simp] theorem execVsuLibLoad_keeps (r : RegionId) (slot : Fin 32) (idx : Byte) (s : State) :
    Keeps s (execVsuLibLoad r slot idx s) :=
  regionWrite_keeps _ _ _ fun s => s.libLoad_vital _ _ _ _

@[simp] theorem execVsuLibLoadSwap_keeps (r : RegionId) (slot : Fin 32) (idx : Byte) (s : State) :
    Keeps s (execVsuLibLoadSwap r slot idx s) :=
  regionWrite_keeps _ _ _ fun s => s.libLoad_vital _ _ _ _

@[simp] theorem execVsuLibLoadComplete_keeps (r : RegionId) (s : State) : Keeps s (execVsuLibLoadComplete r s) := by
  unfold execVsuLibLoadComplete
  dsimp only
  (repeat' split) <;> simp

@[simp] theorem execWdtInvalidateEntry_keeps (i : Fin 4096) (s : State) : Keeps s (execWdtInvalidateEntry i s) := by
  unfold execWdtInvalidateEntry
  split <;> simp

@[simp] theorem execWdtInvalidateAll_keeps (s : State) : Keeps s (execWdtInvalidateAll s) := by
  unfold execWdtInvalidateAll
  split <;> simp

@[simp] theorem State.unhold_vital (s : State) (f : Nat) : (State.unhold s f).vital = s.vital := by simp [State.unhold]

/-- A strand put back to reset. -/
theorem State.setStrand_le {v : Vector (Word × Bool) 32 × Bool} {s : State} (n : StrandId) (x : Strand)
    (hx : x.zeros = (0, true)) (h : VitalLe v s.vital) : VitalLe v (s.setStrand n x).vital :=
  State.modStrand_le n (fun _ => x) hx h

@[simp] theorem State.clearStrand_le {v : Vector (Word × Bool) 32 × Bool} (s : State) (n : StrandId) (h : VitalLe v s.vital) :
    VitalLe v (s.clearStrand n).vital := by
  refine State.setStrand_le n {} (by decide) ?_
  simpa using h

@[simp] theorem State.loseDigest_vital (s : State) (n : StrandId) : (State.loseDigest s n).vital = s.vital := by
  unfold State.loseDigest
  split <;> rfl

@[simp] theorem State.clearEngine_vital (s : State) (e : EngineId) :
    (State.clearEngine s e).vital = s.vital := by simp [State.clearEngine]

@[simp] theorem State.coldRegion_le {v : Vector (Word × Bool) 32 × Bool} (s : State) (r : RegionId) (h : VitalLe v s.vital) :
    VitalLe v (s.coldRegion r).vital := by
  have h1 := State.foldl_le _ (fun s n hs => State.clearStrand_le s n hs) (regionStrands r) h
  simpa [State.coldRegion] using h1

@[simp] theorem State.unblockRegion_vital (s : State) (r : RegionId) :
    (State.unblockRegion s r).vital = s.vital := by simp [State.unblockRegion]

@[simp] theorem State.regionCmd_vital (s : State) (r : RegionId) (tgt : Nat) :
    (s.regionCmd r tgt).1.vital = s.vital := by
  unfold State.regionCmd
  extract_lets p q
  split
  · exact State.setPwr_vital ..
  · split <;> exact State.setPwr_vital ..

@[simp] theorem execPowerTransitionComplete_keepsLe (r : RegionId) (s : State) :
    KeepsLe s (execPowerTransitionComplete r s) := by
  unfold execPowerTransitionComplete
  extract_lets p s1 s2
  split
  · simp
  · have h1 : VitalLe s.vital s1.vital := by
      unfold s1
      split <;> simp
    have h2 : VitalLe s.vital s2.vital := by simpa [s2] using h1
    split <;> simp [h2]

@[simp] theorem State.setSelfref_vital (s : State) (r : RegionId) (v : BitVec 4) :
    (State.setSelfref s r v).vital = s.vital := by simp [State.setSelfref]

@[simp] theorem State.enterSelfref_vital (s : State) (r : RegionId) :
    (State.enterSelfref s r).vital = s.vital := by simp [State.enterSelfref]

@[simp] theorem State.leaveSelfref_le {v : Vector (Word × Bool) 32 × Bool} (s : State) (r : RegionId) (h : VitalLe v s.vital) :
    VitalLe v (s.leaveSelfref r).vital := by
  unfold State.leaveSelfref
  refine State.rerun_le _ ?_
  simpa using h

@[simp] theorem execSelfRefreshEntry_keepsLe (r : RegionId) (s : State) : KeepsLe s (execSelfRefreshEntry r s) := by
  unfold execSelfRefreshEntry
  (repeat' split) <;> simp

@[simp] theorem execSelfRefreshExit_keepsLe (r : RegionId) (s : State) : KeepsLe s (execSelfRefreshExit r s) := by
  unfold execSelfRefreshExit
  (repeat' split) <;> simp

@[simp] theorem State.applySelfref_le {v : Vector (Word × Bool) 32 × Bool} (s : State) (r : RegionId)
    (h : VitalLe v s.vital) :
    VitalLe v (State.applySelfref s r).vital := by
  unfold State.applySelfref
  dsimp only
  split <;> simp [h]

@[simp] theorem State.writeCtl_le {v : Vector (Word × Bool) 32 × Bool} (s : State) (r : RegionId) (w : Nat) (h : VitalLe v s.vital) :
    VitalLe v (s.writeCtl r w).vital := by
  unfold State.writeCtl
  extract_lets tgt p q t c
  have ht : t.vital = s.vital := State.setPwr_vital ..
  have hc : c.1.vital = s.vital := (State.regionCmd_vital ..).trans ht
  split
  · rwa [ht]
  · split
    · rwa [State.setPwr_vital, ht]
    · split
      · exact State.applySelfref_le _ _ (by rwa [hc])
      · rwa [hc]

@[simp] theorem setPs_keepsLe (r : RegionId) (tgt : Nat) (s : State) : KeepsLe s (setPs r tgt s) := by
  unfold setPs
  split <;> simp

@[simp] theorem execSetPs0_keepsLe (r : RegionId) (s : State) : KeepsLe s (execSetPs0 r s) := by simp [execSetPs0]

@[simp] theorem execSetPs1_keepsLe (r : RegionId) (s : State) : KeepsLe s (execSetPs1 r s) := by simp [execSetPs1]

@[simp] theorem execSetPs2_keepsLe (r : RegionId) (s : State) : KeepsLe s (execSetPs2 r s) := by simp [execSetPs2]

@[simp] theorem execSetPs3_keepsLe (r : RegionId) (s : State) : KeepsLe s (execSetPs3 r s) := by simp [execSetPs3]

@[simp] theorem execSetPs4_keepsLe (r : RegionId) (s : State) : KeepsLe s (execSetPs4 r s) := by simp [execSetPs4]

@[simp] theorem State.bistStart_vital (s : State) (kind target : Nat) :
    (State.bistStart s kind target).vital = s.vital := by simp [State.bistStart]

@[simp] theorem State.bistStat_vital (s : State) (st err : Nat) :
    (State.bistStat s st err).vital = s.vital := by simp [State.bistStat]

@[simp] theorem execRegionBist_keeps (r : RegionId) (s : State) : Keeps s (execRegionBist r s) := by
  unfold execRegionBist
  dsimp only
  (repeat' split) <;> simp

@[simp] theorem execMemoryBist_keeps (c : ChannelId) (s : State) : Keeps s (execMemoryBist c s) := by
  unfold execMemoryBist
  dsimp only
  (repeat' split) <;> simp

@[simp] theorem State.logBist_vital (s : State) (level kind target : Nat) :
    (State.logBist s level kind target).vital = s.vital := by simp [State.logBist]

@[simp] theorem State.defectRegion_le {v : Vector (Word × Bool) 32 × Bool} (s : State) (r : RegionId) (h : VitalLe v s.vital) :
    VitalLe v (s.defectRegion r).vital := by
  unfold State.defectRegion
  extract_lets s1
  rw [State.setPwr_vital]
  simp [s1, h]

@[simp] theorem State.unusable_vital (s : State) (c : Nat) :
    (State.unusable s c).vital = s.vital := by simp [State.unusable]

theorem openPort_vital (i : Nat) (s : State) :
    (s.modPort (fin12 i) fun x => if x.enable then { x with state := .down } else x).vital = s.vital := State.modPort_vital ..

@[simp] theorem execBistComplete_keepsLe (t : BistTarget) (pass : Bool) (s : State) :
    KeepsLe s (execBistComplete t pass s) := by
  unfold execBistComplete
  split
  · simp
  · split
    · extract_lets p
      split
      · simp
      · split
        · refine (KeepsLe_next ..).2 ?_
          rw [State.unblockRegion_vital, State.bistStat_vital, State.setPwr_vital]
          simp
        · simp
    · (repeat' split) <;> simp
    · split
      · simp
      · split
        · simp +zetaDelta
        · refine (KeepsLe_next ..).2 (.of_eq ?_)
          rw [State.setPwr_vital]
          exact State.vital_of rfl rfl
    · split
      · simp
      · split
        · simp +zetaDelta
        · refine (KeepsLe_next ..).2 (.of_eq ((State.forN_vital _ _ _ openPort_vital).trans ?_))
          exact State.vital_of rfl rfl

/-- What the emergency state does to one region. -/
theorem emergencyRegion_le {v : Vector (Word × Bool) 32 × Bool} (s : State) (r : RegionId) (b : BitVec 4) (p : Pwr)
    (h : VitalLe v s.vital) : VitalLe v (((s.coldRegion r).setSelfref r b).setPwr r p).vital := by
  rw [State.setPwr_vital, State.setSelfref_vital]
  exact State.coldRegion_le s r h

@[simp] theorem State.emergencyStop_le {v : Vector (Word × Bool) 32 × Bool} (s : State) (h : VitalLe v s.vital) :
    VitalLe v s.emergencyStop.vital := by
  unfold State.emergencyStop
  extract_lets s1
  have h1 : VitalLe v s1.vital := State.forN_le 8 _ (fun i s hs => emergencyRegion_le s (fin8 i) 0xF _ hs) h
  simpa using h1

@[simp] theorem State.thermal_le {v : Vector (Word × Bool) 32 × Bool} (s : State) (h : VitalLe v s.vital) :
    VitalLe v s.thermal.vital := by
  unfold State.thermal
  extract_lets p hot s1 s2
  have h2 : s2.vital = s.vital := by
    unfold s2
    split
    · simp +zetaDelta
    · split
      · exact State.vital_of rfl rfl
      · rfl
  split
  · exact State.rerun_le _ (State.emergencyStop_le _ (State.deviceFatal_le _ _ _ _ _ _ (by rwa [h2])))
  · rwa [h2]

theorem execThermalSample_keepsLe (tj : List Byte) (s : State) (hn : tj.length = 16) :
    KeepsLe s (execThermalSample tj s) := by
  unfold execThermalSample
  rw [if_neg (Classical.not_not.2 hn)]
  split
  · simp
  · exact (KeepsLe_next ..).2 (State.thermal_le _ (.refl _))

@[simp] theorem State.logUnwritten_vital (s : State) (e : EngineId) :
    (State.logUnwritten s e).vital = s.vital := by simp [State.logUnwritten]

@[simp] theorem State.resetLaunch_vital (s : State) (n : StrandId) : (State.resetLaunch s n).vital = s.vital := by
  unfold State.resetLaunch
  (repeat' split) <;> simp

@[simp] theorem State.emptyMailboxes_vital (s : State) (n : StrandId) :
    (State.emptyMailboxes s n).vital = s.vital := by simp [State.emptyMailboxes]

@[simp] theorem State.resetStrand_le {v : Vector (Word × Bool) 32 × Bool} (s : State) (n : StrandId)
    (h : VitalLe v s.vital) :
    VitalLe v (State.resetStrand s n).vital := by
  unfold State.resetStrand
  simp [h]

@[simp] theorem State.resetEngine_vital (s : State) (e : EngineId) :
    (State.resetEngine s e).vital = s.vital := by simp [State.resetEngine]

@[simp] theorem State.resetPort_vital (s : State) (p : PortId) :
    (State.resetPort s p).vital = s.vital := by simp [State.resetPort]

@[simp] theorem State.resetQe_vital (s : State) : (State.resetQe s).vital = s.vital := by simp [State.resetQe]

@[simp] theorem State.logBadTables_vital (s : State) :
    (State.logBadTables s).vital = s.vital := by simp [State.logBadTables]

@[simp] theorem State.resetSe_vital (s : State) : s.resetSe.vital = s.vital := by
  unfold State.resetSe
  extract_lets e s1 s2 n pages slots s3 s4
  have h1 : s1.vital = s.vital := State.meet_vital ..
  have h2 : s2.vital = s.vital := (State.meet_vital ..).trans h1
  have h3 : s3.vital = s.vital := (State.logBadTables_vital ..).trans h2
  have h4 : s4.vital = s.vital := (State.setSe_vital ..).trans h3
  simp [h4]

@[simp] theorem State.resetVsu_vital (s : State) (r : RegionId) :
    (State.resetVsu s r).vital = s.vital := by simp [State.resetVsu]

@[simp] theorem State.resetMc_vital (s : State) (m : McId) :
    (State.resetMc s m).vital = s.vital := by simp [State.resetMc]

@[simp] theorem State.resetFn_le {v : Vector (Word × Bool) 32 × Bool} (s : State) (g : Fn) (h : VitalLe v s.vital) :
    VitalLe v (s.resetFn g).vital := by
  cases g <;> simp [State.resetFn, h]

@[simp] theorem State.dropTables_vital (s : State) (f : Nat) :
    (State.dropTables s f).vital = s.vital := by simp [State.dropTables]

@[simp] theorem State.setFunc_vital (s : State) (st err f : Nat) (resetting : Option Byte) (due : Bool) :
    (State.setFunc s st err f resetting due).vital = s.vital := by simp [State.setFunc]

theorem fnCmd_keepsLe (c : FnCmd) (f : Byte) (s : State) (go : State → Fn → State)
    (hgo : ∀ t g, VitalLe t.vital (go t g).vital) : KeepsLe s (fnCmd c f s go) := by
  unfold fnCmd
  split
  · simp
  · split
    · simp
    · extract_lets e
      split
      · simp
      · split
        · simp
        · refine (KeepsLe_next ..).2 (.trans ?_ (hgo _ _))
          simp

theorem State.resetAsk_vital {s t : State} {g : Fn} (h : s.resetAsk g = some t) : t.vital = s.vital := by
  unfold State.resetAsk at h
  split at h
  · obtain ⟨rs, hr⟩ := List.exists_of_findSome?_eq_some h
    exact State.ask_vital hr.2
  · cases h

@[simp] theorem State.tryReset_le {v : Vector (Word × Bool) 32 × Bool} (s : State) (g : Fn) (h : VitalLe v s.vital) :
    VitalLe v (s.tryReset g).vital := by
  unfold State.tryReset
  split
  · simpa using h
  · split
    next ht => simpa [State.resetAsk_vital ht] using h
    next =>
      refine State.resetFn_le _ _ ?_
      simpa using h

@[simp] theorem execFuncReset_keepsLe (f : Byte) (s : State) : KeepsLe s (execFuncReset f s) :=
  fnCmd_keepsLe _ _ _ _ fun _ _ => State.tryReset_le _ _ (by simp)

@[simp] theorem State.disableFn_vital (s : State) (g : Fn) : (s.disableFn g).vital = s.vital := by
  cases g <;> simp [State.disableFn]

@[simp] theorem execFuncDisable_keepsLe (f : Byte) (s : State) : KeepsLe s (execFuncDisable f s) :=
  fnCmd_keepsLe _ _ _ _ fun t g => .of_eq (State.disableFn_vital t g)

@[simp] theorem State.enableFn_le {v : Vector (Word × Bool) 32 × Bool} (s : State) (g : Fn) (h : VitalLe v s.vital) :
    VitalLe v (s.enableFn g).vital := by
  cases g <;> simp [State.enableFn, h]

@[simp] theorem execFuncEnable_keepsLe (f : Byte) (s : State) : KeepsLe s (execFuncEnable f s) :=
  fnCmd_keepsLe _ _ _ _ fun _ _ => State.enableFn_le _ _ (.refl _)

@[simp] theorem State.serveFn_le {v : Vector (Word × Bool) 32 × Bool} (s : State) (g : Fn) (h : VitalLe v s.vital) :
    VitalLe v (s.serveFn g).vital := by
  cases g <;> simp [State.serveFn, h]

@[simp] theorem execFuncCommandComplete_keepsLe (s : State) : KeepsLe s (execFuncCommandComplete s) := by
  unfold execFuncCommandComplete
  split
  · simp
  · extract_lets f
    split
    next g _ _ =>
      extract_lets s1
      have h1 : VitalLe s.vital s1.vital := by
        unfold s1
        split <;> simp
      split <;> simp [h1]
    next => simp

@[simp] theorem State.egressGo_vital (s : State) (a : ArbId) :
    (State.egressGo s a).vital = s.vital := by simp [State.egressGo]

@[simp] theorem execArbiterGrant_keepsLe (a : ArbId) (pt : Fin 12) (reqs : List ArbReq) (s : State) :
    KeepsLe s (execArbiterGrant a pt reqs s) := by
  unfold execArbiterGrant
  split
  · simp
  · extract_lets t
    have ht : t.1.vital = s.vital := State.arbGrant_vital ..
    split
    · simp [ht]
    · rw [KeepsLe_next, State.egressGo_vital]
      exact .of_eq ht
    · simp [ht]

@[simp] theorem State.dropCopy_vital (s : State) : (State.dropCopy s).vital = s.vital := by simp [State.dropCopy]

@[simp] theorem State.watchdogFault_vital (s : State) (g : Fn) : (s.watchdogFault g).vital = s.vital := by
  cases g <;> simp [State.watchdogFault]

@[simp] theorem State.abandonHost_vital (s : State) (line len : Nat) : (s.abandonHost line len).vital = s.vital := by
  unfold State.abandonHost
  extract_lets here mine go s1 c s2
  have h1 : s1.vital = s.vital := by
    unfold s1
    split <;> simp
  have h2 : s2.vital = s.vital := Eq.trans (by simp [s2]) h1
  refine (State.foldl_vital _ (fun s c => ?_) _ _).trans h2
  split <;> simp

@[simp] theorem State.abandonInbound_vital (s : State) (a : Nat) :
    (State.abandonInbound s a).vital = s.vital := by simp [State.abandonInbound]

@[simp] theorem State.abandonFlow_vital (s : State) (egress p : PortId) :
    (State.abandonFlow s egress p).vital = s.vital := by simp [State.abandonFlow]

@[simp] theorem State.abandonSent_vital (s : State) (p : PortId) (e : EngineId) :
    (State.abandonSent s p e).vital = s.vital := by simp [State.abandonSent]

@[simp] theorem State.abandonEgress_vital (s : State) (a : ArbId) (g : Fn) : (s.abandonEgress a g).vital = s.vital := by
  unfold State.abandonEgress
  split
  · split <;> simp
  · rfl

@[simp] theorem State.abandonScrub_vital (s : State) (a : Nat) :
    (State.abandonScrub s a).vital = s.vital := by simp [State.abandonScrub]

@[simp] theorem execWatchdogBite_keepsLe (a : ArbId) (pt : Fin 12) (s : State) :
    KeepsLe s (execWatchdogBite a pt s) := by
  unfold execWatchdogBite
  extract_lets x
  split
  · simp
  · split
    · simp
    · extract_lets w info t
      have ht : t.vital = s.vital := by
        unfold t
        split <;> simp +zetaDelta
      clear_value w
      cases w <;> simp [ht]

end Sys2Proof.Machine
end

section
/-!
SUPPORT. Segments, resets, start-up, maintenance and the register writes keep what is vital.
-/
namespace Sys2Proof.Machine

open Sys2Proof

@[simp] theorem State.setSeg_vital (s : State) (n : Nat) (g : Seg) :
    (State.setSeg s n g).vital = s.vital := by simp [State.setSeg]

@[simp] theorem State.setMgt_vital (s : State) (m : Mgt) : (State.setMgt s m).vital = s.vital := by simp [State.setMgt]

@[simp] theorem State.segStat_vital (s : State) (st err : Nat) (work : Option (Nat × Bool)) :
    (State.segStat s st err work).vital = s.vital := by simp [State.segStat]

theorem State.segCmd_vital {s t : State} {q : BitVec 10} {op : Nat} (h : s.segCmd q op = some t) :
    t.vital = s.vital := by
  unfold State.segCmd at h
  split at h
  · cases h
  · cases h; simp

@[simp] theorem execSegmentOnline_keeps (q : BitVec 10) (s : State) : Keeps s (execSegmentOnline q s) := by
  unfold execSegmentOnline
  extract_lets n
  split
  · simp
  next u hu =>
    have hv := State.segCmd_vital hu
    split
    · simp [hv]
    · extract_lets g
      split
      · simp [hv]
      · split <;> simp [hv]

@[simp] theorem State.snoopSeg_vital (s : State) (n : Nat) :
    (State.snoopSeg s n).vital = s.vital := by simp [State.snoopSeg]

@[simp] theorem execSegmentOffline_keeps (q : BitVec 10) (s : State) : Keeps s (execSegmentOffline q s) := by
  unfold execSegmentOffline
  extract_lets n
  split
  · simp
  next u hu =>
    have hv := State.segCmd_vital hu
    (repeat' split) <;> simp [hv]

@[simp] theorem State.segUp_vital (s : State) (n : Nat) : (State.segUp s n).vital = s.vital := by simp [State.segUp]

@[simp] theorem State.segDown_vital (s : State) (n : Nat) :
    (State.segDown s n).vital = s.vital := by simp [State.segDown]

@[simp] theorem execSegmentCommandComplete_keeps (s : State) : Keeps s (execSegmentCommandComplete s) := by
  unfold execSegmentCommandComplete
  (repeat' split) <;> simp

@[simp] theorem State.stage_vital (s : State) : (State.stage s).vital = s.vital := by simp [State.stage]

/-- What a conventional reset leaves of what is vital: the strands as at reset, and the fatal state ended. -/
theorem State.conventional_vital (s : State) : s.conventional.vital = (Vector.replicate 32 (0, true), false) := by
  unfold State.conventional
  rw [State.stage_vital]
  refine Prod.ext (Vector.ext fun i hi => ?_) rfl
  simp only [State.vital, State.reset, Vector.getElem_map, Vector.getElem_replicate]
  decide

@[simp] theorem State.stopMc_vital (s : State) : (State.stopMc s).vital = s.vital := by
  unfold State.stopMc
  split <;> rfl

@[simp] theorem State.setBoard_vital (s : State) (b : Board) :
    (State.setBoard s b).vital = s.vital := by simp [State.setBoard]

/-- A conventional reset, or a command of the supplies that changes nothing vital. -/
def Restarts (s : State) (o : Out1) : Prop :=
  ∃ t, o = .next t ∧ (t.vital = s.vital ∨ t.vital = (Vector.replicate 32 (0, true), false))

@[simp] theorem Restarts_next (s t : State) :
    Restarts s (.next t) ↔ t.vital = s.vital ∨ t.vital = (Vector.replicate 32 (0, true), false) := by
  simp [Restarts]

theorem execPerstAssert_restarts (s : State) : Restarts s (execPerstAssert s) := by
  unfold execPerstAssert
  split
  · simp
  · exact (Restarts_next ..).2 (.inr ((State.setBoard_vital ..).trans (State.conventional_vital _)))

@[simp] theorem State.release_vital (s : State) : (State.release s).vital = s.vital := by simp [State.release]

@[simp] theorem State.tryRelease_vital (s : State) : (State.tryRelease s).vital = s.vital := by
  unfold State.tryRelease
  dsimp only
  split <;> rfl

@[simp] theorem execPerstRelease_keeps (s : State) : Keeps s (execPerstRelease s) := by
  unfold execPerstRelease
  split <;> simp

@[simp] theorem execMainPowerOn_keeps (s : State) : Keeps s (execMainPowerOn s) := by simp [execMainPowerOn]

theorem execMainPowerOff_restarts (s : State) : Restarts s (execMainPowerOff s) := by
  unfold execMainPowerOff
  split
  · simp
  · exact (Restarts_next ..).2 (.inr ((State.setBoard_vital ..).trans (State.conventional_vital _)))

theorem execAuxPowerRemoved_restarts (s : State) : Restarts s (execAuxPowerRemoved s) := by
  unfold execAuxPowerRemoved
  split
  · simp
  · exact (Restarts_next ..).2 (.inr ((State.setBoard_vital ..).trans (State.conventional_vital _)))

theorem execAuxPowerApplied_restarts (s : State) : Restarts s (execAuxPowerApplied s) := by
  unfold execAuxPowerApplied
  split
  · simp
  · exact (Restarts_next ..).2 (.inr ((State.setBoard_vital ..).trans (State.conventional_vital _)))

@[simp] theorem execTrialBootTimeout_keeps (s : State) : Keeps s (execTrialBootTimeout s) := by
  unfold execTrialBootTimeout
  split <;> simp

@[simp] theorem State.mcReady_vital (s : State) : (State.mcReady s).vital = s.vital := by simp [State.mcReady]

@[simp] theorem execMcReady_keeps (s : State) : Keeps s (execMcReady s) := by
  unfold execMcReady
  dsimp only
  (repeat' split) <;> simp

@[simp] theorem State.tryActive_le {v : Vector (Word × Bool) 32 × Bool} (s : State) (h : VitalLe v s.vital) :
    VitalLe v s.tryActive.vital := by
  unfold State.tryActive
  split
  · refine State.forN_le 8 _ (fun r s hs => State.applySelfref_le s _ hs) ?_
    rwa [State.setBoard_vital]
  · exact h

@[simp] theorem execLpddrTrainingComplete_keepsLe (failed : List ChannelId) (s : State) :
    KeepsLe s (execLpddrTrainingComplete failed s) := by
  unfold execLpddrTrainingComplete
  split <;> simp

@[simp] theorem execStartupSegmentOnline_keepsLe (s : State) : KeepsLe s (execStartupSegmentOnline s) := by
  unfold execStartupSegmentOnline
  split
  · simp
  · split
    · simp
    · extract_lets done
      have hd : ∀ t, VitalLe t.vital (done t).vital := fun t => State.tryActive_le _ (by simp)
      split
      · refine (KeepsLe_next ..).2 (.trans ?_ (hd _))
        simp
      · extract_lets u
        split
        · simp
        · split
          · refine (KeepsLe_next ..).2 (.trans ?_ (hd _))
            simp [u]
          · simp

/-- The strands of a reset of the units. -/
theorem VitalLe.replicate {v : Vector (Word × Bool) 32 × Bool} {b : Bool} (h : v.2 = true → b = true) :
    VitalLe v ((Vector.replicate 32 ({} : Strand)).map Strand.zeros, b) := by
  refine ⟨fun _ n => ?_, h⟩
  simp only [Vector.getElem_map, Vector.getElem_replicate]
  decide

@[simp] theorem State.resetUnits_le {v : Vector (Word × Bool) 32 × Bool} (s : State) (h : VitalLe v s.vital) :
    VitalLe v s.resetUnits.vital := by
  unfold State.resetUnits
  extract_lets s1
  have h1 : s1.vital = s.vital :=
    (State.dropTables_vital ..).trans ((State.dropTables_vital ..).trans (State.forN_vital _ 32 _ fun i s => by simp))
  clear_value s1
  rw [State.colSettle_vital, State.vital_mk]
  exact VitalLe.replicate fun hv => (congrArg (·.2) h1).trans (h.2 hv)

@[simp] theorem execCxlReset_keepsLe (memClr : Bool) (s : State) : KeepsLe s (execCxlReset memClr s) := by
  unfold execCxlReset
  split
  · simp
  · extract_lets s1
    have h1 : VitalLe s.vital s1.vital := State.resetUnits_le _ (.refl _)
    clear_value s1
    refine (KeepsLe_next ..).2 (State.rerun_le _ ?_)
    rwa [State.vital_mk, State.vital_fold]

@[simp] theorem execCxlResetComplete_keeps (s : State) : Keeps s (execCxlResetComplete s) := by
  unfold execCxlResetComplete
  (repeat' split) <;> simp

@[simp] theorem State.flrDone_le {v : Vector (Word × Bool) 32 × Bool} (s : State) (h : VitalLe v s.vital) :
    VitalLe v s.flrDone.vital := by
  unfold State.flrDone
  extract_lets s1
  have h1 : VitalLe v s1.vital := State.resetUnits_le _ h
  clear_value s1
  refine State.rerun_le _ ?_
  rwa [State.vital_mk, State.vital_fold]

@[simp] theorem execFlr_keepsLe (s : State) : KeepsLe s (execFlr s) := by
  unfold execFlr
  split <;> simp

@[simp] theorem State.mcIdle_vital (s : State) : (State.mcIdle s).vital = s.vital := by simp [State.mcIdle]

@[simp] theorem State.idle_le {v : Vector (Word × Bool) 32 × Bool} (s : State) (h : VitalLe v s.vital) :
    VitalLe v s.idle.vital := by
  unfold State.idle
  extract_lets s1 s2
  have h1 : VitalLe v s1.vital := by
    unfold s1
    split
    · exact State.flrDone_le _ h
    · exact h
  have h2 : VitalLe v s2.vital := by
    unfold s2
    split
    · exact State.rerun_le _ h1
    · exact h1
  rw [State.mcIdle_vital]
  split
  · simpa using h2
  · exact h2

@[simp] theorem execRefresh_keeps (c : ChannelId) (bank : Fin 16) (s : State) :
    Keeps s (execRefresh c bank s) := by simp [execRefresh]

@[simp] theorem execZqCalibration_keeps (c : ChannelId) (rank : Fin 2) (s : State) :
    Keeps s (execZqCalibration c rank s) := by simp [execZqCalibration]

@[simp] theorem execDqsOscillatorRead_keeps (c : ChannelId) (rank : Fin 2) (drift : Bool) (s : State) :
    Keeps s (execDqsOscillatorRead c rank drift s) := by simp [execDqsOscillatorRead]

@[simp] theorem execMr4Read_keeps (c : ChannelId) (code : BitVec 3) (s : State) : Keeps s (execMr4Read c code s) := by
  unfold execMr4Read
  split <;> simp

@[simp] theorem State.scrubFind_vital (s : State) (c g : Nat) (f : Finding) :
    (State.scrubFind s c g f).vital = s.vital := by
  unfold State.scrubFind
  dsimp only
  (repeat' split) <;> simp

@[simp] theorem execPatrolScrub_keeps (c : ChannelId) (found : List Finding) (written : List Nat) (s : State) :
    Keeps s (execPatrolScrub c found written s) := by
  unfold execPatrolScrub
  split <;> simp

@[simp] theorem execScratchpadScrub_keeps (r : RegionId) (bank : Fin 64) (word : Fin 12288) (ecc : Ecc) (s : State) :
    Keeps s (execScratchpadScrub r bank word ecc s) := by
  unfold execScratchpadScrub
  split <;> simp

@[simp] theorem execTelemetryLatch_keeps (t : TelSample) (s : State) : Keeps s (execTelemetryLatch t s) := by
  unfold execTelemetryLatch
  (repeat' split) <;> simp

@[simp] theorem execWearManagement_keeps (s : State) : Keeps s (execWearManagement s) := by
  unfold execWearManagement
  (repeat' split) <;> simp

@[simp] theorem execRegread_keeps (r : BusRead) (s : State) : Keeps s (execRegread r s) := by
  unfold execRegread
  dsimp only
  (repeat' split) <;> simp

@[simp] theorem execStatus_keeps (s : State) : Keeps s (execStatus s) := by
  unfold execStatus
  dsimp only
  split <;> simp

@[simp] theorem execSetdasa_keeps (q : Dasa) (s : State) : Keeps s (execSetdasa q s) := by
  unfold execSetdasa
  split <;> simp

@[simp] theorem execEntdaa_keeps (addr : BitVec 7) (s : State) : Keeps s (execEntdaa addr s) := by
  unfold execEntdaa
  split <;> simp

@[simp] theorem State.jtagBypass_vital (s : State) (tdi : Bool) :
    (State.jtagBypass s tdi).vital = s.vital := by simp [State.jtagBypass]

@[simp] theorem execBypass_keeps (tdi : Bool) (s : State) : Keeps s (execBypass tdi s) := by
  unfold execBypass
  split <;> simp

@[simp] theorem execIdcode_keeps (s : State) : Keeps s (execIdcode s) := by
  unfold execIdcode
  split <;> simp

@[simp] theorem execSamplePreload_keeps (q : Scan) (s : State) : Keeps s (execSamplePreload q s) := by
  unfold execSamplePreload
  split <;> simp

@[simp] theorem execExtest_keeps (q : Scan) (s : State) : Keeps s (execExtest q s) := by
  unfold execExtest
  (repeat' split) <;> simp

@[simp] theorem execDebugUnlock_keeps (token : List Byte) (s : State) : Keeps s (execDebugUnlock token s) := by
  unfold execDebugUnlock
  split <;> simp

@[simp] theorem State.run_vital (s : State) (f : State → Out1) (hf : Keeps s (f s)) : (s.run f).vital = s.vital := by
  obtain ⟨t, ht, hv⟩ := hf
  unfold State.run
  rw [ht]
  exact hv

@[simp] theorem State.run_le {v : Vector (Word × Bool) 32 × Bool} (s : State) (f : State → Out1) (hf : KeepsLe s (f s))
    (h : VitalLe v s.vital) : VitalLe v (s.run f).vital :=
  h.trans (Out1.or_le _ hf)

@[simp] theorem State.writeBist_vital (s : State) (w : Nat) :
    (State.writeBist s w).vital = s.vital := by simp [State.writeBist]

@[simp] theorem State.writePwr_le {v : Vector (Word × Bool) 32 × Bool} (s : State) (o w : Nat) (h : VitalLe v s.vital) :
    VitalLe v (s.writePwr o w).vital := by
  unfold State.writePwr
  dsimp only
  split
  · split
    · exact State.writeCtl_le _ _ _ h
    · exact h
  · split
    · exact h
    · split
      · exact h
      · split
        · split
          · exact State.thermal_le _ h
          · exact h
        · (repeat' split) <;> simpa using h

@[simp] theorem State.writeHdmControl_vital (s : State) (w : Nat) :
    (State.writeHdmControl s w).vital = s.vital := by simp [State.writeHdmControl]

@[simp] theorem State.writeHdm_vital (s : State) (o w : Nat) :
    (State.writeHdm s o w).vital = s.vital := by simp [State.writeHdm]

@[simp] theorem ErrLog.writeRas_fatal (e : ErrLog) (o w : Nat) : (e.writeRas o w).fatal = e.fatal := by
  unfold ErrLog.writeRas
  (repeat' split) <;> rfl

@[simp] theorem State.writeComponent_vital (s : State) (o w : Nat) : (s.writeComponent o w).vital = s.vital := by
  unfold State.writeComponent
  split
  · rw [State.vital_mk, ErrLog.writeRas_fatal, State.vital_fold]
  · split
    · exact State.writeHdm_vital ..
    · rfl

@[simp] theorem State.writeFunc_le {v : Vector (Word × Bool) 32 × Bool} (s : State) (o w : Nat)
    (h : VitalLe v s.vital) :
    VitalLe v (State.writeFunc s o w).vital := by
  unfold State.writeFunc
  split <;> simp [h]

@[simp] theorem State.writeErr_vital (s : State) (o w : Nat) :
    (State.writeErr s o w).vital = s.vital := by simp [State.writeErr]

@[simp] theorem State.writeArb_vital (s : State) (a : ArbId) (o w : Nat) :
    (State.writeArb s a o w).vital = s.vital := by simp [State.writeArb]

@[simp] theorem State.writeMbx_vital (s : State) (o w : Nat) :
    (State.writeMbx s o w).vital = s.vital := by simp [State.writeMbx]

@[simp] theorem State.writeQcmd_vital (s : State) (w : Nat) :
    (State.writeQcmd s w).vital = s.vital := by simp [State.writeQcmd]

@[simp] theorem State.writeQe_vital (s : State) (o w : Nat) :
    (State.writeQe s o w).vital = s.vital := by simp [State.writeQe]

@[simp] theorem State.writeSeCmd_vital (s : State) (w : Nat) :
    (State.writeSeCmd s w).vital = s.vital := by simp [State.writeSeCmd]

@[simp] theorem State.writeSe_vital (s : State) (o w : Nat) :
    (State.writeSe s o w).vital = s.vital := by simp [State.writeSe]

@[simp] theorem State.writeNvsCmd_vital (s : State) (w : Nat) :
    (State.writeNvsCmd s w).vital = s.vital := by simp [State.writeNvsCmd]

@[simp] theorem State.writeSegCmd_vital (s : State) (w : Nat) :
    (State.writeSegCmd s w).vital = s.vital := by simp [State.writeSegCmd]

@[simp] theorem State.writeWdt_vital (s : State) (w : Nat) :
    (State.writeWdt s w).vital = s.vital := by simp [State.writeWdt]

@[simp] theorem State.writeMgt_vital (s : State) (o w : Nat) :
    (State.writeMgt s o w).vital = s.vital := by simp [State.writeMgt]

@[simp] theorem State.flushMsix_vital (s : State) : (State.flushMsix s).vital = s.vital := by simp [State.flushMsix]

@[simp] theorem State.writeMsix_vital (s : State) (o w : Nat) :
    (State.writeMsix s o w).vital = s.vital := by simp [State.writeMsix]

@[simp] theorem State.writeCoh_vital (s : State) (o w : Nat) :
    (State.writeCoh s o w).vital = s.vital := by simp [State.writeCoh]

@[simp] theorem State.writeColCtl_vital (s : State) (p : PortId) (w : Nat) : (s.writeColCtl p w).vital = s.vital := by
  unfold State.writeColCtl
  extract_lets s1 s2
  have h1 : s1.vital = s.vital := State.run_vital _ _ (by split <;> simp)
  have h2 : s2.vital = s.vital := (State.run_vital _ _ (by split <;> simp)).trans h1
  split <;> simp [h2]

@[simp] theorem State.writePort_vital (s : State) (p : PortId) (o w : Nat) :
    (State.writePort s p o w).vital = s.vital := by simp [State.writePort]

@[simp] theorem State.writeLib_vital (s : State) (r : RegionId) (w : Nat) :
    (State.writeLib s r w).vital = s.vital := by simp [State.writeLib]

@[simp] theorem State.writeVsu_vital (s : State) (r : RegionId) (o w : Nat) :
    (State.writeVsu s r o w).vital = s.vital := by simp [State.writeVsu]

@[simp] theorem State.writeMc_vital (s : State) (m : McId) (o w : Nat) :
    (State.writeMc s m o w).vital = s.vital := by simp [State.writeMc]

@[simp] theorem State.writeEngine_vital (s : State) (e : EngineId) (o w : Nat) :
    (State.writeEngine s e o w).vital = s.vital := by
  unfold State.writeEngine
  split <;> rfl

@[simp] theorem State.writeRegion_vital (s : State) (r : RegionId) (o w : Nat) :
    (State.writeRegion s r o w).vital = s.vital := by simp [State.writeRegion]

@[simp] theorem State.writeWord_le {v : Vector (Word × Bool) 32 × Bool} (s : State) (off w : Nat)
    (h : VitalLe v s.vital) :
    VitalLe v (State.writeWord s off w).vital := by
  unfold State.writeWord
  simp [h]

@[simp] theorem State.writeWord64_le {v : Vector (Word × Bool) 32 × Bool} (s : State) (off : Nat) (x : Word64)
    (h : VitalLe v s.vital) : VitalLe v (s.writeWord64 off x).vital := by
  unfold State.writeWord64
  (repeat' split) <;> simp [h]

@[simp] theorem State.readBar0_vital (s : State) (off bytes : Nat) :
    (State.readBar0 s off bytes).vital = s.vital := by simp [State.readBar0]

@[simp] theorem execRegisterWrite_keepsLe (sp : RegSpace) (off bytes : Nat) (v : Word64) (s : State) :
    KeepsLe s (execRegisterWrite sp off bytes v s) := by
  unfold execRegisterWrite
  (repeat' split) <;> simp

end Sys2Proof.Machine
end

section
/-!
Every command completes or is ill-formed, and every step keeps the hard-wired registers and the device-fatal state.
-/
namespace Sys2Proof.Machine

open Sys2Proof

theorem execFlitReceive_answers (p : PortId) (bytes : List Byte) (fec : Fec) (s : State) :
    KeepsLe s (execFlitReceive p bytes fec s) ∨ execFlitReceive p bytes fec s = .fault .illFormed ∧ (bytes.length == 256) = false := by
  by_cases hn : bytes.length = 256
  · exact .inl (execFlitReceive_keeps p bytes fec s hn).le
  · exact .inr ⟨if_pos hn, beq_eq_false_iff_ne.2 hn⟩

theorem execMemwr_answers (hpa : Nat) (mv : Meta) (enable : BitVec 64) (data : List Byte) (q : WriteMark) (s : State) :
    KeepsLe s (execMemwr hpa mv enable data q s) ∨ execMemwr hpa mv enable data q s = .fault .illFormed ∧ (data.length == 64) = false := by
  by_cases hn : data.length = 64
  · exact .inl (execMemwr_keeps hpa mv enable data q s hn).le
  · exact .inr ⟨if_pos hn, beq_eq_false_iff_ne.2 hn⟩

theorem execThermalSample_answers (tj : List Byte) (s : State) :
    KeepsLe s (execThermalSample tj s) ∨ execThermalSample tj s = .fault .illFormed ∧ (tj.length == 16) = false := by
  by_cases hn : tj.length = 16
  · exact .inl (execThermalSample_keepsLe tj s hn)
  · exact .inr ⟨if_pos hn, beq_eq_false_iff_ne.2 hn⟩

/-- Every command but a conventional reset answers a state and keeps what is vital, or is ill-formed. -/
theorem exec_answers (c : Instr) (s : State) (hr : resets c = false) :
    KeepsLe s (exec c s) ∨ exec c s = .fault .illFormed ∧ c.shapeOk = false := by
  unfold exec
  cases c
  case perstAssert => cases hr
  case mainPowerOff => cases hr
  case auxPowerRemoved => cases hr
  case auxPowerApplied => cases hr
  case flitReceive p bytes fec => exact execFlitReceive_answers p bytes fec s
  case memwr hpa mv en data q => exact execMemwr_answers hpa mv en data q s
  case thermalSample tj => exact execThermalSample_answers tj s
  all_goals exact .inl (by simp)

/-- A conventional reset answers a state with the strands as at reset, or changes nothing vital. -/
theorem exec_restarts (c : Instr) (s : State) (hr : resets c = true) : Restarts s (exec c s) := by
  unfold resets at hr
  split at hr
  · exact execPerstAssert_restarts s
  · exact execMainPowerOff_restarts s
  · exact execAuxPowerRemoved_restarts s
  · exact execAuxPowerApplied_restarts s
  · cases hr

theorem State.hardwired_iff_vital (s : State) : s.hardwired ↔ ∀ n : StrandId, s.vital.1[n.val] = (0, true) := by
  refine forall_congr' fun n => ?_
  simp only [State.vital, Vector.getElem_map]
  change _ ↔ (s.strand n).zeros = _
  simp [Strand.zeros_eq]

theorem VitalLe.hardwired {s t : State} (h : VitalLe s.vital t.vital) (hs : s.hardwired) : t.hardwired :=
  t.hardwired_iff_vital.2 (h.1 (s.hardwired_iff_vital.1 hs))

/-- Also a conventional reset keeps the hard-wired registers. -/
theorem exec_hardwired {c : Instr} {s t : State} (hs : s.hardwired) (h : exec c s = .next t) : t.hardwired := by
  cases hr : resets c
  · obtain ⟨u, hu, hv⟩ | ⟨hu, -⟩ := exec_answers c s hr
    · cases hu.symm.trans h
      exact hv.hardwired hs
    · cases hu.symm.trans h
  · obtain ⟨u, hu, hv⟩ := exec_restarts c s hr
    cases hu.symm.trans h
    rcases hv with hv | hv
    · exact VitalLe.hardwired (.of_eq hv) hs
    · refine t.hardwired_iff_vital.2 fun n => ?_
      rw [hv]
      exact Vector.getElem_replicate _

/-- Past a command that is no conventional reset the device-fatal state stays. -/
theorem exec_stays_fatal {c : Instr} {s t : State} (hr : resets c = false) (hf : s.errlog.fatal = true)
    (h : exec c s = .next t) : t.errlog.fatal = true := by
  obtain ⟨u, hu, hv⟩ | ⟨hu, -⟩ := exec_answers c s hr
  · cases hu.symm.trans h
    exact hv.2 hf
  · cases hu.symm.trans h

theorem exec_next (c : Instr) (s : State) :
    (∃ t, exec c s = .next t) ∨ exec c s = .fault .illFormed ∧ c.shapeOk = false := by
  cases hr : resets c
  · exact (exec_answers c s hr).imp_left fun h => h.imp fun _ ht => ht.1
  · obtain ⟨t, ht, -⟩ := exec_restarts c s hr
    exact .inl ⟨t, ht⟩

theorem step_idle {s : State} (h : s.pending = []) : step s = .next s.idle := by
  rw [step, h]

/-- The command at the front runs on a state with the same vital parts. -/
theorem step_front {s : State} {c : Instr} {rest : List Instr} (h : s.pending = c :: rest) :
    ∃ u : State, u.vital = s.vital ∧ step s = exec c u :=
  ⟨{ s with pending := rest }, rfl, by rw [step, h]⟩

end Sys2Proof.Machine

open Sys2Proof Sys2Proof.Machine

/-- Settles O2: a command that is not ill-formed answers a state, and there is no other fault. -/
theorem everyCommandCompletes : Obligations.EveryCommandCompletes := by
  intro c s
  refine ⟨fun hw => ?_, fun f hf => ?_, fun r hr => ?_⟩
  · have hshape : c.shapeOk = true := (Bool.and_eq_true_iff.1 hw).2
    rcases exec_next c s with h | ⟨-, h⟩
    · exact h
    · exact absurd (hshape.symm.trans h) (by decide)
  · obtain ⟨t, h⟩ | ⟨h, hc⟩ := exec_next c s
    · cases h.symm.trans hf
    · cases h.symm.trans hf
      exact ⟨rfl, hc⟩
  · obtain ⟨t, h⟩ | ⟨h, -⟩ := exec_next c s
    all_goals
      rw [h] at hr
      cases hr

/-- Settles O58: by the step's command, or by the idle step. -/
theorem stepKeepsHardwired : Obligations.StepKeepsHardwired := by
  intro s t hs h
  cases hp : s.pending with
  | nil =>
    cases (step_idle hp).symm.trans h
    exact VitalLe.hardwired (State.idle_le s (.refl _)) hs
  | cons c rest =>
    obtain ⟨u, hu, hstep⟩ := step_front hp
    exact exec_hardwired (VitalLe.hardwired (.of_eq hu) hs) (hstep.symm.trans h)

/-- Settles O59: by the step's command, or by the idle step. -/
theorem fatalIsFinal : Obligations.FatalIsFinal := by
  intro s t hf hr h
  cases hp : s.pending with
  | nil =>
    cases (step_idle hp).symm.trans h
    exact (State.idle_le s (.refl _)).2 hf
  | cons c rest =>
    obtain ⟨u, hu, hstep⟩ := step_front hp
    exact exec_stays_fatal (hr c rest hp) ((congrArg (·.2) hu).trans hf) (hstep.symm.trans h)
end

section
/-!
The step and its command, the reset values, and the hard-wired destinations (08 R147).
-/
namespace Sys2Proof.Machine

open Sys2Proof

theorem Strand.s_eq_of_reg {x y : Strand} (h : ∀ i, x.reg i = y.reg i) : x.s = y.s := by
  refine Vector.ext fun i hi => ?_
  simpa [Strand.reg, List.getD, hi] using h i

theorem Strand.p_eq_of_pred {x y : Strand} (h : ∀ i, x.pred i = y.pred i) : x.p = y.p := by
  refine Vector.ext fun i hi => ?_
  simpa [Strand.pred, List.getD, hi] using h i

theorem reset_hardwired : State.reset.hardwired := by
  intro n
  revert n
  decide

end Sys2Proof.Machine

open Sys2Proof Sys2Proof.Machine

/-- Settles O1: a step is the meaning of its command. -/
theorem stepRunsFront : Obligations.StepRunsFront := fun _ _ => rfl

/-- Settles O6: the frame of these instructions leaves every other register, and the command keeps s0 and p0. -/
theorem zeroDestinations : Obligations.ZeroDestinations := by
  intro s n w hw hd hstays c hc k hk h
  obtain ⟨t, ht, -, -, -, hreg, hpred, -, -, hpc⟩ :=
    scalarFrame s n w c hc k hk (by rw [h, hstays]; rfl)
  obtain ⟨h0, p0⟩ := exec_hardwired hw ht n
  refine ⟨t, ht, Strand.s_eq_of_reg fun i => ?_, Strand.p_eq_of_pred fun i => ?_, h0, p0, hpc⟩
  · rcases Decidable.em (i = 0) with rfl | hi
    · rw [h0, (hw n).1]
    · exact hreg i (hd ▸ hi)
  · rcases Decidable.em (i = 0) with rfl | hi
    · rw [p0, (hw n).2]
    · exact hpred i (by rwa [hd])

/-- Settles O55: the registers read as the reset state has them. -/
theorem resetState : Obligations.ResetState := by
  refine ⟨by decide, by decide, by decide, by decide, by decide, by decide, by decide, by decide, by decide, by decide,
    reset_memory_wf, reset_hardwired, rfl, rfl⟩
end

section
/-!
In the device-fatal state the strands, the engines and the queue engine do nothing (15 R320).
-/
namespace Sys2Proof.Machine

open Sys2Proof

theorem State.unitsOn_fatal {s : State} (h : s.errlog.fatal = true) : s.unitsOn = false := by
  simp [State.unitsOn, h]

section
variable {s : State} (h : s.unitsOn = false)
include h

theorem State.going_off (n : StrandId) : s.going n = false := by
  simp [State.going, h]

theorem State.engGo_off (e : EngineId) : s.engGo e = false := by
  simp [State.engGo, h]

theorem State.issue_off (n : StrandId) (w : Word64) (op : Nat) (dec win : Bool) (body : Body) :
    s.issue n w op dec win body = s :=
  s.issue_idle n w op dec win body (s.mayIssue_off n w h)

theorem State.stepRun_off (e : EngineId) (st : Step512) (op : Nat) (dec : Bool) (body : SBody) :
    s.stepRun e st op dec body = s :=
  s.stepRun_idle e st op dec body (s.mayStep_off e st h)

theorem State.copyStep_off (e : EngineId) (r : StepRead) : s.copyStep e r = s := by
  unfold State.copyStep
  extract_lets st c i go
  rw [if_neg (by simp [s.mayStep_off e st h])]
  exact State.stepRun_off h ..

theorem State.loopIn_off : s.loopIn = s := by
  simp [State.loopIn, h]

theorem execCopy_off (e : EngineId) (r : StepRead) : execCopy e r s = .next s :=
  congrArg Host.Outcome.next ((congrArg State.loopIn (State.copyStep_off h e r)).trans (State.loopIn_off h))

theorem execNop_off (n : StrandId) (f : Fetched) : execNop n f s = .next s := by
  simp [execNop, s.mayIssue_off n f.word h, State.issue_off h]

theorem execRep_off (n : StrandId) (w : Word64) : execRep n w s = .next s := by
  simp [execRep, s.mayIssue_off n w h, State.issue_off h]

theorem execLaunchif_off (n : StrandId) (w : Word64) : execLaunchif n w s = .next s := by
  simp [execLaunchif, s.mayIssue_off n w h, State.issue_off h]

theorem exec_instruction_off (c : Instr) (hc : c.opcode.isSome = true) : exec c s = .next s := by
  cases c
  case nop n f => exact execNop_off h n f
  case launchif n w => exact execLaunchif_off h n w
  case rep n w => exact execRep_off h n w
  all_goals cases hc
  all_goals exact congrArg Host.Outcome.next (State.issue_off h ..)

theorem exec_step_off (c : Instr) (hc : c.stagingStep.isSome = true) : exec c s = .next s := by
  cases c
  case copy e r => exact execCopy_off h e r
  all_goals cases hc
  all_goals exact congrArg Host.Outcome.next (State.stepRun_off h ..)

theorem exec_proceed_off (n : StrandId) :
    ∀ c ∈ [Instr.stgwaitProceed n, .launchifSubmit n, .endComplete n, .waitaProceed n, .relComplete n,
          .barComplete n, .mbxwProceed n, .mbxrProceed n, .binaryLoad n], exec c s = .next s := by
  simp only [List.forall_mem_cons]
  refine ⟨?_, ?_, ?_, ?_, ?_, ?_, ?_, ?_, ?_, fun _ h => nomatch h⟩
  · change execStgwaitProceed n s = _
    unfold execStgwaitProceed
    dsimp only
    split <;> simp [State.going_off h]
  · change execLaunchifSubmit n s = _
    unfold execLaunchifSubmit
    split <;> simp [State.going_off h]
  · change execEndComplete n s = _
    simp [execEndComplete, State.going_off h]
  · change execWaitaProceed n s = _
    unfold execWaitaProceed
    dsimp only
    split <;> simp [State.going_off h]
  · change execRelComplete n s = _
    simp [execRelComplete, State.going_off h]
  · change execBarComplete n s = _
    unfold execBarComplete
    split <;> simp [h]
  · change execMbxwProceed n s = _
    unfold execMbxwProceed
    split <;> simp [State.going_off h]
  · change execMbxrProceed n s = _
    unfold execMbxrProceed
    split <;> simp [State.going_off h]
  · change execBinaryLoad n s = _
    unfold execBinaryLoad
    dsimp only
    split <;> simp [h]

theorem exec_burstWrite_off (q : BurstEnd) : exec (.burstWrite q) s = .next s := by
  change execBurstWrite q s = _
  unfold execBurstWrite State.burstWrite
  dsimp only
  split <;> simp [State.engGo_off h, State.loopIn_off h]

theorem exec_arrival_off (e : EngineId) : exec (.arrival e) s = .next s := by
  change execArrival e s = _
  unfold execArrival State.arrivalStep
  dsimp only
  split <;> simp [State.engGo_off h, State.loopIn_off h]

theorem exec_dispatch_off : exec .dispatch s = .next s := by
  change execDispatch s = _
  simp [execDispatch, h]

theorem exec_completionRecordWrite_off (cq : QueueId) : exec (.completionRecordWrite cq) s = .next s := by
  change execCompletionRecordWrite cq s = _
  unfold execCompletionRecordWrite
  dsimp only
  split <;> simp [h]
end

end Sys2Proof.Machine

open Sys2Proof Sys2Proof.Machine

/-- Settles O56: in the fatal state the units are not on, and each of these commands asks for them first. -/
theorem fatalStopsUnits : Obligations.FatalStopsUnits := by
  intro s hf
  have h : s.unitsOn = false := State.unitsOn_fatal hf
  exact ⟨fun c hc => hc.elim (exec_instruction_off h c) (exec_step_off h c), exec_proceed_off h,
    fun e found => ⟨exec_burstWrite_off h _, exec_arrival_off h e⟩, exec_dispatch_off h, exec_completionRecordWrite_off h⟩
end

section
/-!
The commands of the functions, their ends, their ids and the codes that refuse them (15 R315 to R318).
-/
namespace Sys2Proof.Machine

open Sys2Proof

/-! ### The commands -/

section
variable {s : State} {f : Byte} {g : Fn} (hg : (s.hostOn && s.func.state != 1) = true)
include hg

theorem fnCmd_refused {c : FnCmd} (go : State → Fn → State) {k : Nat} (hk : k ≠ 0) (hr : s.fnRefusal c f.toNat = k) :
    fnCmd c f s go = .next (s.setFunc 3 k f.toNat none false) := by
  simp only [Bool.and_eq_true, bne_iff_ne] at hg
  rw [fnCmd, if_neg (by simp [hg.1]), if_neg hg.2]
  dsimp only
  rw [hr, if_pos hk]

theorem fnCmd_accepted {c : FnCmd} (go : State → Fn → State) (hf : fnOf f.toNat = some g) (hr : s.fnRefusal c f.toNat = 0) :
    fnCmd c f s go = .next (go (s.setFunc 1 0 f.toNat none false) g) := by
  simp only [Bool.and_eq_true, bne_iff_ne] at hg
  rw [fnCmd, if_neg (by simp [hg.1]), if_neg hg.2]
  dsimp only
  rw [hr, if_neg (by simp), hf]

/-- An accepted reset is tried at once. -/
theorem execFuncReset_accepted (hf : fnOf f.toNat = some g) (hr : s.fnRefusal .reset f.toNat = 0) :
    exec (.funcReset f) s = .next ((s.setFunc 1 0 f.toNat (some f) false).tryReset g) := by
  rw [exec_funcReset, execFuncReset, fnCmd_accepted hg _ hf hr]
  rfl

theorem execFuncReset_refused {k : Nat} (hk : k ≠ 0) (hr : s.fnRefusal .reset f.toNat = k) :
    exec (.funcReset f) s = .next (s.setFunc 3 k f.toNat none false) := by
  rw [exec_funcReset, execFuncReset, fnCmd_refused hg _ hk hr]

end

theorem State.tryReset_done {s : State} {g : Fn} (hd : s.func.due = false) (hb : s.atBoundary g = true)
    (ha : s.resetAsk g = none) : s.tryReset g = s.resetFn g := by
  have hs : { s with func := { s.func with due := false } } = s := by rw [← hd]
  rw [State.tryReset, hb, ha]
  exact congrArg (State.resetFn · g) hs

theorem State.tryReset_due {s : State} {g : Fn} (hb : s.atBoundary g = false) :
    s.tryReset g = { s with func := { s.func with due := true } } := by
  rw [State.tryReset, hb]
  rfl

/-! ### The ids of Table 15.4 -/

theorem fnOf_eq_none_iff (k : Nat) (hk : k < 256) :
    fnOf k = none ↔ (0x4C ≤ k ∧ k < 0x50) ∨ (0x52 ≤ k ∧ k < 0x60) ∨ (0x68 ≤ k ∧ k < 0x80) ∨ 0xC0 ≤ k := by
  unfold fnOf
  (repeat' split) <;> simp <;> omega

theorem fnOf_code {k : Nat} {g : Fn} (h : fnOf k = some g) : g.code = k := by
  unfold fnOf at h
  (repeat' split at h) <;> cases h <;> simp [Fn.code, fin32, fin12, fin8, fin64] <;> omega

/-! ### FUNC_STATE: two bits of each function -/

/-- The digits d 0, …, d (n - 1) to base b, as the registers hold them. -/
def digitSum (b : Nat) (d : Nat → Nat) (n : Nat) : Nat := ((List.range n).map fun k => d k * b ^ k).foldl (· + ·) 0

theorem digitSum_succ (b : Nat) (d : Nat → Nat) (n : Nat) : digitSum b d (n + 1) = digitSum b d n + d n * b ^ n := by
  simp [digitSum, List.range_succ]

theorem digitSum_lt {b : Nat} {d : Nat → Nat} (hd : ∀ k, d k < b) (n : Nat) : digitSum b d n < b ^ n := by
  induction n with
  | zero => simp [digitSum]
  | succ n ih =>
    have hn : (d n + 1) * b ^ n ≤ b * b ^ n := Nat.mul_le_mul_right _ (hd n)
    rw [Nat.add_mul, Nat.one_mul] at hn
    rw [digitSum_succ, Nat.pow_succ']
    omega

theorem digitSum_digit {b : Nat} {d : Nat → Nat} (hd : ∀ k, d k < b) {i n : Nat} (hi : i < n) :
    digitSum b d n / b ^ i % b = d i := by
  have hb : 0 < b := Nat.zero_lt_of_lt (hd 0)
  induction n with
  | zero => cases hi
  | succ n ih =>
    rw [digitSum_succ]
    rcases Nat.lt_succ_iff_lt_or_eq.1 hi with hlt | rfl
    · obtain ⟨m, rfl⟩ := Nat.exists_eq_add_of_lt hlt
      have hsplit : d (i + m + 1) * b ^ (i + m + 1) = b ^ i * (b * (d (i + m + 1) * b ^ m)) := by
        rw [Nat.pow_succ, Nat.pow_add]
        ac_rfl
      rw [hsplit, Nat.add_mul_div_left _ _ (Nat.pow_pos hb), Nat.add_mul_mod_self_left]
      exact ih hlt
    · rw [Nat.add_mul_div_right _ _ (Nat.pow_pos hb), Nat.div_eq_of_lt (digitSum_lt hd i), Nat.zero_add,
        Nat.mod_eq_of_lt (hd i)]

theorem State.fnState_lt (s : State) (g : Fn) : s.fnState g < 4 := by
  unfold State.fnState
  (repeat' split) <;> omega

/-- The state of the function of an id, 0 where the id is reserved. -/
def State.fnStateOf (s : State) (k : Nat) : Nat := match fnOf k with | some g => s.fnState g | none => 0

theorem State.fnStateOf_lt (s : State) (k : Nat) : s.fnStateOf k < 4 := by
  unfold State.fnStateOf
  split
  · exact s.fnState_lt _
  · omega

theorem State.readWord_funcState (s : State) (j : Nat) (hj : j < 16) :
    s.readWord (0x20100 + 4 * j) = digitSum 4 (fun k => s.fnStateOf (16 * j + k)) 16 := by
  have hdiv : (0x20100 + 4 * j) / 0x10000 = 2 := by omega
  have hmod : (0x20100 + 4 * j) % 0x10000 = 0x100 + 4 * j := by omega
  have hoff : (0x100 + 4 * j - 0x100) / 4 = j := by omega
  have hread : s.readWord (0x20100 + 4 * j) = s.readFunc (0x100 + 4 * j) := by
    simp [State.readWord, hdiv, hmod]
  rw [hread, State.readFunc, if_neg (by omega), if_pos (by omega), hoff]
  rfl

/-! ### The codes of Table 15.6 -/

theorem State.fnBusy_iff (s : State) (c : FnCmd) (g : Fn) :
    s.fnBusy c g = true ↔ c ≠ .enable ∧ ((∃ r, g = .vsu r ∧ ∃ n ∈ regionStrands r, s.strandBusy n = true)
      ∨ (g = .se ∧ s.qe.launches ≠ []) ∨ ∃ m k, g = .mc m ∧ s.power.bistChannel = some k ∧ mcOfChannel k = m) := by
  unfold State.fnBusy
  rw [Bool.and_eq_true, bne_iff_ne]
  refine and_congr_right fun _ => ?_
  cases g with
  | mc m =>
    cases h : s.power.bistChannel
    · simp
    · simpa using eq_comm
  | _ => simp

theorem State.fnStateBad_iff (s : State) (c : FnCmd) (g : Fn) :
    s.fnStateBad c g = true ↔ (c = .enable ∧ s.fnDisabled g = false) ∨ (c = .disable ∧ s.fnFaulted g = true) := by
  cases c <;> simp [State.fnStateBad]

theorem State.fnAsleep_iff (s : State) (g : Fn) :
    s.fnAsleep g = true ↔ (∃ n, g = .strand n ∧ s.sleeping (regionOf n) = true)
      ∨ (∃ e, g = .engine e ∧ s.sleeping (engRegion e) = true) ∨ ∃ r, g = .vsu r ∧ s.sleeping r.val = true := by
  cases g <;> simp [State.fnAsleep]

theorem State.fnRefusal_of_fn {s : State} {f : Nat} {g : Fn} (c : FnCmd) (hfatal : s.errlog.fatal = false) (hf : fnOf f = some g) :
    s.fnRefusal c f = if s.fnBusy c g then 1 else if s.fnStateBad c g then 3 else if s.fnAsleep g then 4 else 0 := by
  rw [State.fnRefusal, hfatal, hf]
  rfl

/-! ### The end of a command -/

theorem execFuncCommandComplete_reset {s : State} {g : Fn} {b : Byte} (hg : (s.unitsOn && s.func.state == 1) = true)
    (hf : fnOf s.func.fid.toNat = some g) (hr : s.func.resetting = some b) (hd : s.func.due = false)
    (hw : s.writesSettled g = true) :
    exec .funcCommandComplete s = .next ((s.setFunc 2 0 s.func.fid.toNat none false).serveFn g) := by
  change execFuncCommandComplete s = _
  simp only [Bool.and_eq_true, beq_iff_eq] at hg
  simp [execFuncCommandComplete, hg, hf, hr, hd, hw]

theorem execFuncCommandComplete_other {s : State} (hg : (s.unitsOn && s.func.state == 1) = true)
    (hr : s.func.resetting = none) :
    exec .funcCommandComplete s = .next (s.setFunc 2 0 s.func.fid.toNat none false) := by
  change execFuncCommandComplete s = _
  simp only [Bool.and_eq_true, beq_iff_eq] at hg
  simp [execFuncCommandComplete, hg, hr]

end Sys2Proof.Machine

open Sys2Proof Sys2Proof.Machine

/-- Settles O37: the commands by their refusal, the ids by Table 15.4, FUNC_STATE by its digits. -/
theorem functionCommands : Obligations.FunctionCommands := by
  refine ⟨fun s f g hg hf => ⟨fun hr => ⟨fun hb ha => ?_, fun hb => ?_⟩, fun hr => fnCmd_accepted hg _ hf hr,
      fun hr => fnCmd_accepted hg _ hf hr⟩,
    fun s f hg k hk => ⟨execFuncReset_refused hg hk, fun hr => fnCmd_refused hg _ hk hr, fun hr => fnCmd_refused hg _ hk hr⟩,
    fun s g hg hf => ⟨execFuncCommandComplete_other hg, fun b hr hd hw => execFuncCommandComplete_reset hg hf hr hd hw⟩,
    fun f => ⟨fnOf_eq_none_iff _ f.isLt, fun g => fnOf_code, fun hf s => ?_⟩,
    fun s c f => ⟨fun hfatal => ?_, fun hfatal hf => ?_, fun g hfatal hf => ?_⟩⟩
  · rw [execFuncReset_accepted hg hf hr, State.tryReset_done rfl hb ha]
  · rw [execFuncReset_accepted hg hf hr, State.tryReset_due hb]
    rfl
  · have hlt : f.toNat < 256 := f.isLt
    rw [State.readWord_funcState s _ (by omega), digitSum_digit (fun k => s.fnStateOf_lt _) (by omega), Nat.div_add_mod,
      State.fnStateOf, hf]
  · rw [State.fnRefusal, hfatal]
    rfl
  · rw [State.fnRefusal, hfatal, hf]
    rfl
  · dsimp only
    rw [← State.fnBusy_iff, ← State.fnStateBad_iff, ← State.fnAsleep_iff, State.fnRefusal_of_fn c hfatal hf]
    refine ⟨fun h => ?_, fun h h' => ?_, fun h h' h'' => ?_, fun h h' h'' => ?_⟩ <;> simp [*]
end

section
/-!
The power states of a region, its self-refresh and self-tests, and the thermal limits (15 R308 to R314, R326, R327).
-/
namespace Sys2Proof.Machine

open Sys2Proof

/-! ### The registers of a region -/

theorem State.setPwr_setPwr (s : State) (r : RegionId) (x y : Pwr) : (s.setPwr r x).setPwr r y = s.setPwr r y := by
  simp [State.setPwr]

theorem State.setPwr_self (s : State) (r : RegionId) : s.setPwr r (s.region r.val) = s := by
  have h : s.power.regions.set r.val (s.region r.val) = s.power.regions := by
    refine Vector.ext fun i hi => ?_
    rw [Vector.getElem_set]
    split
    next e => subst e; simp [State.region, List.getD]
    next => rfl
  unfold State.setPwr
  rw [h]

theorem State.region_setPwr_ne (s : State) {r q : RegionId} (x : Pwr) (h : r ≠ q) :
    (s.setPwr r x).region q.val = s.region q.val := by
  have hv : r.val ≠ q.val := fun e => h (Fin.ext e)
  simp [State.region, State.setPwr, List.getD, hv]

theorem State.region_of_power {s t : State} (h : t.power = s.power) (r : Nat) : t.region r = s.region r := by
  unfold State.region
  rw [h]

/-- Whether a region is idle depends on its registers through its self-test alone. -/
theorem State.regionIdle_setPwr (s : State) (r : RegionId) (x : Pwr) (h : x.bist = (s.region r.val).bist) :
    (s.setPwr r x).regionIdle r = s.regionIdle r := by
  unfold State.regionIdle
  rw [State.region_setPwr, h]
  rfl

/-! ### The commands of the power states -/

/-- The control word of a command of a power state. -/
def goWord (s : State) (r : RegionId) (g : Nat) : Nat := g + 8 * b2n (s.region r.val).selfref + 0x80000000

theorem goWord_target (s : State) (r : RegionId) (g : Fin 5) : fld (goWord s r g) 0 3 = g.val := by
  unfold goWord fld
  cases (s.region r.val).selfref <;> simp [b2n] <;> omega

theorem goWord_selfref (s : State) (r : RegionId) (g : Fin 5) : bitAt (goWord s r g) 3 = (s.region r.val).selfref := by
  revert g
  unfold goWord
  cases (s.region r.val).selfref <;> decide

theorem goWord_go (s : State) (r : RegionId) (g : Fin 5) : bitAt (goWord s r g) 31 = true := by
  revert g
  unfold goWord
  cases (s.region r.val).selfref <;> decide

section
variable (s : State) (r : RegionId) (g : Fin 5)

/-- The region's registers once TARGET is written. -/
def State.aimed : Pwr := { s.region r.val with target := BitVec.ofNat 3 g.val }

theorem State.writeCtl_go (q : Pwr) (hq : q = s.aimed r g) :
    s.writeCtl r (goWord s r g) = if (s.region r.val).busy then s.setPwr r q else
      if ((s.setPwr r q).regionCmd r g.val).2 then ((s.setPwr r q).regionCmd r g.val).1.applySelfref r
      else ((s.setPwr r q).regionCmd r g.val).1 := by
  have hg : g.val < 5 := g.isLt
  have haim : ({ s.region r.val with selfref := (s.region r.val).selfref, target := BitVec.ofNat 3 g.val } : Pwr) = q := hq ▸ rfl
  unfold State.writeCtl
  rw [goWord_target, goWord_selfref, goWord_go]
  simp only [if_pos hg, if_neg (Nat.not_le.2 hg), haim]
  cases (s.region r.val).busy <;> rfl


/-- A command of a region whose TARGET is written: refused, or the region's state or a transition from it. -/
theorem regionCmd_setPwr (t : Nat) (q : Pwr) (hq : q.target = BitVec.ofNat 3 t) :
    (s.setPwr r q).regionCmd r t =
      if q.defect && t < 4 then (s.setPwr r { q with err := 3 }, false)
      else if 3 ≤ t && !(s.setPwr r q).regionIdle r then (s.setPwr r { q with err := 1 }, false)
      else (s.setPwr r (if q.state = t then { q with err := 0 } else startTransition { q with err := 0 } t), true) := by
  have hself : ({ q with target := BitVec.ofNat 3 t } : Pwr) = q := by rw [← hq]
  unfold State.regionCmd
  rw [State.region_setPwr]
  simp only [State.setPwr_setPwr, ← hq]

theorem regionCmd_aimed :
    (s.setPwr r (s.aimed r g)).regionCmd r g.val =
      if (s.region r.val).defect && g.val < 4 then (s.setPwr r { s.aimed r g with err := 3 }, false)
      else if 3 ≤ g.val && !s.regionIdle r then (s.setPwr r { s.aimed r g with err := 1 }, false)
      else (s.setPwr r (if (s.region r.val).state = g.val then { s.aimed r g with err := 0 }
        else startTransition { s.aimed r g with err := 0 } g.val), true) := by
  rw [regionCmd_setPwr s r g.val (s.aimed r g) rfl, s.regionIdle_setPwr r (s.aimed r g) rfl]
  rfl

theorem not_defect_bars (hd : (!(s.region r.val).defect || g.val == 4) = true) :
    ¬((s.region r.val).defect && decide (g.val < 4)) = true := by
  cases h : (s.region r.val).defect <;> simp_all

/-- SELFREF as it stands asks for nothing. -/
theorem applySelfref_same (t : State) (h : (t.region r.val).selfref = (t.region r.val).selfrefStat) : t.applySelfref r = t := by
  unfold State.applySelfref
  dsimp only
  rw [h]
  cases (t.region r.val).selfrefStat <;> rfl

theorem execSetPs_eq (hon : s.fabricOn = true) :
    exec ([Instr.setPs0 r, .setPs1 r, .setPs2 r, .setPs3 r, .setPs4 r][g.val]) s = .next (s.writeCtl r (goWord s r g)) := by
  have h : ∀ k, setPs r k s = .next (s.writeCtl r (goWord s r k)) := fun k => if_neg (by simp [hon])
  match g with
  | 0 => exact h 0
  | 1 => exact h 1
  | 2 => exact h 2
  | 3 => exact h 3
  | 4 => exact h 4

/-- GO while BUSY is 1 starts nothing. -/
theorem writeCtl_busy (hb : (s.region r.val).busy = true) :
    s.writeCtl r (goWord s r g) = s.setPwr r (s.aimed r g) := by
  rw [s.writeCtl_go r g _ rfl, if_pos hb]

section
variable (hb : (s.region r.val).busy = false)
include hb

theorem writeCtl_of_regionCmd {c : State × Bool} (hc : (s.setPwr r (s.aimed r g)).regionCmd r g.val = c) :
    s.writeCtl r (goWord s r g) = if c.2 then c.1.applySelfref r else c.1 := by
  rw [s.writeCtl_go r g _ rfl, if_neg (by simp [hb]), hc]

theorem writeCtl_defect (hd : (s.region r.val).defect = true) (hg : g.val < 4) :
    s.writeCtl r (goWord s r g) = s.setPwr r { s.aimed r g with err := 3 } :=
  writeCtl_of_regionCmd s r g hb ((regionCmd_aimed s r g).trans (if_pos (by simp [hd, hg])))

theorem writeCtl_active (hd : (!(s.region r.val).defect || g.val == 4) = true) (hg : 3 ≤ g.val)
    (hi : s.regionIdle r = false) :
    s.writeCtl r (goWord s r g) = s.setPwr r { s.aimed r g with err := 1 } :=
  writeCtl_of_regionCmd s r g hb ((regionCmd_aimed s r g).trans
    ((if_neg (not_defect_bars s r g hd)).trans (if_pos (by simp [hg, hi]))))

theorem writeCtl_legal (hsr : (s.region r.val).selfref = (s.region r.val).selfrefStat)
    (hd : (!(s.region r.val).defect || g.val == 4) = true) (hi : (g.val < 3 || s.regionIdle r) = true) :
    s.writeCtl r (goWord s r g) = s.setPwr r (if (s.region r.val).state = g.val then { s.aimed r g with err := 0 }
      else startTransition { s.aimed r g with err := 0 } g.val) := by
  have hidle : ¬(decide (3 ≤ g.val) && !s.regionIdle r) = true := by
    cases h : s.regionIdle r <;> simp_all
  refine (writeCtl_of_regionCmd s r g hb ((regionCmd_aimed s r g).trans
    ((if_neg (not_defect_bars s r g hd)).trans (if_neg hidle)))).trans (applySelfref_same r _ ?_)
  rw [State.region_setPwr]
  split <;> exact hsr

end

end

/-! ### Self-refresh and the end of a transition -/

@[simp] theorem State.setSelfref_power (s : State) (r : RegionId) (v : BitVec 4) : (s.setSelfref r v).power = s.power := by
  unfold State.setSelfref
  induction regionMcs r generalizing s with
  | nil => rfl
  | cons m ms ih =>
    rw [List.foldl_cons, ih]
    split <;> rfl

@[simp] theorem State.setSelfref_mem (s : State) (r : RegionId) (v : BitVec 4) : (s.setSelfref r v).mem = s.mem := by
  unfold State.setSelfref
  induction regionMcs r generalizing s with
  | nil => rfl
  | cons m ms ih =>
    rw [List.foldl_cons, ih]
    split <;> rfl

/-- A controller's self-refresh set, as setSelfref does for each of a region. -/
def State.refreshMc (s : State) (v : BitVec 4) (m : McId) : State :=
  if (s.mc m).resetting then s else s.setMc m { s.mc m with selfref := v }

theorem State.refreshMc_mc (s : State) (v : BitVec 4) (m k : McId) :
    ((s.refreshMc v m).mc k).resetting = (s.mc k).resetting
      ∧ ((s.mc k).resetting = false → (s.mc k).selfref = v ∨ k = m → ((s.refreshMc v m).mc k).selfref = v) := by
  unfold State.refreshMc
  by_cases hk : m = k
  · subst hk
    cases h : (s.mc m).resetting <;> simp [h]
  · cases h : (s.mc m).resetting <;> simp [State.mc_setMc_ne _ _ hk, Ne.symm hk]

theorem State.refreshMc_foldl (s : State) (v : BitVec 4) (ms : List McId) (k : McId) (hr : (s.mc k).resetting = false)
    (hk : (s.mc k).selfref = v ∨ k ∈ ms) : ((ms.foldl (fun s m => s.refreshMc v m) s).mc k).selfref = v := by
  induction ms generalizing s with
  | nil => simpa using hk
  | cons m ms ih =>
    obtain ⟨hreset, hself⟩ := s.refreshMc_mc v m k
    refine ih _ (hreset.trans hr) ?_
    rcases hk with h | h
    · exact .inl (hself hr (.inl h))
    · exact (List.mem_cons.1 h).imp_left fun e => hself hr (.inr e)

theorem State.setSelfref_mc (s : State) (r : RegionId) (v : BitVec 4) (m : McId) (hm : m ∈ regionMcs r)
    (hr : (s.mc m).resetting = false) : ((s.setSelfref r v).mc m).selfref = v :=
  s.refreshMc_foldl v (regionMcs r) m hr (.inr hm)

section
variable (s : State) (r : RegionId)

theorem execPowerTransitionComplete_ends (hon : s.unitsOn = true) (hb : (s.region r.val).busy = true) :
    let p := s.region r.val
    let u := if p.goal = 4 ∨ p.state = 4 then s.coldRegion r else s
    let t := (u.setPwr r { p with state := p.goal, busy := false }).sequencerReads r
    exec (.powerTransitionComplete r) s = .next (if 3 ≤ p.state ∧ p.goal ≤ 2 then t.unblockRegion r else t) := by
  change execPowerTransitionComplete r s = _
  rw [execPowerTransitionComplete, if_neg (by simp [hon, hb])]

variable (hon : s.fabricOn = true) (hb : (s.region r.val).busy = false)
include hon hb

omit hon hb in
theorem State.enterSelfref_mcs : (s.enterSelfref r).mcs = (s.setSelfref r 0xF).mcs := State.setPwr_mcs ..

omit hon hb in
theorem State.enterSelfref_mem : (s.enterSelfref r).mem = s.mem :=
  (State.setPwr_mem ..).trans (State.setSelfref_mem ..)

omit hon hb in
theorem State.enterSelfref_mc (m : McId) (hm : m ∈ regionMcs r) (hr : (s.mc m).resetting = false) :
    ((s.enterSelfref r).mc m).selfref = 0xF := by
  rw [State.mc, State.enterSelfref_mcs]
  exact s.setSelfref_mc r 0xF m hm hr

theorem exec_selfRefreshEntry : exec (.selfRefreshEntry r) s = .next (s.enterSelfref r) := by
  change execSelfRefreshEntry r s = _
  rw [execSelfRefreshEntry, if_neg (by simp [hon]), if_neg (by simp [hb])]

theorem exec_selfRefreshExit : exec (.selfRefreshExit r) s = .next (s.leaveSelfref r) := by
  change execSelfRefreshExit r s = _
  rw [execSelfRefreshExit, if_neg (by simp [hon]), if_neg (by simp [hb])]

end

/-! ### Self-tests -/

section
variable (s : State) (r : RegionId) (c : ChannelId)

theorem exec_regionBist (hon : s.fabricOn = true) (hfree : s.power.bistState ≠ 1)
    (hi : (s.regionIdle r && !s.sleeping r.val) = true) :
    exec (.regionBist r) s
      = .next (((s.bistStart 1 r.val).setPwr r { s.region r.val with bist := true }).bistStat 1 0) := by
  rw [Bool.and_eq_true, Bool.not_eq_true'] at hi
  have hidle : (s.bistStart 1 r.val).regionIdle r = true := hi.1
  have hawake : (s.bistStart 1 r.val).sleeping r.val = false := hi.2
  change execRegionBist r s = _
  rw [execRegionBist, if_neg (by simp [hon]), if_neg hfree]
  dsimp only
  rw [hidle, hawake]
  rfl

theorem exec_memoryBist (hon : s.fabricOn = true) (hfree : s.power.bistState ≠ 1) (hu : s.channelUsed c.val = false) :
    exec (.memoryBist c) s = .next { (s.bistStart 2 c.val).bistStat 1 0 with
      power := { ((s.bistStart 2 c.val).bistStat 1 0).power with bistChannel := some c.val } } := by
  have hunused : (s.bistStart 2 c.val).channelUsed c.val = false := hu
  change execMemoryBist c s = _
  rw [execMemoryBist, if_neg (by simp [hon]), if_neg hfree]
  dsimp only
  rw [hunused]
  rfl

theorem exec_bistComplete_region (pass : Bool) (hon : s.unitsOn = true) (hb : (s.region r.val).bist = true)
    (hs : s.power.bistState = 1) :
    exec (.bistComplete (.region r) pass) s = .next (if pass then
        (((s.coldRegion r).setPwr r { s.region r.val with bist := false }).bistStat 2 0).unblockRegion r
      else (s.defectRegion r).bistStat 3 0x10) := by
  change execBistComplete (.region r) pass s = _
  unfold execBistComplete
  rw [if_neg (by simp [hon])]
  dsimp only
  rw [if_neg (by simp [hb, hs])]
  cases pass <;> rfl

theorem State.bistStat_region (st err k : Nat) : (s.bistStat st err).region k = s.region k := rfl

theorem exec_bistComplete_channel (hon : s.unitsOn = true) (hc : s.power.bistChannel = some c.val) :
    exec (.bistComplete (.channel c) true) s = .next (s.bistStat 2 0) := by
  change execBistComplete (.channel c) true s = _
  simp [execBistComplete, hon, hc]

end

/-! ### A region that loses its power -/

theorem State.clearStrand_power (s : State) (n : StrandId) : (s.clearStrand n).power = s.power := rfl

theorem State.stgOutcome_power (s : State) (e : EngineId) (ok : Bool) : (s.stgOutcome e ok).power = s.power := rfl

theorem State.loseDigest_power (s : State) (n : StrandId) : (s.loseDigest n).power = s.power := by
  unfold State.loseDigest
  split <;> rfl

theorem State.colSettle_power (s : State) : s.colSettle.power = s.power := by
  unfold State.colSettle
  split <;> rfl

theorem State.clearEngine_power (s : State) (e : EngineId) : (s.clearEngine e).power = s.power := by
  unfold State.clearEngine
  extract_lets x t
  have ht : t.power = s.power := by
    unfold t
    split <;> rfl
  exact (State.colSettle_power _).trans ((State.loseDigest_power _ _).trans ht)

theorem State.foldl_power {α : Type} (f : State → α → State) (hf : ∀ s a, (f s a).power = s.power) (l : List α) (s : State) :
    (l.foldl f s).power = s.power := by
  induction l generalizing s with
  | nil => rfl
  | cons a l ih => exact (ih _).trans (hf s a)

theorem State.coldRegion_power (s : State) (r : RegionId) : (s.coldRegion r).power = s.power := by
  have h1 : ((regionStrands r).foldl (fun s n => s.clearStrand n) s).power = s.power :=
    State.foldl_power _ (fun s n => s.clearStrand_power n) _ _
  unfold State.coldRegion
  extract_lets s1 s2 s3 s4
  have h2 : s2.power = s1.power := State.foldl_power _ (fun s e => s.clearEngine_power e) _ _
  have h4 : s4.power = s3.power := State.foldl_power _ (fun s b => State.setBlock_power s b {}) _ _
  have h3 : s3.power = s2.power := State.setVsu_power ..
  rw [State.zeroFill_power, State.zeroFill_power, h4, h3, h2]
  exact h1

/-! ### The thermal limits -/

theorem hottest_lt (tj : List Byte) : (hottest tj).1 < 256 := by
  have h : ∀ (l : List (Nat × Byte)) (b : Nat × Nat), b.1 < 256 →
      (l.foldl (fun b p => if b.1 < p.2.toNat then (p.2.toNat, p.1) else b) b).1 < 256 := by
    intro l
    induction l with
    | nil => exact fun b hb => hb
    | cons p l ih =>
      intro b hb
      refine ih _ ?_
      dsimp only
      split
      · exact p.2.isLt
      · exact hb
  exact h _ _ (by decide)

/-- TJ_MAX and the sensor that read it. -/
def State.sampled (s : State) (tj : List Byte) : State :=
  { s with power := { s.power with tjMax := BitVec.ofNat 8 (hottest tj).1, sensor := (hottest tj).2 } }

theorem State.sampled_tjMax (s : State) (tj : List Byte) : (s.sampled tj).power.tjMax.toNat = (hottest tj).1 := by
  have h := hottest_lt tj
  simp [State.sampled, Nat.mod_eq_of_lt h]

theorem exec_thermalSample {s : State} {tj : List Byte} (hn : tj.length = 16) (hon : s.chipOn = true) :
    exec (.thermalSample tj) s = .next (s.sampled tj).thermal := by
  change execThermalSample tj s = _
  rw [execThermalSample, if_neg (by simp [hn]), if_neg (by simp [hon])]
  rfl

/-- Readings below both limits do nothing. -/
theorem State.thermal_cool {s : State} (hw : s.power.tjMax.toNat < s.power.tjWarn.toNat)
    (hc : s.power.tjMax.toNat < s.power.tjCrit.toNat) (hh : s.power.warnHeld = false) : s.thermal = s := by
  have hheld : { s with power := { s.power with warnHeld := false } } = s := by rw [← hh]
  unfold State.thermal
  simp only [hheld, ite_self, decide_eq_false (Nat.not_le.2 hw), decide_eq_false (Nat.not_le.2 hc), Bool.false_and,
    Bool.false_eq_true, if_false]

/-- What TJ_WARN does before TJ_CRIT is asked. -/
def State.warned (s : State) : State :=
  if s.power.tjWarn.toNat ≤ s.power.tjMax.toNat && !s.power.warnHeld then
    ({ s with power := { s.power with warnPend := true, warnHeld := true } }.logEv 4 3 0xFF 0x12 0
      (State.thermInfo { s with power := { s.power with warnPend := true, warnHeld := true } })).sendMsix s.power.vector.toNat
  else if s.power.tjMax.toNat + 3 ≤ s.power.tjWarn.toNat then { s with power := { s.power with warnHeld := false } }
  else s

theorem State.thermal_critical {s : State} (hc : s.power.tjCrit.toNat ≤ s.power.tjMax.toNat) (he : s.power.emergency = false) :
    s.thermal = (s.warned.deviceFatal 3 0xFF 0x13 0 s.warned.thermInfo).emergencyStop.rerun :=
  if_pos (by simp [hc, he])

theorem State.vital_fatal (s : State) : s.vital.2 = s.errlog.fatal := rfl

theorem State.deviceFatal_fatal (s : State) (level fid code addr info : Nat) :
    (s.deviceFatal level fid code addr info).errlog.fatal = true := by
  unfold State.deviceFatal
  extract_lets t sent t1 c d cfg hs el t2
  split
  next h => exact (State.logEv_errlog_fatal ..).trans h
  next =>
    have h2 : t2.vital = (t1.strands.map Strand.zeros, true) := by simp [t2, el]
    rw [← State.vital_fatal, State.forN_vital, h2]
    intro i s
    split <;> simp

/-- One region of the emergency state. -/
def State.emergencyRegion (s : State) (i : Nat) : State :=
  ((s.coldRegion (fin8 i)).setSelfref (fin8 i) 0xF).setPwr (fin8 i)
    { ((s.coldRegion (fin8 i)).setSelfref (fin8 i) 0xF).region i with state := 5, selfrefStat := true, busy := false, bist := false }

theorem State.emergencyRegion_other (s : State) (i : Nat) (q : RegionId) (h : fin8 i ≠ q) :
    (s.emergencyRegion i).region q.val = s.region q.val := by
  refine (State.region_setPwr_ne _ _ h).trans (State.region_of_power ?_ _)
  rw [State.setSelfref_power, State.coldRegion_power]

theorem State.emergencyRegions (s : State) (k : Nat) (hk : k ≤ 8) (q : RegionId) (hq : q.val < k) :
    ((s.forN k fun i s => s.emergencyRegion i).region q.val).state = 5
      ∧ ((s.forN k fun i s => s.emergencyRegion i).region q.val).selfrefStat = true := by
  induction k with
  | zero => exact absurd hq (Nat.not_lt_zero _)
  | succ k ih =>
    have hsucc : (s.forN (k + 1) fun i s => s.emergencyRegion i) = (s.forN k fun i s => s.emergencyRegion i).emergencyRegion k := by
      simp [State.forN, List.range_succ]
    rw [hsucc]
    by_cases hkq : fin8 k = q
    · subst hkq
      rw [State.emergencyRegion, State.region_setPwr]
      exact ⟨rfl, rfl⟩
    · rw [State.emergencyRegion_other _ _ _ hkq]
      refine ih (by omega) (Nat.lt_of_le_of_ne (Nat.le_of_lt_succ hq) fun e => hkq (Fin.ext ?_))
      simp [fin8, e]
      omega

theorem State.region_emergency (s : State) (b : Bool) (r : Nat) :
    ({ s with power := { s.power with emergency := b } } : State).region r = s.region r := rfl

theorem State.emergencyStop_emergency (s : State) : s.emergencyStop.power.emergency = true := by
  unfold State.emergencyStop
  rfl

theorem State.emergencyStop_region (s : State) (q : RegionId) :
    (s.emergencyStop.region q.val).state = 5 ∧ (s.emergencyStop.region q.val).selfrefStat = true := by
  have h := s.emergencyRegions 8 (Nat.le_refl 8) q q.isLt
  unfold State.emergencyStop
  dsimp only
  rw [State.region_emergency]
  exact h

theorem State.emergencyStop_fatal {s : State} (h : s.errlog.fatal = true) : s.emergencyStop.errlog.fatal = true := by
  rw [← State.vital_fatal]
  exact (s.emergencyStop_le (.refl _)).2 h

end Sys2Proof.Machine

open Sys2Proof Sys2Proof.Machine

/-- Settles O36: the power commands by writeCtl, the ends and self-tests by their equations, the limits by thermal. -/
theorem regionPower : Obligations.RegionPower := by
  refine ⟨fun s r g => ?commands, fun s r => ?ends, fun s r c => ?tests, fun s tj hn hon => ?limits⟩
  case commands =>
    intro c p set hon
    have hc : exec c s = .next (s.writeCtl r (goWord s r g)) := execSetPs_eq s r g hon
    refine ⟨fun hb => hc.trans (congrArg _ (writeCtl_busy s r g hb)), fun hb hsr =>
      ⟨fun hd hg => hc.trans (congrArg _ (writeCtl_defect s r g hb hd hg)),
       fun hd hg hi => hc.trans (congrArg _ (writeCtl_active s r g hb hd hg hi)), fun hd hi => ?_⟩⟩
    have hlegal := hc.trans (congrArg _ (writeCtl_legal s r g hb hsr hd hi))
    exact ⟨fun hst => by rw [hlegal, if_pos hst]; rfl, fun hst => by rw [hlegal, if_neg hst]; rfl⟩
  case ends =>
    refine ⟨execPowerTransitionComplete_ends s r, fun hon hb => ⟨⟨_, exec_selfRefreshEntry s r hon hb, ?_, ?_,
      State.enterSelfref_mc s r, State.enterSelfref_mem s r⟩, exec_selfRefreshExit s r hon hb⟩⟩
    all_goals rw [State.enterSelfref, State.region_setPwr]
  case tests =>
    refine ⟨fun hon hfree => ⟨fun hi => ⟨_, exec_regionBist s r hon hfree hi,
        congrArg Pwr.bist (State.region_setPwr (s.bistStart 1 r.val) r _), rfl, rfl, rfl, rfl⟩,
      fun hu => ⟨_, exec_memoryBist s c hon hfree hu, rfl, rfl, rfl, rfl⟩⟩,
      fun hon hb hs => ⟨exec_bistComplete_region s r true hon hb hs,
        _, exec_bistComplete_region s r false hon hb hs, ?_, ?_, rfl, rfl⟩, exec_bistComplete_channel s c⟩
    all_goals rw [if_neg Bool.false_ne_true, State.bistStat_region, State.defectRegion, State.region_setPwr]
  case limits =>
    have hmax := s.sampled_tjMax tj
    refine ⟨fun hw hc hh => ⟨_, exec_thermalSample hn hon, State.thermal_cool (hmax ▸ hw) (hmax ▸ hc) hh⟩, fun hc he => ?_⟩
    have hcrit : (s.sampled tj).power.tjCrit.toNat ≤ (s.sampled tj).power.tjMax.toNat := hmax ▸ hc
    refine ⟨_, (exec_thermalSample hn hon).trans (congrArg _ (State.thermal_critical hcrit he)),
      State.emergencyStop_fatal (State.deviceFatal_fatal ..), State.emergencyStop_emergency _, fun r => State.emergencyStop_region _ r⟩
end

section
/-!
Host requests over CXL.mem and the snoop filter (14 R293 to R300).
-/
namespace Sys2Proof.Machine

open Sys2Proof

/-! ### The snoop filter (14 Table 14.4) -/

section
variable (s : State) (l : Nat)

theorem State.sfPut_sfHas (any : Bool) : (s.sfPut l any).sfHas l = true := by
  unfold State.sfPut
  cases h : s.sfHas l with
  | true =>
    obtain ⟨e, he, hl⟩ := List.any_eq_true.1 h
    refine List.any_eq_true.2 ⟨_, List.mem_map_of_mem he, ?_⟩
    rw [if_pos hl]
    exact hl
  | false => simp [State.setSf, State.sfHas]

theorem State.sfPut_sfAny (any : Bool) : (s.sfPut l any).sfAny l = any := by
  unfold State.sfPut
  cases h : s.sfHas l with
  | true =>
    cases any with
    | true =>
      obtain ⟨e, he, hl⟩ := List.any_eq_true.1 h
      refine List.any_eq_true.2 ⟨_, List.mem_map_of_mem he, ?_⟩
      rw [if_pos hl]
      simpa using hl
    | false =>
      refine List.any_eq_false.2 fun e he => ?_
      obtain ⟨x, -, rfl⟩ := List.mem_map.1 he
      split
      next => simp
      next hx => simp [hx]
  | false =>
    have hnone : s.coh.sf.any (fun e => e.line == l && e.any) = false := by
      refine List.any_eq_false.2 fun e he => ?_
      have hl := List.any_eq_false.1 h e he
      simp [hl]
    simp [State.setSf, State.sfAny, hnone]

theorem State.sfDrop_sfHas : (s.sfDrop l).sfHas l = false := by
  refine List.any_eq_false.2 fun e he => ?_
  simpa using (List.mem_filter.1 he).2

theorem State.sfRead_segs (mv : Meta) : (s.sfRead l mv).segs = s.segs := by
  cases mv <;> simp only [State.sfRead, State.sfPut] <;> (repeat' split) <;> rfl

theorem State.sfWrite_segs (mv : Meta) : (s.sfWrite l mv).segs = s.segs := by
  cases mv <;> simp only [State.sfWrite, State.sfPut] <;> (repeat' split) <;> rfl

theorem State.sfRead_mem (mv : Meta) : (s.sfRead l mv).mem = s.mem := by
  cases mv <;> simp only [State.sfRead, State.sfPut] <;> (repeat' split) <;> rfl

theorem State.offline_of_segs {t : State} (h : t.segs = s.segs) (a : Nat) : t.offline a = s.offline a := by
  unfold State.offline State.seg
  rw [h]

end

/-! ### Requests of the host (14 R293 to R297) -/

section
variable {s : State} {hpa : Nat} (hon : s.memOn = true)
include hon

theorem exec_memrd (mv : Meta) (ecc : Ecc) :
    exec (.memrd hpa mv ecc) s = .next (s.hostRead (.memrd hpa mv ecc) hpa mv ecc) := by
  change execMemrd hpa mv ecc s = _
  rw [execMemrd, if_neg (by simp [hon])]

theorem exec_memrddata (mv : Meta) (ecc : Ecc) :
    exec (.memrddata hpa mv ecc) s = .next (s.hostRead (.memrddata hpa mv ecc) hpa mv ecc) := by
  change execMemrddata hpa mv ecc s = _
  rw [execMemrddata, if_neg (by simp [hon])]

section
variable {o : Nat} (ho : s.hdmOffset hpa = some o) (hf : s.errlog.fatal = false)
include ho hf

omit hon in
theorem State.hostRead_serves {c : Instr} {mv : Meta} (hoff : s.offline (64 * (o / 64)) = false)
    (hg : s.hostGate c (o / 64) mv false = none) :
    let l := o / 64
    let u := (s.sfRead l mv).meet [(64 * l, 64)]
    s.hostRead c hpa mv .clean
      = (u.readMark (64 * l) 64).send (.hostData (memGetN s.mem (64 * l) 64) (u.read (64 * l) 64).2) := by
  intro l u
  have hserve : (s.sfRead l mv).offline (64 * l) = false :=
    (State.offline_of_segs s (s.sfRead_segs l mv) _).trans hoff
  have hmem : (u.read (64 * l) 64).1 = memGetN s.mem (64 * l) 64 := by
    rw [State.meet_read_bytes, State.sfRead_mem]
  unfold State.hostRead
  rw [ho]
  dsimp only
  rw [hf, hg]
  dsimp only
  rw [if_neg (by simp), if_neg (by simp [l, hserve]), State.eccAt_clean, ← hmem]

theorem exec_memwr_serves {mv : Meta} {en : BitVec 64} {bs : List Byte} {bad : Bool} {found : EccList} (hn : bs.length = 64)
    (hoff : s.offline (64 * (o / 64)) = false)
    (hg : s.hostGate (.memwr hpa mv en bs ⟨bad, found⟩) (o / 64) mv (s.writeBack (o / 64) mv) = none) :
    let l := o / 64
    let t := ((s.sfWrite l mv).strike found).writeEnabled (64 * l) en bs bad
    exec (.memwr hpa mv en bs ⟨bad, found⟩) s
      = .next ((if bad then (t.poisonWritten (64 * l)).rasCorrected 5 else t).send .hostAck) := by
  intro l t
  have hserve : (s.sfWrite l mv).offline (64 * l) = false :=
    (State.offline_of_segs s (s.sfWrite_segs l mv) _).trans hoff
  change execMemwr hpa mv en bs ⟨bad, found⟩ s = _
  unfold execMemwr
  rw [if_neg (by simp [hn]), if_neg (by simp [hon]), ho]
  dsimp only
  rw [hf, hg]
  dsimp only
  rw [if_neg (by simp), if_neg (by simp [l, hserve])]

theorem exec_meminv_serves (hs : s.snooped (o / 64) = false) :
    exec (.meminv hpa) s = .next ((s.sfDrop (o / 64)).send .hostAck) := by
  change execMeminv hpa s = _
  unfold execMeminv
  rw [if_neg (by simp [hon]), ho]
  dsimp only
  rw [hf, hs]
  rfl

end

section
variable (hnone : s.hdmOffset hpa = none)
include hnone

omit hon in
theorem State.hostRead_miss (c : Instr) (mv : Meta) (ecc : Ecc) :
    s.hostRead c hpa mv ecc = s.decoderMiss.send (.hostData [] true) := by
  rw [State.hostRead, hnone]

theorem exec_memwr_miss (mv : Meta) (en : BitVec 64) {bs : List Byte} (q : WriteMark) (hn : bs.length = 64) :
    exec (.memwr hpa mv en bs q) s = .next (s.decoderMiss.send .hostAck) := by
  change execMemwr hpa mv en bs q s = _
  rw [execMemwr, if_neg (by simp [hn]), if_neg (by simp [hon]), hnone]

theorem exec_meminv_miss : exec (.meminv hpa) s = .next (s.decoderMiss.send .hostAck) := by
  change execMeminv hpa s = _
  rw [execMeminv, if_neg (by simp [hon]), hnone]

end

end

/-! ### What a request waits for (14 R297) -/

section
variable {s : State} {l : Nat} {mv : Meta} (c : Instr) (hmv : mv ≠ .inv) (hmiss : s.sfHas l = false) (hs : s.snooped l = false)
  (hd : s.lineDown l = false)
include hmv hmiss hs hd

omit hs hd in
theorem State.hostGate_evicting (he : s.evicting l = true) : s.hostGate c l mv false = some (s.holdReq c) := by
  unfold State.hostGate
  simp [hmv, hmiss, he]

theorem State.hostGate_full (he : s.evicting l = false) (hfull : s.sfFull l = true) :
    s.hostGate c l mv false = some ((s.evictFor l).holdReq c) := by
  unfold State.hostGate
  simp [hmv, hmiss, hs, hd, he, hfull]

end

end Sys2Proof.Machine

open Sys2Proof Sys2Proof.Machine

/-- Settles O45: the requests served and missed, the moves of the filter, and what a request waits for. -/
theorem hostMemory : Obligations.HostMemory := by
  intro s hpa hon
  refine ⟨fun o ho hf => ⟨fun mv hoff => ⟨fun hg => ?_, fun hg => ?_⟩, fun mv en bs bad found hn hoff hg => ?_,
      exec_meminv_serves hon ho hf⟩,
    fun hnone mv en bs bad found hn => ⟨?_, ?_, exec_memwr_miss hon hnone mv en _ hn, exec_meminv_miss hon hnone⟩,
    fun l => ⟨s.sfPut_sfAny l true, s.sfPut_sfHas l _, rfl, s.sfPut_sfAny l true, s.sfPut_sfHas l _, s.sfPut_sfAny l false,
      s.sfDrop_sfHas l⟩,
    fun c l mv hmv hmiss hs hd => ⟨State.hostGate_evicting c hmv hmiss, State.hostGate_full c hmv hmiss hs hd⟩⟩
  · exact (exec_memrd hon mv _).trans (congrArg _ (State.hostRead_serves ho hf hoff (Option.isNone_iff_eq_none.1 hg)))
  · exact (exec_memrddata hon mv _).trans (congrArg _ (State.hostRead_serves ho hf hoff (Option.isNone_iff_eq_none.1 hg)))
  · exact exec_memwr_serves hon ho hf hn hoff (Option.isNone_iff_eq_none.1 hg)
  · exact (exec_memrd hon mv _).trans (congrArg _ (State.hostRead_miss hnone ..))
  · exact (exec_memrddata hon mv _).trans (congrArg _ (State.hostRead_miss hnone ..))
end

section
/-!
Answers of the host to BISnp and to CXL.cache requests (14 R294 to R300).
-/
namespace Sys2Proof.Machine

open Sys2Proof

/-! ### Answers to BISnp -/

section
variable {q : Snp} {sf : List SfEntry} {e : SfEntry} (he : e ∈ answered q sf)
include he

/-- The lines of an answered BISnp leave the filter. -/
theorem answered_leaves (hd : q.data = false) : ¬(q.line ≤ e.line ∧ e.line < q.line + q.n) := by
  rw [answered, hd] at he
  have h : e.line < q.line ∨ q.line + q.n ≤ e.line := by
    simpa using (List.mem_filter.1 he).2
  omega

/-- The lines of an answered BISnpData stay as shared. -/
theorem answered_shares (hd : q.data = true) (hlo : q.line ≤ e.line) (hhi : e.line < q.line + q.n) : e.any = false := by
  rw [answered, hd] at he
  obtain ⟨x, -, rfl⟩ := List.mem_map.1 he
  split
  next => rfl
  next hx =>
    rw [if_neg hx] at hlo hhi
    exact absurd (by simp [hlo, hhi]) hx

end

section
variable {s : State} {line : Nat} (hon : s.chipOn = true)
include hon

theorem exec_birsp {q : Snp} (hq : s.coh.snps.find? (fun q => q.line == line) = some q) :
    exec (.birsp line) s = .next (State.rerun { s with coh := { s.coh with
      snps := s.coh.snps.filter (fun x => x.line != line), sf := answered q s.coh.sf } }) := by
  change execBirsp line s = _
  rw [execBirsp, hq]
  exact if_neg (by simp [hon])

theorem exec_biconflict (hs : s.snooped line = true) :
    exec (.biconflict line) s = .next (State.send { s with
      coh := { s.coh with conflict := satAdd s.coh.conflict 1 } } (.biConflictAck line)) := by
  change execBiconflict line s = _
  rw [execBiconflict, if_neg (by simp [hon, hs])]

theorem exec_bisnpTimeout (hq : s.coh.snps.any (fun q => q.line == line) = true) (hf : s.errlog.fatal = false) :
    exec (.bisnpTimeout line) s = .next (s.deviceFatal 3 0xFF 0x17 (64 * line) 0).rerun := by
  change execBisnpTimeout line s = _
  rw [execBisnpTimeout, if_neg (by simp [hon, hf, hq])]
  rfl

/-! ### Answers to CXL.cache requests -/

omit hon in
theorem exec_d2hCompletion {a : D2HAgent} {isRead : Bool} {data : List Byte} {bad : Bool} {t : State}
    (h : s.d2hDone a isRead data bad = t) : exec (.d2hCompletion a isRead data bad) s = .next (s.seNext t) := h ▸ rfl

omit hon in
theorem exec_d2hTimeout {a : D2HAgent} {t : State} (h : s.d2hLate a = t) : exec (.d2hTimeout a) s = .next (s.seNext t) :=
  h ▸ rfl

section
variable (hf : s.errlog.fatal = false)
include hf

theorem State.unitsOn_of : s.unitsOn = true := by
  simp [State.unitsOn, hon, hf]

theorem State.d2hDone_engine_read (hc : s.cxlOn = true) {e : EngineId} {data : List Byte} {bad : Bool}
    {r : D2HAgent × Bool × Nat × Nat} (hr : s.d2hOldest (.engine e) true = some r) (hn : data.length = r.2.2.2) :
    s.d2hDone (.engine e) true data bad = ((if bad then (s.dropD2h (.engine e) true).rasCorrected 4
      else s.dropD2h (.engine e) true).fetchData e data (List.replicate data.length bad) true) := by
  unfold State.d2hDone
  rw [hr]
  dsimp only
  rw [if_neg (by simp [State.unitsOn_of hon hf, hc, hn])]
  rfl

theorem State.d2hDone_engine_write (hc : s.cxlOn = true) {e : EngineId} (data : List Byte) (bad : Bool)
    {r : D2HAgent × Bool × Nat × Nat} (hr : s.d2hOldest (.engine e) false = some r) :
    s.d2hDone (.engine e) false data bad = (s.dropD2h (.engine e) false).hostWriteDone e := by
  unfold State.d2hDone
  rw [hr]
  dsimp only
  rw [if_neg (by simp [State.unitsOn_of hon hf, hc])]
  rfl

theorem State.d2hDone_qe (hc : s.cxlOn = true) {k : Bool} {data : List Byte} {bad : Bool} {t : QeHost}
    {r : D2HAgent × Bool × Nat × Nat} (ht : s.qe.host = some t) (hr : s.d2hOldest .qe k = some r)
    (hn : k = true → data.length = r.2.2.2)
    (hg : s.gate (.d2hCompletion .qe k data bad) (t.queue.map fun q => (s.entAddr q, 64)).toList
      (t.queue.map fun q => (s.entAddr q, 64)).toList = none) :
    s.d2hDone .qe k data bad = (s.dropD2h .qe k).qeHostDone k data bad := by
  have hlen : (k && data.length != r.2.2.2) = false := by
    cases k
    · rfl
    · simp [hn rfl]
  unfold State.d2hDone
  rw [hr]
  dsimp only
  rw [if_neg (by simp [State.unitsOn_of hon hf, hc, hlen]), ht]
  cases t <;> dsimp only [QeHost.queue, Option.map, Option.toList] at hg ⊢ <;> rw [hg]

theorem State.d2hLate_engine_read {e : EngineId} {r : D2HAgent × Bool × Nat × Nat}
    (hr : s.host.d2h.find? (fun x => x.1 == D2HAgent.engine e) = some r) (hread : r.2.1 = true)
    (hfault : (s.engine e).faulting = false) :
    s.d2hLate (.engine e) = (s.dropD2h (.engine e) true).engineFault e .address := by
  have hstill : ((s.dropD2h (.engine e) true).engine e).faulting = false := hfault
  unfold State.d2hLate
  rw [hr]
  dsimp only
  rw [if_neg (by simp [State.unitsOn_of hon hf]), hread, if_pos rfl, hstill]
  rfl

end

end

end Sys2Proof.Machine

open Sys2Proof Sys2Proof.Machine

/-- Settles O46: the answers to BISnp, and the completions of CXL.cache by agent. -/
theorem coherenceAnswers : Obligations.CoherenceAnswers := by
  intro s line hon
  refine ⟨fun q hq => ⟨exec_birsp hon hq, fun hd e he => answered_leaves he hd, fun hd e he => answered_shares he hd⟩,
    exec_biconflict hon, exec_bisnpTimeout hon, fun hmem hpa => if_neg (by simp [hmem]), fun e data bad r hf hc => ?engine,
    fun data bad k t r hf hc ht hr hn hg => ?qe, fun t h => if_pos h, fun t h => if_neg (by simp [h])⟩
  case engine =>
    exact ⟨fun hr hn => exec_d2hCompletion (State.d2hDone_engine_read hon hf hc hr hn),
      fun hr => exec_d2hCompletion (State.d2hDone_engine_write hon hf hc data bad hr),
      fun hr hread hfault => exec_d2hTimeout (State.d2hLate_engine_read hon hf hr hread hfault)⟩
  case qe =>
    exact exec_d2hCompletion (State.d2hDone_qe hon hf hc ht hr hn (Option.isNone_iff_eq_none.1 hg))
end

section
/-!
BAR0 and BAR2 by the power state, and the HDM decoder (14 R286 to R292).
-/
namespace Sys2Proof.Machine

open Sys2Proof

/-! ### BAR0 in D3hot -/

section
variable {s : State} (hon : s.chipOn = true) (hd : s.host.d3hot = true)
include hon hd

theorem State.noBar0_d3hot : s.noBar0 = .next s.refuse := by
  simp [State.noBar0, hon, hd]

theorem unless_fabricOn_d3hot (o : Out1) : (if !s.fabricOn then s.noBar0 else o) = .next s.refuse := by
  rw [if_pos (by simp [State.fabricOn, State.hostOn, hd]), State.noBar0_d3hot hon hd]

theorem unless_hostOn_d3hot (o : Out1) : (if !s.hostOn then s.noBar0 else o) = .next s.refuse := by
  rw [if_pos (by simp [State.hostOn, hd]), State.noBar0_d3hot hon hd]

theorem exec_segmentOnline_d3hot (g : BitVec 10) : exec (.segmentOnline g) s = .next s.refuse := by
  change execSegmentOnline g s = _
  simp [execSegmentOnline, State.segCmd, State.fabricOn, State.hostOn, hd, State.noBar0_d3hot hon hd]

theorem exec_segmentOffline_d3hot (g : BitVec 10) : exec (.segmentOffline g) s = .next s.refuse := by
  change execSegmentOffline g s = _
  simp [execSegmentOffline, State.segCmd, State.fabricOn, State.hostOn, hd, State.noBar0_d3hot hon hd]

/-- Every command of a register of BAR0 is an Unsupported Request in D3hot. -/
theorem exec_bar0_d3hot (h : Half) (n : StrandId) (v : Word64) (i : Fin 64) (f : Byte) (r : RegionId) (a : ArbId)
    (p : PortId) (q : QueueId) (k : SessionId) (g : BitVec 10) (e : Fin 4096) :
    ∀ c ∈ [Instr.mbxH2sWrite n h v, .mbxS2hRead n h, .mbxH2mcWrite h v, .mbxMc2hRead h, .doorbell i 8 v, .queueEnable q,
           .queueDisable q, .openS k, .closeS k, .funcReset f, .funcDisable f, .funcEnable f, .setPs0 r, .setPs4 r,
           .selfRefreshEntry r, .selfRefreshExit r, .regionBist r, .arbCommit a, .colPortEnable p, .colPortDisable p,
           .lpiRequest p, .lpiRelease p, .retrain p, .colRtCommit p, .mgtColCommit, .mgtProfileCommit, .store, .update,
           .compact, .segmentOnline g, .segmentOffline g, .wdtInvalidateEntry e, .wdtInvalidateAll, .vsuCommit r],
      exec c s = .next s.refuse := by
  have hf := unless_fabricOn_d3hot hon hd
  have hh := unless_hostOn_d3hot hon hd
  simp only [List.forall_mem_cons]
  exact ⟨hf _, hf _, hf _, hf _, hf _, hf _, hf _, hf _, hf _, hh _, hh _, hh _, hf _, hf _, hf _, hf _, hf _, hh _, hh _, hh _,
    hh _, hh _, hh _, hh _, hh _, hh _, hh _, hh _, hh _, exec_segmentOnline_d3hot hon hd g,
    exec_segmentOffline_d3hot hon hd g, hh _, hh _, hf _, fun _ h => nomatch h⟩

end

/-! ### BAR2 -/

/-- An access inside one line is one part. -/
theorem lineParts_one {off n : Nat} (fuel : Nat) (hn : 0 < n) (hfit : off % 64 + n ≤ 64) :
    lineParts (fuel + 2) off n = [(off, n)] := by
  have hmin : min n (64 - off % 64) = n := by omega
  rw [lineParts, if_neg (by omega), hmin]
  dsimp only
  rw [Nat.sub_self, lineParts, if_pos rfl]

/-- What BAR2 read. -/
def bar2Parts (s : State) (off len : Nat) : List (List Byte × Bool) :=
  (lineParts (len / 64 + 2) off len).map fun p =>
    match bar2Addr p.1 with
    | some a => s.read a p.2
    | none => (List.replicate p.2 0, false)

theorem bar2Parts_one {s : State} {off len a : Nat} (ha : bar2Addr off = some a) (hfit : off % 64 + len ≤ 64) (hn : 0 < len) :
    bar2Parts s off len = [s.read a len] := by
  rw [bar2Parts, lineParts_one _ hn hfit, List.map_singleton]
  dsimp only
  rw [ha]

theorem State.bar2Put_one {s : State} {off a : Nat} {data : List Byte} (bad : Bool) (ha : bar2Addr off = some a)
    (hfit : off % 64 + data.length ≤ 64) (hn : 0 < data.length) : s.bar2Put off data bad = s.write a data bad := by
  rw [State.bar2Put, lineParts_one _ hn hfit, List.foldl_cons, List.foldl_nil]
  dsimp only
  rw [ha]
  simp

section
variable {s : State} {off : Nat} (hon : s.chipOn = true)
include hon

theorem exec_bar2Read_d3hot (hd : s.host.d3hot = true) (len : Nat) (ecc : Ecc) :
    exec (.bar2Read off len ecc) s = .next s.refuse := by
  change execBar2Read off len ecc s = _
  rw [execBar2Read, if_neg (by simp [hon]), if_pos hd]

theorem exec_bar2Write_d3hot (hd : s.host.d3hot = true) (data : List Byte) (bad : Bool) :
    exec (.bar2Write off data bad) s = .next (if bad then s.aer 12 else s).refuse := by
  have hd' : (if bad then s.aer 12 else s).host.d3hot = true := by cases bad <;> exact hd
  change execBar2Write off data bad s = _
  rw [execBar2Write, if_neg (by simp [hon])]
  exact if_pos hd'

variable (hd : s.host.d3hot = false)
include hd

theorem exec_bar2Read_asleep (ha : s.bar2Asleep off = true) (len : Nat) (ecc : Ecc) :
    exec (.bar2Read off len ecc) s = .next (s.refuse.logEv 4 2 0xFF 0x0F ((bar2Addr off).getD 0) 0) := by
  change execBar2Read off len ecc s = _
  rw [execBar2Read, if_neg (by simp [hon]), if_neg (by simp [hd]), if_pos ha]
  rfl

theorem exec_bar2Write_asleep (ha : s.bar2Asleep off = true) (hst : (s.region (off / 0x4000000)).state ≠ 3)
    (data : List Byte) (bad : Bool) :
    exec (.bar2Write off data bad) s
      = .next ((if bad then s.aer 12 else s).refuse.logEv 4 2 0xFF 0x0F ((bar2Addr off).getD 0) 1) := by
  change execBar2Write off data bad s = _
  rw [execBar2Write, if_neg (by simp [hon])]
  have hd' : ¬(if bad then s.aer 12 else s).host.d3hot = true := by cases bad <;> simp [State.aer, hd]
  have ha' : (if bad then s.aer 12 else s).bar2Asleep off = true := by cases bad <;> exact ha
  have hst' : ¬((if bad then s.aer 12 else s).region (off / 0x4000000)).state = 3 := by cases bad <;> exact hst
  dsimp only
  rw [if_neg hd', if_pos ha', if_neg hst']
  rfl

variable (ha : s.bar2Asleep off = false)
include ha

theorem exec_bar2Read_awake (len : Nat) :
    let u := match bar2Addr off with | some a => s.meet [(a, len)] | none => s
    exec (.bar2Read off len .clean) s
      = .next (u.send (.hostData ((bar2Parts u off len).flatMap (·.1)) ((bar2Parts u off len).any (·.2)))) := by
  change execBar2Read off len .clean s = _
  rw [execBar2Read, if_neg (by simp [hon]), if_neg (by simp [hd]), if_neg (by simp [ha])]
  cases bar2Addr off <;> simp only [State.eccAt_clean] <;> rfl

theorem exec_bar2Write_awake (data : List Byte) (bad : Bool) :
    exec (.bar2Write off data bad) s = .next ((if bad then s.aer 12 else s).bar2Put off data bad) := by
  change execBar2Write off data bad s = _
  rw [execBar2Write, if_neg (by simp [hon])]
  have hd' : ¬(if bad then s.aer 12 else s).host.d3hot = true := by cases bad <;> simp [State.aer, hd]
  have ha' : (if bad then s.aer 12 else s).bar2Asleep off = false := by cases bad <;> exact ha
  dsimp only
  rw [if_neg hd', if_neg (by simp [ha'])]

end

/-! ### The HDM decoder -/

section
variable {s : State} {base size ways : Nat} {bi lock : Bool} (hon : s.chipOn = true)
include hon

theorem exec_hdmDecoderCommit_d3hot (hd : s.host.d3hot = true) :
    exec (.hdmDecoderCommit base size ways bi lock) s = .next s.refuse :=
  unless_hostOn_d3hot hon hd _

variable (hd : s.host.d3hot = false)
include hd

theorem exec_hdmDecoderCommit_locked (hl : (s.host.hdm.committed && s.host.hdm.lock) = true) :
    exec (.hdmDecoderCommit base size ways bi lock) s = .next s := by
  change execHdmDecoderCommit base size ways bi lock s = _
  rw [execHdmDecoderCommit, if_neg (by simp [State.hostOn, hon, hd])]
  exact if_pos hl

theorem exec_hdmDecoderCommit_writes (hl : (s.host.hdm.committed && s.host.hdm.lock) = false) :
    let good := size == 0xF000000000 && base % 0x10000000 == 0 && ways == 1 && bi
    exec (.hdmDecoderCommit base size ways bi lock) s = .next { s with host := { s.host with
      hdm := { s.host.hdm with committed := good, commit := true, base := base, size := size, ways := ways, bi := bi,
                               lock := good && lock, errNotCommitted := !good } } } := by
  change execHdmDecoderCommit base size ways bi lock s = _
  rw [execHdmDecoderCommit, if_neg (by simp [State.hostOn, hon, hd])]
  exact if_neg (by simp [hl])

end

end Sys2Proof.Machine

open Sys2Proof Sys2Proof.Machine

/-- Settles O47: BAR2 and BAR0 by the power state, the parts of an access inside a line, and the decoder's commit. -/
theorem hostWindows : Obligations.HostWindows := by
  refine ⟨fun s => rfl, fun s off len data bad hon => ⟨fun hd ecc => ⟨exec_bar2Read_d3hot hon hd len ecc,
      exec_bar2Write_d3hot hon hd data bad⟩, exec_bar0_d3hot hon, fun hd ha ecc => ⟨exec_bar2Read_asleep hon hd ha len ecc,
      fun hst => exec_bar2Write_asleep hon hd ha hst data bad⟩, fun hd ha => ⟨⟨_, _, exec_bar2Read_awake hon hd ha len, ?read⟩,
      exec_bar2Write_awake hon hd ha data bad, fun a h hfit hn => State.bar2Put_one bad h hfit hn⟩,
    fun base size ways bi lock hd hl => ⟨_, exec_hdmDecoderCommit_writes hon hd hl, rfl, rfl, rfl, rfl, rfl, rfl⟩,
    fun base size ways bi lock hd hl => exec_hdmDecoderCommit_locked hon hd hl,
    fun base size ways bi lock hd => exec_hdmDecoderCommit_d3hot hon hd, if_neg (by simp [hon]), if_neg (by simp [hon])⟩⟩
  case read =>
    intro a h hfit hn
    rw [bar2Parts_one h hfit hn, List.flatMap_singleton, h]
    exact State.meet_read_bytes ..
end

section
/-!
The DOE mailbox, SPDM, the management bus and the test port (14 R301 to R303, 17 R347 and R348).
-/
namespace Sys2Proof.Machine

open Sys2Proof

/-! ### The DOE mailbox (14 R301 to R303) -/

/-- The answer to a request in the mailbox, as State.doeServe gives it. -/
def State.doeAnswer (s : State) : DoeReq → DoeOut
  | .discovery i => .protocol ([DoeProtocol.discovery, .spdm, .cdat][i]?) (if i < 2 then some (i + 1) else none)
  | .spdm q => .spdm (s.spdmAnswer q)
  | .cdat i => .cdat (cdatEntries[i]?) (if i < 5 then some (i + 1) else none)

theorem doeEntry_protocols (i : Nat) :
    doeEntry doeProtocols i = ([DoeProtocol.discovery, .spdm, .cdat][i]?, if i < 2 then some (i + 1) else none) := by
  have h : i + 1 < doeProtocols.length ↔ i < 2 := Nat.succ_lt_succ_iff
  simp only [doeEntry, h]
  rfl

theorem doeEntry_cdat (i : Nat) : doeEntry cdatEntries i = (cdatEntries[i]?, if i < 5 then some (i + 1) else none) := by
  have h : i + 1 < cdatEntries.length ↔ i < 5 := Nat.succ_lt_succ_iff
  simp only [doeEntry, h]

section
variable {s : State} (hon : s.chipOn = true) (hmc : s.mcOn = true)
include hon hmc

theorem State.doeOn_of : s.doeOn = true := by
  simp [State.doeOn, hon, hmc]

theorem State.doeRequest_free (hfree : s.host.doe = none) (r : DoeReq) :
    s.doeRequest r = { s with host := { s.host with doe := some r } } := by
  rw [State.doeRequest, if_neg (by simp [State.doeOn_of hon hmc]), if_neg (by simp [hfree])]

theorem State.doeRequest_busy (hbusy : s.host.doe ≠ none) (r : DoeReq) : s.doeRequest r = s.send (.doe .busy) := by
  rw [State.doeRequest, if_neg (by simp [State.doeOn_of hon hmc]), if_pos (Option.isSome_iff_ne_none.2 hbusy)]

omit hon hmc in
theorem exec_spdmRequest {req : List Byte} (hn : req.length ≤ 4096) :
    exec (.spdmRequest req) s = .next (s.doeRequest (.spdm req)) :=
  congrArg Host.Outcome.next (if_neg (Nat.not_lt.2 hn))

theorem exec_doeAbort : exec .doeAbort s = .next { s with host := { s.host with doe := none } } :=
  congrArg Host.Outcome.next (if_pos (State.doeOn_of hon hmc))

theorem State.doeServe_answers {r : DoeReq} (hr : s.host.doe = some r) :
    s.doeServe = State.send { s with host := { s.host with doe := none }, fresh := s.fresh + 1 } (.doe (s.doeAnswer r)) := by
  rw [State.doeServe, hr]
  refine (if_neg (by simp [State.doeOn_of hon hmc])).trans ?_
  cases r <;> simp only [State.doeAnswer, doeEntry_protocols, doeEntry_cdat]

omit hon hmc in
theorem State.doeServe_none (h : s.host.doe = none) : s.doeServe = s := by
  rw [State.doeServe, h]

end

/-! ### An idle step that only serves the MC -/

section
variable {s : State} (hp : s.pending = []) (hflr : s.host.flr = false) (hse : s.seIdle = false) (hfill : s.col.filling = [])
  (hloop : s.col.loop = [])
include hp hflr hse hfill hloop

theorem step_mcIdle : step s = .next s.mcIdle := by
  have hflush : s.flushFlits = s := if_pos (by simp [hfill])
  have hin : s.loopIn = s := if_pos (by simp [hloop])
  rw [step_idle hp]
  simp [State.idle, hflr, hse, hflush, hin]

end

theorem State.doeServe_nvm (s : State) : s.doeServe.nvm = s.nvm := by
  unfold State.doeServe
  split
  · rfl
  · split <;> rfl

theorem State.mcIdle_doe {s : State} (hcopy : s.nvm.copying = false) : s.mcIdle = s.doeServe := by
  simp [State.mcIdle, State.doeServe_nvm, hcopy]

/-! ### SPDM (14 R302) -/

theorem State.spdmAnswer_certificate (s : State) (req : List Byte) (h : fieldLE req 1 1 = 0x82) :
    s.spdmAnswer req = .certificate (fieldLE req 2 1 % 16) (certChain (fieldLE req 2 1 % 16)) := by
  rw [State.spdmAnswer, h]
  rfl

theorem State.spdmAnswer_versions (s : State) (req : List Byte) (h : fieldLE req 1 1 = 0x84) :
    s.spdmAnswer req = .versions [(1, 2), (1, 3)] := by
  rw [State.spdmAnswer, h]
  rfl

theorem State.spdmAnswer_measurements (s : State) (req : List Byte) (h : fieldLE req 1 1 = 0xE0) :
    s.spdmAnswer req = .measurements s.measurements (Config.signature s.nvm.aliasKey (req ++ s.measurements) s.fresh) := by
  rw [State.spdmAnswer, h]
  rfl

theorem certChain_ne_zero {k : Nat} (hk : k ≠ 0) : certChain k = [] :=
  if_neg hk

/-! ### The management bus (17 R347) -/

section
variable {s : State} (off : Nat)

/-- The bus serves an offset. -/
def State.busServes (s : State) (off : Nat) : Prop := off % 8 = 0 ∧ (busAlways off || (s.board.mainPg && busMain off)) = true

theorem exec_regread_other {addr : BitVec 7} (h : addr ≠ s.board.ownAddr) (pec : Option Byte) :
    exec (.regread ⟨addr, off, pec⟩) s = .next s := by
  change execRegread ⟨addr, off, pec⟩ s = _
  exact if_pos (by simp [h])

variable (hmc : s.mcOn = true)
include hmc

theorem exec_regread_nack (h : ¬s.busServes off) (pec : Option Byte) :
    exec (.regread ⟨s.board.ownAddr, off, pec⟩) s = .next (s.send .busNack) := by
  change execRegread _ s = _
  unfold execRegread
  dsimp only
  rw [if_neg (by simp [hmc]), if_pos]
  by_cases h8 : off % 8 = 0
  · have hno : (busAlways off || (s.board.mainPg && busMain off)) = false := Bool.eq_false_iff.2 fun hb => h ⟨h8, hb⟩
    rw [hno]
    simp
  · simp [h8]

variable (h : s.busServes off)
include h

theorem exec_regread_plain : exec (.regread ⟨s.board.ownAddr, off, none⟩) s = .next (s.send (.bus (s.readLine off))) := by
  obtain ⟨h8, hb⟩ := h
  change execRegread _ s = _
  unfold execRegread
  dsimp only
  rw [if_neg (by simp [hmc]), if_neg (by simp [h8, hb])]

theorem exec_regread_pec (p : Byte) :
    exec (.regread ⟨s.board.ownAddr, off, some p⟩) s =
      if p != pecOf (BitVec.ofNat 8 (2 * s.board.ownAddr.toNat) :: ([0x10, 4] ++ leBytes 4 off)) then .next (s.send .busNack)
      else .next (s.send (.bus (s.readLine off ++ [pecOf (busHead s.board.ownAddr ([0x10, 4] ++ leBytes 4 off)
        ++ [BitVec.ofNat 8 (s.readLine off).length] ++ s.readLine off)]))) := by
  obtain ⟨h8, hb⟩ := h
  change execRegread _ s = _
  unfold execRegread
  dsimp only
  rw [if_neg (by simp [hmc]), if_neg (by simp [h8, hb])]

end

/-- The status byte, by bits. -/
theorem statusByte_bits (a b c d e : Bool) :
    let v : Byte := BitVec.ofNat 8 (b2n a + 2 * b2n b + 4 * b2n c + 8 * b2n d + 16 * b2n e)
    v.getLsbD 0 = a ∧ v.getLsbD 1 = b ∧ v.getLsbD 2 = c ∧ v.getLsbD 3 = d ∧ v.getLsbD 4 = e := by
  revert a b c d e
  decide

section
variable {s : State} (ha : s.board.aux = true)
include ha

theorem exec_status :
    let b := s.board
    let v : Byte := BitVec.ofNat 8 (b2n b.mcRdy + 2 * b2n b.mainPg + 4 * b2n (!b.perst) + 8 * b2n b.memActive + 16 * b2n s.errlog.fatal)
    exec .status s = .next (s.send (.busPec [v] (pecOf (busHead b.ownAddr [0x11] ++ [v])))) :=
  if_neg (by simp [ha])

section
variable (hb : s.board.busAddr = none) (a : BitVec 7)
include hb

theorem exec_setdasa_own :
    exec (.setdasa ⟨s.board.staticAddr, a⟩) s = .next (s.setBoard { s.board with busAddr := some a }) :=
  if_neg (by simp [ha, hb])

omit ha hb in
theorem exec_setdasa_other {k : BitVec 7} (hk : k ≠ s.board.staticAddr) : exec (.setdasa ⟨k, a⟩) s = .next s :=
  if_pos (by simp [hk])

theorem exec_entdaa : exec (.entdaa a) s = .next (s.setBoard { s.board with busAddr := some a }) :=
  if_neg (by simp [ha, hb])

end

/-! ### The test port (17 R348) -/

section
variable (hpg : s.board.mainPg = true)
include hpg

theorem State.jtagOn_of : s.jtagOn = true := by
  simp [State.jtagOn, ha, hpg]

theorem unless_jtagOn {α : Type} (x y : α) : (if !s.jtagOn then x else y) = y :=
  if_neg (by simp [State.jtagOn_of ha hpg])

theorem exec_extest_driven (hperst : s.board.perst = true) (q : Scan) :
    let t := (s.send (.pins s.board.boundary)).send (.jtag q.pins)
    exec (.extest q) s = .next ((t.setBoard { t.board with jtag := .extest, boundary := q.tdi }).send (.pins q.tdi)) :=
  (unless_jtagOn ha hpg _ _).trans (if_neg (by simp [hperst]))

theorem exec_extest_bypass (hperst : s.board.perst = false) (q : Scan) :
    exec (.extest q) s = .next ((s.setBoard { s.board with jtag := .bypass }).send (.jtag [false, q.tdi.headD false])) :=
  (unless_jtagOn ha hpg _ _).trans (if_pos (by simp [hperst]))

end

end

end Sys2Proof.Machine

open Sys2Proof Sys2Proof.Machine

/-- Settles O48: the DOE mailbox and its idle step, the bus, and the test port. -/
theorem managementAnswers : Obligations.ManagementAnswers := by
  intro s
  refine ⟨fun hon hmc => ⟨fun hfree => ⟨fun i => congrArg _ (State.doeRequest_free hon hmc hfree _),
        fun entry => congrArg _ (State.doeRequest_free hon hmc hfree _),
        fun req hn => (exec_spdmRequest hn).trans (congrArg _ (State.doeRequest_free hon hmc hfree _))⟩,
      fun hbusy => ⟨fun i => congrArg _ (State.doeRequest_busy hon hmc hbusy _),
        fun entry => congrArg _ (State.doeRequest_busy hon hmc hbusy _),
        fun req hn => (exec_spdmRequest hn).trans (congrArg _ (State.doeRequest_busy hon hmc hbusy _))⟩,
      exec_doeAbort hon hmc, ?idle⟩,
    fun req h => ?versions, fun req h => ?measurements, fun req h => ⟨_, _, s.spdmAnswer_certificate req h, ?chain⟩, rfl, ?bus,
    fun hmc token => ?unlock, fun ha hpg tdi pins shifted => ⟨unless_jtagOn ha hpg _ _, unless_jtagOn ha hpg _ _,
      unless_jtagOn ha hpg _ _, fun hperst => ⟨_, exec_extest_driven ha hpg hperst _, rfl, rfl⟩,
      fun hperst => ⟨_, exec_extest_bypass ha hpg hperst _⟩⟩⟩
  case idle =>
    intro hp hflr hse hfill hloop hcopy
    have hstep : step s = .next s.doeServe := (step_mcIdle hp hflr hse hfill hloop).trans (congrArg _ (State.mcIdle_doe hcopy))
    exact ⟨fun i hr => hstep.trans (congrArg _ (State.doeServe_answers hon hmc hr)),
      fun i hr => hstep.trans (congrArg _ (State.doeServe_answers hon hmc hr)),
      fun req hr => hstep.trans (congrArg _ (State.doeServe_answers hon hmc hr)),
      fun hnone => hstep.trans (congrArg _ (State.doeServe_none hnone))⟩
  case versions => exact s.spdmAnswer_versions req h
  case measurements => exact ⟨_, s.spdmAnswer_measurements req h⟩
  case chain => exact certChain_ne_zero
  case bus =>
    intro own ask answer
    refine ⟨fun hmc off => ?_, fun ha => ?_, fun ha hb a => ⟨exec_setdasa_own ha hb a, fun k hk => exec_setdasa_other a hk,
      exec_entdaa ha hb a⟩⟩
    · intro req served bs
      refine ⟨fun h => ⟨exec_regread_plain off hmc h, ?_, fun p hp => ?_⟩, exec_regread_nack off hmc,
        fun addr pec h => exec_regread_other off h pec⟩
      · rw [exec_regread_pec off hmc h]
        simp [ask, answer, req, bs, own, busHead]
      · rw [exec_regread_pec off hmc h]
        exact if_pos (bne_iff_ne.2 hp)
    · obtain ⟨h0, h1, h2, h3, h4⟩ := statusByte_bits s.board.mcRdy s.board.mainPg (!s.board.perst) s.board.memActive s.errlog.fatal
      exact ⟨_, exec_status ha, h0, h1, h2, h3, h4⟩
  case unlock =>
    change execDebugUnlock token s = _
    rw [execDebugUnlock, hmc]
    cases Config.debugToken token <;> rfl
end

section
/-!
PERST#, CXL Reset and FLR (14 R304 to R306, 17 R344 and R349).
-/
namespace Sys2Proof.Machine

open Sys2Proof

/-! ### Memory that a zero fill leaves (10 R208) -/

/-- An address that no cell of a list holds reads blank. -/
theorem memGet_blank {m : List Host.Cell} {a : Nat} (h : ∀ c ∈ m, c.1 ≠ a) : memGet m a = blankByte := by
  induction m with
  | nil => rfl
  | cons c m ih =>
    rw [memGet, if_neg (h c List.mem_cons_self), ih fun d hd => h d (List.mem_cons_of_mem c hd), ite_self]

/-- Zero fills of segments: an address of one of them has no cell any more. -/
theorem State.foldl_zeroFill_cells {a : Nat} (l : List Nat) (s : State)
    (h : (∃ n ∈ l, segBase n ≤ a ∧ a < segBase n + 0x40000000) ∨ ∀ c ∈ s.mem, c.1 ≠ a) :
    ∀ c ∈ (l.foldl (fun s n => s.zeroFill (segBase n) 0x40000000) s).mem, c.1 ≠ a := by
  induction l generalizing s with
  | nil => exact h.resolve_left fun ⟨n, hn, _⟩ => absurd hn List.not_mem_nil
  | cons k l ih =>
    refine ih _ ?_
    rcases h with ⟨n, hn, hlo, hhi⟩ | h
    · rcases List.mem_cons.1 hn with rfl | hn
      · refine .inr fun c hc e => ?_
        have hout := (List.mem_filter.1 hc).2
        simp only [Bool.or_eq_true, decide_eq_true_eq] at hout
        omega
      · exact .inl ⟨n, hn, hlo, hhi⟩
    · exact .inr fun c hc => h c (List.mem_filter.1 hc).1

theorem State.memGet_foldl_zeroFill {a n : Nat} {l : List Nat} (s : State) (hn : n ∈ l) (hlo : segBase n ≤ a)
    (hhi : a < segBase n + 0x40000000) : memGet (l.foldl (fun s n => s.zeroFill (segBase n) 0x40000000) s).mem a = 0 :=
  memGet_blank (State.foldl_zeroFill_cells l s (.inl ⟨n, hn, hlo, hhi⟩))

theorem State.foldl_zeroFill_out (l : List Nat) (s : State) :
    (l.foldl (fun s n => s.zeroFill (segBase n) 0x40000000) s).out = s.out := by
  induction l generalizing s with
  | nil => rfl
  | cons n l ih => exact ih _

theorem State.mem_onlineSegs {s : State} {p : Nat × Seg} (hp : p ∈ s.segs) (hon : p.2.online = true) : p.1 ∈ s.onlineSegs :=
  List.mem_map_of_mem (List.mem_filter.2 ⟨hp, hon⟩)

/-! ### What a reset of the units leaves (14 R304, R305) -/

/-- What a reset of the units takes over: the QE's requests to the host, the decoder, the snoop filter and the memory. -/
def State.beyondUnits (s : State) : Qe × Hdm × List (D2HAgent × Bool × Nat × Nat) × List SfEntry × List Host.Cell :=
  (s.qe, s.host.hdm, s.host.d2h, s.coh.sf, s.mem)

theorem State.logEv_beyondUnits (s : State) (c l f k a i : Nat) : (s.logEv c l f k a i).beyondUnits = s.beyondUnits := by
  obtain ⟨e, p, o, m, h, -⟩ := s.logEv_frame c l f k a i
  rw [h]
  rfl

theorem State.foldl_beyondUnits {α : Type} (f : State → α → State) (hf : ∀ s a, (f s a).beyondUnits = s.beyondUnits) (l : List α)
    (s : State) : (l.foldl f s).beyondUnits = s.beyondUnits := by
  induction l generalizing s with
  | nil => rfl
  | cons a l ih => exact (ih _).trans (hf s a)

theorem State.logUnwritten_beyondUnits (s : State) (e : EngineId) : (s.logUnwritten e).beyondUnits = s.beyondUnits :=
  State.foldl_beyondUnits _ (fun s _ => s.logEv_beyondUnits ..) _ s

theorem State.dropStore_beyondUnits (s : State) (n : StrandId) : (s.dropStore n).beyondUnits = s.beyondUnits := by
  unfold State.dropStore
  split
  · exact State.logEv_beyondUnits ..
  · rfl

theorem State.dropTables_beyondUnits (s : State) (f : Nat) : (s.dropTables f).beyondUnits = s.beyondUnits :=
  State.foldl_beyondUnits _ (fun s _ => s.logEv_beyondUnits ..) _ (s.unhold f)

/-- The writes not made visible have their records, and what is held of the QE's and the SE's tables goes. -/
def State.unitsLogged (s : State) : State :=
  ((s.forN 32 fun i s => (s.logUnwritten (fin32 i)).dropStore (fin32 i)).dropTables 0x50).dropTables 0x51

theorem State.unitsLogged_beyondUnits (s : State) : s.unitsLogged.beyondUnits = s.beyondUnits := by
  unfold State.unitsLogged
  rw [State.dropTables_beyondUnits, State.dropTables_beyondUnits]
  exact State.foldl_beyondUnits _
    (fun s i => (State.dropStore_beyondUnits _ (fin32 i)).trans (s.logUnwritten_beyondUnits (fin32 i))) _ s

/-- The units as a reset sets them. -/
def State.unitsCleared (s : State) : State :=
  { s with strands := Vector.replicate 32 {}, blocks := Vector.replicate 128 {}, jobs := [],
           engines := s.engines.map Engine.afterReset, vsus := Vector.replicate 8 {},
           qe := { host := s.qe.host.map fun _ => .dropped }, se := {}, mbx := {},
           coh := { s.coh with held := s.coh.held.filter outlives } }

theorem State.resetUnits_eq (s : State) : s.resetUnits = s.unitsLogged.unitsCleared.colSettle := by
  unfold State.resetUnits State.unitsLogged State.unitsCleared
  dsimp only

theorem State.colSettle_eq (s : State) : ∃ c, s.colSettle = { s with col := c } := by
  unfold State.colSettle
  split
  · exact ⟨_, rfl⟩
  · exact ⟨s.col, rfl⟩

theorem State.resetUnits_units (s : State) : s.resetUnits.strands = State.reset.strands ∧ s.resetUnits.jobs = []
    ∧ s.resetUnits.se = {} ∧ s.resetUnits.mbx = {} := by
  obtain ⟨c, hc⟩ := s.unitsLogged.unitsCleared.colSettle_eq
  rw [State.resetUnits_eq, hc]
  exact ⟨rfl, rfl, rfl, rfl⟩

theorem State.resetUnits_leaves (s : State) : s.resetUnits.qe = { host := s.qe.host.map fun _ => .dropped }
    ∧ s.resetUnits.host.hdm = s.host.hdm ∧ s.resetUnits.host.d2h = s.host.d2h ∧ s.resetUnits.coh.sf = s.coh.sf
    ∧ s.resetUnits.mem = s.mem := by
  have hlogged := s.unitsLogged_beyondUnits
  obtain ⟨c, hc⟩ := s.unitsLogged.unitsCleared.colSettle_eq
  rw [State.resetUnits_eq, hc]
  generalize s.unitsLogged = u at hlogged
  have hqe : u.qe = s.qe := congrArg (fun x => x.1) hlogged
  exact ⟨by rw [← hqe]; rfl, congrArg (fun x => x.2.1) hlogged, congrArg (fun x => x.2.2.1) hlogged,
    congrArg (fun x => x.2.2.2.1) hlogged, congrArg (fun x => x.2.2.2.2) hlogged⟩

/-! ### PERST# (17 R344, R349) -/

theorem State.stopMc_idle {s : State} (hwork : s.nvm.work = .none) (hcopy : s.nvm.copying = false) : s.stopMc = s :=
  if_pos ⟨hwork, by rw [hcopy]; rfl⟩

/-- The NVM at PERST#: the MC stops, and it starts from its settings where the auxiliary rail is up. -/
def State.atPerst (s : State) : State :=
  { s.stopMc with nvm := if s.stopMc.board.aux then s.stopMc.nvm.start else s.stopMc.nvm, tel := {} }

theorem exec_perstAssert {s : State} (h : s.board.perst = false) : exec .perstAssert s
    = .next (s.atPerst.conventional.setBoard { s.atPerst.conventional.board with perst := true, stopped := false, mcRdy := false }) :=
  if_neg (by rw [h]; exact Bool.false_ne_true)

theorem State.conventional_units (s : State) : s.conventional.errlog = {} ∧ s.conventional.strands = State.reset.strands
    ∧ s.conventional.engines = State.reset.engines ∧ s.conventional.vsus = State.reset.vsus ∧ s.conventional.jobs = []
    ∧ s.conventional.qe = {} ∧ s.conventional.se = {} ∧ s.conventional.mbx = {} ∧ s.conventional.coh = {}
    ∧ s.conventional.host = {} ∧ s.conventional.mem = [] ∧ s.conventional.poison = [] ∧ s.conventional.arbs = State.reset.arbs := by
  unfold State.conventional State.stage
  exact ⟨rfl, rfl, rfl, rfl, rfl, rfl, rfl, rfl, rfl, rfl, rfl, rfl, rfl⟩

theorem State.conventional_nvm (s : State) : s.conventional.nvm = s.nvm := by
  unfold State.conventional State.stage
  rfl

theorem State.conventional_tel {s : State} (h : s.tel = {}) : s.conventional.tel = {} := by
  unfold State.conventional State.stage
  dsimp only
  rw [h]

theorem exec_perstRelease {s : State} (hp : s.board.perst = true) (hst : s.board.stopped = false) :
    exec .perstRelease s = .next (s.setBoard { s.board with heldRelease := true }).tryRelease :=
  if_neg (by simp [hp, hst])

section
variable {s : State} (hp : s.board.perst = true) (hst : s.board.stopped = false)
include hp hst

theorem State.tryRelease_ready (h : (s.board.aux && s.board.mcRdy && s.board.mainPg) = true) :
    (s.setBoard { s.board with heldRelease := true }).tryRelease = s.setBoard { s.board with
      perst := false, heldRelease := false, memInfoValid := true, toOnline := s.nvm.onlineAtStart } := by
  simp only [Bool.and_eq_true] at h
  obtain ⟨⟨haux, hrdy⟩, hpg⟩ := h
  exact if_pos (by simp [State.setBoard, hp, hst, haux, hrdy, hpg])

omit hp hst in
theorem State.tryRelease_waits (h : (s.board.aux && s.board.mcRdy && s.board.mainPg) = false) :
    (s.setBoard { s.board with heldRelease := true }).tryRelease = s.setBoard { s.board with heldRelease := true } := by
  refine if_neg fun hall => ?_
  simp only [State.setBoard, Bool.and_eq_true] at hall
  obtain ⟨⟨⟨⟨-, haux⟩, hrdy⟩, hpg⟩, -⟩ := hall
  rw [haux, hrdy, hpg] at h
  cases h

end

/-! ### CXL Reset and FLR (14 R304 to R306) -/

/-- The device after the units are reset for a CXL Reset. -/
def State.cxlCleared (s : State) (clr : Bool) : State :=
  { s with
    host := { s.host with
      hdm := {}, cxlReset := some clr,
      cfg := { s.host.cfg with dvsec := { s.host.cfg.dvsec with resetMemClr := clr, resetComplete := false } } },
    coh := { s.coh with sf := [], snps := [] },
    wdt := { s.wdt with entries := [] },
    arbs := (List.zip (List.range 22) s.arbs).map fun (p : Nat × Arb) => Arb.defaults p.2 p.1 }

/-- The functions' interrupts after an FLR. -/
def State.flrCleared (s : State) : State :=
  { s with host := { s.host with msix := [], pba := [], msixEnable := false, funcMask := false, d3hot := false, flr := false } }

theorem State.flrDone_eq (s : State) : s.flrDone = s.resetUnits.flrCleared.rerun := rfl

section
variable {s : State} (hon : s.chipOn = true)
include hon

theorem exec_cxlReset (clr : Bool) (h : s.host.cxlReset = none) :
    exec (.cxlReset clr) s = .next (s.resetUnits.cxlCleared clr).rerun :=
  if_neg (by simp [hon, h])

/-- The end of a CXL Reset. -/
def State.cxlEnded (s : State) : State :=
  { s with host := { s.host with cxlReset := none,
                                 cfg := { s.host.cfg with dvsec := { s.host.cfg.dvsec with resetComplete := true } } } }.send .cxlResetDone

theorem exec_cxlResetComplete (h : s.host.cxlReset = some false) : exec .cxlResetComplete s = .next s.cxlEnded := by
  change execCxlResetComplete s = _
  rw [execCxlResetComplete, h]
  dsimp only
  rw [if_neg (by simp [hon])]
  rfl

theorem exec_cxlResetComplete_clear (h : s.host.cxlReset = some true)
    (hfree : ∀ n ∈ s.onlineSegs, s.segChannelsUp n = true ∧ s.segFree n = true) : exec .cxlResetComplete s
      = .next (s.onlineSegs.foldl (fun s n => s.zeroFill (segBase n) 0x40000000) s).cxlEnded := by
  have hall : s.onlineSegs.all (fun n => s.segChannelsUp n && s.segFree n) = true := by
    rw [List.all_eq_true]
    intro n hn
    obtain ⟨hup, hseg⟩ := hfree n hn
    rw [hup, hseg]
    rfl
  change execCxlResetComplete s = _
  rw [execCxlResetComplete, h]
  dsimp only
  rw [if_neg (by simp [hon]), hall]
  rfl

theorem exec_flr : exec .flr s = .next (if s.errlog.fatal || ({ s with host := { s.host with flr := true } } : State).allAtBoundary
    then ({ s with host := { s.host with flr := true } } : State).flrDone else { s with host := { s.host with flr := true } }) :=
  if_neg (by simp [hon])

end

theorem step_flrDue {s : State} (hp : s.pending = []) (hon : s.unitsOn = true) (hflr : s.host.flr = true) (hat : s.allAtBoundary = true) :
    step s = .next (State.mcIdle (if (if s.flrDone.seIdle then s.flrDone.rerun else s.flrDone).unitsOn then
      ((if s.flrDone.seIdle then s.flrDone.rerun else s.flrDone).flushFlits.loopIn)
      else (if s.flrDone.seIdle then s.flrDone.rerun else s.flrDone))) := by
  rw [step_idle hp]
  unfold State.idle
  rw [if_pos (by simp [hon, hflr, hat])]

end Sys2Proof.Machine

open Sys2Proof Sys2Proof.Machine

/-- Settles O49: PERST# by what a conventional reset sets, CXL Reset and FLR by what a reset of the units leaves. -/
theorem resets : Obligations.Resets := by
  intro s
  obtain ⟨hstrands, hjobs, hse, hmbx⟩ := s.resetUnits_units
  obtain ⟨hqe, hhdm, hd2h, hsf, hmem⟩ := s.resetUnits_leaves
  refine ⟨fun hp => ?assert, fun hp hst => ⟨fun hready => ?release, fun hready => ?held⟩,
    fun hon => ⟨fun clr h => ?cxl,
      fun h => ⟨_, exec_cxlResetComplete hon h, rfl, rfl, rfl, rfl⟩,
      fun h hfree => ⟨_, exec_cxlResetComplete_clear hon h hfree, rfl, ?out, fun p hp hpon a hlo hhi =>
        State.memGet_foldl_zeroFill s (State.mem_onlineSegs hp hpon) hlo hhi⟩, ?flr⟩,
    ?flrDone, step_flrDue⟩
  case assert =>
    obtain ⟨herr, hstr, heng, hvsu, hjob, hq, hs, hm, hcoh, hhost, hme, hpoi, harb⟩ := s.atPerst.conventional_units
    refine ⟨_, exec_perstAssert hp, rfl, rfl, herr, hstr, heng, hvsu, hjob, hq, hs, hm, hcoh, hhost, hme, hpoi, harb,
      State.conventional_tel rfl, fun hwork hcopy => (State.conventional_nvm _).trans ?_⟩
    rw [State.atPerst, State.stopMc_idle hwork hcopy]
  case cxl =>
    have hexec := exec_cxlReset hon clr h
    generalize s.resetUnits = u at *
    exact ⟨_, hexec, rfl, hstrands, hqe, hse, hmbx, rfl, hd2h, rfl, rfl, rfl, hmem⟩
  case flrDone =>
    have hdone := s.flrDone_eq
    generalize s.resetUnits = u at *
    exact ⟨_, hdone, hstrands, hjobs, hqe, hse, hmbx, rfl, rfl, rfl, rfl, hhdm, hd2h, hsf, hmem⟩
  case release => rw [exec_perstRelease hp hst, State.tryRelease_ready hp hst hready]
  case held => rw [exec_perstRelease hp hst, State.tryRelease_waits hready]
  case out => exact congrArg (Out.cxlResetDone :: ·) (State.foldl_zeroFill_out ..)
  case flr =>
    intro u
    refine ⟨fun hf hb => ?_, fun h => ?_⟩
    · rw [exec_flr hon, if_neg (by rw [hf, hb]; exact Bool.false_ne_true)]
    · rw [exec_flr hon, if_pos (Bool.or_eq_true_iff.2 h)]
end

section
/-!
The end of the training and what is held at it (17 R350, 15 R311).
-/
namespace Sys2Proof.Machine

open Sys2Proof Sys2Proof.Tests

/-! ### A state that the training clause does not hold of (17 R350, 15 R311) -/

/-- A host's write of 1 to the byte at 0x1000 of the device. -/
def writeOfOne : Instr := .memwr 0x2000001000 .inv 1 (List.replicate 64 1) ⟨false, []⟩

/-- The channels stand before their training, segment 0 is online, region 0 is still in self-refresh though its SELFREF is
0, and the host's write is held: the end of the training makes the memory active, region 0 leaves self-refresh, and what is
held runs. -/
def heldAtTraining : State :=
  let s := hostS []
  let t : State := { s with board := { s.board with trained := false, memActive := false },
                            coh := { s.coh with held := [writeOfOne] } }
  t.setPwr 0 { t.region 0 with selfref := false, selfrefStat := true }

theorem heldAtTraining_writes :
    (after (.lpddrTrainingComplete []) heldAtTraining).map (fun t => memGet t.mem 0x1000) = some 1
      ∧ memGet heldAtTraining.mem 0x1000 = 0 := by
  decide +kernel

theorem heldAtTraining_meets : heldAtTraining.unitsOn = true ∧ heldAtTraining.board.trained = false
    ∧ heldAtTraining.board.chipBistLeft = false ∧ heldAtTraining.board.bistLeft = [] := by
  decide +kernel

end Sys2Proof.Machine

open Sys2Proof Sys2Proof.Machine Sys2Proof.Tests

/-- Refutes O50: the clause of the training says that its end leaves the memory as it was. Where it makes the memory active, a
region whose SELFREF is 0 leaves self-refresh, which runs the held commands again (R311), and a held write of the host takes
place: heldAtTraining, whose byte at 0x1000 turns from 0 to 1. The statement is over every state, so also over one with a
segment online before the training. -/
theorem not_startUp : ¬Obligations.StartUp := by
  intro h
  obtain ⟨-, -, -, -, -, -, -, -, -, hunits⟩ := h heldAtTraining
  obtain ⟨hon, htrained, hchip, hbist⟩ := heldAtTraining_meets
  obtain ⟨hends, -⟩ := hunits hon
  obtain ⟨t, ht, -, -, -, hmem⟩ := hends htrained hchip hbist
  obtain ⟨hone, hzero⟩ := heldAtTraining_writes
  have hafter : after (.lpddrTrainingComplete []) heldAtTraining = some t := by rw [after, ht]
  rw [hafter, Option.map_some, hmem, hzero] at hone
  exact absurd hone (by decide)
end

section
/-!
The commands of the non-volatile memory (16 R328 to R336).
-/
namespace Sys2Proof.Machine

open Sys2Proof

/-! ### The start of a command (16 R328, R329) -/

section
variable {s : State} (hfree : (s.hostOn && s.mcOn && s.nvm.state != 1) = true)
include hfree

theorem nvsStart_starts (op : Nat) (w : NvsWork) :
    nvsStart op w s = .next ({ s with fresh := s.fresh + 1 }.setNvm
      { s.nvm with op := BitVec.ofNat 4 op, state := 1, err := 0, work := w, flash := flashOf (Config.flash s.fresh) }) := by
  simp only [Bool.and_eq_true, bne_iff_ne] at hfree
  obtain ⟨⟨hhost, hmc⟩, hst⟩ := hfree
  rw [nvsStart, if_neg (by simp [hhost]), if_neg (by simp [hmc, hst])]

end

/-! ### What the acts of a command leave -/

/-- What no act changes, no list of acts changes. -/
theorem Nvm.foldl_act {α : Type} (f : Nvm → α) (hf : ∀ n o, f (n.act o) = f n) (ops : List JOp) (n : Nvm) :
    f (ops.foldl Nvm.act n) = f n := by
  induction ops generalizing n with
  | nil => rfl
  | cons o ops ih => exact (ih _).trans (hf n o)

theorem Nvm.boot_of {m n : Nvm} (h0 : m.boot0 = n.boot0) (h1 : m.boot1 = n.boot1) : m.boot = n.boot := by
  rw [Nvm.boot, Nvm.boot, Nvm.bootOne, Nvm.bootOne, h0, h1]

theorem Nvm.act_boot (n : Nvm) (o : JOp) : (n.act o).boot = n.boot :=
  Nvm.boot_of (n.act_boot0 o) (n.act_boot1 o)

theorem Nvm.bank_setBank (n : Nvm) (b : Bool) (bs : List Byte) : (n.setBank b bs).bank b = bs := by
  cases b <;> rfl

theorem Nvm.bank_setBank_other (n : Nvm) (b : Bool) (bs : List Byte) : (n.setBank (!b) bs).bank b = n.bank b := by
  cases b <;> rfl

theorem Nvm.bank_putBoot (n : Nvm) (r : BootRec) (b : Bool) : (n.putBoot r).bank b = n.bank b := by
  rw [Nvm.bank, Nvm.bank, Nvm.putBoot_bankA, Nvm.putBoot_bankB]

/-! ### The image in the inactive bank (R336) -/

theorem putAt_end (a bs : List Byte) : putAt a a.length bs = a ++ bs :=
  if_pos rfl

/-- The units of an image, one after the other: a bank that holds the units before them then holds the image's rest. -/
theorem Nvm.bank_pieces (b : Bool) (fuel : Nat) : ∀ (xs : List Byte) (i : Nat) (n : Nvm), xs.length ≤ 16 * fuel →
    (n.bank b).length = 16 * i ∨ xs = [] →
    (((List.zip (List.range' i (piecesFuel 16 fuel xs).length) (piecesFuel 16 fuel xs)).map fun p =>
      JOp.putBank b (16 * p.1) p.2).foldl Nvm.act n).bank b = n.bank b ++ xs := by
  induction fuel with
  | zero =>
    intro xs i n hlen _
    obtain rfl : xs = [] := List.eq_nil_of_length_eq_zero (Nat.le_zero.1 hlen)
    exact (List.append_nil _).symm
  | succ fuel ih =>
    intro xs i n hlen hi
    cases xs with
    | nil => exact (List.append_nil _).symm
    | cons x xs =>
      have hbank : (n.bank b).length = 16 * i := hi.resolve_right (List.cons_ne_nil x xs)
      have hput : (n.act (.putBank b (16 * i) ((x :: xs).take 16))).bank b = n.bank b ++ (x :: xs).take 16 := by
        rw [Nvm.act, Nvm.bank_setBank, ← hbank, putAt_end]
      have hrest : (n.bank b ++ (x :: xs).take 16).length = 16 * (i + 1) ∨ (x :: xs).drop 16 = [] := by
        by_cases h16 : 16 ≤ (x :: xs).length
        · exact .inl (by rw [List.length_append, hbank, List.length_take, Nat.min_eq_left h16]; omega)
        · exact .inr (List.drop_eq_nil_of_le (Nat.le_of_not_le h16))
      have hih := ih ((x :: xs).drop 16) (i + 1) (n.act (.putBank b (16 * i) ((x :: xs).take 16)))
        (by rw [List.length_drop]; omega) (by rw [hput]; exact hrest)
      rw [hput, List.append_assoc, List.take_append_drop] at hih
      exact hih

theorem Nvm.pendingBank_updateOps (n : Nvm) (img : List Byte) : ((n.updateOps img).foldl Nvm.act n).bank (!n.boot.active) = img := by
  have herased : (n.act (.eraseBank (!n.boot.active))).bank (!n.boot.active) = [] := Nvm.bank_setBank ..
  have h := Nvm.bank_pieces (!n.boot.active) img.length img 0 (n.act (.eraseBank (!n.boot.active))) (by omega) (.inl (by rw [herased]; rfl))
  rw [herased, List.nil_append, ← List.range_eq_range'] at h
  exact h

/-- An act of an update: it writes the inactive bank. -/
def JOp.onBank (b : Bool) : JOp → Bool
  | .eraseBank k => k == b
  | .putBank k _ _ => k == b
  | _ => false

theorem Nvm.bank_act_other (n : Nvm) (b : Bool) (o : JOp) (ho : o.onBank (!b) = true) : (n.act o).bank b = n.bank b := by
  cases o with
  | erase | put => cases ho
  | eraseBank k | putBank k =>
    obtain rfl : k = !b := eq_of_beq ho
    exact Nvm.bank_setBank_other ..

theorem Nvm.bank_foldl_other (b : Bool) (ops : List JOp) (n : Nvm) (hops : ∀ o ∈ ops, o.onBank (!b) = true) :
    (ops.foldl Nvm.act n).bank b = n.bank b := by
  induction ops generalizing n with
  | nil => rfl
  | cons o ops ih =>
    exact (ih _ fun p hp => hops p (List.mem_cons_of_mem o hp)).trans (n.bank_act_other b o (hops o List.mem_cons_self))

theorem Nvm.updateOps_onBank (n : Nvm) (img : List Byte) : ∀ o ∈ n.updateOps img, o.onBank (!n.boot.active) = true := by
  intro o ho
  rcases List.mem_cons.1 ho with rfl | ho
  · exact beq_self_eq_true _
  · obtain ⟨p, -, rfl⟩ := List.mem_map.1 ho
    exact beq_self_eq_true _

theorem Nvm.activeBank_of {m n : Nvm} (hboot : m.boot.active = n.boot.active) (hbank : m.bank n.boot.active = n.bank n.boot.active) :
    m.activeBank = n.activeBank := by
  change m.bank m.boot.active = n.bank n.boot.active
  rw [hboot, hbank]

/-- The NVM with an image in its inactive bank, as it turns pending. -/
def Nvm.updated (n : Nvm) (img : List Byte) : Nvm :=
  ((n.updateOps img).foldl Nvm.act n).putBoot { n.boot with pending := true }

section
variable (n : Nvm) (img : List Byte)

theorem Nvm.activeBank_foldl_updateOps : ((n.updateOps img).foldl Nvm.act n).activeBank = n.activeBank :=
  Nvm.activeBank_of (congrArg BootRec.active (Nvm.foldl_act _ Nvm.act_boot _ _)) (Nvm.bank_foldl_other _ _ _ (n.updateOps_onBank img))

/-- A difference at the read-back: one unit of the image holds other bytes, and the boot record stays. -/
theorem Nvm.act_torn (off : Nat) (bs : List Byte) :
    let m := ((n.updateOps img).foldl Nvm.act n).act (.putBank (!n.boot.active) off bs)
    m.boot = n.boot ∧ m.activeBank = n.activeBank := by
  intro m
  have hfold : ((n.updateOps img).foldl Nvm.act n).boot = n.boot := Nvm.foldl_act _ Nvm.act_boot _ _
  have hboot : m.boot = n.boot := (Nvm.act_boot ..).trans hfold
  refine ⟨hboot, Nvm.activeBank_of (congrArg _ hboot) ?_⟩
  exact (Nvm.bank_act_other _ _ _ (beq_self_eq_true _)).trans (Nvm.bank_foldl_other _ _ _ (n.updateOps_onBank img))

variable (h0 : n.boot0.seq < 2 ^ 32) (h1 : n.boot1.seq < 2 ^ 32)
include h0 h1

theorem Nvm.updated_boot : (n.updated img).boot = { n.boot with pending := true } := by
  refine Nvm.boot_putBoot _ _ ?_ ?_
  · rw [Nvm.foldl_act Nvm.boot0 Nvm.act_boot0]; exact h0
  · rw [Nvm.foldl_act Nvm.boot1 Nvm.act_boot1]; exact h1

theorem Nvm.updated_pendingBank : (n.updated img).pendingBank = img := by
  rw [Nvm.pendingBank, n.updated_boot img h0 h1, Nvm.updated, Nvm.bank_putBoot]
  exact n.pendingBank_updateOps img

theorem Nvm.updated_activeBank : (n.updated img).activeBank = n.activeBank := by
  refine Nvm.activeBank_of (by rw [n.updated_boot img h0 h1]) ?_
  rw [Nvm.updated, Nvm.bank_putBoot, Nvm.bank_foldl_other _ _ _ (n.updateOps_onBank img)]

end

/-! ### The end of a command (R330 to R336) -/

theorem State.nvsDone_settled (s : State) (m : Nvm) : (s.nvsDone m.settle 2 0).nvm.state = 2 ∧ (s.nvsDone m.settle 2 0).nvm.err = 0
    ∧ (s.nvsDone m.settle 2 0).nvm.applied = m.replayed.applied ∧ (s.nvsDone m.settle 2 0).mem = s.mem :=
  ⟨rfl, rfl, rfl, rfl⟩

/-- A compaction erases an area first, which a worn sector refuses. -/
theorem Nvm.compactOps_erases (n : Nvm) : n.compactOps.any JOp.erases = true := rfl

section
variable {s : State} (hmc : s.mcOn = true) (hst : s.nvm.state = 1)
include hmc hst

theorem exec_nvsComplete_store {vs : List (Nat × List Byte)} (hw : s.nvm.work = .store vs) (hf : s.nvm.flash ≠ .worn) :
    exec .nvsCommandComplete s = .next (s.nvsDone ((s.nvm.storeOps vs).foldl Nvm.act s.nvm).settle 2 0) := by
  change execNvsCommandComplete s = _
  rw [execNvsCommandComplete, if_neg (by simp [hmc, hst]), hw]
  simp only [Nvm.workOps, hw, hf, false_and, if_false]

theorem exec_nvsComplete_compact (hw : s.nvm.work = .compact) (hf : s.nvm.flash ≠ .worn) :
    exec .nvsCommandComplete s = .next (s.nvsDone (s.nvm.compactOps.foldl Nvm.act s.nvm).settle 2 0) := by
  change execNvsCommandComplete s = _
  rw [execNvsCommandComplete, if_neg (by simp [hmc, hst]), hw]
  simp only [Nvm.workOps, hw, hf, false_and, if_false]

theorem exec_nvsComplete_compact_worn (hw : s.nvm.work = .compact) (hf : s.nvm.flash = .worn) :
    exec .nvsCommandComplete s = .next (s.nvsDone s.nvm 3 7) := by
  change execNvsCommandComplete s = _
  rw [execNvsCommandComplete, if_neg (by simp [hmc, hst]), hw]
  simp only [Nvm.workOps, hw, hf, Nvm.compactOps_erases, true_and, if_true]

theorem exec_nvsComplete_update {a n : Nat} (hw : s.nvm.work = .update a n) :
    exec .nvsCommandComplete s = .next (s.finishUpdate a n) := by
  change execNvsCommandComplete s = _
  rw [execNvsCommandComplete, if_neg (by simp [hmc, hst]), hw]

end

/-- What an update does with an image that its checks let through, by what the flash meets. -/
def State.imageWritten (s : State) (img : List Byte) : State :=
  match s.nvm.flash with
  | .good => s.nvsDone (s.nvm.updated img) 2 0
  | .mismatch =>
    { s with fresh := s.fresh + 1 }.nvsDone
      (((s.nvm.updateOps img).foldl Nvm.act s.nvm).act (.putBank (!s.nvm.boot.active) 0 (leBytes 16 (Config.tornUnit s.fresh).toNat))) 3 6
  | .worn => s.nvsDone s.nvm 3 7

section
variable {s : State} {a n : Nat} (halign : a % 64 = 0) (hmin : 0x100 ≤ n) (hmax : n ≤ 0x400000) (hend : a + n ≤ 0xF000000000)
include halign hmin hmax hend

theorem State.updateCheck_reads (hon : s.unitsOn = true) : s.updateCheck a n =
    (if (s.read a n).2 then 3 else imageErr (memGetN s.mem a n) s.nvm.rollback.toNat, memGetN s.mem a n) := by
  rw [State.updateCheck, if_neg (by omega), if_neg (by simp [hon])]
  rfl

omit halign hmin hmax hend in
theorem State.meet_unitsOn (rs : List (Nat × Nat)) : (s.meet rs).unitsOn = s.unitsOn := by
  rw [State.unitsOn, State.unitsOn, State.chipOn, State.chipOn, State.meet_board, State.meet_fatal]

theorem State.finishUpdate_checks (hon : s.unitsOn = true) (hgate : (s.gate .nvsCommandComplete [(a, n)] []).isNone = true)
    (hread : ((s.meet [(a, n)]).read a n).2 = false) :
    s.finishUpdate a n = if imageErr (memGetN s.mem a n) s.nvm.rollback.toNat ≠ 0 then
        (s.meet [(a, n)]).nvsDone s.nvm 3 (imageErr (memGetN s.mem a n) s.nvm.rollback.toNat)
      else (s.meet [(a, n)]).imageWritten (memGetN s.mem a n) := by
  have hbytes : (memGetN s.mem a n).isEmpty = false :=
    List.isEmpty_eq_false_iff.2 (List.ne_nil_of_length_pos (by rw [memGetN_len]; omega))
  have hmet : (s.meet [(a, n)]).updateCheck a n = (imageErr (memGetN s.mem a n) s.nvm.rollback.toNat, memGetN s.mem a n) := by
    rw [State.updateCheck_reads halign hmin hmax hend ((State.meet_unitsOn _).trans hon), hread, State.meet_mem, State.meet_nvm]
    rfl
  rw [State.finishUpdate, State.updateCheck_reads halign hmin hmax hend hon, hbytes, if_neg Bool.false_ne_true,
    Option.isNone_iff_eq_none.1 hgate]
  dsimp only
  rw [hmet, State.readMark_clean _ _ _ hread, State.meet_nvm]
  rw [State.imageWritten, State.meet_nvm]
  rfl

end

theorem State.nvsDone_banks (s : State) (m : Nvm) (st err : Nat) : (s.nvsDone m st err).nvm.boot = m.boot
    ∧ (s.nvsDone m st err).nvm.pendingBank = m.pendingBank ∧ (s.nvsDone m st err).nvm.activeBank = m.activeBank :=
  ⟨rfl, rfl, rfl⟩

section
variable {s : State} (img : List Byte)

theorem State.imageWritten_good (hf : s.nvm.flash = .good) (h0 : s.nvm.boot0.seq < 2 ^ 32) (h1 : s.nvm.boot1.seq < 2 ^ 32) :
    (s.imageWritten img).nvm.state = 2 ∧ (s.imageWritten img).nvm.pendingBank = img
      ∧ (s.imageWritten img).nvm.activeBank = s.nvm.activeBank ∧ (s.imageWritten img).nvm.boot.pending = true := by
  obtain ⟨hboot, hpending, hactive⟩ := s.nvsDone_banks (s.nvm.updated img) 2 0
  have ht : s.imageWritten img = s.nvsDone (s.nvm.updated img) 2 0 := by rw [State.imageWritten, hf]
  rw [ht]
  exact ⟨rfl, hpending.trans (s.nvm.updated_pendingBank img h0 h1), hactive.trans (s.nvm.updated_activeBank img h0 h1),
    hboot ▸ congrArg BootRec.pending (s.nvm.updated_boot img h0 h1)⟩

theorem State.imageWritten_mismatch (hf : s.nvm.flash = .mismatch) :
    (s.imageWritten img).nvm.state = 3 ∧ (s.imageWritten img).nvm.err = 6 ∧ (s.imageWritten img).nvm.boot = s.nvm.boot
      ∧ (s.imageWritten img).nvm.activeBank = s.nvm.activeBank := by
  obtain ⟨hboot, hbank⟩ := s.nvm.act_torn img 0 (leBytes 16 (Config.tornUnit s.fresh).toNat)
  rw [State.imageWritten, hf]
  exact ⟨rfl, rfl, hboot, hbank⟩

theorem State.imageWritten_worn (hf : s.nvm.flash = .worn) :
    (s.imageWritten img).nvm = { s.nvm with state := 3, err := 7, work := .none } := by
  rw [State.imageWritten, hf]
  rfl

end

end Sys2Proof.Machine

open Sys2Proof Sys2Proof.Machine

/-- Settles O52: the commands start by nvsStart, and each kind of work ends by its own equation. -/
theorem nvmCommands : Obligations.NvmCommands := by
  intro s
  refine ⟨fun hfree => ⟨⟨_, nvsStart_starts hfree _ _⟩, ⟨_, nvsStart_starts hfree _ _⟩, _, nvsStart_starts hfree _ _⟩,
    fun hmc hst h0 h1 => ⟨fun vs hw hf => ⟨_, exec_nvsComplete_store hmc hst hw hf, State.nvsDone_settled ..⟩,
      fun hw hf => ?compact,
      exec_nvsComplete_compact_worn hmc hst, fun a n hw halign hmin hmax hend hon hgate hread => ?update⟩⟩
  case compact =>
    obtain ⟨hstate, herr, happlied, -⟩ := State.nvsDone_settled s (s.nvm.compactOps.foldl Nvm.act s.nvm)
    exact ⟨_, exec_nvsComplete_compact hmc hst hw hf, hstate, herr, happlied⟩
  intro e
  have hn : (s.meet [(a, n)]).nvm = s.nvm := State.meet_nvm s _
  have hexec := (exec_nvsComplete_update hmc hst hw).trans
    (congrArg _ (State.finishUpdate_checks halign hmin hmax hend hon hgate hread))
  refine ⟨_, hexec, fun he hf => ?_, fun he hf => ?_, fun he hf => ?_, fun he => ?_⟩
  · rw [if_neg (Classical.not_not.2 he), ← hn]
    exact State.imageWritten_good _ (hn ▸ hf) (hn ▸ h0) (hn ▸ h1)
  · rw [if_neg (Classical.not_not.2 he), ← hn]
    exact State.imageWritten_mismatch _ (hn ▸ hf)
  · rw [if_neg (Classical.not_not.2 he), ← hn]
    exact State.imageWritten_worn _ (hn ▸ hf)
  · rw [if_pos he]
    rfl
end

section
/-!
SUPPORT. What a step does to device memory: an operation that stores nothing leaves it as it was (`_mem`), one that
stores keeps its canonical form (`_wf`; 10 R206, log entry 5).
-/
namespace Sys2Proof.Machine

open Sys2Proof

@[simp] theorem State.mem_ite (c : Prop) [Decidable c] (s t : State) :
    (if c then s else t).mem = if c then s.mem else t.mem := apply_ite State.mem c s t

@[simp] theorem Memory.wf_ite (c : Prop) [Decidable c] (m k : List Host.Cell) :
    Memory.wf (if c then m else k) = if c then Memory.wf m else Memory.wf k := apply_ite Memory.wf c m k

theorem Memory.wf_of_mem {s t : State} (hm : t.mem = s.mem) (h : Memory.wf s.mem = true) :
    Memory.wf t.mem = true := hm ▸ h

@[simp] theorem State.foldl_mem {α : Type} (f : State → α → State)
    (hf : ∀ s a, (f s a).mem = s.mem) (l : List α) (s : State) : (l.foldl f s).mem = s.mem := by
  induction l generalizing s with
  | nil => rfl
  | cons a l ih => exact (ih _).trans (hf s a)

theorem State.foldl_wf {α : Type} {f : State → α → State}
    (hf : ∀ s a, Memory.wf s.mem = true → Memory.wf (f s a).mem = true)
    (l : List α) {s : State} (h : Memory.wf s.mem = true) : Memory.wf (l.foldl f s).mem = true := by
  induction l generalizing s with
  | nil => exact h
  | cons a l ih => exact ih (hf s a h)

@[simp] theorem State.forN_mem (s : State) (k : Nat) (f : Nat → State → State) (hf : ∀ i s, (f i s).mem = s.mem) :
    (s.forN k f).mem = s.mem := State.foldl_mem _ (fun s a => hf a s) _ s

theorem State.forN_wf (k : Nat) {f : Nat → State → State}
    (hf : ∀ i s, Memory.wf s.mem = true → Memory.wf (f i s).mem = true)
    {s : State} (h : Memory.wf s.mem = true) : Memory.wf (s.forN k f).mem = true :=
  State.foldl_wf (fun s a => hf a s) _ h

/-- The state that a meaning answers, if it answers one, has a canonical memory. -/
def WfOut (o : Out1) : Prop := ∀ t, o = .next t → Memory.wf t.mem = true

@[simp] theorem WfOut_next (t : State) : WfOut (.next t) ↔ Memory.wf t.mem = true := by
  simp [WfOut]

@[simp] theorem WfOut_fault (f : Fault) : WfOut (.fault f) := by
  simp [WfOut]

@[simp] theorem WfOut_ite (c : Prop) [Decidable c] (o q : Out1) :
    WfOut (if c then o else q) ↔ (c → WfOut o) ∧ (¬c → WfOut q) := by
  split <;> simp [*]

/-- The same of the body of an instruction or a step. -/
def WfOk {κ : Type} (r : Except κ State) : Prop := ∀ t, r = .ok t → Memory.wf t.mem = true

@[simp] theorem WfOk_ok {κ : Type} (t : State) : WfOk (.ok t : Except κ State) ↔ Memory.wf t.mem = true := by
  simp [WfOk]

@[simp] theorem WfOk_error {κ : Type} (k : κ) : WfOk (.error k) := by
  simp [WfOk]

@[simp] theorem WfOk_ite {κ : Type} (c : Prop) [Decidable c] (r q : Except κ State) :
    WfOk (if c then r else q) ↔ (c → WfOk r) ∧ (¬c → WfOk q) := by
  split <;> simp [*]

theorem WfOk.ite {κ : Type} {c : Prop} [Decidable c] {r q : Except κ State} (hr : WfOk r) (hq : WfOk q) :
    WfOk (if c then r else q) := (WfOk_ite c r q).2 ⟨fun _ => hr, fun _ => hq⟩

/-- A body that keeps the memory canonical. -/
def WfBody {κ : Type} (b : State → Except κ State) : Prop := ∀ s : State, Memory.wf s.mem = true → WfOk (b s)

end Sys2Proof.Machine
end

section
/-!
SUPPORT. The memory past each operation: the register files, memory, the log and the error bookkeeping.
-/
namespace Sys2Proof.Machine

open Sys2Proof

@[simp] theorem State.rasCorrected_mem (s : State) (bit : Nat) : (s.rasCorrected bit).mem = s.mem := (rfl)

@[simp] theorem State.sendEv_mem (s : State) (cls : Nat) : (s.sendEv cls).mem = s.mem := by simp [State.sendEv]

@[simp] theorem State.logOffline_mem (s : State) (a : Nat) (isWrite : Bool) :
    (s.logOffline a isWrite).mem = s.mem := by simp [State.logOffline]

@[simp] theorem State.eccAt_mem (s : State) (a n : Nat) (ecc : Ecc) : (s.eccAt a n ecc).mem = s.mem := by
  unfold State.eccAt
  split <;> simp

@[simp] theorem State.readMark_mem (s : State) (a n : Nat) :
    (s.readMark a n).mem = s.mem := by simp [State.readMark]

@[simp] theorem State.write_wf {s : State} (a : Nat) (bs : List Byte) (bad : Bool) (h : Memory.wf s.mem = true) :
    Memory.wf (s.write a bs bad).mem = true :=
  State.wf_write s a bs bad h

@[simp] theorem State.poisonWritten_mem (s : State) (a : Nat) :
    (s.poisonWritten a).mem = s.mem := by simp [State.poisonWritten]

@[simp] theorem State.zeroFill_wf {s : State} (a n : Nat) (h : Memory.wf s.mem = true) :
    Memory.wf (s.zeroFill a n).mem = true := State.wf_zeroFill s a n h

@[simp] theorem State.wake_mem (s : State) (r : RegionId) : (s.wake r).mem = s.mem := by simp [State.wake]

@[simp] theorem State.markRow_mem (s : State) (base bits : Nat) (ws : List Wr) :
    (s.markRow base bits ws).mem = s.mem :=
  State.foldl_mem _ (fun _ _ => by rfl) ..

@[simp] theorem State.writeRow_wf {s : State} (base bits : Nat) (ws : List Wr) (h : Memory.wf s.mem = true) :
    Memory.wf (s.writeRow base bits ws).mem = true := by
  simp [State.writeRow, h]

@[simp] theorem State.writeRows_wf {s : State} (rows : List (Nat × Nat × List Wr)) (h : Memory.wf s.mem = true) :
    Memory.wf (s.writeRows rows).mem = true := by
  have hw := State.foldl_wf (fun s x hs => State.write_wf (s := s) x.1
      (packCodes x.2.1 (x.2.2.map (·.code))) false hs) rows h
  exact Memory.wf_of_mem (by simp [State.writeRows]) hw

@[simp] theorem State.storeTile_wf {s : State} (t : Tile) (x : Stored) (h : Memory.wf s.mem = true) :
    Memory.wf (s.storeTile t x).mem = true := by
  unfold State.storeTile
  extract_lets idx rows errs s1 s2
  have h2 : Memory.wf s2.mem = true := State.foldl_wf (fun s p hs => State.write_wf _ _ _ hs) _ (State.writeRows_wf _ h)
  exact Memory.wf_of_mem (State.foldl_mem _ (fun s p => by split <;> rfl) ..) h2

@[simp] theorem State.snoop_mem (s : State) (l n : Nat) (data : Bool) (evict : Bool) :
    (s.snoop l n data evict).mem = s.mem := by simp [State.snoop]

@[simp] theorem State.snoopWrite_mem (s : State) (blk : Bool) (ls : List Nat) (l : Nat) :
    (s.snoopWrite blk ls l).mem = s.mem := by simp [State.snoopWrite]

@[simp] theorem State.holdReq_mem (s : State) (c : Instr) : (s.holdReq c).mem = s.mem := (rfl)

theorem State.ask_mem {s t : State} {blk : Bool} {reads writes : List (Nat × Nat)}
    (h : s.ask blk reads writes = some t) :
    t.mem = s.mem := by
  unfold State.ask at h
  dsimp only at h
  split at h
  · cases h
  · cases h; simp

@[simp] theorem State.holdAccess_mem (s : State) (c : Instr) (rs : List (Nat × Nat)) :
    (s.holdAccess c rs).mem = s.mem := by simp [State.holdAccess]

theorem State.gateWith_mem {s t : State} {b : Bool} {c : Instr} {r w : List (Nat × Nat)}
    (h : s.gateWith b c r w = some t) :
    t.mem = s.mem := by
  unfold State.gateWith at h
  obtain ⟨u, hu, rfl⟩ := Option.map_eq_some_iff.1 h
  simp [State.ask_mem hu]

theorem State.gate_mem {s t : State} {c : Instr} {r w : List (Nat × Nat)} (h : s.gate c r w = some t) :
    t.mem = s.mem :=
  State.gateWith_mem h

@[simp] theorem State.addRec_mem (s : State) (r : CRec) : (s.addRec r).mem = s.mem := by simp [State.addRec]

@[simp] theorem State.recordLaunch_mem (s : State) (l : Launch) (status reason fn kind pc : Nat) :
    (s.recordLaunch l status reason fn kind pc).mem = s.mem := by simp [State.recordLaunch]

@[simp] theorem State.unblock_mem (s : State) (n : Nat) : (s.unblock n).mem = s.mem := (rfl)

@[simp] theorem State.closeLaunch_mem (s : State) (id : Nat) : (s.closeLaunch id).mem = s.mem := (rfl)

@[simp] theorem State.endPart_mem (s : State) (n : StrandId) (id : Nat) (halted : Bool) :
    (s.endPart n id halted).mem = s.mem := by
  unfold State.endPart
  dsimp only
  split
  · rfl
  · split <;> simp

@[simp] theorem State.poisonJobs_mem (s : State) (n : StrandId) : (s.poisonJobs n).mem = s.mem := by
  refine State.foldl_mem _ (fun s j => ?_) ..
  split
  · exact State.foldl_mem _ (fun _ _ => by rfl) ..
  · rfl

@[simp] theorem State.mapOwned_mem (s : State) (n : StrandId) (f : Part → Part) :
    (s.mapOwned n f).mem = s.mem := (rfl)

@[simp] theorem State.dropStore_mem (s : State) (n : StrandId) : (s.dropStore n).mem = s.mem := by
  unfold State.dropStore
  split <;> simp

@[simp] theorem State.strandFaultAt_mem (s : State) (n : StrandId) (k : Kind) (pc : Nat) :
    (s.strandFaultAt n k pc).mem = s.mem := by
  unfold State.strandFaultAt
  dsimp only
  split
  · rfl
  · split
    · simp
    · split <;> simp

@[simp] theorem State.strandFault_mem (s : State) (n : StrandId) (k : Kind) :
    (s.strandFault n k).mem = s.mem := by simp [State.strandFault]

@[simp] theorem State.arrival_mem (s : State) (n : StrandId) (i : Nat) :
    (s.arrival n i).mem = s.mem := by simp [State.arrival]

@[simp] theorem State.goto_mem (s : State) (n : StrandId) (pc : Nat) :
    (s.goto n pc).mem = s.mem := by simp [State.goto]

@[simp] theorem State.advance_mem (s : State) (n : StrandId) :
    (s.advance n).mem = s.mem := by simp [State.advance]

/-- An instruction whose body keeps the memory canonical does so at its issue. -/
theorem State.issue_wf {s : State} {n : StrandId} {w : Word64} {op : Nat} {dec win : Bool} {body : Body}
    (h : Memory.wf s.mem = true) (hb : WfBody body) : Memory.wf (s.issue n w op dec win body).mem = true := by
  have hu : Memory.wf (s.atIssue n w).mem = true := Memory.wf_of_mem (s.atIssue_mem n w) h
  unfold State.issue
  split
  · exact h
  · split
    · simp [h]
    · dsimp only
      split
      · simp [h]
      · change Memory.wf (State.mem (if _ then
            match body (s.atIssue n w) with
            | .ok t => if _ then t.modStrand n _ else t
            | .error k => (s.atIssue n w).strandFault n k
          else if _ then
            match body (s.atIssue n w) with
            | .error .decode => (s.atIssue n w).strandFault n .decode
            | .error .format => (s.atIssue n w).strandFault n .format
            | .error .sequence => (s.atIssue n w).strandFault n .sequence
            | .error _ => (s.atIssue n w).advance n
            | .ok t => if (s.atIssue n w).heldAt n t then (s.atIssue n w).modStrand n _ else (s.atIssue n w).advance n
          else (s.atIssue n w).advance n)) = true
        have ht : ∀ t, body (s.atIssue n w) = .ok t → Memory.wf t.mem = true := hb _ hu
        (repeat' split) <;> simp [*]

theorem State.wf_issue {s : State} {n : StrandId} {w : Word64} {op : Nat} {dec win : Bool} {body : Body}
    (h : Memory.wf s.mem = true)
    (hb : WfBody body) : WfOut (.next (s.issue n w op dec win body)) :=
  (WfOut_next ..).2 (State.issue_wf h hb)

@[simp] theorem State.holdStrand_mem (s : State) (n : StrandId) : (s.holdStrand n).mem = s.mem := (rfl)

theorem State.preRead_wf {s : State} {n : StrandId} {c : Instr} {rs : List (Nat × Nat)} {r : Except Kind State}
    (h : Memory.wf s.mem = true)
    (hr : s.preRead n c rs = some r) : WfOk r := by
  unfold State.preRead at hr
  split at hr
  · cases hr; simp
  · split at hr
    · cases hr; simpa using h
    · obtain ⟨u, hu, rfl⟩ := Option.map_eq_some_iff.1 hr
      simp [State.gate_mem hu, h]

theorem State.preReads_wf {s : State} {n : StrandId} {c : Instr} {st : List (List (Nat × Nat))} {r : Except Kind State}
    (h : Memory.wf s.mem = true) (hr : s.preReads n c st = some r) : WfOk r := by
  obtain ⟨rs, -, hrs⟩ := List.exists_of_findSome?_eq_some hr
  exact State.preRead_wf h hrs

end Sys2Proof.Machine
end

section
/-!
SUPPORT. The memory past each operation: the scalar instructions and the vector instructions.
-/
namespace Sys2Proof.Machine

open Sys2Proof

theorem regBody_wf (n : StrandId) (f : Strand → Strand) : WfBody (regBody n f) := fun s hs => by simp [regBody, hs]

theorem aluBody_wf (n : StrandId) (w : Word64) (g : Word → Word → Word) : WfBody (aluBody n w g) := regBody_wf _ _

@[simp] theorem execNop_wf (n : StrandId) (f : Fetched) {s : State} (h : Memory.wf s.mem = true) :
    WfOut (execNop n f s) := by
  unfold execNop
  dsimp only
  split
  · simp [h]
  · split
    · simp [h]
    · exact State.wf_issue h (regBody_wf _ _)

@[simp] theorem execAdd_wf (n : StrandId) (w : Word64) {s : State} (h : Memory.wf s.mem = true) :
    WfOut (execAdd n w s) := State.wf_issue h (aluBody_wf _ _ _)

@[simp] theorem execSub_wf (n : StrandId) (w : Word64) {s : State} (h : Memory.wf s.mem = true) :
    WfOut (execSub n w s) := State.wf_issue h (aluBody_wf _ _ _)

@[simp] theorem execMul_wf (n : StrandId) (w : Word64) {s : State} (h : Memory.wf s.mem = true) :
    WfOut (execMul n w s) := State.wf_issue h (aluBody_wf _ _ _)

@[simp] theorem execAnd_wf (n : StrandId) (w : Word64) {s : State} (h : Memory.wf s.mem = true) :
    WfOut (execAnd n w s) := State.wf_issue h (aluBody_wf _ _ _)

@[simp] theorem execOr_wf (n : StrandId) (w : Word64) {s : State} (h : Memory.wf s.mem = true) :
    WfOut (execOr n w s) := State.wf_issue h (aluBody_wf _ _ _)

@[simp] theorem execXor_wf (n : StrandId) (w : Word64) {s : State} (h : Memory.wf s.mem = true) :
    WfOut (execXor n w s) := State.wf_issue h (aluBody_wf _ _ _)

@[simp] theorem execShl_wf (n : StrandId) (w : Word64) {s : State} (h : Memory.wf s.mem = true) :
    WfOut (execShl n w s) := State.wf_issue h (aluBody_wf _ _ _)

@[simp] theorem execShr_wf (n : StrandId) (w : Word64) {s : State} (h : Memory.wf s.mem = true) :
    WfOut (execShr n w s) := State.wf_issue h (aluBody_wf _ _ _)

@[simp] theorem execSra_wf (n : StrandId) (w : Word64) {s : State} (h : Memory.wf s.mem = true) :
    WfOut (execSra n w s) := State.wf_issue h (aluBody_wf _ _ _)

@[simp] theorem execAddi_wf (n : StrandId) (w : Word64) {s : State} (h : Memory.wf s.mem = true) :
    WfOut (execAddi n w s) := State.wf_issue h (regBody_wf _ _)

@[simp] theorem execCmp_wf (n : StrandId) (w : Word64) {s : State} (h : Memory.wf s.mem = true) :
    WfOut (execCmp n w s) := State.wf_issue h (regBody_wf _ _)

@[simp] theorem execPlog_wf (n : StrandId) (w : Word64) {s : State} (h : Memory.wf s.mem = true) :
    WfOut (execPlog n w s) := State.wf_issue h (regBody_wf _ _)

@[simp] theorem execFmov_wf (n : StrandId) (w : Word64) {s : State} (h : Memory.wf s.mem = true) :
    WfOut (execFmov n w s) := State.wf_issue h (regBody_wf _ _)

@[simp] theorem execFop_wf (n : StrandId) (w : Word64) {s : State} (h : Memory.wf s.mem = true) :
    WfOut (execFop n w s) := by
  refine State.wf_issue h fun s hs => ?_
  split
  · simp
  · exact regBody_wf _ _ s hs

@[simp] theorem execSpec_wf (n : StrandId) (w : Word64) {s : State} (h : Memory.wf s.mem = true) :
    WfOut (execSpec n w s) := State.wf_issue h (regBody_wf _ _)

@[simp] theorem execClrc_wf (n : StrandId) (w : Word64) {s : State} (h : Memory.wf s.mem = true) :
    WfOut (execClrc n w s) := State.wf_issue h (regBody_wf _ _)

theorem ldsBody_wf (n : StrandId) (w : Word64) (ecc : Ecc) : WfBody (ldsBody n w ecc) := by
  intro s hs
  unfold ldsBody
  dsimp only
  split
  · simp
  · simp [regBody, hs]

@[simp] theorem execLds_wf (n : StrandId) (w : Word64) (ecc : Ecc) {s : State} (h : Memory.wf s.mem = true) :
    WfOut (execLds n w ecc s) := State.wf_issue h (ldsBody_wf n w ecc)

@[simp] theorem execSts_wf (n : StrandId) (w : Word64) {s : State} (h : Memory.wf s.mem = true) :
    WfOut (execSts n w s) := by
  unfold execSts
  refine State.wf_issue h fun s hs => ?_
  dsimp only
  (repeat' split) <;> simp [hs]

@[simp] theorem execLdm_wf (n : StrandId) (w : Word64) {s : State} (h : Memory.wf s.mem = true) :
    WfOut (execLdm n w s) := by
  refine State.wf_issue h fun s hs => ?_
  split
  · simp
  · split
    · simpa using hs
    · split
      next u hu => simp [State.gate_mem hu, hs]
      next => simp [hs]

@[simp] theorem execLdmDataReturn_wf (n : StrandId) (ecc : Ecc) {s : State} (h : Memory.wf s.mem = true) :
    WfOut (execLdmDataReturn n ecc s) := by
  unfold execLdmDataReturn
  dsimp only
  split
  · split
    · simp [h]
    · split
      next u hu => simp [State.gate_mem hu, h]
      next => simp [h]
  · simp [h]

@[simp] theorem execStm_wf (n : StrandId) (q : StoreWord) {s : State} (h : Memory.wf s.mem = true) :
    WfOut (execStm n q s) := by
  refine State.wf_issue h fun s hs => ?_
  split
  · simp
  · split
    next u hu => simp [State.gate_mem hu, hs]
    next => simp [hs]

@[simp] theorem execBr_wf (n : StrandId) (w : Word64) {s : State} (h : Memory.wf s.mem = true) :
    WfOut (execBr n w s) := by
  unfold execBr
  refine State.wf_issue h fun s hs => ?_
  simp [hs]

@[simp] theorem execRep_wf (n : StrandId) (w : Word64) {s : State} (h : Memory.wf s.mem = true) :
    WfOut (execRep n w s) := by
  unfold execRep
  dsimp only
  split
  · simp [h]
  · exact State.wf_issue h fun s hs => by simp [hs]

theorem tdChecked_wf {w : Word64} {reads : Strand → Bool} {n : StrandId} {body : Body} (hb : WfBody body) :
    WfBody (tdChecked w reads n body) := by
  intro s hs
  have hbs := hb s hs
  simp [tdChecked, hbs]

theorem tdBody_wf (n : StrandId) (i v : Nat) : WfBody (tdBody n i v) := fun s hs => by simp [tdBody, regBody, hs]

@[simp] theorem execTdld_wf (n : StrandId) (w : Word64) {s : State} (h : Memory.wf s.mem = true) :
    WfOut (execTdld n w s) := by
  refine State.wf_issue h (tdChecked_wf fun s hs => ?_)
  split
  · simp
  next a _ =>
    have ht : ∀ v, WfOk (tdBody n (fmtT w).td v (s.meet [(a, 16)])) := fun v => tdBody_wf _ _ _ _ (by simp [hs])
    simp [hs, ht]

@[simp] theorem execTdst_wf (n : StrandId) (w : Word64) {s : State} (h : Memory.wf s.mem = true) :
    WfOut (execTdst n w s) := by
  refine State.wf_issue h (tdChecked_wf fun s hs => ?_)
  split <;> simp [hs]

@[simp] theorem execTdmov_wf (n : StrandId) (w : Word64) {s : State} (h : Memory.wf s.mem = true) :
    WfOut (execTdmov n w s) :=
  State.wf_issue h (tdChecked_wf fun s hs => tdBody_wf _ _ _ s hs)

@[simp] theorem execTdset_wf (n : StrandId) (w : Word64) {s : State} (h : Memory.wf s.mem = true) :
    WfOut (execTdset n w s) := by
  refine State.wf_issue h (tdChecked_wf fun s hs => ?_)
  dsimp only
  split
  · simp
  · exact tdBody_wf _ _ _ _ hs

@[simp] theorem execTdget_wf (n : StrandId) (w : Word64) {s : State} (h : Memory.wf s.mem = true) :
    WfOut (execTdget n w s) :=
  State.wf_issue h (tdChecked_wf (regBody_wf _ _))

@[simp] theorem execTdadd_wf (n : StrandId) (w : Word64) {s : State} (h : Memory.wf s.mem = true) :
    WfOut (execTdadd n w s) :=
  State.wf_issue h (tdChecked_wf (regBody_wf _ _))

end Sys2Proof.Machine
end

section
/-!
SUPPORT. The memory past each operation: the matrix unit and the vector stage unit.
-/
namespace Sys2Proof.Machine

open Sys2Proof

@[simp] theorem blockLog_mem (s : State) (b : BlockId) (n : StrandId) (ecc : Ecc) (structure_ : Nat) :
    (blockLog s b n ecc structure_).mem = s.mem := by
  unfold blockLog
  split <;> simp

theorem State.loadRow_mem {s t : State} {b : BlockId} {p : PartNo} {n : StrandId} {j : Job} {it : Item}
    {rows rows' : List (List Cell)} {ecc : Ecc} (h : s.loadRow b p n j it rows ecc = .ok (t, rows')) :
    t.mem = s.mem := by
  unfold State.loadRow at h
  dsimp only at h
  split at h
  · cases h
  · split at h <;> cases h
    simp

@[simp] theorem execStationaryRowLoad_wf (b : BlockId) (p : PartNo) (ecc : Ecc) {s : State}
    (h : Memory.wf s.mem = true) :
    WfOut (execStationaryRowLoad b p ecc s) := by
  unfold execStationaryRowLoad
  split
  · simp [h]
  · split
    · simp [h]
    · split
      next u hu => simp [State.gate_mem hu, h]
      next =>
        dsimp only
        split
        · simp [h]
        next t _ ht =>
          have := State.loadRow_mem ht
          (repeat' split) <;> simp_all

@[simp] theorem execStationarySwap_wf (b : BlockId) (p : PartNo) {s : State} (h : Memory.wf s.mem = true) :
    WfOut (execStationarySwap b p s) := by
  unfold execStationarySwap
  dsimp only
  (repeat' split) <;> simp [h]

@[simp] theorem State.t4Error_mem (s : State) (b : BlockId) (n : StrandId) (ecc : Ecc) :
    (s.t4Error b n ecc).mem = s.mem := by simp [State.t4Error]

@[simp] theorem State.parityErrors_mem (s : State) (b : BlockId) (p : PartNo) (n : StrandId)
    (cells : List (Nat × Nat)) :
    (s.parityErrors b p n cells).mem = s.mem := by simp [State.parityErrors]

@[simp] theorem execPassRowIssue_wf (b : BlockId) (p : PartNo) (badCells : List (Nat × Nat))
    (t4 : Ecc) {s : State} (h : Memory.wf s.mem = true) :
    WfOut (execPassRowIssue b p badCells t4 s) := by
  unfold execPassRowIssue
  split
  · simp [h]
  · split
    · simp [h]
    · split
      · simp [h]
      · split
        · simp [h]
        · split
          next u hu => simp [State.gate_mem hu, h]
          next => dsimp only; (repeat' split) <;> simp [h]

@[simp] theorem State.markStarted_mem (s : State) (id acc : Nat) : (s.markStarted id acc).mem = s.mem := (rfl)

@[simp] theorem State.initTile_wf {s : State} (j : Job) (acc : Nat) (h : Memory.wf s.mem = true) :
    Memory.wf (s.initTile j acc).mem = true := by simp [State.initTile, h]

@[simp] theorem State.poisonCols_mem (s : State) (a n width : Nat) (cols : List Nat) :
    (s.poisonCols a n width cols).mem = s.mem :=
  State.foldl_mem _ (fun _ _ => State.foldl_mem _ (fun _ _ => by rfl) ..) ..

@[simp] theorem State.promoteQuire_wf {s : State} (j : Job) (c : Closed) (h : Memory.wf s.mem = true) :
    Memory.wf (s.promoteQuire j c).mem = true := by
  unfold State.promoteQuire
  extract_lets n bytes s1 s2 s3
  have h2 : Memory.wf s2.mem = true := State.foldl_wf (fun s y hs => by simp [hs]) _ (by simp [s1, h])
  simp [s3, h2]

@[simp] theorem State.promoteList_wf {s : State} (j : Job) (c : Closed) (h : Memory.wf s.mem = true) :
    Memory.wf (s.promoteList j c).mem = true := by simp [State.promoteList, h]

@[simp] theorem State.promotionEcc_mem (s : State) (b : BlockId) (n : StrandId) (j : Job) (c : Closed) (ecc : Ecc) :
    (s.promotionEcc b n j c ecc).1.mem = s.mem := by
  unfold State.promotionEcc
  split <;> simp

@[simp] theorem execPromotion_wf (b : BlockId) (q : PartRead) {s : State} (h : Memory.wf s.mem = true) :
    WfOut (execPromotion b q s) := by
  unfold execPromotion
  dsimp only
  (repeat' split) <;> simp [h]

@[simp] theorem State.drainTile_wf {s : State} (j : Job) (t : AccTile) (h : Memory.wf s.mem = true) :
    Memory.wf (s.drainTile j t).mem = true := by
  unfold State.drainTile
  extract_lets mk idx s1 s2
  have h1 : Memory.wf s1.mem = true := State.foldl_wf (fun s r hs => by simp [hs]) _ h
  have h2 : Memory.wf s2.mem = true := by
    unfold s2
    split
    · exact h1
    · exact State.foldl_wf (fun s r hs => by simp [hs]) _ h1
  simp [h2]

@[simp] theorem State.drainSaddle_wf {s : State} (b : BlockId) (p : PartNo) (h : Memory.wf s.mem = true) :
    Memory.wf (s.drainSaddle b p).mem = true := by
  unfold State.drainSaddle
  dsimp only
  (repeat' split) <;> simp [h]

@[simp] theorem execAccumulatorExchange_wf (b : BlockId) (p : PartNo) (ecc : Ecc) {s : State}
    (h : Memory.wf s.mem = true) :
    WfOut (execAccumulatorExchange b p ecc s) := by
  unfold execAccumulatorExchange
  dsimp only
  (repeat' split) <;> simp [h]

@[simp] theorem execAccumulatorSwap_wf (b : BlockId) (p : PartNo) {s : State} (h : Memory.wf s.mem = true) :
    WfOut (execAccumulatorSwap b p s) := by
  unfold execAccumulatorSwap
  split <;> simp [h]

@[simp] theorem State.enqueue_mem (s : State) (j : Job) : (s.enqueue j).mem = s.mem :=
  State.foldl_mem _ (fun _ _ => by rfl) ..

theorem mmaBody_wf (n : StrandId) (w : Word64) : WfBody (mmaBody n w) := by
  intro s hs
  unfold mmaBody
  dsimp only
  split
  next hr => exact State.preReads_wf hs hr
  next =>
    split
    · simp
    · refine WfOk.ite (by simp) (WfOk.ite (by simp) (WfOk.ite (by simp [hs]) ?_))
      split
      next hg => simp [State.gate_mem hg, hs]
      next => simp [hs]

@[simp] theorem execMma_wf (n : StrandId) (w : Word64) {s : State} (h : Memory.wf s.mem = true) :
    WfOut (execMma n w s) := State.wf_issue h (mmaBody_wf n w)

@[simp] theorem vsuEcc_mem (s : State) (n : StrandId) (slot : Nat) (bad : List Nat) (xs : List Word) :
    (vsuEcc s n slot bad xs).mem = s.mem := by simp [vsuEcc]

@[simp] theorem State.writeOutputs_wf {s : State} (j : Job) (c : ChainRec) (out : Tile) (r n0 nt : Nat) (xs : List Stg)
    (h : Memory.wf s.mem = true) : Memory.wf (s.writeOutputs j c out r n0 nt xs).1.mem = true := by
  unfold State.writeOutputs
  extract_lets idx ev0 key srcs bad base e f cvs ev y s1 s2 q s3 ws s4 ev1 vs sq bad1
  have h1 : Memory.wf s1.mem = true := State.writeRow_wf _ _ _ h
  split
  · exact State.write_wf _ _ _ h
  · split
    · exact State.write_wf _ _ _ (State.write_wf _ _ _ h1)
    · split
      · exact State.foldl_wf (fun s p hs => State.write_wf _ _ _ hs) _ (State.writeRow_wf _ _ _ h)
      · have h4 : Memory.wf s4.mem = true := State.writeRow_wf _ _ _ h
        split
        · split <;> exact State.write_wf _ _ _ h4
        · exact h4

@[simp] theorem State.writeRead_wf {s : State} (j : Job) (c : ChainRec) (out : Tile) (r n0 : Nat) (vs : List Src)
    (h : Memory.wf s.mem = true) :
    Memory.wf (s.writeRead j c out r n0 vs).1.mem = true := by simp [State.writeRead, h]

@[simp] theorem State.epilogueRow_wf {s : State} (n : StrandId) (j : Job) (c : ChainRec) (t : Epi)
    (wrong : List Nat) (h : Memory.wf s.mem = true) :
    Memory.wf (s.epilogueRow n j c t wrong).mem = true := by simp [State.epilogueRow, h]

@[simp] theorem execEpilogueRowWrite_wf (b : BlockId) (q : PartWords) {s : State} (h : Memory.wf s.mem = true) :
    WfOut (execEpilogueRowWrite b q s) := by
  unfold execEpilogueRowWrite
  dsimp only
  split
  · split
    · simp [h]
    · split
      next u hu => simp [State.gate_mem hu, h]
      next => simp [h]
  · simp [h]

theorem vecBody_wf {n : StrandId} {w : Word64} {c : Instr} {u : TbUse} {ok : State → VecOps → Bool}
    {writes : VecOps → List (Nat × Nat)} {f : State → VecOps → State}
    (hf : ∀ s o, Memory.wf s.mem = true → Memory.wf (f s o).mem = true) : WfBody (vecBody n w c u ok writes f) := by
  intro s hs
  unfold vecBody
  dsimp only
  split
  · simp
  · split
    next hr => exact State.preRead_wf hs hr
    next =>
      split
      · simp
      next o _ =>
        split
        · simp
        · split
          · simp
          · split
            · simp [hs]
            · split
              next hg => simp [State.gate_mem hg, hs]
              next => simp [hf _ o, hs]

@[simp] theorem State.mapTile_wf {s : State} (n : StrandId) (o : VecOps) 
    (f : Nat → Nat → Src × (Stored → Events → Events)) (h : Memory.wf s.mem = true) :
    Memory.wf (s.mapTile n o f).mem = true := by simp [State.mapTile, h]

@[simp] theorem vec2_wf (n : StrandId) (w : Word64) (c : Instr) {s : State} (op : Nat)
    (f : VecOps → Val → Val → Val) (h : Memory.wf s.mem = true) :
    WfOut (vec2 n w c s op f) := State.wf_issue h (vecBody_wf fun s o hs => by simp [hs])

@[simp] theorem execVadd_wf (n : StrandId) (w : Word64) {s : State} (h : Memory.wf s.mem = true) :
    WfOut (execVadd n w s) := by simp [execVadd, h]

@[simp] theorem execVmul_wf (n : StrandId) (w : Word64) {s : State} (h : Memory.wf s.mem = true) :
    WfOut (execVmul n w s) := by simp [execVmul, h]

@[simp] theorem execVmax_wf (n : StrandId) (w : Word64) {s : State} (h : Memory.wf s.mem = true) :
    WfOut (execVmax n w s) := by simp [execVmax, h]

@[simp] theorem execVmin_wf (n : StrandId) (w : Word64) {s : State} (h : Memory.wf s.mem = true) :
    WfOut (execVmin n w s) := by simp [execVmin, h]

@[simp] theorem execVfma_wf (n : StrandId) (w : Word64) {s : State} (h : Memory.wf s.mem = true) :
    WfOut (execVfma n w s) := State.wf_issue h (vecBody_wf fun s o hs => by simp [hs])

@[simp] theorem execVcmp_wf (n : StrandId) (w : Word64) {s : State} (h : Memory.wf s.mem = true) :
    WfOut (execVcmp n w s) := State.wf_issue h (vecBody_wf fun s o hs => by simp [hs])

@[simp] theorem State.copyPlanes_wf {s : State} (o : VecOps) (h : Memory.wf s.mem = true) :
    Memory.wf (s.copyPlanes o).mem = true := by simp [State.copyPlanes, h]

@[simp] theorem State.vcvt_wf {s : State} (n : StrandId) (o : VecOps) (h : Memory.wf s.mem = true) :
    Memory.wf (s.vcvt n o).mem = true := by simp [State.vcvt, h]

@[simp] theorem execVcvt_wf (n : StrandId) (w : Word64) {s : State} (h : Memory.wf s.mem = true) :
    WfOut (execVcvt n w s) := State.wf_issue h (vecBody_wf fun s o hs => by simp [hs])

@[simp] theorem State.applyFn_wf {s : State} (n : StrandId) (slot : Nat) (bad : List Nat) (o : VecOps)
    (h : Memory.wf s.mem = true) :
    Memory.wf (s.applyFn n slot bad o).mem = true := by simp [State.applyFn, h]

@[simp] theorem execVfn_wf (n : StrandId) (w : Word64) (bad : List Nat) {s : State} (h : Memory.wf s.mem = true) :
    WfOut (execVfn n w bad s) := State.wf_issue h (vecBody_wf fun s o hs => by simp [hs])

@[simp] theorem execVread_wf (n : StrandId) (w : Word64) {s : State} (h : Memory.wf s.mem = true) :
    WfOut (execVread n w s) := State.wf_issue h (vecBody_wf fun s o hs => by simp [hs])

@[simp] theorem execVsc_wf (n : StrandId) (w : Word64) {s : State} (h : Memory.wf s.mem = true) :
    WfOut (execVsc n w s) := State.wf_issue h (vecBody_wf fun s o hs => by simp [hs])

@[simp] theorem execVbi_wf (n : StrandId) (w : Word64) {s : State} (h : Memory.wf s.mem = true) :
    WfOut (execVbi n w s) := State.wf_issue h (vecBody_wf fun s o hs => by simp [hs])

@[simp] theorem State.storeCodes_wf {s : State} (n : StrandId) (t : Tile) (f : Nat → Nat → Nat × Events × Bool)
    (h : Memory.wf s.mem = true) :
    Memory.wf (s.storeCodes n t f).mem = true := by simp [State.storeCodes, h]

@[simp] theorem execVds_wf (n : StrandId) (w : Word64) {s : State} (h : Memory.wf s.mem = true) :
    WfOut (execVds n w s) := State.wf_issue h (vecBody_wf fun s o hs => by simp [hs])

@[simp] theorem execVlc_wf (n : StrandId) (w : Word64) {s : State} (h : Memory.wf s.mem = true) :
    WfOut (execVlc n w s) := State.wf_issue h (vecBody_wf fun s o hs => by simp [hs])

@[simp] theorem execVrd_wf (n : StrandId) (w : Word64) {s : State} (h : Memory.wf s.mem = true) :
    WfOut (execVrd n w s) := by
  refine State.wf_issue h (vecBody_wf fun s o hs => ?_)
  rw [State.count_mem]
  exact State.foldl_wf (fun s e hs => State.write_wf _ _ _ hs) _ hs

@[simp] theorem State.modSlot_mem (s : State) (n : StrandId) (i : Nat) (f : Slot → Slot) :
    (s.modSlot n i f).mem = s.mem := (rfl)

@[simp] theorem execTload_wf (n : StrandId) (w : Word64) {s : State} (h : Memory.wf s.mem = true) :
    WfOut (execTload n w s) := by
  unfold execTload
  refine State.wf_issue h fun s hs => ?_
  simp [hs]

@[simp] theorem execTloadComplete_wf (n : StrandId) {s : State} (h : Memory.wf s.mem = true) :
    WfOut (execTloadComplete n s) := by
  unfold execTloadComplete
  (repeat' split) <;> simp [h]

@[simp] theorem execTswap_wf (n : StrandId) (w : Word64) {s : State} (h : Memory.wf s.mem = true) :
    WfOut (execTswap n w s) := by
  unfold execTswap
  refine State.wf_issue h fun s hs => ?_
  simp [hs]

@[simp] theorem execTswapTakesEffect_wf (n : StrandId) {s : State} (h : Memory.wf s.mem = true) :
    WfOut (execTswapTakesEffect n s) := by
  unfold execTswapTakesEffect
  split <;> simp [h]

end Sys2Proof.Machine
end

section
/-!
SUPPORT. The memory past each operation: hand-overs, the matrix blocks of a region, collectives and arrivals.
-/
namespace Sys2Proof.Machine

open Sys2Proof

@[simp] theorem execStgrun_wf (n : StrandId) (w : Word64) {s : State} (h : Memory.wf s.mem = true) :
    WfOut (execStgrun n w s) := by
  unfold execStgrun
  refine State.wf_issue h fun s hs => ?_
  simp [hs]

@[simp] theorem execStgwait_wf (n : StrandId) (w : Word64) {s : State} (h : Memory.wf s.mem = true) :
    WfOut (execStgwait n w s) := by
  unfold execStgwait
  refine State.wf_issue h fun s hs => ?_
  simp [hs]

@[simp] theorem State.proceed_mem (s : State) (n : StrandId) (f : Strand → Strand) :
    (s.proceed n f).mem = s.mem := by simp [State.proceed]

@[simp] theorem execStgwaitProceed_wf (n : StrandId) {s : State} (h : Memory.wf s.mem = true) :
    WfOut (execStgwaitProceed n s) := by
  unfold execStgwaitProceed
  dsimp only
  (repeat' split) <;> simp [h]

@[simp] theorem State.countIn_wf {s : State} (a : Nat) (h : Memory.wf s.mem = true) :
    Memory.wf (s.countIn a).mem = true := by simp [State.countIn, h]

@[simp] theorem execLaunchif_wf (n : StrandId) (w : Word64) {s : State} (h : Memory.wf s.mem = true) :
    WfOut (execLaunchif n w s) := by
  unfold execLaunchif
  dsimp only
  split
  · simp [h]
  · refine State.wf_issue h fun s hs => ?_
    split <;> simp [hs]

@[simp] theorem execStart_wf (n : StrandId) (w : Word64) {s : State} (h : Memory.wf s.mem = true) :
    WfOut (execStart n w s) := by
  unfold execStart
  refine State.wf_issue h fun s hs => ?_
  simp [hs]

@[simp] theorem execEndW_wf (n : StrandId) (w : Word64) {s : State} (h : Memory.wf s.mem = true) :
    WfOut (execEndW n w s) := by
  unfold execEndW
  refine State.wf_issue h fun s hs => ?_
  simp [hs]

@[simp] theorem execEndComplete_wf (n : StrandId) {s : State} (h : Memory.wf s.mem = true) :
    WfOut (execEndComplete n s) := by simp [execEndComplete, h]

@[simp] theorem execArm_wf (n : StrandId) (w : Word64) {s : State} (h : Memory.wf s.mem = true) :
    WfOut (execArm n w s) := by
  refine State.wf_issue h fun s hs => ?_
  exact WfOk.ite (regBody_wf _ _ s hs) (by simp)

@[simp] theorem execWaita_wf (n : StrandId) (w : Word64) {s : State} (h : Memory.wf s.mem = true) :
    WfOut (execWaita n w s) := by
  unfold execWaita
  refine State.wf_issue h fun s hs => ?_
  simp [hs]

@[simp] theorem execWaitaProceed_wf (n : StrandId) {s : State} (h : Memory.wf s.mem = true) :
    WfOut (execWaitaProceed n s) := by
  unfold execWaitaProceed
  dsimp only
  split
  · split
    · split <;> simp [h]
    · simp [h]
  · simp [h]

@[simp] theorem execRel_wf (n : StrandId) (w : Word64) {s : State} (h : Memory.wf s.mem = true) :
    WfOut (execRel n w s) := by
  unfold execRel
  refine State.wf_issue h fun s hs => ?_
  simp [hs]

@[simp] theorem execRelComplete_wf (n : StrandId) {s : State} (h : Memory.wf s.mem = true) :
    WfOut (execRelComplete n s) := by simp [execRelComplete, h]

@[simp] theorem execAcq_wf (n : StrandId) (w : Word64) {s : State} (h : Memory.wf s.mem = true) :
    WfOut (execAcq n w s) := State.wf_issue h (regBody_wf _ _)

@[simp] theorem execBar_wf (n : StrandId) (w : Word64) {s : State} (h : Memory.wf s.mem = true) :
    WfOut (execBar n w s) := by
  unfold execBar
  refine State.wf_issue h fun s hs => ?_
  dsimp only
  (repeat' split) <;> simp [hs]

@[simp] theorem execBarComplete_wf (n : StrandId) {s : State} (h : Memory.wf s.mem = true) :
    WfOut (execBarComplete n s) := by
  unfold execBarComplete
  split <;> simp [h]

@[simp] theorem State.noteDigest_mem (s : State) (n : StrandId) (id : Nat) :
    (s.noteDigest n id).mem = s.mem := (rfl)

@[simp] theorem State.unlist_mem (s : State) (n : StrandId) : (s.unlist n).mem = s.mem := (rfl)

@[simp] theorem State.disown_mem (s : State) (n : StrandId) : (s.disown n).mem = s.mem := (rfl)

@[simp] theorem execHalt_wf (n : StrandId) (w : Word64) {s : State} (h : Memory.wf s.mem = true) :
    WfOut (execHalt n w s) := by
  unfold execHalt
  refine State.wf_issue h fun s hs => ?_
  dsimp only
  (repeat' split) <;> simp [hs]

@[simp] theorem State.noBar0_wf {s : State} (h : Memory.wf s.mem = true) :
    WfOut (State.noBar0 s) := by simp [State.noBar0, h]

@[simp] theorem State.mbxEvent_mem (s : State) (pend : Word64) (mc : BitVec 2) :
    (s.mbxEvent pend mc).mem = s.mem := by simp [State.mbxEvent]

@[simp] theorem State.setS2h_mem (s : State) (n : StrandId) (m : Mbx) : (s.setS2h n m).mem = s.mem := (rfl)

@[simp] theorem State.setH2s_mem (s : State) (n : StrandId) (m : Mbx) : (s.setH2s n m).mem = s.mem := (rfl)

@[simp] theorem State.mbxPut_mem (s : State) (n : StrandId) (v : Word64) :
    (s.mbxPut n v).mem = s.mem := by simp [State.mbxPut]

@[simp] theorem State.mbxTake_mem (s : State) (n : StrandId) :
    (s.mbxTake n).mem = s.mem := by simp [State.mbxTake]

@[simp] theorem execMbxw_wf (n : StrandId) (w : Word64) {s : State} (h : Memory.wf s.mem = true) :
    WfOut (execMbxw n w s) := by
  unfold execMbxw
  refine State.wf_issue h fun s hs => ?_
  simp [hs]

@[simp] theorem execMbxwProceed_wf (n : StrandId) {s : State} (h : Memory.wf s.mem = true) :
    WfOut (execMbxwProceed n s) := by
  unfold execMbxwProceed
  split <;> simp [h]

@[simp] theorem execMbxr_wf (n : StrandId) (w : Word64) {s : State} (h : Memory.wf s.mem = true) :
    WfOut (execMbxr n w s) := by
  unfold execMbxr
  refine State.wf_issue h fun s hs => ?_
  simp [hs]

@[simp] theorem execMbxrProceed_wf (n : StrandId) {s : State} (h : Memory.wf s.mem = true) :
    WfOut (execMbxrProceed n s) := by
  unfold execMbxrProceed
  split <;> simp [h]

@[simp] theorem execMbxt_wf (n : StrandId) (w : Word64) {s : State} (h : Memory.wf s.mem = true) :
    WfOut (execMbxt n w s) :=
  State.wf_issue h fun s hs => regBody_wf _ _ s hs

@[simp] theorem State.overrun_mem (s : State) : s.overrun.mem = s.mem := (rfl)

@[simp] theorem State.wakeIfAsleep_mem (s : State) (r : RegionId) :
    (s.wakeIfAsleep r).mem = s.mem := by simp [State.wakeIfAsleep]

@[simp] theorem execMbxH2sWrite_wf (n : StrandId) (h : Half) (v : Word64) {s : State} (hm : Memory.wf s.mem = true) :
    WfOut (execMbxH2sWrite n h v s) := by
  unfold execMbxH2sWrite
  (repeat' split) <;> simp [hm]

@[simp] theorem execMbxS2hRead_wf (n : StrandId) (h : Half) {s : State} (hm : Memory.wf s.mem = true) :
    WfOut (execMbxS2hRead n h s) := by simp [execMbxS2hRead, hm]

@[simp] theorem execMbxH2mcWrite_wf (h : Half) (v : Word64) {s : State} (hm : Memory.wf s.mem = true) :
    WfOut (execMbxH2mcWrite h v s) := by
  unfold execMbxH2mcWrite
  (repeat' split) <;> simp [hm]

@[simp] theorem execMbxMc2hRead_wf (h : Half) {s : State} (hm : Memory.wf s.mem = true) :
    WfOut (execMbxMc2hRead h s) := by simp [execMbxMc2hRead, hm]

@[simp] theorem execMailboxLatchWrite_wf (i : Fin 33) (v : Word) {s : State} (h : Memory.wf s.mem = true) :
    WfOut (execMailboxLatchWrite i v s) := by simp [execMailboxLatchWrite, h]

@[simp] theorem State.sequencerReads_mem (s : State) (r : RegionId) :
    (s.sequencerReads r).mem = s.mem := by simp [State.sequencerReads]

@[simp] theorem execMcRegionMailboxWrite_wf (r : RegionId) (v : Word64) {s : State} (h : Memory.wf s.mem = true) :
    WfOut (execMcRegionMailboxWrite r v s) := by simp [execMcRegionMailboxWrite, h]

@[simp] theorem execMbxMc2hWrite_wf (v : Word64) {s : State} (h : Memory.wf s.mem = true) :
    WfOut (execMbxMc2hWrite v s) := by simp [execMbxMc2hWrite, h]

@[simp] theorem execMbxH2mcRead_wf {s : State} (h : Memory.wf s.mem = true) :
    WfOut (execMbxH2mcRead s) := by simp [execMbxH2mcRead, h]

theorem colBody_wf {n : StrandId} {w : Word64} {c : Instr} {ds : List Nat} {b : Body} (hb : WfBody b) :
    WfBody (colBody n w c ds b) := by
  intro s hs
  unfold colBody
  split
  · simp
  · split
    next hr => exact State.preRead_wf hs hr
    next => exact hb _ (by simp [hs])

theorem colRun_wf {n : StrandId} {reads writes sides : List (Nat × Nat)} {f : State → State}
    (hf : ∀ s, Memory.wf s.mem = true → Memory.wf (f s).mem = true) : WfBody (colRun n reads writes sides f) := by
  intro s hs
  unfold colRun
  dsimp only
  (repeat' split) <;> simp [hf, hs]

@[simp] theorem State.putPairs_wf {s : State} (t : Tile) (rows : List (List (Nat × Nat × Bool)))
    (h : Memory.wf s.mem = true) :
    Memory.wf (s.putPairs t rows).mem = true := by simp [State.putPairs, h]

@[simp] theorem execChstep_wf (n : StrandId) (w : Word64) {s : State} (h : Memory.wf s.mem = true) :
    WfOut (execChstep n w s) := by
  refine State.wf_issue h (colBody_wf fun s hs => ?_)
  dsimp only
  split
  · exact WfOk.ite (by simp) (colRun_wf (fun s hs => by simp [hs]) _ hs)
  · simp

@[simp] theorem execTrstep_wf (n : StrandId) (w : Word64) {s : State} (h : Memory.wf s.mem = true) :
    WfOut (execTrstep n w s) := by
  refine State.wf_issue h (colBody_wf fun s hs => ?_)
  dsimp only
  split
  · exact WfOk.ite (by simp) (colRun_wf (fun s hs => by simp [hs]) _ hs)
  · simp

@[simp] theorem execTkmerge_wf (n : StrandId) (w : Word64) {s : State} (h : Memory.wf s.mem = true) :
    WfOut (execTkmerge n w s) := by
  refine State.wf_issue h (colBody_wf fun s hs => ?_)
  dsimp only
  split
  · exact WfOk.ite (by simp) (colRun_wf (fun s hs => State.foldl_wf (fun s e hs => by simp [hs]) _ hs) _ hs)
  · simp

@[simp] theorem execSmxc_wf (n : StrandId) (w : Word64) {s : State} (h : Memory.wf s.mem = true) :
    WfOut (execSmxc n w s) := by
  refine State.wf_issue h (colBody_wf fun s hs => ?_)
  dsimp only
  split
  · exact WfOk.ite (by simp) (colRun_wf (fun s hs => State.foldl_wf (fun s e hs => by simp [hs]) _ hs) _ hs)
  · simp

@[simp] theorem execSmxd_wf (n : StrandId) (w : Word64) {s : State} (h : Memory.wf s.mem = true) :
    WfOut (execSmxd n w s) := by
  refine State.wf_issue h (colBody_wf fun s hs => ?_)
  split
  · exact WfOk.ite (by simp) (colRun_wf (fun s hs => by simp [hs]) _ hs)
  · simp

@[simp] theorem execPrcomb_wf (n : StrandId) (w : Word64) {s : State} (h : Memory.wf s.mem = true) :
    WfOut (execPrcomb n w s) := by
  refine State.wf_issue h (colBody_wf fun s hs => ?_)
  dsimp only
  split
  · exact WfOk.ite (by simp) (colRun_wf (fun s hs => State.foldl_wf (fun s e hs => by simp [hs]) _ hs) _ hs)
  · simp

end Sys2Proof.Machine
end

section
/-!
SUPPORT. The memory past each operation: mailboxes, sessions and the session engine.
-/
namespace Sys2Proof.Machine

open Sys2Proof

@[simp] theorem State.setCounts_wf {s : State} (e : SessEnt) (resident spilled : Nat) (h : Memory.wf s.mem = true) :
    Memory.wf (s.setCounts e resident spilled).mem = true := by simp [State.setCounts, h]

@[simp] theorem State.logEntry_mem (s : State) (a sess : Nat) :
    (s.logEntry a sess).mem = s.mem := by simp [State.logEntry]

theorem State.seHold_mem {s t : State} {n : StrandId} {c : Instr} (h : s.seHold n c = some t) : t.mem = s.mem := by
  unfold State.seHold at h
  split at h <;> cases h
  simp

theorem State.findGate_mem {s t : State} {c : Instr} {q i : Nat} (h : s.findGate c q i = some t) : t.mem = s.mem := by
  unfold State.findGate at h
  split at h
  · cases h
  · split at h
    next hg => cases h; exact State.gate_mem hg
    next =>
      dsimp only at h
      split at h
      · cases h
      · exact State.gate_mem h

@[simp] theorem State.meetSess_mem (s : State) (q : Nat) :
    (s.meetSess q).mem = s.mem := by simp [State.meetSess]

@[simp] theorem State.meetFind_mem (s : State) (q i : Nat) :
    (s.meetFind q i).mem = s.mem := by simp [State.meetFind]

theorem sessRun_wf {n : StrandId} {w : Word64} {op : Nat} {c : Instr} {s : State}
    {writes : SessEnt → DirEnt → List (Nat × Nat)}
    {f : State → Found → State} (h : Memory.wf s.mem = true)
    (hf : ∀ s r, Memory.wf s.mem = true → Memory.wf (f s r).mem = true) :
    Memory.wf (sessRun n w op c s writes f).mem = true := by
  refine State.issue_wf h fun s hs => ?_
  split
  next hh => simp [State.seHold_mem hh, hs]
  next =>
    dsimp only
    split
    next hg => simp [State.findGate_mem hg, hs]
    next =>
      split
      · split
        next hg => simp [State.gate_mem hg, hs]
        next => simp [hf, hs]
      · simp [hf, hs]

@[simp] theorem State.sessFail_mem (s : State) (n : StrandId) (pd : Nat) :
    (s.sessFail n pd).mem = s.mem := by simp [State.sessFail]

@[simp] theorem execSalloc_wf (n : StrandId) (w : Word64) {s : State} (h : Memory.wf s.mem = true) :
    WfOut (execSalloc n w s) := by
  refine (WfOut_next ..).2 (sessRun_wf h fun s r hs => ?_)
  dsimp only
  (repeat' split) <;> simp [hs]

@[simp] theorem State.lookDone_mem (s : State) (n : StrandId) (a pd page : Nat) :
    (s.lookDone n a pd page).mem = s.mem := by simp [State.lookDone]

@[simp] theorem execSlook_wf (n : StrandId) (w : Word64) {s : State} (h : Memory.wf s.mem = true) :
    WfOut (execSlook n w s) := by
  refine (WfOut_next ..).2 (sessRun_wf h fun s r hs => ?_)
  dsimp only
  (repeat' split) <;> simp [hs]

@[simp] theorem State.dropD2h_mem (s : State) (a : D2HAgent) (isRead : Bool) :
    (s.dropD2h a isRead).mem = s.mem := (rfl)

@[simp] theorem State.recallDone_wf {s : State} (n : StrandId) (data : List Byte) (poisoned : Bool)
    (h : Memory.wf s.mem = true) :
    Memory.wf (s.recallDone n data poisoned).mem = true := by
  unfold State.recallDone
  split
  · split
    · exact h
    · extract_lets c s1
      have h1 : Memory.wf s1.mem = true := by simp [s1, h]
      split
      next hg => rwa [State.findGate_mem hg]
      next =>
        split
        · extract_lets dst s2 sum s3 s4 s5 s6 s7
          split
          next hg => rwa [State.gate_mem hg]
          next =>
            have h4 : Memory.wf s4.mem = true := State.write_wf _ _ _ (by simp [s3, s2, h1])
            have h6 : Memory.wf s6.mem = true := State.write_wf _ _ _ (State.write_wf _ _ _ h4)
            have h7 : Memory.wf s7.mem = true := State.setCounts_wf _ _ _ h6
            simp [h7]
        · simp [h1]
        · simp [h1]
  · exact h

@[simp] theorem execSfree_wf (n : StrandId) (w : Word64) {s : State} (h : Memory.wf s.mem = true) :
    WfOut (execSfree n w s) := by
  refine (WfOut_next ..).2 (sessRun_wf h fun s r hs => ?_)
  dsimp only
  (repeat' split) <;> simp [hs]

@[simp] theorem execSsum_wf (n : StrandId) (w : Word64) {s : State} (h : Memory.wf s.mem = true) :
    WfOut (execSsum n w s) := by
  refine State.wf_issue h fun s hs => ?_
  dsimp only
  split
  · simp
  · refine WfOk.ite (by simp [hs]) ?_
    · split
      next hh => simp [State.seHold_mem hh, hs]
      next =>
        refine WfOk.ite (by simp [hs]) ?_
        split
        next hg => simp [State.gate_mem hg, hs]
        next => simp [hs]

@[simp] theorem execDgadd_wf (n : StrandId) (w : Word64) {s : State} (h : Memory.wf s.mem = true) :
    WfOut (execDgadd n w s) := by
  unfold execDgadd
  refine State.wf_issue h fun s hs => ?_
  dsimp only
  (repeat' split) <;> simp [hs]

@[simp] theorem execDgfin_wf (n : StrandId) (w : Word64) {s : State} (h : Memory.wf s.mem = true) :
    WfOut (execDgfin n w s) :=
  State.wf_issue h fun s hs => WfOk.ite (regBody_wf _ _ s hs) (by simp [hs])

@[simp] theorem State.seDone_mem (s : State) : s.seDone.mem = s.mem := (rfl)

@[simp] theorem State.seRefuse_mem (s : State) (err : Nat) : (s.seRefuse err).mem = s.mem := (rfl)

@[simp] theorem State.seCmd_mem (s : State) (op sess : Nat) : (s.seCmd op sess).mem = s.mem := (rfl)

theorem seRun_wf {op sess : Nat} {c : Instr} {s : State} {f : State → State} (h : Memory.wf s.mem = true)
    (hf : ∀ s, Memory.wf s.mem = true → Memory.wf (f s).mem = true) : WfOut (seRun op sess c s f) := by
  unfold seRun
  simp [hf, h]

theorem seGate_wf {c : Instr} {s : State} {r w : List (Nat × Nat)} {f : State → State} (h : Memory.wf s.mem = true)
    (hf : ∀ s, Memory.wf s.mem = true → Memory.wf (f s).mem = true) : Memory.wf (seGate c s r w f).mem = true := by
  unfold seGate
  split
  next hg => simp [State.gate_mem hg, h]
  next => exact hf s h

@[simp] theorem execSeBaseWrite_wf (r : SeReg) (v : Word64) {s : State} (h : Memory.wf s.mem = true) :
    WfOut (execSeBaseWrite r v s) := by simp [execSeBaseWrite, h]

@[simp] theorem execInitpool_wf {s : State} (h : Memory.wf s.mem = true) : WfOut (execInitpool s) :=
  seRun_wf h fun s hs => by simp [hs]

@[simp] theorem execOpenS_wf (i : SessionId) {s : State} (h : Memory.wf s.mem = true) : WfOut (execOpenS i s) := by
  refine seRun_wf h fun s hs => seGate_wf hs fun s hs => ?_
  extract_lets s1 e
  have h1 : Memory.wf s1.mem = true := by simp [s1, hs]
  split
  · simp [h1]
  · split
    · simp [h1]
    · split
      · simp [h1]
      · refine seGate_wf h1 fun s hs => ?_
        extract_lets s2 s3
        have h2 : Memory.wf s2.mem = true := State.write_wf _ _ _ hs
        simp [s3, h2]

@[simp] theorem State.logBadEntries_mem (s : State) (q : Nat) (e : SessEnt) :
    (s.logBadEntries q e).mem = s.mem := by simp [State.logBadEntries]

@[simp] theorem execCloseS_wf (i : SessionId) {s : State} (h : Memory.wf s.mem = true) : WfOut (execCloseS i s) := by
  refine seRun_wf h fun s hs => seGate_wf hs fun s hs => ?_
  extract_lets s1 e
  have h1 : Memory.wf s1.mem = true := by simp [s1, hs]
  split
  · simp [h1]
  · split
    · simp [h1]
    · refine seGate_wf h1 fun s hs => ?_
      extract_lets s2 ds
      have h2 : Memory.wf s2.mem = true := by simp [s2, hs]
      split
      · simp [h2]
      · exact seGate_wf h2 fun s hs => by simp [hs]

@[simp] theorem spillGo_mem (q : SessionId) (e : SessEnt) (fuel i : Nat) (s : State) :
    (spillGo q e fuel i s).mem = s.mem := by
  induction fuel generalizing i s with
  | zero => simp [spillGo]
  | succ fuel ih =>
    unfold spillGo
    dsimp only
    split
    · simp
    · split
      next hg => simp [State.gate_mem hg]
      next =>
        split
        · simp [ih]
        · split
          · simp [ih]
          · split
            · simp [ih]
            · split
              · simp
              · split
                next hg => simp [State.gate_mem hg]
                next => simp

@[simp] theorem execSpill_wf (i : SessionId) {s : State} (h : Memory.wf s.mem = true) : WfOut (execSpill i s) := by
  unfold execSpill
  split
  · simp [h]
  · exact seRun_wf h fun s hs => seGate_wf hs fun s hs => by simp [hs]

@[simp] theorem State.spillStep_wf {s : State} (h : Memory.wf s.mem = true) : Memory.wf s.spillStep.mem = true := by
  unfold State.spillStep
  split
  · exact h
  · split
    · exact h
    · dsimp only
      have hs : ∀ (t : State) (e : SessEnt) (a b m n : Nat) (l : List Byte) (p : List Byte × Bool),
          Memory.wf t.mem = true →
          Memory.wf (((t.write a p.1 p.2).write b l false).setCounts e m n).mem = true := fun t e a b m n l p ht =>
        State.setCounts_wf _ _ _ (State.write_wf _ _ _ (State.write_wf _ _ _ ht))
      split
      · rw [State.setSe_mem, State.setSe_mem]
        exact hs _ _ _ _ _ _ _ _ (by simp [h])
      · rw [spillGo_mem, State.setSe_mem]
        exact hs _ _ _ _ _ _ _ _ (by simp [h])

@[simp] theorem State.stgOutcome_mem (s : State) (e : EngineId) (ok : Bool) :
    (s.stgOutcome e ok).mem = s.mem := (rfl)

@[simp] theorem State.colSettle_mem (s : State) : s.colSettle.mem = s.mem := by simp [State.colSettle]

@[simp] theorem State.settleEngine_mem (s : State) (e : EngineId) :
    (s.settleEngine e).mem = s.mem := by simp [State.settleEngine]

@[simp] theorem State.engineFault_mem (s : State) (e : EngineId) (k : SKind) :
    (s.engineFault e k).mem = s.mem := by simp [State.engineFault]

@[simp] theorem State.engClosed_mem (s : State) (e : EngineId) (f : State → State) (hf : ∀ s, (f s).mem = s.mem) :
    (s.engClosed e f).mem = s.mem := by
  unfold State.engClosed
  dsimp only
  split <;> simp [hf]

@[simp] theorem State.stepFault_mem (s : State) (e : EngineId) (k : SKind) :
    (s.stepFault e k).mem = s.mem := by simp [State.stepFault]

@[simp] theorem State.peerDone_mem (s : State) (e : EngineId) (tag : Nat) :
    (s.peerDone e tag).mem = s.mem := by simp [State.peerDone]

@[simp] theorem State.peerLost_mem (s : State) (e : EngineId) (tag : Nat) : (s.peerLost e tag).mem = s.mem := by
  unfold State.peerLost
  split <;> simp

@[simp] theorem State.hostWriteDone_mem (s : State) (e : EngineId) :
    (s.hostWriteDone e).mem = s.mem := by simp [State.hostWriteDone]

@[simp] theorem State.engGoto_mem (s : State) (e : EngineId) (i : Nat) :
    (s.engGoto e i).mem = s.mem := by simp [State.engGoto]

@[simp] theorem State.engNext_mem (s : State) (e : EngineId) :
    (s.engNext e).mem = s.mem := by simp [State.engNext]

@[simp] theorem State.engStored_mem (s : State) (e : EngineId) :
    (s.engStored e).mem = s.mem := by simp [State.engStored]

/-- A step of an engine whose body keeps the memory canonical does so. -/
theorem State.stepRun_wf {s : State} {e : EngineId} {st : Step512} {op : Nat} {dec : Bool} {body : SBody}
    (h : Memory.wf s.mem = true) (hb : WfBody body) : Memory.wf (s.stepRun e st op dec body).mem = true := by
  unfold State.stepRun
  split
  · exact h
  · split
    · simp [h]
    · split
      next t ht => exact hb s h t ht
      next => simp [h]

theorem State.wf_stepRun {s : State} {e : EngineId} {st : Step512} {op : Nat} {dec : Bool} {body : SBody}
    (h : Memory.wf s.mem = true) (hb : WfBody body) : WfOut (.next (s.stepRun e st op dec body)) :=
  (WfOut_next ..).2 (State.stepRun_wf h hb)

@[simp] theorem State.addressFault_mem (s : State) (e : EngineId) (a n : Nat) (isWrite : Bool) :
    (s.addressFault e a n isWrite).mem = s.mem := by simp [State.addressFault]

@[simp] theorem State.arbGrant_mem (s : State) (a : ArbId) (pt : Fin 12) (reqs : List ArbReq) :
    (s.arbGrant a pt reqs).1.mem = s.mem := by
  unfold State.arbGrant
  dsimp only
  (repeat' split) <;> simp

@[simp] theorem State.egressPick_mem (s : State) (p : PortId) (pend : List Nat) :
    (s.egressPick p pend).1.mem = s.mem := by
  unfold State.egressPick
  dsimp only
  split <;> rfl

@[simp] theorem execCreditPeriodEnd_wf (a : ArbId) (pt : Fin 12) {s : State} (h : Memory.wf s.mem = true) :
    WfOut (execCreditPeriodEnd a pt s) := by simp [execCreditPeriodEnd, h]

@[simp] theorem execArbCommit_wf (a : ArbId) {s : State} (h : Memory.wf s.mem = true) :
    WfOut (execArbCommit a s) := by simp [execArbCommit, h]

@[simp] theorem State.owe_mem (s : State) (via : Nat) : (s.owe via).mem = s.mem := by simp [State.owe]

@[simp] theorem State.sendFlit_mem (s : State) (p : PortId) (f : Flit) :
    (s.sendFlit p f).mem = s.mem := by simp [State.sendFlit]

@[simp] theorem pumpGo_mem (p : PortId) (fuel : Nat) (s : State) : (pumpGo p fuel s).mem = s.mem := by
  induction fuel generalizing s with
  | zero => rfl
  | succ fuel ih =>
    unfold pumpGo
    dsimp only
    (repeat' split) <;> simp [ih]

@[simp] theorem State.pump_mem (s : State) (p : PortId) : (s.pump p).mem = s.mem := by simp [State.pump]

@[simp] theorem State.resend_mem (s : State) (p : PortId) : (s.resend p).mem = s.mem := by
  unfold State.resend
  dsimp only
  split
  · rfl
  · exact State.foldl_mem _ (fun _ _ => by rfl) ..

@[simp] theorem State.enqueueFlit_mem (s : State) (p : PortId) (f : Flit) :
    (s.enqueueFlit p f).mem = s.mem := by simp [State.enqueueFlit]

@[simp] theorem State.ownLost_mem (s : State) (m : ColMsg) :
    (s.ownLost m).mem = s.mem := by simp [State.ownLost]

@[simp] theorem State.launchFlit_mem (s : State) (f : Flit) : (s.launchFlit f).mem = s.mem := by
  unfold State.launchFlit
  split <;> simp

@[simp] theorem State.flushFlits_mem (s : State) : s.flushFlits.mem = s.mem := by simp [State.flushFlits]

@[simp] theorem State.injectMsg_mem (s : State) (tc dst req : Nat) (m : ColMsg) :
    (s.injectMsg tc dst req m).mem = s.mem := by simp [State.injectMsg]

@[simp] theorem State.respond_mem (s : State) (dst req : Nat) (m : ColMsg) :
    (s.respond dst req m).mem = s.mem := by simp [State.respond]

@[simp] theorem State.request_mem (s : State) (e : EngineId) (tc dst : Nat) (m : ColMsg) :
    (s.request e tc dst m).mem = s.mem := by simp [State.request]

end Sys2Proof.Machine
end

section
/-!
SUPPORT. The memory past each operation: the steps of the staging engines and their bursts.
-/
namespace Sys2Proof.Machine

open Sys2Proof

@[simp] theorem State.startProgram_mem (s : State) (e : EngineId) (n : StrandId) (off : Nat) (arg : Word) :
    (s.startProgram e n off arg).mem = s.mem := by simp [State.startProgram]

@[simp] theorem execStagingProgramStart_wf (e : EngineId) (n : StrandId) {s : State} (h : Memory.wf s.mem = true) :
    WfOut (execStagingProgramStart e n s) := by
  unfold execStagingProgramStart
  split <;> simp [h]

@[simp] theorem execSetx_wf (e : EngineId) (st : Step512) {s : State} (h : Memory.wf s.mem = true) :
    WfOut (execSetx e st s) := by
  unfold execSetx
  refine State.wf_stepRun h fun s hs => ?_
  simp [hs]

@[simp] theorem execLdx_wf (e : EngineId) (q : StepRead) {s : State} (h : Memory.wf s.mem = true) :
    WfOut (execLdx e q s) := by
  refine State.wf_stepRun h fun s hs => ?_
  extract_lets a
  split
  · simp
  · split
    · simp [hs]
    · split
      · simp [hs]
      · split
        next hg => simp [State.gate_mem hg, hs]
        next =>
          split <;> simp +zetaDelta [hs]

@[simp] theorem State.engStoring_mem (s : State) (e : EngineId) : (s.engStoring e).mem = s.mem := (rfl)

theorem engStore_wf (e : EngineId) (c : Instr) (found : EccList) {s : State} (a : Nat) (bs : List Byte)
    (f : State → State)
    (hf : ∀ s, Memory.wf s.mem = true → Memory.wf (f s).mem = true) (h : Memory.wf s.mem = true) :
    Memory.wf (engStore e c found s a bs f).mem = true := by
  unfold engStore
  split
  · simp [h]
  · split
    next hg => simp [State.gate_mem hg, h]
    next =>
      have hw : Memory.wf ((s.strike found).write a bs false).mem = true := State.write_wf _ _ _ (by simp [h])
      simp [hf _ hw]

@[simp] theorem execStx_wf (e : EngineId) (q : StepRead) {s : State} (h : Memory.wf s.mem = true) :
    WfOut (execStx e q s) := by
  refine State.wf_stepRun h fun s hs => ?_
  extract_lets x a
  split
  · simp
  · exact (WfOk_ok ..).2 (engStore_wf _ _ _ _ _ _ (fun _ hs => hs) hs)

@[simp] theorem execStgBr_wf (e : EngineId) (st : Step512) {s : State} (h : Memory.wf s.mem = true) :
    WfOut (execStgBr e st s) := by
  unfold execStgBr
  refine State.wf_stepRun h fun s hs => ?_
  simp [hs]

@[simp] theorem execLoop_wf (e : EngineId) (st : Step512) {s : State} (h : Memory.wf s.mem = true) :
    WfOut (execLoop e st s) := by
  unfold execLoop
  refine State.wf_stepRun h fun s hs => ?_
  simp [hs]

@[simp] theorem execCvuset_wf (e : EngineId) (st : Step512) {s : State} (h : Memory.wf s.mem = true) :
    WfOut (execCvuset e st s) := by
  unfold execCvuset
  refine State.wf_stepRun h fun s hs => ?_
  simp [hs]

@[simp] theorem execCvuout_wf (e : EngineId) (q : StepRead) {s : State} (h : Memory.wf s.mem = true) :
    WfOut (execCvuout e q s) := by
  refine State.wf_stepRun h fun s hs => ?_
  split
  · simp
  · split
    · simp
    · exact (WfOk_ok ..).2 (engStore_wf _ _ _ _ _ _ (fun _ hs => by simp [hs]) hs)

@[simp] theorem execShainit_wf (e : EngineId) (st : Step512) {s : State} (h : Memory.wf s.mem = true) :
    WfOut (execShainit e st s) := by
  unfold execShainit
  refine State.wf_stepRun h fun s hs => ?_
  simp [hs]

@[simp] theorem execShafin_wf (e : EngineId) (st : Step512) {s : State} (h : Memory.wf s.mem = true) :
    WfOut (execShafin e st s) := by
  refine State.wf_stepRun h fun s hs => ?_
  split
  · simp
  · refine (WfOk_ok ..).2 (engStore_wf _ _ _ _ _ _ (fun s hs => ?_) hs)
    extract_lets s1
    split <;> simp [s1, hs]

@[simp] theorem execArrive_wf (e : EngineId) (st : Step512) {s : State} (h : Memory.wf s.mem = true) :
    WfOut (execArrive e st s) := by
  unfold execArrive
  refine State.wf_stepRun h fun s hs => ?_
  simp [hs]

@[simp] theorem State.arrivalStep_mem (s : State) (e : EngineId) : (s.arrivalStep e).mem = s.mem := by
  unfold State.arrivalStep
  dsimp only
  (repeat' split) <;> simp

theorem State.engReads_mem {s t : State} {e : EngineId} {c : Instr} {rs : List (Nat × Nat)}
    (h : s.engReads e c rs = some t) : t.mem = s.mem := by
  unfold State.engReads at h
  split at h
  · cases h; simp
  · split at h
    · cases h; rfl
    · exact State.gate_mem h

@[simp] theorem State.engMark_mem (s : State) (rs : List (Nat × Nat)) (found : EccList) :
    (s.engMark rs found).mem = s.mem := by simp [State.engMark]

@[simp] theorem State.copyGo_mem (s : State) (e : EngineId) (c : CopyStep) (a b : Side) :
    (s.copyGo e c a b).mem = s.mem := by simp [State.copyGo]

@[simp] theorem State.fetchNext_mem (s : State) (e : EngineId) : (s.fetchNext e).mem = s.mem := by
  unfold State.fetchNext
  dsimp only
  (repeat' split) <;> simp

/-- The end of `State.copyStep`, on sides that are at hand. -/
theorem copyEnd_mem (i : Instr) (s : State) (e : EngineId) (r : StepRead) (a b : Side) :
    (if s.loopWrites e (copyReads a b) then s
     else match s.gate i (copyReads a b) [] with
     | some t => t
     | none =>
       let t := s.engMark ((copyOf r.step).headers ++ copyReads a b) r.found
       match t.copySides e (copyOf r.step) with
       | .ok (a, b) => t.copyGo e (copyOf r.step) a b
       | .error _ => t.copyGo e (copyOf r.step) a b).mem = s.mem := by
  split
  · rfl
  · split
    next hg => exact State.gate_mem hg
    next => dsimp only; split <;> simp

/-- A body that leaves the memory as it was. -/
def MemOk {κ : Type} (s : State) (r : Except κ State) : Prop := ∀ t, r = .ok t → t.mem = s.mem

@[simp] theorem MemOk_ok {κ : Type} (s t : State) : MemOk s (.ok t : Except κ State) ↔ t.mem = s.mem := by
  simp [MemOk]

@[simp] theorem MemOk_error {κ : Type} (s : State) (k : κ) : MemOk s (.error k) := by
  simp [MemOk]

theorem State.stepRun_mem (s : State) (e : EngineId) (st : Step512) (op : Nat) (dec : Bool) (body : SBody)
    (hb : ∀ s, MemOk s (body s)) : (s.stepRun e st op dec body).mem = s.mem := by
  unfold State.stepRun
  split
  · rfl
  · split
    · simp
    · split
      next t ht => exact hb s t ht
      next => simp

@[simp] theorem State.copyStep_mem (s : State) (e : EngineId) (r : StepRead) : (s.copyStep e r).mem = s.mem := by
  unfold State.copyStep
  extract_lets st c i go
  have hgo : ∀ s a b, (go s a b).mem = s.mem := fun s a b => copyEnd_mem i s e r a b
  clear_value go
  split
  · simp
  · refine State.stepRun_mem _ _ _ _ _ _ fun s => ?_
    dsimp only
    split
    next hr => exact (MemOk_ok ..).2 (State.engReads_mem hr)
    next =>
      split
      · simp
      · split
        · simp
        · split
          · simp
          · split
            · simp
            · split
              · split
                · simp [hgo]
                · split <;> simp
              · split
                · simp [hgo]
                · split <;> simp

@[simp] theorem State.copyResume_mem (s : State) (e : EngineId) : (s.copyResume e).mem = s.mem := by
  unfold State.copyResume
  split <;> simp

@[simp] theorem State.fetchData_mem (s : State) (e : EngineId) (bs : List Byte) (bad : List Bool) (last : Bool) :
    (s.fetchData e bs bad last).mem = s.mem := by
  unfold State.fetchData
  dsimp only
  split <;> simp

@[simp] theorem State.burstDone_mem (s : State) (e : EngineId) :
    (s.burstDone e).mem = s.mem := by simp [State.burstDone]

@[simp] theorem State.burstWrite_wf {s : State} (e : EngineId) (found : EccList) (h : Memory.wf s.mem = true) :
    Memory.wf (s.burstWrite e found).mem = true := by
  unfold State.burstWrite
  extract_lets x
  split
  · exact h
  next b l hb =>
    extract_lets n t u
    split
    · exact h
    · split
      · split
        · simp [h]
        · split
          next hg => simp [State.gateWith_mem hg, h]
          next =>
            have ht : Memory.wf t.mem = true := State.write_wf _ _ _ (by simp [h])
            simp [u, ht]
      · split
        · split
          · exact h
          · simp +zetaDelta [h]
        · split
          · exact h
          · simp +zetaDelta [h]

@[simp] theorem execColsum_wf (e : EngineId) (r : StepRead) {s : State} (h : Memory.wf s.mem = true) :
    WfOut (execColsum e r s) := by
  refine State.wf_stepRun h fun s hs => ?_
  extract_lets x i
  split
  next hr => simp [State.engReads_mem hr, hs]
  next =>
    split
    · extract_lets w d ok
      split
      · simp
      · split
        · simp [hs]
        · split
          · simp [hs]
          · split
            next hr => simp [State.engReads_mem hr, hs]
            next => simp +zetaDelta [hs]
    · simp
    · simp

@[simp] theorem execBucket_wf (e : EngineId) (q : StepRead) {s : State} (h : Memory.wf s.mem = true) :
    WfOut (execBucket e q s) := by
  refine State.wf_stepRun h fun s hs => ?_
  split
  · simp
  · extract_lets head r0 t r u
    split
    next hr => simp [State.engReads_mem hr, hs]
    next =>
      split
      next hg => simp [State.gateWith_mem hg, hs]
      next =>
        have hu : Memory.wf u.mem = true := State.foldl_wf (fun _ _ h => State.write_wf _ _ _ h) _ (by simp [t, hs])
        split
        · simp [hu]
        · split
          · simp [hu]
          · split <;> simp [hu]

@[simp] theorem execStgEnd_wf (e : EngineId) (st : Step512) {s : State} (h : Memory.wf s.mem = true) :
    WfOut (execStgEnd e st s) := by
  unfold execStgEnd
  refine State.wf_stepRun h fun s hs => ?_
  simp [hs]

end Sys2Proof.Machine
end

section
/-!
SUPPORT. The memory past each operation: queues, launches, and what arrives over the links.
-/
namespace Sys2Proof.Machine

open Sys2Proof

@[simp] theorem State.meetEnt_mem (s : State) (q : Nat) : (s.meetEnt q).mem = s.mem := by simp [State.meetEnt]

@[simp] theorem State.putEnt_wf {s : State} (q : Nat) (x : QEnt) (h : Memory.wf s.mem = true) :
    Memory.wf (s.putEnt q x).mem = true := by simp [State.putEnt, h]

@[simp] theorem State.qeBegin_mem (s : State) (t : QeHost) (q : Nat) : (s.qeBegin t q).mem = s.mem := (rfl)

@[simp] theorem State.mem_disableQueue (s : State) (q : Nat) :
    (s.disableQueue q).mem = s.mem := State.disableQueue_mem ..

@[simp] theorem State.poisonedQueue_mem (s : State) (q : Nat) :
    (s.poisonedQueue q).mem = s.mem := by simp [State.poisonedQueue]

@[simp] theorem State.qeStat_mem (s : State) (st err : Nat) : (s.qeStat st err).mem = s.mem := (rfl)

@[simp] theorem State.qeCmd_mem (s : State) (op q : Nat) : (s.qeCmd op q).mem = s.mem := (rfl)

@[simp] theorem execQueueEnable_wf (q : QueueId) {s : State} (h : Memory.wf s.mem = true) :
    WfOut (execQueueEnable q s) := by
  unfold execQueueEnable
  split
  · simp [h]
  · split
    · simp [h]
    · extract_lets s1 a
      have h1 : s1.mem = s.mem := by simp [s1]
      split
      · simp [h1, h]
      · split
        next hg => simp [State.gate_mem hg, h1, h]
        next =>
          split
          · simp +zetaDelta [h]
          · split
            · simp +zetaDelta [h]
            · split
              next hg => simp +zetaDelta [State.gate_mem hg, h]
              next => simp +zetaDelta [h]

@[simp] theorem execQueueDisable_wf (q : QueueId) {s : State} (h : Memory.wf s.mem = true) :
    WfOut (execQueueDisable q s) := by simp [execQueueDisable, h]

@[simp] theorem execQtbaseWrite_wf (v : Word64) {s : State} (h : Memory.wf s.mem = true) :
    WfOut (execQtbaseWrite v s) := by simp [execQtbaseWrite, h]

@[simp] theorem State.rejectDb_mem (s : State) (q : Nat) : (s.rejectDb q).mem = s.mem := (rfl)

@[simp] theorem State.setReady_mem (s : State) (q : Nat) :
    (s.setReady q).mem = s.mem := by simp [State.setReady]

@[simp] theorem State.ringDoorbell_wf {s : State} (q t : Nat) (h : Memory.wf s.mem = true) :
    Memory.wf (s.ringDoorbell q t).mem = true := by simp [State.ringDoorbell, h]

@[simp] theorem execDoorbell_wf (i : Fin 64) (bytes : Nat) (v : Word64) {s : State} (h : Memory.wf s.mem = true) :
    WfOut (execDoorbell i bytes v s) := by
  unfold execDoorbell
  dsimp only
  split
  · simp [h]
  · split
    · simp [h]
    · split
      · simp [h]
      · split
        · simp [h]
        · split
          next hg => simp [State.gate_mem hg, h]
          next => split <;> simp [h]

@[simp] theorem State.consumed_wf {s : State} (q : Nat) (h : Memory.wf s.mem = true) :
    Memory.wf (s.consumed q).mem = true := by
  unfold State.consumed
  have ht : ∀ x, Memory.wf (s.putEnt q x).mem = true := fun x => State.putEnt_wf q x h
  dsimp only
  split <;> simp [ht]

@[simp] theorem State.nextId_mem (s : State) (k : Nat) : { s with nextId := k }.mem = s.mem := (rfl)

@[simp] theorem State.takeRecord_wf {s : State} (q : Nat) (bs : List Byte) (bad : Bool) (h : Memory.wf s.mem = true) :
    Memory.wf (s.takeRecord q bs bad).mem = true := by
  have hc := State.consumed_wf q h
  unfold State.takeRecord
  extract_lets x head cq refuse
  have hr : ∀ s, (refuse s).mem = s.mem := fun s => State.addRec_mem ..
  clear_value refuse
  split
  · simp [hc]
  · split
    · rw [hr]
      exact hc
    · split
      · exact h
      · rw [State.foldl_mem _ (fun s i => by simp), State.setQe_mem]
        exact Memory.wf_of_mem (State.nextId_mem (s.consumed q) (s.nextId + 1)) hc

@[simp] theorem execDispatch_wf {s : State} (h : Memory.wf s.mem = true) : WfOut (execDispatch s) := by
  unfold execDispatch
  split
  · simp [h]
  · extract_lets d
    split
    · simp [h]
    · split
      · simp [h]
      · split
        next hg => simp [State.gate_mem hg, h]
        next =>
          dsimp only
          split
          · simp [h]
          · split
            · split <;> simp [h]
            · split
              next hg => simp [State.gate_mem hg, h]
              next => simp [h]

@[simp] theorem State.claimPart_mem (s : State) (n : StrandId) (c : Nat × Nat × Nat) :
    (s.claimPart n c).mem = s.mem := (rfl)

@[simp] theorem State.setUp_mem {s : State} (n : StrandId) (l : Launched) (h code : List Byte) :
    (s.setUp n l h code).mem = s.mem := by simp [State.setUp]

@[simp] theorem State.refuseLaunch_mem (s : State) (l : Launch) (reason : Nat) :
    (s.refuseLaunch l reason).mem = s.mem := by
  unfold State.refuseLaunch
  dsimp only
  rw [State.foldl_mem _ (fun s _ => by simp), State.closeLaunch_mem, State.recordLaunch_mem,
    State.foldl_mem _ (fun s _ => by simp)]

@[simp] theorem execBinaryLoad_wf (n : StrandId) {s : State} (h : Memory.wf s.mem = true) :
    WfOut (execBinaryLoad n s) := by
  unfold execBinaryLoad
  extract_lets x
  split
  · simp [h]
  · split
    · simp [h]
    · split
      · simp [h]
      · split
        · simp +zetaDelta [h]
        · split
          next hg => simp [State.gate_mem hg, h]
          next =>
            dsimp only
            split
            · simp [h]
            · split
              next hg => simp [State.gate_mem hg, h]
              next =>
                split
                · simp [h]
                · refine (WfOut_next ..).2 ?_
                  rw [State.modStrand_mem]
                  exact State.foldl_wf (fun s m hs => by simp [hs]) _ (by simp [h])

@[simp] theorem State.recordWritten_wf {s : State} (cq : Nat) (h : Memory.wf s.mem = true) :
    Memory.wf (s.recordWritten cq).mem = true := by simp [State.recordWritten, h]

@[simp] theorem execCompletionRecordWrite_wf (cq : QueueId) {s : State} (h : Memory.wf s.mem = true) :
    WfOut (execCompletionRecordWrite cq s) := by
  unfold execCompletionRecordWrite
  extract_lets q
  split
  · simp [h]
  · split
    · simp [h]
    · split
      next hg => simp [State.gate_mem hg, h]
      next =>
        split
        · simp +zetaDelta [h]
        · split
          · simp +zetaDelta [h]
          · split
            · split <;> simp +zetaDelta [h]
            · split
              next hg => simp +zetaDelta [State.gate_mem hg, h]
              next => simp +zetaDelta [h]

@[simp] theorem State.launchPut_wf {s : State} (q : Nat) (n : StrandId) (pd : Nat) (h : Memory.wf s.mem = true) :
    Memory.wf (s.launchPut q n pd).mem = true := by simp [State.launchPut, h]

@[simp] theorem State.badQueue_mem (s : State) (q : Nat) (bs : List Byte) :
    (s.badQueue q bs).mem = s.mem := by simp [State.badQueue]

theorem launchifGate_mem {s t : State} {c : Instr} {q : Nat} {r w : List (Nat × Nat)}
    (h : (if s.queueOn q then s.gate c r w else none) = some t) : t.mem = s.mem := by
  split at h
  · exact State.gate_mem h
  · cases h

@[simp] theorem execLaunchifSubmit_wf (n : StrandId) {s : State} (h : Memory.wf s.mem = true) :
    WfOut (execLaunchifSubmit n s) := by
  unfold execLaunchifSubmit
  split
  · split
    · simp [h]
    · split
      next hg => simp [launchifGate_mem hg, h]
      next q bs bad pd _ _ _ _ =>
        extract_lets s1 poisoned s2 x a hif s3
        have h1 : Memory.wf s1.mem = true := by simp [s1, h]
        have h2 : Memory.wf s2.mem = true := by simp [s2, h1]
        split
        · simp [h2]
        · split
          · simp [h2]
          · split
            · split
              · simp [h2]
              · simp [s3, h2]
            · split
              next hg => simp [State.gate_mem hg, h2]
              next =>
                simp [State.write_wf _ _ _ h2]
  · simp [h]

@[simp] theorem State.qeHostDone_wf {s : State} (isRead : Bool) (data : List Byte) (bad : Bool)
    (h : Memory.wf s.mem = true) :
    Memory.wf (s.qeHostDone isRead data bad).mem = true := by
  unfold State.qeHostDone
  dsimp only
  (repeat' split) <;> simp [h]

@[simp] theorem State.sendCtrl_mem (s : State) (p : PortId) (args : List Nat) :
    (s.sendCtrl p args).mem = s.mem := by simp [State.sendCtrl]

@[simp] theorem State.sendInfo_mem (s : State) (p : PortId) :
    (s.sendInfo p).mem = s.mem := by simp [State.sendInfo]

@[simp] theorem State.unreachAll_mem (s : State) (f : Flit) (cause : Nat) :
    (s.unreachAll f cause).mem = s.mem := by simp [State.unreachAll]

@[simp] theorem State.countDrop_mem (s : State) (p : PortId) (k : Nat) : (s.countDrop p k).mem = s.mem := (rfl)

@[simp] theorem State.dropFlit_mem (s : State) (f : Flit) (cause : Nat) :
    (s.dropFlit f cause).mem = s.mem := by simp [State.dropFlit]

@[simp] theorem State.leaveLink_mem (s : State) (p : PortId) (st : PortState) :
    (s.leaveLink p st).mem = s.mem := by simp [State.leaveLink]

@[simp] theorem execColPortEnable_wf (p : PortId) {s : State} (h : Memory.wf s.mem = true) :
    WfOut (execColPortEnable p s) := by simp [execColPortEnable, h]

@[simp] theorem execColPortDisable_wf (p : PortId) {s : State} (h : Memory.wf s.mem = true) :
    WfOut (execColPortDisable p s) := by simp [execColPortDisable, h]

@[simp] theorem State.tryLpi_mem (s : State) (p : PortId) : (s.tryLpi p).mem = s.mem := by simp [State.tryLpi]

@[simp] theorem State.leaveLpi_mem (s : State) (p : PortId) :
    (s.leaveLpi p).mem = s.mem := by simp [State.leaveLpi]

@[simp] theorem execLpiRequest_wf (p : PortId) {s : State} (h : Memory.wf s.mem = true) :
    WfOut (execLpiRequest p s) := by simp [execLpiRequest, h]

@[simp] theorem execLpiRelease_wf (p : PortId) {s : State} (h : Memory.wf s.mem = true) :
    WfOut (execLpiRelease p s) := by simp [execLpiRelease, h]

@[simp] theorem execLpiReq_wf (p : PortId) {s : State} (h : Memory.wf s.mem = true) :
    WfOut (execLpiReq p s) := by simp [execLpiReq, h]

@[simp] theorem execLpiAck_wf (p : PortId) {s : State} (h : Memory.wf s.mem = true) :
    WfOut (execLpiAck p s) := by simp [execLpiAck, h]

@[simp] theorem execPartnerLpiExit_wf (p : PortId) {s : State} (h : Memory.wf s.mem = true) :
    WfOut (execPartnerLpiExit p s) := by simp [execPartnerLpiExit, h]

@[simp] theorem State.retrain_mem (s : State) (p : PortId) :
    (s.retrain p).mem = s.mem := by simp [State.retrain]

@[simp] theorem execRetrain_wf (p : PortId) {s : State} (h : Memory.wf s.mem = true) :
    WfOut (execRetrain p s) := by simp [execRetrain, h]

@[simp] theorem execTrainingAttempt_wf (p : PortId) {s : State} (h : Memory.wf s.mem = true) :
    WfOut (execTrainingAttempt p s) := by simp [execTrainingAttempt, h]

@[simp] theorem execTrainingComplete_wf (p : PortId) (modid : BitVec 12) (port : BitVec 4)
    (profile : Word64) {s : State} (h : Memory.wf s.mem = true) :
    WfOut (execTrainingComplete p modid port profile s) := by simp [execTrainingComplete, h]

@[simp] theorem execTrainingTimeout_wf (p : PortId) {s : State} (h : Memory.wf s.mem = true) :
    WfOut (execTrainingTimeout p s) := by simp [execTrainingTimeout, h]

@[simp] theorem execLossOfSignal_wf (p : PortId) {s : State} (h : Memory.wf s.mem = true) :
    WfOut (execLossOfSignal p s) := by simp [execLossOfSignal, h]

@[simp] theorem State.onNak_mem (s : State) (p : PortId) (q : Nat) :
    (s.onNak p q).mem = s.mem := by simp [State.onNak]

@[simp] theorem execNak_wf (p : PortId) (seq : BitVec 10) {s : State} (h : Memory.wf s.mem = true) :
    WfOut (execNak p seq s) := by simp [execNak, h]

@[simp] theorem execNakRepeat_wf (p : PortId) {s : State} (h : Memory.wf s.mem = true) :
    WfOut (execNakRepeat p s) := by simp [execNakRepeat, h]

@[simp] theorem execNakLimitRetrain_wf (p : PortId) {s : State} (h : Memory.wf s.mem = true) :
    WfOut (execNakLimitRetrain p s) := by simp [execNakLimitRetrain, h]

@[simp] theorem execCreditReturn_wf (p : PortId) {s : State} (h : Memory.wf s.mem = true) :
    WfOut (execCreditReturn p s) := by simp [execCreditReturn, h]

@[simp] theorem execCredit_wf (p : PortId) (vc : Fin 8) (k : Nat) {s : State} (h : Memory.wf s.mem = true) :
    WfOut (execCredit p vc k s) := by simp [execCredit, h]

@[simp] theorem execInfo_wf (p : PortId) (modid : BitVec 12) (port : BitVec 4) (profile : Word64) {s : State}
    (h : Memory.wf s.mem = true) :
    WfOut (execInfo p modid port profile s) := by simp [execInfo, h]

@[simp] theorem State.refuseMsg_mem (s : State) (src : BitVec 12) (tag addr : Nat) :
    (s.refuseMsg src tag addr).mem = s.mem := by simp [State.refuseMsg]

@[simp] theorem State.poisonMarked_mem (s : State) (a n poison : Nat) :
    (s.poisonMarked a n poison).mem = s.mem := by simp [State.poisonMarked]

@[simp] theorem State.atomApply_wf {s : State} (a : Nat) (bs : List Byte) (poison : Nat)
    (h : Memory.wf s.mem = true) :
    Memory.wf (s.atomApply a bs poison).mem = true := by simp [State.atomApply, h]

@[simp] theorem State.onBurst_wf {s : State} (c : Instr) (src : BitVec 12) (m : ColMsg) (atom : Bool)
    (h : Memory.wf s.mem = true) : Memory.wf (s.onBurst c src m atom).mem = true := by
  unfold State.onBurst
  split
  · simp [h]
  · extract_lets b rest setB t u
    have hB : ∀ (s : State) (l), (setB s l).mem = s.mem := fun _ _ => rfl
    split
    · simp [hB, h]
    · split
      · simp [hB, h]
      · split
        next hg => simp [State.gateWith_mem hg, h]
        next =>
          have ht : Memory.wf t.mem = true := by simp [t, hB, h]
          have hu : Memory.wf u.mem = true := by
            unfold u
            split
            · exact State.atomApply_wf _ _ _ ht
            · rw [State.poisonMarked_mem]
              exact State.write_wf _ _ _ ht
          simp [hu]

@[simp] theorem State.onWrite_wf {s : State} (src : BitVec 12) (m : ColMsg) (h : Memory.wf s.mem = true) :
    Memory.wf (s.onWrite src m).mem = true := by simp [State.onWrite, h]

@[simp] theorem State.onAtomadd_wf {s : State} (src : BitVec 12) (m : ColMsg) (h : Memory.wf s.mem = true) :
    Memory.wf (s.onAtomadd src m).mem = true := by simp [State.onAtomadd, h]

@[simp] theorem State.onReadreq_mem (s : State) (src : BitVec 12) (m : ColMsg) : (s.onReadreq src m).mem = s.mem := by
  unfold State.onReadreq
  extract_lets n
  split
  · simp
  · split
    next hg => exact State.gate_mem hg
    next => simp +zetaDelta

@[simp] theorem State.onReadrsp_mem (s : State) (src : BitVec 12) (m : ColMsg) :
    (s.onReadrsp src m).mem = s.mem := by
  unfold State.onReadrsp
  dsimp only
  split <;> simp

@[simp] theorem State.onWrack_mem (s : State) (src : BitVec 12) (m : ColMsg) :
    (s.onWrack src m).mem = s.mem := by simp [State.onWrack]

@[simp] theorem State.onArrive_mem (s : State) (src : BitVec 12) (m : ColMsg) :
    (s.onArrive src m).mem = s.mem := by simp [State.onArrive]

@[simp] theorem State.onUnreach_mem (s : State) (m : ColMsg) :
    (s.onUnreach m).mem = s.mem := by simp [State.onUnreach]

@[simp] theorem State.deliver_wf {s : State} (src : BitVec 12) (m : ColMsg) (h : Memory.wf s.mem = true) :
    Memory.wf (s.deliver src m).mem = true := by simp [State.deliver, h]

@[simp] theorem State.loopRound_wf {s : State} (h : Memory.wf s.mem = true) : Memory.wf s.loopRound.mem = true :=
  State.foldl_wf (fun _ _ hs => State.deliver_wf _ _ hs) _ h

@[simp] theorem loopGo_wf (k : Nat) {s : State} (h : Memory.wf s.mem = true) : Memory.wf (loopGo k s).mem = true := by
  induction k generalizing s with
  | zero => exact h
  | succ k ih =>
    unfold loopGo
    split
    · exact h
    · exact ih (State.loopRound_wf h)

@[simp] theorem State.loopIn_wf {s : State} (h : Memory.wf s.mem = true) :
    Memory.wf s.loopIn.mem = true := by simp [State.loopIn, h]

@[simp] theorem execWrite_wf (src : BitVec 12) (m : ColMsg) {s : State} (h : Memory.wf s.mem = true) :
    WfOut (execWrite src m s) := by simp [execWrite, h]

@[simp] theorem execReadreq_wf (src : BitVec 12) (m : ColMsg) {s : State} (h : Memory.wf s.mem = true) :
    WfOut (execReadreq src m s) := by simp [execReadreq, h]

@[simp] theorem execReadrsp_wf (src : BitVec 12) (m : ColMsg) {s : State} (h : Memory.wf s.mem = true) :
    WfOut (execReadrsp src m s) := by simp [execReadrsp, h]

@[simp] theorem execWrack_wf (src : BitVec 12) (m : ColMsg) {s : State} (h : Memory.wf s.mem = true) :
    WfOut (execWrack src m s) := by simp [execWrack, h]

@[simp] theorem execColArrive_wf (src : BitVec 12) (m : ColMsg) {s : State} (h : Memory.wf s.mem = true) :
    WfOut (execColArrive src m s) := by simp [execColArrive, h]

@[simp] theorem execAtomadd_wf (src : BitVec 12) (m : ColMsg) {s : State} (h : Memory.wf s.mem = true) :
    WfOut (execAtomadd src m s) := by simp [execAtomadd, h]

@[simp] theorem execUnreach_wf (src : BitVec 12) (m : ColMsg) {s : State} (h : Memory.wf s.mem = true) :
    WfOut (execUnreach src m s) := by simp [execUnreach, h]

@[simp] theorem execBurstWrite_wf (e : BurstEnd) {s : State} (h : Memory.wf s.mem = true) :
    WfOut (execBurstWrite e s) := by simp [execBurstWrite, h]

@[simp] theorem execArrival_wf (e : EngineId) {s : State} (h : Memory.wf s.mem = true) :
    WfOut (execArrival e s) := by simp [execArrival, h]

@[simp] theorem execCopy_wf (e : EngineId) (r : StepRead) {s : State} (h : Memory.wf s.mem = true) :
    WfOut (execCopy e r s) := by simp [execCopy, h]

@[simp] theorem State.dropBurst_mem (s : State) (src tag : Nat) : (s.dropBurst src tag).mem = s.mem := (rfl)

@[simp] theorem execBurstAssemblyTimeout_wf (src : BitVec 12) (tag : BitVec 16) {s : State}
    (h : Memory.wf s.mem = true) :
    WfOut (execBurstAssemblyTimeout src tag s) := by
  unfold execBurstAssemblyTimeout
  split <;> simp [h]

@[simp] theorem execE2eTimeout_wf (e : EngineId) (tag : BitVec 16) {s : State} (h : Memory.wf s.mem = true) :
    WfOut (execE2eTimeout e tag s) := by simp [execE2eTimeout, h]

@[simp] theorem State.rejectFlit_mem (s : State) (p : PortId) (fecBad : Bool) :
    (s.rejectFlit p fecBad).mem = s.mem := by simp [State.rejectFlit]

@[simp] theorem State.forward_mem (s : State) (p : PortId) (f : Flit) : (s.forward p f).mem = s.mem := by
  unfold State.forward
  (repeat' split) <;> simp

@[simp] theorem State.takeFlit_wf {s : State} (p : PortId) (f : Flit) (h : Memory.wf s.mem = true) :
    Memory.wf (s.takeFlit p f).mem = true := by
  unfold State.takeFlit
  split
  · exact h
  · split
    · exact State.foldl_wf (fun _ _ hs => State.deliver_wf _ _ hs) _ (by simp [h])
    · split <;> simp [h]

@[simp] theorem State.onAck_mem (s : State) (p : PortId) (a : Arriving) :
    (s.onAck p a).mem = s.mem := by simp [State.onAck]

@[simp] theorem execFlitReceive_wf (p : PortId) (bytes : List Byte) (fec : Fec) {s : State}
    (h : Memory.wf s.mem = true) :
    WfOut (execFlitReceive p bytes fec s) := by
  unfold execFlitReceive
  split
  · simp
  · split
    · simp [h]
    · extract_lets s1 a data s2 x s3 s4
      have h1 : Memory.wf s1.mem = true := by simp [s1, h]
      have h2 : Memory.wf s2.mem = true := by simp [s2, h1]
      have h3 : Memory.wf s3.mem = true := by simp [s3, h2]
      have h4 : Memory.wf s4.mem = true := by simp [s4, h3]
      split
      · simp [h1]
      · split
        · simp [h2]
        · split <;> simp [h2, h4]

@[simp] theorem execColRtCommit_wf (p : PortId) {s : State} (h : Memory.wf s.mem = true) :
    WfOut (execColRtCommit p s) := by simp [execColRtCommit, h]

@[simp] theorem execMgtColCommit_wf {s : State} (h : Memory.wf s.mem = true) :
    WfOut (execMgtColCommit s) := by simp [execMgtColCommit, h]

@[simp] theorem execMgtProfileCommit_wf {s : State} (h : Memory.wf s.mem = true) :
    WfOut (execMgtProfileCommit s) := by simp [execMgtProfileCommit, h]

end Sys2Proof.Machine
end

section
/-!
SUPPORT. The memory past each operation: the device-fatal state, the host's accesses, DOE and the persistent store.
-/
namespace Sys2Proof.Machine

open Sys2Proof

@[simp] theorem State.deviceFatal_mem (s : State) (level fid code addr info : Nat) :
    (s.deviceFatal level fid code addr info).mem = s.mem := by simp [State.deviceFatal]

@[simp] theorem State.sfPut_mem (s : State) (l : Nat) (any : Bool) :
    (s.sfPut l any).mem = s.mem := by simp [State.sfPut]

@[simp] theorem State.sfDrop_mem (s : State) (l : Nat) : (s.sfDrop l).mem = s.mem := (rfl)

@[simp] theorem State.mem_sfRead (s : State) (l : Nat) (mv : Meta) :
    (s.sfRead l mv).mem = s.mem := State.sfRead_mem ..

@[simp] theorem State.sfWrite_mem (s : State) (l : Nat) (mv : Meta) : (s.sfWrite l mv).mem = s.mem := by
  unfold State.sfWrite
  split <;> simp

@[simp] theorem State.evictFor_mem (s : State) (l : Nat) : (s.evictFor l).mem = s.mem := by
  unfold State.evictFor
  split <;> simp

theorem State.hostGate_mem {s t : State} {c : Instr} {l : Nat} {mv : Meta} {wb : Bool}
    (h : s.hostGate c l mv wb = some t) :
    t.mem = s.mem := by
  unfold State.hostGate at h
  dsimp only at h
  split at h
  · cases h; simp
  · split at h
    · cases h; simp
    · cases h

@[simp] theorem State.decoderMiss_mem (s : State) : s.decoderMiss.mem = s.mem := by simp [State.decoderMiss]

@[simp] theorem State.hostRead_mem (s : State) (c : Instr) (hpa : Nat) (mv : Meta) (ecc : Ecc) :
    (s.hostRead c hpa mv ecc).mem = s.mem := by
  unfold State.hostRead
  split
  · simp
  · extract_lets l
    split
    · simp
    · split
      next hg => exact State.hostGate_mem hg
      next => split <;> simp +zetaDelta

@[simp] theorem execMemrd_wf (hpa : Nat) (mv : Meta) (ecc : Ecc) {s : State} (h : Memory.wf s.mem = true) :
    WfOut (execMemrd hpa mv ecc s) := by simp [execMemrd, h]

@[simp] theorem execMemrddata_wf (hpa : Nat) (mv : Meta) (ecc : Ecc) {s : State} (h : Memory.wf s.mem = true) :
    WfOut (execMemrddata hpa mv ecc s) := by simp [execMemrddata, h]

@[simp] theorem State.writeEnabled_wf {s : State} (a : Nat) (enable : BitVec 64) (data : List Byte) (bad : Bool)
    (h : Memory.wf s.mem = true) : Memory.wf (s.writeEnabled a enable data bad).mem = true :=
  wf_memSetN _ _ _ (by simp [h])

@[simp] theorem execMemwr_wf (hpa : Nat) (mv : Meta) (enable : BitVec 64) (data : List Byte) (q : WriteMark) {s : State}
    (h : Memory.wf s.mem = true) : WfOut (execMemwr hpa mv enable data q s) := by
  unfold execMemwr
  split
  · simp
  · split
    · simp [h]
    · split
      · simp [h]
      · extract_lets l s1 s2 s3
        split
        · simp [h]
        · split
          next hg => simp [State.hostGate_mem hg, h]
          next =>
            have h1 : Memory.wf s1.mem = true := by simp [s1, h]
            have h2 : Memory.wf s2.mem = true := State.writeEnabled_wf _ _ _ _ (by simp [h1])
            split
            · simp [h1]
            · simp [s3, h2]

@[simp] theorem execMeminv_wf (hpa : Nat) {s : State} (h : Memory.wf s.mem = true) : WfOut (execMeminv hpa s) := by
  unfold execMeminv
  (repeat' split) <;> simp [h]

@[simp] theorem execH2dSnoop_wf (hpa : Nat) {s : State} (h : Memory.wf s.mem = true) :
    WfOut (execH2dSnoop hpa s) := by simp [execH2dSnoop, h]

@[simp] theorem State.d2hDone_wf {s : State} (a : D2HAgent) (isRead : Bool) (data : List Byte) (poisoned : Bool)
    (h : Memory.wf s.mem = true) : Memory.wf (s.d2hDone a isRead data poisoned).mem = true := by
  unfold State.d2hDone
  split
  · exact h
  · extract_lets c s1 s2
    have h2 : Memory.wf s2.mem = true := by simp [s2, s1, h]
    split
    · exact h
    · split
      · split <;> simp [h2]
      · split
        · split <;> simp [h]
        · split
          · simp [h]
          · split
            next hg => simp [State.gate_mem hg, h]
            next =>
              split
              next hg => simp [State.gate_mem hg, h]
              next => simp [h]
      · split
        · simp [h]
        · extract_lets q
          split
          next hg => simp [State.gate_mem hg, h]
          next => simp [h]

theorem sessFailWaiting_mem (s : State) (i : Nat) :
    (match (s.strand (fin32 i)).wait with
     | .slook _ _ _ pd => s.sessFail (fin32 i) pd
     | _ => s).mem = s.mem := by
  split <;> simp

@[simp] theorem State.d2hLate_mem (s : State) (a : D2HAgent) : (s.d2hLate a).mem = s.mem := by
  unfold State.d2hLate
  split
  · rfl
  · split
    · rfl
    · extract_lets s1 addr
      have h1 : s1.mem = s.mem := by simp [s1]
      split
      · extract_lets s2
        have h2 : s2.mem = s.mem := by
          unfold s2
          split <;> simp [h1]
        split <;> simp [h2]
      · split
        · refine (State.foldl_mem _ sessFailWaiting_mem _ _).trans ?_
          simp +zetaDelta
        · simp +zetaDelta
      · simp [h1]

@[simp] theorem State.bar2Refuse_mem (s : State) (off : Nat) (isWrite : Bool) :
    (s.bar2Refuse off isWrite).mem = s.mem := by simp [State.bar2Refuse]

@[simp] theorem execBar2Read_wf (off : Nat) (len : Nat) (ecc : Ecc) {s : State} (h : Memory.wf s.mem = true) :
    WfOut (execBar2Read off len ecc s) := by
  unfold execBar2Read
  (repeat' split) <;> simp [h]

@[simp] theorem State.bar2Put_wf {s : State} (off : Nat) (data : List Byte) (bad : Bool) (h : Memory.wf s.mem = true) :
    Memory.wf (s.bar2Put off data bad).mem = true := by
  refine State.foldl_wf (fun s p hs => ?_) _ h
  split <;> simp [hs]

@[simp] theorem execBar2Write_wf (off : Nat) (data : List Byte) (poisoned : Bool) {s : State}
    (h : Memory.wf s.mem = true) :
    WfOut (execBar2Write off data poisoned s) := by simp [execBar2Write, h]

@[simp] theorem execHdmDecoderCommit_wf (base size : Nat) (ways : Nat) (bi : Bool) (lock : Bool) {s : State}
    (h : Memory.wf s.mem = true) :
    WfOut (execHdmDecoderCommit base size ways bi lock s) := by simp [execHdmDecoderCommit, h]

@[simp] theorem execD3hotEntry_wf {s : State} (h : Memory.wf s.mem = true) :
    WfOut (execD3hotEntry s) := by simp [execD3hotEntry, h]

@[simp] theorem execD3hotExit_wf {s : State} (h : Memory.wf s.mem = true) :
    WfOut (execD3hotExit s) := by simp [execD3hotExit, h]

@[simp] theorem State.doeRequest_mem (s : State) (r : DoeReq) :
    (s.doeRequest r).mem = s.mem := by simp [State.doeRequest]

@[simp] theorem execDoeDiscovery_wf (idx : Byte) {s : State} (h : Memory.wf s.mem = true) :
    WfOut (execDoeDiscovery idx s) := by simp [execDoeDiscovery, h]

@[simp] theorem execSpdmRequest_wf (req : List Byte) {s : State} (h : Memory.wf s.mem = true) :
    WfOut (execSpdmRequest req s) := by simp [execSpdmRequest, h]

@[simp] theorem execCdatRead_wf (entry : BitVec 16) {s : State} (h : Memory.wf s.mem = true) :
    WfOut (execCdatRead entry s) := by simp [execCdatRead, h]

@[simp] theorem execDoeAbort_wf {s : State} (h : Memory.wf s.mem = true) :
    WfOut (execDoeAbort s) := by simp [execDoeAbort, h]

@[simp] theorem State.doeServe_mem (s : State) : s.doeServe.mem = s.mem := by
  unfold State.doeServe
  split <;> simp

@[simp] theorem nvsStart_wf (op : Nat) (w : NvsWork) {s : State} (h : Memory.wf s.mem = true) :
    WfOut (nvsStart op w s) := by simp [nvsStart, h]

@[simp] theorem execStore_wf {s : State} (h : Memory.wf s.mem = true) : WfOut (execStore s) := by simp [execStore, h]

@[simp] theorem execUpdate_wf {s : State} (h : Memory.wf s.mem = true) :
    WfOut (execUpdate s) := by simp [execUpdate, h]

@[simp] theorem execCompact_wf {s : State} (h : Memory.wf s.mem = true) :
    WfOut (execCompact s) := by simp [execCompact, h]

@[simp] theorem State.nvsDone_mem (s : State) (n : Nvm) (st err : Nat) :
    (s.nvsDone n st err).mem = s.mem := (rfl)

@[simp] theorem State.finishUpdate_mem (s : State) (a len : Nat) : (s.finishUpdate a len).mem = s.mem := by
  unfold State.finishUpdate
  split
  · simp
  · split
    next hg => exact State.gate_mem hg
    next =>
      dsimp only
      split
      · simp
      · split <;> simp

@[simp] theorem execNvsCommandComplete_wf {s : State} (h : Memory.wf s.mem = true) :
    WfOut (execNvsCommandComplete s) := by
  unfold execNvsCommandComplete
  (repeat' split) <;> simp [h]

end Sys2Proof.Machine
end

section
/-!
SUPPORT. The memory past each operation: commands that waited at the gate, run again.
-/
namespace Sys2Proof.Machine

open Sys2Proof

theorem Out1.or_wf {s : State} {o : Out1} (h : Memory.wf s.mem = true) (ho : WfOut o) :
    Memory.wf (Out1.or o s).mem = true := by
  cases o with
  | next t => exact ho t rfl
  | fault f => exact h
  | refused r => exact h

@[simp] theorem State.runHeld_wf {s : State} (c : Instr) (h : Memory.wf s.mem = true) :
    Memory.wf (s.runHeld c).mem = true := by
  unfold State.runHeld
  cases c
  all_goals simp [Out1.or_wf, h]

@[simp] theorem State.rerunOnce_wf {s : State} (h : Memory.wf s.mem = true) : Memory.wf s.rerunOnce.mem = true :=
  State.foldl_wf (fun _ c hs => State.runHeld_wf c hs) _ h

@[simp] theorem State.rerun_wf {s : State} (h : Memory.wf s.mem = true) :
    Memory.wf s.rerun.mem = true := by simp [State.rerun, h]

@[simp] theorem State.fatalNow_wf {s : State} (level fid code addr info : Nat) (h : Memory.wf s.mem = true) :
    Memory.wf (s.fatalNow level fid code addr info).mem = true := by simp [State.fatalNow, h]

theorem State.seNext_wf {s t : State} (h : Memory.wf t.mem = true) : Memory.wf (s.seNext t).mem = true := by
  unfold State.seNext
  split <;> simp [h]

@[simp] theorem execRecall_wf (n : StrandId) (data : List Byte) (poisoned : Bool) {s : State}
    (h : Memory.wf s.mem = true) :
    WfOut (execRecall n data poisoned s) := (WfOut_next ..).2 (State.seNext_wf (by simp [h]))

@[simp] theorem execD2hCompletion_wf (a : D2HAgent) (isRead : Bool) (data : List Byte) (poisoned : Bool) {s : State}
    (h : Memory.wf s.mem = true) : WfOut (execD2hCompletion a isRead data poisoned s) :=
  (WfOut_next ..).2 (State.seNext_wf (by simp [h]))

@[simp] theorem execD2hTimeout_wf (a : D2HAgent) {s : State} (h : Memory.wf s.mem = true) :
    WfOut (execD2hTimeout a s) :=
  (WfOut_next ..).2 (State.seNext_wf (by simp [h]))

@[simp] theorem execBirsp_wf (line : Nat) {s : State} (h : Memory.wf s.mem = true) : WfOut (execBirsp line s) := by
  unfold execBirsp
  split <;> simp [h]

@[simp] theorem execBiconflict_wf (line : Nat) {s : State} (h : Memory.wf s.mem = true) :
    WfOut (execBiconflict line s) := by simp [execBiconflict, h]

@[simp] theorem execBisnpTimeout_wf (line : Nat) {s : State} (h : Memory.wf s.mem = true) :
    WfOut (execBisnpTimeout line s) := by simp [execBisnpTimeout, h]

end Sys2Proof.Machine
end

section
/-!
SUPPORT. The memory past each operation: power, self-tests, the functions and the arbiters.
-/
namespace Sys2Proof.Machine

open Sys2Proof

@[simp] theorem State.dropAsleep_mem (s : State) : s.dropAsleep.mem = s.mem := by simp [State.dropAsleep]

@[simp] theorem State.modVsu_mem (s : State) (r : RegionId) (f : Vsu → Vsu) :
    (s.modVsu r f).mem = s.mem := (rfl)

theorem regionWrite_wf (r : RegionId) {s : State} (f : State → State)
    (hf : ∀ s, Memory.wf s.mem = true → Memory.wf (f s).mem = true) (h : Memory.wf s.mem = true) : WfOut
        (regionWrite r s f) := by
  unfold regionWrite
  simp [hf, h]

@[simp] theorem execVsuCommit_wf (r : RegionId) {s : State} (h : Memory.wf s.mem = true) :
    WfOut (execVsuCommit r s) :=
  regionWrite_wf r _ (fun s hs => by simp [hs]) h

@[simp] theorem State.libLoad_mem (s : State) (r : RegionId) (slot : Fin 32) (idx : Byte) (swap : Bool) :
    (s.libLoad r slot idx swap).mem = s.mem := by simp [State.libLoad]

@[simp] theorem execVsuLibLoad_wf (r : RegionId) (slot : Fin 32) (idx : Byte) {s : State} (h : Memory.wf s.mem = true) :
    WfOut (execVsuLibLoad r slot idx s) := regionWrite_wf r _ (fun s hs => by simp [hs]) h

@[simp] theorem execVsuLibLoadSwap_wf (r : RegionId) (slot : Fin 32) (idx : Byte) {s : State}
    (h : Memory.wf s.mem = true) :
    WfOut (execVsuLibLoadSwap r slot idx s) := regionWrite_wf r _ (fun s hs => by simp [hs]) h

@[simp] theorem execVsuLibLoadComplete_wf (r : RegionId) {s : State} (h : Memory.wf s.mem = true) :
    WfOut (execVsuLibLoadComplete r s) := by
  unfold execVsuLibLoadComplete
  dsimp only
  (repeat' split) <;> simp [h]

@[simp] theorem execWdtInvalidateEntry_wf (i : Fin 4096) {s : State} (h : Memory.wf s.mem = true) :
    WfOut (execWdtInvalidateEntry i s) := by simp [execWdtInvalidateEntry, h]

@[simp] theorem execWdtInvalidateAll_wf {s : State} (h : Memory.wf s.mem = true) :
    WfOut (execWdtInvalidateAll s) := by simp [execWdtInvalidateAll, h]

@[simp] theorem State.unhold_mem (s : State) (f : Nat) : (s.unhold f).mem = s.mem := (rfl)

@[simp] theorem State.clearStrand_mem (s : State) (n : StrandId) : (s.clearStrand n).mem = s.mem := (rfl)

@[simp] theorem State.loseDigest_mem (s : State) (n : StrandId) :
    (s.loseDigest n).mem = s.mem := by simp [State.loseDigest]

@[simp] theorem State.clearEngine_mem (s : State) (e : EngineId) :
    (s.clearEngine e).mem = s.mem := by simp [State.clearEngine]

@[simp] theorem State.coldRegion_wf {s : State} (r : RegionId) (h : Memory.wf s.mem = true) :
    Memory.wf (s.coldRegion r).mem = true := by
  unfold State.coldRegion
  extract_lets s1 s2 s3 s4
  have h1 : s1.mem = s.mem := State.foldl_mem _ (fun s n => State.clearStrand_mem s n) ..
  have h2 : s2.mem = s.mem := (State.foldl_mem _ (fun s e => State.clearEngine_mem s e) (regionEngines r) s1).trans h1
  have h3 : s3.mem = s.mem := (State.setVsu_mem ..).trans h2
  have h4 : s4.mem = s.mem := (State.foldl_mem _ (fun s b => State.setBlock_mem s b {}) (regionBlocks r) s3).trans h3
  clear_value s4
  simp [h4, h]

@[simp] theorem State.unblockRegion_mem (s : State) (r : RegionId) : (s.unblockRegion r).mem = s.mem := (rfl)

@[simp] theorem State.regionCmd_mem (s : State) (r : RegionId) (tgt : Nat) : (s.regionCmd r tgt).1.mem = s.mem := by
  unfold State.regionCmd
  dsimp only
  (repeat' split) <;> simp

@[simp] theorem execPowerTransitionComplete_wf (r : RegionId) {s : State} (h : Memory.wf s.mem = true) :
    WfOut (execPowerTransitionComplete r s) := by simp [execPowerTransitionComplete, h]

@[simp] theorem State.mem_enterSelfref (s : State) (r : RegionId) : (s.enterSelfref r).mem = s.mem :=
  State.enterSelfref_mem s r

@[simp] theorem State.leaveSelfref_wf {s : State} (r : RegionId) (h : Memory.wf s.mem = true) :
    Memory.wf (s.leaveSelfref r).mem = true := by simp [State.leaveSelfref, h]

@[simp] theorem execSelfRefreshEntry_wf (r : RegionId) {s : State} (h : Memory.wf s.mem = true) :
    WfOut (execSelfRefreshEntry r s) := by simp [execSelfRefreshEntry, h]

@[simp] theorem execSelfRefreshExit_wf (r : RegionId) {s : State} (h : Memory.wf s.mem = true) :
    WfOut (execSelfRefreshExit r s) := by simp [execSelfRefreshExit, h]

@[simp] theorem State.applySelfref_wf {s : State} (r : RegionId) (h : Memory.wf s.mem = true) :
    Memory.wf (s.applySelfref r).mem = true := by
  unfold State.applySelfref
  simp [h]

@[simp] theorem State.writeCtl_wf {s : State} (r : RegionId) (w : Nat) (h : Memory.wf s.mem = true) :
    Memory.wf (s.writeCtl r w).mem = true := by simp [State.writeCtl, h]

@[simp] theorem setPs_wf (r : RegionId) (tgt : Nat) {s : State} (h : Memory.wf s.mem = true) :
    WfOut (setPs r tgt s) := by simp [setPs, h]

@[simp] theorem execSetPs0_wf (r : RegionId) {s : State} (h : Memory.wf s.mem = true) :
    WfOut (execSetPs0 r s) := by simp [execSetPs0, h]

@[simp] theorem execSetPs1_wf (r : RegionId) {s : State} (h : Memory.wf s.mem = true) :
    WfOut (execSetPs1 r s) := by simp [execSetPs1, h]

@[simp] theorem execSetPs2_wf (r : RegionId) {s : State} (h : Memory.wf s.mem = true) :
    WfOut (execSetPs2 r s) := by simp [execSetPs2, h]

@[simp] theorem execSetPs3_wf (r : RegionId) {s : State} (h : Memory.wf s.mem = true) :
    WfOut (execSetPs3 r s) := by simp [execSetPs3, h]

@[simp] theorem execSetPs4_wf (r : RegionId) {s : State} (h : Memory.wf s.mem = true) :
    WfOut (execSetPs4 r s) := by simp [execSetPs4, h]

@[simp] theorem State.bistStart_mem (s : State) (kind target : Nat) :
    (s.bistStart kind target).mem = s.mem := (rfl)

@[simp] theorem State.bistStat_mem (s : State) (st err : Nat) : (s.bistStat st err).mem = s.mem := (rfl)

@[simp] theorem execRegionBist_wf (r : RegionId) {s : State} (h : Memory.wf s.mem = true) :
    WfOut (execRegionBist r s) := by simp [execRegionBist, h]

@[simp] theorem execMemoryBist_wf (c : ChannelId) {s : State} (h : Memory.wf s.mem = true) :
    WfOut (execMemoryBist c s) := by simp [execMemoryBist, h]

@[simp] theorem State.logBist_mem (s : State) (level kind target : Nat) :
    (s.logBist level kind target).mem = s.mem := by simp [State.logBist]

@[simp] theorem State.defectRegion_wf {s : State} (r : RegionId) (h : Memory.wf s.mem = true) :
    Memory.wf (s.defectRegion r).mem = true := by simp [State.defectRegion, h]

@[simp] theorem State.unusable_mem (s : State) (c : Nat) : (s.unusable c).mem = s.mem := (rfl)

theorem openPort_mem (i : Nat) (s : State) :
    (s.modPort (fin12 i) fun x => if x.enable then { x with state := .down } else x).mem = s.mem := State.modPort_mem ..

@[simp] theorem execBistComplete_wf (t : BistTarget) (pass : Bool) {s : State} (h : Memory.wf s.mem = true) :
    WfOut (execBistComplete t pass s) := by
  unfold execBistComplete
  split
  · simp [h]
  · split
    · extract_lets p
      split
      · simp [h]
      · split
        · refine (WfOut_next ..).2 ?_
          rw [State.unblockRegion_mem, State.bistStat_mem, State.setPwr_mem]
          simp [h]
        · simp [h]
    · (repeat' split) <;> simp [h]
    · split
      · simp [h]
      · split
        · simp +zetaDelta [h]
        · refine (WfOut_next ..).2 ?_
          rw [State.setPwr_mem]
          exact h
    · split
      · simp [h]
      · split
        · simp +zetaDelta [h]
        · exact (WfOut_next ..).2 (Memory.wf_of_mem (State.forN_mem _ _ _ openPort_mem) h)

theorem emergencyRegion_wf {s : State} (r : RegionId) (b : BitVec 4) (p : Pwr) (h : Memory.wf s.mem = true) :
    Memory.wf (((s.coldRegion r).setSelfref r b).setPwr r p).mem = true := by
  rw [State.setPwr_mem, State.setSelfref_mem]
  exact State.coldRegion_wf r h

@[simp] theorem State.emergencyStop_wf {s : State} (h : Memory.wf s.mem = true) :
    Memory.wf s.emergencyStop.mem = true := by
  unfold State.emergencyStop
  extract_lets s1
  have h1 : Memory.wf s1.mem = true := State.forN_wf 8 (fun i s hs => emergencyRegion_wf (fin8 i) 0xF _ hs) h
  clear_value s1
  exact h1

@[simp] theorem State.thermal_wf {s : State} (h : Memory.wf s.mem = true) :
    Memory.wf s.thermal.mem = true := by simp [State.thermal, h]

@[simp] theorem execThermalSample_wf (tj : List Byte) {s : State} (h : Memory.wf s.mem = true) :
    WfOut (execThermalSample tj s) := by
  simp [execThermalSample, h]

@[simp] theorem State.logUnwritten_mem (s : State) (e : EngineId) :
    (s.logUnwritten e).mem = s.mem := by simp [State.logUnwritten]

@[simp] theorem State.resetLaunch_mem (s : State) (n : StrandId) : (s.resetLaunch n).mem = s.mem := by
  unfold State.resetLaunch
  (repeat' split) <;> simp

@[simp] theorem State.emptyMailboxes_mem (s : State) (n : StrandId) : (s.emptyMailboxes n).mem = s.mem := (rfl)

@[simp] theorem State.resetStrand_mem (s : State) (n : StrandId) :
    (s.resetStrand n).mem = s.mem := by simp [State.resetStrand]

@[simp] theorem State.resetEngine_mem (s : State) (e : EngineId) : (s.resetEngine e).mem = s.mem := by
  rw [State.resetEngine, State.logEv_mem, State.clearEngine_mem, State.logUnwritten_mem]

@[simp] theorem State.resetPort_mem (s : State) (p : PortId) :
    (s.resetPort p).mem = s.mem := by simp [State.resetPort]

@[simp] theorem State.resetQe_mem (s : State) : s.resetQe.mem = s.mem := by simp [State.resetQe]

@[simp] theorem State.logBadTables_mem (s : State) : (s.logBadTables).mem = s.mem :=
  (State.foldl_mem (fun (t : State) q => t.logBadEntries q (s.sessEnt q))
      (fun t q => State.logBadEntries_mem t q _) s.openSessions
    (s.badSessions.foldl (fun t q => t.logEntry (s.sessAddr q) q) s)).trans
    (State.foldl_mem (fun (t : State) q => t.logEntry (s.sessAddr q) q)
        (fun t q => State.logEntry_mem t _ q) s.badSessions s)

@[simp] theorem State.resetSe_mem (s : State) : s.resetSe.mem = s.mem := by
  have hs (t : State) (x : Se) : (((t.logBadTables.setSe x).unhold 0x51).logEv 4 3 0x51 0x19 0 0x51).mem = t.mem :=
    (State.logEv_mem ..).trans ((State.unhold_mem ..).trans ((State.setSe_mem ..).trans (State.logBadTables_mem _)))
  unfold State.resetSe
  extract_lets e s1 s2 n pages slots s3 s4
  clear_value n pages slots
  have h2 : s2.mem = s.mem := (State.meet_mem ..).trans (State.meet_mem ..)
  clear_value s2
  exact (hs s2 _).trans h2

@[simp] theorem State.resetVsu_mem (s : State) (r : RegionId) :
    (s.resetVsu r).mem = s.mem := by simp [State.resetVsu]

@[simp] theorem State.resetMc_mem (s : State) (m : McId) : (s.resetMc m).mem = s.mem := by simp [State.resetMc]

@[simp] theorem State.resetFn_mem (s : State) (g : Fn) : (s.resetFn g).mem = s.mem := by
  unfold State.resetFn
  split <;> simp

@[simp] theorem State.dropTables_mem (s : State) (f : Nat) :
    (s.dropTables f).mem = s.mem := by simp [State.dropTables]

theorem fnCmd_wf (c : FnCmd) (f : Byte) {s : State} (go : State → Fn → State)
    (hgo : ∀ (t : State) g, Memory.wf t.mem = true → Memory.wf (go t g).mem = true) (h : Memory.wf s.mem = true) :
    WfOut (fnCmd c f s go) := by
  unfold fnCmd
  split
  · simp [h]
  · split
    · simp [h]
    · extract_lets e
      split
      · simp [h]
      · split
        · simp [h]
        · exact (WfOut_next ..).2 (hgo _ _ (by simp [h]))

theorem State.resetAsk_mem {s t : State} {g : Fn} (h : s.resetAsk g = some t) : t.mem = s.mem := by
  unfold State.resetAsk at h
  split at h
  · obtain ⟨rs, hr⟩ := List.exists_of_findSome?_eq_some h
    exact State.ask_mem hr.2
  · cases h

@[simp] theorem State.tryReset_mem (s : State) (g : Fn) : (s.tryReset g).mem = s.mem := by
  unfold State.tryReset
  split
  · rfl
  · split
    next ht => simp [State.resetAsk_mem ht]
    next => simp

@[simp] theorem execFuncReset_wf (f : Byte) {s : State} (h : Memory.wf s.mem = true) : WfOut (execFuncReset f s) :=
  fnCmd_wf _ _ _ (fun _ _ ht => by simp [ht]) h

@[simp] theorem State.disableFn_mem (s : State) (g : Fn) : (s.disableFn g).mem = s.mem := by
  unfold State.disableFn
  split <;> rfl

@[simp] theorem execFuncDisable_wf (f : Byte) {s : State} (h : Memory.wf s.mem = true) :
    WfOut (execFuncDisable f s) :=
  fnCmd_wf _ _ _ (fun _ _ ht => by simp [ht]) h

@[simp] theorem State.enableFn_wf {s : State} (g : Fn) (h : Memory.wf s.mem = true) :
    Memory.wf (s.enableFn g).mem = true := by
  unfold State.enableFn
  split <;> simp [h]

@[simp] theorem execFuncEnable_wf (f : Byte) {s : State} (h : Memory.wf s.mem = true) : WfOut (execFuncEnable f s) :=
  fnCmd_wf _ _ _ (fun _ _ ht => by simp [ht]) h

@[simp] theorem State.serveFn_wf {s : State} (g : Fn) (h : Memory.wf s.mem = true) :
    Memory.wf (s.serveFn g).mem = true := by
  unfold State.serveFn
  split <;> simp [h]

@[simp] theorem execFuncCommandComplete_wf {s : State} (h : Memory.wf s.mem = true) :
    WfOut (execFuncCommandComplete s) := by
  unfold execFuncCommandComplete
  dsimp only
  (repeat' split) <;> simp [h]

@[simp] theorem State.egressGo_mem (s : State) (a : ArbId) :
    (s.egressGo a).mem = s.mem := by simp [State.egressGo]

@[simp] theorem execArbiterGrant_wf (a : ArbId) (pt : Fin 12) (reqs : List ArbReq) {s : State}
    (h : Memory.wf s.mem = true) :
    WfOut (execArbiterGrant a pt reqs s) := by
  unfold execArbiterGrant
  dsimp only
  (repeat' split) <;> simp [h]

@[simp] theorem State.dropCopy_mem (s : State) : s.dropCopy.mem = s.mem := by simp [State.dropCopy]

@[simp] theorem State.watchdogFault_mem (s : State) (g : Fn) : (s.watchdogFault g).mem = s.mem := by
  unfold State.watchdogFault
  split <;> simp

@[simp] theorem State.abandonHost_mem (s : State) (line len : Nat) : (s.abandonHost line len).mem = s.mem := by
  unfold State.abandonHost
  extract_lets here mine go s1 c s2
  have h1 : s1.mem = s.mem := by
    unfold s1
    split <;> simp
  have h2 : s2.mem = s.mem := Eq.trans (by simp [s2]) h1
  refine (State.foldl_mem _ (fun s c => ?_) _ _).trans h2
  split <;> simp

@[simp] theorem State.abandonInbound_mem (s : State) (a : Nat) :
    (s.abandonInbound a).mem = s.mem := by simp [State.abandonInbound]

@[simp] theorem State.abandonFlow_mem (s : State) (egress p : PortId) :
    (s.abandonFlow egress p).mem = s.mem := by simp [State.abandonFlow]

@[simp] theorem State.abandonSent_mem (s : State) (p : PortId) (e : EngineId) :
    (s.abandonSent p e).mem = s.mem := by simp [State.abandonSent]

@[simp] theorem State.abandonEgress_mem (s : State) (a : ArbId) (g : Fn) : (s.abandonEgress a g).mem = s.mem := by
  unfold State.abandonEgress
  split <;> simp

@[simp] theorem State.abandonScrub_mem (s : State) (a : Nat) : (s.abandonScrub a).mem = s.mem := (rfl)

@[simp] theorem execWatchdogBite_wf (a : ArbId) (pt : Fin 12) {s : State} (h : Memory.wf s.mem = true) :
    WfOut (execWatchdogBite a pt s) := by
  unfold execWatchdogBite
  dsimp only
  (repeat' split) <;> simp [h]

end Sys2Proof.Machine
end

section
/-!
SUPPORT. The memory past each operation: segments, startup, resets, maintenance and the registers.
-/
namespace Sys2Proof.Machine

open Sys2Proof

@[simp] theorem State.segStat_mem (s : State) (st err : Nat) (work : Option (Nat × Bool)) :
    (s.segStat st err work).mem = s.mem := (rfl)

theorem State.segCmd_mem {s t : State} {q : BitVec 10} {op : Nat} (h : s.segCmd q op = some t) : t.mem = s.mem := by
  unfold State.segCmd at h
  split at h
  · cases h
  · cases h; rfl

@[simp] theorem execSegmentOnline_wf (q : BitVec 10) {s : State} (h : Memory.wf s.mem = true) :
    WfOut (execSegmentOnline q s) := by
  unfold execSegmentOnline
  extract_lets n
  split
  · simp [h]
  next u hu =>
    have hv := State.segCmd_mem hu
    split
    · simp [hv, h]
    · extract_lets g
      split
      · simp [hv, h]
      · split <;> simp [hv, h]

@[simp] theorem State.snoopSeg_mem (s : State) (n : Nat) :
    (s.snoopSeg n).mem = s.mem := by simp [State.snoopSeg]

@[simp] theorem execSegmentOffline_wf (q : BitVec 10) {s : State} (h : Memory.wf s.mem = true) :
    WfOut (execSegmentOffline q s) := by
  unfold execSegmentOffline
  extract_lets n
  split
  · simp [h]
  next u hu =>
    have hv := State.segCmd_mem hu
    (repeat' split) <;> simp [hv, h]

@[simp] theorem State.segUp_wf {s : State} (n : Nat) (h : Memory.wf s.mem = true) :
    Memory.wf (s.segUp n).mem = true := by simp [State.segUp, h]

@[simp] theorem State.segDown_wf {s : State} (n : Nat) (h : Memory.wf s.mem = true) :
    Memory.wf (s.segDown n).mem = true := by simp [State.segDown, h]

@[simp] theorem execSegmentCommandComplete_wf {s : State} (h : Memory.wf s.mem = true) :
    WfOut (execSegmentCommandComplete s) := by
  unfold execSegmentCommandComplete
  (repeat' split) <;> simp [h]

@[simp] theorem State.stage_mem (s : State) : s.stage.mem = s.mem := (rfl)

@[simp] theorem State.conventional_wf (s : State) : Memory.wf s.conventional.mem = true := (rfl)

@[simp] theorem State.stopMc_mem (s : State) : s.stopMc.mem = s.mem := by simp [State.stopMc]

@[simp] theorem execPerstAssert_wf {s : State} (h : Memory.wf s.mem = true) : WfOut (execPerstAssert s) := by
  simp [execPerstAssert, h]

@[simp] theorem State.release_mem (s : State) : s.release.mem = s.mem := (rfl)

@[simp] theorem State.tryRelease_mem (s : State) : s.tryRelease.mem = s.mem := by simp [State.tryRelease]

@[simp] theorem execPerstRelease_wf {s : State} (h : Memory.wf s.mem = true) :
    WfOut (execPerstRelease s) := by simp [execPerstRelease, h]

@[simp] theorem execMainPowerOn_wf {s : State} (h : Memory.wf s.mem = true) :
    WfOut (execMainPowerOn s) := by simp [execMainPowerOn, h]

@[simp] theorem execMainPowerOff_wf {s : State} (h : Memory.wf s.mem = true) : WfOut (execMainPowerOff s) := by
  simp [execMainPowerOff, h]

@[simp] theorem execAuxPowerRemoved_wf {s : State} (h : Memory.wf s.mem = true) : WfOut (execAuxPowerRemoved s) := by
  simp [execAuxPowerRemoved, h]

@[simp] theorem execAuxPowerApplied_wf {s : State} (h : Memory.wf s.mem = true) : WfOut (execAuxPowerApplied s) := by
  simp [execAuxPowerApplied, h]

@[simp] theorem execTrialBootTimeout_wf {s : State} (h : Memory.wf s.mem = true) :
    WfOut (execTrialBootTimeout s) := by simp [execTrialBootTimeout, h]

@[simp] theorem State.mcReady_mem (s : State) : s.mcReady.mem = s.mem := by simp [State.mcReady]

@[simp] theorem execMcReady_wf {s : State} (h : Memory.wf s.mem = true) : WfOut (execMcReady s) := by
  unfold execMcReady
  dsimp only
  (repeat' split) <;> simp [h]

@[simp] theorem State.tryActive_wf {s : State} (h : Memory.wf s.mem = true) : Memory.wf s.tryActive.mem = true := by
  unfold State.tryActive
  split
  · exact State.forN_wf 8 (fun r s hs => State.applySelfref_wf _ hs) h
  · exact h

@[simp] theorem execLpddrTrainingComplete_wf (failed : List ChannelId) {s : State} (h : Memory.wf s.mem = true) :
    WfOut (execLpddrTrainingComplete failed s) := by
  unfold execLpddrTrainingComplete
  split
  · simp [h]
  · extract_lets s1 s2
    have h1 : s1.mem = s.mem := State.foldl_mem _ (fun s c => by simp) ..
    have h2 : s2.mem = s.mem := (State.forN_mem _ _ _ fun i s => State.setMc_mem ..).trans h1
    exact (WfOut_next ..).2 (State.tryActive_wf (Memory.wf_of_mem ((State.setBoard_mem ..).trans h2) h))

@[simp] theorem execStartupSegmentOnline_wf {s : State} (h : Memory.wf s.mem = true) :
    WfOut (execStartupSegmentOnline s) := by
  unfold execStartupSegmentOnline
  split
  · simp [h]
  · split
    · simp [h]
    · extract_lets done
      have hd : ∀ t : State, Memory.wf t.mem = true → Memory.wf (done t).mem = true := fun t ht => State.tryActive_wf
          (by simp [ht])
      split
      · exact (WfOut_next ..).2 (hd _ (by simp [h]))
      · extract_lets u
        split
        · simp [h]
        · split
          · exact (WfOut_next ..).2 (hd _ (by simp [u, h]))
          · simp [h]

@[simp] theorem State.resetUnits_mem (s : State) : s.resetUnits.mem = s.mem := by
  unfold State.resetUnits
  extract_lets s1
  have h1 : s1.mem = s.mem :=
    (State.dropTables_mem ..).trans ((State.dropTables_mem ..).trans (State.forN_mem _ 32 _ fun i s => by simp))
  clear_value s1
  rw [State.colSettle_mem]
  exact h1

@[simp] theorem execCxlReset_wf (memClr : Bool) {s : State} (h : Memory.wf s.mem = true) :
    WfOut (execCxlReset memClr s) := by
  unfold execCxlReset
  split
  · simp [h]
  · extract_lets s1
    have h1 : Memory.wf s1.mem = true := by simp [s1, h]
    clear_value s1
    exact (WfOut_next ..).2 (State.rerun_wf h1)

@[simp] theorem execCxlResetComplete_wf {s : State} (h : Memory.wf s.mem = true) :
    WfOut (execCxlResetComplete s) := by
  unfold execCxlResetComplete
  split
  · simp [h]
  · split
    · simp [h]
    · split
      · simp [h]
      · extract_lets s1 cfg
        have h1 : Memory.wf s1.mem = true := by
          unfold s1
          split
          · exact State.foldl_wf (fun s n hs => State.zeroFill_wf _ _ hs) _ h
          · exact h
        simp [h1]

@[simp] theorem State.flrDone_wf {s : State} (h : Memory.wf s.mem = true) :
    Memory.wf s.flrDone.mem = true := by simp [State.flrDone, h]

@[simp] theorem execFlr_wf {s : State} (h : Memory.wf s.mem = true) : WfOut (execFlr s) := by simp [execFlr, h]

@[simp] theorem State.mcIdle_mem (s : State) : s.mcIdle.mem = s.mem := by simp [State.mcIdle]

@[simp] theorem State.idle_wf {s : State} (h : Memory.wf s.mem = true) : Memory.wf s.idle.mem = true := by
  unfold State.idle
  extract_lets s1 s2
  have h1 : Memory.wf s1.mem = true := by
    unfold s1
    split <;> simp [h]
  have h2 : Memory.wf s2.mem = true := by
    unfold s2
    split <;> simp [h1]
  clear_value s2
  rw [State.mcIdle_mem]
  split <;> simp [h2]

@[simp] theorem execRefresh_wf (c : ChannelId) (bank : Fin 16) {s : State} (h : Memory.wf s.mem = true) :
    WfOut (execRefresh c bank s) := by simp [execRefresh, h]

@[simp] theorem execZqCalibration_wf (c : ChannelId) (rank : Fin 2) {s : State} (h : Memory.wf s.mem = true) :
    WfOut (execZqCalibration c rank s) := by simp [execZqCalibration, h]

@[simp] theorem execDqsOscillatorRead_wf (c : ChannelId) (rank : Fin 2) (drift : Bool) {s : State}
    (h : Memory.wf s.mem = true) :
    WfOut (execDqsOscillatorRead c rank drift s) := by simp [execDqsOscillatorRead, h]

@[simp] theorem execMr4Read_wf (c : ChannelId) (code : BitVec 3) {s : State} (h : Memory.wf s.mem = true) :
    WfOut (execMr4Read c code s) := by simp [execMr4Read, h]

@[simp] theorem State.scrubFind_mem (s : State) (c g : Nat) (f : Finding) :
    (s.scrubFind c g f).mem = s.mem := by
  unfold State.scrubFind
  dsimp only
  (repeat' split) <;> simp

@[simp] theorem execPatrolScrub_wf (c : ChannelId) (found : List Finding) (written : List Nat) {s : State}
    (h : Memory.wf s.mem = true) :
    WfOut (execPatrolScrub c found written s) := by simp [execPatrolScrub, h]

@[simp] theorem execScratchpadScrub_wf (r : RegionId) (bank : Fin 64) (word : Fin 12288) (ecc : Ecc) {s : State}
    (h : Memory.wf s.mem = true) :
    WfOut (execScratchpadScrub r bank word ecc s) := by simp [execScratchpadScrub, h]

@[simp] theorem execTelemetryLatch_wf (t : TelSample) {s : State} (h : Memory.wf s.mem = true) :
    WfOut (execTelemetryLatch t s) := by simp [execTelemetryLatch, h]

@[simp] theorem execWearManagement_wf {s : State} (h : Memory.wf s.mem = true) : WfOut (execWearManagement s) := by
  unfold execWearManagement
  split <;> simp [h]

@[simp] theorem execRegread_wf (r : BusRead) {s : State} (h : Memory.wf s.mem = true) : WfOut (execRegread r s) := by
  unfold execRegread
  (repeat' split) <;> simp [h]

@[simp] theorem execStatus_wf {s : State} (h : Memory.wf s.mem = true) :
    WfOut (execStatus s) := by simp [execStatus, h]

@[simp] theorem execSetdasa_wf (q : Dasa) {s : State} (h : Memory.wf s.mem = true) :
    WfOut (execSetdasa q s) := by simp [execSetdasa, h]

@[simp] theorem execEntdaa_wf (addr : BitVec 7) {s : State} (h : Memory.wf s.mem = true) :
    WfOut (execEntdaa addr s) := by simp [execEntdaa, h]

@[simp] theorem State.jtagBypass_mem (s : State) (tdi : Bool) : (s.jtagBypass tdi).mem = s.mem := (rfl)

@[simp] theorem execBypass_wf (tdi : Bool) {s : State} (h : Memory.wf s.mem = true) :
    WfOut (execBypass tdi s) := by simp [execBypass, h]

@[simp] theorem execIdcode_wf {s : State} (h : Memory.wf s.mem = true) :
    WfOut (execIdcode s) := by simp [execIdcode, h]

@[simp] theorem execSamplePreload_wf (q : Scan) {s : State} (h : Memory.wf s.mem = true) :
    WfOut (execSamplePreload q s) := by simp [execSamplePreload, h]

@[simp] theorem execExtest_wf (q : Scan) {s : State} (h : Memory.wf s.mem = true) :
    WfOut (execExtest q s) := by simp [execExtest, h]

@[simp] theorem execDebugUnlock_wf (token : List Byte) {s : State} (h : Memory.wf s.mem = true) :
    WfOut (execDebugUnlock token s) := by simp [execDebugUnlock, h]

@[simp] theorem State.run_wf {s : State} (f : State → Out1) (hf : WfOut (f s)) (h : Memory.wf s.mem = true) :
    Memory.wf (s.run f).mem = true := Out1.or_wf h hf

@[simp] theorem State.writeBist_wf {s : State} (w : Nat) (h : Memory.wf s.mem = true) :
    Memory.wf (s.writeBist w).mem = true := by simp [State.writeBist, h]

@[simp] theorem State.writePwr_wf {s : State} (o w : Nat) (h : Memory.wf s.mem = true) :
    Memory.wf (s.writePwr o w).mem = true := by simp [State.writePwr, h]

@[simp] theorem State.writeHdmControl_wf {s : State} (w : Nat) (h : Memory.wf s.mem = true) :
    Memory.wf (s.writeHdmControl w).mem = true := by simp [State.writeHdmControl, h]

@[simp] theorem State.writeHdm_wf {s : State} (o w : Nat) (h : Memory.wf s.mem = true) :
    Memory.wf (s.writeHdm o w).mem = true := by simp [State.writeHdm, h]

@[simp] theorem State.writeComponent_wf {s : State} (o w : Nat) (h : Memory.wf s.mem = true) :
    Memory.wf (s.writeComponent o w).mem = true := by simp [State.writeComponent, h]

@[simp] theorem State.writeFunc_wf {s : State} (o w : Nat) (h : Memory.wf s.mem = true) :
    Memory.wf (s.writeFunc o w).mem = true := by simp [State.writeFunc, h]

@[simp] theorem State.writeErr_wf {s : State} (o w : Nat) (h : Memory.wf s.mem = true) :
    Memory.wf (s.writeErr o w).mem = true := by simp [State.writeErr, h]

@[simp] theorem State.writeArb_wf {s : State} (a : ArbId) (o w : Nat) (h : Memory.wf s.mem = true) :
    Memory.wf (s.writeArb a o w).mem = true := by simp [State.writeArb, h]

@[simp] theorem State.writeMbx_wf {s : State} (o w : Nat) (h : Memory.wf s.mem = true) :
    Memory.wf (s.writeMbx o w).mem = true := by simp [State.writeMbx, h]

@[simp] theorem State.writeQcmd_wf {s : State} (w : Nat) (h : Memory.wf s.mem = true) :
    Memory.wf (s.writeQcmd w).mem = true := by simp [State.writeQcmd, h]

@[simp] theorem State.writeQe_wf {s : State} (o w : Nat) (h : Memory.wf s.mem = true) :
    Memory.wf (s.writeQe o w).mem = true := by simp [State.writeQe, h]

@[simp] theorem State.writeSeCmd_wf {s : State} (w : Nat) (h : Memory.wf s.mem = true) :
    Memory.wf (s.writeSeCmd w).mem = true := by simp [State.writeSeCmd, h]

@[simp] theorem State.writeSe_wf {s : State} (o w : Nat) (h : Memory.wf s.mem = true) :
    Memory.wf (s.writeSe o w).mem = true := by simp [State.writeSe, h]

@[simp] theorem State.writeNvsCmd_wf {s : State} (w : Nat) (h : Memory.wf s.mem = true) :
    Memory.wf (s.writeNvsCmd w).mem = true := by simp [State.writeNvsCmd, h]

@[simp] theorem State.writeSegCmd_wf {s : State} (w : Nat) (h : Memory.wf s.mem = true) :
    Memory.wf (s.writeSegCmd w).mem = true := by simp [State.writeSegCmd, h]

@[simp] theorem State.writeWdt_wf {s : State} (w : Nat) (h : Memory.wf s.mem = true) :
    Memory.wf (s.writeWdt w).mem = true := by simp [State.writeWdt, h]

@[simp] theorem State.writeMgt_wf {s : State} (o w : Nat) (h : Memory.wf s.mem = true) :
    Memory.wf (s.writeMgt o w).mem = true := by simp [State.writeMgt, h]

@[simp] theorem State.flushMsix_mem (s : State) : s.flushMsix.mem = s.mem := by
  unfold State.flushMsix
  split
  · rfl
  · exact State.foldl_mem _ (fun s v => State.send_mem s _) ..

@[simp] theorem State.writeMsix_wf {s : State} (o w : Nat) (h : Memory.wf s.mem = true) :
    Memory.wf (s.writeMsix o w).mem = true := by simp [State.writeMsix, h]

@[simp] theorem State.writeCoh_wf {s : State} (o w : Nat) (h : Memory.wf s.mem = true) :
    Memory.wf (s.writeCoh o w).mem = true := by simp [State.writeCoh, h]

@[simp] theorem State.writeColCtl_wf {s : State} (p : PortId) (w : Nat) (h : Memory.wf s.mem = true) :
    Memory.wf (s.writeColCtl p w).mem = true := by
  unfold State.writeColCtl
  extract_lets s1 s2
  have h1 : Memory.wf s1.mem = true := State.run_wf _ (by split <;> simp [h]) h
  have h2 : Memory.wf s2.mem = true := State.run_wf _ (by split <;> simp [h1]) h1
  split <;> simp [h2]

@[simp] theorem State.writePort_wf {s : State} (p : PortId) (o w : Nat) (h : Memory.wf s.mem = true) :
    Memory.wf (s.writePort p o w).mem = true := by simp [State.writePort, h]

@[simp] theorem State.writeLib_wf {s : State} (r : RegionId) (w : Nat) (h : Memory.wf s.mem = true) :
    Memory.wf (s.writeLib r w).mem = true := by simp [State.writeLib, h]

@[simp] theorem State.writeVsu_wf {s : State} (r : RegionId) (o w : Nat) (h : Memory.wf s.mem = true) :
    Memory.wf (s.writeVsu r o w).mem = true := by simp [State.writeVsu, h]

@[simp] theorem State.writeMc_wf {s : State} (m : McId) (o w : Nat) (h : Memory.wf s.mem = true) :
    Memory.wf (s.writeMc m o w).mem = true := by simp [State.writeMc, h]

@[simp] theorem State.writeEngine_wf {s : State} (e : EngineId) (o w : Nat) (h : Memory.wf s.mem = true) :
    Memory.wf (s.writeEngine e o w).mem = true := by simp [State.writeEngine, h]

@[simp] theorem State.writeRegion_wf {s : State} (r : RegionId) (o w : Nat) (h : Memory.wf s.mem = true) :
    Memory.wf (s.writeRegion r o w).mem = true := by simp [State.writeRegion, h]

@[simp] theorem State.writeWord_wf {s : State} (off w : Nat) (h : Memory.wf s.mem = true) :
    Memory.wf (s.writeWord off w).mem = true := by simp [State.writeWord, h]

@[simp] theorem State.writeWord64_wf {s : State} (off : Nat) (x : Word64) (h : Memory.wf s.mem = true) :
    Memory.wf (s.writeWord64 off x).mem = true := by simp [State.writeWord64, h]

@[simp] theorem State.readBar0_wf {s : State} (off bytes : Nat) (h : Memory.wf s.mem = true) :
    Memory.wf (s.readBar0 off bytes).mem = true := by simp [State.readBar0, h]

@[simp] theorem execRegisterWrite_wf (sp : RegSpace) (off bytes : Nat) (v : Word64) {s : State}
    (h : Memory.wf s.mem = true) :
    WfOut (execRegisterWrite sp off bytes v s) := by
  unfold execRegisterWrite
  (repeat' split) <;> simp [h]

end Sys2Proof.Machine
end

section
/-!
Every step keeps the memory canonical.
-/
namespace Sys2Proof.Machine

open Sys2Proof

theorem exec_wf (c : Instr) {s : State} (h : Memory.wf s.mem = true) : WfOut (exec c s) := by
  unfold exec
  cases c
  all_goals simp [h]

theorem step_wf {s : State} (h : Memory.wf s.mem = true) : WfOut (step s) := by
  cases hp : s.pending with
  | nil =>
    rw [step_idle hp, WfOut_next]
    exact State.idle_wf h
  | cons c rest =>
    rw [step, hp]
    exact exec_wf c h

end Sys2Proof.Machine

open Sys2Proof Sys2Proof.Machine

/-- Settles O57: every operation leaves the memory as it was, or stores into it and keeps its form. -/
theorem stepKeepsMemoryCanonical : Obligations.StepKeepsMemoryCanonical :=
  fun _ t h hs => step_wf h t hs

end

section
/-!
Background work: what refresh, calibration, the scrubs, telemetry and wear management leave (10 R210 to R213; 12 R256; 16 R340).
-/
namespace Sys2Proof.Machine

open Sys2Proof

/-! ### Patrol scrub -/

/-- A scrub of a group with no upset meets its findings alone. -/
theorem exec_patrolScrub_of_runs {s : State} {c : ChannelId} {found : List Finding} {written : List Nat}
    (hrun : s.channelRuns c.val = true) {g : Nat}
    (hg : g = ((s.mc (mcOfChannel c.val)).scrubPos[fin4 c.val].toNat + 1) % scrubGroups)
    (hhit : s.scrubStruck c.val g = []) :
    ∃ u : State, u.mem = s.mem ∧ u.poison = s.poison ∧ (∀ m, u.mc m = s.mc m) ∧
      let v := (found.filter fun f => f.1 < 32).foldl (fun s f => s.scrubFind c.val g f) u
      let x := v.mc (mcOfChannel c.val)
      exec (.patrolScrub c found written) s
        = .next (v.setMc (mcOfChannel c.val) { x with scrubPos := x.scrubPos.set (fin4 c.val) (BitVec.ofNat 32 g) }) := by
  refine ⟨{ s with struck := s.struck.filter fun f => !struckIn [] f }, rfl, rfl, fun _ => rfl, ?_⟩
  change execPatrolScrub c found written s = _
  unfold execPatrolScrub
  simp only [hrun, Bool.not_true, Bool.false_eq_true, if_false, ← hg, hhit, List.map_nil, List.append_nil]

theorem scrubGroup_toNat (p : Nat) : (BitVec.ofNat 32 ((p + 1) % scrubGroups)).toNat = (p + 1) % scrubGroups := by
  rw [BitVec.toNat_ofNat]
  exact Nat.mod_eq_of_lt (lt_trans (Nat.mod_lt _ (by decide)) (by decide))

/-- An uncorrectable half is counted at its controller and changes no byte. -/
theorem State.scrubFind_uncorrected (s : State) (c g h : Nat) :
    (s.scrubFind c g (h, .uncorrected)).mc (mcOfChannel c)
        = { s.mc (mcOfChannel c) with ue := satAdd (s.mc (mcOfChannel c)).ue 1 } := by
  unfold State.scrubFind State.mc
  dsimp only
  rw [State.logEv_mcs]
  split <;> exact State.mc_setMc s ..

/-! ### Telemetry -/

/-- The highest of the codes is one of them, and bounds them. -/
theorem foldl_max_spec {α : Type} (f : α → Nat) (l : List α) (m : Nat) :
    m ≤ l.foldl (fun m x => max m (f x)) m ∧ (∀ x ∈ l, f x ≤ l.foldl (fun m x => max m (f x)) m) ∧
      (l.foldl (fun m x => max m (f x)) m = m ∨ ∃ x ∈ l, l.foldl (fun m x => max m (f x)) m = f x) := by
  induction l generalizing m with
  | nil => simp
  | cons a l ih =>
    obtain ⟨hle, hall, hmem⟩ := ih (max m (f a))
    simp only [List.foldl_cons]
    refine ⟨by omega, fun x hx => ?_, ?_⟩
    · rcases List.mem_cons.1 hx with rfl | hx
      · omega
      · exact hall x hx
    · rcases hmem with h | ⟨x, hx, h⟩
      · rw [h]
        rcases Nat.le_total m (f a) with hma | hma
        · exact .inr ⟨a, List.mem_cons_self, by omega⟩
        · exact .inl (by omega)
      · exact .inr ⟨x, List.mem_cons_of_mem a hx, h⟩

/-- The refresh-rate codes of all channels. -/
def State.dramCodes (s : State) : List Nat :=
  s.mcs.toList.flatMap fun x => (List.range 4).map fun q => fld x.dramTemp.toNat (3 * q) 3

theorem State.dramCode_eq (s : State) : s.dramCode = s.dramCodes.foldl (fun m x => max m (id x)) 0 := by
  simp only [State.dramCode, State.dramCodes, List.foldl_flatMap, List.foldl_map, id]

theorem State.mem_dramCodes (s : State) (k : Nat) :
    k ∈ s.dramCodes ↔ ∃ m : McId, ∃ q < 4, k = fld (s.mc m).dramTemp.toNat (3 * q) 3 := by
  simp only [State.dramCodes, List.mem_flatMap, List.mem_map, List.mem_range, Vector.mem_toList_iff]
  constructor
  · rintro ⟨x, hx, q, hq, rfl⟩
    obtain ⟨i, hi, rfl⟩ := Vector.mem_iff_getElem.1 hx
    exact ⟨⟨i, hi⟩, q, hq, rfl⟩
  · rintro ⟨m, q, hq, rfl⟩
    exact ⟨s.mc m, Vector.getElem_mem _, q, hq, rfl⟩

theorem State.le_dramCode (s : State) (m : McId) {q : Nat} (hq : q < 4) :
    fld (s.mc m).dramTemp.toNat (3 * q) 3 ≤ s.dramCode := by
  rw [State.dramCode_eq]
  exact (foldl_max_spec id s.dramCodes 0).2.1 _ ((s.mem_dramCodes _).2 ⟨m, q, hq, rfl⟩)

theorem State.dramCode_reported (s : State) : ∃ m : McId, ∃ q < 4, s.dramCode = fld (s.mc m).dramTemp.toNat (3 * q) 3 := by
  have hle : fld (s.mc 0).dramTemp.toNat (3 * 0) 3 ≤ s.dramCode := s.le_dramCode 0 (by decide)
  rw [State.dramCode_eq] at hle ⊢
  rcases (foldl_max_spec id s.dramCodes 0).2.2 with h | ⟨k, hk, h⟩
  · exact ⟨0, 0, by decide, by omega⟩
  · rw [h]
    exact (s.mem_dramCodes k).1 hk

theorem State.dramCode_toNat (s : State) : (BitVec.ofNat 8 s.dramCode).toNat = s.dramCode := by
  obtain ⟨m, q, -, h⟩ := s.dramCode_reported
  rw [BitVec.toNat_ofNat, h]
  exact Nat.mod_eq_of_lt (lt_trans (Nat.mod_lt _ (by decide)) (by decide))

theorem tjPair_ordered (p : Byte × Byte) : (tjPair p).2.toNat ≤ (tjPair p).1.toNat := by
  unfold tjPair
  split
  next h => exact Nat.le_of_lt h
  next h => exact Nat.not_lt.1 h

theorem exec_telemetryLatch {s : State} (x : TelSample) (h : s.mcOn = true) : ∃ t, exec (.telemetryLatch x) s = .next t ∧
    t.tel.sample = s.tel.sample + 1 ∧ t.tel.tplate = x.tplate ∧ t.tel.vaux = x.vaux ∧ t.mem = s.mem
    ∧ (s.board.mainPg = true → (∀ p ∈ t.tel.tj, p.2.toNat ≤ p.1.toNat) ∧ t.tel.pin = x.pin ∧ t.tel.vin = x.vin
        ∧ t.tel.iin = x.iin ∧ t.tel.energy = x.energy
        ∧ (∃ m : McId, ∃ q < 4, t.tel.tdram.toNat = fld (s.mc m).dramTemp.toNat (3 * q) 3)
        ∧ ∀ m : McId, ∀ q < 4, fld (s.mc m).dramTemp.toNat (3 * q) 3 ≤ t.tel.tdram.toNat)
    ∧ (s.board.mainPg = false → t.tel.pin = 0 ∧ t.tel.tdram = 0) := by
  change ∃ t, execTelemetryLatch x s = .next t ∧ _
  unfold execTelemetryLatch
  rw [if_neg (by simp [h])]
  dsimp only
  split
  next hp =>
    refine ⟨_, rfl, rfl, rfl, rfl, rfl, fun _ => ⟨?_, rfl, rfl, rfl, rfl, ?_, ?_⟩, fun hn => ?_⟩
    · intro p hp
      obtain ⟨y, -, rfl⟩ := List.mem_map.1 hp
      exact tjPair_ordered y
    · simpa only [State.dramCode_toNat] using s.dramCode_reported
    · intro m q hq
      simpa only [State.dramCode_toNat] using s.le_dramCode m hq
    · cases hp.symm.trans hn
  next hp => exact ⟨_, rfl, rfl, rfl, rfl, rfl, fun hm => absurd hm hp, fun _ => ⟨rfl, rfl⟩⟩

/-! ### Wear management -/

theorem Nvm.bytes_calCopy (n : Nvm) (k : Nat) {a : NvmArea} (ha : a ≠ .reserved) :
    Nvm.bytes { n with calCopy := k } a = n.bytes a := by
  cases a
  case reserved => exact absurd rfl ha
  all_goals rfl

theorem exec_wearManagement (s : State) : ∃ t, exec .wearManagement s = .next t ∧ (∃ k, t.nvm = { s.nvm with calCopy := k })
    ∧ t.mem = s.mem ∧ t.pending = s.pending ∧ (∀ a : NvmArea, a ≠ .reserved → t.nvm.bytes a = s.nvm.bytes a) := by
  change ∃ t, execWearManagement s = .next t ∧ _
  unfold execWearManagement
  split
  · exact ⟨s, rfl, ⟨s.nvm.calCopy, rfl⟩, rfl, rfl, fun _ _ => rfl⟩
  · split
    · exact ⟨s, rfl, ⟨s.nvm.calCopy, rfl⟩, rfl, rfl, fun _ _ => rfl⟩
    · exact ⟨_, rfl, ⟨_, rfl⟩, rfl, rfl, fun _ ha => Nvm.bytes_calCopy _ _ ha⟩

end Sys2Proof.Machine

open Sys2Proof Sys2Proof.Machine

/-- Settles O53: one lemma for each kind of background work. -/
theorem backgroundWork : Obligations.BackgroundWork := by
  intro s c g
  refine ⟨fun _ => rfl, fun _ _ => ⟨rfl, rfl⟩, exec_wearManagement s, fun hrun => ⟨fun code => ?_, fun written hhit => ?_,
    fun h written hh hhit => ?_⟩, fun r bank word ecc hon hawake => ?_, fun x hx => exec_telemetryLatch x hx⟩
  · exact if_neg (by simp [hrun])
  · obtain ⟨u, hmem, hpoison, -, hexec⟩ := exec_patrolScrub_of_runs (found := []) (written := written) hrun rfl hhit
    refine ⟨_, hexec, hmem, hpoison, ?_⟩
    rw [State.mc_setMc]
    simp only [Fin.getElem_fin, Vector.getElem_set_self]
    exact scrubGroup_toNat _
  · obtain ⟨u, hmem, -, hmc, hexec⟩ :=
      exec_patrolScrub_of_runs (found := [(h, .uncorrected)]) (written := written) hrun rfl hhit
    refine ⟨_, hexec, ?_, ?_⟩
    · rw [State.setMc_mem, State.foldl_mem _ fun _ _ => State.scrubFind_mem ..]
      exact hmem
    · rw [State.mc_setMc]
      simp only [List.filter_cons, hh, decide_true, if_true, List.filter_nil, List.foldl_cons, List.foldl_nil,
        State.scrubFind_uncorrected, hmc]
  · exact if_neg (by simp [hon, hawake])
end

section
/-!
The segment commands (10 R208, R209; 17 R351).
-/
namespace Sys2Proof.Machine

open Sys2Proof

theorem assoc_assocSet_same {α : Type} (k : Nat) (v d : α) (l : List (Nat × α)) : assoc k d (assocSet k v l) = v := by
  induction l with
  | nil => simp [assocSet, assoc]
  | cons p l ih =>
    unfold assocSet
    split
    · simp [assoc]
    · split
      · simp [assoc]
      · simp [assoc, *]

theorem assoc_assocSet_ne {α : Type} {j k : Nat} (h : j ≠ k) (v d : α) (l : List (Nat × α)) :
    assoc j d (assocSet k v l) = assoc j d l := by
  induction l with
  | nil => simp [assocSet, assoc, Ne.symm h]
  | cons p l ih =>
    unfold assocSet
    split
    · simp [assoc, Ne.symm h]
    · split
      next he => simp [assoc, he, Ne.symm h]
      next => simp [assoc, ih]

@[simp] theorem State.seg_setSeg (s : State) (n : Nat) (g : Seg) : (s.setSeg n g).seg n = g :=
  assoc_assocSet_same ..

theorem State.seg_setSeg_ne (s : State) {k n : Nat} (h : k ≠ n) (g : Seg) : (s.setSeg n g).seg k = s.seg k :=
  assoc_assocSet_ne h ..

/-- A byte of a segment that was just filled with zeros reads 0. -/
theorem State.memGet_zeroFill_seg (s : State) {n a : Nat} (hlo : segBase n ≤ a) (hhi : a < segBase n + 0x40000000) :
    memGet (s.zeroFill (segBase n) 0x40000000).mem a = 0 :=
  State.memGet_foldl_zeroFill (l := [n]) s List.mem_cons_self hlo hhi

/-- The command is taken up: the fabric answers, the memory is in service and no command runs. -/
theorem State.segCmd_taken {s : State} (h : (s.fabricOn && s.board.memActive) = true) (hidle : s.mgt.segState ≠ 1)
    (q : BitVec 10) (op : Nat) :
    s.segCmd q op = some (s.setMgt { s.mgt with segSel := q, segOp := BitVec.ofNat 2 op }) := by
  obtain ⟨hf, hm⟩ := Bool.and_eq_true_iff.1 h
  simp [State.segCmd, hf, hm, hidle]

theorem State.unitsOn_of_fabricOn {s : State} (h : s.fabricOn = true) : s.unitsOn = true := by
  simp only [State.fabricOn, State.hostOn, Bool.and_eq_true] at h
  simp [State.unitsOn, h]

theorem exec_segmentOnline {s u : State} {q : BitVec 10} (h : s.segCmd q 1 = some u) :
    exec (.segmentOnline q) s =
      if 960 ≤ q.toNat then .next (u.segStat 3 3 none)
      else if (u.seg q.toNat).online then .next (u.segStat 3 2 none)
      else match u.framesFor (u.seg q.toNat) with
        | none => .next (u.segStat 3 1 none)
        | some fs => .next ((u.setSeg q.toNat ((u.seg q.toNat).commit fs)).segStat 1 0 (some (q.toNat, true))) := by
  change execSegmentOnline q s = _
  unfold execSegmentOnline
  rw [h] <;> rfl

theorem exec_segmentOffline {s u : State} {q : BitVec 10} (h : s.segCmd q 2 = some u) :
    exec (.segmentOffline q) s =
      if 960 ≤ q.toNat then .next (u.segStat 3 3 none)
      else if !(u.seg q.toNat).online then .next (u.segStat 3 2 none)
      else .next ((u.segStat 1 0 (some (q.toNat, false))).snoopSeg q.toNat) := by
  change execSegmentOffline q s = _
  unfold execSegmentOffline
  rw [h]

/-- What a finished segment command leaves: the segment as it was asked for and every byte of it 0. -/
theorem State.segDone (s : State) (m : Nat) (g : Seg) :
    let t := ((s.zeroFill (segBase m) 0x40000000).setSeg m g).segStat 2 0 none
    t.mgt.segState = 2 ∧ t.mgt.segErr = 0 ∧ t.seg m = g
      ∧ (∀ a, segBase m ≤ a → a < segBase m + 0x40000000 → memGet t.mem a = 0) ∧ ∀ k, k ≠ m → t.seg k = s.seg k :=
  ⟨rfl, rfl, State.seg_setSeg .., fun _ hlo hhi => s.memGet_zeroFill_seg hlo hhi, fun _ hk => State.seg_setSeg_ne _ hk g⟩

theorem exec_segmentCommandComplete {s : State} {m : Nat} {up : Bool} (hon : s.unitsOn = true) (hrun : s.mgt.segState = 1)
    (hwork : s.mgt.segWork = some (m, up)) (hup : up = true → (s.segChannelsUp m && s.segFree m) = true)
    (hdown : up = false → s.segQuiet m = true) :
    ∃ g : Seg, g.online = up ∧ (up = false → g.frames = []) ∧ (up = true → g.frames = (s.seg m).frames) ∧
      exec .segmentCommandComplete s
        = .next (((s.zeroFill (segBase m) 0x40000000).setSeg m g).segStat 2 0 none) := by
  have hc : (!s.unitsOn || s.mgt.segState ≠ 1) = false := by simp [hon, hrun]
  cases up with
  | true =>
    obtain ⟨hch, hfree⟩ := Bool.and_eq_true_iff.1 (hup rfl)
    refine ⟨{ s.seg m with online := true }, rfl, fun h => (by cases h), fun _ => rfl, ?_⟩
    change execSegmentCommandComplete s = _
    simp only [execSegmentCommandComplete, hc, hwork, hch, hfree]
    rfl
  | false =>
    refine ⟨{ s.seg m with online := false, frames := [] }, rfl, fun _ => rfl, fun h => (by cases h), ?_⟩
    change execSegmentCommandComplete s = _
    simp only [execSegmentCommandComplete, hc, hwork, hdown rfl]
    rfl

end Sys2Proof.Machine

open Sys2Proof Sys2Proof.Machine

/-- Settles O51: by the branches of the two commands, and by what the end of each leaves of its segment. -/
theorem segments : Obligations.Segments := by
  intro s q h n u
  refine ⟨fun hidle => ?_, fun m up hrun hwork hup hdown => ?_⟩
  · have hon := exec_segmentOnline (State.segCmd_taken h hidle q 1)
    have hoff := exec_segmentOffline (State.segCmd_taken h hidle q 2)
    refine ⟨fun hn hg => ?_, fun hn hg => ?_, fun hn => ?_⟩
    · rw [if_neg (by omega), if_neg (by exact Bool.eq_false_iff.1 hg)] at hon
      rw [if_neg (by omega), if_pos (by exact congrArg (!·) hg)] at hoff
      refine ⟨fun fs hfs => ?_, fun hfs => ?_, hoff⟩
      · rw [hon, show (u 1).framesFor ((u 1).seg n) = some fs from hfs]
        rfl
      · rw [hon, show (u 1).framesFor ((u 1).seg n) = none from hfs]
    · rw [if_neg (by omega), if_pos (by exact hg)] at hon
      rw [if_neg (by omega), if_neg (by exact fun hf => by cases (congrArg (!·) hg).symm.trans hf)] at hoff
      exact ⟨hon, hoff⟩
    · rw [if_pos hn] at hon hoff
      exact ⟨hon, hoff⟩
  · have hunits := State.unitsOn_of_fabricOn (Bool.and_eq_true_iff.1 h).1
    obtain ⟨g, hg, hfree, hkept, hexec⟩ := exec_segmentCommandComplete hunits hrun hwork hup hdown
    obtain ⟨hst, herr, hseg, hzero, hother⟩ := State.segDone s m g
    refine ⟨_, hexec, hst, herr, ?_, ?_, ?_, hzero, hother⟩
    · rw [hseg, hg]
    · rw [hseg]
      exact hfree
    · rw [hseg]
      exact hkept
end

section
/-!
SUPPORT. The steps of a staging engine: what goes through its checks has its effect (10 R187 to R190, R207).
-/
namespace Sys2Proof.Machine

open Sys2Proof

theorem State.strike_nil (s : State) : s.strike [] = s := by
  simp [State.strike]

@[simp] theorem State.eccFound_nil (s : State) (rs : List (Nat × Nat)) : s.eccFound rs [] = s.meet rs := by
  rw [State.eccFound, State.strike_nil]

@[simp] theorem State.meet_engine (s : State) (rs : List (Nat × Nat)) (e : EngineId) : (s.meet rs).engine e = s.engine e := by
  rw [State.engine, State.meet_engines]
  rfl

@[simp] theorem State.readMark_engines (s : State) (a n : Nat) : (s.readMark a n).engines = s.engines := by
  unfold State.readMark
  split
  · exact State.logEv_engines ..
  · exact State.countHalves_engines ..

@[simp] theorem State.readMark_engine (s : State) (a n : Nat) (e : EngineId) : (s.readMark a n).engine e = s.engine e := by
  rw [State.engine, State.readMark_engines]
  rfl

/-- A write that the engine reaches and that does not wait is made, and the step goes on. -/
theorem engStore_ok {s : State} {e : EngineId} {c : Instr} {found : EccList} {a : Nat} {bs : List Byte}
    (f : State → State) (h : s.engWrites e c a bs.length = true) :
    engStore e c found s a bs f = (f ((s.strike found).write a bs false)).engStored e := by
  simp only [State.engWrites, Bool.and_eq_true, Option.isNone_iff_eq_none] at h
  obtain ⟨hreach, hgate⟩ := h
  simp [engStore, hreach, hgate]

end Sys2Proof.Machine
end

section
/-!
The start of a staging program and its control steps (08 R163; 10 R187, R188, R190).
-/
namespace Sys2Proof.Machine

open Sys2Proof

/-! ### The header of a program -/

theorem leValue_toNat {bs : List Byte} (hlen : bs.length = 64) : (BitVec.ofNat 512 (leValue bs)).toNat = leValue bs := by
  have hlt := leValue_lt bs
  rw [hlen] at hlt
  rw [BitVec.toNat_ofNat]
  exact Nat.mod_eq_of_lt (lt_of_lt_of_eq hlt (Nat.pow_mul 2 8 64).symm)

theorem fieldLE_split (bs : List Byte) (hlen : bs.length = 64) :
    leValue bs = fieldLE bs 0 4 + 2 ^ 32 * (fieldLE bs 4 2 + 2 ^ 16 * fieldLE bs 6 58) := by
  have h4 := leValue_split bs 4 (by omega)
  have h2 := leValue_split (bs.drop 4) 2 (by rw [List.length_drop]; omega)
  have hd : (bs.drop 6).take 58 = bs.drop 6 := List.take_of_length_le (by rw [List.length_drop]; omega)
  rw [List.drop_drop] at h2
  rw [h4, h2, fieldLE, fieldLE, fieldLE, hd, List.drop_zero]
  rfl

theorem onlyFields_one (st : Step512) (off n : Nat) :
    onlyFields st [(off, n)] = (setFld st.toNat (8 * off) (8 * n) 0 == 0) := rfl

theorem setFld_nstep {k : Nat} (h : k < 2 ^ 16) : setFld (2 ^ 32 * k) (8 * 4) (8 * 2) 0 = 0 := by
  have hf : fld (2 ^ 32 * k) 32 16 = k := by
    rw [fld, Nat.mul_div_cancel_left _ (by decide)]
    exact Nat.mod_eq_of_lt h
  rw [setFld, hf]
  omega

/-- A header that holds NSTEP alone. -/
theorem header_good {bs : List Byte} (hlen : bs.length = 64) (hop : fieldLE bs 0 4 = 0) (hrest : fieldLE bs 6 58 = 0)
    (hn : fieldLE bs 4 2 < 2 ^ 16) :
    stF (BitVec.ofNat 512 (leValue bs)) 0 1 = 0 ∧ onlyFields (BitVec.ofNat 512 (leValue bs)) [(4, 2)] = true := by
  have hv : leValue bs = 2 ^ 32 * fieldLE bs 4 2 := by
    rw [fieldLE_split bs hlen, hop, hrest]
    omega
  constructor
  · rw [stF, leValue_toNat hlen, hv, fld]
    omega
  · rw [onlyFields_one, leValue_toNat hlen, hv, setFld_nstep hn]
    rfl

/-! ### Its start -/

theorem State.proceed_engine (s : State) (n : StrandId) (f : Strand → Strand) (e : EngineId) :
    (s.proceed n f).engine e = s.engine e := by
  rw [State.engine, State.proceed, State.advance_engines, State.modStrand_engines]
  rfl

theorem State.proceed_strand (s : State) (n : StrandId) :
    ((s.proceed n id).strand n).wait = .none ∧ ((s.proceed n id).strand n).stg = (s.strand n).stg := by
  unfold State.proceed
  obtain ⟨hwait, hstg⟩ := State.advance_stg (s.modStrand n fun x => id { x with wait := .none }) n
    (by rw [State.strand_modStrand]; rfl)
  exact ⟨hwait, hstg.trans (by rw [State.strand_modStrand]; rfl)⟩

/-- What a good program whose bytes are sound leaves when it starts. -/
theorem State.startProgram_good {s t : State} {e : EngineId} {n : StrandId} {off : Nat} {arg : Word} {a nstep : Nat}
    {hdr : List Byte} (ha : a = scratchBase (regionOf n) + off) (hhdr : hdr = memGetN s.mem a 64)
    (hnstep : nstep = fieldLE hdr 4 2) (hop : fieldLE hdr 0 4 = 0) (hrest : fieldLE hdr 6 58 = 0) (hlow : 2 ≤ nstep)
    (hhigh : nstep ≤ 256) (hfits : off + 64 * nstep ≤ scratchSize) (hsound : ((s.meet [(a, 64)]).read a 64).2 = false)
    (hall : (((s.meet [(a, 64)]).meet [(a, 64 * nstep)]).read a (64 * nstep)).2 = false)
    (ht : s.startProgram e n off arg = t) :
    (t.engine e).run = .running ∧ (t.engine e).step = 1 ∧ (t.engine e).owner = n.val
      ∧ (t.engine e).store.length = nstep ∧ (t.engine e).x = (Vector.replicate 8 (0 : Word)).set 0 arg
      ∧ (t.strand n).wait = .none ∧ (t.strand n).stg[fin4 e.val] = .running s.nextId := by
  obtain ⟨hst0, honly⟩ := header_good (hhdr ▸ memGetN_len s.mem a 64) hop hrest (hnstep ▸ lt_of_le_of_lt hhigh (by decide))
  unfold State.startProgram at ht
  extract_lets a' s1 hdr' nstep' st0 good fits s2 all y seed src x s3 s4 s5 at ht
  have ha' : a' = a := ha.symm
  have hhdr' : hdr'.1 = hdr := (congrArg (memGetN · a' 64) (State.meet_mem ..)).trans (ha' ▸ hhdr.symm)
  have hn : nstep' = nstep := by rw [hnstep, ← hhdr']
  have hst : st0 = BitVec.ofNat 512 (leValue hdr) := by rw [← hhdr']
  have hgood : good = true := by simp [good, hn, hlow, hhigh, hst, hst0, honly]
  have hfit : (good && decide fits) = true := by simp [hgood, fits, hn, hfits]
  have h2 : s2 = s1.meet [(a, 64 * nstep)] := by rw [← ha', ← hn]; exact if_pos hfit
  have hbad : all.2 = false := by
    simp only [all, h2, hn, ha', s1]
    exact hall
  have hread : hdr'.2 = false := by
    simp only [hdr', s1, ha']
    exact hsound
  have hx : t.engine e = x ∧ (t.strand n).wait = .none ∧ (t.strand n).stg[fin4 e.val] = .running x.prog := by
    rw [if_neg (by simp [hread]), if_neg (by simp [hgood]), if_neg (by simp [fits, hn, hfits]), if_neg (by simp [hbad])] at ht
    subst ht
    obtain ⟨hwait, hstg⟩ := State.proceed_strand s4 n
    refine ⟨(State.proceed_engine ..).trans (State.engine_setEngine ..), hwait, ?_⟩
    rw [hstg, State.strand_modStrand]
    exact Vector.getElem_set_self (hi := (fin4 e.val).isLt)
  obtain ⟨hx, hwait, hstg⟩ := hx
  have hid : x.prog = s.nextId := by
    change s2.nextId = _
    rw [h2, State.meet_nextId, State.meet_nextId]
  rw [hx, ← hid]
  refine ⟨rfl, ?_, rfl, ?_, rfl, hwait, hstg⟩
  · exact if_pos (by simp [hfit, hbad])
  · simp only [x, hfit, if_true, List.length_map]
    refine pieces_length 64 nstep _ (by decide) ?_
    simp only [all, hn]
    exact memGetN_len ..

/-- A waiting STGRUN starts its program on its engine, when that is idle and the bytes are not written. -/
theorem exec_stagingProgramStart {s : State} {e : EngineId} {n : StrandId} {k : Fin 4} {off : Nat} {arg : Word}
    (hwait : (s.strand n).wait = .stgrun k off arg) (he : engineId n k.val = e) (hgo : s.going n = true)
    (hidle : (s.engine e).run = .idle) (hen : (s.engine e).disabled = false) (hclosing : s.engClosing e = false)
    (hfree : s.hazard n [(scratchBase (regionOf n) + off,
      max 64 (64 * fieldLE (memGetN s.mem (scratchBase (regionOf n) + off) 64) 4 2))] = false) :
    exec (.stagingProgramStart e n) s = .next (s.startProgram e n off arg) := by
  change execStagingProgramStart e n s = _
  simp [execStagingProgramStart, hwait, he, hgo, hidle, hen, hclosing, hfree]

/-! ### Control steps -/

theorem exec_setx {s : State} {e : EngineId} {st : Step512} (hnow : s.stepsNow e st 0x10 = true)
    (hdec : (onlyFields st [(0, 1), (4, 2), (8, 4)] && stD st < 8 && stA st < 8) = true) :
    exec (.setx e st) s = .next ((s.setEngine e
      ((s.engine e).setX (stD st) ((s.engine e).xr (stA st) + BitVec.ofNat 32 (stImm st)))).engNext e) :=
  congrArg Host.Outcome.next (State.stepRun_ok _ _ _ _ _ _ _ hnow hdec rfl)

theorem exec_ldx {s : State} {e : EngineId} {st : Step512} {a : Nat} (ha : a = stAddr st + ((s.engine e).xr (stA st)).toNat)
    (hnow : s.stepsNow e st 0x11 = true)
    (hdec : (onlyFields st [(0, 1), (4, 2), (0x10, 8)] && stD st < 8 && stA st < 8) = true) (halign : a % 4 = 0)
    (hreach : s.engReach a 4 = true) (hown : s.loopWrites e [(a, 4)] = false)
    (hgate : s.gate (.ldx e ⟨st, []⟩) [(a, 4)] [] = none) (hsound : ((s.meet [(a, 4)]).readHalf a 4).2 = false) :
    exec (.ldx e ⟨st, []⟩) s = .next (State.engNext (((s.meet [(a, 4)]).readMark a 4).modEngine e fun x =>
      x.setX (stD st) (BitVec.ofNat 32 (leValue (memGetN s.mem a 4)))) e) := by
  refine congrArg Host.Outcome.next (State.stepRun_ok _ _ _ _ _ _ _ hnow hdec ?_)
  simp only [stepAddr, ← ha, halign, hreach, hown, hgate, State.eccFound_nil, hsound]
  simp [State.readHalf]

theorem exec_stx {s : State} {e : EngineId} {st : Step512} {found : EccList} {a : Nat}
    (ha : a = stAddr st + ((s.engine e).xr (stA st)).toNat) (hnow : s.stepsNow e st 0x12 = true)
    (hdec : (onlyFields st [(0, 1), (5, 2), (0x10, 8)] && stA st < 8 && stB st < 8) = true) (halign : a % 4 = 0)
    (hwrite : s.engWrites e (.stx e ⟨st, found⟩) a 4 = true) :
    exec (.stx e ⟨st, found⟩) s
      = .next (((s.strike found).write a (leBytes 4 ((s.engine e).xr (stB st)).toNat) false).engStored e) := by
  refine congrArg Host.Outcome.next (State.stepRun_ok _ _ _ _ _ _ _ hnow hdec ?_)
  simp only [stepAddr, ← ha, halign]
  exact congrArg Except.ok (engStore_ok id (by rw [leBytes_length]; exact hwrite))

/-- COND of Table 10.1 as a list. -/
theorem stCond_getD (p q : Word) (k : Nat) :
    (stCond k p q).getD false = [true, p == q, p != q, p.ult q, !p.ult q].getD k false := by
  match k with
  | 0 | 1 | 2 | 3 | 4 => rfl
  | k + 5 => rfl

theorem exec_stgBr {s : State} {e : EngineId} {st : Step512} (hnow : s.stepsNow e st 0x13 = true)
    (hdec : (onlyFields st [(0, 1), (5, 3), (0xC, 2)] && stA st < 8 && stB st < 8 && stF st 7 1 < 5
      && stTarget st < (s.engine e).store.length) = true) :
    exec (.stgBr e st) s
      = .next (if (stCond (stF st 7 1) ((s.engine e).xr (stA st)) ((s.engine e).xr (stB st))).getD false = true
          then s.engGoto e (stTarget st) else s.engNext e) := by
  refine congrArg Host.Outcome.next (State.stepRun_ok _ _ _ _ _ _ _ hnow hdec ?_)
  dsimp only
  split <;> rfl

theorem exec_loop {s : State} {e : EngineId} {st : Step512} (hnow : s.stepsNow e st 0x14 = true)
    (hdec : (onlyFields st [(0, 1), (4, 1), (0xC, 2)] && stD st < 8 && stTarget st < (s.engine e).store.length) = true) :
    exec (.loop e st) s =
      let v := (s.engine e).xr (stD st) - 1
      let t := s.setEngine e ((s.engine e).setX (stD st) v)
      .next (if v ≠ 0 then t.engGoto e (stTarget st) else t.engNext e) := by
  refine congrArg Host.Outcome.next (State.stepRun_ok _ _ _ _ _ _ _ hnow hdec ?_)
  dsimp only
  split <;> rfl

end Sys2Proof.Machine

open Sys2Proof Sys2Proof.Machine

/-- Settles O25: the start of a good program, and one lemma for each control step. -/
theorem stagingControl : Obligations.StagingControl := by
  refine ⟨fun s e n k off arg => ?_, fun s e st => ?_⟩
  · intro a hdr nstep u hwait he h
    simp only [Bool.and_eq_true, Bool.not_eq_true', beq_iff_eq, decide_eq_true_eq] at h
    obtain ⟨⟨⟨⟨⟨⟨⟨⟨⟨⟨⟨hgo, hidle⟩, hen⟩, hop⟩, hrest⟩, hlow⟩, hhigh⟩, hfits⟩, hsound⟩, hall⟩, hfree⟩, hclosing⟩ := h
    refine ⟨_, exec_stagingProgramStart hwait he hgo hidle hen hclosing ?_, State.startProgram_mem .., ?_⟩
    · rw [max_eq_right (show 64 ≤ 64 * nstep by omega)]
      exact hfree
    · exact State.startProgram_good rfl rfl rfl hop hrest hlow hhigh hfits hsound hall rfl
  · intro x a
    refine ⟨fun h => ?_, fun h => ?_, fun found h => ?_, fun h => ?_, fun h => ?_⟩
    all_goals simp only [Bool.and_eq_true, Bool.not_eq_true', beq_iff_eq, Option.isNone_iff_eq_none] at h
    · obtain ⟨⟨⟨hnow, hfields⟩, hd⟩, ha⟩ := h
      exact exec_setx hnow (by simp only [hfields, hd, ha, Bool.and_self])
    · obtain ⟨⟨⟨⟨⟨⟨⟨⟨hnow, hfields⟩, hd⟩, ha⟩, halign⟩, hreach⟩, hown⟩, hgate⟩, hsound⟩ := h
      refine ⟨_, exec_ldx rfl hnow (by simp only [hfields, hd, ha, Bool.and_self]) halign hreach hown hgate hsound, ?_, ?_⟩
      · simp
      · rw [State.engine_modEngine, State.readMark_engine, State.meet_engine]
    · obtain ⟨⟨⟨⟨⟨hnow, hfields⟩, ha⟩, hb⟩, halign⟩, hwrite⟩ := h
      exact exec_stx rfl hnow (by simp only [hfields, ha, hb, Bool.and_self]) halign hwrite
    · obtain ⟨⟨⟨⟨⟨hnow, hfields⟩, ha⟩, hb⟩, hcond⟩, htarget⟩ := h
      intro p q
      rw [← stCond_getD p q]
      exact exec_stgBr hnow (Bool.and_eq_true_iff.2 ⟨by simp only [hfields, ha, hb, hcond, Bool.and_self], htarget⟩)
    · obtain ⟨⟨⟨hnow, hfields⟩, hd⟩, htarget⟩ := h
      exact exec_loop hnow (Bool.and_eq_true_iff.2 ⟨by simp only [hfields, hd, Bool.and_self], htarget⟩)
end

section
/-!
The bursts of a staging engine, ARRIVE and END (10 R193, R194; 13 R272, R278).
-/
namespace Sys2Proof.Machine

open Sys2Proof

/-! ### What follows an access: its messages to this module itself come in -/

theorem exec_burstWrite {s t : State} {e : EngineId} {found : EccList} (h : s.burstWrite e found = t) :
    exec (.burstWrite ⟨e, found⟩) s = .next t.loopIn := h ▸ rfl

theorem exec_arrival {s t : State} {e : EngineId} (h : s.arrivalStep e = t) : exec (.arrival e) s = .next t.loopIn := h ▸ rfl

/-! ### The front burst -/

section
variable {s : State} {e : EngineId} {found : EccList} {b : Burst} {rest : List Burst}
  (hb : (s.engine e).bursts = b :: rest) (hgo : s.engGo e = true)
include hb hgo

theorem State.burstWrite_local (hspace : b.space = 0) (hreach : s.engReach b.addr b.bytes.length = true)
    (hgate : s.gateWith true (.burstWrite ⟨e, found⟩) [] [(b.addr, b.bytes.length)] = none) :
    s.burstWrite e found =
      let t := (s.strike found).write b.addr b.bytes b.poison
      ((if b.poison && b.remote then t.poisonWritten b.addr else t).setEngine e ((s.engine e).popBurst b)).burstDone e := by
  simp [State.burstWrite, hb, hgo, hspace, hreach, hgate]

theorem State.burstWrite_host (hspace : b.space = 1) (hcxl : s.cxlOn = true) :
    s.burstWrite e found =
      let u := s.setEngine e { (s.engine e).popBurst b with hostWrites := ((s.engine e).popBurst b).hostWrites + 1 }
      (({ u with host := { u.host with d2h := u.host.d2h ++ [(D2HAgent.engine e, false, b.addr, b.bytes.length)] } } : State).send
        (.d2hWrite (.engine e) b.addr b.bytes b.poison)).burstDone e := by
  simp [State.burstWrite, hb, hgo, hspace, hcxl]

theorem State.burstWrite_peer {k : Nat} (hspace : b.space = 2) (htag : (s.engine e).freeTag = some k) :
    ∃ m : ColMsg, m.mtype = (if b.atom then mtAtomAdd else mtWrite) ∧ m.addr = b.addr ∧ m.data = b.bytes ∧
      s.burstWrite e found = (State.request (s.setEngine e { (s.engine e).popBurst b with
        peers := ((s.engine e).popBurst b).peers
          ++ [({ dst := b.dst, tag := k, addr := b.addr, bytes := b.bytes.length, isRead := false } : PeerOut)],
        tag := (k + 1) % 2048 }) e b.tc b.dst m).burstDone e := by
  refine ⟨{ mtype := if b.atom then mtAtomAdd else mtWrite,
            poison := if b.poison then poisonBits b.addr (fun l => l * 64 < b.addr + b.bytes.length) else 0,
            lenm1 := b.bytes.length - 1, tag := tagOf e k, addr := b.addr, offset := 0, blenm1 := b.bytes.length - 1,
            cause := 0, data := b.bytes }, rfl, rfl, rfl, ?_⟩
  simp [State.burstWrite, hb, hgo, hspace, htag]

end

/-! ### Arrivals -/

theorem exec_arrive {s : State} {e : EngineId} {st : Step512} {ext : Nat} (hext : ext = stF st 0x38 8)
    (hnow : s.stepsNow e st 0x30 = true) (hfields : onlyFields st [(0, 1), (0x38, 8)] = true)
    (hclean : (setFld (setFld (setFld (setFld ext 14 2 0) 16 12 0) 36 6 0) 42 5 0 == 0) = true)
    (hspace : (fld ext 14 2 == 2 || (fld ext 14 2 == 0 && fld ext 16 12 == 0)) = true) :
    exec (.arrive e st) s = .next (s.modEngine e fun x => { x with
      arrival := some ⟨fld ext 14 2, fld ext 16 12, fld ext 42 5, fld ext 36 6, true⟩ }) := by
  subst hext
  have hdec : (fld (stF st 0x38 8) 14 2 != 0 || fld (stF st 0x38 8) 16 12 == 0) = true := by
    generalize fld (stF st 0x38 8) 14 2 = k at hspace
    simp only [Bool.or_eq_true, Bool.and_eq_true, beq_iff_eq, bne_iff_ne] at hspace ⊢
    omega
  have hmem : ¬(fld (stF st 0x38 8) 14 2 = 1 ∨ fld (stF st 0x38 8) 14 2 = 3) := by
    generalize fld (stF st 0x38 8) 14 2 = k at hspace
    simp only [Bool.or_eq_true, Bool.and_eq_true, beq_iff_eq] at hspace
    omega
  refine congrArg Host.Outcome.next (State.stepRun_ok _ _ _ _ _ _ _ hnow ?_ (if_neg hmem))
  rw [hfields, hclean, hdec]
  rfl

section
variable {s : State} {e : EngineId} {a : Arrive} (ha : (s.engine e).arrival = some a) (hgo : s.engGo e = true)
  (hbursts : (s.engine e).bursts = []) (hanswered : (s.engine e).unanswered = false)
include hanswered

/-- Once every write is answered no arrival waits. -/
theorem Engine.arrives_of_answered :
    (if a.late then (s.engine e).unanswered else a.space == 1 && (s.engine e).hostWrites != 0) = false := by
  have hhost : ((s.engine e).hostWrites != 0) = false := (Bool.or_eq_false_iff.1 hanswered).2
  rw [hanswered, hhost, Bool.and_false, ite_self]

include ha hgo hbursts

theorem State.arrivalStep_local (hspace : a.space ≠ 2) :
    s.arrivalStep e
      = ((s.setEngine e { s.engine e with arrival := none }).arrival (fin32 a.strand) a.flag).engNext e := by
  simp only [State.arrivalStep, ha, hgo, hbursts, Engine.arrives_of_answered hanswered, hspace]
  rfl

theorem State.arrivalStep_peer {k : Nat} (hspace : a.space = 2) (htag : (s.engine e).freeTag = some k) :
    s.arrivalStep e =
      let t := (s.setEngine e { s.engine e with arrival := none, tag := (k + 1) % 2048 }).request e 0 a.dst
        (simpleMsg mtArrive (tagOf e k) (a.flag + a.strand * 64) 0)
      if (t.engine e).run == .running && !(t.engine e).faulting then t.engNext e else t := by
  have hwaits := Engine.arrives_of_answered (a := a) hanswered
  rw [hspace] at hwaits
  simp only [State.arrivalStep, ha, hgo, hbursts, hwaits, hspace, htag]
  rfl

end

/-! ### END -/

theorem exec_stgEnd {s : State} {e : EngineId} {st : Step512} (hnow : s.stepsNow e st 0x3F = true)
    (hfields : onlyFields st [(0, 1)] = true) :
    exec (.stgEnd e st) s = .next ((s.modEngine e fun x => { x with ending := true }).settleEngine e) :=
  congrArg Host.Outcome.next (State.stepRun_ok _ _ _ _ _ _ _ hnow hfields rfl)

theorem State.stgOutcome_engine (s : State) (e f : EngineId) (ok : Bool) : (s.stgOutcome e ok).engine f = s.engine f := rfl

/-- A step begins when the bursts of the one before have left. -/
theorem State.bursts_of_stepsNow {s : State} {e : EngineId} {st : Step512} {op : Nat} (h : s.stepsNow e st op = true) :
    (s.engine e).bursts = [] := by
  simp only [State.stepsNow, State.mayStep, Bool.and_eq_true, List.isEmpty_iff] at h
  exact h.1.1.1.2

/-- A program that ends with nothing unanswered leaves its engine idle and its CVU result valid. -/
theorem State.settleEngine_ending {s : State} {e : EngineId} (hend : (s.engine e).ending = true)
    (hbursts : (s.engine e).bursts = []) (hanswered : (s.engine e).unanswered = false)
    (hfault : (s.engine e).faulting = false) (hstoring : (s.engine e).storing = false) :
    let t := s.settleEngine e
    (t.engine e).run = .idle ∧ (t.engine e).cvu = none
      ∧ ∀ v, (s.engine e).cvu = some v → (t.engine e).cvuResult = v.close.result ∧ (t.engine e).cvuValid = true := by
  intro t
  have ht : t = (s.setEngine e { (match (s.engine e).cvu with
      | none => s.engine e
      | some c => { s.engine e with cvu := none, cvuResult := c.close.result, cvuValid := true }) with
        ending := false, run := .idle }).stgOutcome e true := by
    simp only [t, State.settleEngine, hend, hbursts, hanswered, hfault, hstoring]
    rfl
  rw [ht, State.stgOutcome_engine, State.engine_setEngine]
  cases hc : (s.engine e).cvu with
  | none => exact ⟨rfl, hc, fun v hv => by cases hv⟩
  | some c => exact ⟨rfl, rfl, fun v hv => by cases hv; exact ⟨rfl, rfl⟩⟩

end Sys2Proof.Machine

open Sys2Proof Sys2Proof.Machine

/-- Settles O27: by the space of the front burst, by that of the arrival, and by what a program leaves that settles. -/
theorem burstsArriveAndEnd : Obligations.BurstsArriveAndEnd := by
  refine ⟨?_, ?_⟩
  · intro s e found b rest x y hb hgo
    refine ⟨fun hspace h => ?_, fun hspace hcxl => ?_, fun k hspace htag => ?_⟩
    · obtain ⟨hreach, hgate⟩ := Bool.and_eq_true_iff.1 h
      exact exec_burstWrite (State.burstWrite_local hb hgo hspace hreach (Option.isNone_iff_eq_none.1 hgate))
    · exact ⟨_, exec_burstWrite (State.burstWrite_host hb hgo hspace hcxl), rfl,
        State.engine_setEngine .., rfl, rfl⟩
    · obtain ⟨m, hmtype, haddr, hdata, hstep⟩ := State.burstWrite_peer (found := found) hb hgo hspace htag
      exact ⟨_, m, exec_burstWrite hstep, rfl, hmtype, haddr, hdata⟩
  · intro s e st ext x
    refine ⟨fun h => ?_, fun a ha h => ⟨fun hspace => ?_, fun k hspace htag => ?_⟩, fun h => ?_, fun c h hc => ?_⟩
    · simp only [Bool.and_eq_true] at h
      obtain ⟨⟨⟨hnow, hfields⟩, hclean⟩, hspace⟩ := h
      exact exec_arrive rfl hnow hfields hclean hspace
    · simp only [Bool.and_eq_true, Bool.not_eq_true', List.isEmpty_iff] at h
      obtain ⟨⟨hgo, hbursts⟩, hanswered⟩ := h
      exact exec_arrival (State.arrivalStep_local ha hgo hbursts hanswered hspace)
    · simp only [Bool.and_eq_true, Bool.not_eq_true', List.isEmpty_iff] at h
      obtain ⟨⟨hgo, hbursts⟩, hanswered⟩ := h
      exact exec_arrival (State.arrivalStep_peer ha hgo hbursts hanswered hspace htag)
    · obtain ⟨hnow, hfields⟩ := Bool.and_eq_true_iff.1 h
      exact exec_stgEnd hnow hfields
    · simp only [Bool.and_eq_true, Bool.not_eq_true'] at h
      obtain ⟨⟨⟨⟨hnow, hfields⟩, hanswered⟩, hfault⟩, hstoring⟩ := h
      have hu : ∀ f : Engine → Engine, (s.modEngine e f).engine e = f x := fun f => State.engine_modEngine ..
      have hend := State.settleEngine_ending (s := s.modEngine e fun x => { x with ending := true }) (e := e)
        (by rw [hu]) (by rw [hu]; exact State.bursts_of_stepsNow hnow) (by rw [hu]; exact hanswered)
        (by rw [hu]; exact hfault) (by rw [hu]; exact hstoring)
      obtain ⟨hidle, hcvu, hresult⟩ := hend
      refine ⟨_, exec_stgEnd hnow hfields, hidle, hcvu, fun v hv => hresult v ?_⟩
      rw [hu]
      exact hc.trans hv
end

section
/-!
CVUSET, CVUOUT, SHAINIT, SHAFIN, COLSUM and BUCKET (09 R176, R177; 10 R196, R197, R199 to R204).
-/
namespace Sys2Proof.Machine

open Sys2Proof

/-! ### CVU and SHA steps -/

section
variable {s : State} {e : EngineId} {st : Step512}

theorem exec_cvuset (hnow : s.stepsNow e st 0x20 = true)
    (hdec : (onlyFields st [(0, 1), (4, 3), (8, 8)] && stF st 4 1 < 2 && stF st 5 1 < 2 && stF st 6 1 < 2) = true) :
    exec (.cvuset e st) s = .next ((s.modEngine e fun x => { x with
      cvu := some ⟨stF st 4 1, stF st 5 1, stF st 6 1, stF st 8 8, (if stF st 4 1 = 0 then crc32c else crc64).init, 0, [], 0⟩,
      cvuValid := false, cvuLost := true, cvuPoly := stF st 4 1 == 1, cvuFold := stF st 5 1 == 1 }).engNext e) :=
  congrArg Host.Outcome.next (State.stepRun_ok _ _ _ _ _ _ _ hnow hdec rfl)

theorem exec_cvuout {c : Cvu} {found : EccList} (hc : (s.engine e).cvu = some c) (hnow : s.stepsNow e st 0x21 = true)
    (hfields : onlyFields st [(0, 1), (0x10, 8)] = true) (halign : stAddr st % 8 = 0)
    (hwrite : s.engWrites e (.cvuout e ⟨st, found⟩) (stAddr st) 8 = true) :
    exec (.cvuout e ⟨st, found⟩) s = .next ((((s.strike found).write (stAddr st)
      (leBytes 8 c.close.result.toNat) false).modEngine e fun x => { x with cvu := some c.close }).engStored e) := by
  refine congrArg Host.Outcome.next (State.stepRun_ok _ _ _ _ _ _ _ hnow hfields ?_)
  rw [hc]
  refine (if_neg (by simp [halign])).trans (congrArg Except.ok (engStore_ok _ ?_))
  rw [leBytes_length]
  exact hwrite

theorem exec_shainit (hnow : s.stepsNow e st 0x28 = true) (hfields : onlyFields st [(0, 1)] = true) :
    exec (.shainit e st) s = .next ((s.modEngine e fun x => { x with shaP := [] }).engNext e) :=
  congrArg Host.Outcome.next (State.stepRun_ok _ _ _ _ _ _ _ hnow hfields rfl)

theorem exec_shafin (hnow : s.stepsNow e st 0x29 = true)
    (hdec : (onlyFields st [(0, 1), (4, 1), (6, 2), (0x10, 8)] && stF st 4 1 < 2 && stF st 6 2 < 4096) = true)
    (halign : stAddr st % 32 = 0)
    (hwrite : s.engWrites e (.shafin e st) (stAddr st) (sha256 (s.engine e).shaP).length = true) :
    exec (.shafin e st) s =
      let d := sha256 (s.engine e).shaP
      let t := (s.write (stAddr st) d false).modEngine e fun x => { x with shaP := [] }
      .next (State.engStored (if stF st 4 1 = 1 then { t with wdt := t.wdt.put (stF st 6 2) d } else t) e) := by
  refine congrArg Host.Outcome.next (State.stepRun_ok _ _ _ _ _ _ _ hnow hdec ?_)
  refine (if_neg (by simp [halign])).trans (congrArg Except.ok ((engStore_ok _ hwrite).trans ?_))
  rw [State.strike_nil]

end

/-! ### COLSUM -/

/-- The column sums of w as elements of tile d's format. -/
def State.colWrs (s : State) (w d : Tile) : List Wr :=
  (List.range d.cols).map fun c =>
    ⟨(sumCode d.fmt (s.colTotal w c) (s.colNan w c)).1, (sumCode d.fmt (s.colTotal w c) (s.colNan w c)).2,
      (List.range w.rows).any fun r => s.elemBad w r c⟩

/-- The bursts that carry the column sums of w to the row of tile d. -/
def State.colBursts (s : State) (w d : Tile) : List Burst :=
  (rowOfWrs d.addr d.fmt.bits (s.colWrs w d)).bursts 0 0 false 0

/-- The tiles of a COLSUM pass their checks. -/
def colsumOk (w d : Tile) : Bool :=
  w.fmt.roleW && d.sparse == 0 && d.rows == 1 && d.cols == w.cols
    && (d.fmt == .fp32 || (d.fmt == .int32 && w.fmt.isIntegerClass && w.skind == 0)) && !isBasin d.addr

theorem exec_colsum {s : State} {e : EngineId} {st : Step512} {found : EccList} {a b a' : Side}
    (ha : s.side (s.engine e) (stF st 8 16) (stF st 0x28 8) 0 0 0 = .ok a)
    (hb : bareSide (s.engine e) (stF st 0x18 16) 0 0 0 = .ok b) (hnow : s.stepsNow e st 0x02 = true)
    (hdec : (onlyFields st [(0, 1), (8, 16), (0x18, 16), (0x28, 8)] && tdSptr (stF st 8 16) == 0
      && tdSptr (stF st 0x18 16) == 0) = true)
    (hok : colsumOk a.tile b.tile = true) (hra : s.sideReach a = true) (hrb : s.sideReach b = true)
    (hheads : s.engReads e (.colsum e ⟨st, found⟩) (headersOf [stF st 0x28 8]) = none)
    (hreads : s.engReads e (.colsum e ⟨st, found⟩) a.tile.ranges = none)
    (ha' : (s.engMark (headersOf [stF st 0x28 8] ++ a.tile.spans ++ a.tile.sideRanges) found).side (s.engine e)
      (stF st 8 16) (stF st 0x28 8) 0 0 0 = .ok a') :
    exec (.colsum e ⟨st, found⟩) s =
      let u := s.engMark (headersOf [stF st 0x28 8] ++ a.tile.spans ++ a.tile.sideRanges) found
      .next ((u.setEngine e { s.engine e with bursts := u.colBursts a'.tile b.tile }).count
        (fin32 (s.engine e).owner) ((u.colWrs a'.tile b.tile).foldl (fun ev w => ev.add w.ev) {})) := by
  refine congrArg Host.Outcome.next (State.stepRun_ok _ _ _ _ _ _ _ hnow hdec ?_)
  dsimp only
  rw [hheads, ha, hb]
  dsimp only
  rw [colsumOk] at hok
  rw [hok, hra, hrb, hreads]
  dsimp only [Bool.not_true, Bool.false_eq_true, if_false]
  rw [ha']
  rfl

@[simp] theorem State.count_engine (s : State) (n : StrandId) (ev : Events) (e : EngineId) :
    (s.count n ev).engine e = s.engine e := rfl

/-! ### BUCKET -/

/-- The reach of an engine rests on the segments and the power states alone. -/
theorem State.engReach_of {s t : State} (hsegs : t.segs = s.segs) (hpower : t.power = s.power) : t.engReach = s.engReach := by
  have hregion : t.region = s.region := by
    funext r
    rw [State.region, State.region, hpower]
  have hasleep : t.asleep = s.asleep := by
    funext r
    rw [State.asleep, State.asleep, State.awake, State.awake, State.sleeping, State.sleeping, hregion]
  have hasleepAt : t.asleepAt = s.asleepAt := by
    funext a
    rw [State.asleepAt, State.asleepAt, hasleep]
  have hanswers : t.answers = s.answers := by
    funext a n
    simp only [State.answers, State.offline, State.seg, hsegs]
  funext a n
  rw [State.engReach, State.engReach, State.unreachable, State.unreachable, hasleepAt, hanswers]

theorem State.engMark_segs (s : State) (rs : List (Nat × Nat)) (found : EccList) : (s.engMark rs found).segs = s.segs := by
  rw [State.engMark, State.countHalves_segs, State.eccFound, State.meet_segs, State.strike_segs]

theorem State.engMark_power (s : State) (rs : List (Nat × Nat)) (found : EccList) : (s.engMark rs found).power = s.power := by
  rw [State.engMark, State.countHalves_power, State.eccFound, State.meet_power, State.strike_power]

theorem State.engMark_engReach (s : State) (rs : List (Nat × Nat)) (found : EccList) :
    (s.engMark rs found).engReach = s.engReach := State.engReach_of (s.engMark_segs ..) (s.engMark_power ..)

theorem State.engMark_engine (s : State) (rs : List (Nat × Nat)) (found : EccList) (e : EngineId) :
    (s.engMark rs found).engine e = s.engine e := by
  rw [State.engMark, State.engine, State.countHalves_engines, State.eccFound, ← State.engine, State.meet_engine, State.engine,
    State.strike_engines, State.engine]

/-- A BUCKET whose reads and writes all reach, in the state as it stands and as its own reads leave it. -/
theorem exec_bucket {s : State} {e : EngineId} {st : Step512} {found : EccList} {b : BucketStep}
    (hb : bucketOf e st = some b) (hnow : s.stepsNow e st 0x03 = true)
    (hdec : (onlyFields st [(0, 3), (4, 2), (6, 2), (8, 8), (0x10, 8), (0x18, 16), (0x28, 4), (0x2C, 4), (0x30, 8),
      (0x38, 4)] && tdSptr (stF st 0x18 16) == 0) = true)
    (hrs : ∀ p ∈ (s.bkRun b).reads, s.engReach p.1 p.2 = true)
    (hreads : s.engReads e (.bucket e ⟨st, found⟩) (s.bkRun b).reads = none)
    (hws : ∀ w ∈ (s.bkRun b).out.reverse, s.engReach w.1 w.2.1.length = true)
    (hgate : s.gateWith true (.bucket e ⟨st, found⟩) []
      ((s.bkRun b).out.reverse.map fun w => (w.1, w.2.1.length)) = none)
    (hfault : ((s.engMark (s.bkRun b).reads found).bkRun b).fault = none)
    (hout : ∀ w ∈ ((s.engMark (s.bkRun b).reads found).bkRun b).out.reverse, s.engReach w.1 w.2.1.length = true)
    (hread : ∀ p ∈ ((s.engMark (s.bkRun b).reads found).bkRun b).reads, s.engReach p.1 p.2 = true) :
    exec (.bucket e ⟨st, found⟩) s =
      let u := s.engMark (s.bkRun b).reads found
      .next (((u.bkRun b).out.reverse.foldl (fun s w => s.write w.1 w.2.1 w.2.2) u).engStored e) := by
  refine congrArg Host.Outcome.next (State.stepRun_ok _ _ _ _ _ _ _ hnow hdec ?_)
  dsimp only
  rw [hb]
  dsimp only
  rw [List.filter_eq_self.mpr hrs, hreads]
  dsimp only
  rw [List.takeWhile_eq_self_iff.mpr hws, hgate]
  dsimp only
  rw [List.takeWhile_eq_self_iff.mpr hout, State.engMark_engReach,
    List.find?_eq_none.mpr fun w hw => by simp [hout w hw]]
  dsimp only
  rw [List.find?_eq_none.mpr fun p hp => by simp [hread p hp]]
  dsimp only
  rw [hfault]

end Sys2Proof.Machine

open Sys2Proof Sys2Proof.Machine

/-- Settles O28: each step reads, computes and writes as its lemma says; the conditions of COLSUM are those of
`colsumOk`, and the reach of an engine is the same once BUCKET has read. -/
theorem stagingCompute : Obligations.StagingCompute := by
  unfold Obligations.StagingCompute
  refine ⟨?_, ?_⟩
  · intro s e st x a poly
    refine ⟨?_, ?_, ?_, ?_⟩
    · intro h
      simp only [Bool.and_eq_true] at h
      obtain ⟨⟨⟨⟨hnow, hfields⟩, hpoly⟩, hfold⟩, hsrc⟩ := h
      exact exec_cvuset hnow (by simp only [Bool.and_eq_true]; exact ⟨⟨⟨hfields, hpoly⟩, hfold⟩, hsrc⟩)
    · intro c found hc h
      simp only [Bool.and_eq_true, beq_iff_eq] at h
      obtain ⟨⟨⟨hnow, hfields⟩, halign⟩, hwrite⟩ := h
      exact exec_cvuout hc hnow hfields halign hwrite
    · intro h
      simp only [Bool.and_eq_true] at h
      exact exec_shainit h.1 h.2
    · intro h
      simp only [Bool.and_eq_true, beq_iff_eq] at h
      obtain ⟨⟨⟨⟨⟨hnow, hfields⟩, hreg⟩, hidx⟩, halign⟩, hwrite⟩ := h
      exact exec_shafin hnow (by simp only [Bool.and_eq_true]; exact ⟨⟨hfields, hreg⟩, hidx⟩) halign hwrite
  · intro s e st found x
    refine ⟨?_, ?_⟩
    · intro a b ha hb w d h u a' ha'
      simp only [Bool.and_eq_true, Option.isNone_iff_eq_none] at h
      obtain ⟨⟨⟨⟨⟨⟨⟨⟨⟨⟨⟨⟨⟨hnow, hfields⟩, hsw⟩, hsd⟩, hrole⟩, hsparse⟩, hrows⟩, hcols⟩, hfmt⟩, hbasin⟩, hra⟩, hrb⟩,
        hheads⟩, hreads⟩ := h
      have hdec := Bool.and_eq_true_iff.mpr ⟨Bool.and_eq_true_iff.mpr ⟨hfields, hsw⟩, hsd⟩
      have hok : colsumOk a.tile b.tile = true := by
        simp only [colsumOk, Bool.and_eq_true]
        exact ⟨⟨⟨⟨⟨hrole, hsparse⟩, hrows⟩, hcols⟩, hfmt⟩, hbasin⟩
      refine ⟨_, exec_colsum ha hb hnow hdec hok hra hrb hheads hreads ha', ?_, ?_⟩
      · rw [State.count_mem, State.setEngine_mem, State.engMark_mem]
      · rw [State.count_engine, State.engine_setEngine]
        rfl
    · intro b hb rs h ws hw u r out hr
      simp only [Bool.and_eq_true, Option.isNone_iff_eq_none, List.all_eq_true] at h hw hr
      obtain ⟨⟨⟨⟨hnow, hfields⟩, hsptr⟩, hrs⟩, hreads⟩ := h
      obtain ⟨hws, hgate⟩ := hw
      obtain ⟨⟨hfault, hout⟩, hread⟩ := hr
      have hreach : u.engReach = s.engReach := State.engMark_engReach ..
      exact exec_bucket hb hnow (Bool.and_eq_true_iff.mpr ⟨hfields, hsptr⟩) hrs hreads hws hgate hfault
        (hreach ▸ hout) (hreach ▸ hread)

end

section
/-!
COPY (10 R189, R191 to R193): what a COPY does once its sides pass their checks, and the rows of a bit copy.
-/
namespace Sys2Proof.Machine

open Sys2Proof

theorem exec_copy {s t : State} {e : EngineId} {r : StepRead} (h : s.copyStep e r = t) :
    exec (.copy e r) s = .next t.loopIn := h ▸ rfl

/-! ### A COPY whose sides pass their checks -/

/-- A COPY with its source at hand waits, or reads and queues its bursts. -/
def State.copyQueue (s : State) (e : EngineId) (r : StepRead) (a b : Side) : State :=
  if s.loopWrites e (copyReads a b) then s
  else match s.gate (.copy e r) (copyReads a b) [] with
  | some t => t
  | none =>
    let t := s.engMark ((copyOf r.step).headers ++ copyReads a b) r.found
    match t.copySides e (copyOf r.step) with
    | .ok (a, b) => t.copyGo e (copyOf r.step) a b
    | .error _ => t.copyGo e (copyOf r.step) a b

/-- The bytes of a side in host or peer memory, none of them asked for yet. -/
def Side.fetch (a : Side) : Fetch :=
  { space := a.space, dst := a.hi, todo := (Tile.spans { a.tile with addr := a.base }).flatMap fun p => blocks256 p.1 p.2,
    got := [], poison := [], waiting := none }

/-- A COPY asks for its remote source, waits for it, or has it at hand (log entry 71). -/
def State.copySource (s : State) (e : EngineId) (r : StepRead) (a b : Side) : State :=
  match (s.engine e).fetch with
  | some f => if f.complete then s.copyQueue e r a b else if f.waiting.isNone then s.fetchNext e else s
  | none =>
    if a.space = 0 then s.copyQueue e r a b
    else if s.ownWrites e a then s
    else (s.modEngine e fun x => { x with fetch := some a.fetch }).fetchNext e

theorem State.copyQueue_ready {s : State} {e : EngineId} {r : StepRead} {a b a' b' : Side}
    (hloop : s.loopWrites e (copyReads a b) = false) (hgate : s.gate (.copy e r) (copyReads a b) [] = none)
    (hsides : (s.engMark ((copyOf r.step).headers ++ copyReads a b) r.found).copySides e (copyOf r.step) = .ok (a', b')) :
    s.copyQueue e r a b
      = (s.engMark ((copyOf r.step).headers ++ copyReads a b) r.found).copyGo e (copyOf r.step) a' b' := by
  rw [State.copyQueue, if_neg (by rw [hloop]; exact Bool.false_ne_true), hgate]
  dsimp only
  rw [hsides]

theorem State.copySource_atHand {s : State} {e : EngineId} {r : StepRead} {a b : Side}
    (h : ((s.engine e).fetch = none ∧ a.space = 0) ∨ ∃ f, (s.engine e).fetch = some f ∧ f.complete = true) :
    s.copySource e r a b = s.copyQueue e r a b := by
  rw [State.copySource]
  obtain ⟨hfetch, hspace⟩ | ⟨f, hfetch, hcomplete⟩ := h
  · rw [hfetch]
    exact if_pos hspace
  · rw [hfetch]
    exact if_pos hcomplete

theorem State.copySource_remote {s : State} {e : EngineId} {r : StepRead} {a b : Side} (hspace : a.space ≠ 0)
    (hfetch : (s.engine e).fetch = none) (hown : s.ownWrites e a = false) :
    s.copySource e r a b = (s.modEngine e fun x => { x with fetch := some a.fetch }).fetchNext e := by
  rw [State.copySource, hfetch, hown]
  exact if_neg hspace

theorem State.copyStep_eq {s : State} {e : EngineId} {r : StepRead} {a b : Side} (hnow : s.stepsNow e r.step 0x01 = true)
    (hdec : (copyOf r.step).decOk r.step = true) (hheads : s.engReads e (.copy e r) (copyOf r.step).headers = none)
    (hsides : s.copySides e (copyOf r.step) = .ok (a, b)) (hra : s.sideReach a = true) (hrb : s.sideReach b = true)
    (harrays : ∀ p ∈ copyArrays a b, (p.2 == 0 || s.engReach p.1 p.2) = true) :
    s.copyStep e r = s.copySource e r a b := by
  have hop : stF r.step 0 1 = 1 := by
    rw [State.stepsNow, Bool.and_eq_true, beq_iff_eq] at hnow
    exact hnow.2
  rw [State.copyStep, hop, if_neg (by simp [knownStep])]
  refine State.stepRun_ok _ _ _ _ _ _ _ hnow hdec ?_
  dsimp only
  rw [hheads, hsides]
  dsimp only
  rw [hra, hrb, List.find?_eq_none.mpr fun p hp => by simpa [imp_iff_not_or, or_comm] using harrays p hp]
  simp only [Bool.not_true, Bool.false_eq_true, if_false]
  rw [State.copySource]
  cases (s.engine e).fetch with
  | none =>
    by_cases hspace : a.space = 0
    · rw [if_pos hspace, if_pos hspace]
      rfl
    · rw [if_neg hspace, if_neg hspace]
      exact (apply_ite Except.ok ..).symm
  | some f =>
    dsimp only
    by_cases hcomplete : f.complete = true
    · rw [if_pos hcomplete, if_pos hcomplete]
      rfl
    · rw [if_neg hcomplete, if_neg hcomplete]

/-! ### A bit copy inside the address space -/

/-- A bit copy reads no header, so its sides rest on the engine and the class of its port alone. -/
theorem State.copySides_bitcopy {s t : State} {e : EngineId} {c : CopyStep} (hbit : c.bitcopy = true)
    (hengine : t.engine e = s.engine e) (hcol : t.col = s.col) : t.copySides e c = s.copySides e c := by
  simp only [State.copySides, hbit, hengine, hcol, if_true]

theorem State.engMark_col (s : State) (rs : List (Nat × Nat)) (found : EccList) : (s.engMark rs found).col = s.col := by
  rw [State.engMark, State.countHalves_col, State.eccFound, State.meet_col, State.strike_col]

/-- The row that a bit copy makes of the span p of its source, at address q. -/
def State.bitRow (s : State) (p : Nat × Nat) (q : Nat) : RowOut :=
  ⟨q, memGetN s.mem p.1 p.2,
    (List.range p.2).map fun k => (k, k, (lineHalves (p.1 + k) 1).any s.poison.contains, false)⟩

/-- The bursts of a bit copy inside the address space. -/
def State.bitBursts (s : State) (a b : Side) (tc : Nat) : List Burst :=
  (List.zip a.tile.spans b.tile.spans).flatMap fun p => (s.bitRow p.1 p.2.1).bursts 0 b.hi false tc

theorem RowOut.bursts_remote (r : RowOut) (space dst : Nat) (atom : Bool) (tc : Nat) :
    ∀ x ∈ r.bursts space dst atom tc, { x with remote := false } = x := by
  intro x hx
  obtain ⟨p, -, rfl⟩ := List.mem_map.mp hx
  rfl

theorem State.bitCopy_rows {s : State} {a b : Side} (ha : a.space = 0) (hb : b.space = 0) :
    (s.bitCopy a b).rows = (List.zip a.tile.spans b.tile.spans).map fun p => s.bitRow p.1 p.2.1 := by
  have hat : a.placed = a.tile := by rw [Side.placed, Side.at, if_pos ha]
  have hbase : b.base = b.tile.addr := by rw [Side.base, hb]; rfl
  rw [State.bitCopy, hat, hbase]
  rfl

theorem State.bitCopy_bursts {s : State} {a b : Side} (ha : a.space = 0) (hb : b.space = 0) (cls tc : Nat) :
    (((s.bitCopy a b).rows.flatMap fun r => r.bursts b.space b.hi (b.space == 2 && cls == 2) tc)
      ++ (s.bitCopy a b).scales.flatMap fun r => r.bursts 0 0 false 0).map (fun r => { r with remote := a.space != 0 })
      = s.bitBursts a b tc := by
  have hscales : (s.bitCopy a b).scales = [] := rfl
  rw [State.bitCopy_rows ha hb, hscales, ha, hb, List.flatMap_nil, List.append_nil, List.flatMap_map]
  refine (List.map_congr_left fun x hx => ?_).trans (List.map_id _)
  obtain ⟨p, -, hx⟩ := List.mem_flatMap.mp hx
  exact RowOut.bursts_remote _ _ _ _ _ x hx

/-- A bit copy inside the address space queues the rows of its source. -/
theorem State.copyGo_bitcopy {s : State} {e : EngineId} {c : CopyStep} {a b : Side} (hbit : c.bitcopy = true)
    (ha : a.space = 0) (hb : b.space = 0) (hfetch : (s.engine e).fetch = none)
    (hne : s.bitBursts a b (if fld s.col.eng.toNat (2 * e.val) 2 = 0 then 0 else 2) ≠ []) :
    ((s.copyGo e c a b).engine e).bursts = s.bitBursts a b (if fld s.col.eng.toNat (2 * e.val) 2 = 0 then 0 else 2) := by
  simp only [State.copyGo, hfetch, hbit, if_true]
  rw [State.bitCopy_bursts ha hb, if_neg (by simp [hne]), State.count_engine, State.engine_setEngine]

end Sys2Proof.Machine

open Sys2Proof Sys2Proof.Machine

/-- Settles O26: once its sides pass their checks a COPY is `copySource`, at hand or remote; the sides of a bit copy are
the same once it has read, and its rows are the spans of its source. -/
theorem copySteps : Obligations.CopySteps := by
  unfold Obligations.CopySteps
  intro s e st found a b c t h hsides
  simp only [Bool.and_eq_true, Option.isNone_iff_eq_none, List.all_eq_true] at h
  obtain ⟨⟨⟨⟨⟨hnow, hdec⟩, hheads⟩, hra⟩, hrb⟩, harrays⟩ := h
  have hstep := State.copyStep_eq (r := ⟨st, found⟩) hnow hdec hheads hsides hra hrb harrays
  refine ⟨?_, ?_, ?_⟩
  · intro a' b' hsides' hhand hloop hgate
    exact exec_copy (hstep.trans ((State.copySource_atHand hhand).trans (State.copyQueue_ready hloop hgate hsides')))
  · intro hspace hfetch hown
    exact exec_copy (hstep.trans (State.copySource_remote hspace hfetch hown))
  · intro hbit _ _ ha hb hfetch hloop hgate rows hne
    have hengine : t.engine e = s.engine e := State.engMark_engine ..
    have hcol : t.col = s.col := State.engMark_col ..
    have hmem : t.mem = s.mem := State.engMark_mem ..
    have hsides' : t.copySides e c = .ok (a, b) := (State.copySides_bitcopy hbit hengine hcol).trans hsides
    have hrows : rows = t.bitBursts a b (if fld t.col.eng.toNat (2 * e.val) 2 = 0 then 0 else 2) := by
      simp only [State.bitBursts, State.bitRow, hmem, hcol]
      rfl
    rw [hrows] at hne
    refine ⟨t.copyGo e c a b, exec_copy (hstep.trans ((State.copySource_atHand (.inl ⟨hfetch, ha⟩)).trans
      (State.copyQueue_ready hloop hgate hsides'))), ?_, ?_⟩
    · rw [State.copyGo_mem, hmem]
    · rw [hrows]
      exact State.copyGo_bitcopy hbit ha hb (hengine ▸ hfetch) hne

end
